-- ==== Sys2Proof/Word.lean ====
section
/-! DEFINITION. The word sizes of the DS-40 (R2, R25). -/

namespace Sys2Proof

/-- A byte of memory. -/
abbrev Byte := BitVec 8
/-- A word of R2: 32 bits, the width of an element register. -/
abbrev Word := BitVec 32
/-- A dword of R2: 64 bits, the width of a mason register and of an instruction word (R25). -/
abbrev Dword := BitVec 64

end Sys2Proof
end

