-- ==== Sys2Proof/Machine/IntAlu.lean ====
section
/-! DEFINITION. Machine/IntAlu: the results of the integer instructions as functions of their operands (R93-R105, R110,
R115, R116), for either register width. The meanings that read the operands and write the results stand in
Machine/Integer.lean. -/

namespace Sys2Proof.Machine.IntAlu

/-- SatS of R93: v clamped to the signed range of w bits. -/
def satS (w : Nat) (v : Int) : BitVec w :=
  BitVec.ofInt w (max (-(2 ^ (w - 1) : Int)) (min v (2 ^ (w - 1) - 1)))

/-- SatU of R93: v clamped to the unsigned range of w bits. -/
def satU (w : Nat) (v : Int) : BitVec w := BitVec.ofInt w (max 0 (min v (2 ^ w - 1)))

/-- A truth value as a register value (R100). -/
def ofCond (w : Nat) (c : Bool) : BitVec w := if c then 1 else 0

def add (w : Nat) (a b : BitVec w) : BitVec w := a + b
def sub (w : Nat) (a b : BitVec w) : BitVec w := a - b
def and (w : Nat) (a b : BitVec w) : BitVec w := a &&& b
def or (w : Nat) (a b : BitVec w) : BitVec w := a ||| b
def xor (w : Nat) (a b : BitVec w) : BitVec w := a ^^^ b
def andn (w : Nat) (a b : BitVec w) : BitVec w := a &&& ~~~b
def min (w : Nat) (a b : BitVec w) : BitVec w := if a.slt b then a else b
def max (w : Nat) (a b : BitVec w) : BitVec w := if a.slt b then b else a
def minu (w : Nat) (a b : BitVec w) : BitVec w := if a.ult b then a else b
def maxu (w : Nat) (a b : BitVec w) : BitVec w := if a.ult b then b else a
def adds (w : Nat) (a b : BitVec w) : BitVec w := satS w (a.toInt + b.toInt)
def subs (w : Nat) (a b : BitVec w) : BitVec w := satS w (a.toInt - b.toInt)
def addsu (w : Nat) (a b : BitVec w) : BitVec w := satU w ((a.toNat : Int) + b.toNat)
def subsu (w : Nat) (a b : BitVec w) : BitVec w := satU w ((a.toNat : Int) - b.toNat)
def absd (w : Nat) (a b : BitVec w) : BitVec w := BitVec.ofNat w (a.toInt - b.toInt).natAbs
/-- Floor((Signed(a) + Signed(b) + 1) / 2) of R96. -/
def avg (w : Nat) (a b : BitVec w) : BitVec w := BitVec.ofInt w ((a.toInt + b.toInt + 1) / 2)

/-- The shift counts of R97 are taken modulo W. -/
def shl (w : Nat) (a b : BitVec w) : BitVec w := a <<< (b.toNat % w)
def shr (w : Nat) (a b : BitVec w) : BitVec w := a >>> (b.toNat % w)
def sar (w : Nat) (a b : BitVec w) : BitVec w := a.sshiftRight (b.toNat % w)
def rol (w : Nat) (a b : BitVec w) : BitVec w :=
  let n := b.toNat % w
  if n = 0 then a else a <<< n ||| a >>> (w - n)
def ror (w : Nat) (a b : BitVec w) : BitVec w :=
  let n := b.toNat % w
  if n = 0 then a else a >>> n ||| a <<< (w - n)

def mul (w : Nat) (a b : BitVec w) : BitVec w := a * b
/-- The high halves of R98: the exact product divided by 2^W, rounded down. -/
def mulhs (w : Nat) (a b : BitVec w) : BitVec w := BitVec.ofInt w (a.toInt * b.toInt / 2 ^ w)
def mulhu (w : Nat) (a b : BitVec w) : BitVec w := BitVec.ofNat w (a.toNat * b.toNat / 2 ^ w)
def mulhsu (w : Nat) (a b : BitVec w) : BitVec w := BitVec.ofInt w (a.toInt * b.toNat / 2 ^ w)

/-- R99, with its two borderline columns. -/
def divs (w : Nat) (a b : BitVec w) : BitVec w := if b = 0 then BitVec.allOnes w else BitVec.ofInt w (a.toInt.tdiv b.toInt)
def divu (w : Nat) (a b : BitVec w) : BitVec w := if b = 0 then BitVec.allOnes w else a / b
def rems (w : Nat) (a b : BitVec w) : BitVec w := if b = 0 then a else BitVec.ofInt w (a.toInt.tmod b.toInt)
def remu (w : Nat) (a b : BitVec w) : BitVec w := if b = 0 then a else a % b

def cmpeq (w : Nat) (a b : BitVec w) : BitVec w := ofCond w (a == b)
def cmpne (w : Nat) (a b : BitVec w) : BitVec w := ofCond w (a != b)
def cmplt (w : Nat) (a b : BitVec w) : BitVec w := ofCond w (a.slt b)
def cmple (w : Nat) (a b : BitVec w) : BitVec w := ofCond w (a.sle b)
def cmpltu (w : Nat) (a b : BitVec w) : BitVec w := ofCond w (a.ult b)
def cmpleu (w : Nat) (a b : BitVec w) : BitVec w := ofCond w (a.ule b)
def tst (w : Nat) (a b : BitVec w) : BitVec w := ofCond w (a &&& b != 0)
def tstn (w : Nat) (a b : BitVec w) : BitVec w := ofCond w (a &&& b == 0)

/-- The one-operand forms of R101; the second operand is the unused field's zero. -/
def clz (w : Nat) (a _ : BitVec w) : BitVec w := BitVec.ofNat w (if a = 0 then w else w - 1 - a.toNat.log2)
def ctz (w : Nat) (a _ : BitVec w) : BitVec w := BitVec.ofNat w (((List.range w).find? a.getLsbD).getD w)
def popc (w : Nat) (a _ : BitVec w) : BitVec w := BitVec.ofNat w ((List.range w).countP a.getLsbD)
def brev (w : Nat) (a _ : BitVec w) : BitVec w := a.reverse
def bswap (w : Nat) (a _ : BitVec w) : BitVec w :=
  (List.range (w / 8)).foldl (fun acc k => acc ||| ((a >>> (8 * k)) &&& 0xFF) <<< (w - 8 - 8 * k)) 0
def sexb (w : Nat) (a _ : BitVec w) : BitVec w := (a.setWidth 8).signExtend w
def sexh (w : Nat) (a _ : BitVec w) : BitVec w := (a.setWidth 16).signExtend w
def zexh (w : Nat) (a _ : BitVec w) : BitVec w := (a.setWidth 16).setWidth w

/-- The position of a bit field (R102 in an element, R95 in a mason core). -/
def fieldPos (w : Nat) (b : BitVec w) : Nat := if w = 64 then b.toNat / 64 % 64 else b.toNat / 32 % 32

/-- The width of a bit field, clipped at the top bit (R102, R95). -/
def fieldLen (w : Nat) (b : BitVec w) : Nat :=
  let len := (if w = 64 then b.toNat % 64 else b.toNat % 32) + 1
  if fieldPos w b + len > w then w - fieldPos w b else len

def bfxu (w : Nat) (a b : BitVec w) : BitVec w :=
  BitVec.ofNat w (a.toNat / 2 ^ fieldPos w b % 2 ^ fieldLen w b)

def bfxs (w : Nat) (a b : BitVec w) : BitVec w :=
  (BitVec.ofNat (fieldLen w b) (a.toNat / 2 ^ fieldPos w b)).signExtend w

/-- BFI reads the old D (R102). -/
def bfi (w : Nat) (a b d : BitVec w) : BitVec w :=
  let mask := BitVec.ofNat w ((2 ^ fieldLen w b - 1) * 2 ^ fieldPos w b)
  (d &&& ~~~mask) ||| ((a <<< fieldPos w b) &&& mask)

/-- MOVKS (R105). -/
def movks (w : Nat) (d : BitVec w) (imm : BitVec 22) : BitVec w := d <<< 22 ||| imm.setWidth w

/-- Lane j of a packed word, lanes of n bits (R44). -/
def lane (n : Nat) (a : Word) (j : Nat) : BitVec n := a.extractLsb' (n * j) n

/-- A packed word of two 16-bit lanes (R115). -/
def map2h (f : BitVec 16 → BitVec 16 → BitVec 16) (a b : Word) : Word :=
  f (lane 16 a 1) (lane 16 b 1) ++ f (lane 16 a 0) (lane 16 b 0)

/-- A packed word of four 8-bit lanes (R116). -/
def map4b (f : Byte → Byte → Byte) (a b : Word) : Word :=
  f (lane 8 a 3) (lane 8 b 3) ++ (f (lane 8 a 2) (lane 8 b 2) ++ (f (lane 8 a 1) (lane 8 b 1) ++ f (lane 8 a 0) (lane 8 b 0)))

/-- The sum over the four 8-bit lanes (R116). -/
def sum4b (f : Byte → Byte → Int) (a b : Word) : Word :=
  BitVec.ofInt 32 (f (lane 8 a 0) (lane 8 b 0) + f (lane 8 a 1) (lane 8 b 1) + f (lane 8 a 2) (lane 8 b 2)
    + f (lane 8 a 3) (lane 8 b 3))

def add2h := map2h (add 16)
def sub2h := map2h (sub 16)
def max2h := map2h (max 16)
def min2h := map2h (min 16)
def max2hu := map2h (maxu 16)
def min2hu := map2h (minu 16)
def add4b := map4b (add 8)
def sub4b := map4b (sub 8)
def max4b := map4b (max 8)
def min4b := map4b (min 8)
def sad4b := sum4b fun x y => ((x.toNat : Int) - y.toNat).natAbs
def dot4b := sum4b fun x y => x.toInt * y.toInt
def dot4bu := sum4b fun x y => (x.toNat : Int) * y.toNat

end Sys2Proof.Machine.IntAlu
end

