-- ==== Sys2Proof/Machine/Num.lean ====
section
/-! DEFINITION. Machine/Num: the number formats and the rounding of "Number formats and arithmetic" (R45-R60). Values are
exact: a finite value is an integer times a power of two, a quotient is a fraction of naturals. -/

namespace Sys2Proof.Machine.Num

/-- The five exceptions of R51 at their bits of R54: IV 0, DZ 1, OF 2, UF 3, IX 4. -/
abbrev Flags := BitVec 5

def fIV : Flags := 0b00001
def fDZ : Flags := 0b00010
def fOF : Flags := 0b00100
def fUF : Flags := 0b01000
def fIX : Flags := 0b10000

/-- The rounding modes of R47. -/
inductive RM where
  | rne | rna | rtz | rup | rdn
  deriving DecidableEq, Repr

/-- The mode of a code of R47. The loader rejects the codes 5-7 wherever they could stand; a code that firmware commits past the loader
rounds as RNE (DESIGN CHOICE, log 6). -/
def RM.ofCode (c : Nat) : RM :=
  match c with
  | 1 => .rna | 2 => .rtz | 3 => .rup | 4 => .rdn | _ => .rne

/-- A format of R45: fraction width, bias; the precision is w + 1. -/
structure Fmt where
  w    : Nat
  bias : Nat
  ebits : Nat
  deriving DecidableEq, Repr

def fp32 : Fmt := ⟨23, 127, 8⟩
def fp16 : Fmt := ⟨10, 15, 5⟩
def bf16 : Fmt := ⟨7, 127, 8⟩

def Fmt.emin (f : Fmt) : Int := 1 - f.bias
def Fmt.emax (f : Fmt) : Int := f.bias
/-- The exponent field of infinities and NaNs. -/
def Fmt.eTop (f : Fmt) : Nat := 2 ^ f.ebits - 1
def Fmt.signBit (f : Fmt) : Nat := 2 ^ (f.w + f.ebits)
def Fmt.inf (f : Fmt) : Nat := f.eTop * 2 ^ f.w
/-- The largest finite value of R45. -/
def Fmt.maxFinite (f : Fmt) : Nat := f.inf - 1
/-- The canonical quiet NaN of R46. -/
def Fmt.nan (f : Fmt) : Nat := f.inf + 2 ^ (f.w - 1)
/-- The bits of a magnitude with a sign. -/
def Fmt.signed (f : Fmt) (neg : Bool) (mag : Nat) : Nat := if neg then mag + f.signBit else mag

/-- An exact value: NaN, infinity, or a sign with n × 2^e (n = 0: a zero of that sign). -/
inductive Val where
  | nan (signalling : Bool)
  | inf (neg : Bool)
  | num (neg : Bool) (n : Nat) (e : Int)
  deriving DecidableEq, Repr

/-- The value of the bits `b` in format `f` (R45); with `iz` a subnormal is a zero of its sign (R53). -/
def ofBits (f : Fmt) (iz : Bool) (b : Nat) : Val :=
  let neg := b / f.signBit % 2 == 1
  let e := b / 2 ^ f.w % 2 ^ f.ebits
  let m := b % 2 ^ f.w
  if e = f.eTop then
    if m = 0 then .inf neg else .nan (m / 2 ^ (f.w - 1) == 0)
  else if e = 0 then .num neg (if iz then 0 else m) (f.emin - f.w)
  else .num neg (2 ^ f.w + m) ((e : Int) - f.bias - f.w)

/-- The bits after input zeroing (R53). -/
def zeroed (f : Fmt) (iz : Bool) (b : Nat) : Nat :=
  if iz && b / 2 ^ f.w % 2 ^ f.ebits == 0 then b / f.signBit % 2 * f.signBit else b

namespace Val

def isNan : Val → Bool
  | nan _ => true
  | _ => false

def isSig : Val → Bool
  | nan s => s
  | _ => false

def isInf : Val → Bool
  | inf _ => true
  | _ => false

def isZero : Val → Bool
  | num _ n _ => n == 0
  | _ => false

def neg : Val → Bool
  | nan _ => false
  | inf s => s
  | num s _ _ => s

/-- The value with its sign inverted; a NaN stays. -/
def negate : Val → Val
  | nan s => nan s
  | inf s => inf (!s)
  | num s n e => num (!s) n e

end Val

/-- A fraction of naturals, n / d. -/
structure Frac where
  n : Nat
  d : Nat
  deriving DecidableEq, Repr

/-- n × 2^e as a fraction. -/
def Frac.ofDyadic (n : Nat) (e : Int) : Frac := if 0 ≤ e then ⟨n * 2 ^ e.toNat, 1⟩ else ⟨n, 2 ^ (-e).toNat⟩

/-- Floor(Log2(a)) of a nonzero fraction. -/
def Frac.floorLog2 (a : Frac) : Int :=
  let e : Int := (a.n.log2 : Int) - a.d.log2
  let ge := if 0 ≤ e then decide (a.d * 2 ^ e.toNat ≤ a.n) else decide (a.d ≤ a.n * 2 ^ (-e).toNat)
  if ge then e else e - 1

/-- RoundSig of R48 onto multiples of 2^k: how many multiples, and whether that is a exactly. -/
def roundSig (a : Frac) (k : Int) (neg : Bool) (rm : RM) : Nat × Bool :=
  let n := if 0 ≤ k then a.n else a.n * 2 ^ (-k).toNat
  let d := if 0 ≤ k then a.d * 2 ^ k.toNat else a.d
  let lo := n / d
  let r := n % d
  if r = 0 then (lo, true)
  else
    let up := match rm with
      | .rne => decide (d < 2 * r) || (decide (2 * r = d) && lo % 2 == 1)
      | .rna => decide (d ≤ 2 * r)
      | .rtz => false
      | .rup => !neg
      | .rdn => neg
    (if up then lo + 1 else lo, false)

/-- The magnitude of R49 on overflow. -/
def overflowMag (f : Fmt) (neg : Bool) (rm : RM) : Nat :=
  match rm with
  | .rne | .rna => f.inf
  | .rtz => f.maxFinite
  | .rup => if neg then f.maxFinite else f.inf
  | .rdn => if neg then f.inf else f.maxFinite

/-- A rounded result with the flags it raised. -/
structure Res where
  bits : Nat
  fl   : Flags
  deriving DecidableEq, Repr

/-- RoundFP of R48 for a nonzero magnitude; `fo` is FCTL.FO, taken as 0 outside elements (R52). -/
def roundFP (f : Fmt) (rm : RM) (fo : Bool) (neg : Bool) (a : Frac) : Res :=
  let eu := a.floorLog2
  let p : Nat := f.w + 1
  let tiny := decide (eu < f.emin - 1)
    || (decide (eu = f.emin - 1) && decide ((roundSig a (eu - f.w) neg rm).1 < 2 ^ p))
  let g := max eu f.emin - f.w
  let (k, exact) := roundSig a g neg rm
  let ix : Flags := if exact then 0 else fIX
  let mag := ((g + f.w + f.bias).toNat * 2 ^ f.w + k) - 2 ^ f.w
  if f.inf ≤ mag then ⟨f.signed neg (overflowMag f neg rm), fOF ||| fIX⟩
  else if tiny && fo then ⟨f.signed neg 0, ix ||| fUF ||| fIX⟩
  else ⟨f.signed neg mag, ix ||| (if tiny && !exact then fUF else 0)⟩

/-- The rounding context of an instruction (R52, R53). -/
structure Env where
  rm : RM
  fo : Bool
  iz : Bool
  deriving DecidableEq, Repr

/-- The canonical NaN with IV as given. -/
def nanRes (f : Fmt) (iv : Bool) : Res := ⟨f.nan, if iv then fIV else 0⟩

/-- A value that is exact in range or rounds once (R48); zeros and infinities keep their sign, a NaN is canonical. -/
def ofVal (f : Fmt) (v : Env) (x : Val) : Res :=
  match x with
  | .nan s => nanRes f s
  | .inf s => ⟨f.signed s f.inf, 0⟩
  | .num s n e => if n = 0 then ⟨f.signed s 0, 0⟩ else roundFP f v.rm v.fo s (.ofDyadic n e)

/-- The exact product, and whether it is the invalid 0 × ∞ (R46). A NaN operand gives a NaN, signalling if an operand is. -/
def mulVal (x y : Val) : Val × Bool :=
  match x, y with
  | .num s n e, .num t m h => (.num (s != t) (n * m) (e + h), false)
  | _, _ =>
    if x.isNan || y.isNan then (.nan (x.isSig || y.isSig), false)
    else if x.isZero || y.isZero then (.nan false, true)
    else (.inf (x.neg != y.neg), false)

/-- The exact sum of the finite terms as an integer times 2^e, e below every exponent. -/
def sumFinite (xs : List Val) : Int × Int :=
  let e := xs.foldl (fun m x => match x with | .num _ _ e => min m e | _ => m) 0
  (xs.foldl (fun t x => match x with
      | .num s n h => let v : Int := n * 2 ^ (h - e).toNat
                      if s then t - v else t + v
      | _ => t) 0, e)

/-- The rounded sum of exact terms: NaNs and infinities by R46, a zero sum by R50, one rounding by R48. `bad` says that a
product was invalid. Of more than two terms, a zero sum keeps the sign that all of them share as zeros (DEDUCED, log 90). -/
def sumRes (f : Fmt) (v : Env) (bad : Bool) (xs : List Val) : Res :=
  if bad then nanRes f true
  else if xs.any Val.isNan then nanRes f (xs.any Val.isSig)
  else if xs.any Val.isInf then
    let infs := xs.filter Val.isInf
    if infs.any Val.neg && infs.any (fun x => !x.neg) then nanRes f true else ⟨f.signed (infs.any Val.neg) f.inf, 0⟩
  else
    let (t, e) := sumFinite xs
    if t = 0 then
      let neg := if xs.all (fun x => x.isZero && x.neg) then true
        else if xs.all (fun x => x.isZero && !x.neg) then false else v.rm == .rdn
      ⟨f.signed neg 0, 0⟩
    else roundFP f v.rm v.fo (decide (t < 0)) (.ofDyadic t.natAbs e)

/-- The quotient of R120. -/
def divRes (f : Fmt) (v : Env) (x y : Val) : Res :=
  let neg := x.neg != y.neg
  if x.isNan || y.isNan then nanRes f (x.isSig || y.isSig)
  else match x, y with
    | .num _ n e, .num _ m h =>
      if m = 0 then (if n = 0 then nanRes f true else ⟨f.signed neg f.inf, fDZ⟩)
      else if n = 0 then ⟨f.signed neg 0, 0⟩
      else
        let a := Frac.ofDyadic n e
        let b := Frac.ofDyadic m h
        roundFP f v.rm v.fo neg ⟨a.n * b.d, a.d * b.n⟩
    | .inf _, .inf _ => nanRes f true
    | .inf _, _ => ⟨f.signed neg f.inf, 0⟩
    | _, _ => ⟨f.signed neg 0, 0⟩

/-- The integer square root: the bits of the root from `k` - 1 down to 0. -/
def isqrtAux (n : Nat) : Nat → Nat → Nat
  | 0, r => r
  | k + 1, r => let t := r + 2 ^ k
                isqrtAux n k (if t * t ≤ n then t else r)

def isqrt (n : Nat) : Nat := isqrtAux n (n.log2 / 2 + 1) 0

/-- A fraction that rounds, at 32 significant bits or fewer, as the square root of `a` does: the root to at least 40 bits
with one more bit that is set when the root is not exact. -/
def sqrtFrac (a : Frac) : Frac :=
  let j : Nat := (40 + (-(a.floorLog2 / 2)).toNat)
  let q := a.n * 4 ^ j / a.d
  let r := isqrt q
  let exact := r * r * a.d == a.n * 4 ^ j
  ⟨2 * r + (if exact then 0 else 1), 2 * 2 ^ j⟩

/-- fsqrt of R124. -/
def sqrtRes (f : Fmt) (v : Env) (x : Val) : Res :=
  match x with
  | .nan s => nanRes f s
  | .inf neg => if neg then nanRes f true else ⟨f.inf, 0⟩
  | .num neg n e =>
    if n = 0 then ⟨f.signed neg 0, 0⟩
    else if neg then nanRes f true
    else roundFP f v.rm v.fo false (sqrtFrac (.ofDyadic n e))

/-- Comparison of two values that are not NaNs; −0 equals +0 (R123). -/
def cmpVal (x y : Val) : Ordering :=
  match x, y with
  | .inf s, .inf t => if s = t then .eq else if s then .lt else .gt
  | .inf s, _ => if s then .lt else .gt
  | _, .inf t => if t then .gt else .lt
  | _, _ => let (t, _) := sumFinite [x, y.negate]
            if t < 0 then .lt else if t = 0 then .eq else .gt

/-- The order of R121, in which −0 stands below +0. -/
def totalLt (x y : Val) : Bool :=
  match cmpVal x y with
  | .lt => true
  | .gt => false
  | .eq => x.neg && !y.neg

/-- The forms of R121. -/
inductive MinMaxForm where
  | min | max | minn | maxn
  deriving DecidableEq, Repr

/-- MinMax of R121 on the operands' bits. -/
def minMax (f : Fmt) (form : MinMaxForm) (iz : Bool) (a b : Nat) : Res :=
  let a := zeroed f iz a
  let b := zeroed f iz b
  let x := ofBits f false a
  let y := ofBits f false b
  let fl : Flags := if x.isSig || y.isSig then fIV else 0
  let number := form == .minn || form == .maxn
  if x.isNan && y.isNan then ⟨f.nan, fl⟩
  else if x.isNan then ⟨if number then b else f.nan, fl⟩
  else if y.isNan then ⟨if number then a else f.nan, fl⟩
  else
    let small := form == .min || form == .minn
    if totalLt x y then ⟨if small then a else b, fl⟩
    else if totalLt y x then ⟨if small then b else a, fl⟩
    else ⟨a, fl⟩

/-- The compares of R123: equal, less, less or equal, unordered, not equal. -/
inductive CmpForm where
  | eq | lt | le | un | ne
  deriving DecidableEq, Repr

/-- A compare: its truth value and its flags; `sig` is the signalling kind (R123). -/
def compare (form : CmpForm) (sig : Bool) (x y : Val) : Bool × Flags :=
  if x.isNan || y.isNan then
    (form == .un || form == .ne, if x.isSig || y.isSig || sig then fIV else 0)
  else
    (match form, cmpVal x y with
      | .eq, .eq => true
      | .lt, .lt => true
      | .le, .lt => true
      | .le, .eq => true
      | .ne, .lt => true
      | .ne, .gt => true
      | _, _ => false, 0)

/-- The class mask of R124: the bits are those of the class table. -/
def classMask (f : Fmt) (iz : Bool) (b : Nat) : Nat :=
  match ofBits f iz b with
  | .nan s => if s then 2 ^ 8 else 2 ^ 9
  | .inf neg => if neg then 1 else 2 ^ 7
  | .num neg n _ =>
    if n = 0 then (if neg then 2 ^ 3 else 2 ^ 4)
    else if n < 2 ^ f.w then (if neg then 2 ^ 2 else 2 ^ 5)
    else if neg then 2 else 2 ^ 6

/-- frint of R124 on FP32 bits: IX when the result differs from x. -/
def rint (f : Fmt) (v : Env) (b : Nat) : Res :=
  let b := zeroed f v.iz b
  match ofBits f false b with
  | .nan s => nanRes f s
  | .inf _ => ⟨b, 0⟩
  | .num neg n e =>
    if n = 0 || decide (0 ≤ e) then ⟨b, 0⟩
    else
      let (k, exact) := roundSig (.ofDyadic n e) 0 neg v.rm
      let r := if k = 0 then f.signed neg 0 else (roundFP f v.rm false neg ⟨k, 1⟩).bits
      ⟨r, if exact then 0 else fIX⟩

/-- Approx12 of R125: 12 significant bits under RNE, as a count of 2^(⌊log2 v⌋ − 11) and that exponent. -/
def approx12 (v : Frac) : Nat × Int :=
  let q := v.floorLog2 - 11
  ((roundSig v q false .rne).1, q)

/-- FRCPA of R125. -/
def rcpa (iz : Bool) (b : Nat) : Res :=
  match ofBits fp32 iz b with
  | .nan s => nanRes fp32 s
  | .inf neg => ⟨fp32.signed neg 0, 0⟩
  | .num neg n e =>
    if n = 0 then ⟨fp32.signed neg fp32.inf, fDZ⟩
    else
      let a := Frac.ofDyadic n e
      let (k, q) := approx12 ⟨a.d, a.n⟩
      let y := Frac.ofDyadic k q
      if y.d * 2 ^ 128 ≤ y.n then ⟨fp32.signed neg fp32.inf, fOF⟩
      else if y.n * 2 ^ 126 < y.d then ⟨fp32.signed neg 0, fUF⟩
      else ⟨(roundFP fp32 .rne false neg y).bits, 0⟩

/-- FRSQA of R125. -/
def rsqa (iz : Bool) (b : Nat) : Res :=
  match ofBits fp32 iz b with
  | .nan s => nanRes fp32 s
  | .inf neg => if neg then nanRes fp32 true else ⟨0, 0⟩
  | .num neg n e =>
    if n = 0 then ⟨fp32.signed neg fp32.inf, fDZ⟩
    else if neg then nanRes fp32 true
    else
      let a := Frac.ofDyadic n e
      let (k, q) := approx12 (sqrtFrac ⟨a.d, a.n⟩)
      ⟨(roundFP fp32 .rne false false (Frac.ofDyadic k q)).bits, 0⟩

/-- i2f and n2f of R126. -/
def ofInt (f : Fmt) (v : Env) (x : Int) : Res :=
  if x = 0 then ⟨0, 0⟩ else roundFP f v.rm v.fo (decide (x < 0)) ⟨x.natAbs, 1⟩

/-- f2i, f2iz and f2n of R126 with the limits lo and hi. -/
def toInt (rm : RM) (x : Val) (lo hi : Int) : Int × Flags :=
  match x with
  | .nan _ => (0, fIV)
  | .inf neg => (if neg then lo else hi, fIV)
  | .num neg n e =>
    let (k, exact) := if n = 0 then (0, true) else roundSig (.ofDyadic n e) 0 neg rm
    let m : Int := if neg then -(k : Int) else k
    if m < lo then (lo, fIV) else if hi < m then (hi, fIV) else (m, if exact then 0 else fIX)

/-- The magnitude of an MK8 magnitude field, as a multiple of 2^-22 (R57). -/
def mk8Mag (m : Nat) : Nat :=
  if m = 0 then 0
  else if m < 2 then 1
  else if m < 4 then 2 ^ (m % 2 + 1)
  else if m < 8 then 2 ^ (m % 4 + 3)
  else if m < 16 then (2 + m % 2) * 2 ^ (m / 2 % 4 + 6)
  else if m < 32 then (4 + m % 4) * 2 ^ (m / 4 % 4 + 9)
  else if m < 64 then (8 + m % 8) * 2 ^ (m / 8 % 4 + 12)
  else (16 + m % 16) * 2 ^ (m / 16 % 4 + 15)

/-- ValueMK8 × 2^h of a code other than NX (R57, R58). -/
def mk8Val (c : Nat) (h : Int) : Val := .num (128 ≤ c && c ≠ 128) (mk8Mag (c % 128)) (h - 22)

/-- FromMK8 of R58 as an exact value; a NaN where the code or the block is NX. -/
def fromMK8 (c s : Nat) : Val :=
  if s = 255 || c = 0x80 then .nan false else mk8Val c ((s : Int) - 127)

/-- EncodeMK8 of R59 for the nonzero value with sign `neg` and magnitude `a`. -/
def encodeMK8 (neg : Bool) (a : Frac) (rm : RM) : Nat × Flags :=
  let sgn := if neg then 128 else 0
  if a.n * 16 > 31 * a.d then (sgn + 127, fOF ||| fIX)
  else
    let lo := ((List.range 128).filter (fun m => decide (mk8Mag m * a.d ≤ a.n * 2 ^ 22))).length - 1
    let exact := mk8Mag lo * a.d == a.n * 2 ^ 22
    let hi := lo + 1
    let below := a.n * 2 ^ 22 - mk8Mag lo * a.d
    let above := mk8Mag hi * a.d - a.n * 2 ^ 22
    let up := match rm with
      | .rne => decide (above < below) || (above == below && lo % 2 == 1)
      | .rna => decide (above ≤ below)
      | .rtz => false
      | .rup => !neg
      | .rdn => neg
    let c := if exact then lo else if up then hi else lo
    let ix : Flags := if exact then 0 else fIX
    if c = 0 then (0, ix ||| fUF) else (sgn + c, ix)

/-- ToMK8 of R59. -/
def toMK8 (x : Val) (s : Nat) (rm : RM) : Nat × Flags :=
  match x with
  | .num neg n e =>
    if s = 255 then (0x80, fIV)
    else if n = 0 then (0, 0)
    else encodeMK8 neg (.ofDyadic n (e - ((s : Int) - 127))) rm
  | _ => (0x80, fIV)

/-- One lane of R60. Every magnitude lies in 2^-22 to 2, so a change of the exponent by more than 64 rounds as one by 64
does: to the smallest step or past the largest code. -/
def requant (c : Nat) (delta : Int) (rm : RM) : Nat × Flags :=
  let delta := max (-64) (min 64 delta)
  if c = 0x80 then (0x80, 0)
  else if c = 0 then (0, 0)
  else match mk8Val c (-delta) with
    | .num neg n e => encodeMK8 neg (.ofDyadic n e) rm
    | _ => (0x80, 0)

/-- qscl of R132: the smallest t with v ≤ 1.9375 × 2^(t − 127), clamped to 0-254; 255 for a NaN or ∞. -/
def blockScale (x : Val) : Nat :=
  match x with
  | .num _ n e =>
    if n = 0 then 0
    else
      let a := Frac.ofDyadic n e
      ((List.range 254).find? (fun (t : Nat) =>
        let lim := Frac.ofDyadic 31 ((t : Int) - 127 - 4)
        decide (a.n * lim.d ≤ lim.n * a.d))).getD 254
  | _ => 255

/-- The bits of a rounded result as a word. -/
def Res.word (r : Res) : Word := BitVec.ofNat 32 r.bits

end Sys2Proof.Machine.Num
end

