-- ==== Sys2Proof/Machine/FpAlu.lean ====
section
/-! DEFINITION. Machine/FpAlu: the results of the floating, packed and MK8 instructions as functions of their operands
(R118-R133). Each gives the result word, the condition for PU action 11, and the flags of all its lanes. The meanings that
read the operands and write the results stand in Machine/Float.lean. -/

namespace Sys2Proof.Machine.FpAlu

open Sys2Proof.Machine.Num

/-- A result word, its condition and its flags. -/
structure FRes where
  val  : Word
  cond : Bool
  fl   : Flags
  deriving DecidableEq, Repr

/-- The condition "res ≠ 0" of R118. -/
def FRes.ofWord (w : Word) (fl : Flags) : FRes := ⟨w, w != 0, fl⟩

def FRes.ofRes (r : Res) : FRes := .ofWord r.word r.fl

def x32 (v : Env) (a : Word) : Val := ofBits fp32 v.iz a.toNat

def fadd (v : Env) (a b : Word) : FRes := .ofRes (sumRes fp32 v false [x32 v a, x32 v b])
def fsub (v : Env) (a b : Word) : FRes := .ofRes (sumRes fp32 v false [x32 v a, (x32 v b).negate])

/-- A rounded product (R120, R128). -/
def mulRes (f : Fmt) (v : Env) (x y : Val) : Res :=
  let (p, bad) := mulVal x y
  if bad then nanRes f true else ofVal f v p

def fmul (v : Env) (a b : Word) : FRes := .ofRes (mulRes fp32 v (x32 v a) (x32 v b))
def fdiv (v : Env) (a b : Word) : FRes := .ofRes (divRes fp32 v (x32 v a) (x32 v b))

def fminmax (form : MinMaxForm) (v : Env) (a b : Word) : FRes := .ofRes (minMax fp32 form v.iz a.toNat b.toNat)

/-- FFMA of R122: ± (a × b) ± d, one rounding. -/
def ffma (negProd negAcc : Bool) (f : Fmt) (v : Env) (x y z : Val) : Res :=
  let (p, bad) := mulVal x y
  sumRes f v bad [if negProd then p.negate else p, if negAcc then z.negate else z]

def fma (negProd negAcc : Bool) (v : Env) (a b d : Word) : FRes :=
  .ofRes (ffma negProd negAcc fp32 v (x32 v a) (x32 v b) (x32 v d))

/-- FCMP of R123. -/
def fcmp (form : CmpForm) (sig : Bool) (v : Env) (a b : Word) : FRes :=
  let (c, fl) := compare form sig (x32 v a) (x32 v b)
  ⟨IntAlu.ofCond 32 c, c, fl⟩

def fsqrt (v : Env) (a _ : Word) : FRes := .ofRes (sqrtRes fp32 v (x32 v a))
def fabs (_ : Env) (a _ : Word) : FRes := .ofWord (a &&& 0x7FFFFFFF) 0
def fneg (_ : Env) (a _ : Word) : FRes := .ofWord (a ^^^ 0x80000000) 0
def fclass (v : Env) (a _ : Word) : FRes := .ofWord (BitVec.ofNat 32 (classMask fp32 v.iz a.toNat)) 0
def frcpa (v : Env) (a _ : Word) : FRes := .ofRes (rcpa v.iz a.toNat)
def frsqa (v : Env) (a _ : Word) : FRes := .ofRes (rsqa v.iz a.toNat)
def frint (v : Env) (a _ : Word) : FRes := .ofRes (rint fp32 v a.toNat)
def fcpys (_ : Env) (a b : Word) : FRes := .ofWord ((a &&& 0x7FFFFFFF) ||| (b &&& 0x80000000)) 0

def i2f (v : Env) (a _ : Word) : FRes := .ofRes (ofInt fp32 v a.toInt)
def n2f (v : Env) (a _ : Word) : FRes := .ofRes (ofInt fp32 v a.toNat)

/-- f2i, f2iz and f2n of R126. -/
def toIntRes (rm : RM) (lo hi : Int) (v : Env) (a : Word) : FRes :=
  let (n, fl) := toInt rm (x32 v a) lo hi
  .ofWord (BitVec.ofInt 32 n) fl

def f2i (v : Env) (a _ : Word) : FRes := toIntRes v.rm (-(2 ^ 31)) (2 ^ 31 - 1) v a
def f2iz (v : Env) (a _ : Word) : FRes := toIntRes .rtz (-(2 ^ 31)) (2 ^ 31 - 1) v a
def f2n (v : Env) (a _ : Word) : FRes := toIntRes v.rm 0 (2 ^ 32 - 1) v a

/-- Lane j of a 16-bit packed word as a value of format f. -/
def lane16 (f : Fmt) (v : Env) (a : Word) (j : Nat) : Val := ofBits f v.iz (IntAlu.lane 16 a j).toNat

def f2bf (v : Env) (a _ : Word) : FRes := .ofRes (ofVal bf16 v (x32 v a))
def bf2fl (v : Env) (a _ : Word) : FRes := .ofRes (ofVal fp32 v (lane16 bf16 v a 0))
def bf2fh (v : Env) (a _ : Word) : FRes := .ofRes (ofVal fp32 v (lane16 bf16 v a 1))
def f2h (v : Env) (a _ : Word) : FRes := .ofRes (ofVal fp16 v (x32 v a))
def h2fl (v : Env) (a _ : Word) : FRes := .ofRes (ofVal fp32 v (lane16 fp16 v a 0))
def h2fh (v : Env) (a _ : Word) : FRes := .ofRes (ofVal fp32 v (lane16 fp16 v a 1))

/-- Two 16-bit lanes, the flags of both ORed (R118). -/
def lanes2 (g : Nat → Res) : FRes :=
  let r0 := g 0
  let r1 := g 1
  .ofWord (BitVec.ofNat 16 r1.bits ++ BitVec.ofNat 16 r0.bits) (r0.fl ||| r1.fl)

def add2 (f : Fmt) (v : Env) (a b _ : Word) : FRes :=
  lanes2 fun j => sumRes f v false [lane16 f v a j, lane16 f v b j]
def sub2 (f : Fmt) (v : Env) (a b _ : Word) : FRes :=
  lanes2 fun j => sumRes f v false [lane16 f v a j, (lane16 f v b j).negate]
def mul2 (f : Fmt) (v : Env) (a b _ : Word) : FRes := lanes2 fun j => mulRes f v (lane16 f v a j) (lane16 f v b j)
def fma2 (f : Fmt) (v : Env) (a b d : Word) : FRes :=
  lanes2 fun j => ffma false false f v (lane16 f v a j) (lane16 f v b j) (lane16 f v d j)
def minmax2 (form : MinMaxForm) (f : Fmt) (v : Env) (a b _ : Word) : FRes :=
  lanes2 fun j => minMax f form v.iz (IntAlu.lane 16 a j).toNat (IntAlu.lane 16 b j).toNat

/-- bdot2 and hdot2 of R128: one rounding of the exact sum. -/
def dot2 (f : Fmt) (v : Env) (a b d : Word) : FRes :=
  let (p0, bad0) := mulVal (lane16 f v a 0) (lane16 f v b 0)
  let (p1, bad1) := mulVal (lane16 f v a 1) (lane16 f v b 1)
  .ofRes (sumRes fp32 v (bad0 || bad1) [x32 v d, p0, p1])

/-- BCMP and HCMP of R129: a lane of all ones where the compare holds; the condition is both lanes. -/
def cmp2 (form : CmpForm) (f : Fmt) (v : Env) (a b : Word) : FRes :=
  let (c0, f0) := compare form false (lane16 f v a 0) (lane16 f v b 0)
  let (c1, f1) := compare form false (lane16 f v a 1) (lane16 f v b 1)
  let m (c : Bool) : BitVec 16 := if c then 0xFFFF else 0
  ⟨m c1 ++ m c0, c0 && c1, f0 ||| f1⟩

/-- Lane k of four MK8 codes. -/
def code (a : Word) (k : Nat) : Nat := (IntAlu.lane 8 a k).toNat

/-- qdot4 of R130. A product of a code 0 has the sign of its other code, also for the sign of a zero sum (DEDUCED, log 90). -/
def qdot4 (v : Env) (a b d : Word) : FRes :=
  if (List.range 4).any (fun k => code a k == 0x80 || code b k == 0x80) then
    .ofRes (nanRes fp32 (x32 v d).isSig)
  else
    .ofRes (sumRes fp32 v false
      (x32 v d :: (List.range 4).map fun k => (mulVal (mk8Val (code a k) 0) (mk8Val (code b k) 0)).1))

/-- qunpl and qunph of R131: codes j0 and j0 + 1. -/
def qunp (j0 : Nat) (v : Env) (a b _ : Word) : FRes :=
  lanes2 fun j => ofVal bf16 v (fromMK8 (code a (j0 + j)) (b.toNat % 256))

/-- qpack of R131. -/
def qpack (v : Env) (a b d : Word) : FRes :=
  let q (x : Word) (j : Nat) := toMK8 (lane16 bf16 v x j) (d.toNat % 256) .rne
  let c (r : Nat × Flags) : Byte := BitVec.ofNat 8 r.1
  let (r0, r1, r2, r3) := (q a 0, q a 1, q b 0, q b 1)
  .ofWord (c r3 ++ (c r2 ++ (c r1 ++ c r0))) (r0.2 ||| r1.2 ||| r2.2 ||| r3.2)

/-- qamax of R131: exact; FO flushes a tiny result as it does every FP32 result (R53). -/
def qamax (v : Env) (a b _ : Word) : FRes :=
  let abs (x : Val) : Val := if x.neg then x.negate else x
  let xs := [x32 v b, abs (lane16 bf16 v a 0), abs (lane16 bf16 v a 1)]
  if xs.any Val.isNan then .ofRes (nanRes fp32 (xs.any Val.isSig))
  else .ofRes (ofVal fp32 v
    (xs.foldl (fun m x => if totalLt m x then x else m) (.inf true)))

/-- q2f of R132. -/
def q2f (v : Env) (a b : Word) : FRes :=
  .ofRes (ofVal fp32 v (fromMK8 (code a (b.toNat / 256 % 4)) (b.toNat % 256)))

/-- f2q of R132. -/
def f2q (v : Env) (a b : Word) : FRes :=
  let (c, fl) := toMK8 (x32 v a) (b.toNat % 256) .rne
  .ofWord (BitVec.ofNat 32 c) fl

/-- qscl of R132: the block scale of |X(a)|. -/
def qscl (v : Env) (a _ : Word) : FRes := .ofWord (BitVec.ofNat 32 (blockScale (x32 v a))) 0

/-- REQ of R60 and R133. -/
def req (rm : RM) (a b : Word) : FRes :=
  let q (k : Nat) := requant (code a k) b.toInt rm
  let c (r : Nat × Flags) : Byte := BitVec.ofNat 8 r.1
  let (r0, r1, r2, r3) := (q 0, q 1, q 2, q 3)
  .ofWord (c r3 ++ (c r2 ++ (c r1 ++ c r0))) (r0.2 ||| r1.2 ||| r2.2 ||| r3.2)

end Sys2Proof.Machine.FpAlu
end

