-- ==== Sys2Proof/Machine/Sparse.lean ====
section
/-! DEFINITION. Machine/Sparse: data kept by key in one canonical form: keys strictly rising, and no entry equal to what an
unlisted key reads as. Memory is a Sparse of bytes; units, registers of a bank and queues of a unit are Sparses of
records. -/

namespace Sys2Proof.Machine

/-- A map from keys to values; `dflt` of each reader says what an unlisted key reads as. -/
abbrev Sparse (α : Type) := List (Nat × α)

namespace Sparse

variable {α : Type}

/-- The value at key `k`, `dflt` when it is not listed. -/
def get (dflt : α) : Sparse α → Nat → α
  | [], _ => dflt
  | (j, v) :: rest, k => if j = k then v else get dflt rest k

/-- The map without key `k`. -/
def erase : Sparse α → Nat → Sparse α
  | [], _ => []
  | (j, v) :: rest, k => if j = k then erase rest k else (j, v) :: erase rest k

/-- The map with `v` listed at `k`, keys rising. -/
def insert (k : Nat) (v : α) : Sparse α → Sparse α
  | [] => [(k, v)]
  | (j, u) :: rest =>
    if j = k then (k, v) :: rest else if k < j then (k, v) :: (j, u) :: rest else (j, u) :: insert k v rest

/-- A write of `v` at `k`: writing what an unlisted key reads as removes the entry. -/
def put [DecidableEq α] (dflt : α) (m : Sparse α) (k : Nat) (v : α) : Sparse α :=
  if v = dflt then m.erase k else m.insert k v

/-- Keys rise strictly, each above `lo`, and no entry equals `dflt`. -/
def wfFrom [DecidableEq α] (dflt : α) (lo : Nat) : Sparse α → Bool
  | [] => true
  | (j, v) :: rest => decide (lo ≤ j) && decide (v ≠ dflt) && wfFrom dflt (j + 1) rest

/-- The canonical form. -/
def wf [DecidableEq α] (dflt : α) (m : Sparse α) : Bool := m.wfFrom dflt 0

/-- The map without the keys that a test names. -/
def without (m : Sparse α) (p : Nat → Bool) : Sparse α := m.filter fun e => !p e.1

/-- The listed keys. -/
def keys (m : Sparse α) : List Nat := m.map Prod.fst

end Sparse

end Sys2Proof.Machine
end

