-- ==== Sys2Proof/Syntax.lean ====
section
/-! DEFINITION. Syntax: the six word formats of R29, the guard of R26, and one constructor of Instr for each
row of spec/opcode_table.json. The first 93 constructors are the whole steps of units that
spec/95_what_each_step_holds.md describes; the last 299 are instruction words (R25, R39). -/

namespace Sys2Proof

/-- Bits [63:34] of a word: an element's guard, or a mason core's condition (R26, R36). -/
structure Guard where
  pm  : BitVec 8
  pv  : BitVec 8
  ir  : BitVec 4
  orr : BitVec 4
  te  : BitVec 1
  tc  : BitVec 2
  tv  : BitVec 3
  deriving DecidableEq, Repr

/-- Format EA (R29), without F: the constructor fixes F, or carries it where F is a value. -/
structure EA where
  g  : Guard
  d  : BitVec 5
  a  : BitVec 5
  b  : BitVec 5
  dq : BitVec 4
  pu : BitVec 5
  deriving DecidableEq, Repr

/-- Format EI (R29). -/
structure EI where
  g   : Guard
  d   : BitVec 5
  a   : BitVec 5
  dq  : BitVec 4
  pu  : BitVec 5
  imm : BitVec 8
  deriving DecidableEq, Repr

/-- Format EK (R29). -/
structure EK where
  g   : Guard
  d   : BitVec 5
  imm : BitVec 22
  deriving DecidableEq, Repr

/-- Format EC (R29): combining registers. `ad` is A for the contributing forms and D for the reading forms. -/
structure EC where
  g   : Guard
  m   : BitVec 6
  ad  : BitVec 5
  opc : BitVec 4
  dq  : BitVec 4
  pu  : BitVec 5
  ty  : BitVec 3
  deriving DecidableEq, Repr

/-- Format MB (R29): a mason branch. -/
structure MB where
  g   : Guard
  a   : BitVec 5
  off : BitVec 22
  deriving DecidableEq, Repr

/-- Format MS (R29): a mason memory access. -/
structure MS where
  g   : Guard
  d   : BitVec 5
  a   : BitVec 5
  imm : BitVec 17
  deriving DecidableEq, Repr

/-- A unit that takes part in cuts and drains (R142, R344), by the key of its record in the state. -/
inductive UnitRef where
  | elem (k : Nat)
  | ag (k : Nat)
  | repeatNode (k : Nat)
  | schedNode (k : Nat)
  | island (k : Nat)
  | streamer (k : Nat)
  | keystone (k : Nat)
  deriving DecidableEq, Repr

/-- The causes of R345 for which a region rolls back; the arguments are what the event record of R354 names. -/
inductive RollCause where
  | deliveryTimeout (cls route : Nat)
  | linkRetrain (cls route : Nat)
  | pageFault (va ctx : Nat) (place : Word)
  | walkFormat (level va ctx : Nat) (place : Word)
  | spillFull (isl mark : Nat)
  | ecc (place : Nat)
  | firmware
  deriving DecidableEq, Repr

/-- One constructor per row of the opcode table. -/
inductive Instr where
  /-- R78. Each active round, the element scheduler picks conflict-free rules within the lane budget and fires them in walk order. -/
  | scheduleRound (e : Nat)
  /-- R87. A long-latency result writes its register and predicate and clears the busy marks. -/
  | resultLands (e : Nat)
  /-- R76. The switch accepts the oldest reserved token of an output when it is ready and a credit is held. -/
  | outputTokenAccept (ch : Nat)
  /-- R137. A token arrives at an input port and counts for guards from the next round. -/
  | tokenReceipt (ch dst : Nat)
  /-- R138. A slot credit returns to the sender once every destination has freed the slot. -/
  | creditReturn (ch : Nat)
  /-- R23. A token that misses its channel class bound raises a delivery-timeout fault, and the region rolls back. -/
  | deliveryTimeout (ch : Nat)
  /-- R338. When an entry's run of rounds ends, the frame table moves to the next valid entry and changes the active plane. -/
  | frameTableStep (die : Nat)
  /-- R13. The launch sequencer takes the highest-priority queue head and checks its handle and fields. -/
  | workQueueTake (die : Nat)
  /-- R14. The sequencer admits a launch when a fitting region with a free plane exists, or tries again at each round boundary. -/
  | launchAdmit (l : Nat)
  /-- R351. A pre-empted context is restored and thawed into the first plane that frees at its tiles. -/
  | preemptedRestore (l : Nat)
  /-- R14. The configuration-complete wave advances one tile hop per round east and south. -/
  | configurationWaveHop (r : Nat)
  /-- R336. The sequencer injects one seed token per round, and then a DRAIN to each seed port. -/
  | seedInjection (r : Nat)
  /-- R340. The next course of a graph is written into a free plane, or into the same plane after DRN, and committed. -/
  | nextCourseWrite (l : Nat)
  /-- R341. The last course passes DRN everywhere. Banks return, planes free and the completion record is written. -/
  | graphEnd (l : Nat)
  /-- R24. A launch that passes its latency-class bound is marked late with its first cause. -/
  | latencyClassExpiry (l : Nat)
  /-- R141. An element drains, goes ineligible and sends DRAIN on its remaining outputs. -/
  | elementDrain (e : Nat)
  /-- R18. A drained tile asks for an early cut, releases its held writes at that REL and accepts the next configuration. -/
  | tileDrn (pk : Nat)
  /-- R18. An island, streamer or keystone finishes its accepted commands and passes the drain on. -/
  | engineDrainPass (u : UnitRef)
  /-- R343. MKROUNDS rounds since the last cut start trigger a new cut. -/
  | mkroundsExpiry (r : Nat)
  /-- R343. A marker source that has emitted MKTOKENS tokens triggers a cut. -/
  | mktokensReached (u : UnitRef)
  /-- R343. The start request advances one tile hop per round, and sources emit MARKER n. -/
  | startRequestHop (r : Nat)
  /-- R142. A unit snapshots its state once MARKER n has reached all its forward inputs, and forwards markers. -/
  | snapshotEv (u : UnitRef)
  /-- R344. Cut n completes once every unit has saved its state. -/
  | cutComplete (r : Nat)
  /-- R69. In the round after cut completion, the posted effects held before the cut are released. -/
  | relEv (r : Nat)
  /-- R345. The region freezes, restores the last complete cut, drops held effects, posts the event and thaws. -/
  | rollbackEv (r : Nat) (cause : RollCause)
  /-- R182. A bank's ownership token passes to the consumer course once its streams end and its stores are released. -/
  | handEv (tile bank : Nat)
  /-- R183. A returned bank is scrubbed to zero and Empty over 256 rounds and then becomes grantable. -/
  | bankScrub (tile bank : Nat)
  /-- R177. Each round, a tile bank serves its requests in fixed order, and blocked requests wait. -/
  | bankService (tile : Nat)
  /-- R193. An AG issues one element request per round in stream order, paced by its credits. -/
  | agRequestIssue (a : Nat)
  /-- R193. The load data of an AG request returns and is delivered in request order. -/
  | agLoadData (a : Nat)
  /-- R187. The die walker finishes a walk and returns the leaf, NOT-PRESENT or MALFORMED. -/
  | walkEv (die : Nat)
  /-- R196. The repeat node takes a data token into its buffer. -/
  | repeatNodeFill (pk : Nat)
  /-- R196. The repeat node takes a count token and starts emitting. -/
  | repeatNodeCount (pk : Nat)
  /-- R196. The repeat node emits one buffered token per round. -/
  | repeatNodeEmit (pk : Nat)
  /-- R197. The schedule-table node serves a NEXT or RESET request. -/
  | scheduleNodeServe (pk : Nat)
  /-- R153. A contribution or close reaches the partial slot and is combined locally. -/
  | contribLocal (h k : Nat)
  /-- R155. A close notice reaches the home, which sets the contributor's closed bit. -/
  | closeNotice (h k : Nat)
  /-- R158. The home issues the gather in the round after the last close notice is recorded. -/
  | gatherIssue (h : Nat)
  /-- R158. A gather reads a slot's CUR, empties it for a settle and shifts NEXT into CUR. -/
  | gatherRead (h k : Nat)
  /-- R164. The partials reach the home, which combines them in the tree, writes D and sets the status. -/
  | settleReply (h : Nat)
  /-- R161. A CRST reset empties a slot and sends its acknowledgment. -/
  | resetArrival (h k : Nat)
  /-- R161. A reset acknowledgment reaches the home, and after the last one the reset completes. -/
  | resetAck (h k : Nat)
  /-- R204. A keystone issues the next arrived update, reads the word and writes it in the next round. -/
  | updateIssue (ks : Nat)
  /-- R209. An AMOR, AMOC or arrival leaves in the round after the REL of its early cut. -/
  | irrevocableDeparture (e : Nat)
  /-- R209. A keystone reply reaches the request port, lands in D and is kept until the next REL. -/
  | keystoneReply (e : Nat)
  /-- R214. The old home finishes its copy, clears HOLD, sets FWD and forwards its wait queue. -/
  | migrationCopyDone (ks : Nat)
  /-- R214. The old home forwards an arrival to the new home in arrival order. -/
  | keystoneForward (ks : Nat)
  /-- R225. A streamer takes the next command, checks it and starts it or completes it with a status. -/
  | streamerCommandAccept (st : Nat)
  /-- R226. A streamer command completes and sends its completion token. -/
  | streamerCommandComplete (st id : Nat)
  /-- R232. A held FLAGF writes its flag once the batch's writes are performed and REL has passed. -/
  | flagfWrite (st id : Nat)
  /-- R234. DRAIN at the command input closes the batch, asks for an early cut and completes all commands. -/
  | streamerDrain (st : Nat)
  /-- R377. A start token begins a bucket reduction on this rank. -/
  | collectiveStart (st : Nat)
  /-- R379. A hop message from another rank arrives, is buffered or deduplicated, and is combined. -/
  | collectiveHop (st : Nat)
  /-- R379. A bucket writes its result and sends its completion token. -/
  | bucketComplete (st b : Nat)
  /-- R245. An island accepts the next MXT command when the earlier ones allow it, and checks it. -/
  | islandCommandAccept (i : Nat)
  /-- R262. A spill or reload transfer is performed, and the waiting command is accepted. -/
  | spillTransferDone (i : Nat)
  /-- R245. An MMA finishes and sends its completion token. -/
  | mmaComplete (i : Nat)
  /-- R269. An island emits a FLUSH or BIND result value on its result output. -/
  | resultEmit (i : Nat)
  /-- R254. A dirty slot's checkpoint image write is performed for the pending cut. -/
  | islandCheckpointWrite (i slot : Nat)
  /-- R255. The island discards surplus operands, frees its slots and passes DRAIN on. -/
  | islandDrain (i : Nat)
  /-- R300. A mason core fetches and executes the word at PC. -/
  | instructionFetch (c : Nat)
  /-- R295. A waiting event record raises the asynchronous EVENT trap at an instruction boundary. -/
  | eventTrap (c : Nat)
  /-- R307. An idling core resumes when a record is queued. -/
  | idleWake (c : Nat)
  /-- R307. A core waiting in WFE resumes on SEV or a new record. -/
  | wfeWake (c : Nat)
  /-- R299. A write to core-control RUN starts a core at ENTRY or halts it. -/
  | coreRunWrite (c : Nat) (v : Dword)
  /-- R332. The commit wave reaches a tile, which swaps its shadow into the committed plane. -/
  | commitWaveHop (r : Nat)
  /-- R352. After 65,536 active rounds with no progress, probes start, and any cycle posts DEADLOCK. -/
  | deadlockProbeAuto (r : Nat)
  /-- R356. A fatal error dumps state, sets FATAL and ends every running launch. -/
  | fatalError (cause : Nat)
  /-- R366. A host LAUNCH message acts as WQPUSH on the permitted queue. -/
  | hostLaunch
  /-- R365. A host reads 8–64 bytes of status space. -/
  | hostMread
  /-- R365. A host writes 8–64 bytes of status space. -/
  | hostMwrite
  /-- R400. A host sets the power state RUN, IDLE or STANDBY. -/
  | hostPower
  /-- R365. A host message that replies DONE and resets the device. -/
  | hostReset
  /-- R367. A remote read request is applied at its destination memory node. -/
  | rdReq
  /-- R367. A remote write request is applied at its destination. -/
  | wrReq
  /-- R367. A remote keystone command is applied at its destination keystone. -/
  | kuReq
  /-- R367. A remote MAMO is applied at its destination. -/
  | atReq
  /-- R383. The ACK, data or reply of a DLT request reaches its source. -/
  | dltAnswer
  /-- R369. A DLT request that misses the 40 µs bound rolls back the region or traps TIMEOUT. -/
  | dltTimeout (id : Nat)
  /-- R375. A link retrains while traffic waits in its replay buffer. -/
  | linkRetrain (l : Nat)
  /-- R375. A retrain ends, and the replay buffer is sent again in order. -/
  | retrainComplete (l : Nat)
  /-- R375. A retrain that is unfinished after 20 µs times out the cross-die channels, remaps lanes or takes the link down. -/
  | retrainTimeout (l failed modules : Nat)
  /-- R399. Near the 2,400 W limit, idle issue rounds are inserted at islands and elements. -/
  | powerLimitIdle (u : UnitRef)
  /-- R408. Device reset sets every unit to its reset state, and the ROM boot begins. -/
  | deviceReset
  /-- R403. A firmware write of GO starts an attestation report. -/
  | attestationGo
  /-- R404. The signature index is committed, the report is signed and the state becomes done or exhausted. -/
  | attestationDone
  /-- R298. A write to a keystone range word maps, unmaps or grants single-source. -/
  | rangeWordWrite (ks : Nat) (v : Word)
  /-- R407. A write of tile control bit 1 retires a tile and moves a spare count. -/
  | tileRetire (tile : Nat)
  /-- R405. The patrol scrubber rewrites a vault granule on its 2^24-round schedule. -/
  | patrolScrub (die vault granule : Nat)
  /-- R3. A write to a register with no row of its own follows its Access codes. -/
  | registerWrite (place : Nat) (v : Dword)
  /-- R404. Supply is lost. An attestation signature index that was committed but not yet used is skipped, and the device is never signed twice with one index. -/
  | powerLoss
  /-- R372. The Ultra Ethernet link-level retry replays flits after a link error and advances the link's REPLAYS count. -/
  | linkLevelReplay (l : Nat)
  /-- R365. A host message with an unknown TYPE, a nonzero zero field or a malformed body is answered DENIED and has no effect. -/
  | hostMessage
  /-- R96. Integer add that wraps modulo 2^W. -/
  | add (x : EA)
  /-- R96. Integer subtract that wraps modulo 2^W. -/
  | sub (x : EA)
  /-- R96. Bitwise AND of A and B. -/
  | and (x : EA)
  /-- R96. Bitwise OR of A and B. -/
  | or (x : EA)
  /-- R96. Bitwise XOR of A and B. -/
  | xor (x : EA)
  /-- R96. A AND NOT B. -/
  | andn (x : EA)
  /-- R96. Signed minimum of A and B. -/
  | min (x : EA)
  /-- R96. Signed maximum of A and B. -/
  | max (x : EA)
  /-- R96. Unsigned minimum of A and B. -/
  | minu (x : EA)
  /-- R96. Unsigned maximum of A and B. -/
  | maxu (x : EA)
  /-- R96. Signed saturating add. -/
  | adds (x : EA)
  /-- R96. Signed saturating subtract. -/
  | subs (x : EA)
  /-- R96. Unsigned saturating add. -/
  | addsu (x : EA)
  /-- R96. Unsigned saturating subtract. -/
  | subsu (x : EA)
  /-- R96. Absolute signed difference, taken as unsigned. -/
  | absd (x : EA)
  /-- R96. Signed average, with halves rounded toward +infinity. -/
  | avg (x : EA)
  /-- R97. Shift left by B mod W, filling with zero. -/
  | shl (x : EA)
  /-- R97. Logical shift right by B mod W. -/
  | shr (x : EA)
  /-- R97. Arithmetic shift right by B mod W. -/
  | sar (x : EA)
  /-- R97. Rotate left by B mod W. -/
  | rol (x : EA)
  /-- R97. Rotate right by B mod W. -/
  | ror (x : EA)
  /-- R98. Low W bits of the product. -/
  | mul (x : EA)
  /-- R98. High W bits of the signed product. -/
  | mulhs (x : EA)
  /-- R98. High W bits of the unsigned product. -/
  | mulhu (x : EA)
  /-- R98. High W bits of the signed-by-unsigned product. -/
  | mulhsu (x : EA)
  /-- R99. Signed division that rounds toward zero and never traps. -/
  | divs (x : EA)
  /-- R99. Unsigned division. -/
  | divu (x : EA)
  /-- R99. Signed remainder, with the sign of the dividend. -/
  | rems (x : EA)
  /-- R99. Unsigned remainder. -/
  | remu (x : EA)
  /-- R100. Writes 1 if A equals B. -/
  | cmpeq (x : EA)
  /-- R100. Writes 1 if A differs from B. -/
  | cmpne (x : EA)
  /-- R100. Signed less-than compare. -/
  | cmplt (x : EA)
  /-- R100. Signed less-or-equal compare. -/
  | cmple (x : EA)
  /-- R100. Unsigned less-than compare. -/
  | cmpltu (x : EA)
  /-- R100. Unsigned less-or-equal compare. -/
  | cmpleu (x : EA)
  /-- R100. Writes 1 if A AND B is nonzero. -/
  | tst (x : EA)
  /-- R100. Writes 1 if A AND B is zero. -/
  | tstn (x : EA)
  /-- R101. Counts the leading zero bits of A. -/
  | clz (x : EA)
  /-- R101. Counts the trailing zero bits of A. -/
  | ctz (x : EA)
  /-- R101. Counts the one bits of A. -/
  | popc (x : EA)
  /-- R101. Reverses the bits of A. -/
  | brev (x : EA)
  /-- R101. Reverses the bytes of A. -/
  | bswap (x : EA)
  /-- R101. Sign-extends the low byte of A. -/
  | sexb (x : EA)
  /-- R101. Sign-extends the low halfword of A. -/
  | sexh (x : EA)
  /-- R101. Zero-extends the low halfword of A. -/
  | zexh (x : EA)
  /-- R102. Extracts an unsigned bit field. -/
  | bfxu (x : EA)
  /-- R102. Extracts a signed bit field. -/
  | bfxs (x : EA)
  /-- R102. Inserts a bit field into D. -/
  | bfi (x : EA)
  /-- R103. Selects A or B by predicate p[F]. -/
  | sel (x : EA) (f : BitVec 3)
  /-- R104. Adds a sign-extended 8-bit immediate. -/
  | addi (x : EI)
  /-- R104. ANDs with a sign-extended immediate. -/
  | andi (x : EI)
  /-- R104. ORs with a sign-extended immediate. -/
  | ori (x : EI)
  /-- R104. XORs with a sign-extended immediate. -/
  | xori (x : EI)
  /-- R104. Shifts left by an immediate count. -/
  | shli (x : EI)
  /-- R104. Shifts right logically by an immediate count. -/
  | shri (x : EI)
  /-- R104. Shifts right arithmetically by an immediate count. -/
  | sari (x : EI)
  /-- R104. Compares A with an immediate for equality. -/
  | cmpieq (x : EI)
  /-- R104. Signed less-than compare of A with an immediate. -/
  | cmpilt (x : EI)
  /-- R104. Unsigned less-than compare of A with an immediate. -/
  | cmpiltu (x : EI)
  /-- R104. Multiplies by an immediate and keeps the low W bits. -/
  | muli (x : EI)
  /-- R105. Writes a sign-extended 22-bit constant. -/
  | movk (x : EK)
  /-- R105. Shifts D left by 22 and ORs in a 22-bit constant. -/
  | movks (x : EK)
  /-- R106. Copies A to D, and to an output it writes a token with tag F. -/
  | mov (x : EA) (f : BitVec 3)
  /-- R107. Forwards an input head token, tag included, to an output. -/
  | fwd (x : EA)
  /-- R110. Reads the eight predicates as a byte. -/
  | pget (x : EA)
  /-- R110. Writes the eight predicates from a byte. -/
  | pput (x : EA)
  /-- R110. Sets the predicates selected by a mask. -/
  | psetm (x : EA)
  /-- R110. Clears the predicates selected by a mask. -/
  | pclrm (x : EA)
  /-- R111. Applies only its takes and its predicate update. -/
  | nop (x : EA)
  /-- R112. Loads a word of the element's local store. -/
  | lld (x : EI)
  /-- R112. Stores a word into the element's local store. -/
  | lst (x : EI)
  /-- R113. Posts an ETRAP event to the die's event queue. -/
  | etrap (x : EA) (f : BitVec 3)
  /-- R109. Writes an ERR token with payload A to an output. -/
  | errt (x : EA)
  /-- R114. Sets HALT on the element in its plane. -/
  | ehalt (x : EA)
  /-- R115. Adds two 16-bit lanes with wrapping. -/
  | add2h (x : EA)
  /-- R115. Subtracts two 16-bit lanes with wrapping. -/
  | sub2h (x : EA)
  /-- R115. Signed maximum of each 16-bit lane. -/
  | max2h (x : EA)
  /-- R115. Signed minimum of each 16-bit lane. -/
  | min2h (x : EA)
  /-- R115. Unsigned maximum of each 16-bit lane. -/
  | max2hu (x : EA)
  /-- R115. Unsigned minimum of each 16-bit lane. -/
  | min2hu (x : EA)
  /-- R116. Adds four byte lanes with wrapping. -/
  | add4b (x : EA)
  /-- R116. Subtracts four byte lanes with wrapping. -/
  | sub4b (x : EA)
  /-- R116. Signed maximum of each byte lane. -/
  | max4b (x : EA)
  /-- R116. Signed minimum of each byte lane. -/
  | min4b (x : EA)
  /-- R116. Sum of the absolute byte-lane differences. -/
  | sad4b (x : EA)
  /-- R116. Signed dot product of the four byte lanes. -/
  | dot4b (x : EA)
  /-- R116. Unsigned dot product of the four byte lanes. -/
  | dot4bu (x : EA)
  /-- R120. FP32 add, rounded once. -/
  | fadd (x : EA)
  /-- R120. FP32 subtract, rounded once. -/
  | fsub (x : EA)
  /-- R120. FP32 multiply, rounded once. -/
  | fmul (x : EA)
  /-- R120. Correctly rounded FP32 divide. -/
  | fdiv (x : EA)
  /-- R121. IEEE minimum of two FP32 values. -/
  | fmin (x : EA)
  /-- R121. IEEE maximum of two FP32 values. -/
  | fmax (x : EA)
  /-- R121. IEEE minimumNumber of two FP32 values. -/
  | fminn (x : EA)
  /-- R121. IEEE maximumNumber of two FP32 values. -/
  | fmaxn (x : EA)
  /-- R122. Fused A times B plus D, rounded once. -/
  | fma (x : EA)
  /-- R122. Fused A times B minus D. -/
  | fms (x : EA)
  /-- R122. Fused minus A times B, plus D. -/
  | fnma (x : EA)
  /-- R122. Fused minus A times B, minus D. -/
  | fnms (x : EA)
  /-- R123. Quiet FP32 equality compare. -/
  | fceq (x : EA)
  /-- R123. Quiet FP32 less-than compare. -/
  | fclt (x : EA)
  /-- R123. Quiet FP32 less-or-equal compare. -/
  | fcle (x : EA)
  /-- R123. Tests whether the two operands are unordered. -/
  | fcun (x : EA)
  /-- R123. Quiet not-equal compare, true when unordered. -/
  | fcne (x : EA)
  /-- R123. Signalling FP32 equality compare. -/
  | fceqs (x : EA)
  /-- R123. Signalling FP32 less-than compare. -/
  | fclts (x : EA)
  /-- R123. Signalling FP32 less-or-equal compare. -/
  | fcles (x : EA)
  /-- R124. Correctly rounded FP32 square root. -/
  | fsqrt (x : EA)
  /-- R124. Clears the sign bit. -/
  | fabs (x : EA)
  /-- R124. Inverts the sign bit. -/
  | fneg (x : EA)
  /-- R124. Writes the one-hot class mask of A. -/
  | fclass (x : EA)
  /-- R125. 12-bit approximation of the reciprocal. -/
  | frcpa (x : EA)
  /-- R125. 12-bit approximation of the reciprocal square root. -/
  | frsqa (x : EA)
  /-- R124. Rounds to an integral FP32 value. -/
  | frint (x : EA)
  /-- R124. Copies the sign of B onto A. -/
  | fcpys (x : EA)
  /-- R126. Converts a signed integer to FP32. -/
  | i2f (x : EA)
  /-- R126. Converts an unsigned integer to FP32. -/
  | n2f (x : EA)
  /-- R126. Converts FP32 to a signed integer in FCTL.RM. -/
  | f2i (x : EA)
  /-- R126. Converts FP32 to a signed integer, rounding toward zero. -/
  | f2iz (x : EA)
  /-- R126. Converts FP32 to an unsigned integer. -/
  | f2n (x : EA)
  /-- R127. Narrows FP32 to BF16. -/
  | f2bf (x : EA)
  /-- R127. Widens the low BF16 half to FP32. -/
  | bf2fl (x : EA)
  /-- R127. Widens the high BF16 half to FP32. -/
  | bf2fh (x : EA)
  /-- R127. Narrows FP32 to FP16. -/
  | f2h (x : EA)
  /-- R127. Widens the low FP16 half to FP32. -/
  | h2fl (x : EA)
  /-- R127. Widens the high FP16 half to FP32. -/
  | h2fh (x : EA)
  /-- R128. Adds two BF16 lanes. -/
  | badd2 (x : EA)
  /-- R128. Subtracts two BF16 lanes. -/
  | bsub2 (x : EA)
  /-- R128. Multiplies two BF16 lanes. -/
  | bmul2 (x : EA)
  /-- R128. Fused multiply-add on two BF16 lanes. -/
  | bfma2 (x : EA)
  /-- R128. IEEE maximum of each BF16 lane. -/
  | bmax2 (x : EA)
  /-- R128. IEEE minimum of each BF16 lane. -/
  | bmin2 (x : EA)
  /-- R128. BF16x2 dot product accumulated into FP32 D. -/
  | bdot2 (x : EA)
  /-- R128. maximumNumber of each BF16 lane. -/
  | bmaxv2 (x : EA)
  /-- R128. Adds two FP16 lanes. -/
  | hadd2 (x : EA)
  /-- R128. Subtracts two FP16 lanes. -/
  | hsub2 (x : EA)
  /-- R128. Multiplies two FP16 lanes. -/
  | hmul2 (x : EA)
  /-- R128. Fused multiply-add on two FP16 lanes. -/
  | hfma2 (x : EA)
  /-- R128. IEEE maximum of each FP16 lane. -/
  | hmax2 (x : EA)
  /-- R128. IEEE minimum of each FP16 lane. -/
  | hmin2 (x : EA)
  /-- R128. FP16x2 dot product accumulated into FP32 D. -/
  | hdot2 (x : EA)
  /-- R129. Lane-wise BF16 equality compare. -/
  | bceq2 (x : EA)
  /-- R129. Lane-wise BF16 less-than compare. -/
  | bclt2 (x : EA)
  /-- R129. Lane-wise BF16 less-or-equal compare. -/
  | bcle2 (x : EA)
  /-- R129. Lane-wise BF16 unordered test. -/
  | bcun2 (x : EA)
  /-- R129. Lane-wise FP16 equality compare. -/
  | hceq2 (x : EA)
  /-- R129. Lane-wise FP16 less-than compare. -/
  | hclt2 (x : EA)
  /-- R129. Lane-wise FP16 less-or-equal compare. -/
  | hcle2 (x : EA)
  /-- R129. Lane-wise FP16 unordered test. -/
  | hcun2 (x : EA)
  /-- R130. Four-lane MK8 dot product added to FP32 D, rounded once. -/
  | qdot4 (x : EA)
  /-- R131. Decodes the low two MK8 codes to BF16x2. -/
  | qunpl (x : EA)
  /-- R131. Decodes the high two MK8 codes to BF16x2. -/
  | qunph (x : EA)
  /-- R131. Encodes four BF16 values to MK8 under the scale in D. -/
  | qpack (x : EA)
  /-- R131. Running absolute maximum over a BF16x2 operand. -/
  | qamax (x : EA)
  /-- R132. Decodes one MK8 code to FP32. -/
  | q2f (x : EA)
  /-- R132. Encodes FP32 to one MK8 code. -/
  | f2q (x : EA)
  /-- R132. Computes the block scale for an absolute maximum. -/
  | qscl (x : EA)
  /-- R133. Requantises four MK8 codes, rounding to nearest even. -/
  | reqRne (x : EA)
  /-- R133. Requantises four MK8 codes, rounding ties away from zero. -/
  | reqRna (x : EA)
  /-- R133. Requantises four MK8 codes, rounding toward zero. -/
  | reqRtz (x : EA)
  /-- R133. Requantises four MK8 codes, rounding up. -/
  | reqRup (x : EA)
  /-- R133. Requantises four MK8 codes, rounding down. -/
  | reqRdn (x : EA)
  /-- R133. Requantises four MK8 codes in FCTL.RM. -/
  | reqFctl (x : EA)
  /-- R134. Reads FFLG. -/
  | frfl (x : EA)
  /-- R134. Writes FFLG bits [4:0]. -/
  | fwfl (x : EA)
  /-- R134. Clears FFLG. -/
  | fclr (x : EA)
  /-- R157. Sends a value to the contributor's partial slot. -/
  | contrib (x : EC)
  /-- R157. Sends a value to the partial slot and closes the generation. -/
  | contribc (x : EC)
  /-- R157. Closes the contributor's current generation. -/
  | cclose (x : EC)
  /-- R158. Waits for every close, gathers the partials, combines them and advances the generation. -/
  | settle (x : EC)
  /-- R159. Gathers and combines the current partials without waiting or changing them. -/
  | peek (x : EC)
  /-- R160. Reads the register's 64-bit status word. -/
  | cstat (x : EC)
  /-- R160. Reads the count of closed contributors. -/
  | cpoll (x : EC)
  /-- R161. Resets the combining register to its state at course load. -/
  | crst (x : EC)
  /-- R248. Sends an MMA command to a matrix island. -/
  | mxtMma (x : EA)
  /-- R269. Sends a BIND command to mix the marked slots with coefficients. -/
  | mxtBind (x : EA)
  /-- R271. Sends a REBIND command that mixes the bound slots again. -/
  | mxtRebind (x : EA)
  /-- R272. Sends a RELEASE command that frees marks. -/
  | mxtRelease (x : EA)
  /-- R272. Sends a SPILL command for a mark. -/
  | mxtSpill (x : EA)
  /-- R251. Sends a FLUSH command that reads a slot out. -/
  | mxtFlush (x : EA)
  /-- R252. Sends a SETUP command that changes the island's RW setup fields. -/
  | mxtSetup (x : EA)
  /-- R253. Sends an IFENCE command that completes after all earlier work. -/
  | mxtIfence (x : EA)
  /-- R227. Streamer byte copy between SPB streams, with an optional format stage. -/
  | stcCopy (x : EA)
  /-- R228. Streamer gather through an index stream. -/
  | stcGather (x : EA)
  /-- R228. Streamer scatter through an index stream. -/
  | stcScatter (x : EA)
  /-- R232. Flagged fence that writes a flag after the batch's writes and REL. -/
  | stcFlagf (x : EA)
  /-- R231. Closes the open batch. -/
  | stcBatch (x : EA)
  /-- R231. Closes the open batch and waits until at most N batches are outstanding. -/
  | stcWaitb (x : EA)
  /-- R233. Sends an expert block onto the weight ring. -/
  | stcInject (x : EA)
  /-- R233. Evicts an expert at the next pass boundary. -/
  | stcEvict (x : EA)
  /-- R206. Posted keystone add. -/
  | amoAdd (x : EA)
  /-- R206. Posted keystone unsigned saturating add. -/
  | amoAdds (x : EA)
  /-- R206. Posted keystone signed minimum. -/
  | amoMin (x : EA)
  /-- R206. Posted keystone signed maximum. -/
  | amoMax (x : EA)
  /-- R206. Posted keystone AND. -/
  | amoAnd (x : EA)
  /-- R206. Posted keystone OR. -/
  | amoOr (x : EA)
  /-- R206. Posted keystone XOR. -/
  | amoXor (x : EA)
  /-- R206. Posted keystone swap, which re-initialises a barrier word. -/
  | amoSwap (x : EA)
  /-- R209. Irrevocable keystone add with reply, or a barrier arrival. -/
  | amorAdd (x : EA)
  /-- R209. Irrevocable saturating add with reply. -/
  | amorAdds (x : EA)
  /-- R209. Irrevocable signed minimum with reply. -/
  | amorMin (x : EA)
  /-- R209. Irrevocable signed maximum with reply. -/
  | amorMax (x : EA)
  /-- R209. Irrevocable AND with reply. -/
  | amorAnd (x : EA)
  /-- R209. Irrevocable OR with reply, which reads a barrier word. -/
  | amorOr (x : EA)
  /-- R209. Irrevocable XOR with reply. -/
  | amorXor (x : EA)
  /-- R209. Irrevocable swap with reply. -/
  | amorSwap (x : EA)
  /-- R206. Irrevocable keystone compare-and-swap against d[F], with reply. -/
  | amoc (x : EA) (f : BitVec 3)
  /-- R207. Posted keystone FP32 add in the range's rounding mode. -/
  | amofFadd (x : EA)
  /-- R207. Posted keystone FP32 maximum. -/
  | amofFmax (x : EA)
  /-- R207. Posted keystone FP32 minimum. -/
  | amofFmin (x : EA)
  /-- R207. Posted keystone BF16x2 add. -/
  | amofBadd2 (x : EA)
  /-- R342. Asks the schedule-table node for its next entry. -/
  | schdNext (x : EA)
  /-- R342. Resets the schedule-table cursor. -/
  | schdReset (x : EA)
  /-- R267. Builds and sends one coefficient entry. -/
  | mxq (x : EA)
  /-- R301. PC-relative branch. -/
  | br (x : MB)
  /-- R301. PC-relative branch that writes g31. -/
  | brl (x : MB)
  /-- R301. Branch to a register value. -/
  | bri (x : EA)
  /-- R301. Branch to a register value with a link register. -/
  | brli (x : EA)
  /-- R301. Writes a PC-relative address. -/
  | movpc (x : EK)
  /-- R302. Loads a zero-extended byte. -/
  | ldb (x : MS)
  /-- R302. Loads a zero-extended halfword. -/
  | ldh (x : MS)
  /-- R302. Loads a zero-extended word. -/
  | ldw (x : MS)
  /-- R302. Loads a dword. -/
  | ldd (x : MS)
  /-- R302. Loads a sign-extended byte. -/
  | ldbs (x : MS)
  /-- R302. Loads a sign-extended halfword. -/
  | ldhs (x : MS)
  /-- R302. Loads a sign-extended word. -/
  | ldws (x : MS)
  /-- R302. Stores a byte. -/
  | stb (x : MS)
  /-- R302. Stores a halfword. -/
  | sth (x : MS)
  /-- R302. Stores a word. -/
  | stw (x : MS)
  /-- R302. Stores a dword. -/
  | std (x : MS)
  /-- R303. Atomic dword add at the memory node. -/
  | mamoAdd (x : EA)
  /-- R303. Atomic signed minimum. -/
  | mamoMin (x : EA)
  /-- R303. Atomic signed maximum. -/
  | mamoMax (x : EA)
  /-- R303. Atomic AND. -/
  | mamoAnd (x : EA)
  /-- R303. Atomic OR. -/
  | mamoOr (x : EA)
  /-- R303. Atomic XOR. -/
  | mamoXor (x : EA)
  /-- R303. Atomic swap. -/
  | mamoSwap (x : EA)
  /-- R303. Atomic compare-and-swap against the old D. -/
  | mamoCas (x : EA)
  /-- R304. Orders all earlier accesses before all later ones. -/
  | fenceAll (x : EA)
  /-- R304. Orders loads and MAMO before later loads and MAMO. -/
  | fenceLd (x : EA)
  /-- R304. Orders stores and MAMO before later stores and MAMO. -/
  | fenceSt (x : EA)
  /-- R304. Acquire fence. -/
  | fenceAcq (x : EA)
  /-- R304. Release fence. -/
  | fenceRel (x : EA)
  /-- R304. Orders the configuration and system accesses. -/
  | fenceCfg (x : EA)
  /-- R305. Drops one line of the instruction cache. -/
  | iinv (x : EA)
  /-- R305. Empties the instruction cache. -/
  | iinva (x : EA)
  /-- R306. Reads a system register. -/
  | sysrd (x : EI)
  /-- R306. Writes a system register. -/
  | syswr (x : EI)
  /-- R307. Takes a SYSCALL trap into firmware mode. -/
  | trap (x : EA)
  /-- R294. Returns from a trap. -/
  | eret (x : EA)
  /-- R307. Waits until an event record is queued. -/
  | idle (x : EA)
  /-- R307. Waits for the event flag or an event record. -/
  | wfe (x : EA)
  /-- R307. Sets EVF on every mason core of the die. -/
  | sev (x : EA)
  /-- R307. Takes a BREAK trap. -/
  | brk (x : EA)
  /-- R307. Stops the core. Firmware mode only. -/
  | halt (x : EA)
  /-- R309. Sends one dword of a tile block to a configuration port. -/
  | cfgw (x : EA)
  /-- R309. Reads a configuration dword. -/
  | cfgr (x : EA)
  /-- R332. Checks the route targets and runs the commit wave over a region. -/
  | cfgcommit (x : EA)
  /-- R309. Discards the selected plane's shadows in a region. -/
  | cfgabort (x : EA)
  /-- R309. Reads a configuration-port status word. -/
  | cfgstat (x : EA)
  /-- R309. Selects the core's configuration plane. -/
  | planesel (x : EA)
  /-- R309. Reads an item from the last complete cut's snapshot. -/
  | snaprd (x : EA)
  /-- R309. Rolls a frozen region back to its last complete cut. -/
  | rollbk (x : EA)
  /-- R347. Stops a region and gates its clock. -/
  | freeze (x : EA)
  /-- R310. Ungates a frozen region. -/
  | thaw (x : EA)
  /-- R348. Writes a frozen region's state to memory. -/
  | readout (x : EA)
  /-- R350. Writes a readout image back into a frozen region. -/
  | restore (x : EA)
  /-- R352. Sends deadlock probes through a region. -/
  | probe (x : EA)
  /-- R310. Asks a region's sources to send DRAIN at once. -/
  | drainreq (x : EA)
  /-- R311. CRC32C update over one byte. -/
  | crcb (x : EA)
  /-- R311. CRC32C update over two bytes. -/
  | crch (x : EA)
  /-- R311. CRC32C update over four bytes. -/
  | crcw (x : EA)
  /-- R311. CRC32C update over eight bytes. -/
  | crcd (x : EA)
  /-- R312. Absorbs bytes into the SHAKE256 sponge, or empties it. -/
  | shka (x : EA)
  /-- R312. Squeezes eight SHAKE256 output bytes. -/
  | shks (x : EA)
  /-- R312. Verifies an XMSS signature. -/
  | sigv (x : EA)
  /-- R312. Reads the security status. -/
  | secst (x : EA)
  /-- R313. Takes the head entry of a mason-serviced queue. -/
  | wqpop (x : EA)
  /-- R313. Appends a 64-byte entry to a work queue. -/
  | wqpush (x : EA)
  /-- R313. Reads a work queue's state. -/
  | wqstat (x : EA)
  /-- R314. Atomically takes the head event record. -/
  | evpop (x : EA)
  /-- R314. Answers an event that waits for firmware, with resume or fail. -/
  | evack (x : EA)
  /-- R314. Reads EVQ. -/
  | evstat (x : EA)
  /-- R315. Reads a link status word. -/
  | lkst (x : EA)
  /-- R315. Requests a link retrain. -/
  | lkrt (x : EA)
  /-- R373. Writes a link control word. Firmware mode only. -/
  | lkctl (x : EA)
  /-- R316. Invalidates matching translations package-wide. -/
  | tlbi (x : EA)
  /-- R316. Walks the page tables without filling any cache. -/
  | pwalk (x : EA)
  /-- R214. Migrates a device keystone to a new home. -/
  | migr (x : EA)
  /-- R316. Reads a keystone's forwarding state. -/
  | migq (x : EA)
  /-- R317. Reads an island item. -/
  | slotrd (x : EA)
  /-- R317. Writes an island item. -/
  | slotwr (x : EA)
  /-- R317. Reads an island's status. -/
  | islst (x : EA)
  /-- R317. Reads a streamer item. -/
  | strd (x : EA)
  /-- R317. Writes a streamer item. -/
  | stwr (x : EA)
  /-- R317. Reads a streamer's status. -/
  | stst (x : EA)
  /-- R318. Reads a keystone word in arrival order. -/
  | ksrd (x : EA)
  /-- R318. Writes a keystone word, which re-initialises a barrier word. -/
  | kswr (x : EA)
  /-- R318. Reads a range status and clears the selected sticky bits. -/
  | ksst (x : EA)
  deriving DecidableEq, Repr

end Sys2Proof
end

