-- ==== Sys2Proof/Machine/Types.lean ====
section
/-! DEFINITION. Machine/Types: the records that State holds for tokens, elements, combining registers, mason cores, regions
and launches. Units are named by keys, which are natural numbers: a tile by die × 1024 + row × 32 + col; a plane of a tile
by tile × 4 + plane; an element of a plane by that × 16 + element (R5, R72). -/

namespace Sys2Proof.Machine

/-! ### Tokens and channels -/

/-- A token (R10, R11). A data token's payload stands in bits [31:0]; a command token's two operand words stand in the
64 bits and its form in `form` (R225, R245). -/
structure Token where
  tag     : BitVec 3
  payload : Dword
  form    : BitVec 3 := 0
  deriving DecidableEq, Repr, Inhabited

/-- A token that an input port holds: the channel it came on, the place of this port in the channel's list of destinations,
and the round in which it arrived (R76). -/
structure InTok where
  tok : Token
  ch  : Nat
  dst : Nat
  arr : Nat
  deriving DecidableEq, Repr, Inhabited

/-- A reserved token of an output port: ready to leave from round `ready` (R76, R86); with `wait` it waits for the reply of
the command with that ticket (R156, R201, R225, R245). -/
structure OutTok where
  tok   : Token
  ready : Nat
  wait  : Option Nat := none
  deriving DecidableEq, Repr, Inhabited

/-- A token on its way (R137): its number in the order of the sends, the round of the send, and the place in the list of
destinations that it is on its way to (R138). -/
structure Flight where
  tok  : Token
  seq  : Nat
  sent : Nat
  dst  : Nat
  deriving DecidableEq, Repr, Inhabited

/-- A channel by the key of its sender port: tokens sent, tokens whose slot each destination has freed, credits that have
returned, the tokens on their way (R10, R76, R138), and the order tokens that wait for a credit (R211, R283). -/
structure Chan where
  sent     : Nat := 0
  freed    : Sparse Nat := []
  returned : Nat := 0
  flight   : List Flight := []
  owed     : Nat := 0
  deriving DecidableEq, Repr, Inhabited

/-- The ports of a unit and its part in cuts and drains (R76, R141, R142): the tokens that each input and output holds, the
channels that feed each input, which inputs are back and which markerless (as bits), how many MARKERs have come on each back
input, which outputs have carried a DRAIN, whether the unit has drained, the cut of its last snapshot, and the tokens it has
emitted since its last MARKER (R343). -/
structure Ports where
  ins      : Sparse (List InTok) := []
  outs     : Sparse (List OutTok) := []
  feed     : Sparse (List Nat) := []
  back     : Nat := 0
  markerless : Nat := 0
  backSeen : Sparse Nat := []
  closedOut : Nat := 0
  drained  : Bool := false
  snapCut  : Nat := 0
  sinceMark : Nat := 0
  deriving DecidableEq, Repr, Inhabited

/-! ### Elements -/

/-- SLOTST of one slot (R74). -/
structure SlotSt where
  cls    : Nat := 0
  age    : Nat := 0
  lastc  : Nat := 0
  aborts : Nat := 0
  deriving DecidableEq, Repr, Inhabited

/-- An event record (R353). -/
structure EvRec where
  type  : Nat
  code  : Nat
  id    : Nat
  place : Word
  cyc   : Dword
  d2    : Dword
  d3    : Dword
  deriving DecidableEq, Repr, Inhabited

/-- A result on its way to the element's own registers (R87), which lands in round `due`. An ETRAP is an event on its way to the queue
(R113). -/
structure Landing where
  due    : Nat
  regs   : List (Nat × Word) := []
  pred   : Option (Nat × Bool) := none
  ev     : Option EvRec := none
  deriving DecidableEq, Repr, Inhabited

/-- Where the reply of a reading command goes (R156, R201): up to two registers from `dreg`, or an output, and the PU
predicate with its action. -/
structure Wait where
  ticket : Nat
  dreg   : Option Nat
  wide   : Bool := false
  out    : Option Nat
  pu     : BitVec 5
  deriving DecidableEq, Repr, Inhabited

/-- A keystone target of an element's request port (R201): the range's key, its word count and mode as bound, and the order
input its order tokens enter (R211), with the SLOTS of their channel (R283). `device` is the device of a range on another device
(R367). -/
structure KsTarget where
  range   : Nat
  words   : Nat
  bar     : Bool := false
  device  : Option Nat := none
  place   : Nat := 0
  orderIn : Option Nat := none
  orderSlots : Nat := 4
  deriving DecidableEq, Repr, Inhabited

/-- What a command does at its keystone (R205-R207, R318). -/
inductive KOp where
  /-- AMO and AMOR, by form. -/
  | int (f : Nat)
  /-- AMOC with its compare value. -/
  | cas (c : Word)
  /-- AMOF, by form. -/
  | float (f : Nat)
  /-- KSRD, KSWR and KSST with the sticky bits it clears. -/
  | read
  | write
  | status (clear : BitVec 7)
  deriving DecidableEq, Repr, Inhabited

/-- One command to a keystone (R202): operation, word index and operand. -/
structure KCmd where
  op  : KOp
  idx : Nat
  b   : Word
  deriving DecidableEq, Repr, Inhabited

/-- A command that the request port holds for REL (R208): its target, and the cut interval it was made in. -/
structure Posted where
  target : Nat
  cmd    : KCmd
  cut    : Nat
  deriving DecidableEq, Repr, Inhabited

/-- The copy that a request port keeps of a reply (R209), and the first cut whose snapshot holds the reply as landed. -/
structure KeptReply where
  ticket : Nat
  tok    : Token
  cut    : Nat
  deriving DecidableEq, Repr, Inhabited

/-- An irrevocable command of a request port (R209): it leaves after REL of cut `cut`. -/
structure Irrev where
  target : Nat
  cmd    : KCmd
  ticket : Nat
  cut    : Nat
  sent   : Bool := false
  deriving DecidableEq, Repr, Inhabited

/-- What reaches a request port (R209, R211): the reply of a ticket, or the news that an update was applied. -/
inductive KsIn where
  | reply (due ticket : Nat) (tok : Token)
  | applied (due target : Nat)
  deriving DecidableEq, Repr, Inhabited

/-- Per-plane state of an element (R72), with its results in flight, its request port and its part in drains and cuts. -/
structure Elem where
  d        : Sparse Word := []
  p        : BitVec 8 := 0
  ls       : Sparse Word := []
  slots    : Sparse Dword := []
  st       : Sparse SlotSt := []
  ptr      : Sparse Nat := []
  conflict : Sparse (BitVec 16) := []
  ecfg     : Word := 0
  fctl     : Word := 0
  fflg     : Word := 0
  movMark  : Sparse Dword := []
  busyD    : BitVec 16 := 0
  busyP    : BitVec 8 := 0
  halt     : Bool := false
  landing  : List Landing := []
  waits    : List Wait := []
  targets  : Sparse KsTarget := []
  posted   : List Posted := []
  irrev    : List Irrev := []
  ksOut    : Sparse Nat := []
  ksIn     : List KsIn := []
  kept     : List KeptReply := []
  drainAt  : Option Nat := none
  io       : Ports := {}
  deriving DecidableEq, Repr, Inhabited

/-! ### Combining registers -/

/-- The declaration of a combining register (R146). Contributors are elements or islands, by key. -/
structure MDecl where
  opc   : Nat
  ty    : Nat
  rm    : Nat
  home  : Nat
  contribs : List (Bool × Nat)
  resettable : Bool
  deriving DecidableEq, Repr, Inhabited

/-- A buffer of a partial slot (R150). -/
structure PBuf where
  v   : Bool := false
  m   : Bool := false
  val : Word := 0
  opc : Nat := 0
  ty  : Nat := 0
  fl  : BitVec 7 := 0
  deriving DecidableEq, Repr, Inhabited

/-- A generation that a slot has given up, by the number of resets before it and its own: its buffer, and whether it was closed. -/
structure PastGen where
  crsts : Nat
  gen   : BitVec 16
  buf   : PBuf
  closed : Bool
  deriving DecidableEq, Repr, Inhabited

/-- A partial slot (R150): CUR with its closed bit, NEXT, the generation, and how many resets it has taken (R166). `past` is what it gave
up since the last complete cut: a gather or reset that a rollback removes is undone, and a settle run again reads it there. -/
structure PSlot where
  mreg  : Nat := 0
  cidx  : Nat := 0
  gen   : BitVec 16 := 0
  cur   : PBuf := {}
  closed : Bool := false
  nxt   : PBuf := {}
  past  : List PastGen := []
  crsts : Nat := 0
  deriving DecidableEq, Repr, Inhabited

/-- A contribution or close on its way to its slot (R157). -/
structure CombCmd where
  due   : Nat
  value : Option (Word × Nat × Nat)
  close : Bool
  deriving DecidableEq, Repr, Inhabited

/-- What a slot sends to the home, in order (R155, R161). -/
inductive HomeMsg where
  | notice (due : Nat)
  | ack (due : Nat)
  deriving DecidableEq, Repr, Inhabited

/-- What a read took from a slot (R158, R159). -/
structure Part where
  buf    : PBuf
  closed : Bool
  at_    : Nat
  deriving DecidableEq, Repr, Inhabited

/-- The reading command or reset that is outstanding at a home (R158, R159, R161). -/
inductive HomeOp where
  | read (peek : Bool) (ticket : Nat) (fired : Nat) (issued : Option Nat) (parts : Sparse (Option Part))
  | reset (ticket : Nat) (fired : Nat) (acked : BitVec 16) (recorded : BitVec 16)
  deriving DecidableEq, Repr, Inhabited

/-- A register's home record (R149), with the commands and notices on their way to and from its slots. `slotKeys` are the
slots of the contributors in index order. -/
structure Home where
  decl   : MDecl := ⟨0, 0, 0, 0, [], false⟩
  slotKeys : List Nat := []
  gen    : BitVec 16 := 0
  closed : BitVec 16 := 0
  lastNotice : Nat := 0
  status : Dword := 0x3E0
  op     : Option HomeOp := none
  crsts  : Nat := 0
  toSlot : Sparse (List CombCmd) := []
  toHome : Sparse (List HomeMsg) := []
  deriving DecidableEq, Repr, Inhabited

/-! ### Keystones -/

/-- Where the reply of a keystone command goes (R201, R209, R318, R367). -/
inductive KSrc where
  | port (e target : Nat) (ticket : Option Nat)
  | core (c : Nat)
  | remote (id dev : Nat) (posted : Bool)
  deriving DecidableEq, Repr, Inhabited

/-- An update that has arrived at a keystone (R204). -/
structure KArr where
  cmd : KCmd
  src : KSrc
  arr : Nat
  deriving DecidableEq, Repr, Inhabited

/-- A keystone range (R199, R200, R212, R214): mapped or not, its declaration, the words of a device keystone (those of a tile keystone
stand in its bank), the sticky status bits, the input in arrival order, the held barrier arrivals by word, the interlock of R204 and the migration state. -/
structure Keystone where
  mapped : Bool := false
  words  : Nat := 0
  bar    : Bool := false
  ss     : Bool := false
  rm     : Nat := 0
  bank   : Nat := 0
  mem    : Sparse Word := []
  sticky : BitVec 7 := 0
  inq    : List KArr := []
  held   : List (Nat × KSrc) := []
  last   : Option (Nat × Nat) := none
  hold   : Bool := false
  fwd    : Option Nat := none
  copyTo : Option Nat := none
  waitQ  : List KArr := []
  bound  : Nat := 0
  deriving DecidableEq, Repr, Inhabited

/-! ### Memory and streams -/

/-- A walk in progress (R189): the AG or streamer that waits, its address and context. -/
structure WalkReq where
  block : Nat
  va    : Nat
  ctx   : Nat
  write : Bool
  owner : UnitRef
  deriving DecidableEq, Repr

/-- A pinned range of a stream (R191). -/
structure Pin where
  va    : Nat
  len   : Nat
  place : Nat
  deriving DecidableEq, Repr, Inhabited

/-- An element request of an AG (R193): its number, the index that named it (R194), its place and size, or the token that stands in
its place; and its data once it has been read. -/
structure AgReq where
  seq   : Nat
  idx   : Nat := 0
  place : Nat
  size  : Nat
  tok   : Option Token := none
  fwdd  : Bool := false
  data  : Option (List Byte) := none
  issued : Nat
  deriving DecidableEq, Repr, Inhabited

/-- A store that an AG holds for REL (R193, R208): the index that named it (R194), the bytes, whether its granule is complete with it,
and the cut interval it was made in. -/
structure HeldStore where
  idx   : Nat := 0
  place : Nat
  bytes : List Byte
  full  : Bool
  cut   : Nat
  deriving DecidableEq, Repr, Inhabited

/-- An address generator of a plane (R193). Input 0 takes data, input 1 indices; output 0 sends data. `seq` is the next element
of the stream, `made` the elements made, `words` the words of a store element that is not complete, `gmask` the bytes written
in each granule, `stall` the round since which an access has been blocked (R17, R179), `ordPend` by cut the stores of its REL that other
devices have not confirmed, for which the order token waits (R211), `orderSlots` the SLOTS of its order channel (R283). -/
structure Ag where
  bound  : Bool := false
  spb    : List Dword := []
  ctx    : Nat := 0
  pins   : List Pin := []
  started : Bool := false
  seq    : Nat := 0
  made   : Nat := 0
  words  : List Word := []
  reqs   : List AgReq := []
  held   : List HeldStore := []
  gmask  : Sparse Nat := []
  lastG  : Option Nat := none
  stall  : Option Nat := none
  ended  : Bool := false
  endSent : Bool := false
  overrun : Bool := false
  discard : Bool := false
  orderTo : Option Nat := none
  orderSlots : Nat := 4
  ordPend : Sparse Nat := []
  io     : Ports := {}
  deriving DecidableEq, Repr, Inhabited

/-- State of the repeat node (R196). -/
inductive RepState where
  | fill | hold | emit (passes pos : Nat)
  deriving DecidableEq, Repr, Inhabited

/-- The repeat node of a plane (R196). Port 0 is the data input, port 1 the count input. `emitted` says that the buffer has been sent at
least once: the ERR tokens in it have gone on to their consumer (R11). -/
structure Repeat where
  bound : Bool := false
  bank  : Nat := 0
  st    : RepState := .fill
  buf   : List Token := []
  valid : Bool := false
  skip  : Bool := false
  emitted : Bool := false
  io    : Ports := {}
  deriving DecidableEq, Repr, Inhabited

/-- The schedule-table node of a plane (R197, R342): entries, cursor, the requests it holds with the rounds they reach it
(true: RESET), and its output. -/
structure SchedNode where
  bound  : Bool := false
  table  : List Word := []
  cursor : Nat := 0
  reqs   : List (Bool × Nat) := []
  feeds  : Nat := 0
  port   : Nat := 0
  io     : Ports := {}
  deriving DecidableEq, Repr, Inhabited

/-- A tile (R176-R183, R298, R407): fused and retired, the owner of each bank (launch and course), scrubs in progress by
bank with the granules done, the granule metadata (F + 2 C), by bank the round of its last access with the granule, and the last
round in which its own AGs have been served, with how far (R177): 1 AG 0, 2 AG 1 too, 3 their turn is over. -/
structure TileState where
  retired : Bool := false
  ownAt : Option (Nat × Nat) := none
  served : Sparse (Nat × Nat) := []
  owner  : Sparse (Option (Nat × Nat)) := []
  scrub  : Sparse (Option Nat) := []
  gmeta  : Sparse Nat := []
  deriving DecidableEq, Repr, Inhabited

/-! ### Mason cores -/

/-- Run state of a mason core (R286, R299, R307). -/
inductive CoreRun where
  | halted | running | double | idle | wfe
  deriving DecidableEq, Repr, Inhabited

/-- A leaf held by a translation cache (R186, R189): context, virtual page number and leaf dword, with the page's size as
its level. -/
structure Leaf where
  ctx   : Nat
  va    : Nat
  level : Nat
  dword : Dword
  deriving DecidableEq, Repr, Inhabited

/-- The access of a core that waits for its answer: over DLT (R368, R369), or from a keystone (R318). `cause` is the trap of a refusal;
`write` says whether the answer is written to D; `got` is the answer of a keystone with the round in which it reaches the core (R204);
`oper` says that the access moves bytes of a system operation's memory operand (R308), and `line` that it fetches a line for the
instruction cache (R300). -/
structure CorePend where
  id    : Nat
  addr  : Dword
  cause : Nat
  write : Bool
  dreg  : BitVec 5
  width : Nat
  signed : Bool
  pu    : BitVec 5
  got   : Option (Nat × Dword) := none
  oper  : Bool := false
  line  : Bool := false
  deriving DecidableEq, Repr, Inhabited

/-- The SHAKE256 sponge of a core (R312): what has been absorbed, and how many bytes have been squeezed. -/
structure Sponge where
  absorbed : List Byte := []
  squeezed : Nat := 0
  deriving DecidableEq, Repr, Inhabited

/-- A mason core (R286). `seen` is how many records had entered the die's queue when WFE began to wait (R307), `busyTo` what a long
system operation waits for before it completes (R308); `held` says that the word at PC has begun and has not completed, and `operands`
holds, by place, the bytes of its memory operands that other devices have sent or confirmed (R308, R367). -/
structure Core where
  g      : Sparse Dword := []
  p      : BitVec 8 := 0
  pc     : Dword := 0
  run    : CoreRun := .halted
  entry  : Dword := 0
  pstat  : Dword := 1
  tvb    : Dword := 0
  tcause : Dword := 0
  tepc   : Dword := 0
  tval   : Dword := 0
  tscr   : Dword := 0
  mctx   : Dword := 0
  selPlane : Nat := 0
  sponge : Sponge := {}
  tlb    : List Leaf := []
  icache : Sparse (List Byte) := []
  pend   : Option CorePend := none
  seen   : Nat := 0
  busyTo : Option Nat := none
  held   : Bool := false
  operands : List (Nat × List Byte) := []
  deriving DecidableEq, Repr, Inhabited

/-- The unit that executes the instruction word at hand (R35, R36): an element with the slot of the rule, or a core. -/
inductive ExecUnit where
  | element (key slot : Nat)
  | core (c : Nat)
  deriving DecidableEq, Repr, Inhabited

/-! ### Regions and launches -/

/-- A sink report (R12): where the ERR token stopped, and its payload. -/
structure SinkReport where
  place   : Word
  port    : Nat
  payload : Word
  cut     : Nat
  deriving DecidableEq, Repr, Inhabited

/-- A region with the course that it holds (R9, R14, R332, R340-R345). Coordinates are package rows and columns. `fails` are the engine
commands completed with a nonzero status, by cut interval, an island's marked true: a rollback removes those of its interval (R64);
`conBanks` are the banks that the course has written under CONSUME, as tile × 16 + bank (R180); `metaLog` are the granules whose
metadata units of the region have changed since the last complete cut, oldest first, with what they were and the cut interval (R180);
`afterRel` is a rollback that waits for a REL which is due (R344); `waitIsl` is the island of a SPILL-FULL that the
region waits on (R317); `act` counts the rounds in which the plane has been active, and `movedAt` holds it by plane key for the last move there; `pinned` and `pinnedKs` are the pins and
the places of keystone targets, by 4 × element + target, that the load of a launch's course has taken (R191, R201). -/
structure Region where
  live    : Bool := false
  prow    : Nat := 0
  pcol    : Nat := 0
  h       : Nat := 0
  w       : Nat := 0
  plane   : Nat := 0
  launch  : Option Nat := none
  course  : Nat := 0
  mkRounds : Nat := 0
  mkTokens : Nat := 0
  running : Bool := false
  frozen  : Bool := false
  frozenAt : Nat := 0
  commitHop : Option Nat := none
  waveHop : Option Nat := none
  seedPorts : Sparse (Nat × Word) := []
  seeds   : List (Nat × Token) := []
  seedDrains : List Nat := []
  seedSnaps : Sparse (List (Nat × Nat × Token) × List Nat) := []
  cut     : Nat := 0
  cutOpen : Bool := false
  cutAsked : Bool := false
  reqHop  : Option Nat := none
  lastStart : Nat := 0
  done    : Nat := 0
  relDue  : Option Nat := none
  lastRel : Nat := 0
  relRound : Nat := 0
  reports : List SinkReport := []
  fails   : List (Nat × Bool) := []
  conBanks : List Nat := []
  metaLog : List (Nat × Nat × Nat) := []
  act     : Nat := 0
  movedAt : Sparse Nat := []
  pinned  : List (UnitRef × Sparse (List Pin)) := []
  pinnedKs : Sparse Nat := []
  sameCut : Nat := 0
  lastEcc : Option Nat := none
  afterRel : Option RollCause := none
  waitEv  : Option Nat := none
  waitType : Nat := 0
  waitIsl : Option Nat := none
  seedMark : Sparse Nat := []
  seedQ     : Sparse (List (Nat × Token)) := []
  seedSince : Sparse Nat := []
  drainReq : Bool := false
  progress : Nat := 0
  moved   : Nat := 0
  still   : Nat := 0
  probed  : Bool := false
  mregs   : Sparse Nat := []
  rmap    : List Nat := []
  cmap    : List Nat := []
  units   : List UnitRef := []
  deriving DecidableEq, Repr, Inhabited

/-- Where a launch stands (R13, R14, R335, R351): it waits at the head of its queue, waits there for a pin, runs, is pre-empted, or has
ended with a completion record that nothing has room for yet (R337, log 84). -/
inductive LaunchPhase where
  | none | waiting | pinWait (ev : Nat) | running | preempted | ended (record : List Dword)
  deriving DecidableEq, Repr, Inhabited

/-- A launch (R13, R24, R333, R337). `region` holds its oldest course, `next` the courses after it; `victim` is the launch that makes
room for it, with the regions that stand frozen for that (R351), `saved` what was saved when it was pre-empted, the oldest course first: its key in
`State.saved` and its place; `image` the places of its course records; `seedGot` holds by block the
bytes of its seed records that another device has sent, none where it refused (R336). -/
structure Launch where
  phase   : LaunchPhase := .none
  die     : Nat := 0
  queue   : Nat := 0
  handle  : Nat := 0
  prio    : Nat := 0
  lclass  : Nat := 0
  relaxed : Bool := false
  ctx     : Nat := 0
  seedVa  : Nat := 0
  seedN   : Nat := 0
  cq      : Nat := 0
  user    : Dword := 0
  start   : Dword := 0
  region  : Option Nat := none
  next    : List Nat := []
  victim  : Option (Nat × List Nat) := none
  saved   : List (Nat × Nat) := []
  late    : Bool := false
  cause   : Nat := 0
  errs    : Nat := 0
  stc     : Nat := 0
  isl     : Nat := 0
  rbk     : Nat := 0
  mregs   : Nat := 0
  slots   : Nat := 0
  fullg   : Nat := 0
  firstErr : Option Word := none
  waitType : Nat := 0
  fromService : Bool := false
  seq     : Nat := 0
  image   : List Nat := []
  seedGot : Sparse (Option (List Byte)) := []
  deriving DecidableEq, Repr, Inhabited

/-! ### Dies -/

/-- The event queue of a die (R353-R355); `entered` counts the records that have entered it, for WFE (R307). -/
structure EvQueue where
  recs : List EvRec := []
  lost : Nat := 0
  held : List EvRec := []
  entered : Nat := 0
  deriving DecidableEq, Repr, Inhabited

end Sys2Proof.Machine
end

