-- ==== Sys2Proof/Machine/CombAlu.lean ====
section
/-! DEFINITION. Machine/CombAlu: the combine step, the tree and the status word of combining registers (R63, R151-R154,
R162, R163) as functions of the partials. -/

namespace Sys2Proof.Machine.CombAlu

open Sys2Proof.Machine.Num

/-- The seven local flags of R150: IV, DZ, OF, UF, IX, SAT, OVF from bit 0 up. -/
abbrev CFlags := BitVec 7

def fSat : CFlags := 0b0100000
def fOvf : CFlags := 0b1000000

/-- Subnormals are honoured in combining registers (R52). -/
def env (rm : Nat) : Env := ⟨RM.ofCode rm, false, false⟩

/-- One floating lane of CombineStep (R151). -/
def stepFp (f : Fmt) (x y : Nat) (op rm : Nat) : Res :=
  match op with
  | 0 => let a := ofBits f false x
         let b := ofBits f false y
         if a.isNan || b.isNan then ⟨f.nan, 0⟩ else sumRes f (env rm) false [a, b]
  | 1 => minMax f .max false x y
  | 2 => minMax f .min false x y
  | 3 => minMax f .maxn false x y
  | _ => minMax f .minn false x y

/-- Int(x) of R151, read as the type. -/
def toIntTy (ty : Nat) (x : Word) : Int := if ty = 3 then x.toInt else x.toNat

/-- The integer operators of CombineStep (R151). -/
def stepInt (x y : Word) (op ty : Nat) : Word × CFlags :=
  let lo : Int := if ty = 3 then -(2 ^ 31) else 0
  let hi : Int := if ty = 3 then 2 ^ 31 - 1 else 2 ^ 32 - 1
  let v := toIntTy ty x + toIntTy ty y
  match op with
  | 5 => (BitVec.ofInt 32 v, if v < lo || hi < v then fOvf else 0)
  | 6 => if v < lo then (BitVec.ofInt 32 lo, fSat) else if hi < v then (BitVec.ofInt 32 hi, fSat) else (BitVec.ofInt 32 v, 0)
  | 7 => (x &&& y, 0)
  | 8 => (x ||| y, 0)
  | 9 => (x ^^^ y, 0)
  | 10 => (if toIntTy ty x < toIntTy ty y then y else x, 0)
  | _ => (if toIntTy ty y < toIntTy ty x then y else x, 0)

/-- CombineStep of R151. -/
def step (x y : Word) (op ty rm : Nat) : Word × CFlags :=
  match ty with
  | 0 => let r := stepFp fp32 x.toNat y.toNat op rm
         (r.word, r.fl.setWidth 7)
  | 1 => let r := stepFp bf16 (x.toNat % 65536) (y.toNat % 65536) op rm
         (r.word, r.fl.setWidth 7)
  | 2 => let lo := stepFp bf16 (x.toNat % 65536) (y.toNat % 65536) op rm
         let hi := stepFp bf16 (x.toNat / 65536) (y.toNat / 65536) op rm
         (BitVec.ofNat 32 (hi.bits * 65536 + lo.bits), (hi.fl ||| lo.fl).setWidth 7)
  | _ => stepInt x y op ty

/-- The identities of R152. -/
def identity (op ty : Nat) : Word :=
  let dup (b : Nat) : Word := BitVec.ofNat 32 (if ty = 2 then b * 65537 else b)
  if ty ≤ 2 then
    match op with
    | 0 => 0
    | 1 | 3 => if ty = 0 then 0xFF800000 else dup 0xFF80
    | _ => if ty = 0 then 0x7F800000 else dup 0x7F80
  else match op with
    | 7 => 0xFFFFFFFF
    | 10 => if ty = 3 then 0x80000000 else 0
    | 11 => if ty = 3 then 0x7FFFFFFF else 0xFFFFFFFF
    | _ => 0

/-- The lanes of a value that are NaNs: whether any is, and whether any is signalling (R153, R162). -/
def nanLanes (ty : Nat) (v : Word) : Bool × Bool :=
  let l (f : Fmt) (b : Nat) : Bool × Bool := ((ofBits f false b).isNan, (ofBits f false b).isSig)
  match ty with
  | 0 => l fp32 v.toNat
  | 1 => l bf16 (v.toNat % 65536)
  | 2 => let a := l bf16 (v.toNat % 65536)
         let b := l bf16 (v.toNat / 65536)
         (a.1 || b.1, a.2 || b.2)
  | _ => (false, false)

/-- The value with each NaN lane made canonical (R153). -/
def canonical (ty : Nat) (v : Word) : Word :=
  let l (f : Fmt) (b : Nat) : Nat := if (ofBits f false b).isNan then f.nan else b
  match ty with
  | 0 => BitVec.ofNat 32 (l fp32 v.toNat)
  | 1 => BitVec.ofNat 32 (l bf16 (v.toNat % 65536))
  | 2 => BitVec.ofNat 32 (l bf16 (v.toNat / 65536) * 65536 + l bf16 (v.toNat % 65536))
  | _ => v

/-- ContribLocal of R153. -/
def contribLocal (decl : MDecl) (p : PBuf) (a : Word) (o t : Nat) : PBuf :=
  let v : Word := if t = 1 then a &&& 0xFFFF else a
  let p := if (nanLanes t v).2 then { p with fl := p.fl ||| 1 } else p
  let v := canonical t v
  let mism := (o, t) ≠ (decl.opc, decl.ty)
  if !p.v then { p with v := true, val := v, opc := o, ty := t, m := p.m || mism }
  else if (o, t) = (p.opc, p.ty) then
    let (r, fl) := step p.val v o t decl.rm
    { p with val := r, fl := p.fl ||| fl, m := p.m || mism }
  else { p with m := true }

/-- One node of the tree of R63: an empty sibling passes the other operand through. -/
def node (op ty rm : Nat) (x y : Option Word) : Option Word × CFlags :=
  match x, y with
  | none, _ => (y, 0)
  | _, none => (x, 0)
  | some a, some b => let (r, fl) := step a b op ty rm
                      (some r, fl)

/-- One level of the tree: neighbours combined, lower index left. -/
def level (op ty rm : Nat) : List (Option Word) → List (Option Word) × CFlags
  | x :: y :: rest =>
    let (r, fl) := node op ty rm x y
    let (rs, fls) := level op ty rm rest
    (r :: rs, fl ||| fls)
  | xs => (xs, 0)

/-- The fixed tree of R63 over the sixteen partial positions. -/
def tree (op ty rm : Nat) (parts : List (Option Word)) : Option Word × CFlags :=
  let l1 := level op ty rm parts
  let l2 := level op ty rm l1.1
  let l3 := level op ty rm l2.1
  let l4 := level op ty rm l3.1
  (l4.1.headD none, l1.2 ||| l2.2 ||| l3.2 ||| l4.2)

/-- A partial that takes part in the tree: it holds a value and is not mismatched (R154). -/
def included (b : PBuf) : Bool := b.v && !b.m

/-- What a read gives (R158, R159, R162): the result, the status word, and whether it is clean (R163). -/
structure Read where
  res    : Word
  status : Dword
  clean  : Bool
  nansrc : Nat
  mism   : Nat
  flags  : CFlags
  deriving DecidableEq, Repr

/-- The lowest index of a list that satisfies p. -/
def lowest {α : Type} (p : α → Bool) (xs : List α) : Option Nat := xs.findIdx? p

/-- A mask with bit k set where p holds of the k-th entry. -/
def maskOf {α : Type} (p : α → Bool) (xs : List α) : Nat :=
  (xs.zipIdx.filter fun x => p x.1).foldl (fun m x => m + 2 ^ x.2) 0

/-- The causes of uncleanness among the flags: IV, DZ, OF, UF, SAT, OVF (R163). -/
def unclean (fl : CFlags) : Bool := fl &&& 0b1101111 != 0

/-- The read of R158 and R159 over the buffers of the contributors in index order. -/
def read (decl : MDecl) (bufs : List PBuf) (closed gen : BitVec 16) (peek : Bool) : Read :=
  let vals := (List.range 16).map fun k =>
    match bufs[k]? with
    | some b => if included b then some b.val else none
    | none => none
  let (root, tfl) := tree decl.opc decl.ty decl.rm vals
  let fl := (bufs.filter included).foldl (fun m b => m ||| b.fl) tfl
  let mism := maskOf (fun b => b.m) bufs
  let nansrc := (lowest (fun b => included b && (nanLanes decl.ty b.val).1) bufs).getD 31
  let empty := root.isNone
  let status := mism * 2 ^ 48 + closed.toNat * 2 ^ 32 + gen.toNat * 2 ^ 16 + peek.toNat * 2 ^ 15 + empty.toNat * 2 ^ 14
    + (fl.getLsbD 6).toNat * 2 ^ 13 + (fl.getLsbD 5).toNat * 2 ^ 12 + nansrc * 2 ^ 5 + fl.toNat % 32
  { res := root.getD (identity decl.opc decl.ty), status := BitVec.ofNat 64 status,
    clean := nansrc == 31 && mism == 0 && !unclean fl, nansrc := nansrc, mism := mism, flags := fl }

end Sys2Proof.Machine.CombAlu
end

