-- ==== Sys2Proof/WellFormed.lean ====
section
/-! DEFINITION. WellFormed: what each opcode uses of its word (R34, R39, R40, R86), the loader's checks of an element
rule word in the order of R38's table, and the mason core's check of a word (R36, R38). -/

namespace Sys2Proof

/-- How an opcode uses one operand field (R30, R34). -/
inductive Use where
  /-- The format has no such field. -/
  | absent
  /-- The opcode does not use the field: it must be zero (R34). -/
  | zero
  /-- A source specifier (R30). -/
  | src
  /-- A destination: d register, output or discard (R30). -/
  | dst
  /-- A d register that is read and written (R94, R119). -/
  | acc
  /-- An even d register: the pair takes a 64-bit result (R156). -/
  | pair
  /-- An output (R107, R109). -/
  | out
  /-- The head of an input (R107). -/
  | head
  /-- A mason register g0-g31 (R31). -/
  | reg
  deriving DecidableEq, Repr

/-- The lane of R40. -/
inductive Lane where
  | none | a | m | c
  deriving DecidableEq, Repr

/-- One row of the opcode map (R39) with the latency of R86; latency 0 stands for "until the reply lands". -/
structure OpInfo where
  op   : Nat
  d    : Use
  a    : Use
  b    : Use
  elem : Bool
  core : Bool
  cond : Bool
  lane : Lane
  lat  : Nat
  deriving DecidableEq, Repr

/-- The six bodies of R29; `ea` carries F. -/
inductive Body where
  | ea (x : EA) (f : BitVec 3)
  | ei (x : EI)
  | ek (x : EK)
  | ec (x : EC)
  | mb (x : MB)
  | ms (x : MS)
  deriving DecidableEq, Repr

namespace Body

def guard : Body → Guard
  | ea x _ => x.g | ei x => x.g | ek x => x.g | ec x => x.g | mb x => x.g | ms x => x.g

/-- The D field; the EC field shared by A and D stands under both names, and OpInfo says which one it is. -/
def d : Body → BitVec 5
  | ea x _ => x.d | ei x => x.d | ek x => x.d | ec x => x.ad | mb _ => 0 | ms x => x.d

def a : Body → BitVec 5
  | ea x _ => x.a | ei x => x.a | ek _ => 0 | ec x => x.ad | mb x => x.a | ms x => x.a

def b : Body → BitVec 5
  | ea x _ => x.b | _ => 0

/-- F, zero in a format without it. -/
def f : Body → BitVec 3
  | ea _ f => f | _ => 0

def dq : Body → BitVec 4
  | ea x _ => x.dq | ei x => x.dq | ek _ => 0 | ec x => x.dq | mb _ => 0 | ms _ => 0

def pu : Body → BitVec 5
  | ea x _ => x.pu | ei x => x.pu | ek _ => 0 | ec x => x.pu | mb _ => 0 | ms _ => 0

end Body

/-- The body of an instruction word; a whole step of a unit has none. -/
def Instr.body? : Instr → Option Body
  | .add x => some (.ea x 0)
  | .sub x => some (.ea x 1)
  | .and x => some (.ea x 2)
  | .or x => some (.ea x 3)
  | .xor x => some (.ea x 4)
  | .andn x => some (.ea x 5)
  | .min x => some (.ea x 6)
  | .max x => some (.ea x 7)
  | .minu x => some (.ea x 0)
  | .maxu x => some (.ea x 1)
  | .adds x => some (.ea x 2)
  | .subs x => some (.ea x 3)
  | .addsu x => some (.ea x 4)
  | .subsu x => some (.ea x 5)
  | .absd x => some (.ea x 6)
  | .avg x => some (.ea x 7)
  | .shl x => some (.ea x 0)
  | .shr x => some (.ea x 1)
  | .sar x => some (.ea x 2)
  | .rol x => some (.ea x 3)
  | .ror x => some (.ea x 4)
  | .mul x => some (.ea x 0)
  | .mulhs x => some (.ea x 1)
  | .mulhu x => some (.ea x 2)
  | .mulhsu x => some (.ea x 3)
  | .divs x => some (.ea x 0)
  | .divu x => some (.ea x 1)
  | .rems x => some (.ea x 2)
  | .remu x => some (.ea x 3)
  | .cmpeq x => some (.ea x 0)
  | .cmpne x => some (.ea x 1)
  | .cmplt x => some (.ea x 2)
  | .cmple x => some (.ea x 3)
  | .cmpltu x => some (.ea x 4)
  | .cmpleu x => some (.ea x 5)
  | .tst x => some (.ea x 6)
  | .tstn x => some (.ea x 7)
  | .clz x => some (.ea x 0)
  | .ctz x => some (.ea x 1)
  | .popc x => some (.ea x 2)
  | .brev x => some (.ea x 3)
  | .bswap x => some (.ea x 4)
  | .sexb x => some (.ea x 5)
  | .sexh x => some (.ea x 6)
  | .zexh x => some (.ea x 7)
  | .bfxu x => some (.ea x 0)
  | .bfxs x => some (.ea x 1)
  | .bfi x => some (.ea x 2)
  | .sel x f => some (.ea x f)
  | .addi x => some (.ei x)
  | .andi x => some (.ei x)
  | .ori x => some (.ei x)
  | .xori x => some (.ei x)
  | .shli x => some (.ei x)
  | .shri x => some (.ei x)
  | .sari x => some (.ei x)
  | .cmpieq x => some (.ei x)
  | .cmpilt x => some (.ei x)
  | .cmpiltu x => some (.ei x)
  | .muli x => some (.ei x)
  | .movk x => some (.ek x)
  | .movks x => some (.ek x)
  | .mov x f => some (.ea x f)
  | .fwd x => some (.ea x 0)
  | .pget x => some (.ea x 0)
  | .pput x => some (.ea x 1)
  | .psetm x => some (.ea x 2)
  | .pclrm x => some (.ea x 3)
  | .nop x => some (.ea x 0)
  | .lld x => some (.ei x)
  | .lst x => some (.ei x)
  | .etrap x f => some (.ea x f)
  | .errt x => some (.ea x 0)
  | .ehalt x => some (.ea x 0)
  | .add2h x => some (.ea x 0)
  | .sub2h x => some (.ea x 1)
  | .max2h x => some (.ea x 2)
  | .min2h x => some (.ea x 3)
  | .max2hu x => some (.ea x 4)
  | .min2hu x => some (.ea x 5)
  | .add4b x => some (.ea x 0)
  | .sub4b x => some (.ea x 1)
  | .max4b x => some (.ea x 2)
  | .min4b x => some (.ea x 3)
  | .sad4b x => some (.ea x 4)
  | .dot4b x => some (.ea x 5)
  | .dot4bu x => some (.ea x 6)
  | .fadd x => some (.ea x 0)
  | .fsub x => some (.ea x 1)
  | .fmul x => some (.ea x 2)
  | .fdiv x => some (.ea x 3)
  | .fmin x => some (.ea x 4)
  | .fmax x => some (.ea x 5)
  | .fminn x => some (.ea x 6)
  | .fmaxn x => some (.ea x 7)
  | .fma x => some (.ea x 0)
  | .fms x => some (.ea x 1)
  | .fnma x => some (.ea x 2)
  | .fnms x => some (.ea x 3)
  | .fceq x => some (.ea x 0)
  | .fclt x => some (.ea x 1)
  | .fcle x => some (.ea x 2)
  | .fcun x => some (.ea x 3)
  | .fcne x => some (.ea x 4)
  | .fceqs x => some (.ea x 5)
  | .fclts x => some (.ea x 6)
  | .fcles x => some (.ea x 7)
  | .fsqrt x => some (.ea x 0)
  | .fabs x => some (.ea x 1)
  | .fneg x => some (.ea x 2)
  | .fclass x => some (.ea x 3)
  | .frcpa x => some (.ea x 4)
  | .frsqa x => some (.ea x 5)
  | .frint x => some (.ea x 6)
  | .fcpys x => some (.ea x 7)
  | .i2f x => some (.ea x 0)
  | .n2f x => some (.ea x 1)
  | .f2i x => some (.ea x 2)
  | .f2iz x => some (.ea x 3)
  | .f2n x => some (.ea x 4)
  | .f2bf x => some (.ea x 5)
  | .bf2fl x => some (.ea x 6)
  | .bf2fh x => some (.ea x 7)
  | .f2h x => some (.ea x 0)
  | .h2fl x => some (.ea x 1)
  | .h2fh x => some (.ea x 2)
  | .badd2 x => some (.ea x 0)
  | .bsub2 x => some (.ea x 1)
  | .bmul2 x => some (.ea x 2)
  | .bfma2 x => some (.ea x 3)
  | .bmax2 x => some (.ea x 4)
  | .bmin2 x => some (.ea x 5)
  | .bdot2 x => some (.ea x 6)
  | .bmaxv2 x => some (.ea x 7)
  | .hadd2 x => some (.ea x 0)
  | .hsub2 x => some (.ea x 1)
  | .hmul2 x => some (.ea x 2)
  | .hfma2 x => some (.ea x 3)
  | .hmax2 x => some (.ea x 4)
  | .hmin2 x => some (.ea x 5)
  | .hdot2 x => some (.ea x 6)
  | .bceq2 x => some (.ea x 0)
  | .bclt2 x => some (.ea x 1)
  | .bcle2 x => some (.ea x 2)
  | .bcun2 x => some (.ea x 3)
  | .hceq2 x => some (.ea x 0)
  | .hclt2 x => some (.ea x 1)
  | .hcle2 x => some (.ea x 2)
  | .hcun2 x => some (.ea x 3)
  | .qdot4 x => some (.ea x 0)
  | .qunpl x => some (.ea x 1)
  | .qunph x => some (.ea x 2)
  | .qpack x => some (.ea x 3)
  | .qamax x => some (.ea x 4)
  | .q2f x => some (.ea x 0)
  | .f2q x => some (.ea x 1)
  | .qscl x => some (.ea x 2)
  | .reqRne x => some (.ea x 0)
  | .reqRna x => some (.ea x 1)
  | .reqRtz x => some (.ea x 2)
  | .reqRup x => some (.ea x 3)
  | .reqRdn x => some (.ea x 4)
  | .reqFctl x => some (.ea x 5)
  | .frfl x => some (.ea x 0)
  | .fwfl x => some (.ea x 1)
  | .fclr x => some (.ea x 2)
  | .contrib x => some (.ec x)
  | .contribc x => some (.ec x)
  | .cclose x => some (.ec x)
  | .settle x => some (.ec x)
  | .peek x => some (.ec x)
  | .cstat x => some (.ec x)
  | .cpoll x => some (.ec x)
  | .crst x => some (.ec x)
  | .mxtMma x => some (.ea x 0)
  | .mxtBind x => some (.ea x 1)
  | .mxtRebind x => some (.ea x 2)
  | .mxtRelease x => some (.ea x 3)
  | .mxtSpill x => some (.ea x 4)
  | .mxtFlush x => some (.ea x 5)
  | .mxtSetup x => some (.ea x 6)
  | .mxtIfence x => some (.ea x 7)
  | .stcCopy x => some (.ea x 0)
  | .stcGather x => some (.ea x 1)
  | .stcScatter x => some (.ea x 2)
  | .stcFlagf x => some (.ea x 3)
  | .stcBatch x => some (.ea x 4)
  | .stcWaitb x => some (.ea x 5)
  | .stcInject x => some (.ea x 6)
  | .stcEvict x => some (.ea x 7)
  | .amoAdd x => some (.ea x 0)
  | .amoAdds x => some (.ea x 1)
  | .amoMin x => some (.ea x 2)
  | .amoMax x => some (.ea x 3)
  | .amoAnd x => some (.ea x 4)
  | .amoOr x => some (.ea x 5)
  | .amoXor x => some (.ea x 6)
  | .amoSwap x => some (.ea x 7)
  | .amorAdd x => some (.ea x 0)
  | .amorAdds x => some (.ea x 1)
  | .amorMin x => some (.ea x 2)
  | .amorMax x => some (.ea x 3)
  | .amorAnd x => some (.ea x 4)
  | .amorOr x => some (.ea x 5)
  | .amorXor x => some (.ea x 6)
  | .amorSwap x => some (.ea x 7)
  | .amoc x f => some (.ea x f)
  | .amofFadd x => some (.ea x 0)
  | .amofFmax x => some (.ea x 1)
  | .amofFmin x => some (.ea x 2)
  | .amofBadd2 x => some (.ea x 3)
  | .schdNext x => some (.ea x 0)
  | .schdReset x => some (.ea x 1)
  | .mxq x => some (.ea x 0)
  | .br x => some (.mb x)
  | .brl x => some (.mb x)
  | .bri x => some (.ea x 0)
  | .brli x => some (.ea x 1)
  | .movpc x => some (.ek x)
  | .ldb x => some (.ms x)
  | .ldh x => some (.ms x)
  | .ldw x => some (.ms x)
  | .ldd x => some (.ms x)
  | .ldbs x => some (.ms x)
  | .ldhs x => some (.ms x)
  | .ldws x => some (.ms x)
  | .stb x => some (.ms x)
  | .sth x => some (.ms x)
  | .stw x => some (.ms x)
  | .std x => some (.ms x)
  | .mamoAdd x => some (.ea x 0)
  | .mamoMin x => some (.ea x 1)
  | .mamoMax x => some (.ea x 2)
  | .mamoAnd x => some (.ea x 3)
  | .mamoOr x => some (.ea x 4)
  | .mamoXor x => some (.ea x 5)
  | .mamoSwap x => some (.ea x 6)
  | .mamoCas x => some (.ea x 7)
  | .fenceAll x => some (.ea x 0)
  | .fenceLd x => some (.ea x 1)
  | .fenceSt x => some (.ea x 2)
  | .fenceAcq x => some (.ea x 3)
  | .fenceRel x => some (.ea x 4)
  | .fenceCfg x => some (.ea x 5)
  | .iinv x => some (.ea x 0)
  | .iinva x => some (.ea x 1)
  | .sysrd x => some (.ei x)
  | .syswr x => some (.ei x)
  | .trap x => some (.ea x 0)
  | .eret x => some (.ea x 1)
  | .idle x => some (.ea x 2)
  | .wfe x => some (.ea x 3)
  | .sev x => some (.ea x 4)
  | .brk x => some (.ea x 5)
  | .halt x => some (.ea x 6)
  | .cfgw x => some (.ea x 0)
  | .cfgr x => some (.ea x 1)
  | .cfgcommit x => some (.ea x 2)
  | .cfgabort x => some (.ea x 3)
  | .cfgstat x => some (.ea x 4)
  | .planesel x => some (.ea x 5)
  | .snaprd x => some (.ea x 6)
  | .rollbk x => some (.ea x 7)
  | .freeze x => some (.ea x 0)
  | .thaw x => some (.ea x 1)
  | .readout x => some (.ea x 2)
  | .restore x => some (.ea x 3)
  | .probe x => some (.ea x 4)
  | .drainreq x => some (.ea x 5)
  | .crcb x => some (.ea x 0)
  | .crch x => some (.ea x 1)
  | .crcw x => some (.ea x 2)
  | .crcd x => some (.ea x 3)
  | .shka x => some (.ea x 0)
  | .shks x => some (.ea x 1)
  | .sigv x => some (.ea x 2)
  | .secst x => some (.ea x 3)
  | .wqpop x => some (.ea x 0)
  | .wqpush x => some (.ea x 1)
  | .wqstat x => some (.ea x 2)
  | .evpop x => some (.ea x 0)
  | .evack x => some (.ea x 1)
  | .evstat x => some (.ea x 2)
  | .lkst x => some (.ea x 0)
  | .lkrt x => some (.ea x 1)
  | .lkctl x => some (.ea x 2)
  | .tlbi x => some (.ea x 0)
  | .pwalk x => some (.ea x 1)
  | .migr x => some (.ea x 2)
  | .migq x => some (.ea x 3)
  | .slotrd x => some (.ea x 0)
  | .slotwr x => some (.ea x 1)
  | .islst x => some (.ea x 2)
  | .strd x => some (.ea x 0)
  | .stwr x => some (.ea x 1)
  | .stst x => some (.ea x 2)
  | .ksrd x => some (.ea x 0)
  | .kswr x => some (.ea x 1)
  | .ksst x => some (.ea x 2)
  | .scheduleRound _ => none
  | .resultLands _ => none
  | .outputTokenAccept _ => none
  | .tokenReceipt _ _ => none
  | .creditReturn _ => none
  | .deliveryTimeout _ => none
  | .frameTableStep _ => none
  | .workQueueTake _ => none
  | .launchAdmit _ => none
  | .preemptedRestore _ => none
  | .configurationWaveHop _ => none
  | .seedInjection _ => none
  | .nextCourseWrite _ => none
  | .graphEnd _ => none
  | .latencyClassExpiry _ => none
  | .elementDrain _ => none
  | .tileDrn _ => none
  | .engineDrainPass _ => none
  | .mkroundsExpiry _ => none
  | .mktokensReached _ => none
  | .startRequestHop _ => none
  | .snapshotEv _ => none
  | .cutComplete _ => none
  | .relEv _ => none
  | .rollbackEv _ _ => none
  | .handEv _ _ => none
  | .bankScrub _ _ => none
  | .bankService _ => none
  | .agRequestIssue _ => none
  | .agLoadData _ => none
  | .walkEv _ => none
  | .repeatNodeFill _ => none
  | .repeatNodeCount _ => none
  | .repeatNodeEmit _ => none
  | .scheduleNodeServe _ => none
  | .contribLocal _ _ => none
  | .closeNotice _ _ => none
  | .gatherIssue _ => none
  | .gatherRead _ _ => none
  | .settleReply _ => none
  | .resetArrival _ _ => none
  | .resetAck _ _ => none
  | .updateIssue _ => none
  | .irrevocableDeparture _ => none
  | .keystoneReply _ => none
  | .migrationCopyDone _ => none
  | .keystoneForward _ => none
  | .streamerCommandAccept _ => none
  | .streamerCommandComplete _ _ => none
  | .flagfWrite _ _ => none
  | .streamerDrain _ => none
  | .collectiveStart _ => none
  | .collectiveHop _ => none
  | .bucketComplete _ _ => none
  | .islandCommandAccept _ => none
  | .spillTransferDone _ => none
  | .mmaComplete _ => none
  | .resultEmit _ => none
  | .islandCheckpointWrite _ _ => none
  | .islandDrain _ => none
  | .instructionFetch _ => none
  | .eventTrap _ => none
  | .idleWake _ => none
  | .wfeWake _ => none
  | .coreRunWrite _ _ => none
  | .commitWaveHop _ => none
  | .deadlockProbeAuto _ => none
  | .fatalError _ => none
  | .hostLaunch => none
  | .hostMread => none
  | .hostMwrite => none
  | .hostPower => none
  | .hostReset => none
  | .rdReq => none
  | .wrReq => none
  | .kuReq => none
  | .atReq => none
  | .dltAnswer => none
  | .dltTimeout _ => none
  | .linkRetrain _ => none
  | .retrainComplete _ => none
  | .retrainTimeout _ _ _ => none
  | .powerLimitIdle _ => none
  | .deviceReset => none
  | .attestationGo => none
  | .attestationDone => none
  | .rangeWordWrite _ _ => none
  | .tileRetire _ => none
  | .patrolScrub _ _ _ => none
  | .registerWrite _ _ => none
  | .powerLoss => none
  | .linkLevelReplay _ => none
  | .hostMessage => none

/-- The opcode of an instruction word (R39); a whole step of a unit has none, and 0 stands for it. -/
def Instr.op : Instr → Nat
  | .scheduleRound _ => 0
  | .resultLands _ => 0
  | .outputTokenAccept _ => 0
  | .tokenReceipt _ _ => 0
  | .creditReturn _ => 0
  | .deliveryTimeout _ => 0
  | .frameTableStep _ => 0
  | .workQueueTake _ => 0
  | .launchAdmit _ => 0
  | .preemptedRestore _ => 0
  | .configurationWaveHop _ => 0
  | .seedInjection _ => 0
  | .nextCourseWrite _ => 0
  | .graphEnd _ => 0
  | .latencyClassExpiry _ => 0
  | .elementDrain _ => 0
  | .tileDrn _ => 0
  | .engineDrainPass _ => 0
  | .mkroundsExpiry _ => 0
  | .mktokensReached _ => 0
  | .startRequestHop _ => 0
  | .snapshotEv _ => 0
  | .cutComplete _ => 0
  | .relEv _ => 0
  | .rollbackEv _ _ => 0
  | .handEv _ _ => 0
  | .bankScrub _ _ => 0
  | .bankService _ => 0
  | .agRequestIssue _ => 0
  | .agLoadData _ => 0
  | .walkEv _ => 0
  | .repeatNodeFill _ => 0
  | .repeatNodeCount _ => 0
  | .repeatNodeEmit _ => 0
  | .scheduleNodeServe _ => 0
  | .contribLocal _ _ => 0
  | .closeNotice _ _ => 0
  | .gatherIssue _ => 0
  | .gatherRead _ _ => 0
  | .settleReply _ => 0
  | .resetArrival _ _ => 0
  | .resetAck _ _ => 0
  | .updateIssue _ => 0
  | .irrevocableDeparture _ => 0
  | .keystoneReply _ => 0
  | .migrationCopyDone _ => 0
  | .keystoneForward _ => 0
  | .streamerCommandAccept _ => 0
  | .streamerCommandComplete _ _ => 0
  | .flagfWrite _ _ => 0
  | .streamerDrain _ => 0
  | .collectiveStart _ => 0
  | .collectiveHop _ => 0
  | .bucketComplete _ _ => 0
  | .islandCommandAccept _ => 0
  | .spillTransferDone _ => 0
  | .mmaComplete _ => 0
  | .resultEmit _ => 0
  | .islandCheckpointWrite _ _ => 0
  | .islandDrain _ => 0
  | .instructionFetch _ => 0
  | .eventTrap _ => 0
  | .idleWake _ => 0
  | .wfeWake _ => 0
  | .coreRunWrite _ _ => 0
  | .commitWaveHop _ => 0
  | .deadlockProbeAuto _ => 0
  | .fatalError _ => 0
  | .hostLaunch => 0
  | .hostMread => 0
  | .hostMwrite => 0
  | .hostPower => 0
  | .hostReset => 0
  | .rdReq => 0
  | .wrReq => 0
  | .kuReq => 0
  | .atReq => 0
  | .dltAnswer => 0
  | .dltTimeout _ => 0
  | .linkRetrain _ => 0
  | .retrainComplete _ => 0
  | .retrainTimeout _ _ _ => 0
  | .powerLimitIdle _ => 0
  | .deviceReset => 0
  | .attestationGo => 0
  | .attestationDone => 0
  | .rangeWordWrite _ _ => 0
  | .tileRetire _ => 0
  | .patrolScrub _ _ _ => 0
  | .registerWrite _ _ => 0
  | .powerLoss => 0
  | .linkLevelReplay _ => 0
  | .hostMessage => 0
  | .add _ => 0x01
  | .sub _ => 0x01
  | .and _ => 0x01
  | .or _ => 0x01
  | .xor _ => 0x01
  | .andn _ => 0x01
  | .min _ => 0x01
  | .max _ => 0x01
  | .minu _ => 0x02
  | .maxu _ => 0x02
  | .adds _ => 0x02
  | .subs _ => 0x02
  | .addsu _ => 0x02
  | .subsu _ => 0x02
  | .absd _ => 0x02
  | .avg _ => 0x02
  | .shl _ => 0x03
  | .shr _ => 0x03
  | .sar _ => 0x03
  | .rol _ => 0x03
  | .ror _ => 0x03
  | .mul _ => 0x04
  | .mulhs _ => 0x04
  | .mulhu _ => 0x04
  | .mulhsu _ => 0x04
  | .divs _ => 0x05
  | .divu _ => 0x05
  | .rems _ => 0x05
  | .remu _ => 0x05
  | .cmpeq _ => 0x06
  | .cmpne _ => 0x06
  | .cmplt _ => 0x06
  | .cmple _ => 0x06
  | .cmpltu _ => 0x06
  | .cmpleu _ => 0x06
  | .tst _ => 0x06
  | .tstn _ => 0x06
  | .clz _ => 0x07
  | .ctz _ => 0x07
  | .popc _ => 0x07
  | .brev _ => 0x07
  | .bswap _ => 0x07
  | .sexb _ => 0x07
  | .sexh _ => 0x07
  | .zexh _ => 0x07
  | .bfxu _ => 0x08
  | .bfxs _ => 0x08
  | .bfi _ => 0x08
  | .sel _ _ => 0x09
  | .addi _ => 0x0A
  | .andi _ => 0x0B
  | .ori _ => 0x0C
  | .xori _ => 0x0D
  | .shli _ => 0x0E
  | .shri _ => 0x0F
  | .sari _ => 0x10
  | .cmpieq _ => 0x11
  | .cmpilt _ => 0x12
  | .cmpiltu _ => 0x13
  | .muli _ => 0x14
  | .movk _ => 0x15
  | .movks _ => 0x16
  | .mov _ _ => 0x17
  | .fwd _ => 0x18
  | .pget _ => 0x19
  | .pput _ => 0x19
  | .psetm _ => 0x19
  | .pclrm _ => 0x19
  | .nop _ => 0x1A
  | .lld _ => 0x1B
  | .lst _ => 0x1C
  | .etrap _ _ => 0x1D
  | .errt _ => 0x1E
  | .ehalt _ => 0x1F
  | .add2h _ => 0x2E
  | .sub2h _ => 0x2E
  | .max2h _ => 0x2E
  | .min2h _ => 0x2E
  | .max2hu _ => 0x2E
  | .min2hu _ => 0x2E
  | .add4b _ => 0x2F
  | .sub4b _ => 0x2F
  | .max4b _ => 0x2F
  | .min4b _ => 0x2F
  | .sad4b _ => 0x2F
  | .dot4b _ => 0x2F
  | .dot4bu _ => 0x2F
  | .fadd _ => 0x20
  | .fsub _ => 0x20
  | .fmul _ => 0x20
  | .fdiv _ => 0x20
  | .fmin _ => 0x20
  | .fmax _ => 0x20
  | .fminn _ => 0x20
  | .fmaxn _ => 0x20
  | .fma _ => 0x21
  | .fms _ => 0x21
  | .fnma _ => 0x21
  | .fnms _ => 0x21
  | .fceq _ => 0x22
  | .fclt _ => 0x22
  | .fcle _ => 0x22
  | .fcun _ => 0x22
  | .fcne _ => 0x22
  | .fceqs _ => 0x22
  | .fclts _ => 0x22
  | .fcles _ => 0x22
  | .fsqrt _ => 0x23
  | .fabs _ => 0x23
  | .fneg _ => 0x23
  | .fclass _ => 0x23
  | .frcpa _ => 0x23
  | .frsqa _ => 0x23
  | .frint _ => 0x23
  | .fcpys _ => 0x23
  | .i2f _ => 0x24
  | .n2f _ => 0x24
  | .f2i _ => 0x24
  | .f2iz _ => 0x24
  | .f2n _ => 0x24
  | .f2bf _ => 0x24
  | .bf2fl _ => 0x24
  | .bf2fh _ => 0x24
  | .f2h _ => 0x25
  | .h2fl _ => 0x25
  | .h2fh _ => 0x25
  | .badd2 _ => 0x26
  | .bsub2 _ => 0x26
  | .bmul2 _ => 0x26
  | .bfma2 _ => 0x26
  | .bmax2 _ => 0x26
  | .bmin2 _ => 0x26
  | .bdot2 _ => 0x26
  | .bmaxv2 _ => 0x26
  | .hadd2 _ => 0x27
  | .hsub2 _ => 0x27
  | .hmul2 _ => 0x27
  | .hfma2 _ => 0x27
  | .hmax2 _ => 0x27
  | .hmin2 _ => 0x27
  | .hdot2 _ => 0x27
  | .bceq2 _ => 0x2C
  | .bclt2 _ => 0x2C
  | .bcle2 _ => 0x2C
  | .bcun2 _ => 0x2C
  | .hceq2 _ => 0x2D
  | .hclt2 _ => 0x2D
  | .hcle2 _ => 0x2D
  | .hcun2 _ => 0x2D
  | .qdot4 _ => 0x28
  | .qunpl _ => 0x28
  | .qunph _ => 0x28
  | .qpack _ => 0x28
  | .qamax _ => 0x28
  | .q2f _ => 0x29
  | .f2q _ => 0x29
  | .qscl _ => 0x29
  | .reqRne _ => 0x2A
  | .reqRna _ => 0x2A
  | .reqRtz _ => 0x2A
  | .reqRup _ => 0x2A
  | .reqRdn _ => 0x2A
  | .reqFctl _ => 0x2A
  | .frfl _ => 0x2B
  | .fwfl _ => 0x2B
  | .fclr _ => 0x2B
  | .contrib _ => 0x30
  | .contribc _ => 0x31
  | .cclose _ => 0x32
  | .settle _ => 0x33
  | .peek _ => 0x34
  | .cstat _ => 0x35
  | .cpoll _ => 0x37
  | .crst _ => 0x36
  | .mxtMma _ => 0x38
  | .mxtBind _ => 0x38
  | .mxtRebind _ => 0x38
  | .mxtRelease _ => 0x38
  | .mxtSpill _ => 0x38
  | .mxtFlush _ => 0x38
  | .mxtSetup _ => 0x38
  | .mxtIfence _ => 0x38
  | .stcCopy _ => 0x39
  | .stcGather _ => 0x39
  | .stcScatter _ => 0x39
  | .stcFlagf _ => 0x39
  | .stcBatch _ => 0x39
  | .stcWaitb _ => 0x39
  | .stcInject _ => 0x39
  | .stcEvict _ => 0x39
  | .amoAdd _ => 0x3A
  | .amoAdds _ => 0x3A
  | .amoMin _ => 0x3A
  | .amoMax _ => 0x3A
  | .amoAnd _ => 0x3A
  | .amoOr _ => 0x3A
  | .amoXor _ => 0x3A
  | .amoSwap _ => 0x3A
  | .amorAdd _ => 0x3B
  | .amorAdds _ => 0x3B
  | .amorMin _ => 0x3B
  | .amorMax _ => 0x3B
  | .amorAnd _ => 0x3B
  | .amorOr _ => 0x3B
  | .amorXor _ => 0x3B
  | .amorSwap _ => 0x3B
  | .amoc _ _ => 0x3C
  | .amofFadd _ => 0x3D
  | .amofFmax _ => 0x3D
  | .amofFmin _ => 0x3D
  | .amofBadd2 _ => 0x3D
  | .schdNext _ => 0x3E
  | .schdReset _ => 0x3E
  | .mxq _ => 0x3F
  | .br _ => 0x40
  | .brl _ => 0x41
  | .bri _ => 0x42
  | .brli _ => 0x42
  | .movpc _ => 0x5A
  | .ldb _ => 0x43
  | .ldh _ => 0x44
  | .ldw _ => 0x45
  | .ldd _ => 0x46
  | .ldbs _ => 0x47
  | .ldhs _ => 0x48
  | .ldws _ => 0x49
  | .stb _ => 0x4A
  | .sth _ => 0x4B
  | .stw _ => 0x4C
  | .std _ => 0x4D
  | .mamoAdd _ => 0x4E
  | .mamoMin _ => 0x4E
  | .mamoMax _ => 0x4E
  | .mamoAnd _ => 0x4E
  | .mamoOr _ => 0x4E
  | .mamoXor _ => 0x4E
  | .mamoSwap _ => 0x4E
  | .mamoCas _ => 0x4E
  | .fenceAll _ => 0x4F
  | .fenceLd _ => 0x4F
  | .fenceSt _ => 0x4F
  | .fenceAcq _ => 0x4F
  | .fenceRel _ => 0x4F
  | .fenceCfg _ => 0x4F
  | .iinv _ => 0x5B
  | .iinva _ => 0x5B
  | .sysrd _ => 0x50
  | .syswr _ => 0x51
  | .trap _ => 0x52
  | .eret _ => 0x52
  | .idle _ => 0x52
  | .wfe _ => 0x52
  | .sev _ => 0x52
  | .brk _ => 0x52
  | .halt _ => 0x52
  | .cfgw _ => 0x53
  | .cfgr _ => 0x53
  | .cfgcommit _ => 0x53
  | .cfgabort _ => 0x53
  | .cfgstat _ => 0x53
  | .planesel _ => 0x53
  | .snaprd _ => 0x53
  | .rollbk _ => 0x53
  | .freeze _ => 0x54
  | .thaw _ => 0x54
  | .readout _ => 0x54
  | .restore _ => 0x54
  | .probe _ => 0x54
  | .drainreq _ => 0x54
  | .crcb _ => 0x55
  | .crch _ => 0x55
  | .crcw _ => 0x55
  | .crcd _ => 0x55
  | .shka _ => 0x56
  | .shks _ => 0x56
  | .sigv _ => 0x56
  | .secst _ => 0x56
  | .wqpop _ => 0x57
  | .wqpush _ => 0x57
  | .wqstat _ => 0x57
  | .evpop _ => 0x5C
  | .evack _ => 0x5C
  | .evstat _ => 0x5C
  | .lkst _ => 0x58
  | .lkrt _ => 0x58
  | .lkctl _ => 0x58
  | .tlbi _ => 0x59
  | .pwalk _ => 0x59
  | .migr _ => 0x59
  | .migq _ => 0x59
  | .slotrd _ => 0x5D
  | .slotwr _ => 0x5D
  | .islst _ => 0x5D
  | .strd _ => 0x5E
  | .stwr _ => 0x5E
  | .stst _ => 0x5E
  | .ksrd _ => 0x5F
  | .kswr _ => 0x5F
  | .ksst _ => 0x5F

/-- The rows of one opcode, from F = 0 upward (R39, R40, R86, and the fields each entry uses); an opcode whose F is no form
has one row. -/
def opRows : Nat → List OpInfo
  | 0x01 => [⟨0x01, .dst, .src, .src, true, true, true, .a, 1⟩,
      ⟨0x01, .dst, .src, .src, true, true, true, .a, 1⟩,
      ⟨0x01, .dst, .src, .src, true, true, true, .a, 1⟩,
      ⟨0x01, .dst, .src, .src, true, true, true, .a, 1⟩,
      ⟨0x01, .dst, .src, .src, true, true, true, .a, 1⟩,
      ⟨0x01, .dst, .src, .src, true, true, true, .a, 1⟩,
      ⟨0x01, .dst, .src, .src, true, true, true, .a, 1⟩,
      ⟨0x01, .dst, .src, .src, true, true, true, .a, 1⟩]
  | 0x02 => [⟨0x02, .dst, .src, .src, true, true, true, .a, 1⟩,
      ⟨0x02, .dst, .src, .src, true, true, true, .a, 1⟩,
      ⟨0x02, .dst, .src, .src, true, true, true, .a, 1⟩,
      ⟨0x02, .dst, .src, .src, true, true, true, .a, 1⟩,
      ⟨0x02, .dst, .src, .src, true, true, true, .a, 1⟩,
      ⟨0x02, .dst, .src, .src, true, true, true, .a, 1⟩,
      ⟨0x02, .dst, .src, .src, true, true, true, .a, 1⟩,
      ⟨0x02, .dst, .src, .src, true, true, true, .a, 1⟩]
  | 0x03 => [⟨0x03, .dst, .src, .src, true, true, true, .a, 1⟩,
      ⟨0x03, .dst, .src, .src, true, true, true, .a, 1⟩,
      ⟨0x03, .dst, .src, .src, true, true, true, .a, 1⟩,
      ⟨0x03, .dst, .src, .src, true, true, true, .a, 1⟩,
      ⟨0x03, .dst, .src, .src, true, true, true, .a, 1⟩]
  | 0x04 => [⟨0x04, .dst, .src, .src, true, true, true, .m, 2⟩,
      ⟨0x04, .dst, .src, .src, true, true, true, .m, 2⟩,
      ⟨0x04, .dst, .src, .src, true, true, true, .m, 2⟩,
      ⟨0x04, .dst, .src, .src, true, true, true, .m, 2⟩]
  | 0x05 => [⟨0x05, .dst, .src, .src, true, true, true, .m, 18⟩,
      ⟨0x05, .dst, .src, .src, true, true, true, .m, 18⟩,
      ⟨0x05, .dst, .src, .src, true, true, true, .m, 18⟩,
      ⟨0x05, .dst, .src, .src, true, true, true, .m, 18⟩]
  | 0x06 => [⟨0x06, .dst, .src, .src, true, true, true, .a, 1⟩,
      ⟨0x06, .dst, .src, .src, true, true, true, .a, 1⟩,
      ⟨0x06, .dst, .src, .src, true, true, true, .a, 1⟩,
      ⟨0x06, .dst, .src, .src, true, true, true, .a, 1⟩,
      ⟨0x06, .dst, .src, .src, true, true, true, .a, 1⟩,
      ⟨0x06, .dst, .src, .src, true, true, true, .a, 1⟩,
      ⟨0x06, .dst, .src, .src, true, true, true, .a, 1⟩,
      ⟨0x06, .dst, .src, .src, true, true, true, .a, 1⟩]
  | 0x07 => [⟨0x07, .dst, .src, .zero, true, true, true, .a, 1⟩,
      ⟨0x07, .dst, .src, .zero, true, true, true, .a, 1⟩,
      ⟨0x07, .dst, .src, .zero, true, true, true, .a, 1⟩,
      ⟨0x07, .dst, .src, .zero, true, true, true, .a, 1⟩,
      ⟨0x07, .dst, .src, .zero, true, true, true, .a, 1⟩,
      ⟨0x07, .dst, .src, .zero, true, true, true, .a, 1⟩,
      ⟨0x07, .dst, .src, .zero, true, true, true, .a, 1⟩,
      ⟨0x07, .dst, .src, .zero, true, true, true, .a, 1⟩]
  | 0x08 => [⟨0x08, .dst, .src, .src, true, true, true, .a, 1⟩,
      ⟨0x08, .dst, .src, .src, true, true, true, .a, 1⟩,
      ⟨0x08, .acc, .src, .src, true, true, true, .a, 1⟩]
  | 0x09 => [⟨0x09, .dst, .src, .src, true, true, true, .a, 1⟩]
  | 0x0A => [⟨0x0A, .dst, .src, .absent, true, true, true, .a, 1⟩]
  | 0x0B => [⟨0x0B, .dst, .src, .absent, true, true, true, .a, 1⟩]
  | 0x0C => [⟨0x0C, .dst, .src, .absent, true, true, true, .a, 1⟩]
  | 0x0D => [⟨0x0D, .dst, .src, .absent, true, true, true, .a, 1⟩]
  | 0x0E => [⟨0x0E, .dst, .src, .absent, true, true, true, .a, 1⟩]
  | 0x0F => [⟨0x0F, .dst, .src, .absent, true, true, true, .a, 1⟩]
  | 0x10 => [⟨0x10, .dst, .src, .absent, true, true, true, .a, 1⟩]
  | 0x11 => [⟨0x11, .dst, .src, .absent, true, true, true, .a, 1⟩]
  | 0x12 => [⟨0x12, .dst, .src, .absent, true, true, true, .a, 1⟩]
  | 0x13 => [⟨0x13, .dst, .src, .absent, true, true, true, .a, 1⟩]
  | 0x14 => [⟨0x14, .dst, .src, .absent, true, true, true, .m, 2⟩]
  | 0x15 => [⟨0x15, .dst, .absent, .absent, true, true, true, .a, 1⟩]
  | 0x16 => [⟨0x16, .acc, .absent, .absent, true, true, true, .a, 1⟩]
  | 0x17 => [⟨0x17, .dst, .src, .zero, true, true, true, .a, 1⟩]
  | 0x18 => [⟨0x18, .out, .head, .zero, true, false, false, .c, 1⟩]
  | 0x19 => [⟨0x19, .dst, .zero, .zero, true, true, true, .a, 1⟩,
      ⟨0x19, .zero, .src, .zero, true, true, true, .a, 1⟩,
      ⟨0x19, .zero, .src, .zero, true, true, true, .a, 1⟩,
      ⟨0x19, .zero, .src, .zero, true, true, true, .a, 1⟩]
  | 0x1A => [⟨0x1A, .zero, .zero, .zero, true, true, false, .none, 1⟩]
  | 0x1B => [⟨0x1B, .dst, .src, .absent, true, false, true, .a, 1⟩]
  | 0x1C => [⟨0x1C, .src, .src, .absent, true, false, false, .a, 1⟩]
  | 0x1D => [⟨0x1D, .zero, .zero, .src, true, false, false, .c, 1⟩]
  | 0x1E => [⟨0x1E, .out, .src, .zero, true, false, false, .c, 1⟩]
  | 0x1F => [⟨0x1F, .zero, .zero, .zero, true, false, false, .c, 1⟩]
  | 0x20 => [⟨0x20, .dst, .src, .src, true, false, true, .a, 3⟩,
      ⟨0x20, .dst, .src, .src, true, false, true, .a, 3⟩,
      ⟨0x20, .dst, .src, .src, true, false, true, .a, 3⟩,
      ⟨0x20, .dst, .src, .src, true, false, true, .m, 10⟩,
      ⟨0x20, .dst, .src, .src, true, false, true, .a, 3⟩,
      ⟨0x20, .dst, .src, .src, true, false, true, .a, 3⟩,
      ⟨0x20, .dst, .src, .src, true, false, true, .a, 3⟩,
      ⟨0x20, .dst, .src, .src, true, false, true, .a, 3⟩]
  | 0x21 => [⟨0x21, .acc, .src, .src, true, false, true, .a, 3⟩,
      ⟨0x21, .acc, .src, .src, true, false, true, .a, 3⟩,
      ⟨0x21, .acc, .src, .src, true, false, true, .a, 3⟩,
      ⟨0x21, .acc, .src, .src, true, false, true, .a, 3⟩]
  | 0x22 => [⟨0x22, .dst, .src, .src, true, false, true, .a, 1⟩,
      ⟨0x22, .dst, .src, .src, true, false, true, .a, 1⟩,
      ⟨0x22, .dst, .src, .src, true, false, true, .a, 1⟩,
      ⟨0x22, .dst, .src, .src, true, false, true, .a, 1⟩,
      ⟨0x22, .dst, .src, .src, true, false, true, .a, 1⟩,
      ⟨0x22, .dst, .src, .src, true, false, true, .a, 1⟩,
      ⟨0x22, .dst, .src, .src, true, false, true, .a, 1⟩,
      ⟨0x22, .dst, .src, .src, true, false, true, .a, 1⟩]
  | 0x23 => [⟨0x23, .dst, .src, .zero, true, false, true, .m, 12⟩,
      ⟨0x23, .dst, .src, .zero, true, false, true, .a, 1⟩,
      ⟨0x23, .dst, .src, .zero, true, false, true, .a, 1⟩,
      ⟨0x23, .dst, .src, .zero, true, false, true, .a, 1⟩,
      ⟨0x23, .dst, .src, .zero, true, false, true, .a, 3⟩,
      ⟨0x23, .dst, .src, .zero, true, false, true, .a, 3⟩,
      ⟨0x23, .dst, .src, .zero, true, false, true, .a, 3⟩,
      ⟨0x23, .dst, .src, .src, true, false, true, .a, 1⟩]
  | 0x24 => [⟨0x24, .dst, .src, .zero, true, false, true, .m, 2⟩,
      ⟨0x24, .dst, .src, .zero, true, false, true, .m, 2⟩,
      ⟨0x24, .dst, .src, .zero, true, false, true, .m, 2⟩,
      ⟨0x24, .dst, .src, .zero, true, false, true, .m, 2⟩,
      ⟨0x24, .dst, .src, .zero, true, false, true, .m, 2⟩,
      ⟨0x24, .dst, .src, .zero, true, false, true, .m, 2⟩,
      ⟨0x24, .dst, .src, .zero, true, false, true, .m, 2⟩,
      ⟨0x24, .dst, .src, .zero, true, false, true, .m, 2⟩]
  | 0x25 => [⟨0x25, .dst, .src, .zero, true, false, true, .m, 2⟩,
      ⟨0x25, .dst, .src, .zero, true, false, true, .m, 2⟩,
      ⟨0x25, .dst, .src, .zero, true, false, true, .m, 2⟩]
  | 0x26 => [⟨0x26, .dst, .src, .src, true, false, true, .a, 3⟩,
      ⟨0x26, .dst, .src, .src, true, false, true, .a, 3⟩,
      ⟨0x26, .dst, .src, .src, true, false, true, .a, 3⟩,
      ⟨0x26, .acc, .src, .src, true, false, true, .a, 3⟩,
      ⟨0x26, .dst, .src, .src, true, false, true, .a, 3⟩,
      ⟨0x26, .dst, .src, .src, true, false, true, .a, 3⟩,
      ⟨0x26, .acc, .src, .src, true, false, true, .a, 3⟩,
      ⟨0x26, .dst, .src, .src, true, false, true, .a, 3⟩]
  | 0x27 => [⟨0x27, .dst, .src, .src, true, false, true, .a, 3⟩,
      ⟨0x27, .dst, .src, .src, true, false, true, .a, 3⟩,
      ⟨0x27, .dst, .src, .src, true, false, true, .a, 3⟩,
      ⟨0x27, .acc, .src, .src, true, false, true, .a, 3⟩,
      ⟨0x27, .dst, .src, .src, true, false, true, .a, 3⟩,
      ⟨0x27, .dst, .src, .src, true, false, true, .a, 3⟩,
      ⟨0x27, .acc, .src, .src, true, false, true, .a, 3⟩]
  | 0x28 => [⟨0x28, .acc, .src, .src, true, false, true, .a, 3⟩,
      ⟨0x28, .dst, .src, .src, true, false, true, .a, 2⟩,
      ⟨0x28, .dst, .src, .src, true, false, true, .a, 2⟩,
      ⟨0x28, .acc, .src, .src, true, false, true, .a, 2⟩,
      ⟨0x28, .dst, .src, .src, true, false, true, .a, 2⟩]
  | 0x29 => [⟨0x29, .dst, .src, .src, true, false, true, .m, 2⟩,
      ⟨0x29, .dst, .src, .src, true, false, true, .m, 2⟩,
      ⟨0x29, .dst, .src, .zero, true, false, true, .m, 2⟩]
  | 0x2A => [⟨0x2A, .dst, .src, .src, true, false, true, .m, 2⟩,
      ⟨0x2A, .dst, .src, .src, true, false, true, .m, 2⟩,
      ⟨0x2A, .dst, .src, .src, true, false, true, .m, 2⟩,
      ⟨0x2A, .dst, .src, .src, true, false, true, .m, 2⟩,
      ⟨0x2A, .dst, .src, .src, true, false, true, .m, 2⟩,
      ⟨0x2A, .dst, .src, .src, true, false, true, .m, 2⟩]
  | 0x2B => [⟨0x2B, .dst, .zero, .zero, true, false, true, .a, 1⟩,
      ⟨0x2B, .zero, .src, .zero, true, false, true, .a, 1⟩,
      ⟨0x2B, .zero, .zero, .zero, true, false, true, .a, 1⟩]
  | 0x2C => [⟨0x2C, .dst, .src, .src, true, false, true, .a, 1⟩,
      ⟨0x2C, .dst, .src, .src, true, false, true, .a, 1⟩,
      ⟨0x2C, .dst, .src, .src, true, false, true, .a, 1⟩,
      ⟨0x2C, .dst, .src, .src, true, false, true, .a, 1⟩]
  | 0x2D => [⟨0x2D, .dst, .src, .src, true, false, true, .a, 1⟩,
      ⟨0x2D, .dst, .src, .src, true, false, true, .a, 1⟩,
      ⟨0x2D, .dst, .src, .src, true, false, true, .a, 1⟩,
      ⟨0x2D, .dst, .src, .src, true, false, true, .a, 1⟩]
  | 0x2E => [⟨0x2E, .dst, .src, .src, true, false, true, .a, 1⟩,
      ⟨0x2E, .dst, .src, .src, true, false, true, .a, 1⟩,
      ⟨0x2E, .dst, .src, .src, true, false, true, .a, 1⟩,
      ⟨0x2E, .dst, .src, .src, true, false, true, .a, 1⟩,
      ⟨0x2E, .dst, .src, .src, true, false, true, .a, 1⟩,
      ⟨0x2E, .dst, .src, .src, true, false, true, .a, 1⟩]
  | 0x2F => [⟨0x2F, .dst, .src, .src, true, false, true, .a, 1⟩,
      ⟨0x2F, .dst, .src, .src, true, false, true, .a, 1⟩,
      ⟨0x2F, .dst, .src, .src, true, false, true, .a, 1⟩,
      ⟨0x2F, .dst, .src, .src, true, false, true, .a, 1⟩,
      ⟨0x2F, .dst, .src, .src, true, false, true, .a, 1⟩,
      ⟨0x2F, .dst, .src, .src, true, false, true, .a, 1⟩,
      ⟨0x2F, .dst, .src, .src, true, false, true, .a, 1⟩]
  | 0x30 => [⟨0x30, .absent, .src, .absent, true, false, true, .c, 1⟩]
  | 0x31 => [⟨0x31, .absent, .src, .absent, true, false, true, .c, 1⟩]
  | 0x32 => [⟨0x32, .absent, .zero, .absent, true, false, false, .c, 1⟩]
  | 0x33 => [⟨0x33, .dst, .absent, .absent, true, false, true, .c, 0⟩]
  | 0x34 => [⟨0x34, .dst, .absent, .absent, true, false, true, .c, 0⟩]
  | 0x35 => [⟨0x35, .pair, .absent, .absent, true, false, true, .c, 2⟩]
  | 0x36 => [⟨0x36, .absent, .zero, .absent, true, false, false, .c, 0⟩]
  | 0x37 => [⟨0x37, .dst, .absent, .absent, true, false, true, .c, 2⟩]
  | 0x38 => [⟨0x38, .out, .src, .src, true, false, false, .c, 1⟩,
      ⟨0x38, .out, .src, .src, true, false, false, .c, 1⟩,
      ⟨0x38, .out, .src, .src, true, false, false, .c, 1⟩,
      ⟨0x38, .out, .src, .src, true, false, false, .c, 1⟩,
      ⟨0x38, .out, .src, .src, true, false, false, .c, 1⟩,
      ⟨0x38, .out, .src, .src, true, false, false, .c, 1⟩,
      ⟨0x38, .out, .src, .src, true, false, false, .c, 1⟩,
      ⟨0x38, .out, .src, .src, true, false, false, .c, 1⟩]
  | 0x39 => [⟨0x39, .out, .src, .src, true, false, false, .c, 1⟩,
      ⟨0x39, .out, .src, .src, true, false, false, .c, 1⟩,
      ⟨0x39, .out, .src, .src, true, false, false, .c, 1⟩,
      ⟨0x39, .out, .src, .src, true, false, false, .c, 1⟩,
      ⟨0x39, .out, .src, .src, true, false, false, .c, 1⟩,
      ⟨0x39, .out, .src, .src, true, false, false, .c, 1⟩,
      ⟨0x39, .out, .src, .src, true, false, false, .c, 1⟩,
      ⟨0x39, .out, .src, .src, true, false, false, .c, 1⟩]
  | 0x3A => [⟨0x3A, .zero, .src, .src, true, false, false, .c, 1⟩,
      ⟨0x3A, .zero, .src, .src, true, false, false, .c, 1⟩,
      ⟨0x3A, .zero, .src, .src, true, false, false, .c, 1⟩,
      ⟨0x3A, .zero, .src, .src, true, false, false, .c, 1⟩,
      ⟨0x3A, .zero, .src, .src, true, false, false, .c, 1⟩,
      ⟨0x3A, .zero, .src, .src, true, false, false, .c, 1⟩,
      ⟨0x3A, .zero, .src, .src, true, false, false, .c, 1⟩,
      ⟨0x3A, .zero, .src, .src, true, false, false, .c, 1⟩]
  | 0x3B => [⟨0x3B, .dst, .src, .src, true, false, true, .c, 0⟩,
      ⟨0x3B, .dst, .src, .src, true, false, true, .c, 0⟩,
      ⟨0x3B, .dst, .src, .src, true, false, true, .c, 0⟩,
      ⟨0x3B, .dst, .src, .src, true, false, true, .c, 0⟩,
      ⟨0x3B, .dst, .src, .src, true, false, true, .c, 0⟩,
      ⟨0x3B, .dst, .src, .src, true, false, true, .c, 0⟩,
      ⟨0x3B, .dst, .src, .src, true, false, true, .c, 0⟩,
      ⟨0x3B, .dst, .src, .src, true, false, true, .c, 0⟩]
  | 0x3C => [⟨0x3C, .dst, .src, .src, true, false, true, .c, 0⟩]
  | 0x3D => [⟨0x3D, .zero, .src, .src, true, false, false, .c, 1⟩,
      ⟨0x3D, .zero, .src, .src, true, false, false, .c, 1⟩,
      ⟨0x3D, .zero, .src, .src, true, false, false, .c, 1⟩,
      ⟨0x3D, .zero, .src, .src, true, false, false, .c, 1⟩]
  | 0x3E => [⟨0x3E, .zero, .zero, .zero, true, false, false, .c, 1⟩,
      ⟨0x3E, .zero, .zero, .zero, true, false, false, .c, 1⟩]
  | 0x3F => [⟨0x3F, .out, .src, .src, true, false, false, .c, 1⟩]
  | 0x40 => [⟨0x40, .absent, .zero, .absent, false, true, false, .none, 1⟩]
  | 0x41 => [⟨0x41, .absent, .zero, .absent, false, true, false, .none, 1⟩]
  | 0x42 => [⟨0x42, .zero, .reg, .zero, false, true, false, .none, 1⟩,
      ⟨0x42, .reg, .reg, .zero, false, true, true, .none, 1⟩]
  | 0x43 => [⟨0x43, .reg, .reg, .absent, false, true, false, .none, 1⟩]
  | 0x44 => [⟨0x44, .reg, .reg, .absent, false, true, false, .none, 1⟩]
  | 0x45 => [⟨0x45, .reg, .reg, .absent, false, true, false, .none, 1⟩]
  | 0x46 => [⟨0x46, .reg, .reg, .absent, false, true, false, .none, 1⟩]
  | 0x47 => [⟨0x47, .reg, .reg, .absent, false, true, false, .none, 1⟩]
  | 0x48 => [⟨0x48, .reg, .reg, .absent, false, true, false, .none, 1⟩]
  | 0x49 => [⟨0x49, .reg, .reg, .absent, false, true, false, .none, 1⟩]
  | 0x4A => [⟨0x4A, .reg, .reg, .absent, false, true, false, .none, 1⟩]
  | 0x4B => [⟨0x4B, .reg, .reg, .absent, false, true, false, .none, 1⟩]
  | 0x4C => [⟨0x4C, .reg, .reg, .absent, false, true, false, .none, 1⟩]
  | 0x4D => [⟨0x4D, .reg, .reg, .absent, false, true, false, .none, 1⟩]
  | 0x4E => [⟨0x4E, .reg, .reg, .reg, false, true, true, .none, 1⟩,
      ⟨0x4E, .reg, .reg, .reg, false, true, true, .none, 1⟩,
      ⟨0x4E, .reg, .reg, .reg, false, true, true, .none, 1⟩,
      ⟨0x4E, .reg, .reg, .reg, false, true, true, .none, 1⟩,
      ⟨0x4E, .reg, .reg, .reg, false, true, true, .none, 1⟩,
      ⟨0x4E, .reg, .reg, .reg, false, true, true, .none, 1⟩,
      ⟨0x4E, .reg, .reg, .reg, false, true, true, .none, 1⟩,
      ⟨0x4E, .reg, .reg, .reg, false, true, true, .none, 1⟩]
  | 0x4F => [⟨0x4F, .zero, .zero, .zero, false, true, false, .none, 1⟩,
      ⟨0x4F, .zero, .zero, .zero, false, true, false, .none, 1⟩,
      ⟨0x4F, .zero, .zero, .zero, false, true, false, .none, 1⟩,
      ⟨0x4F, .zero, .zero, .zero, false, true, false, .none, 1⟩,
      ⟨0x4F, .zero, .zero, .zero, false, true, false, .none, 1⟩,
      ⟨0x4F, .zero, .zero, .zero, false, true, false, .none, 1⟩]
  | 0x50 => [⟨0x50, .reg, .reg, .absent, false, true, true, .none, 1⟩]
  | 0x51 => [⟨0x51, .reg, .reg, .absent, false, true, false, .none, 1⟩]
  | 0x52 => [⟨0x52, .zero, .reg, .zero, false, true, false, .none, 1⟩,
      ⟨0x52, .zero, .zero, .zero, false, true, false, .none, 1⟩,
      ⟨0x52, .zero, .zero, .zero, false, true, false, .none, 1⟩,
      ⟨0x52, .zero, .zero, .zero, false, true, false, .none, 1⟩,
      ⟨0x52, .zero, .zero, .zero, false, true, false, .none, 1⟩,
      ⟨0x52, .zero, .zero, .zero, false, true, false, .none, 1⟩,
      ⟨0x52, .zero, .zero, .zero, false, true, false, .none, 1⟩]
  | 0x53 => [⟨0x53, .reg, .reg, .reg, false, true, true, .none, 1⟩,
      ⟨0x53, .reg, .reg, .zero, false, true, true, .none, 1⟩,
      ⟨0x53, .reg, .reg, .zero, false, true, true, .none, 1⟩,
      ⟨0x53, .reg, .reg, .zero, false, true, true, .none, 1⟩,
      ⟨0x53, .reg, .reg, .zero, false, true, true, .none, 1⟩,
      ⟨0x53, .reg, .reg, .zero, false, true, true, .none, 1⟩,
      ⟨0x53, .reg, .reg, .zero, false, true, true, .none, 1⟩,
      ⟨0x53, .reg, .reg, .zero, false, true, true, .none, 1⟩]
  | 0x54 => [⟨0x54, .reg, .reg, .zero, false, true, true, .none, 1⟩,
      ⟨0x54, .reg, .reg, .zero, false, true, true, .none, 1⟩,
      ⟨0x54, .reg, .reg, .reg, false, true, true, .none, 1⟩,
      ⟨0x54, .reg, .reg, .reg, false, true, true, .none, 1⟩,
      ⟨0x54, .reg, .reg, .zero, false, true, true, .none, 1⟩,
      ⟨0x54, .reg, .reg, .zero, false, true, true, .none, 1⟩]
  | 0x55 => [⟨0x55, .reg, .reg, .zero, false, true, true, .none, 1⟩,
      ⟨0x55, .reg, .reg, .zero, false, true, true, .none, 1⟩,
      ⟨0x55, .reg, .reg, .zero, false, true, true, .none, 1⟩,
      ⟨0x55, .reg, .reg, .zero, false, true, true, .none, 1⟩]
  | 0x56 => [⟨0x56, .zero, .reg, .reg, false, true, false, .none, 1⟩,
      ⟨0x56, .reg, .zero, .zero, false, true, true, .none, 1⟩,
      ⟨0x56, .reg, .reg, .zero, false, true, true, .none, 1⟩,
      ⟨0x56, .reg, .zero, .zero, false, true, true, .none, 1⟩]
  | 0x57 => [⟨0x57, .reg, .reg, .reg, false, true, true, .none, 1⟩,
      ⟨0x57, .reg, .reg, .reg, false, true, true, .none, 1⟩,
      ⟨0x57, .reg, .reg, .zero, false, true, true, .none, 1⟩]
  | 0x58 => [⟨0x58, .reg, .reg, .zero, false, true, true, .none, 1⟩,
      ⟨0x58, .reg, .reg, .zero, false, true, true, .none, 1⟩,
      ⟨0x58, .reg, .reg, .reg, false, true, true, .none, 1⟩]
  | 0x59 => [⟨0x59, .reg, .reg, .reg, false, true, true, .none, 1⟩,
      ⟨0x59, .reg, .reg, .reg, false, true, true, .none, 1⟩,
      ⟨0x59, .reg, .reg, .reg, false, true, true, .none, 1⟩,
      ⟨0x59, .reg, .reg, .zero, false, true, true, .none, 1⟩]
  | 0x5A => [⟨0x5A, .reg, .absent, .absent, false, true, true, .none, 1⟩]
  | 0x5B => [⟨0x5B, .zero, .reg, .zero, false, true, false, .none, 1⟩,
      ⟨0x5B, .zero, .zero, .zero, false, true, false, .none, 1⟩]
  | 0x5C => [⟨0x5C, .reg, .reg, .zero, false, true, true, .none, 1⟩,
      ⟨0x5C, .reg, .reg, .reg, false, true, true, .none, 1⟩,
      ⟨0x5C, .reg, .zero, .zero, false, true, true, .none, 1⟩]
  | 0x5D => [⟨0x5D, .reg, .reg, .reg, false, true, true, .none, 1⟩,
      ⟨0x5D, .reg, .reg, .reg, false, true, false, .none, 1⟩,
      ⟨0x5D, .reg, .reg, .zero, false, true, true, .none, 1⟩]
  | 0x5E => [⟨0x5E, .reg, .reg, .reg, false, true, true, .none, 1⟩,
      ⟨0x5E, .reg, .reg, .reg, false, true, false, .none, 1⟩,
      ⟨0x5E, .reg, .reg, .zero, false, true, true, .none, 1⟩]
  | 0x5F => [⟨0x5F, .reg, .reg, .zero, false, true, true, .none, 1⟩,
      ⟨0x5F, .zero, .reg, .reg, false, true, false, .none, 1⟩,
      ⟨0x5F, .reg, .reg, .reg, false, true, true, .none, 1⟩]
  | _ => []

/-- The opcode has forms: F selects one (R34). An opcode of another format, or one whose F is a value (SEL, MOV, ETRAP,
AMOC), has none. -/
def opHasForms (op : Nat) : Bool := !(op == 0x09 || op == 0x17 || op == 0x1D || op == 0x3C)

/-- The row of a word (R39); none where F names no form (R34). -/
def opInfo (op : Nat) (x : Body) : Option OpInfo :=
  match x with
  | .ea _ f => (opRows op)[if opHasForms op then f.toNat else 0]?
  | _ => (opRows op)[0]?

/-- The loader codes of R38, in the order of its table (OPCODE-MASON to COMBINE-CODE). -/
inductive WordFault where
  | opcodeReserved | opcodeMason | voidMalformed | formReserved | fieldNonzero | specReserved | specDirection
  | guardField | headUnguarded | portUnconfigured | puNocond | combineCode
  deriving DecidableEq, Repr

/-- The specifiers of a word with their uses. -/
def Body.specs (x : Body) (o : OpInfo) : List (Use × BitVec 5) := [(o.d, x.d), (o.a, x.a), (o.b, x.b)]

/-- Every field the opcode does not use is zero (R34), and so are the index of a PU without action (R33) and the OPC and
TY of the six EC opcodes that do not contribute (R29). -/
def Body.unusedZero (x : Body) (o : OpInfo) : Bool :=
  (x.specs o).all (fun p => p.1 != .zero || p.2 == 0)
    && (x.pu.extractLsb' 0 2 != 0 || x.pu.extractLsb' 2 3 == 0)
    && (match x with
        | .ec y => o.op == 0x30 || o.op == 0x31 || (y.opc == 0 && y.ty == 0)
        | _ => true)

/-- F is within the forms or range (R34): MOV's tag is zero unless D is an output, and in a mason core it is zero. -/
def Body.formOk (x : Body) (o : OpInfo) (onCore : Bool) : Bool :=
  o.op != 0x17 || x.f == 0 || (!onCore && 20 ≤ x.d.toNat && x.d.toNat ≤ 23)

/-- A specifier that names an element operand. -/
def Use.isSpec : Use → Bool
  | .src | .dst | .acc | .pair | .out | .head => true
  | _ => false

/-- The direction columns of R30 and the narrower sets of R94, R107, R109, R119 and R156. -/
def Use.dirOk : Use → Nat → Bool
  | .src, v => !(20 ≤ v && v ≤ 23)
  | .dst, v => v ≤ 15 || (20 ≤ v && v ≤ 24)
  | .acc, v => v ≤ 15
  | .pair, v => v ≤ 15 && v % 2 == 0
  | .out, v => 20 ≤ v && v ≤ 23
  | .head, v => 16 ≤ v && v ≤ 19
  | _, _ => true

/-- The word reads TAGH (R30). -/
def Body.readsTag (x : Body) (o : OpInfo) : Bool := (x.specs o).any (fun p => p.1 == .src && p.2 == 25)

/-- The inputs whose head the word reads through a specifier or TAGH (R28). -/
def Body.headsRead (x : Body) (o : OpInfo) : BitVec 4 :=
  (x.specs o).foldl (fun acc p =>
      if (p.1 == .src || p.1 == .head) && 16 ≤ p.2.toNat && p.2.toNat ≤ 19 then acc ||| (1#4 <<< (p.2.toNat - 16)) else acc)
    (if x.readsTag o then 1#4 <<< x.guard.tc.toNat else 0)

/-- The outputs the word writes through D (R30). -/
def Body.outsWritten (x : Body) (o : OpInfo) : BitVec 4 :=
  if (o.d == .dst || o.d == .out) && 20 ≤ x.d.toNat && x.d.toNat ≤ 23 then 1#4 <<< (x.d.toNat - 20) else 0

/-- The guard is consistent (R27). -/
def Body.guardOk (x : Body) (o : OpInfo) : Bool :=
  let g := x.guard
  (g.pv &&& ~~~g.pm) == 0
    && (g.te == 1 || g.tv == 0)
    && (g.te == 1 || g.tc == 0 || x.readsTag o)
    && (g.te == 0 || g.ir.getLsbD g.tc.toNat)

/-- OPC and TY name a pair of R147: the codes 0-4 with the floating types 0-2, the codes 5-11 with the integer types 3-4. -/
def combineCodeOk (opc ty : Nat) : Bool := (opc ≤ 4 && ty ≤ 2) || (5 ≤ opc && opc ≤ 11 && 3 ≤ ty && ty ≤ 4)

/-- The loader's check of an element rule word whose row is `o`: the first fault in the order of R38's table from
OPCODE-MASON on. `peni` and `peno` are the configured ports (R73). -/
def Body.elemFault (x : Body) (o : OpInfo) (peni peno : BitVec 4) : Option WordFault :=
  if !o.elem then some .opcodeMason
  else if !x.formOk o false then some .formReserved
  else if !x.unusedZero o then some .fieldNonzero
  else if (x.specs o).any (fun p => p.1.isSpec && 28 ≤ p.2.toNat) then some .specReserved
  else if !(x.specs o).all (fun p => p.1.dirOk p.2.toNat) then some .specDirection
  else if !x.guardOk o then some .guardField
  else if (x.headsRead o ||| x.dq) &&& ~~~x.guard.ir != 0 then some .headUnguarded
  else if (x.guard.ir ||| x.dq ||| x.headsRead o) &&& ~~~peni != 0
      || (x.guard.orr ||| x.outsWritten o) &&& ~~~peno != 0 then some .portUnconfigured
  else if x.pu.extractLsb' 0 2 == 3 && !o.cond then some .puNocond
  else match x with
    | .ec y => if (o.op == 0x30 || o.op == 0x31) && !combineCodeOk y.opc.toNat y.ty.toNat then some .combineCode else none
    | _ => none

/-- A mason core traps the word, whose row is `o`, as an illegal instruction (the mason column of R38). -/
def Body.coreIllegal (x : Body) (o : OpInfo) : Bool :=
  let g := x.guard
  !o.core || g.ir != 0 || g.orr != 0 || g.te != 0 || g.tc != 0 || g.tv != 0 || x.dq != 0
    || !x.formOk o true || !x.unusedZero o || (x.pu.extractLsb' 0 2 == 3 && !o.cond)

/-- The lanes of R40: A, M and C, each 0 or 1. A word of lane A or M that writes an output takes the C lane too; MOV to
an output takes the C lane only. -/
def Body.lanes (x : Body) (o : OpInfo) : Nat × Nat × Nat :=
  let out := x.outsWritten o != 0
  match o.lane with
  | .none => (0, 0, 0)
  | .a => if out then (if o.op == 0x17 then (0, 0, 1) else (1, 0, 1)) else (1, 0, 0)
  | .m => if out then (0, 1, 1) else (0, 1, 0)
  | .c => (0, 0, 1)

/-- The row of an instruction word (R39). -/
def Instr.info? (i : Instr) : Option OpInfo := i.body?.bind (opInfo i.op)

/-- The first loader fault of an instruction as an element rule (R38). -/
def Instr.elemFault (i : Instr) (peni peno : BitVec 4) : Option WordFault :=
  match i.body?, i.info? with
  | some x, some o => x.elemFault o peni peno
  | _, _ => some .opcodeReserved

/-- A mason core traps the instruction as illegal (R38). -/
def Instr.coreIllegal (i : Instr) : Bool :=
  match i.body?, i.info? with
  | some x, some o => x.coreIllegal o
  | _, _ => true

/-- An instruction that some program may hold: a word a mason core accepts, or a rule word a loader accepts with every
port configured. -/
def Instr.wellFormed (i : Instr) : Bool := !i.coreIllegal || (i.elemFault 0xF 0xF).isNone

end Sys2Proof
end

