-- ==== Sys2Proof/Decode.lean ====
section
/-! DEFINITION. Decode: the fields of R25, R26 and R29 pulled out of a word once, the opcode map of R39, and the encoder
written from the same tables. -/

namespace Sys2Proof

/-- Why a word is no instruction (R37, R38). -/
inductive Reject where
  /-- The all-zero word. -/
  | void
  /-- Opcode 0 with other bits set. -/
  | voidMalformed
  /-- Opcode 0x60-0x7F. -/
  | opcodeReserved
  /-- F beyond the listed forms. -/
  | formReserved
  /-- Fewer than eight bytes. -/
  | short
  deriving DecidableEq, Repr

/-- The OPCODE field of R25. -/
def opcodeOf (w : Dword) : BitVec 7 := w.extractLsb' 27 7

/-- The guard of R26. -/
def guardOf (w : Dword) : Guard :=
  { pm := w.extractLsb' 56 8, pv := w.extractLsb' 48 8, ir := w.extractLsb' 44 4, orr := w.extractLsb' 40 4,
    te := w.extractLsb' 39 1, tc := w.extractLsb' 37 2, tv := w.extractLsb' 34 3 }

def eaOf (w : Dword) : EA :=
  { g := guardOf w, d := w.extractLsb' 22 5, a := w.extractLsb' 17 5, b := w.extractLsb' 12 5, dq := w.extractLsb' 8 4,
    pu := w.extractLsb' 3 5 }

/-- F of format EA. -/
def fOf (w : Dword) : BitVec 3 := w.extractLsb' 0 3

def eiOf (w : Dword) : EI :=
  { g := guardOf w, d := w.extractLsb' 22 5, a := w.extractLsb' 17 5, dq := w.extractLsb' 13 4, pu := w.extractLsb' 8 5,
    imm := w.extractLsb' 0 8 }

def ekOf (w : Dword) : EK := { g := guardOf w, d := w.extractLsb' 22 5, imm := w.extractLsb' 0 22 }

def ecOf (w : Dword) : EC :=
  { g := guardOf w, m := w.extractLsb' 21 6, ad := w.extractLsb' 16 5, opc := w.extractLsb' 12 4, dq := w.extractLsb' 8 4,
    pu := w.extractLsb' 3 5, ty := w.extractLsb' 0 3 }

def mbOf (w : Dword) : MB := { g := guardOf w, a := w.extractLsb' 22 5, off := w.extractLsb' 0 22 }

def msOf (w : Dword) : MS :=
  { g := guardOf w, d := w.extractLsb' 22 5, a := w.extractLsb' 17 5, imm := w.extractLsb' 0 17 }

/-- The format the opcode `op` fixes (R39), with the word's fields. -/
def bodyAt (op : Nat) (w : Dword) : Body :=
  match op with
  | 0x0A => .ei (eiOf w)
  | 0x0B => .ei (eiOf w)
  | 0x0C => .ei (eiOf w)
  | 0x0D => .ei (eiOf w)
  | 0x0E => .ei (eiOf w)
  | 0x0F => .ei (eiOf w)
  | 0x10 => .ei (eiOf w)
  | 0x11 => .ei (eiOf w)
  | 0x12 => .ei (eiOf w)
  | 0x13 => .ei (eiOf w)
  | 0x14 => .ei (eiOf w)
  | 0x15 => .ek (ekOf w)
  | 0x16 => .ek (ekOf w)
  | 0x1B => .ei (eiOf w)
  | 0x1C => .ei (eiOf w)
  | 0x30 => .ec (ecOf w)
  | 0x31 => .ec (ecOf w)
  | 0x32 => .ec (ecOf w)
  | 0x33 => .ec (ecOf w)
  | 0x34 => .ec (ecOf w)
  | 0x35 => .ec (ecOf w)
  | 0x36 => .ec (ecOf w)
  | 0x37 => .ec (ecOf w)
  | 0x40 => .mb (mbOf w)
  | 0x41 => .mb (mbOf w)
  | 0x43 => .ms (msOf w)
  | 0x44 => .ms (msOf w)
  | 0x45 => .ms (msOf w)
  | 0x46 => .ms (msOf w)
  | 0x47 => .ms (msOf w)
  | 0x48 => .ms (msOf w)
  | 0x49 => .ms (msOf w)
  | 0x4A => .ms (msOf w)
  | 0x4B => .ms (msOf w)
  | 0x4C => .ms (msOf w)
  | 0x4D => .ms (msOf w)
  | 0x50 => .ei (eiOf w)
  | 0x51 => .ei (eiOf w)
  | 0x5A => .ek (ekOf w)
  | _ => .ea (eaOf w) (fOf w)

/-- The row and the fields of a word, or why it is none (R34, R37, R38, R39). -/
def fieldsOf (w : Dword) : Except Reject (OpInfo × Body) :=
  let op := (opcodeOf w).toNat
  if op == 0 then .error (if w == 0 then .void else .voidMalformed)
  else if 0x60 ≤ op then .error .opcodeReserved
  else match opInfo op (bodyAt op w) with
    | some o => .ok (o, bodyAt op w)
    | none => .error .formReserved

/-- The forms of an EA opcode, from F = 0 upward; a higher F is reserved (R34). -/
noncomputable def formOf (w : Dword) (forms : List (EA → Instr)) : Except Reject Instr :=
  match forms[(fOf w).toNat]? with
  | some mk => .ok (mk (eaOf w))
  | none => .error .formReserved

/-- The instruction of a word whose opcode is `op`, by the opcode map of R39. (Lean's code generator builds no constructor past the 245th, so
the definitions that build an Instr from a word carry the word noncomputable; Lean's kernel evaluates them. The
machine itself runs on `fieldsOf`.) -/
noncomputable def decodeOp (op : Nat) (w : Dword) : Except Reject Instr :=
  match op with
  | 0x00 => .error (if w == 0 then .void else .voidMalformed)
  | 0x01 => formOf w [.add, .sub, .and, .or, .xor, .andn, .min, .max]
  | 0x02 => formOf w [.minu, .maxu, .adds, .subs, .addsu, .subsu, .absd, .avg]
  | 0x03 => formOf w [.shl, .shr, .sar, .rol, .ror]
  | 0x04 => formOf w [.mul, .mulhs, .mulhu, .mulhsu]
  | 0x05 => formOf w [.divs, .divu, .rems, .remu]
  | 0x06 => formOf w [.cmpeq, .cmpne, .cmplt, .cmple, .cmpltu, .cmpleu, .tst, .tstn]
  | 0x07 => formOf w [.clz, .ctz, .popc, .brev, .bswap, .sexb, .sexh, .zexh]
  | 0x08 => formOf w [.bfxu, .bfxs, .bfi]
  | 0x09 => .ok (.sel (eaOf w) (fOf w))
  | 0x0A => .ok (.addi (eiOf w))
  | 0x0B => .ok (.andi (eiOf w))
  | 0x0C => .ok (.ori (eiOf w))
  | 0x0D => .ok (.xori (eiOf w))
  | 0x0E => .ok (.shli (eiOf w))
  | 0x0F => .ok (.shri (eiOf w))
  | 0x10 => .ok (.sari (eiOf w))
  | 0x11 => .ok (.cmpieq (eiOf w))
  | 0x12 => .ok (.cmpilt (eiOf w))
  | 0x13 => .ok (.cmpiltu (eiOf w))
  | 0x14 => .ok (.muli (eiOf w))
  | 0x15 => .ok (.movk (ekOf w))
  | 0x16 => .ok (.movks (ekOf w))
  | 0x17 => .ok (.mov (eaOf w) (fOf w))
  | 0x18 => formOf w [.fwd]
  | 0x19 => formOf w [.pget, .pput, .psetm, .pclrm]
  | 0x1A => formOf w [.nop]
  | 0x1B => .ok (.lld (eiOf w))
  | 0x1C => .ok (.lst (eiOf w))
  | 0x1D => .ok (.etrap (eaOf w) (fOf w))
  | 0x1E => formOf w [.errt]
  | 0x1F => formOf w [.ehalt]
  | 0x20 => formOf w [.fadd, .fsub, .fmul, .fdiv, .fmin, .fmax, .fminn, .fmaxn]
  | 0x21 => formOf w [.fma, .fms, .fnma, .fnms]
  | 0x22 => formOf w [.fceq, .fclt, .fcle, .fcun, .fcne, .fceqs, .fclts, .fcles]
  | 0x23 => formOf w [.fsqrt, .fabs, .fneg, .fclass, .frcpa, .frsqa, .frint, .fcpys]
  | 0x24 => formOf w [.i2f, .n2f, .f2i, .f2iz, .f2n, .f2bf, .bf2fl, .bf2fh]
  | 0x25 => formOf w [.f2h, .h2fl, .h2fh]
  | 0x26 => formOf w [.badd2, .bsub2, .bmul2, .bfma2, .bmax2, .bmin2, .bdot2, .bmaxv2]
  | 0x27 => formOf w [.hadd2, .hsub2, .hmul2, .hfma2, .hmax2, .hmin2, .hdot2]
  | 0x28 => formOf w [.qdot4, .qunpl, .qunph, .qpack, .qamax]
  | 0x29 => formOf w [.q2f, .f2q, .qscl]
  | 0x2A => formOf w [.reqRne, .reqRna, .reqRtz, .reqRup, .reqRdn, .reqFctl]
  | 0x2B => formOf w [.frfl, .fwfl, .fclr]
  | 0x2C => formOf w [.bceq2, .bclt2, .bcle2, .bcun2]
  | 0x2D => formOf w [.hceq2, .hclt2, .hcle2, .hcun2]
  | 0x2E => formOf w [.add2h, .sub2h, .max2h, .min2h, .max2hu, .min2hu]
  | 0x2F => formOf w [.add4b, .sub4b, .max4b, .min4b, .sad4b, .dot4b, .dot4bu]
  | 0x30 => .ok (.contrib (ecOf w))
  | 0x31 => .ok (.contribc (ecOf w))
  | 0x32 => .ok (.cclose (ecOf w))
  | 0x33 => .ok (.settle (ecOf w))
  | 0x34 => .ok (.peek (ecOf w))
  | 0x35 => .ok (.cstat (ecOf w))
  | 0x36 => .ok (.crst (ecOf w))
  | 0x37 => .ok (.cpoll (ecOf w))
  | 0x38 => formOf w [.mxtMma, .mxtBind, .mxtRebind, .mxtRelease, .mxtSpill, .mxtFlush, .mxtSetup, .mxtIfence]
  | 0x39 => formOf w [.stcCopy, .stcGather, .stcScatter, .stcFlagf, .stcBatch, .stcWaitb, .stcInject, .stcEvict]
  | 0x3A => formOf w [.amoAdd, .amoAdds, .amoMin, .amoMax, .amoAnd, .amoOr, .amoXor, .amoSwap]
  | 0x3B => formOf w [.amorAdd, .amorAdds, .amorMin, .amorMax, .amorAnd, .amorOr, .amorXor, .amorSwap]
  | 0x3C => .ok (.amoc (eaOf w) (fOf w))
  | 0x3D => formOf w [.amofFadd, .amofFmax, .amofFmin, .amofBadd2]
  | 0x3E => formOf w [.schdNext, .schdReset]
  | 0x3F => formOf w [.mxq]
  | 0x40 => .ok (.br (mbOf w))
  | 0x41 => .ok (.brl (mbOf w))
  | 0x42 => formOf w [.bri, .brli]
  | 0x43 => .ok (.ldb (msOf w))
  | 0x44 => .ok (.ldh (msOf w))
  | 0x45 => .ok (.ldw (msOf w))
  | 0x46 => .ok (.ldd (msOf w))
  | 0x47 => .ok (.ldbs (msOf w))
  | 0x48 => .ok (.ldhs (msOf w))
  | 0x49 => .ok (.ldws (msOf w))
  | 0x4A => .ok (.stb (msOf w))
  | 0x4B => .ok (.sth (msOf w))
  | 0x4C => .ok (.stw (msOf w))
  | 0x4D => .ok (.std (msOf w))
  | 0x4E => formOf w [.mamoAdd, .mamoMin, .mamoMax, .mamoAnd, .mamoOr, .mamoXor, .mamoSwap, .mamoCas]
  | 0x4F => formOf w [.fenceAll, .fenceLd, .fenceSt, .fenceAcq, .fenceRel, .fenceCfg]
  | 0x50 => .ok (.sysrd (eiOf w))
  | 0x51 => .ok (.syswr (eiOf w))
  | 0x52 => formOf w [.trap, .eret, .idle, .wfe, .sev, .brk, .halt]
  | 0x53 => formOf w [.cfgw, .cfgr, .cfgcommit, .cfgabort, .cfgstat, .planesel, .snaprd, .rollbk]
  | 0x54 => formOf w [.freeze, .thaw, .readout, .restore, .probe, .drainreq]
  | 0x55 => formOf w [.crcb, .crch, .crcw, .crcd]
  | 0x56 => formOf w [.shka, .shks, .sigv, .secst]
  | 0x57 => formOf w [.wqpop, .wqpush, .wqstat]
  | 0x58 => formOf w [.lkst, .lkrt, .lkctl]
  | 0x59 => formOf w [.tlbi, .pwalk, .migr, .migq]
  | 0x5A => .ok (.movpc (ekOf w))
  | 0x5B => formOf w [.iinv, .iinva]
  | 0x5C => formOf w [.evpop, .evack, .evstat]
  | 0x5D => formOf w [.slotrd, .slotwr, .islst]
  | 0x5E => formOf w [.strd, .stwr, .stst]
  | 0x5F => formOf w [.ksrd, .kswr, .ksst]
  | _ => .error .opcodeReserved

/-- The instruction of a word (R25). -/
noncomputable def decodeWord (w : Dword) : Except Reject Instr := decodeOp (opcodeOf w).toNat w

/-- The little-endian dword of eight bytes, the first at the lowest address (R25). -/
def dwordOfBytes (b0 b1 b2 b3 b4 b5 b6 b7 : Byte) : Dword :=
  b7 ++ (b6 ++ (b5 ++ (b4 ++ (b3 ++ (b2 ++ (b1 ++ b0))))))

/-- The instruction at the front of a list of bytes, with the bytes after it. -/
noncomputable def decode : List Byte → Except Reject (Instr × List Byte)
  | b0 :: b1 :: b2 :: b3 :: b4 :: b5 :: b6 :: b7 :: rest =>
    (decodeWord (dwordOfBytes b0 b1 b2 b3 b4 b5 b6 b7)).map (·, rest)
  | _ => .error .short

/-- The eight bytes of a dword in little-endian order. -/
def bytesOfDword (w : Dword) : List Byte := (List.range 8).map fun k => w.extractLsb' (8 * k) 8

/-- The first fault of an element rule word in the order of R38's table; VOID is accepted (R37). -/
def elemWordFault (w : Dword) (peni peno : BitVec 4) : Option WordFault :=
  let op := (opcodeOf w).toNat
  if 0x60 ≤ op then some .opcodeReserved
  else if 0x40 ≤ op then some .opcodeMason
  else match fieldsOf w with
    | .ok (o, x) => x.elemFault o peni peno
    | .error .void => none
    | .error .voidMalformed => some .voidMalformed
    | .error .opcodeReserved => some .opcodeReserved
    | .error .formReserved | .error .short => some .formReserved

/-- Bits [63:34] of a word (R26). -/
def Guard.bits (g : Guard) : BitVec 30 := g.pm ++ (g.pv ++ (g.ir ++ (g.orr ++ (g.te ++ (g.tc ++ g.tv)))))

/-- Bits [63:34] and [26:0] of a word with the opcode between them (R25, R29). -/
def Body.bits (x : Body) (op : BitVec 7) : Dword :=
  match x with
  | .ea x f => x.g.bits ++ (op ++ (x.d ++ (x.a ++ (x.b ++ (x.dq ++ (x.pu ++ f))))))
  | .ei x => x.g.bits ++ (op ++ (x.d ++ (x.a ++ (x.dq ++ (x.pu ++ x.imm)))))
  | .ek x => x.g.bits ++ (op ++ (x.d ++ x.imm))
  | .ec x => x.g.bits ++ (op ++ (x.m ++ (x.ad ++ (x.opc ++ (x.dq ++ (x.pu ++ x.ty))))))
  | .mb x => x.g.bits ++ (op ++ (x.a ++ x.off))
  | .ms x => x.g.bits ++ (op ++ (x.d ++ (x.a ++ x.imm)))

/-- The word of an instruction; a whole step of a unit has no word, and VOID stands for it. -/
def encode (i : Instr) : Dword :=
  match i.body? with
  | some x => x.bits (BitVec.ofNat 7 i.op)
  | none => 0

/-- The instruction this decoder reads from the low `nbits` bits of `w`; the bits above are zero. Every row that has
bits is one dword (R25), so a longer `nbits` names no instruction. -/
noncomputable def decodeTableWord (nbits w : Nat) : Option Instr :=
  if nbits ≤ 64 then
    match decode (bytesOfDword (BitVec.ofNat 64 (w % 2 ^ nbits))) with
    | .ok (i, _) => some i
    | .error _ => none
  else none

end Sys2Proof
end

