-- ==== Sys2Proof/Config.lean ====
section
/-! DEFINITION. Config: what an implementation or its one-time storage fixes, and the free values, as constants without a
body: nothing in Lean can evaluate them. The assumption log (4, 13) says what each stands for. -/

namespace Sys2Proof.Config

/-- A word the spec leaves open, the n-th of a run (log 4). -/
opaque freeWord : Nat → Word
/-- A dword the spec leaves open, the n-th of a run (log 4). -/
opaque freeDword : Nat → Dword

/-- The fuses (R292, R358): which tiles are fused, and how many spare tiles a die was built with (log 13). -/
opaque fused : Nat → Bool
opaque spareTiles : Nat → Nat
/-- The boot ROM's bytes (R401, log 13). -/
opaque romByte : Nat → Byte
/-- Keys in fuses and one-time storage (R401, R403): the firmware public key, the image key, each in the 68-byte layout of R312, and root
and SEED of the identity public key (log 13). -/
opaque firmwareKey : List Byte
opaque identityKey : List Byte
/-- The address at which the ROM enters firmware (R401, log 13). -/
opaque firmwareEntry : Dword
/-- How many rounds beyond 65,536 an element whose inputs have drained goes on firing rules that never cease to be eligible (R141,
log 14). -/
opaque drainLinger : Nat
/-- The range word (R298) of a keystone on another device, by its place with the device field: the loader reads it when it binds a
target (R201, R215, log 78). -/
opaque remoteRange : Nat → Word
/-- Whether the keystone at a place of another device withholds credits in a round (R202, log 78). -/
opaque remoteWithholds : Nat → Nat → Bool

end Sys2Proof.Config
end

