-- ==== Sys2Proof/Machine/Units.lean ====
section
/-! DEFINITION. Machine/Units: the records that State holds for matrix islands, streamers, the transport between devices,
links, host messages, dies and images. -/

namespace Sys2Proof.Machine

/-! ### Matrix islands (R240-R255, R261-R265) -/

/-- An accumulator slot of an island (R249, R261): state 0 free, 1 active, 2 bound; element (i, j) stands at 128 i + j. `dirty` says
that it has been written since the last complete cut, `fresh` since the island's last snapshot (R254). -/
structure ISlot where
  state : Nat := 0
  dirty : Bool := false
  fresh : Bool := false
  mark  : Nat := 0
  first : Nat := 0
  srow  : BitVec 128 := 0
  scol  : BitVec 128 := 0
  val   : Sparse Word := []
  deriving DecidableEq, Repr, Inhabited

/-- An operand or a scale that an MMA has taken: its bits, or a special value where a token could not supply it (R241). -/
structure Opnd where
  bits    : Nat
  special : Bool
  deriving DecidableEq, Repr, Inhabited

/-- An MMA that has been accepted (R245, R248): its command, its slot once SlotFor has given one, what it has taken, its
issue rounds done, its last issue round, its completion word and round once issue has ended, and the contribution it makes (R174). -/
structure Mma where
  cmd    : Dword
  acc    : Nat
  slot   : Nat
  a      : List Opnd := []
  sa     : List Opnd := []
  b      : List Opnd := []
  sb     : List Opnd := []
  issued : Nat := 0
  lastIssue : Option Nat := none
  done   : Option (Nat × Word) := none
  contrib : Option (Word × BitVec 7) := none
  deriving DecidableEq, Repr, Inhabited

/-- A BIND or REBIND on its way (R269): its command, the row that is read next with the entries read so far, the values of the rows
before that have not left, the marks they named, the absent marks and the flags so far. -/
structure BindRun where
  cmd    : Dword
  row    : Nat := 0
  es     : List (Option Dword) := []
  vals   : List Word := []
  marks  : List Nat := []
  absent : Nat := 0
  fl     : BitVec 5 := 0
  deriving DecidableEq, Repr, Inhabited

/-- What an island that executes another command than an MMA is doing (R245, R251, R253, R269). `last` is the completion
word that follows the last value. -/
inductive IslandJob where
  | none
  | flush (vals : List Word) (free : Option Nat) (last : Word)
  | bind (run : BindRun)
  | fence (last : Nat)
  | finish (at_ : Nat) (last : Word)
  deriving DecidableEq, Repr, Inhabited

/-- A spill or reload on its way (R262): it ends in round `due`; `asked` where a SPILL asks for it (R272). -/
structure Transfer where
  spill : Bool
  slot  : Nat
  entry : Nat
  due   : Nat
  asked : Bool := false
  deriving DecidableEq, Repr, Inhabited

/-- A matrix island in one plane. Inputs: 0 command, 1 coefficients, 2 A, 3 B, 4 A scales, 5 B scales. Outputs: 0 result,
1 completion. `found` says that the scan of the next ring-fed MMA has found its block (R278), `homeAt` is the place of the home element
of its register (R328), `heldNew` are the directory entries freed since the last snapshot (R265), `ckptSide` says by slot which of its
two checkpoint images belongs to the last complete cut, and `ckptNew` which slots have been written for the pending one (R254).
`pastMark`, `overhang` and `discard` count by channel the MARKERs passed, the tokens taken past the last and those to discard (R254,
R255). -/
structure Island where
  bound  : Bool := false
  setup  : Word := 0
  mregSlot : Option (Nat × Nat) := none
  spillVa : Nat := 0
  spillN : Nat := 0
  spillPins : List Pin := []
  ckpt   : Nat := 0
  homeAt : Word := 0
  ringFed : Bool := false
  slots  : Sparse ISlot := []
  dir    : Sparse Word := []
  cmdNo  : Nat := 0
  mmas   : List Mma := []
  job    : IslandJob := .none
  xfer   : Option Transfer := none
  spillWait : Option Nat := none
  doneCmds : Nat := 0
  idle   : Nat := 0
  spilledNow : Option Nat := none
  found  : Bool := false
  heldNew : List Nat := []
  pendImg : List Nat := []
  ckptSide : Sparse Bool := []
  ckptNew : List Nat := []
  overhang : Sparse Nat := []
  pastMark : Sparse Nat := []
  discard : Sparse Nat := []
  io     : Ports := {}
  deriving DecidableEq, Repr, Inhabited

/-! ### Streamers (R223-R234, R376-R379) -/

/-- The bytes that a streamer has read for a command or a bucket by their offset, the offsets that another device refused with
the status they give (R227, R228), the requests to other devices that are not answered yet, how many chunks of the phase at hand are
done (R177), and the bytes written in each granule that is not complete (R227). -/
structure StXfer where
  data    : Sparse Byte := []
  refused : Sparse Nat := []
  rd      : Nat := 0
  wr      : Nat := 0
  phase   : Nat := 0
  pos     : Nat := 0
  gmask   : Sparse Nat := []
  deriving DecidableEq, Repr, Inhabited

/-- A command that a streamer has accepted and not completed (R225-R233), with its form, its word and its batch. `cut` is the
interval of a FLAGF; `mark` is how many ring tokens stand up to the last of an INJECT. -/
structure SCmd where
  id     : Nat
  form   : Nat
  word   : Dword
  acc    : Nat
  batch  : Nat
  status : Nat := 0
  flags  : BitVec 5 := 0
  cut    : Nat := 0
  mark   : Option Nat := none
  x      : StXfer := {}
  deriving DecidableEq, Repr, Inhabited

/-- A message of a collective (R377, R379): the collective, bucket, step, source and destination rank; values going up are coded
by the sender's scale where the wire is mk8. -/
structure Hop where
  coll  : Nat
  b     : Nat
  step  : Nat
  src   : Nat
  dst   : Nat
  scale : Nat
  vals  : List Word
  deriving DecidableEq, Repr, Inhabited

/-- A hop on its way to another device (R379): the device, the streamer that sent it, and when it left. -/
structure HopOut where
  dev  : Nat
  hop  : Hop
  st   : Nat
  sent : Nat
  deriving DecidableEq, Repr, Inhabited

/-- A bucket's declaration in the streamer record (R328, R376): its wire and its four SPBs. -/
structure BuckDecl where
  wire : Nat
  src  : List Dword
  dst  : List Dword
  scale : List Dword
  errmem : List Dword
  deriving DecidableEq, Repr, Inhabited

/-- A bucket that runs (R377): its level in the tree, the values so far, whether it has sent up, its flags, and the scale it
read. -/
structure BuckRun where
  step  : Nat
  level : Nat := 0
  vals  : List Word := []
  up    : Bool := false
  flags : BitVec 5 := 0
  scale : Nat := 0
  x     : StXfer := {}
  deriving DecidableEq, Repr, Inhabited

/-- What a rollback of a bucket never removes (R379): the contribution that SignEncode made, the error memory it writes back,
what went up to the parent with its scale, the flags of both, and the hops that were combined; `freeAt` is the first cut
that may free it, once the bucket has completed. -/
structure Kept where
  b     : Nat
  step  : Nat
  enc   : Option (List Word × List Word) := none
  wire  : Option (Nat × List Word) := none
  flags : BitVec 5 := 0
  hops  : List Hop := []
  freeAt : Option Nat := none
  deriving DecidableEq, Repr, Inhabited

/-- A streamer in one plane. Inputs: 0 command, 1 collective starts. Outputs: 0 completion, 1 ring. `opened` counts the
commands of the open batch, `closing` holds the closed batches whose pass-end header has not left, with the place of that header
among the ring tokens once it is there, and `ringSent` counts the tokens put on the ring. -/
structure Streamer where
  bound  : Bool := false
  spbs   : Sparse Dword := []
  pins   : Sparse (List Pin) := []
  ctx    : Nat := 0
  ringTo : List Nat := []
  coll   : Option (Nat × Nat × Nat) := none
  peers  : List Nat := []
  bucks  : Sparse (Option BuckDecl) := []
  nextCmd : Nat := 0
  cmds   : List SCmd := []
  batchNo : Nat := 0
  opened : Nat := 0
  hasInject : Bool := false
  closing : List (Nat × Option Nat) := []
  evicted : List Nat := []
  ringSent : Nat := 0
  runs   : Sparse (Option BuckRun) := []
  kept   : List Kept := []
  hops   : List Hop := []
  used   : List (Nat × Nat × Nat) := []
  draining : Bool := false
  io     : Ports := {}
  deriving DecidableEq, Repr, Inhabited

/-! ### The transport between devices (R367-R371) -/

/-- What a request carries (R367). -/
inductive DltOp where
  | rd (n : Nat)
  | wr (bytes : List Byte) (mask : List Bool)
  | ku (cmd : KCmd) (posted : Bool)
  | at_ (f : Nat) (v cmp : Dword)
  deriving DecidableEq, Repr, Inhabited

/-- The unit of this device that sent a request (R367); a store of an AG carries the cut whose REL released it (R211) and the index
that named it (R194), a write of a streamer the source bytes that it stands for (R227); `seed` reads the seed records of a launch (R336). A write that a rollback has left behind goes on,
and its answer concerns nobody (R234). -/
inductive DltSrc where
  | agLoad (a seq : Nat)
  | agStore (a cut idx : Nat)
  | port (e target : Nat) (ticket : Option Nat)
  | core (c : Nat)
  | stRead (st id off : Nat)
  | stWrite (st id off n : Nat)
  | seed (l : Nat)
  | gone
  deriving DecidableEq, Repr, Inhabited

/-- A request on its way to another device: when it left, and where its answer goes. -/
structure DltReq where
  id   : Nat
  dev  : Nat
  place : Nat
  op   : DltOp
  src  : DltSrc
  sent : Nat
  deriving DecidableEq, Repr, Inhabited

/-- A request from another device (R367): its identity in that device's flow, and the device. -/
structure DltIn where
  id   : Nat
  dev  : Nat
  place : Nat
  op   : DltOp
  deriving DecidableEq, Repr, Inhabited

/-- The answer of a request (R367, R370): data, an ACK, a reply of a keystone, an old dword, a refusal, or an uncorrectable
error after one re-read. -/
inductive DltAns where
  | data (bytes : List Byte)
  | ack
  | reply (tok : Token)
  | old (v : Dword)
  | err (code : Nat)
  | ecc
  deriving DecidableEq, Repr, Inhabited

/-- An import window (R371), as its two dwords. -/
structure Window where
  d0 : Dword := 0
  d1 : Dword := 0
  deriving DecidableEq, Repr, Inhabited

/-! ### Links and host (R365, R366, R372-R375) -/

/-- A link (R372, R373, R375): its status word's fields, its control word, the retrain in progress with the round it began, and the round
in which it stopped taking traffic, or in which it last timed out since (R373). -/
structure Link where
  up       : Bool := false
  degraded : Bool := false
  width    : Nat := 0
  spares   : Nat := 0
  retrains : Nat := 0
  replays  : Nat := 0
  ctl      : Word := 0x801
  training : Option Nat := none
  fails    : Nat := 0
  downAt   : Option Nat := none
  deriving DecidableEq, Repr, Inhabited

/-- A host message that waits (R365): the endpoint it came from, its first dword and its body. -/
structure HostMsg where
  eid  : Dword
  head : Dword
  body : List Byte
  deriving DecidableEq, Repr, Inhabited

/-- What the device sends to a host (R365, R366): ACCEPTED, FULL, DENIED, DONE, the data of an MREAD, or a COMPLETION. -/
inductive HostReply where
  | accepted | full | denied | done
  | data (bytes : List Byte)
  | completion (queue : Nat) (record : List Dword)
  deriving DecidableEq, Repr, Inhabited

/-! ### Planes, dies and images (R325-R344) -/

/-- The configuration of one plane of a tile (R298, R328, R331): routes, bank mask, the banks handed on with their consumer
courses (R182), the shadow as dwords at
unit × 8192 + offset / 8, the block that the port is receiving, how many dwords of schedule table the block wrote, whether it binds the
tile's island and its streamer, whatever their records hold (R328), and the tile's part in the region's drain. -/
structure PlaneState where
  routes : Sparse Word := []
  mask   : Nat := 0
  hands  : List (Nat × Nat) := []
  shadow : Sparse Dword := []
  valid  : Bool := false
  rx     : List Dword := []
  schedLen : Nat := 0
  binds  : Bool × Bool := (false, false)
  status : Nat := 0
  acked  : Bool := false
  occupied : Bool := false
  drainCut : Option Nat := none
  drn    : Bool := false
  deriving DecidableEq, Repr, Inhabited

/-- A work queue (R313, R339): its map entry, where its ring stands, and which of its entries a service-mode core pushed (R20). -/
structure WorkQueue where
  cap  : Nat := 0
  die  : Nat := 0
  ms   : Bool := false
  priv : Bool := false
  base : Nat := 0
  head : Nat := 0
  len  : Nat := 0
  service : List Bool := []
  headAt : Option Nat := none
  deriving DecidableEq, Repr, Inhabited

/-- Status block 4 (R339) and what else a die's launch sequencer and frame table hold (R292, R337, R338, R406); `cur` is the entry of the
round at hand; `vaultAt` holds by vault the round after its last access, and `scrubDue` the places of granules whose scrub has yielded
(R405). -/
structure DieState where
  frame  : Sparse Dword := []
  cur    : Nat := 0
  preArea : Nat := 0
  preSize : Nat := 0
  heldCpl : List (Nat × List Dword) := []
  rr     : Bool := false
  fatal  : Bool := false
  retiredNow : Nat := 0
  ce     : Nat := 0
  ue     : Nat := 0
  vaultAt : Sparse Nat := []
  scrubDue : List Nat := []
  deriving DecidableEq, Repr, Inhabited

/-- An image store directory entry (R339). -/
structure DirEntry where
  v    : Bool := false
  rel  : Bool := false
  place : Nat := 0
  len  : Nat := 0
  deriving DecidableEq, Repr, Inhabited

/-- What a course of an image declares whose layout the spec does not give (log 9), in image rows and columns: combining
registers, keystone targets, bank hand-over, preloaded granules, the repeat node's bank, keystone banks and words, order
clauses of AGs with the SLOTS of their order channels (R283), in `plain` the element inputs that a route line without its fan-in clause
names (R283), in `repSpbs` the SPBs that a repeat node holds for its data input and its output (R192), and in `sides` the die edges that
bound islands (false) and streamers (true) face (R330). The third coordinate of a contributor is an element's number or an island's
side. -/
structure MregDecl where
  m    : Nat
  opc  : Nat
  ty   : Nat
  rm   : Nat
  home : Nat × Nat × Nat
  contribs : List (Bool × (Nat × Nat × Nat))
  resettable : Bool
  deriving DecidableEq, Repr, Inhabited

structure TargetDecl where
  elem : Nat × Nat × Nat
  k    : Nat
  tile : Option (Nat × Nat)
  va   : Nat
  orderIn : Option Nat
  single : Bool
  slots  : Nat := 4
  deriving DecidableEq, Repr, Inhabited

structure KeystoneDecl where
  tile : Nat × Nat
  bank : Nat
  init : List Word
  deriving DecidableEq, Repr, Inhabited

structure CourseAnnex where
  mregs   : List MregDecl := []
  targets : List TargetDecl := []
  keystones : List KeystoneDecl := []
  repBanks : List ((Nat × Nat) × Nat) := []
  hands   : List ((Nat × Nat) × Nat × Option Nat) := []
  preloads : List ((Nat × Nat) × Nat × List Byte) := []
  orders  : List ((Nat × Nat) × Nat × Nat × Nat × Nat) := []
  plain   : List ((Nat × Nat × Nat) × Nat) := []
  repSpbs : List ((Nat × Nat) × List Dword × List Dword) := []
  sides   : List ((Nat × Nat) × Bool × Nat) := []
  deriving DecidableEq, Repr, Inhabited

/-- The snapshot of one unit in a cut (R142, R344). -/
inductive SnapVal where
  | elem (x : Elem)
  | ag (x : Ag)
  | rep (x : Repeat)
  | sched (x : SchedNode)
  | island (x : Island)
  | streamer (x : Streamer)
  deriving DecidableEq, Repr, Inhabited

/-- One of the two snapshot shadows of a unit (R344): the cut it belongs to, the unit, and what it has of combining registers
(R166): its partial slots by home and contributor index with the commands on their way to them, and its home records. -/
structure Snap where
  cut : Nat
  val : SnapVal
  contribs : List (Nat × Nat × PSlot × List CombCmd) := []
  homes : List (Nat × Home) := []
  deriving DecidableEq, Repr, Inhabited

/-- The state of a region that READOUT saves (R348, R349, log 10), with the image's header; `ckpts` are the checkpoint images that go
with it, by their places (R349). -/
structure Saved where
  header  : List Dword
  region  : Region
  planes  : Sparse PlaneState
  elems   : Sparse Elem
  pslots  : Sparse PSlot
  homes   : Sparse Home
  ags     : Sparse Ag
  reps    : Sparse Repeat
  scheds  : Sparse SchedNode
  islands : Sparse Island
  streamers : Sparse Streamer
  kstones : Sparse Keystone
  chans   : Sparse Chan
  snaps   : Sparse Snap
  ckpts   : List (Nat × List Dword) := []
  deriving DecidableEq, Repr, Inhabited

/-- The attestation mailbox (R403, R404): nonce, state, report, signature, the one-time index counter with what is left, and
the index that has been committed for the report in progress. -/
structure Attest where
  nonce  : List Byte := []
  state  : Nat := 0
  report : List Byte := []
  sig    : List Byte := []
  index  : Nat := 0
  left   : Nat := 0
  committed : Option Nat := none
  deriving DecidableEq, Repr, Inhabited

end Sys2Proof.Machine
end

