-- ==== Sys2Proof/Machine/State.lean ====
section
/-! DEFINITION. Machine/State: the state of the device as plain data, why a step can stop, and the state after reset. -/

namespace Sys2Proof.Machine

/-- Why the machine stops. -/
inductive Fault where
  /-- Raised by the meaning of a mason-only instruction when the unit at hand is an element: the loader lets no such word
  into a rule slot (R38, OPCODE-MASON), so no run of a loaded course reaches it. Safe: the machine stops. -/
  | opcodeMason
  deriving DecidableEq, Repr

/-- Why an instruction has no meaning here. -/
inductive Refusal where
  /-- Raised by an arm of exec whose instruction has no meaning yet. Safe: the machine stops. -/
  | notModelled (mnemonic : String)
  deriving DecidableEq, Repr

/-- The state of the device. -/
structure State where
  /-- The device round counter (R30). -/
  round   : Nat
  /-- The model's own: the steps still to be done in this round (log 2). -/
  agenda  : List Instr
  /-- The model's own: the unit that executes the word at hand (log 3). -/
  cur     : ExecUnit
  /-- The model's own: how many free values the run has taken (log 4). -/
  freeCtr : Nat
  /-- Mason cores (R286). -/
  cores   : Sparse Core
  /-- Elements in each plane (R72). -/
  elems   : Sparse Elem
  /-- Channels by sender port (R10, R76). -/
  chans   : Sparse Chan
  /-- Partial slots (R150) and home records (R149). -/
  pslots  : Sparse PSlot
  homes   : Sparse Home
  /-- Keystone ranges: of a tile in a plane, and of a device at a tile (R199). -/
  kstones : Sparse Keystone
  /-- Address generators, repeat nodes and schedule-table nodes (R193, R196, R197). -/
  ags     : Sparse Ag
  reps    : Sparse Repeat
  scheds  : Sparse SchedNode
  /-- Matrix islands and streamers in each plane (R240, R223). -/
  islands : Sparse Island
  streamers : Sparse Streamer
  /-- Tiles (R178-R183) and their planes' configuration (R328-R331). -/
  tiles   : Sparse TileState
  planes  : Sparse PlaneState
  /-- HBM, vaults and tile memory (R176), and dwords with an uncorrectable error (R405). -/
  mem     : Sparse Byte
  eccBad  : Sparse Nat
  /-- The context table (R299), the translation caches of the tile blocks and the walks of the dies (R189). -/
  ctxTable : Sparse Dword
  blockTlb : Sparse (List Leaf)
  walks   : Sparse (List WalkReq)
  /-- Event queues (R355) and HEALTH.DBLT (R292) by die. -/
  evqs    : Sparse EvQueue
  dblt    : Sparse Bool
  /-- Frame tables, launch sequencers and health of the dies (R292, R338, R339, R406). -/
  dies    : Sparse DieState
  /-- Regions (R9), launches (R13), the snapshot shadows of cuts (R344), and what READOUT saved (R348). -/
  regions : Sparse Region
  launches : Sparse Launch
  snaps   : Sparse Snap
  saved   : Sparse Saved
  /-- The work-queue map (R339), the image store directory (R339), and what images declare outside their words (log 9). -/
  queues  : Sparse WorkQueue
  imageDir : Sparse DirEntry
  annex   : Sparse CourseAnnex
  /-- DEVNUM, import windows, host endpoints and links (R364, R366, R371, R372). -/
  devnum  : Dword
  windows : Sparse Window
  hostEp  : Sparse Window
  links   : Sparse Link
  /-- Host messages that wait, and what the device has sent to hosts (R365, R366). -/
  hostIn  : List HostMsg
  hostOut : List (Dword × HostReply)
  /-- Requests to other devices and their answers, requests from other devices and what has been answered (R367), and
  hops of collectives that have arrived or left (R379). -/
  dltOut  : List DltReq
  dltAnsIn : List (Nat × DltAns)
  dltIn   : List DltIn
  dltAnsOut : List (Nat × Nat × DltAns)
  hopsIn  : List Hop
  hopsOut : List HopOut
  /-- Power state, boot flash, security status and attestation (R400-R404). -/
  power   : Nat
  flash   : Sparse Byte
  secBoot : Bool
  bootFailed : Bool
  attest  : Attest
  /-- Counters that give events (R353), commands and launches their identities. -/
  nextId  : Nat
  nextTicket : Nat
  deriving DecidableEq, Repr

/-- A mason core after device reset (R286): core 0 of die 0 runs at the ROM entry (R401); every other core is halted. -/
def Core.atReset (c : Nat) : Core := if c = 0 then { pc := 0x8000C00800000000, run := .running } else {}

/-- The machine right after device reset (R408). The boot flash and the one-time storage are not reset: their contents after
the first reset are the model's choice (log 12). -/
def State.reset : State :=
  { round := 0, agenda := [], cur := .core 0, freeCtr := 0
    cores := [(0, Core.atReset 0)]
    elems := [], chans := [], pslots := [], homes := [], kstones := [], ags := [], reps := [], scheds := [],
    islands := [], streamers := [], tiles := [], planes := [], mem := [], eccBad := [], ctxTable := [], blockTlb := [],
    walks := [], evqs := [], dblt := [], dies := [], regions := [], launches := [], snaps := [], saved := [],
    queues := [], imageDir := [], annex := [], devnum := 0, windows := [], hostEp := [], links := [],
    hostIn := [], hostOut := [], dltOut := [], dltAnsIn := [], dltIn := [], dltAnsOut := [],
    hopsIn := [], hopsOut := [], power := 0, flash := [], secBoot := false, bootFailed := false, attest := { left := 2 ^ 20 }
    nextId := 0, nextTicket := 0 }

end Sys2Proof.Machine
end

