-- ==== Sys2Proof/Machine/Ops.lean ====
section
/-! DEFINITION. Machine/Ops: the named operations over the records of State: keys, events, sink reports, taking a trap and
returning from one. -/

namespace Sys2Proof.Machine

abbrev Out := Host.Outcome State Fault Refusal

/-! ### Keys and places -/

namespace Key

/-- The tile of a plane key, and the plane. -/
def tileOf (pk : Nat) : Nat := pk / 4
def planeOf (pk : Nat) : Nat := pk % 4
def dieOfTile (tile : Nat) : Nat := tile / 1024
def rowOfTile (tile : Nat) : Nat := tile / 32 % 32
def colOfTile (tile : Nat) : Nat := tile % 32
def tile (die row col : Nat) : Nat := die * 1024 + row * 32 + col
/-- The plane key of an element key, and the element's number in its tile. -/
def pkOfElem (e : Nat) : Nat := e / 16
def numOfElem (e : Nat) : Nat := e % 16
def dieOfElem (e : Nat) : Nat := dieOfTile (tileOf (pkOfElem e))
/-- Package row and column of a tile (R308): the dies stand 2×2. -/
def prow (tile : Nat) : Nat := 32 * (dieOfTile tile / 2) + rowOfTile tile
def pcol (tile : Nat) : Nat := 32 * (dieOfTile tile % 2) + colOfTile tile
/-- The tile at a package row and column. -/
def tileAt (r c : Nat) : Nat := tile (r / 32 * 2 + c / 32) (r % 32) (c % 32)
/-- The place index of an element of a tile in the layout of R30. -/
def place (tile e : Nat) : Word :=
  BitVec.ofNat 32 (dieOfTile tile * 2 ^ 30 + rowOfTile tile * 2 ^ 25 + colOfTile tile * 2 ^ 20 + e * 2 ^ 16)
/-- The channel of output k of an element (R329). -/
def outChan (e k : Nat) : Nat := pkOfElem e * 128 + 4 * numOfElem e + k

end Key

/-- IDX of an element (R30). -/
def elemPlace (e : Nat) : Word := Key.place (Key.tileOf (Key.pkOfElem e)) (Key.numOfElem e)

/-! ### Ports (R76, R141, R142) -/

namespace Ports

def inq (io : Ports) (k : Nat) : List InTok := io.ins.get [] k
def outq (io : Ports) (k : Nat) : List OutTok := io.outs.get [] k

/-- The first token of a port that no MARKER of its own channel holds back, and the port without it (R142): `held` are the
channels whose MARKER stands before. -/
def front : List Nat → List InTok → Option (InTok × List InTok)
  | _, [] => none
  | held, t :: ts =>
    if t.tok.tag = 4 || held.contains t.ch then (front (t.ch :: held) ts).map fun r => (r.1, t :: r.2) else some (t, ts)

/-- The head of input k for round n (R76): the oldest token, once the round after its arrival has come. A DRAIN is never a
head, and nothing behind it becomes one (R108, R141). -/
def head? (io : Ports) (n k : Nat) : Option Token :=
  match front [] (io.inq k) with
  | some (t, _) => if t.arr < n && t.tok.tag != 5 then some t.tok else none
  | none => none

/-- The port without its head, and the head's place in its channel. -/
def pop (io : Ports) (k : Nat) : Ports × Option InTok :=
  match front [] (io.inq k) with
  | some (t, rest) => ({ io with ins := io.ins.put [] k rest }, some t)
  | none => (io, none)

/-- A DRAIN stands at the head of input k (R141, R173). -/
def drainedIn (io : Ports) (n k : Nat) : Bool :=
  match front [] (io.inq k) with
  | some (t, _) => t.tok.tag == 5 && t.arr < n
  | none => false

/-- Room on output k (R76): one of its four slots is free, and it has carried no DRAIN (R106). -/
def room (io : Ports) (k : Nat) : Bool := (io.outq k).length < 4 && !io.closedOut.testBit k

/-- A token reserves a slot of output k, behind those reserved before (R76). -/
def reserve (io : Ports) (k : Nat) (t : OutTok) : Ports :=
  { io with
    outs := io.outs.put [] k (io.outq k ++ [t])
    closedOut := if t.tok.tag = 5 then io.closedOut ||| 2 ^ k else io.closedOut }

end Ports

/-! ### Records of State by key -/

namespace State

def elem (s : State) (e : Nat) : Elem := s.elems.get {} e
def setElem (s : State) (e : Nat) (v : Elem) : State := { s with elems := s.elems.put {} e v }
def modElem (s : State) (e : Nat) (f : Elem → Elem) : State := s.setElem e (f (s.elem e))
def core (s : State) (c : Nat) : Core := s.cores.get {} c
def setCore (s : State) (c : Nat) (v : Core) : State := { s with cores := s.cores.put {} c v }
def chan (s : State) (ch : Nat) : Chan := s.chans.get {} ch
def setChan (s : State) (ch : Nat) (v : Chan) : State := { s with chans := s.chans.put {} ch v }
def evq (s : State) (die : Nat) : EvQueue := s.evqs.get {} die
def setEvq (s : State) (die : Nat) (v : EvQueue) : State := { s with evqs := s.evqs.put {} die v }
def region (s : State) (r : Nat) : Region := s.regions.get {} r
def setRegion (s : State) (r : Nat) (v : Region) : State := { s with regions := s.regions.put {} r v }
def launch (s : State) (l : Nat) : Launch := s.launches.get {} l
def setLaunch (s : State) (l : Nat) (v : Launch) : State := { s with launches := s.launches.put {} l v }
def home (s : State) (h : Nat) : Home := s.homes.get {} h
def setHome (s : State) (h : Nat) (v : Home) : State := { s with homes := s.homes.put {} h v }
def kstone (s : State) (k : Nat) : Keystone := s.kstones.get {} k
def setKstone (s : State) (k : Nat) (v : Keystone) : State := { s with kstones := s.kstones.put {} k v }
def ag (s : State) (a : Nat) : Ag := s.ags.get {} a
def setAg (s : State) (a : Nat) (v : Ag) : State := { s with ags := s.ags.put {} a v }
def rep (s : State) (pk : Nat) : Repeat := s.reps.get {} pk
def setRep (s : State) (pk : Nat) (v : Repeat) : State := { s with reps := s.reps.put {} pk v }
def sched (s : State) (pk : Nat) : SchedNode := s.scheds.get {} pk
def setSched (s : State) (pk : Nat) (v : SchedNode) : State := { s with scheds := s.scheds.put {} pk v }
def tile (s : State) (t : Nat) : TileState := s.tiles.get {} t
def setTile (s : State) (t : Nat) (v : TileState) : State := { s with tiles := s.tiles.put {} t v }
def island (s : State) (i : Nat) : Island := s.islands.get {} i
def setIsland (s : State) (i : Nat) (v : Island) : State := { s with islands := s.islands.put {} i v }
def streamer (s : State) (i : Nat) : Streamer := s.streamers.get {} i
def setStreamer (s : State) (i : Nat) (v : Streamer) : State := { s with streamers := s.streamers.put {} i v }
def plane (s : State) (pk : Nat) : PlaneState := s.planes.get {} pk
def setPlane (s : State) (pk : Nat) (v : PlaneState) : State := { s with planes := s.planes.put {} pk v }
def queue (s : State) (q : Nat) : WorkQueue := s.queues.get {} q
def setQueue (s : State) (q : Nat) (v : WorkQueue) : State := { s with queues := s.queues.put {} q v }
def die (s : State) (d : Nat) : DieState := s.dies.get {} d
def setDie (s : State) (d : Nat) (v : DieState) : State := { s with dies := s.dies.put {} d v }
def link (s : State) (l : Nat) : Link := s.links.get {} l
def setLink (s : State) (l : Nat) (v : Link) : State := { s with links := s.links.put {} l v }
def pslot (s : State) (k : Nat) : PSlot := s.pslots.get {} k
def setPslot (s : State) (k : Nat) (v : PSlot) : State := { s with pslots := s.pslots.put {} k v }

/-- The region that holds a tile in a plane, if one does. -/
def regionOf (s : State) (pk : Nat) : Option Nat :=
  let t := Key.tileOf pk
  (s.regions.find? fun (_, r) =>
    r.live && r.plane == Key.planeOf pk && r.prow ≤ Key.prow t && Key.prow t < r.prow + r.h
      && r.pcol ≤ Key.pcol t && Key.pcol t < r.pcol + r.w).map Prod.fst

def modRegionOf (s : State) (pk : Nat) (f : Region → Region) : State :=
  match s.regionOf pk with
  | some r => s.setRegion r (f (s.region r))
  | none => s

/-- A rule has fired, an engine has completed a command, or memory has been accessed, in the region at a plane of a tile
(R352). -/
def touch (s : State) (pk : Nat) : State :=
  s.modRegionOf pk fun r => { r with progress := s.round, moved := s.round, movedAt := r.movedAt.put 0 pk r.act }

/-- A token has moved there. -/
def moved (s : State) (pk : Nat) : State :=
  s.modRegionOf pk fun r => { r with moved := s.round, movedAt := r.movedAt.put 0 pk r.act }

end State

/-! ### Events -/

/-- The capacity of an event queue (R355). -/
def evqCap : Nat := 256

/-- A record enters a queue, a LOST record first where one is due; `false` when the queue is full (R355). -/
def EvQueue.enter (q : EvQueue) (r : EvRec) (lostRec : Nat → EvRec) : EvQueue × Bool :=
  let q := if q.lost ≠ 0 && q.recs.length < evqCap then
    { q with recs := q.recs ++ [lostRec q.lost], lost := 0, entered := q.entered + 1 } else q
  if q.recs.length < evqCap then ({ q with recs := q.recs ++ [r], entered := q.entered + 1 }, true) else (q, false)

/-- Records of the types 5-8 wait for firmware and are never dropped (R354, R355). -/
def EvRec.waits (r : EvRec) : Bool := 5 ≤ r.type && r.type ≤ 8

/-- A LOST record (R354). -/
def lostRec (s : State) (n : Nat) : EvRec := ⟨13, 0, 0, 0, BitVec.ofNat 64 s.round, BitVec.ofNat 64 n, 0⟩

/-- Posting of a record on a die (R355): it enters, or is held (types 5-8), or is dropped and counted. -/
def State.post (s : State) (die : Nat) (r : EvRec) : State :=
  let (q, ok) := (s.evq die).enter r (lostRec s)
  s.setEvq die (if ok then q else if r.waits then { q with held := q.held ++ [r] } else { q with lost := q.lost + 1 })

/-- A record with the next identifier (R353). -/
def State.mkEv (s : State) (type code : Nat) (place : Word) (d2 d3 : Dword) : EvRec :=
  ⟨type, code, s.nextId % 2 ^ 16, place, BitVec.ofNat 64 s.round, d2, d3⟩

/-- Posts a new record. -/
def State.event (s : State) (die type code : Nat) (place : Word) (d2 d3 : Dword) : State :=
  { s.post die (s.mkEv type code place d2 d3) with nextId := s.nextId + 1 }

/-! ### Cuts and sink reports -/

/-- A request for an early cut of the region at a plane of a tile (R209, R18, R343). -/
def State.askCut (s : State) (pk : Nat) : State := s.modRegionOf pk fun r => { r with cutAsked := true }

/-- A sink report (R12) made in the cut interval `cut`, held until that cut's REL. -/
def State.report (s : State) (pk : Nat) (place : Word) (port : Nat) (payload : Word) (cut : Nat) : State :=
  s.modRegionOf pk fun r => { r with reports := r.reports ++ [⟨place, port, payload, cut⟩] }

/-! ### Traps of a mason core (R293, R294) -/

namespace Cause
def illegal := 1
def priv := 2
def fetch := 3
def load := 4
def store := 5
def align := 6
def ecc := 7
def syscall := 8
def brk := 9
def event := 10
end Cause

/-! DETAIL codes of TCAUSE (R290). -/
namespace Detail
def notPresent := 0
def malformed := 1
def perm := 2
def space := 3
def width := 4
def live := 5
def timeout := 6
end Detail

/-! The fields of PSTAT (R289). -/
namespace Pstat
def mode (p : Dword) : Bool := p.getLsbD 0
def pmode (p : Dword) : Bool := p.getLsbD 1
def evf (p : Dword) : Bool := p.getLsbD 2
def ie (p : Dword) : Bool := p.getLsbD 3
def pie (p : Dword) : Bool := p.getLsbD 4
def tip (p : Dword) : Bool := p.getLsbD 5
/-- PSTAT with its six fields. -/
def mk (mode pmode evf ie pie tip : Bool) : Dword :=
  BitVec.ofNat 64 (mode.toNat + 2 * pmode.toNat + 4 * evf.toNat + 8 * ie.toNat + 16 * pie.toNat + 32 * tip.toNat)
end Pstat

/-- The die of a core, and its place word (R290, R30). -/
def coreDie (c : Nat) : Nat := c / 4
def corePlace (c : Nat) : Word := BitVec.ofNat 32 (coreDie c * 2 ^ 30)

/-- What a trap writes into a core (R294); `epc` is the address TEPC takes. -/
def Core.trapped (k : Core) (cause detail : Nat) (tval : Dword) (async : Bool) (epc : Dword) : Core :=
  { k with
    tepc := epc
    tcause := BitVec.ofNat 64 ((if async then 2 ^ 63 else 0) + detail * 256 + cause)
    tval := tval
    pstat := Pstat.mk (Pstat.mode k.pstat || cause == Cause.syscall) (Pstat.mode k.pstat) (Pstat.evf k.pstat) false
      (Pstat.ie k.pstat) true
    pc := k.tvb + BitVec.ofNat 64 (64 * cause)
    run := .running
    held := false
    operands := [] }

/-- An uncorrectable error of a die is counted, and REPLACE-REQUESTED follows at 64 (R406, R407). -/
def State.countUe (s : State) (die : Nat) : State :=
  let d := s.die die
  let ue := min (d.ue + 1) (2 ^ 64 - 1)
  s.setDie die { d with ue := ue, rr := d.rr || decide (64 ≤ ue) }

/-- TakeTrap of R294: the saved registers, the status and the vector; with TIP set, the double trap. An
uncorrectable error is counted (R406). -/
def State.takeTrap (s : State) (c cause detail : Nat) (tval : Dword) (async : Bool := false) : State :=
  let s := if cause = Cause.ecc then s.countUe (coreDie c) else s
  let k := s.core c
  if Pstat.tip k.pstat then
    let s := { s with dblt := s.dblt.put false (coreDie c) true }
    (s.setCore c { k with run := .double }).event (coreDie c) 12 (c % 4) (corePlace c) k.tepc k.tcause
  else s.setCore c (k.trapped cause detail tval async k.pc)

/-- Eret of R294. -/
def Core.eret (k : Core) : Core :=
  { k with
    pc := k.tepc
    pstat := Pstat.mk (Pstat.pmode k.pstat) (Pstat.pmode k.pstat) (Pstat.evf k.pstat) (Pstat.pie k.pstat) (Pstat.pie k.pstat)
      false }

end Sys2Proof.Machine
end

