-- ==== Sys2Proof/Machine/Operands.lean ====
section
/-! DEFINITION. Machine/Operands: the operand forms: an element's specifiers (R30, R31), its inputs and outputs (R32, R76),
its destinations with their latencies (R86, R87), and a mason core's registers (R31). -/

namespace Sys2Proof.Machine

/-! ### Elements: sources -/

namespace Elem

/-- The head of an input for the rules of round `n` (R76). -/
def head? (el : Elem) (n k : Nat) : Option Token := el.io.head? n k

/-- PKI and PKO of ECFG (R73): the port is a control channel. -/
def ctlIn (el : Elem) (k : Nat) : Bool := el.ecfg.getLsbD (8 + k)
def ctlOut (el : Elem) (k : Nat) : Bool := el.ecfg.getLsbD (12 + k)

/-- The head's value; a control channel reads 0 (R10, R30). -/
def headVal (el : Elem) (n k : Nat) : Word :=
  if el.ctlIn k then 0 else match el.head? n k with
    | some t => t.payload.setWidth 32
    | none => 0

def headTag (el : Elem) (n k : Nat) : BitVec 3 :=
  match el.head? n k with
  | some t => t.tag
  | none => 0

def reg (el : Elem) (k : Nat) : Word := el.d.get 0 k
def setReg (el : Elem) (k : Nat) (v : Word) : Elem := { el with d := el.d.put 0 k v }
def pred (el : Elem) (k : Nat) : Bool := el.p.getLsbD k

/-- A byte of predicates with one of them replaced. -/
def setBit (p : BitVec 8) (k : Nat) (b : Bool) : BitVec 8 := if b then p ||| 1#8 <<< k else p &&& ~~~(1#8 <<< k)

def setPred (el : Elem) (k : Nat) (b : Bool) : Elem := { el with p := setBit el.p k b }

/-- Room on an output (R76). -/
def room (el : Elem) (k : Nat) : Bool := el.io.room k

end Elem

/-- ReadOperand of R35 for an element: the value of a source specifier (R30). -/
def readSpec (s : State) (e : Nat) (x : Body) (code : BitVec 5) : Word :=
  let el := s.elem e
  let c := code.toNat
  if c < 16 then el.reg c
  else if c < 20 then el.headVal s.round (c - 16)
  else if c = 25 then (el.headTag s.round x.guard.tc.toNat).setWidth 32
  else if c = 26 then elemPlace e
  else if c = 27 then BitVec.ofNat 32 s.round
  else 0

/-! ### Elements: takes -/

/-- A destination frees the slot of a token of channel `ch` (R10, R138). -/
def State.freeSlot (s : State) (ch dst : Nat) : State :=
  let c := s.chan ch
  s.setChan ch { c with freed := c.freed.put 0 dst (c.freed.get 0 dst + 1) }

/-- Take of R35 for one input: the head leaves the port and frees its slot. An ERR token stops here and is reported, unless
the firing passes it on (R12). -/
def takeInput (e : Nat) (passed : Option Nat) (s : State) (k : Nat) : State :=
  let el := s.elem e
  match el.io.pop k with
  | (io, some t) =>
    let s := (s.setElem e { el with io := io }).freeSlot t.ch t.dst
    if t.tok.tag = 6 && passed ≠ some k then
      s.report (Key.pkOfElem e) (elemPlace e) k (t.tok.payload.setWidth 32) (el.io.snapCut + 1)
    else s
  | (_, none) => s

/-- The inputs that a DQ field names (R32). -/
def inputsOf (dq : BitVec 4) : List Nat := (List.range 4).filter fun k => dq.getLsbD k

def takeInputs (s : State) (e : Nat) (dq : BitVec 4) (passed : Option Nat) : State :=
  (inputsOf dq).foldl (takeInput e passed) s

/-! ### Elements: destinations -/

/-- The output a D specifier names (R30). -/
def outOf (code : BitVec 5) : Option Nat := if 20 ≤ code.toNat && code.toNat ≤ 23 then some (code.toNat - 20) else none

/-- D names an output that the guard's OR field does not name, and that output has no room: OUT-FULL (R88). -/
def outFull (el : Elem) (x : Body) (o : OpInfo) : Bool :=
  match outOf x.d with
  | some k => (o.d == .dst || o.d == .out) && !x.guard.orr.getLsbD k && !el.room k
  | none => false

/-- A token reserves a slot of output `k` (R35, R76); a control channel drops the payload (R31). -/
def Elem.reserve (el : Elem) (k : Nat) (t : OutTok) : Elem :=
  let tok := if el.ctlOut k then { t.tok with payload := 0 } else t.tok
  { el with io := el.io.reserve k { t with tok := tok } }

/-- Index and action of a PU field (R33). -/
def puIndex (pu : BitVec 5) : Nat := (pu.extractLsb' 2 3).toNat
def puAction (pu : BitVec 5) : Nat := (pu.extractLsb' 0 2).toNat

/-- The predicate write of a PU field, given the condition (R33). -/
def puWrite (pu : BitVec 5) (cond : Bool) : Option (Nat × Bool) :=
  match puAction pu with
  | 1 => some (puIndex pu, true)
  | 2 => some (puIndex pu, false)
  | 3 => some (puIndex pu, cond)
  | _ => none

/-- Register and predicate writes of a result of latency `lat` (R86, R87): at once for 1, else with busy marks and a landing
in round n + lat − 1. -/
def Elem.result (el : Elem) (n lat : Nat) (regs : List (Nat × Word)) (pred : Option (Nat × Bool)) : Elem :=
  if lat ≤ 1 then
    let el := regs.foldl (fun el r => el.setReg r.1 r.2) el
    match pred with
    | some (k, b) => el.setPred k b
    | none => el
  else
    { el with
      busyD := regs.foldl (fun m r => m ||| 1#16 <<< r.1) el.busyD
      busyP := match pred with | some (k, _) => el.busyP ||| 1#8 <<< k | none => el.busyP
      landing := el.landing ++ [{ due := n + lat - 1, regs := regs, pred := pred }] }

/-- WriteDest and UpdatePredicate of R35 for a value with its tag, at the latency of the opcode. -/
def Elem.writeDest (el : Elem) (n lat : Nat) (code : BitVec 5) (v : Word) (tag : BitVec 3) (pred : Option (Nat × Bool)) :
    Elem :=
  match outOf code with
  | some k => (el.reserve k { tok := ⟨tag, v.setWidth 64, 0⟩, ready := n + lat - 1 }).result n lat [] pred
  | none => el.result n lat (if code.toNat < 16 then [(code.toNat, v)] else []) pred

/-! ### Mason cores -/

/-- A mason register; g0 reads 0 (R31). -/
def Core.reg (k : Core) (r : BitVec 5) : Dword := if r = 0 then 0 else k.g.get 0 r.toNat

/-- A write to a mason register; a write to g0 is discarded (R31). -/
def Core.setReg (k : Core) (r : BitVec 5) (v : Dword) : Core :=
  if r = 0 then k else { k with g := k.g.put 0 r.toNat v }

/-- The PU field of a mason instruction (R33, R95). -/
def Core.update (k : Core) (pu : BitVec 5) (cond : Bool) : Core :=
  match puWrite pu cond with
  | some (i, b) => { k with p := Elem.setBit k.p i b }
  | none => k

/-- The address of the next word (R36). -/
def Core.advance (k : Core) : Core := { k with pc := k.pc + 8, held := false, operands := [] }

/-- The condition of R36: every tested predicate has its required value. -/
def Core.condHolds (k : Core) (g : Guard) : Bool := (k.p ^^^ g.pv) &&& g.pm == 0

end Sys2Proof.Machine
end

