-- ==== Sys2Proof/Machine/Fabric.lean ====
section
/-! DEFINITION. Machine/Fabric: where channels lead (R7, R329), the acceptance, receipt and credit return of tokens (R76,
R137-R139), and the delivery bounds (R23). -/

namespace Sys2Proof.Machine

/-! ### Engines at their tiles (R7) -/

namespace Key

/-- The edge tile of an engine position: sides 0 north, 1 east, 2 south, 3 west (R184). -/
def edgeTile (die side pos : Nat) : Nat :=
  match side with
  | 0 => tile die 0 pos
  | 1 => tile die pos 31
  | 2 => tile die 31 (31 - pos)
  | _ => tile die (31 - pos) 0

/-- The key of an engine in a plane. -/
def engine (die side pos plane : Nat) : Nat := ((die * 4 + side) * 32 + pos) * 4 + plane
def engineDie (i : Nat) : Nat := i / 512
def engineSide (i : Nat) : Nat := i / 128 % 4
def enginePos (i : Nat) : Nat := i / 4 % 32
/-- The plane key of the tile that an engine is attached to. -/
def enginePk (i : Nat) : Nat := edgeTile (engineDie i) (engineSide i) (enginePos i) * 4 + i % 4

/-- The positions that attach to a tile. -/
def positions (t : Nat) : List (Nat × Nat) :=
  let r := rowOfTile t
  let c := colOfTile t
  (if r = 0 then [(0, c)] else []) ++ (if c = 31 then [(1, r)] else []) ++ (if r = 31 then [(2, 31 - c)] else [])
    ++ (if c = 0 then [(3, 31 - r)] else [])

/-- The matrix island or the streamer at a tile, in the plane of `pk` (R7): no tile carries two of a kind. -/
def engineAt (pk : Nat) (streamer : Bool) : Option Nat :=
  ((positions (tileOf pk)).find? fun p => decide (28 ≤ p.2) == streamer).map fun p =>
    engine (dieOfTile (tileOf pk)) p.1 p.2 (planeOf pk)

end Key

/-! ### Units by reference -/

namespace State

/-- The ports of a unit. -/
def io (s : State) : UnitRef → Ports
  | .elem k => (s.elem k).io
  | .ag k => (s.ag k).io
  | .repeatNode k => (s.rep k).io
  | .schedNode k => (s.sched k).io
  | .island k => (s.island k).io
  | .streamer k => (s.streamer k).io
  | .keystone _ => {}

def setIo (s : State) (u : UnitRef) (v : Ports) : State :=
  match u with
  | .elem k => s.modElem k fun x => { x with io := v }
  | .ag k => s.setAg k { s.ag k with io := v }
  | .repeatNode k => s.setRep k { s.rep k with io := v }
  | .schedNode k => s.setSched k { s.sched k with io := v }
  | .island k => s.setIsland k { s.island k with io := v }
  | .streamer k => s.setStreamer k { s.streamer k with io := v }
  | .keystone _ => s

end State

end Sys2Proof.Machine

namespace Sys2Proof.UnitRef

open Machine

/-- The plane key of the tile that a unit belongs to. -/
def pk : UnitRef → Nat
  | elem k => Key.pkOfElem k
  | ag k => k / 2
  | repeatNode k => k
  | schedNode k => k
  | island k => Key.enginePk k
  | streamer k => Key.enginePk k
  | keystone k => k

/-- A key for the snapshot shadows of a unit. -/
def key : UnitRef → Nat
  | elem k => 8 * k
  | ag k => 8 * k + 1
  | repeatNode k => 8 * k + 2
  | schedNode k => 8 * k + 3
  | island k => 8 * k + 4
  | streamer k => 8 * k + 5
  | keystone k => 8 * k + 6

/-- PLACE of a unit (R353): an element's place, or the tile of another unit with element 0. -/
def place : UnitRef → Word
  | elem k => elemPlace k
  | u => Key.place (Key.tileOf u.pk) 0

/-- The die of a unit. -/
def die (u : UnitRef) : Nat := Key.dieOfTile (Key.tileOf u.pk)

/-- The channel of output k of a unit (R329). -/
def outChan (u : UnitRef) (k : Nat) : Nat :=
  match u with
  | elem e => Key.outChan e k
  | ag a => a / 2 * 128 + 64 + a % 2
  | repeatNode pk => pk * 128 + 66
  | schedNode pk => pk * 128 + 67
  | island i => Key.enginePk i * 128 + 68 + k
  | streamer i => Key.enginePk i * 128 + 70 + k
  | keystone _ => 0

end Sys2Proof.UnitRef

namespace Sys2Proof.Machine

/-! ### Routes (R329) -/

namespace Route

def v (w : Word) : Bool := w.getLsbD 31
def mc (w : Word) : Bool := w.getLsbD 30
def drow (w : Word) : Int := (w.extractLsb' 24 6).toInt
def dcol (w : Word) : Int := (w.extractLsb' 18 6).toInt
def elem (w : Word) : Nat := (w.extractLsb' 14 4).toNat
def port (w : Word) : Nat := (w.extractLsb' 12 2).toNat
def kind (w : Word) : Nat := (w.extractLsb' 8 4).toNat
def slots (w : Word) : Nat := w.toNat % 256

/-- Package row and column of the target tile. -/
def target (tile : Nat) (w : Word) : Int × Int := (Key.prow tile + drow w, Key.pcol tile + dcol w)

def inPackage (tile : Nat) (w : Word) : Bool :=
  let (r, c) := target tile w
  0 ≤ r && r < 64 && 0 ≤ c && c < 64

/-- The input that a route entry of a tile names (R329), with the plane of the sender. -/
def dest (pk : Nat) (w : Word) : Option (UnitRef × Nat) :=
  let (r, c) := target (Key.tileOf pk) w
  let tpk := Key.tileAt r.toNat c.toNat * 4 + Key.planeOf pk
  match kind w with
  | 0 => some (.elem (tpk * 16 + elem w), port w)
  | 1 => some (.ag (tpk * 2 + elem w % 2), port w)
  | 3 => if port w < 2 then (Key.engineAt tpk false).map fun i => (.island i, port w) else none
  | 4 => (Key.engineAt tpk false).map fun i => (.island i, 2 + port w)
  | 5 => some (.repeatNode tpk, port w)
  | 8 => (Key.engineAt tpk true).map fun i => (.streamer i, port w)
  | _ => none

/-- Extension entries from entry `k` on, to the end of one chain; `n` bounds the walk. -/
def extChain (routes : Sparse Word) : Nat → Nat → List Word
  | 0, _ => []
  | n + 1, k =>
    let w := routes.get 0 k
    w :: (if mc w then extChain routes n (k + 1) else [])

/-- The chain of entries of primary entry `idx`, and the extension entry that the next chain starts at: chains take extension
entries in ascending primary index order. -/
def chainStep (routes : Sparse Word) (next idx : Nat) : List Word × Nat :=
  let w := routes.get 0 idx
  if v w && mc w then
    let ext := extChain routes (128 - next) next
    (w :: ext, next + ext.length)
  else (if v w then [w] else [], next)

/-- The entries of every primary index from 0, in order. -/
def chains (routes : Sparse Word) : List (List Word) :=
  ((List.range 80).foldl (fun acc idx =>
    let r := chainStep routes acc.2 idx
    (acc.1 ++ [r.1], r.2)) (([] : List (List Word)), 80)).1

end Route

/-! ### Channels by key -/

/-- The channel of seed port p of a region, of an order target of an element (R211), and of an AG's order clause (R211). -/
def seedChan (r p : Nat) : Nat := 2 ^ 24 + r * 256 + p
def orderChan (e target : Nat) : Nat := 2 ^ 30 + 4 * e + target
def agOrderChan (a : Nat) : Nat := 2 ^ 31 + a

/-- The entries of a channel's route, and the plane key that they count from. -/
def chanEntries (s : State) (ch : Nat) : Nat × List Word :=
  if ch < 2 ^ 24 then (ch / 128, (Route.chains (s.plane (ch / 128)).routes).getD (ch % 128) [])
  else if ch < 2 ^ 30 then
    let r := s.region ((ch - 2 ^ 24) / 256)
    let (tile, w) := r.seedPorts.get (0, 0) ((ch - 2 ^ 24) % 256)
    (tile * 4 + r.plane, [w])
  else (0, [])

/-- The inputs that a channel leads to, in the order of its chain (R138). -/
def chanDests (s : State) (ch : Nat) : List (UnitRef × Nat) :=
  if ch < 2 ^ 30 then
    let (pk, ws) := chanEntries s ch
    ws.filterMap (Route.dest pk)
  else if ch < 2 ^ 31 then
    let e := (ch - 2 ^ 30) / 4
    match ((s.elem e).targets.find? (·.1 == ch % 4)).bind (·.2.orderIn) with
    | some k => [(.elem e, k)]
    | none => []
  else match (s.ag (ch - 2 ^ 31)).orderTo with
    | some p => [(.elem (p / 4), p % 4)]
    | none => []

/-- The credits of a channel: the SLOTS field of its primary entry (R76), or what an order target declares (R283). -/
def chanSlots (s : State) (ch : Nat) : Nat :=
  if ch < 2 ^ 30 then ((chanEntries s ch).2.headD 0).toNat % 256
  else if ch < 2 ^ 31 then (((s.elem ((ch - 2 ^ 30) / 4)).targets.find? (·.1 == ch % 4)).map (·.2.orderSlots)).getD 4
  else (s.ag (ch - 2 ^ 31)).orderSlots

/-- The output that feeds a channel (R329): the unit and its output. -/
def chanSender (ch : Nat) : Option (UnitRef × Nat) :=
  if ch < 2 ^ 24 then
    let pk := ch / 128
    let i := ch % 128
    if i < 64 then some (.elem (pk * 16 + i / 4), i % 4)
    else match i with
      | 64 => some (.ag (pk * 2), 0)
      | 65 => some (.ag (pk * 2 + 1), 0)
      | 66 => some (.repeatNode pk, 0)
      | 67 => some (.schedNode pk, 0)
      | 68 | 69 => (Key.engineAt pk false).map fun k => (.island k, i - 68)
      | 70 | 71 => (Key.engineAt pk true).map fun k => (.streamer k, i - 70)
      | _ => none
  else none

/-- A credit is held (R10, R76). -/
def creditHeld (s : State) (ch : Nat) : Bool :=
  let c := s.chan ch
  decide (c.sent - c.returned < chanSlots s ch)

/-- A token enters a channel toward every destination of its chain (R137, R138). -/
def State.sendOn (s : State) (ch : Nat) (t : Token) (dests : Nat) : State :=
  let c := s.chan ch
  s.setChan ch { c with
    sent := c.sent + 1
    flight := c.flight ++ (List.range dests).map fun d => ⟨t, c.sent, s.round, d⟩ }

/-- Order tokens that wait for a credit enter their channel as credits come (R10, R211); at most n of them. -/
def payOwed (ch : Nat) : Nat → State → State
  | 0, s => s
  | n + 1, s =>
    let c := s.chan ch
    if c.owed ≠ 0 && creditHeld s ch then payOwed ch n ((s.setChan ch { c with owed := c.owed - 1 }).sendOn ch ⟨0, 0, 0⟩ 1) else s

/-- An order token is due on a channel (R211): it takes a credit as every token does (R10). -/
def oweOrder (s : State) (ch : Nat) : State := payOwed ch 1 (s.setChan ch { s.chan ch with owed := (s.chan ch).owed + 1 })

/-- R76. The switch accepts the oldest reserved token of an output when it is ready and a credit is held. -/
def execOutputTokenAccept (ch : Nat) (s : State) : Out :=
  .next <| match chanSender ch with
    | none => s
    | some (u, k) =>
      let io := s.io u
      match io.outq k with
      | t :: rest =>
        let dests := (chanDests s ch).length
        if t.wait.isNone && t.ready ≤ s.round && creditHeld s ch && dests ≠ 0 then
          (s.setIo u { io with
            outs := io.outs.put [] k rest
            sinceMark := if t.tok.tag = 4 then io.sinceMark else io.sinceMark + 1 }).sendOn ch t.tok dests
        else s
      | [] => s

/-! ### Links on the way (R374, R375) -/

/-- The die-to-die links between two dies: the columns of the 2×2 are crossed in the row of the sender, then the rows in the
column of the receiver. -/
def linksBetween (d1 d2 : Nat) : List Nat :=
  (if d1 % 2 ≠ d2 % 2 then [32 + d1 / 2] else []) ++ (if d1 / 2 ≠ d2 / 2 then [34 + d2 % 2] else [])

/-- The link takes traffic, but for a retrain: it is up, enabled and not isolated (R372, R373). -/
def Link.on (l : Link) : Bool := l.up && l.ctl.getLsbD 0 && !l.ctl.getLsbD 1

def Link.carries (l : Link) : Bool := l.on && l.training.isNone

/-- What entered in a round goes over the link: it carries traffic, or has been isolated or disabled since and delivers what was in flight
(R373). -/
def Link.passes (l : Link) (sent : Nat) : Bool := l.carries || (l.up && l.training.isNone && l.downAt.any fun t => decide (sent ≤ t))

/-- A link with the round in which it stopped taking traffic (R373). -/
def State.putLink (s : State) (l : Nat) (k : Link) : State :=
  s.setLink l { k with downAt := if k.on then none else k.downAt <|> some s.round }

/-- Accesses and requests from a die to another one wait while a link between them carries nothing (R374, R375). -/
def diesLinked (s : State) (d1 d2 : Nat) : Bool := (linksBetween d1 d2).all fun l => (s.link l).carries

/-- The die that a channel's tokens leave from. -/
def chanDie (s : State) (ch : Nat) : Nat :=
  if ch < 2 ^ 24 then Key.dieOfTile (Key.tileOf (ch / 128))
  else if ch < 2 ^ 30 then Key.dieOfTile (Key.tileOf (chanEntries s ch).1)
  else if ch < 2 ^ 31 then Key.dieOfElem ((ch - 2 ^ 30) / 4)
  else Key.dieOfTile (Key.tileOf ((ch - 2 ^ 31) / 2))

/-- Every link between the channel's sender and a destination passes what was sent in a round. -/
def pathUp (s : State) (ch : Nat) (u : UnitRef) (sent : Nat) : Bool :=
  (linksBetween (chanDie s ch) u.die).all fun l => (s.link l).passes sent

/-! ### Receipt -/

/-- Tokens that arrive on a back input after the snapshot and before its MARKER, or on a markerless input, join the snapshot
as channel contents (R142). -/
def SnapVal.addIn (v : SnapVal) (k : Nat) (t : InTok) : SnapVal :=
  let add (io : Ports) : Ports := { io with ins := io.ins.put [] k (io.inq k ++ [t]) }
  match v with
  | .elem x => .elem { x with io := add x.io }
  | .ag x => .ag { x with io := add x.io }
  | .rep x => .rep { x with io := add x.io }
  | .sched x => .sched { x with io := add x.io }
  | .island x => .island { x with io := add x.io }
  | .streamer x => .streamer { x with io := add x.io }

def snapKey (u : UnitRef) (cut : Nat) : Nat := u.key * 2 + cut % 2

/-- The snapshot of cut n that a unit's shadows hold (R344). -/
def snapOf (s : State) (u : UnitRef) (n : Nat) : Option Snap :=
  (s.snaps.find? fun p => p.1 == snapKey u n && p.2.cut == n).map Prod.snd

def State.addToSnap (s : State) (u : UnitRef) (cut k : Nat) (t : InTok) : State :=
  match s.snaps.find? (·.1 == snapKey u cut) with
  | some (key, sn) => if sn.cut = cut then { s with snaps := s.snaps.insert key { sn with val := sn.val.addIn k t } } else s
  | none => s

/-- Tokens other than MARKERs and DRAINs that a port holds. -/
def portHolds (io : Ports) (k : Nat) : Nat := (io.inq k).countP fun t => t.tok.tag != 4 && t.tok.tag != 5

/-- An operand, scale or coefficient input of an island, which passes its own MARKERs (R254). -/
def passesMarkers (u : UnitRef) (k : Nat) : Bool := match u with | .island _ => k != 0 | _ => false

/-- A token enters a port. A MARKER on a back input of a cut that the unit has snapshotted is counted and goes no further; one
that comes before the snapshot stands in its place, as every MARKER on a forward input or on an island's operand, scale and
coefficient inputs does (R142, R254). -/
def arrive (s : State) (u : UnitRef) (k : Nat) (t : InTok) : State :=
  let io := s.io u
  let counted := io.back.testBit k || passesMarkers u k
  let seen : Sparse Nat := if t.tok.tag = 4 && counted then io.backSeen.put 0 t.ch (io.backSeen.get 0 t.ch + 1) else io.backSeen
  if t.tok.tag = 4 && io.back.testBit k && !passesMarkers u k && seen.get 0 t.ch ≤ io.snapCut then
    (s.setIo u { io with backSeen := seen }).freeSlot t.ch t.dst
  else if io.drained && io.markerless.testBit k then s.freeSlot t.ch t.dst
  else
    let s := s.setIo u { io with ins := io.ins.put [] k (io.inq k ++ [t]), backSeen := seen }
    if t.tok.tag ≠ 4
        && ((io.markerless.testBit k && 2 ^ 30 ≤ t.ch) || (counted && io.backSeen.get 0 t.ch < io.snapCut)) then
      s.addToSnap u io.snapCut k t
    else s

/-- R137. A token arrives at an input port and counts for guards from the next round. -/
def execTokenReceipt (ch dst : Nat) (s : State) : Out :=
  let c := s.chan ch
  .next <| match c.flight.find? (·.dst == dst), (chanDests s ch)[dst]? with
    | some f, some (u, k) =>
      if f.sent < s.round && pathUp s ch u f.sent && (f.tok.tag = 4 || f.tok.tag = 5 || portHolds (s.io u) k < 4) then
        let s := s.setChan ch { c with flight := c.flight.eraseP fun g => g.dst == dst }
        (arrive s u k ⟨f.tok, ch, dst, s.round⟩).moved u.pk
      else s
    | _, _ => s

/-- The tokens whose slot every destination has freed (R138). -/
def freedByAll (s : State) (ch : Nat) : Nat :=
  let c := s.chan ch
  (List.range (chanDests s ch).length).foldl (fun m d => min m (c.freed.get 0 d)) c.sent

/-- R138. A slot credit returns to the sender once every destination has freed the slot; an order token that waits takes it (R211). -/
def execCreditReturn (ch : Nat) (s : State) : Out :=
  let c := s.chan ch
  .next <| if c.returned < freedByAll s ch then payOwed ch 1 (s.setChan ch { c with returned := c.returned + 1 }) else s

/-! ### Delivery bounds (R23) -/

/-- Channel class: 0 on-tile, 1 same die, 2 cross-die, 3 cross-device; that of its longest hop. -/
def chanClass (s : State) (ch : Nat) : Nat :=
  let d := chanDie s ch
  let tile := if ch < 2 ^ 24 then some (Key.tileOf (ch / 128)) else none
  (chanDests s ch).foldl (fun m p =>
    max m (if p.1.die ≠ d then 2 else if tile = some (Key.tileOf p.1.pk) then 0 else 1)) 0

/-- The bounds in rounds of 1.2 GHz. -/
def classBound : Nat → Nat
  | 0 => 2 | 1 => 70 | 2 => 30000 | _ => 48000

end Sys2Proof.Machine
end

