-- ==== Sys2Proof/Machine/Flags.lean ====
section
/-! DEFINITION. Machine/Flags: the floating flags of an element and their traps (R53-R55), the aborts of R88-R90, and the
firing of a rule that computes a value. -/

namespace Sys2Proof.Machine

open Sys2Proof.Machine.Num

/-- The rounding context of an element (R53). -/
def Elem.env (el : Elem) : Env := ⟨RM.ofCode (el.fctl.toNat % 8), el.fctl.getLsbD 4, el.fctl.getLsbD 5⟩

/-- The trap enables TIV to TIX of FCTL, at the bits of the flags (R53, R54). -/
def Elem.trapEnables (el : Elem) : Flags := el.fctl.extractLsb' 8 5

/-- The flag OR of R55. -/
def Elem.orFlags (el : Elem) (fl : Flags) : Elem := { el with fflg := el.fflg ||| fl.setWidth 32 }

/-- The abort causes of R88. -/
inductive Abort where
  | fpTrap (fl : Flags) | outFull | notClean | engineRefused
  deriving DecidableEq, Repr

def Abort.code : Abort → Nat
  | fpTrap _ => 1 | outFull => 2 | notClean => 3 | engineRefused => 4

/-- The scheduling status of a slot. -/
def Elem.slotSt (el : Elem) (slot : Nat) : SlotSt := el.st.get {} slot
def Elem.setSlotSt (el : Elem) (slot : Nat) (v : SlotSt) : Elem := { el with st := el.st.put {} slot v }

/-- AbortRule of R35: LASTC, ABORTS and the events of R89 and R90; a NOT-CLEAN abort asks for an early cut (R209). Nothing
else changes. -/
def State.abort (s : State) (e slot : Nat) (a : Abort) : State :=
  let el := s.elem e
  let st := el.slotSt slot
  let n := (st.aborts + 1) % 65536
  let s := s.setElem e (el.setSlotSt slot { st with lastc := a.code, aborts := n })
  let die := Key.dieOfElem e
  let s := match a with
    | .fpTrap fl => s.event die 1 fl.toNat (elemPlace e) (BitVec.ofNat 64 slot) 0
    | .notClean => s.askCut (Key.pkOfElem e)
    | _ => s
  if n = 0 then s.event die 2 a.code (elemPlace e) (BitVec.ofNat 64 slot) 0 else s

/-- ABORTS returns to 0 when a rule fires without aborting (R89). -/
def Elem.noAbort (el : Elem) (slot : Nat) : Elem := el.setSlotSt slot { el.slotSt slot with aborts := 0 }

/-- The destination of a word: D where the opcode writes it, else a discard (R30, R34). -/
def destCode (o : OpInfo) (x : Body) : BitVec 5 :=
  match o.d with
  | .dst | .acc | .pair | .out => x.d
  | _ => 24

/-- FireRule of R35 for a rule that writes a value: the first abort cause in the order of R88, else the implicit write
`post` of the opcode, D, the flags, the takes and the predicate. PU applies after `post` (R110). -/
def fireValue (s : State) (e slot : Nat) (o : OpInfo) (x : Body) (res : Word) (cond : Bool) (fl : Flags) (tag : BitVec 3)
    (post : Elem → Elem) (passed : Option Nat) : State :=
  let el := s.elem e
  if fl &&& el.trapEnables != 0 then s.abort e slot (.fpTrap fl)
  else if outFull el x o then s.abort e slot .outFull
  else
    let s := takeInputs s e x.dq passed
    s.modElem e fun el =>
      (((post el).orFlags fl).writeDest s.round o.lat (destCode o x) res tag (puWrite x.pu cond)).noAbort
        slot

end Sys2Proof.Machine
end

