-- ==== Sys2Proof/Machine/Exec.lean ====
section
/-! DEFINITION. Machine/Exec: how an instruction word runs on the unit at hand: an element fires a rule (R35), a mason core
executes a word (R36). The meanings of the families call these with the opcode's own effect. -/

namespace Sys2Proof.Machine

/-- What a mason instruction does when its encoding is good and its condition holds: a new state, or a precise trap
(R293). -/
inductive CoreRes where
  | done (s : State)
  | trap (cause detail : Nat) (tval : Dword)

/-- One word of a mason core: the encoding check before the condition, and a false condition only advances the PC (R36,
R38). -/
def coreStep (op : Nat) (x : Body) (s : State) (c : Nat) (k : Core → CoreRes) : State :=
  let w := x.bits (BitVec.ofNat 7 op)
  match opInfo op x with
  | none => s.takeTrap c Cause.illegal 0 w
  | some o =>
    if x.coreIllegal o then s.takeTrap c Cause.illegal 0 w
    else
      let core := s.core c
      if !core.condHolds x.guard then s.setCore c core.advance
      else match k core with
        | .done s' => s'
        | .trap cause detail tval => s.takeTrap c cause detail tval

/-- The word at PC has begun and has not completed: the core stays at it, and takes no EVENT (R295, R308). -/
def hold (s : State) (c : Nat) : CoreRes := .done (s.setCore c { s.core c with held := true })

/-- A mason instruction that writes D, updates PU and goes on to the next word. -/
def coreWrite (s : State) (c : Nat) (k : Core) (x : Body) (v : Dword) (cond : Bool) : CoreRes :=
  .done (s.setCore c ((k.setReg x.d v).update x.pu cond).advance)

/-- A rule's word on an element: its row, or nothing where the word has none. -/
def elemFire (op : Nat) (x : Body) (s : State) (k : OpInfo → State) : State :=
  match opInfo op x with
  | some o => k o
  | none => s

/-- An instruction of both units. -/
def runShared (op : Nat) (x : Body) (s : State) (el : Nat → Nat → OpInfo → State) (co : Nat → Core → CoreRes) : Out :=
  match s.cur with
  | .element e slot => .next (elemFire op x s (el e slot))
  | .core c => .next (coreStep op x s c (co c))

/-- An instruction of elements only: a mason core traps it as illegal (R38). -/
def runElem (op : Nat) (x : Body) (s : State) (el : Nat → Nat → OpInfo → State) : Out :=
  runShared op x s el fun _ _ => .done s

/-- An instruction of mason cores only: no loader accepts it in a rule slot (R38). -/
def runCore (op : Nat) (x : Body) (s : State) (co : Nat → Core → CoreRes) : Out :=
  match s.cur with
  | .element _ _ => .fault .opcodeMason
  | .core c => .next (coreStep op x s c (co c))

/-- An integer instruction of format EA whose result depends on A and B alone (R93); the condition is "res ≠ 0", which for
a compare is the compare result (R100). -/
def runAlu (op : Nat) (x : EA) (f : BitVec 3) (g : (w : Nat) → BitVec w → BitVec w → BitVec w) (s : State) : Out :=
  let y := Body.ea x f
  runShared op y s
    (fun e slot o =>
      let res := g 32 (readSpec s e y x.a) (readSpec s e y x.b)
      fireValue s e slot o y res (res != 0) 0 0 id none)
    (fun c k =>
      let res := g 64 (k.reg x.a) (k.reg x.b)
      coreWrite s c k y res (res != 0))

/-- An integer instruction of format EI: the second operand is the sign-extended immediate (R104). -/
def runAluImm (op : Nat) (x : EI) (g : (w : Nat) → BitVec w → BitVec w → BitVec w) (s : State) : Out :=
  let y := Body.ei x
  runShared op y s
    (fun e slot o =>
      let res := g 32 (readSpec s e y x.a) (x.imm.signExtend 32)
      fireValue s e slot o y res (res != 0) 0 0 id none)
    (fun c k =>
      let res := g 64 (k.reg x.a) (x.imm.signExtend 64)
      coreWrite s c k y res (res != 0))

/-- A packed integer instruction of elements (R115, R116). -/
def runPacked (op : Nat) (x : EA) (f : BitVec 3) (g : Word → Word → Word) (s : State) : Out :=
  let y := Body.ea x f
  runElem op y s fun e slot o =>
    let res := g (readSpec s e y x.a) (readSpec s e y x.b)
    fireValue s e slot o y res (res != 0) 0 0 id none

end Sys2Proof.Machine
end

