-- ==== Sys2Proof/Machine/Replies.lean ====
section
/-! DEFINITION. Machine/Replies: commands whose result lands with a reply (R86, R87, R156): what the firing reserves, and the
landing of the reply. -/

namespace Sys2Proof.Machine

/-- What a firing reserves for a reply with ticket `t`: busy marks on its registers and its predicate, or an output slot. -/
def Elem.await (el : Elem) (t : Nat) (code : BitVec 5) (wide : Bool) (pu : BitVec 5) : Elem :=
  let dreg := if code.toNat < 16 then some code.toNat else none
  let w : Wait := { ticket := t, dreg := dreg, wide := wide, out := outOf code, pu := pu }
  let el := { el with waits := el.waits ++ [w] }
  let el := match dreg with
    | some k => { el with busyD := el.busyD ||| 1#16 <<< k ||| (if wide then 1#16 <<< (k + 1) else 0) }
    | none => el
  let el := if puAction pu = 0 then el else { el with busyP := el.busyP ||| 1#8 <<< puIndex pu }
  match outOf code with
  | some k => el.reserve k { tok := ⟨0, 0, 0⟩, ready := 0, wait := some t }
  | none => el

/-- The reply with ticket `t` lands in round `n`: the registers and the predicate are written and their marks cleared, or
the reserved token takes its value and its tag (R87, R156). -/
def Elem.landReply (el : Elem) (n t : Nat) (v : Dword) (tag : BitVec 3) (cond : Bool) : Elem :=
  match el.waits.find? (fun w => w.ticket == t) with
  | none => el
  | some w =>
    let el := { el with waits := el.waits.filter fun w => w.ticket != t }
    let el := match w.dreg with
      | some k =>
        let el := { el.setReg k (v.setWidth 32) with busyD := el.busyD &&& ~~~(1#16 <<< k) }
        if w.wide then { el.setReg (k + 1) (v.extractLsb' 32 32) with busyD := el.busyD &&& ~~~(1#16 <<< (k + 1)) } else el
      | none => el
    let el := match puWrite w.pu cond with
      | some (k, b) => { el.setPred k b with busyP := el.busyP &&& ~~~(1#8 <<< k) }
      | none => el
    match w.out with
    | some k =>
      let v := if el.ctlOut k then 0 else v
      { el with io := { el.io with outs := el.io.outs.put [] k ((el.io.outq k).map fun o =>
          if o.wait = some t then { tok := ⟨tag, v, 0⟩, ready := n, wait := none } else o) } }
    | none => el

/-- A rule that fires a command with a reply: its takes, what it reserves, and the command itself in `send`, which gets the
ticket. The aborts of the opcode are decided before. -/
def fireCommand (s : State) (e slot : Nat) (o : OpInfo) (x : Body) (wide : Bool) (send : Nat → State → State) : State :=
  let t := s.nextTicket
  let s := takeInputs { s with nextTicket := t + 1 } e x.dq none
  let s := s.modElem e fun el => (el.await t (destCode o x) wide x.pu).noAbort slot
  send t s

end Sys2Proof.Machine
end

