-- ==== Sys2Proof/Machine/Combining.lean ====
section
/-! DEFINITION. Machine/Combining: the instructions of combining registers (R156-R161, R165) and the events that carry
their commands, notices, gathers and resets (R155, R158, R161, R164). -/

namespace Sys2Proof.Machine

open CombAlu

/-- The home record of register m for an element: by the region of the element's plane (R146). -/
def homeKey (s : State) (e : Nat) (m : BitVec 6) : Option Nat :=
  match s.regionOf (Key.pkOfElem e) with
  | some r => ((s.region r).mregs.find? fun p => p.1 == m.toNat).map Prod.snd
  | none => none

/-- The contributor index of an element (R146). -/
def contribIdx (h : Home) (e : Nat) : Option Nat := h.decl.contribs.findIdx? fun c => c == (false, e)

/-- The declared contributor mask (R158). -/
def Home.full (h : Home) : BitVec 16 := BitVec.ofNat 16 (2 ^ h.decl.contribs.length - 1)

/-- CUR of the contributor's slot is closed, or a close that would close it is on its way (R155, R165). -/
def closeRefused (s : State) (hk k : Nat) : Bool :=
  let h := s.home hk
  (s.pslot (h.slotKeys.getD k 0)).closed || (h.toSlot.get [] k).any (·.close)

/-- A contribution or close leaves for the slot in the next round (R157, R164). -/
def State.sendContrib (s : State) (hk k : Nat) (value : Option (Word × Nat × Nat)) (close : Bool) : State :=
  let h := s.home hk
  s.setHome hk { h with toSlot := h.toSlot.put [] k (h.toSlot.get [] k ++ [⟨s.round + 1, value, close⟩]) }

/-- CONTRIB, CONTRIBC and CCLOSE (R157): the port's refusal first, then the command, the takes and the predicate. -/
def runContrib (op : Nat) (x : EC) (value close : Bool) (s : State) : Out :=
  let y := Body.ec x
  runElem op y s fun e slot o =>
    let a := readSpec s e y x.ad
    match homeKey s e x.m with
    | none => fireValue s e slot o y 0 (a != 0) 0 0 id none
    | some hk =>
      match contribIdx (s.home hk) e with
      | none => fireValue s e slot o y 0 (a != 0) 0 0 id none
      | some k =>
        if close && closeRefused s hk k then s.abort e slot .engineRefused
        else
          let s := fireValue s e slot o y 0 (a != 0) 0 0 id none
          s.sendContrib hk k (if value then some (a, x.opc.toNat, x.ty.toNat) else none) close

/-- R157. Sends a value to the contributor's partial slot. -/
def execContrib (x : EC) (s : State) : Out := runContrib 0x30 x true false s

/-- R157. Sends a value to the partial slot and closes the generation. -/
def execContribc (x : EC) (s : State) : Out := runContrib 0x31 x true true s

/-- R157. Closes the contributor's current generation. -/
def execCclose (x : EC) (s : State) : Out := runContrib 0x32 x false true s

/-- A command of the home element: refused while a SETTLE, PEEK or CRST is outstanding (R165); OUT-FULL first (R88). -/
def runHome (op : Nat) (x : EC) (s : State) (k : Nat → Nat → OpInfo → Nat → State) : Out :=
  let y := Body.ec x
  runElem op y s fun e slot o =>
    if outFull (s.elem e) y o then s.abort e slot .outFull
    else match homeKey s e x.m with
      | none => fireCommand s e slot o y false fun _ s => s
      | some hk => if (s.home hk).op.isSome then s.abort e slot .engineRefused else k e slot o hk

/-- R158. Waits for every close, gathers the partials, combines them and advances the generation. -/
def execSettle (x : EC) (s : State) : Out :=
  runHome 0x33 x s fun e slot o hk =>
    fireCommand s e slot o (.ec x) false fun t s =>
      s.setHome hk { s.home hk with op := some (.read false t s.round none []) }

/-- R159. Gathers and combines the current partials without waiting or changing them. -/
def execPeek (x : EC) (s : State) : Out :=
  runHome 0x34 x s fun e slot o hk =>
    fireCommand s e slot o (.ec x) false fun t s =>
      s.setHome hk { s.home hk with op := some (.read true t s.round none []) }

/-- R160, R156. Reads the register's 64-bit status word into D and D + 1. -/
def execCstat (x : EC) (s : State) : Out :=
  runHome 0x35 x s fun e slot o hk =>
    let v := (s.home hk).status
    let d := x.ad.toNat
    let s := takeInputs s e x.dq none
    s.modElem e fun el =>
      (el.result s.round o.lat [(d, v.setWidth 32), (d + 1, v.extractLsb' 32 32)] (puWrite x.pu (v != 0))).noAbort slot

/-- The number of one bits of a mask. -/
def popcount (m : BitVec 16) : Nat := (List.range 16).countP m.getLsbD

/-- R160. Reads the count of closed contributors. -/
def execCpoll (x : EC) (s : State) : Out :=
  runHome 0x37 x s fun e slot o hk =>
    let v : Word := BitVec.ofNat 32 (popcount (s.home hk).closed)
    fireValue s e slot o (.ec x) v (v != 0) 0 0 id none

/-- R161. Resets the combining register to its state at course load. -/
def execCrst (x : EC) (s : State) : Out :=
  runHome 0x36 x s fun e slot o hk =>
    fireCommand s e slot o (.ec x) false fun t s =>
      let h := s.home hk
      s.setHome hk { h with op := some (.reset t s.round 0 0), crsts := h.crsts + 1 }

/-! ### Events -/

/-- Generation g comes after generation p (R155, 16-bit counts). -/
def genBefore (p g : BitVec 16) : Bool := p != g && decide ((g - p).toNat < 2 ^ 15)

/-- The home's count of generations as its slots see it: a slot that has taken an outstanding reset stands in generation 0 of the
register's new life, whatever GEN the home still holds (R155, R161). -/
def Home.genNow (h : Home) : BitVec 16 :=
  match h.op with
  | some (.reset _ _ _ _) => 0
  | _ => h.gen

/-- The home has settled the slot's generation: a rollback took the slot back to contributions that the home's state counts already
(R166, log 89). -/
def PSlot.behind (h : Home) (p : PSlot) : Bool := p.crsts = h.crsts && genBefore p.gen h.genNow

/-- The slot moves to its next generation: NEXT becomes CUR (R155). -/
def PSlot.shift (p : PSlot) : PSlot := { p with cur := p.nxt, closed := false, nxt := {}, gen := p.gen + 1 }

/-- The slot remembers its generation until the cut that follows completes (R166). -/
def PSlot.remember (p : PSlot) (closed : Bool) : PSlot := { p with past := p.past ++ [⟨p.crsts, p.gen, p.cur, closed⟩] }

/-- What a slot holds of a generation, and whether it is closed there: CUR, or what it remembers (R166). -/
def PSlot.at (p : PSlot) (crsts : Nat) (gen : BitVec 16) : PBuf × Bool :=
  if p.crsts = crsts && p.gen == gen then (p.cur, p.closed)
  else match p.past.find? fun x => x.crsts = crsts && x.gen == gen with
    | some x => (x.buf, x.closed)
    | none => ({}, false)

/-- A slot forgets what the home's record of the last complete cut has behind it. -/
def PSlot.forget (h : Home) (p : PSlot) : PSlot :=
  { p with past := p.past.filter fun x => !(decide (x.crsts < h.crsts) || (x.crsts = h.crsts && genBefore x.gen h.genNow)) }

/-- CTB of a contribution or close (R153, R155): into CUR, or into NEXT once CUR is closed; then the close and its notice. The close of
a generation that the home has settled already drops it (R166). -/
def contribAt (s : State) (hk k : Nat) (c : CombCmd) : State :=
  let h := s.home hk
  let sk := h.slotKeys.getD k 0
  let p := s.pslot sk
  let p := match c.value with
    | some (a, o, t) =>
      if p.closed then { p with nxt := contribLocal h.decl p.nxt a o t } else { p with cur := contribLocal h.decl p.cur a o t }
    | none => p
  let drop := c.close && p.behind h
  let s := s.setPslot sk (if drop then p.shift else if c.close then { p with closed := true } else p)
  if c.close && !drop then
    s.setHome hk { h with toHome := h.toHome.put [] k (h.toHome.get [] k ++ [.notice (s.round + 1)]) }
  else s

/-- R153. A contribution or close reaches the partial slot; a close that the slot cannot take yet waits (R155). -/
def execContribLocal (h k : Nat) (s : State) : Out :=
  let home := s.home h
  .next <| match home.toSlot.get [] k with
    | c :: rest =>
      if c.due ≤ s.round && !(c.close && (s.pslot (home.slotKeys.getD k 0)).closed) then
        contribAt (s.setHome h { home with toSlot := home.toSlot.put [] k rest }) h k c
      else s
    | [] => s

/-- R155. A close notice reaches the home, which sets the contributor's closed bit; while a CRST is outstanding R161 says
which notices count. -/
def execCloseNotice (h k : Nat) (s : State) : Out :=
  let home := s.home h
  .next <| match home.toHome.get [] k with
    | .notice due :: rest =>
      if due ≤ s.round then
        let bit := 1#16 <<< k
        let home := { home with toHome := home.toHome.put [] k rest }
        match home.op with
        | some (.reset t f acked recd) =>
          s.setHome h { home with op := some (.reset t f acked (if acked.getLsbD k then recd ||| bit else recd)) }
        | _ => s.setHome h { home with closed := home.closed ||| bit, lastNotice := s.round }
      else s
    | _ => s

/-- R158. The home issues the gather: a SETTLE in a round after every close notice is recorded, a PEEK in a round after it
fired (R164). The closed mask then counts the closes of the next generation. -/
def execGatherIssue (h : Nat) (s : State) : Out :=
  let home := s.home h
  .next <| match home.op with
    | some (.read peek t fired none parts) =>
      if peek then
        if fired < s.round then s.setHome h { home with op := some (.read peek t fired (some s.round) parts) } else s
      else if home.closed = home.full && fired < s.round && home.lastNotice < s.round then
        s.setHome h { home with op := some (.read peek t fired (some s.round) parts), closed := 0 }
      else s
    | _ => s

/-- Every link between a home and a slot carries traffic: the gather and the partial travel as tokens (R164). -/
def homePath (h : Home) (sk : Nat) : List Nat := linksBetween (Key.dieOfElem h.decl.home) (Key.dieOfTile (sk / 256))

/-- R158. A gather reads a slot's CUR; a settle's gather empties it and shifts NEXT into CUR (R155). A slot that was read for
this generation before the snapshot of a rollback gives what it gave then, and reports to a settle that its next generation is closed
(R166). -/
def execGatherRead (h k : Nat) (s : State) : Out :=
  let home := s.home h
  .next <| match home.op with
    | some (.read peek t fired (some issued) parts) =>
      let sk := home.slotKeys.getD k 0
      if issued < s.round && k < home.decl.contribs.length && (parts.get none k).isNone
          && (homePath home sk).all (fun l => (s.link l).carries) then
        let p := s.pslot sk
        let part := p.at home.crsts home.gen
        let q := if peek || p.crsts != home.crsts || p.gen != home.gen then p else (p.remember true).shift
        let home := { home with
          op := some (.read peek t fired (some issued) (parts.insert k (some ⟨part.1, part.2, s.round⟩)))
          toHome := if !peek && (q.at home.crsts (home.gen + 1)).2 then home.toHome.put [] k (home.toHome.get [] k ++ [.notice (s.round + 1)])
            else home.toHome }
        (s.setHome h home).setPslot sk q
      else s
    | _ => s

/-- The place of a contributor (R163): an element's place, or the tile of an island with element 0 (R353). -/
def contribPlace (h : Home) (k : Nat) : Word :=
  match h.decl.contribs[k]? with
  | some (false, e) => elemPlace e
  | some (true, _) => Key.place (Key.tileOf ((h.slotKeys.getD k 0) / 64)) 0
  | none => elemPlace h.decl.home

/-- The place that the attribution event names (R163). -/
def attribPlace (h : Home) (r : Read) (bufs : List PBuf) : Word :=
  if r.nansrc ≠ 31 then contribPlace h r.nansrc
  else match (List.range 16).find? (fun k => r.mism / 2 ^ k % 2 == 1) with
    | some k => contribPlace h k
    | none => match lowest (fun b => included b && unclean b.fl) bufs with
      | some k => contribPlace h k
      | none => elemPlace h.decl.home

/-- R164. The partials reach the home, which combines them in the tree, writes D and sets the status: at the earliest four
rounds after the last slot was read. An unclean settle posts its attribution event (R163). -/
def execSettleReply (h : Nat) (s : State) : Out :=
  let home := s.home h
  .next <| match home.op with
    | some (.read peek t _ (some _) parts) =>
      let ps := (List.range home.decl.contribs.length).filterMap fun k => parts.get none k
      if ps.length = home.decl.contribs.length && ps.all (fun p => p.at_ + 4 ≤ s.round) then
        let bufs := ps.map (·.buf)
        let closed : BitVec 16 := if peek then BitVec.ofNat 16 (maskOf (·.closed) ps) else home.full
        let r := CombAlu.read home.decl bufs closed home.gen peek
        let e := home.decl.home
        let reg := h % 64
        let s := s.setHome h { home with
          status := r.status, op := none, gen := if peek then home.gen else home.gen + 1 }
        let s := s.modElem e fun el => el.landReply s.round t (r.res.setWidth 64) 0 r.clean
        if !peek && !r.clean then
          s.event (Key.dieOfElem e) 4 reg (attribPlace home r bufs) r.status (home.gen.setWidth 64)
        else s
      else s
    | _ => s

/-- A slot's acknowledgment of the reset is on its way to the home. -/
def ackComing (h : Home) (k : Nat) : Bool := (h.toHome.get [] k).any fun m => match m with | .ack _ => true | .notice _ => false

/-- R161. A CRST reset empties a slot and sends its acknowledgment behind the notices the slot sent before. A slot that has taken this
reset before a rollback acknowledges without emptying (R166). -/
def execResetArrival (h k : Nat) (s : State) : Out :=
  let home := s.home h
  .next <| match home.op with
    | some (.reset _ fired acked _) =>
      let sk := home.slotKeys.getD k 0
      let p := s.pslot sk
      if fired < s.round && k < home.decl.contribs.length && !acked.getLsbD k && !ackComing home k then
        let s := if p.crsts = home.crsts then s
          else s.setPslot sk { p.remember p.closed with cur := {}, nxt := {}, closed := false, gen := 0, crsts := home.crsts }
        s.setHome h { home with toHome := home.toHome.put [] k (home.toHome.get [] k ++ [.ack (s.round + 1)]) }
      else s
    | _ => s

/-- R161. A reset acknowledgment reaches the home; after the last one the reset completes. -/
def execResetAck (h k : Nat) (s : State) : Out :=
  let home := s.home h
  .next <| match home.op, home.toHome.get [] k with
    | some (.reset t f acked recd), .ack due :: rest =>
      if due ≤ s.round then
        let acked := acked ||| 1#16 <<< k
        let home := { home with toHome := home.toHome.put [] k rest }
        if acked = home.full then
          let s := s.setHome h { home with gen := 0, closed := recd, status := 0x3E0, op := none, lastNotice := s.round }
          s.modElem home.decl.home fun el => el.landReply s.round t 0 0 false
        else s.setHome h { home with op := some (.reset t f acked recd) }
      else s
    | _, _ => s

end Sys2Proof.Machine
end

