-- ==== Sys2Proof/Machine/Codec.lean ====
section
/-! DEFINITION. Machine/Codec: the records of a course as lists of numbers, for the part of a READOUT section that no window shows
(R348, R349, log 10). Each codec lists the fields of its record in their order. -/

namespace Sys2Proof.Machine

/-- How a value of σ is written as numbers, and how a value of β is read back from the front of a list. -/
structure Rec (σ β : Type) where
  enc : σ → List Nat
  dec : List Nat → Option (β × List Nat)

/-- A value that is written and read back. -/
abbrev Codec (α : Type) := Rec α α

/-- Nothing written yet; `f` waits for the fields. -/
def Rec.of {σ β : Type} (f : β) : Rec σ β := ⟨fun _ => [], fun l => some (f, l)⟩

/-- One more field. -/
def Rec.fld {σ α β : Type} (r : Rec σ (α → β)) (c : Codec α) (p : σ → α) : Rec σ β :=
  ⟨fun x => r.enc x ++ c.enc (p x), fun l => (r.dec l).bind fun f => (c.dec f.2).map fun a => (f.1 a.1, a.2)⟩

def natC : Codec Nat := ⟨fun n => [n], fun l => match l with | n :: l => some (n, l) | [] => none⟩
def boolC : Codec Bool := ⟨fun b => [b.toNat], fun l => match l with | n :: l => some (n == 1, l) | [] => none⟩
def bitsC {w : Nat} : Codec (BitVec w) := ⟨fun v => [v.toNat], fun l => match l with | n :: l => some (BitVec.ofNat w n, l) | [] => none⟩

def wideC : Codec (BitVec 128) :=
  ⟨fun v => [v.toNat % 2 ^ 64, v.toNat / 2 ^ 64],
   fun l => match l with | a :: b :: l => some (BitVec.ofNat 128 (a + b * 2 ^ 64), l) | _ => none⟩

def pairC {α β : Type} (a : Codec α) (b : Codec β) : Codec (α × β) := (Rec.of Prod.mk).fld a Prod.fst |>.fld b Prod.snd

def optC {α : Type} (a : Codec α) : Codec (Option α) :=
  ⟨fun x => match x with | none => [0] | some v => 1 :: a.enc v,
   fun l => match l with
    | 0 :: l => some (none, l) | 1 :: l => (a.dec l).map fun v => (some v.1, v.2) | _ => none⟩

/-- n values one after another. -/
def decN {α : Type} (a : Codec α) : Nat → List Nat → Option (List α × List Nat)
  | 0, l => some ([], l)
  | n + 1, l => (a.dec l).bind fun v => (decN a n v.2).map fun r => (v.1 :: r.1, r.2)

def listC {α : Type} (a : Codec α) : Codec (List α) :=
  ⟨fun x => x.length :: x.flatMap a.enc,
   fun l => match l with | n :: l => if l.length < n then none else decN a n l | [] => none⟩

def sparseC {α : Type} (a : Codec α) : Codec (Sparse α) := listC (pairC natC a)

def tokenC : Codec Token :=
  Rec.of Token.mk |>.fld bitsC (·.tag) |>.fld bitsC (·.payload) |>.fld bitsC (·.form)

def inTokC : Codec InTok :=
  Rec.of InTok.mk |>.fld tokenC (·.tok) |>.fld natC (·.ch) |>.fld natC (·.dst) |>.fld natC (·.arr)

def outTokC : Codec OutTok :=
  Rec.of OutTok.mk |>.fld tokenC (·.tok) |>.fld natC (·.ready) |>.fld (optC natC) (·.wait)

def flightC : Codec Flight :=
  Rec.of Flight.mk |>.fld tokenC (·.tok) |>.fld natC (·.seq) |>.fld natC (·.sent) |>.fld natC (·.dst)

def chanC : Codec Chan :=
  Rec.of Chan.mk |>.fld natC (·.sent) |>.fld (sparseC natC) (·.freed) |>.fld natC (·.returned) |>.fld (listC flightC) (·.flight)
    |>.fld natC (·.owed)

def portsC : Codec Ports :=
  Rec.of Ports.mk |>.fld (sparseC (listC inTokC)) (·.ins) |>.fld (sparseC (listC outTokC)) (·.outs)
    |>.fld (sparseC (listC natC)) (·.feed) |>.fld natC (·.back) |>.fld natC (·.markerless) |>.fld (sparseC natC) (·.backSeen)
    |>.fld natC (·.closedOut) |>.fld boolC (·.drained) |>.fld natC (·.snapCut) |>.fld natC (·.sinceMark)

def slotStC : Codec SlotSt :=
  Rec.of SlotSt.mk |>.fld natC (·.cls) |>.fld natC (·.age) |>.fld natC (·.lastc) |>.fld natC (·.aborts)

def evRecC : Codec EvRec :=
  Rec.of EvRec.mk |>.fld natC (·.type) |>.fld natC (·.code) |>.fld natC (·.id) |>.fld bitsC (·.place) |>.fld bitsC (·.cyc)
    |>.fld bitsC (·.d2) |>.fld bitsC (·.d3)

def landingC : Codec Landing :=
  Rec.of Landing.mk |>.fld natC (·.due) |>.fld (listC (pairC natC bitsC)) (·.regs) |>.fld (optC (pairC natC boolC)) (·.pred)
    |>.fld (optC evRecC) (·.ev)

def waitC : Codec Wait :=
  Rec.of Wait.mk |>.fld natC (·.ticket) |>.fld (optC natC) (·.dreg) |>.fld boolC (·.wide) |>.fld (optC natC) (·.out) |>.fld bitsC (·.pu)

def ksTargetC : Codec KsTarget :=
  Rec.of KsTarget.mk |>.fld natC (·.range) |>.fld natC (·.words) |>.fld boolC (·.bar) |>.fld (optC natC) (·.device)
    |>.fld natC (·.place) |>.fld (optC natC) (·.orderIn) |>.fld natC (·.orderSlots)

def kOpC : Codec KOp :=
  ⟨fun x => match x with
    | .int f => [0, f] | .cas c => [1, c.toNat] | .float f => [2, f] | .read => [3, 0] | .write => [4, 0] | .status m => [5, m.toNat],
   fun l => match l with
    | 0 :: f :: l => some (.int f, l) | 1 :: c :: l => some (.cas (BitVec.ofNat 32 c), l) | 2 :: f :: l => some (.float f, l)
    | 3 :: _ :: l => some (.read, l) | 4 :: _ :: l => some (.write, l) | 5 :: m :: l => some (.status (BitVec.ofNat 7 m), l)
    | _ => none⟩

def kCmdC : Codec KCmd :=
  Rec.of KCmd.mk |>.fld kOpC (·.op) |>.fld natC (·.idx) |>.fld bitsC (·.b)

def postedC : Codec Posted :=
  Rec.of Posted.mk |>.fld natC (·.target) |>.fld kCmdC (·.cmd) |>.fld natC (·.cut)

def keptReplyC : Codec KeptReply :=
  Rec.of KeptReply.mk |>.fld natC (·.ticket) |>.fld tokenC (·.tok) |>.fld natC (·.cut)

def irrevC : Codec Irrev :=
  Rec.of Irrev.mk |>.fld natC (·.target) |>.fld kCmdC (·.cmd) |>.fld natC (·.ticket) |>.fld natC (·.cut) |>.fld boolC (·.sent)

def ksInC : Codec KsIn :=
  ⟨fun x => match x with | .reply d t k => 0 :: d :: t :: tokenC.enc k | .applied d t => [1, d, t],
   fun l => match l with
    | 0 :: d :: t :: l => (tokenC.dec l).map fun k => (.reply d t k.1, k.2)
    | 1 :: d :: t :: l => some (.applied d t, l)
    | _ => none⟩

def elemC : Codec Elem :=
  Rec.of Elem.mk |>.fld (sparseC bitsC) (·.d) |>.fld bitsC (·.p) |>.fld (sparseC bitsC) (·.ls) |>.fld (sparseC bitsC) (·.slots)
    |>.fld (sparseC slotStC) (·.st) |>.fld (sparseC natC) (·.ptr) |>.fld (sparseC bitsC) (·.conflict) |>.fld bitsC (·.ecfg)
    |>.fld bitsC (·.fctl) |>.fld bitsC (·.fflg) |>.fld (sparseC bitsC) (·.movMark) |>.fld bitsC (·.busyD) |>.fld bitsC (·.busyP)
    |>.fld boolC (·.halt) |>.fld (listC landingC) (·.landing) |>.fld (listC waitC) (·.waits) |>.fld (sparseC ksTargetC) (·.targets)
    |>.fld (listC postedC) (·.posted) |>.fld (listC irrevC) (·.irrev) |>.fld (sparseC natC) (·.ksOut) |>.fld (listC ksInC) (·.ksIn)
    |>.fld (listC keptReplyC) (·.kept) |>.fld (optC natC) (·.drainAt) |>.fld portsC (·.io)

def mDeclC : Codec MDecl :=
  Rec.of MDecl.mk |>.fld natC (·.opc) |>.fld natC (·.ty) |>.fld natC (·.rm) |>.fld natC (·.home)
    |>.fld (listC (pairC boolC natC)) (·.contribs) |>.fld boolC (·.resettable)

def pBufC : Codec PBuf :=
  Rec.of PBuf.mk |>.fld boolC (·.v) |>.fld boolC (·.m) |>.fld bitsC (·.val) |>.fld natC (·.opc) |>.fld natC (·.ty) |>.fld bitsC (·.fl)

def pastGenC : Codec PastGen :=
  Rec.of PastGen.mk |>.fld natC (·.crsts) |>.fld bitsC (·.gen) |>.fld pBufC (·.buf) |>.fld boolC (·.closed)

def pSlotC : Codec PSlot :=
  Rec.of PSlot.mk |>.fld natC (·.mreg) |>.fld natC (·.cidx) |>.fld bitsC (·.gen) |>.fld pBufC (·.cur) |>.fld boolC (·.closed)
    |>.fld pBufC (·.nxt) |>.fld (listC pastGenC) (·.past) |>.fld natC (·.crsts)

def combCmdC : Codec CombCmd :=
  Rec.of CombCmd.mk |>.fld natC (·.due) |>.fld (optC (pairC bitsC (pairC natC natC))) (·.value) |>.fld boolC (·.close)

def partC : Codec Part :=
  Rec.of Part.mk |>.fld pBufC (·.buf) |>.fld boolC (·.closed) |>.fld natC (·.at_)

def homeMsgC : Codec HomeMsg :=
  ⟨fun x => match x with | .notice d => [0, d] | .ack d => [1, d],
   fun l => match l with | 0 :: d :: l => some (.notice d, l) | 1 :: d :: l => some (.ack d, l) | _ => none⟩

def homeOpC : Codec HomeOp :=
  let body := pairC (optC natC) (sparseC (optC partC))
  ⟨fun x => match x with
    | .read p t f i ps => 0 :: p.toNat :: t :: f :: body.enc (i, ps)
    | .reset t f a r => [1, t, f, a.toNat, r.toNat],
   fun l => match l with
    | 0 :: p :: t :: f :: l => (body.dec l).map fun b => (.read (p == 1) t f b.1.1 b.1.2, b.2)
    | 1 :: t :: f :: a :: r :: l => some (.reset t f (BitVec.ofNat 16 a) (BitVec.ofNat 16 r), l)
    | _ => none⟩

def homeC : Codec Home :=
  Rec.of Home.mk |>.fld mDeclC (·.decl) |>.fld (listC natC) (·.slotKeys) |>.fld bitsC (·.gen) |>.fld bitsC (·.closed)
    |>.fld natC (·.lastNotice) |>.fld bitsC (·.status) |>.fld (optC homeOpC) (·.op) |>.fld natC (·.crsts)
    |>.fld (sparseC (listC combCmdC)) (·.toSlot) |>.fld (sparseC (listC homeMsgC)) (·.toHome)

def kSrcC : Codec KSrc :=
  ⟨fun x => match x with
    | .port e t k => 0 :: e :: t :: (optC natC).enc k | .core c => [1, c] | .remote i d p => [2, i, d, p.toNat],
   fun l => match l with
    | 0 :: e :: t :: l => ((optC natC).dec l).map fun k => (.port e t k.1, k.2)
    | 1 :: c :: l => some (.core c, l)
    | 2 :: i :: d :: p :: l => some (.remote i d (p == 1), l)
    | _ => none⟩

def kArrC : Codec KArr :=
  Rec.of KArr.mk |>.fld kCmdC (·.cmd) |>.fld kSrcC (·.src) |>.fld natC (·.arr)

def keystoneC : Codec Keystone :=
  Rec.of Keystone.mk |>.fld boolC (·.mapped) |>.fld natC (·.words) |>.fld boolC (·.bar) |>.fld boolC (·.ss) |>.fld natC (·.rm)
    |>.fld natC (·.bank) |>.fld (sparseC bitsC) (·.mem) |>.fld bitsC (·.sticky) |>.fld (listC kArrC) (·.inq)
    |>.fld (listC (pairC natC kSrcC)) (·.held) |>.fld (optC (pairC natC natC)) (·.last) |>.fld boolC (·.hold) |>.fld (optC natC) (·.fwd)
    |>.fld (optC natC) (·.copyTo) |>.fld (listC kArrC) (·.waitQ) |>.fld natC (·.bound)

def pinC : Codec Pin :=
  Rec.of Pin.mk |>.fld natC (·.va) |>.fld natC (·.len) |>.fld natC (·.place)

def agReqC : Codec AgReq :=
  Rec.of AgReq.mk |>.fld natC (·.seq) |>.fld natC (·.idx) |>.fld natC (·.place) |>.fld natC (·.size) |>.fld (optC tokenC) (·.tok)
    |>.fld boolC (·.fwdd) |>.fld (optC (listC bitsC)) (·.data) |>.fld natC (·.issued)

def heldStoreC : Codec HeldStore :=
  Rec.of HeldStore.mk |>.fld natC (·.idx) |>.fld natC (·.place) |>.fld (listC bitsC) (·.bytes) |>.fld boolC (·.full) |>.fld natC (·.cut)

def agC : Codec Ag :=
  Rec.of Ag.mk |>.fld boolC (·.bound) |>.fld (listC bitsC) (·.spb) |>.fld natC (·.ctx) |>.fld (listC pinC) (·.pins)
    |>.fld boolC (·.started) |>.fld natC (·.seq) |>.fld natC (·.made) |>.fld (listC bitsC) (·.words) |>.fld (listC agReqC) (·.reqs)
    |>.fld (listC heldStoreC) (·.held) |>.fld (sparseC natC) (·.gmask) |>.fld (optC natC) (·.lastG) |>.fld (optC natC) (·.stall)
    |>.fld boolC (·.ended) |>.fld boolC (·.endSent) |>.fld boolC (·.overrun) |>.fld boolC (·.discard) |>.fld (optC natC) (·.orderTo)
    |>.fld natC (·.orderSlots) |>.fld (sparseC natC) (·.ordPend) |>.fld portsC (·.io)

def repStateC : Codec RepState :=
  ⟨fun x => match x with | .fill => [0, 0, 0] | .hold => [1, 0, 0] | .emit p q => [2, p, q],
   fun l => match l with
    | 0 :: _ :: _ :: l => some (.fill, l) | 1 :: _ :: _ :: l => some (.hold, l) | 2 :: p :: q :: l => some (.emit p q, l)
    | _ => none⟩

def repeatC : Codec Repeat :=
  Rec.of Repeat.mk |>.fld boolC (·.bound) |>.fld natC (·.bank) |>.fld repStateC (·.st) |>.fld (listC tokenC) (·.buf)
    |>.fld boolC (·.valid) |>.fld boolC (·.skip) |>.fld boolC (·.emitted) |>.fld portsC (·.io)

def schedNodeC : Codec SchedNode :=
  Rec.of SchedNode.mk |>.fld boolC (·.bound) |>.fld (listC bitsC) (·.table) |>.fld natC (·.cursor)
    |>.fld (listC (pairC boolC natC)) (·.reqs) |>.fld natC (·.feeds) |>.fld natC (·.port) |>.fld portsC (·.io)

def sinkReportC : Codec SinkReport :=
  Rec.of SinkReport.mk |>.fld bitsC (·.place) |>.fld natC (·.port) |>.fld bitsC (·.payload) |>.fld natC (·.cut)

def unitRefC : Codec UnitRef :=
  ⟨fun x => match x with
    | .elem k => [0, k] | .ag k => [1, k] | .repeatNode k => [2, k] | .schedNode k => [3, k] | .island k => [4, k]
    | .streamer k => [5, k] | .keystone k => [6, k],
   fun l => match l with
    | 0 :: k :: l => some (.elem k, l) | 1 :: k :: l => some (.ag k, l) | 2 :: k :: l => some (.repeatNode k, l)
    | 3 :: k :: l => some (.schedNode k, l) | 4 :: k :: l => some (.island k, l) | 5 :: k :: l => some (.streamer k, l)
    | 6 :: k :: l => some (.keystone k, l)
    | _ => none⟩

def rollCauseC : Codec RollCause :=
  ⟨fun x => match x with
    | .deliveryTimeout c r => [0, c, r] | .linkRetrain c r => [1, c, r] | .pageFault v c p => [2, v, c, p.toNat]
    | .walkFormat k v c p => [3, k, v, c, p.toNat] | .spillFull i m => [4, i, m] | .ecc p => [5, p] | .firmware => [6],
   fun l => match l with
    | 0 :: c :: r :: l => some (.deliveryTimeout c r, l) | 1 :: c :: r :: l => some (.linkRetrain c r, l)
    | 2 :: v :: c :: p :: l => some (.pageFault v c (BitVec.ofNat 32 p), l)
    | 3 :: k :: v :: c :: p :: l => some (.walkFormat k v c (BitVec.ofNat 32 p), l)
    | 4 :: i :: m :: l => some (.spillFull i m, l) | 5 :: p :: l => some (.ecc p, l) | 6 :: l => some (.firmware, l)
    | _ => none⟩

def regionC : Codec Region :=
  Rec.of Region.mk |>.fld boolC (·.live) |>.fld natC (·.prow) |>.fld natC (·.pcol) |>.fld natC (·.h) |>.fld natC (·.w)
    |>.fld natC (·.plane) |>.fld (optC natC) (·.launch) |>.fld natC (·.course) |>.fld natC (·.mkRounds) |>.fld natC (·.mkTokens)
    |>.fld boolC (·.running) |>.fld boolC (·.frozen) |>.fld natC (·.frozenAt) |>.fld (optC natC) (·.commitHop)
    |>.fld (optC natC) (·.waveHop) |>.fld (sparseC (pairC natC bitsC)) (·.seedPorts) |>.fld (listC (pairC natC tokenC)) (·.seeds)
    |>.fld (listC natC) (·.seedDrains) |>.fld (sparseC (pairC (listC (pairC natC (pairC natC tokenC))) (listC natC))) (·.seedSnaps)
    |>.fld natC (·.cut) |>.fld boolC (·.cutOpen) |>.fld boolC (·.cutAsked) |>.fld (optC natC) (·.reqHop) |>.fld natC (·.lastStart)
    |>.fld natC (·.done) |>.fld (optC natC) (·.relDue) |>.fld natC (·.lastRel) |>.fld natC (·.relRound)
    |>.fld (listC sinkReportC) (·.reports) |>.fld (listC (pairC natC boolC)) (·.fails) |>.fld (listC natC) (·.conBanks)
    |>.fld (listC (pairC natC (pairC natC natC))) (·.metaLog) |>.fld natC (·.act) |>.fld (sparseC natC) (·.movedAt)
    |>.fld (listC (pairC unitRefC (sparseC (listC pinC)))) (·.pinned) |>.fld (sparseC natC) (·.pinnedKs) |>.fld natC (·.sameCut)
    |>.fld (optC natC) (·.lastEcc) |>.fld (optC rollCauseC) (·.afterRel) |>.fld (optC natC) (·.waitEv) |>.fld natC (·.waitType)
    |>.fld (optC natC) (·.waitIsl) |>.fld (sparseC natC) (·.seedMark) |>.fld (sparseC (listC (pairC natC tokenC))) (·.seedQ)
    |>.fld (sparseC natC) (·.seedSince) |>.fld boolC (·.drainReq) |>.fld natC (·.progress) |>.fld natC (·.moved) |>.fld natC (·.still)
    |>.fld boolC (·.probed) |>.fld (sparseC natC) (·.mregs) |>.fld (listC natC) (·.rmap) |>.fld (listC natC) (·.cmap)
    |>.fld (listC unitRefC) (·.units)

def iSlotC : Codec ISlot :=
  Rec.of ISlot.mk |>.fld natC (·.state) |>.fld boolC (·.dirty) |>.fld boolC (·.fresh) |>.fld natC (·.mark) |>.fld natC (·.first)
    |>.fld wideC (·.srow) |>.fld wideC (·.scol) |>.fld (sparseC bitsC) (·.val)

def opndC : Codec Opnd :=
  Rec.of Opnd.mk |>.fld natC (·.bits) |>.fld boolC (·.special)

def mmaC : Codec Mma :=
  Rec.of Mma.mk |>.fld bitsC (·.cmd) |>.fld natC (·.acc) |>.fld natC (·.slot) |>.fld (listC opndC) (·.a) |>.fld (listC opndC) (·.sa)
    |>.fld (listC opndC) (·.b) |>.fld (listC opndC) (·.sb) |>.fld natC (·.issued) |>.fld (optC natC) (·.lastIssue)
    |>.fld (optC (pairC natC bitsC)) (·.done) |>.fld (optC (pairC bitsC bitsC)) (·.contrib)

def bindRunC : Codec BindRun :=
  Rec.of BindRun.mk |>.fld bitsC (·.cmd) |>.fld natC (·.row) |>.fld (listC (optC bitsC)) (·.es) |>.fld (listC bitsC) (·.vals)
    |>.fld (listC natC) (·.marks) |>.fld natC (·.absent) |>.fld bitsC (·.fl)

def islandJobC : Codec IslandJob :=
  let flush := pairC (listC bitsC) (pairC (optC natC) bitsC)
  ⟨fun x => match x with
    | .none => [0] | .flush vs f w => 1 :: flush.enc (vs, f, w) | .bind r => 2 :: bindRunC.enc r | .fence n => [3, n]
    | .finish n w => [4, n, w.toNat],
   fun l => match l with
    | 0 :: l => some (.none, l) | 1 :: l => (flush.dec l).map fun b => (.flush b.1.1 b.1.2.1 b.1.2.2, b.2)
    | 2 :: l => (bindRunC.dec l).map fun r => (.bind r.1, r.2) | 3 :: n :: l => some (.fence n, l)
    | 4 :: n :: w :: l => some (.finish n (BitVec.ofNat 32 w), l)
    | _ => none⟩

def transferC : Codec Transfer :=
  Rec.of Transfer.mk |>.fld boolC (·.spill) |>.fld natC (·.slot) |>.fld natC (·.entry) |>.fld natC (·.due) |>.fld boolC (·.asked)

def islandC : Codec Island :=
  Rec.of Island.mk |>.fld boolC (·.bound) |>.fld bitsC (·.setup) |>.fld (optC (pairC natC natC)) (·.mregSlot) |>.fld natC (·.spillVa)
    |>.fld natC (·.spillN) |>.fld (listC pinC) (·.spillPins) |>.fld natC (·.ckpt) |>.fld bitsC (·.homeAt) |>.fld boolC (·.ringFed)
    |>.fld (sparseC iSlotC) (·.slots) |>.fld (sparseC bitsC) (·.dir) |>.fld natC (·.cmdNo) |>.fld (listC mmaC) (·.mmas)
    |>.fld islandJobC (·.job) |>.fld (optC transferC) (·.xfer) |>.fld (optC natC) (·.spillWait) |>.fld natC (·.doneCmds)
    |>.fld natC (·.idle) |>.fld (optC natC) (·.spilledNow) |>.fld boolC (·.found) |>.fld (listC natC) (·.heldNew)
    |>.fld (listC natC) (·.pendImg) |>.fld (sparseC boolC) (·.ckptSide) |>.fld (listC natC) (·.ckptNew)
    |>.fld (sparseC natC) (·.overhang) |>.fld (sparseC natC) (·.pastMark) |>.fld (sparseC natC) (·.discard) |>.fld portsC (·.io)

def stXferC : Codec StXfer :=
  Rec.of StXfer.mk |>.fld (sparseC bitsC) (·.data) |>.fld (sparseC natC) (·.refused) |>.fld natC (·.rd) |>.fld natC (·.wr)
    |>.fld natC (·.phase) |>.fld natC (·.pos) |>.fld (sparseC natC) (·.gmask)

def sCmdC : Codec SCmd :=
  Rec.of SCmd.mk |>.fld natC (·.id) |>.fld natC (·.form) |>.fld bitsC (·.word) |>.fld natC (·.acc) |>.fld natC (·.batch)
    |>.fld natC (·.status) |>.fld bitsC (·.flags) |>.fld natC (·.cut) |>.fld (optC natC) (·.mark) |>.fld stXferC (·.x)

def hopC : Codec Hop :=
  Rec.of Hop.mk |>.fld natC (·.coll) |>.fld natC (·.b) |>.fld natC (·.step) |>.fld natC (·.src) |>.fld natC (·.dst)
    |>.fld natC (·.scale) |>.fld (listC bitsC) (·.vals)

def buckDeclC : Codec BuckDecl :=
  Rec.of BuckDecl.mk |>.fld natC (·.wire) |>.fld (listC bitsC) (·.src) |>.fld (listC bitsC) (·.dst) |>.fld (listC bitsC) (·.scale)
    |>.fld (listC bitsC) (·.errmem)

def buckRunC : Codec BuckRun :=
  Rec.of BuckRun.mk |>.fld natC (·.step) |>.fld natC (·.level) |>.fld (listC bitsC) (·.vals) |>.fld boolC (·.up) |>.fld bitsC (·.flags)
    |>.fld natC (·.scale) |>.fld stXferC (·.x)

def keptC : Codec Kept :=
  Rec.of Kept.mk |>.fld natC (·.b) |>.fld natC (·.step) |>.fld (optC (pairC (listC bitsC) (listC bitsC))) (·.enc)
    |>.fld (optC (pairC natC (listC bitsC))) (·.wire) |>.fld bitsC (·.flags) |>.fld (listC hopC) (·.hops) |>.fld (optC natC) (·.freeAt)

def streamerC : Codec Streamer :=
  Rec.of Streamer.mk |>.fld boolC (·.bound) |>.fld (sparseC bitsC) (·.spbs) |>.fld (sparseC (listC pinC)) (·.pins) |>.fld natC (·.ctx)
    |>.fld (listC natC) (·.ringTo) |>.fld (optC (pairC natC (pairC natC natC))) (·.coll) |>.fld (listC natC) (·.peers)
    |>.fld (sparseC (optC buckDeclC)) (·.bucks) |>.fld natC (·.nextCmd) |>.fld (listC sCmdC) (·.cmds) |>.fld natC (·.batchNo)
    |>.fld natC (·.opened) |>.fld boolC (·.hasInject) |>.fld (listC (pairC natC (optC natC))) (·.closing)
    |>.fld (listC natC) (·.evicted) |>.fld natC (·.ringSent) |>.fld (sparseC (optC buckRunC)) (·.runs) |>.fld (listC keptC) (·.kept)
    |>.fld (listC hopC) (·.hops) |>.fld (listC (pairC natC (pairC natC natC))) (·.used) |>.fld boolC (·.draining) |>.fld portsC (·.io)

def planeStateC : Codec PlaneState :=
  Rec.of PlaneState.mk |>.fld (sparseC bitsC) (·.routes) |>.fld natC (·.mask) |>.fld (listC (pairC natC natC)) (·.hands)
    |>.fld (sparseC bitsC) (·.shadow) |>.fld boolC (·.valid) |>.fld (listC bitsC) (·.rx) |>.fld natC (·.schedLen)
    |>.fld (pairC boolC boolC) (·.binds) |>.fld natC (·.status) |>.fld boolC (·.acked) |>.fld boolC (·.occupied)
    |>.fld (optC natC) (·.drainCut) |>.fld boolC (·.drn)

def snapValC : Codec SnapVal :=
  ⟨fun x => match x with
    | .elem v => 0 :: elemC.enc v | .ag v => 1 :: agC.enc v | .rep v => 2 :: repeatC.enc v | .sched v => 3 :: schedNodeC.enc v
    | .island v => 4 :: islandC.enc v | .streamer v => 5 :: streamerC.enc v,
   fun l => match l with
    | 0 :: l => (elemC.dec l).map fun v => (.elem v.1, v.2) | 1 :: l => (agC.dec l).map fun v => (.ag v.1, v.2)
    | 2 :: l => (repeatC.dec l).map fun v => (.rep v.1, v.2) | 3 :: l => (schedNodeC.dec l).map fun v => (.sched v.1, v.2)
    | 4 :: l => (islandC.dec l).map fun v => (.island v.1, v.2) | 5 :: l => (streamerC.dec l).map fun v => (.streamer v.1, v.2)
    | _ => none⟩

def snapC : Codec Snap :=
  Rec.of Snap.mk |>.fld natC (·.cut) |>.fld snapValC (·.val)
    |>.fld (listC (pairC natC (pairC natC (pairC pSlotC (listC combCmdC))))) (·.contribs) |>.fld (listC (pairC natC homeC)) (·.homes)

end Sys2Proof.Machine
end

