-- ==== Sys2Proof/Machine/Sched.lean ====
section
/-! DEFINITION. Machine/Sched: rule eligibility, the choice of a round, pointers and counters (R77-R80), the derivation of
conflicts (R81, R82), the active plane of a tile (R338), and the landing of results (R87). -/

namespace Sys2Proof.Machine

/-! ### What a rule names, reads and writes (R77, R81) -/

/-! The state items of R81 as numbers: d registers, predicates, input heads, outputs, local store words, FFLG and HALT. -/
namespace Item
def d (k : Nat) : Nat := k
def p (k : Nat) : Nat := 16 + k
def head (k : Nat) : Nat := 32 + k
def out (k : Nat) : Nat := 40 + k
def ls (k : Nat) : Nat := 64 + k
def fflg : Nat := 200
def halt : Nat := 201
end Item

def bitsOf {n : Nat} (m : BitVec n) : List Nat := (List.range n).filter m.getLsbD

/-- The items that a source specifier names. -/
def srcItems (x : Body) (code : BitVec 5) : List Nat :=
  let c := code.toNat
  if c < 16 then [Item.d c]
  else if c < 20 then [Item.head (c - 16)]
  else if c = 25 then [Item.head x.guard.tc.toNat]
  else []

def destItems (code : BitVec 5) : List Nat :=
  let c := code.toNat
  if c < 16 then [Item.d c] else if 20 ≤ c && c < 24 then [Item.out (c - 20)] else []

/-- The local store words that LLD or LST names: one word when A is ZERO, else every word (R81, R112). -/
def lsItems (x : Body) : List Nat :=
  match x with
  | .ei y => if y.a = 24 then [Item.ls (y.imm.toNat % 64)] else (List.range 64).map Item.ls
  | _ => []

def allPreds : List Nat := (List.range 8).map Item.p

/-- The reads of R81. -/
def readSet (o : OpInfo) (x : Body) : List Nat :=
  let g := x.guard
  (bitsOf g.pm).map Item.p ++ (bitsOf g.ir).map Item.head ++ (bitsOf g.orr).map Item.out
    ++ (if g.te = 1 then [Item.head g.tc.toNat] else [])
    ++ (x.specs o).flatMap (fun u => match u.1 with
        | .src | .head => srcItems x u.2
        | .acc => [Item.d u.2.toNat]
        | _ => [])
    ++ (match o.op with
        | 0x09 => [Item.p x.f.toNat]
        | 0x3C => [Item.d x.f.toNat]
        | 0x19 => if x.f = 1 then [] else allPreds
        | 0x1B => lsItems x
        | 0x2B => if x.f = 0 then [Item.fflg] else []
        | _ => [])

/-- The writes of R81. -/
def writeSet (o : OpInfo) (x : Body) : List Nat :=
  (x.specs o).flatMap (fun u => match u.1 with
      | .dst | .out | .acc => destItems u.2
      | .pair => [Item.d u.2.toNat, Item.d (u.2.toNat + 1)]
      | _ => [])
    ++ (inputsOf x.dq).map Item.head
    ++ (if puAction x.pu = 0 then [] else [Item.p (puIndex x.pu)])
    ++ (match o.op with
        | 0x19 => if x.f = 0 then [] else allPreds
        | 0x1C => lsItems x
        | 0x2B => if x.f = 0 then [] else [Item.fflg]
        | 0x1F => [Item.halt]
        | _ => [])

/-- R82: two rules conflict when one writes what the other reads or writes, or both need the M or the C lane. -/
def conflicts (a b : OpInfo × Body) : Bool :=
  let hits (w xs : List Nat) : Bool := w.any xs.contains
  let (ra, wa) := (readSet a.1 a.2, writeSet a.1 a.2)
  let (rb, wb) := (readSet b.1 b.2, writeSet b.1 b.2)
  let (_, ma, ca) := a.2.lanes a.1
  let (_, mb, cb) := b.2.lanes b.1
  hits wa (rb ++ wb) || hits wb (ra ++ wa) || (ma = 1 && mb = 1) || (ca = 1 && cb = 1)

/-- The rule of a slot. VOID is none; so is a word without fields or of a mason core alone, which firmware can commit past the loader's
check. Another malformed word runs by its fields (DESIGN CHOICE, log 37). -/
def Elem.rule (el : Elem) (slot : Nat) : Option (OpInfo × Body) :=
  match fieldsOf (el.slots.get 0 slot) with
  | .ok r => if (opcodeOf (el.slots.get 0 slot)).toNat < 0x40 then some r else none
  | .error _ => none

/-- The derived conflict matrix of R82. -/
def deriveConflicts (rules : Nat → Option (OpInfo × Body)) (a : Nat) : BitVec 16 :=
  (List.range 16).foldl (fun m b =>
    match rules a, rules b with
    | some x, some y => if a ≠ b && conflicts x y then m ||| 1#16 <<< b else m
    | _, _ => m) 0

/-! ### Eligibility (R27, R77) -/

/-- The guard holds at the start of round n (R27). -/
def guardHolds (el : Elem) (n : Nat) (g : Guard) : Bool :=
  (el.p ^^^ g.pv) &&& g.pm == 0
    && (bitsOf g.ir).all (fun k => (el.head? n k).isSome)
    && (bitsOf g.orr).all el.room
    && (g.te = 0 || el.headTag n g.tc.toNat == g.tv)

/-- No register or predicate that the rule names carries a busy mark (R77). -/
def notBusy (el : Elem) (o : OpInfo) (x : Body) : Bool :=
  (readSet o x ++ writeSet o x).all fun i =>
    if i < 16 then !el.busyD.getLsbD i else if i < 24 then !el.busyP.getLsbD (i - 16) else true

/-- R77. -/
def eligible (el : Elem) (n slot : Nat) : Bool :=
  match el.rule slot with
  | some (o, x) => !el.halt && guardHolds el n x.guard && notBusy el o x
  | none => false

/-! ### The choice (R78) -/

/-- Rotation(p, S) of R78. -/
def rotation (p : Nat) (slots : Nat → Bool) : List Nat := ((List.range 16).map fun k => (p + k) % 16).filter slots

/-- The walk: each slot with its part of the order, 4 for the aged rules and else its class. -/
def walkOrder (el : Elem) (elig : List Nat) : List (Nat × Nat) :=
  let aged (k : Nat) : Bool := (el.slotSt k).age = 64
  ((rotation (el.ptr.get 0 4) fun k => elig.contains k && aged k).map fun k => (k, 4))
    ++ [3, 2, 1, 0].flatMap fun c =>
      (rotation (el.ptr.get 0 c) fun k => elig.contains k && !aged k && (el.slotSt k).cls == c).map fun k => (k, c)

/-- What the walk has chosen so far, with the lanes used. -/
structure Chosen where
  list : List (Nat × Nat) := []
  na : Nat := 0
  nm : Nat := 0
  nc : Nat := 0

def chooseStep (el : Elem) (c : Chosen) (s : Nat × Nat) : Chosen :=
  match el.rule s.1 with
  | some (o, x) =>
    let (la, lm, lc) := x.lanes o
    if c.list.length < 4 && c.list.all (fun t => !(el.conflict.get 0 s.1).getLsbD t.1)
        && c.na + la ≤ 2 && c.nm + lm ≤ 1 && c.nc + lc ≤ 1 then
      { list := c.list ++ [s], na := c.na + la, nm := c.nm + lm, nc := c.nc + lc }
    else c
  | none => c

/-- The slots that a round chooses, in walk order. -/
def choose (el : Elem) (order : List (Nat × Nat)) : List (Nat × Nat) := (order.foldl (chooseStep el) {}).list

/-- UpdatePointers of R80: each part of the order moves its pointer past the first of its rules that fired. -/
def updatePointers (el : Elem) (chosen : List (Nat × Nat)) : Elem :=
  (List.range 5).foldl (fun el part =>
    match chosen.find? (·.2 == part) with
    | some (slot, _) => { el with ptr := el.ptr.put 0 part ((slot + 1) % 16) }
    | none => el) el

/-- UpdateCounters of R80; HALT sets AGE to 0 for every slot (R91). -/
def updateCounters (el : Elem) (elig : List Nat) (chosen : List (Nat × Nat)) : Elem :=
  (List.range 16).foldl (fun el k =>
    let st := el.slotSt k
    let age :=
      if el.halt || el.ecfg.getLsbD 16 || chosen.any (·.1 == k) || !elig.contains k then 0 else min (st.age + 1) 64
    el.setSlotSt k { st with age := age }) el

/-! ### The active plane (R15, R338) -/

/-- A region holds a running course that no freeze stops. -/
def Region.runs (r : Region) : Bool := r.live && r.running && !r.frozen

/-- The plane granted to a die in this round. -/
def grantedPlane (s : State) (die : Nat) : Nat :=
  let d := s.die die
  if d.frame.any (fun p => p.2.getLsbD 63) then ((d.frame.get 0 d.cur).extractLsb' 16 2).toNat else 0

/-- A running, unfrozen course stands in a plane of a tile. -/
def planeRuns (s : State) (pk : Nat) : Bool :=
  match s.regionOf pk with
  | some r => (s.region r).runs
  | none => false

/-- The plane that a tile runs in this round: the granted one, else the lowest that holds a running course. -/
def activePlane (s : State) (tile : Nat) : Option Nat :=
  let g := grantedPlane s (Key.dieOfTile tile)
  if planeRuns s (tile * 4 + g) then some g
  else (List.range 4).find? fun p => planeRuns s (tile * 4 + p)

def planeActive (s : State) (pk : Nat) : Bool := activePlane s (Key.tileOf pk) == some (Key.planeOf pk)

/-! ### Results (R87) -/

/-- One landing written: the registers and the predicate take their values and lose their busy marks. -/
def Elem.land (el : Elem) (l : Landing) : Elem :=
  let el := l.regs.foldl (fun el r =>
    { el.setReg r.1 r.2 with busyD := el.busyD &&& ~~~(1#16 <<< r.1) }) el
  match l.pred with
  | some (k, b) => { el.setPred k b with busyP := el.busyP &&& ~~~(1#8 <<< k) }
  | none => el

/-- R87. A long-latency result writes its register and predicate and clears the busy marks; an ETRAP's event is posted (R113). -/
def execResultLands (e : Nat) (s : State) : Out :=
  let el := s.elem e
  let (due, later) := el.landing.partition fun l => l.due ≤ s.round
  let s := s.setElem e (due.foldl Elem.land { el with landing := later })
  .next <| due.foldl (fun s l =>
    match l.ev with
    | some r => s.post (Key.dieOfElem e) { r with cyc := BitVec.ofNat 64 s.round }
    | none => s) s

end Sys2Proof.Machine
end

