-- ==== Sys2Proof/Machine/Mem.lean ====
section
/-! DEFINITION. Machine/Mem: places (R184), the bytes of memory, the walk (R185-R188) and the translation caches (R189). -/

namespace Sys2Proof.Machine

/-! ### Places -/

namespace Place

def device (p : Nat) : Nat := p / 2 ^ 48 % 4096
def space (p : Nat) : Nat := p / 2 ^ 45 % 8
def die (p : Nat) : Nat := p / 2 ^ 43 % 4
/-- Bits [hi:lo] of a place. -/
def bits (p hi lo : Nat) : Nat := p / 2 ^ lo % 2 ^ (hi + 1 - lo)
/-- The tile of a place of space 2, 4 or 5. -/
def tile (p : Nat) : Nat := Key.tile (die p) (bits p 42 38) (bits p 37 33)
/-- The place without its device field. -/
def here (p : Nat) : Nat := p % 2 ^ 48
/-- The place of a tile memory offset. -/
def ofTile (t off : Nat) : Nat :=
  2 * 2 ^ 45 + Key.dieOfTile t * 2 ^ 43 + Key.rowOfTile t * 2 ^ 38 + Key.colOfTile t * 2 ^ 33 + off

end Place

/-- The bytes of a unit's window in configuration space (R298, R328). -/
def windowSize (unit : Nat) : Nat :=
  if unit < 16 then 0x380
  else match unit with
    | 16 => 0x800 | 17 | 18 => 0x40 | 19 => 0x4 | 20 => 0x404 | 21 => 0x4 | 22 => 0x200 | 23 => 0x800 | _ => 0

/-- A place of this device is valid (R184): no bit set that its space requires to be zero, a vault offset below 0xC0_0000, a
keystone offset within the range mapped at that tile, a unit and an offset that R297 gives. -/
def placeValid (s : State) (p : Nat) : Bool :=
  match Place.space p with
  | 0 => Place.bits p 44 39 == 0
  | 1 => Place.bits p 36 24 == 0 && Place.bits p 23 0 < 0xC00000
  | 2 => Place.bits p 32 16 == 0
  | 3 => Place.bits p 35 19 == 0 && Place.bits p 40 36 < 28
  | 4 => Place.bits p 32 12 == 0
      && (let k := s.kstone (16384 + Place.tile p); k.mapped && Place.bits p 11 0 < 4 * k.words)
  | 5 => Place.bits p 24 16 == 0 && Place.bits p 29 25 < 24 && Place.bits p 15 0 < windowSize (Place.bits p 29 25)
  | 6 => true
  | _ => false

/-- DEVNUM (R364): the device's own number once it is valid. -/
def ownDevice (s : State) : Nat := if s.devnum.getLsbD 16 then s.devnum.toNat % 4096 else 0

/-- A place of this device (R184). -/
def isOwn (s : State) (p : Nat) : Bool := Place.device p == ownDevice s

/-! ### Banks of tile memory (R177) -/

/-- The granule and the bank of a place of tile memory. -/
def granuleOf (p : Nat) : Nat := Place.here p % 65536 / 16
def bankOf (p : Nat) : Nat := Place.here p % 65536 / 4096
def isTileMem (s : State) (p : Nat) : Bool := isOwn s p && Place.space p == 2

/-- A bank serves one granule in a round (R177): it has served none in this round, or this one. -/
def State.bankTurn (s : State) (p : Nat) : Bool :=
  !isTileMem s p || match (s.tile (Place.tile p)).served.find? (·.1 == bankOf p) with
    | some (_, r, g) => r != s.round || g == granuleOf p
    | none => true

/-- The vault of a place (R184). -/
def vaultOf (p : Nat) : Nat := Place.bits p 42 37

/-- The bank of a place serves its granule in this round; a vault has been accessed in it (R405). -/
def State.takeTurn (s : State) (p : Nat) : State :=
  if isTileMem s p then
    let t := s.tile (Place.tile p)
    s.setTile (Place.tile p) { t with served := t.served.insert (bankOf p) (s.round, granuleOf p) }
  else if isOwn s p && Place.space p == 1 then
    let d := s.die (Place.die p)
    s.setDie (Place.die p) { d with vaultAt := d.vaultAt.insert (vaultOf p) (s.round + 1) }
  else s

/-! ### Bytes -/

/-- What an unlisted address of memory reads as: tile memory is zero after reset and after a scrub (R183, R408); the model
fixes zero for HBM and vaults too (log 5). -/
def memDefault : Byte := 0

/-- The canonical form of memory: addresses strictly rising, and no entry equal to what an unlisted address reads as. -/
def Memory.wf (m : Sparse Byte) : Bool := m.wf memDefault

namespace State

def byte (s : State) (p : Nat) : Byte := s.mem.get memDefault (Place.here p)
def setByte (s : State) (p : Nat) (v : Byte) : State := { s with mem := s.mem.put memDefault (Place.here p) v }

/-- n bytes from a place upward. -/
def bytes (s : State) (p n : Nat) : List Byte := (List.range n).map fun k => s.byte (p + k)

/-- Bytes placed from a place upward. -/
def putBytes (s : State) (p : Nat) : List Byte → State
  | [] => s
  | b :: bs => (s.setByte p b).putBytes (p + 1) bs

/-- A write of n bytes ends an error of the dwords that it covers whole (R405, log 18). -/
def cleanse (s : State) (p n : Nat) : State :=
  { s with eccBad := s.eccBad.without fun g => (Place.here p + 7) / 8 ≤ g && g < (Place.here p + n) / 8 }

/-- Bytes written from a place upward. -/
def setBytes (s : State) (p : Nat) (bs : List Byte) : State := (s.putBytes p bs).cleanse p bs.length

end State

/-- The little-endian value of bytes (R2). -/
def leNat : List Byte → Nat
  | [] => 0
  | b :: bs => b.toNat + 256 * leNat bs

/-- The n low bytes of a value, little-endian (R2). -/
def leBytes : Nat → Nat → List Byte
  | 0, _ => []
  | n + 1, v => BitVec.ofNat 8 v :: leBytes n (v / 256)

/-- Little-endian reads and writes of n bytes, the one place where the byte order is decided (R2). -/
def State.read (s : State) (p n : Nat) : Nat := leNat (s.bytes p n)
def State.write (s : State) (p n v : Nat) : State := s.setBytes p (leBytes n v)

/-- A byte of memory holds an uncorrectable error (R405): its dword is marked with 2. -/
def State.eccAt (s : State) (p n : Nat) : Bool :=
  (List.range n).any fun k => 2 ≤ s.eccBad.get 0 (Place.here (p + k) / 8)

/-- The dwords of n bytes that hold a correctable error: they are marked with 1. -/
def State.softIn (s : State) (p n : Nat) : List Nat :=
  s.eccBad.keys.filter fun g => s.eccBad.get 0 g = 1 && Place.here p / 8 ≤ g && g ≤ (Place.here p + n - 1) / 8

/-- A read of n bytes corrects the correctable errors there and counts them at their die, and REPLACE-REQUESTED follows at 2 ^ 20 (R405,
R406, R407; log 40). -/
def State.corrected (s : State) (p n : Nat) : State :=
  match if isOwn s p then s.softIn p n else [] with
  | [] => s
  | gs =>
    let d := s.die (Place.die p)
    let ce := min (d.ce + gs.length) (2 ^ 64 - 1)
    ({ s with eccBad := s.eccBad.without gs.contains } : State).setDie (Place.die p) { d with ce := ce, rr := d.rr || decide (2 ^ 20 ≤ ce) }

/-! ### Requests to other devices -/

/-- A request leaves for another device (R367). -/
def State.dltSend (s : State) (dev place : Nat) (op : DltOp) (src : DltSrc) : State :=
  { s with dltOut := s.dltOut ++ [⟨s.nextTicket, dev, place, op, src, s.round⟩], nextTicket := s.nextTicket + 1 }

/-! ### The walk -/

/-- The outcome of a walk (R187). -/
inductive WalkRes where
  | notPresent (lv : Nat)
  | malformed (lv : Nat)
  | leaf (lv : Nat) (dword : Dword)
  /-- The entry at a place holds an uncorrectable error (R405). -/
  | ecc (lv place : Nat)
  deriving DecidableEq, Repr

/-- The lowest VA bit that a level indexes, its number of index bits, and the size of its table (R185). -/
def levelShift : Nat → Nat
  | 0 => 42 | 1 => 33 | 2 => 29 | 3 => 21 | _ => 16
def levelBits : Nat → Nat
  | 0 => 14 | 1 => 9 | 2 => 4 | 3 => 8 | _ => 5

/-- PageBits of R187 for a leaf at a level. -/
def pageBits (lv : Nat) : Nat := levelShift lv

/-- A table stands aligned to its size in the HBM or the vaults of the device itself (R185). -/
def tableOk (s : State) (lv t : Nat) : Bool :=
  isOwn s t && Place.space t ≤ 1 && placeValid s t && t % (8 * 2 ^ levelBits lv) == 0

/-- The SIZE a leaf of a level carries (R185, R186). -/
def leafSize : Nat → Nat
  | 1 => 4 | 2 => 3 | 3 => 2 | 4 => 1 | _ => 8

/-- The page place of a leaf lies inside one space's valid layout (R186, R187); a keystone page has offset 0. -/
def pageOk (s : State) (lv page : Nat) : Bool :=
  match Place.space page with
  | 0 => Place.bits page 44 39 == 0
  | 1 => 3 ≤ lv && placeValid s page
  | 4 => lv == 4 && Place.bits page 32 12 == 0 && Place.bits page 11 0 == 0
  | 7 => false
  | _ => lv == 4 && placeValid s page

/-- One entry of a table at level `lv`: malformed as R187 lists it. -/
def entryMalformed (s : State) (lv : Nat) (e : Nat) : Bool :=
  let size := e / 2 ^ 55 % 8
  if size = 0 then
    lv == 4 || e / 2 ^ 58 % 32 != 0 || !tableOk s (lv + 1) (e % 2 ^ 55 * 32)
  else
    let frame := e % 2 ^ 44
    size != leafSize lv || e / 2 ^ 44 % 2 ^ 11 != 0 || frame % 2 ^ (pageBits lv - 16) != 0 || !pageOk s lv (frame * 65536)

/-- The place of the entry that a level reads of a table at `t` (R185). -/
def entryPlace (va lv t : Nat) : Nat := t + va / 2 ^ levelShift lv % 2 ^ levelBits lv * 8

/-- Walk of R187 from level `lv`, whose table stands at `t`; `n` is the number of levels left. -/
def walkFrom (s : State) (va : Nat) : Nat → Nat → Nat → WalkRes
  | 0, lv, _ => .malformed lv
  | n + 1, lv, t =>
    let p := entryPlace va lv t
    let e := s.read p 8
    if s.eccAt p 8 then .ecc lv p
    else if e / 2 ^ 63 % 2 = 0 then .notPresent lv
    else if entryMalformed s lv e then .malformed lv
    else if e / 2 ^ 55 % 8 ≠ 0 then .leaf lv (BitVec.ofNat 64 e)
    else walkFrom s va n (lv + 1) (e % 2 ^ 55 * 32)

/-- Walk of R187 in a context (R299): an entry with V = 0 is NOT-PRESENT at L0. -/
def walk (s : State) (va ctx : Nat) : WalkRes :=
  let root := (s.ctxTable.get 0 ctx).toNat
  if root / 2 ^ 63 % 2 = 0 then .notPresent 0
  else if !tableOk s 0 (root % 2 ^ 43 * 2 ^ 17) then .malformed 0
  else walkFrom s va 5 0 (root % 2 ^ 43 * 2 ^ 17)

/-- The entries that a walk reads. -/
def walkReads (s : State) (va : Nat) : Nat → Nat → Nat → List Nat
  | 0, _, _ => []
  | n + 1, lv, t =>
    let p := entryPlace va lv t
    let e := s.read p 8
    p :: (if e / 2 ^ 63 % 2 = 1 && !entryMalformed s lv e && e / 2 ^ 55 % 8 == 0 then walkReads s va n (lv + 1) (e % 2 ^ 55 * 32) else [])

/-- A walk corrects and counts the correctable errors of the entries that it reads (R405). -/
def walkCorrected (s : State) (va ctx : Nat) : State :=
  if s.eccBad.isEmpty then s
  else
    let root := (s.ctxTable.get 0 ctx).toNat
    if root / 2 ^ 63 % 2 = 1 && tableOk s 0 (root % 2 ^ 43 * 2 ^ 17) then
      (walkReads s va 5 0 (root % 2 ^ 43 * 2 ^ 17)).foldl (fun s p => s.corrected p 8) s
    else s

/-- Fields of a leaf (R186). -/
def leafR (d : Dword) : Bool := d.getLsbD 62
def leafW (d : Dword) : Bool := d.getLsbD 61
def leafA (d : Dword) : Bool := d.getLsbD 60
def leafG (d : Dword) : Bool := d.getLsbD 59
def leafM (d : Dword) : Bool := d.getLsbD 58

/-- The place of an address through a leaf at a level (R187). -/
def leafPlace (lv : Nat) (d : Dword) (va : Nat) : Nat := d.toNat % 2 ^ 44 * 65536 + va % 2 ^ pageBits lv

/-! ### Translation caches -/

/-- A cached leaf serves an address in a context (R189). -/
def Leaf.serves (l : Leaf) (va ctx : Nat) : Bool :=
  l.va / 2 ^ pageBits l.level == va / 2 ^ pageBits l.level && (leafG l.dword || l.ctx == ctx)

def findLeaf (tlb : List Leaf) (va ctx : Nat) : Option Leaf := tlb.find? fun l => l.serves va ctx

/-- A leaf enters a cache of `cap` entries; a full cache replaces an entry of its own choice, a free value (R189, log 4). -/
def fillLeaf (cap ctr : Nat) (tlb : List Leaf) (l : Leaf) : List Leaf :=
  if tlb.length < cap then tlb ++ [l] else tlb.set ((Config.freeWord ctr).toNat % cap) l

/-- A translation of a mason core: through its own cache and the walker, filling the cache (R296). -/
def translate (s : State) (c va : Nat) : State × WalkRes :=
  let k := s.core c
  let ctx := k.mctx.toNat % 4096
  match findLeaf k.tlb va ctx with
  | some l => (s, .leaf l.level l.dword)
  | none =>
    let r := walk s va ctx
    let s := walkCorrected s va ctx
    match r with
    | .leaf lv d =>
      (({ s with freeCtr := s.freeCtr + 1 } : State).setCore c { k with tlb := fillLeaf 64 s.freeCtr k.tlb ⟨ctx, va, lv, d⟩ },
        .leaf lv d)
    | r => (s, r)

end Sys2Proof.Machine
end

