-- ==== Sys2Proof/Machine/Keystones.lean ====
section
/-! DEFINITION. Machine/Keystones: keystones (R199-R215): what an update does to its word, the instructions AMO, AMOR, AMOC
and AMOF, the request port, and the events of keystones. -/

namespace Sys2Proof.Machine

open Sys2Proof.Machine.Num

/-! ### Updates -/

/-- An integer update of R206: the new word, and whether ADDS clamped. -/
def ksInt (f : Nat) (o b : Word) : Word × Bool :=
  match f with
  | 0 => (o + b, false)
  | 1 => if o.toNat + b.toNat < 2 ^ 32 then (o + b, false) else (0xFFFFFFFF, true)
  | 2 => (IntAlu.min 32 o b, false)
  | 3 => (IntAlu.max 32 o b, false)
  | 4 => (o &&& b, false)
  | 5 => (o ||| b, false)
  | 6 => (o ^^^ b, false)
  | _ => (b, false)

/-- An AMOF update of R207. -/
def ksFloat (f rm : Nat) (o b : Word) : Word × Flags :=
  match f with
  | 0 => let r := FpAlu.fadd (CombAlu.env rm) o b
         (r.val, r.fl)
  | 1 => let r := minMax fp32 .max false o.toNat b.toNat
         (r.word, r.fl)
  | 2 => let r := minMax fp32 .min false o.toNat b.toNat
         (r.word, r.fl)
  | _ => let r := FpAlu.add2 bf16 (CombAlu.env rm) o b 0
         (r.val, r.fl)

/-- A reply of a keystone: a clean word, or an ERR token with its code and the word index (R210). -/
def ksClean (w : Word) : Token := ⟨0, w.setWidth 64, 0⟩
def ksErr (code idx : Nat) : Token := ⟨6, BitVec.ofNat 64 (code * 2 ^ 24 + idx), 0⟩

/-- What applying one update gives: the range, and the replies it sends (R206, R207, R212, R213). -/
structure KStep where
  ks      : Keystone
  replies : List (KSrc × Token)

/-- Every held arrival of a word, and the rest (R212, R213). -/
def heldOf (k : Keystone) (idx : Nat) : List KSrc := (k.held.filter (·.1 == idx)).map (·.2)
def heldRest (k : Keystone) (idx : Nat) : List (Nat × KSrc) := k.held.filter (·.1 != idx)

/-- A re-initialisation of a barrier word (R213): the held arrivals break, the new word stands, BRK is set where one
waited (R200). -/
def barrierInit (k : Keystone) (idx : Nat) (w : Word) : KStep :=
  let broken := heldOf k idx
  { ks := { k with mem := k.mem.put 0 idx w, held := heldRest k idx,
                   sticky := if broken.isEmpty then k.sticky else k.sticky ||| 0b1000000 }
    replies := broken.map fun src => (src, ksErr 5 idx) }

/-- An arrival at a barrier word (R212). -/
def barrierArrive (k : Keystone) (idx : Nat) (src : KSrc) : KStep :=
  let w := (k.mem.get 0 idx).toNat
  let t := w / 2 ^ 20
  let a := w / 2 ^ 8 % 2 ^ 12
  let g := w % 256
  if t = 0 || t ≤ a then ⟨k, [(src, ksErr 6 idx)]⟩
  else if a + 1 < t then
    ⟨{ k with mem := k.mem.put 0 idx (BitVec.ofNat 32 (t * 2 ^ 20 + (a + 1) * 2 ^ 8 + g)), held := k.held ++ [(idx, src)] }, []⟩
  else
    let reply := ksClean (BitVec.ofNat 32 (t * 2 ^ 20 + t * 2 ^ 8 + g))
    ⟨{ k with mem := k.mem.put 0 idx (BitVec.ofNat 32 (t * 2 ^ 20 + (g + 1) % 256)), held := heldRest k idx },
      (heldOf k idx ++ [src]).map fun x => (x, reply)⟩

/-- The status word of a range (R200). -/
def Keystone.statusWord (k : Keystone) : Word :=
  BitVec.ofNat 32 (k.fwd.isSome.toNat * 2 ^ 31 + k.hold.toNat * 2 ^ 30 + k.ss.toNat * 2 ^ 29 + k.bar.toNat * 2 ^ 28 + k.rm * 2 ^ 25
    + min k.waitQ.length 64 * 2 ^ 16 + k.sticky.toNat)

/-- One update applied at its keystone (R204, R206, R207, R212, R213, R318). -/
def Keystone.apply (k : Keystone) (a : KArr) : KStep :=
  let idx := a.cmd.idx
  let o := k.mem.get 0 idx
  let write (w : Word) (sat : BitVec 7) : Keystone := { k with mem := k.mem.put 0 idx w, sticky := k.sticky ||| sat }
  match a.cmd.op with
  | .int f =>
    if k.bar then
      match f with
      | 0 => barrierArrive k idx a.src
      | 7 => let r := barrierInit k idx a.cmd.b
             ⟨r.ks, r.replies ++ [(a.src, ksClean o)]⟩
      | _ => ⟨k, [(a.src, ksClean o)]⟩
    else
      let (n, sat) := ksInt f o a.cmd.b
      ⟨write n (if sat then 0b0100000 else 0), [(a.src, ksClean o)]⟩
  | .cas c =>
    if o = c then
      if k.bar then
        let r := barrierInit k idx a.cmd.b
        ⟨r.ks, r.replies ++ [(a.src, ksClean o)]⟩
      else ⟨write a.cmd.b 0, [(a.src, ksClean o)]⟩
    else ⟨k, [(a.src, ksClean o)]⟩
  | .float f =>
    let (n, fl) := ksFloat f k.rm o a.cmd.b
    ⟨write n (fl.setWidth 7), [(a.src, ksClean o)]⟩
  | .read => ⟨k, [(a.src, ksClean o)]⟩
  | .write =>
    if k.bar then
      let r := barrierInit k idx a.cmd.b
      ⟨r.ks, r.replies⟩
    else ⟨write a.cmd.b 0, []⟩
  | .status m => ⟨{ k with sticky := k.sticky &&& ~~~m }, [(a.src, ⟨0, k.statusWord.setWidth 64, 0⟩)]⟩

/-- A core takes the answer of the access that it waits for: D, PU and the next word (R318, R367). -/
def Core.answered (k : Core) (v : Dword) : Core :=
  match k.pend with
  | some p =>
    let raw := v.toNat % 2 ^ (8 * p.width)
    let x := if p.signed && raw / 2 ^ (8 * p.width - 1) = 1 then BitVec.ofInt 64 ((raw : Int) - 2 ^ (8 * p.width))
      else BitVec.ofNat 64 raw
    (({ (if p.write then k.setReg p.dreg x else k) with pend := none }).update p.pu (p.write && x != 0)).advance
  | none => k

/-- The answer of a keystone is on its way to a core that has none yet: it arrives in the round after the write (R204). -/
def Core.replied (k : Core) (due : Nat) (v : Dword) : Core :=
  { k with pend := k.pend.map fun p => if p.got.isNone then { p with got := some (due, v) } else p }

/-- A core takes the answer of a keystone in the round in which it arrives. -/
def Core.landed (k : Core) (n : Nat) : Core :=
  match k.pend.bind (·.got) with
  | some (due, v) => if due ≤ n then k.answered v else k
  | none => k

/-- The key of an element whose course has been saved under a key and is away from its plane (R351). -/
def parked (key e : Nat) : Nat := (key + 1) * 2 ^ 40 + e

/-- What an element's request port receives, wherever its course stands. -/
def State.toPort (s : State) (e : Nat) (m : KsIn) : State :=
  let take (el : Elem) : Elem := { el with ksIn := el.ksIn ++ [m] }
  let away (v : Saved) : Saved := { v with elems := v.elems.map fun x => if x.1 = e % 2 ^ 40 then (x.1, take x.2) else x }
  if e < 2 ^ 40 then s.modElem e take
  else { s with saved := s.saved.map fun v => if v.1 + 1 = e / 2 ^ 40 then (v.1, away v.2) else v }

/-- A reply that the firing asked for reaches its request port two rounds after the issue, in the round after the write
(R204); a posted command has none. -/
def deliverReply (s : State) (r : KSrc × Token) : State :=
  match r.1 with
  | .port e _ (some t) => s.toPort e (.reply (s.round + 2) t r.2)
  | .remote id dev false => { s with dltAnsOut := s.dltAnsOut ++ [(dev, id, .reply r.2)] }
  | .core c => s.setCore c ((s.core c).replied (s.round + 2) r.2.payload)
  | _ => s

/-- The news of an update to the port that sent it (R211), or the ACK of a posted update of another device (R367). -/
def deliverApplied (s : State) (src : KSrc) : State :=
  match src with
  | .port e target _ => s.modElem e fun el => { el with ksIn := el.ksIn ++ [.applied (s.round + 2) target] }
  | .remote id dev true => { s with dltAnsOut := s.dltAnsOut ++ [(dev, id, .ack)] }
  | .core c => s.setCore c ((s.core c).replied (s.round + 2) 0)
  | _ => s

def KCmd.isCas (c : KCmd) : Bool := match c.op with | .cas _ => true | _ => false

/-- The place of a word of a range in tile memory: it occupies the start of its bank, a device keystone bank 0 of its tile (R199; DESIGN
CHOICE, log 96). -/
def keystonePlace (s : State) (ks idx : Nat) : Nat :=
  ownDevice s * 2 ^ 48
    + Place.ofTile (if ks < 16384 then ks / 4 else ks - 16384) ((s.kstone ks).bank * 4096 + 4 * idx)

/-- The place of a word in keystone space (R184). -/
def keystoneSpace (s : State) (ks idx : Nat) : Nat :=
  ownDevice s * 2 ^ 48 + (Place.ofTile (ks - 16384) (4 * idx) + 2 * 2 ^ 45)

/-- A word of a range: of a tile keystone, in its bank; a device keystone holds its own (R199). -/
def keystoneWord (s : State) (ks idx : Nat) : Word :=
  if ks < 16384 then BitVec.ofNat 32 (s.read (keystonePlace s ks idx) 4) else (s.kstone ks).mem.get 0 idx

def State.setKeystoneWord (s : State) (ks idx : Nat) (v : Word) : State :=
  if ks < 16384 then s.write (keystonePlace s ks idx) 4 v.toNat
  else s.setKstone ks { s.kstone ks with mem := (s.kstone ks).mem.put 0 idx v }

/-- The place at which a word of a range may hold an error (R405). -/
def keystoneCell (s : State) (ks idx : Nat) : Nat := if ks < 16384 then keystonePlace s ks idx else keystoneSpace s ks idx

/-- A word of a range holds an uncorrectable error (R405). -/
def keystoneBad (s : State) (ks idx : Nat) : Bool := s.eccAt (keystoneCell s ks idx) 4

/-- One update issues and is applied to its word (R204). -/
def issueUpdate (s : State) (ks : Nat) (k : Keystone) (a : KArr) : State :=
  let r := ({ k with mem := Sparse.put 0 k.mem a.cmd.idx (keystoneWord s ks a.cmd.idx) }).apply a
  let w := r.ks.mem.get 0 a.cmd.idx
  let s := (s.corrected (keystoneCell s ks a.cmd.idx) 4).setKstone ks { r.ks with mem := k.mem, last := some (a.cmd.idx, s.round) }
  deliverApplied (r.replies.foldl deliverReply (s.setKeystoneWord ks a.cmd.idx w)) a.src

/-- An update whose word holds an uncorrectable error does not issue (R345, R370, R290): a core traps, another device is told, and the
port of an element waits for the rollback of its region. -/
def refuseUpdate (s : State) (ks : Nat) (k : Keystone) (a : KArr) : State :=
  let drop := s.setKstone ks k
  match a.src with
  | .core c =>
    let x := s.core c
    (drop.setCore c { x with pend := none }).takeTrap c Cause.ecc 0 ((x.pend.map (·.addr)).getD 0)
  | .remote id dev _ => { drop.countUe (Place.die (keystoneSpace s ks 0)) with dltAnsOut := s.dltAnsOut ++ [(dev, id, .ecc)] }
  | .port e _ _ => if (s.regionOf (Key.pkOfElem e)).isSome then s else drop

/-- The next update may issue: it arrived in an earlier round, nothing has issued in this round, and the word of the
previous issue stalls until two rounds after it (R204). -/
def mayIssue (n : Nat) (k : Keystone) (a : KArr) : Bool :=
  a.arr < n && match k.last with
    | none => true
    | some (idx, r) => r < n && (idx ≠ a.cmd.idx || r + 2 ≤ n)

/-- R204. A keystone issues the next arrived update, reads the word and writes it, when its bank serves it (R177). -/
def execUpdateIssue (ks : Nat) (s : State) : Out :=
  let k := s.kstone ks
  .next <| match k.inq with
    | a :: rest =>
      let p := keystonePlace s ks a.cmd.idx
      if k.mapped && mayIssue s.round k a && s.bankTurn p then
        if keystoneBad s ks a.cmd.idx then refuseUpdate s ks { k with inq := rest } a
        else issueUpdate (s.takeTurn p) ks { k with inq := rest } a
      else s
    | [] => s

/-! ### Arrivals and migration -/

/-- A command arrives at a keystone: during HOLD it enters the wait queue; with FWD set it waits to be forwarded (R214). -/
def ksArrive (s : State) (ks : Nat) (cmd : KCmd) (src : KSrc) : State :=
  let k := s.kstone ks
  let a : KArr := ⟨cmd, src, s.round⟩
  s.setKstone ks (if k.hold || k.fwd.isSome then { k with waitQ := k.waitQ ++ [a] } else { k with inq := k.inq ++ [a] })

/-- R214. The old home, its input applied, copies the words, the status and the held arrivals to the new home, clears HOLD
and sets FWD. -/
def execMigrationCopyDone (ks : Nat) (s : State) : Out :=
  let k := s.kstone ks
  .next <| match k.copyTo with
    | some dst =>
      if k.hold && k.inq.isEmpty then
        let n := s.kstone dst
        let s := s.setKstone dst { n with
          mapped := true, words := k.words, bar := k.bar, ss := k.ss, rm := k.rm, mem := k.mem, sticky := k.sticky,
          held := k.held }
        s.setKstone ks { k with hold := false, fwd := some dst, copyTo := none, held := [] }
      else s
    | none => s

/-- An update of a barrier word that may be held (R212). -/
def KArr.mayHold (a : KArr) : Bool := match a.cmd.op with | .int 0 => true | _ => false

/-- The keystone withholds credits: its wait queue is full, or its list of held arrivals would be with those that its input has taken
(R202, R212). -/
def ksWithholds (k : Keystone) : Bool :=
  64 ≤ k.waitQ.length || 4096 ≤ k.held.length + (if k.bar then k.inq.countP KArr.mayHold else 0)

/-- A range with those that forward to it, within n steps (R214). -/
def forwardsTo (s : State) : Nat → Nat → List Nat
  | 0, ks => [ks]
  | n + 1, ks => ks :: (s.kstones.filter fun k => k.2.fwd == some ks).flatMap fun k => forwardsTo s n k.1

/-- The request ports of running courses that reach a range, through old homes too (R214, R215). -/
def ksBound (s : State) (ks : Nat) : Nat := ((forwardsTo s 4 ks).map fun k => (s.kstone k).bound).sum

/-- R214. The old home forwards its oldest waiting arrival to the new home, unless that withholds. A KSST is for the range of the old
home itself, whose status shows FWD (R200). -/
def execKeystoneForward (ks : Nat) (s : State) : Out :=
  let k := s.kstone ks
  .next <| match k.fwd, k.waitQ with
    | some dst, a :: rest =>
      if (match a.cmd.op with | .status _ => true | _ => false) then s.setKstone ks { k with waitQ := rest, inq := k.inq ++ [a] }
      else if ksWithholds (s.kstone dst) then s else ksArrive (s.setKstone ks { k with waitQ := rest }) dst a.cmd a.src
    | _, _ => s

/-- A range ends (R213): every held arrival completes with BARRIER-BROKEN. -/
def breakAll (s : State) (ks : Nat) : State :=
  let k := s.kstone ks
  let s := s.setKstone ks { k with held := [], sticky := if k.held.isEmpty then k.sticky else k.sticky ||| 0b1000000 }
  k.held.foldl (fun s h => deliverReply s (h.2, ksErr 5 h.1)) s

/-! ### The request port -/

/-- The fields of the A operand (R202). -/
def ksTargetOf (a : Word) : Nat := a.toNat / 1024 % 4
def ksIndexOf (a : Word) : Nat := a.toNat % 1024

/-- The forms a barrier range accepts (R212): amor.add, amor.or, amo.swap, amor.swap and amoc. -/
def barrierForm (op : KOp) (posted : Bool) : Bool :=
  match op with
  | .int 0 => !posted
  | .int 5 => !posted
  | .int 7 => true
  | .cas _ => true
  | _ => false

/-- Commands of the port toward a target that hold a slot (R201, R211). -/
def slotsUsed (el : Elem) (t : Nat) : Nat :=
  (el.posted.filter (·.target == t)).length + el.ksOut.get 0 t
    + el.irrev.countP (fun i => i.target == t && !i.sent)

/-- The keystone of a target withholds credits; what one on another device does comes from there and is a free value (R202, log 78). -/
def targetWithholds (s : State) (tg : KsTarget) : Bool :=
  if tg.device.isSome then Config.remoteWithholds tg.place s.round else ksWithholds (s.kstone tg.range)

/-- The port refuses a command (R202). -/
def ksRefused (s : State) (e : Nat) (a : Word) (op : KOp) (posted : Bool) : Bool :=
  let el := s.elem e
  let t := ksTargetOf a
  a.toNat / 4096 != 0 || match (el.targets.find? (·.1 == t)).map Prod.snd with
    | none => true
    | some tg => tg.words ≤ ksIndexOf a || 4 ≤ slotsUsed el t || targetWithholds s tg || (tg.bar && !barrierForm op posted)

/-- AMO and AMOF (R205, R208): the port holds the command until REL. -/
def runPosted (op : Nat) (x : EA) (f : BitVec 3) (kop : KOp) (s : State) : Out :=
  let y := Body.ea x f
  runElem op y s fun e slot o =>
    let a := readSpec s e y x.a
    let b := readSpec s e y x.b
    if ksRefused s e a kop true then s.abort e slot .engineRefused
    else fireValue s e slot o y 0 false 0 0
      (fun el => { el with posted := el.posted ++ [⟨ksTargetOf a, ⟨kop, ksIndexOf a, b⟩, el.io.snapCut + 1⟩] }) none

/-- A unit of a region holds a posted effect (R19, R209): a command, a store, a FLAGF or a sink report. What a REL has released and
its port still sends in its own order (R69) is held no more. -/
def regionHolds (s : State) (r : Nat) : Bool :=
  !(s.region r).reports.isEmpty
    || s.elems.any (fun p => p.2.posted.any (fun q => (s.region r).lastRel < q.cut) && s.regionOf (Key.pkOfElem p.1) == some r)
    || s.ags.any (fun p => !p.2.held.isEmpty && s.regionOf (p.1 / 2) == some r)
    || s.streamers.any (fun p => p.2.cmds.any (·.form == 3) && s.regionOf (Key.enginePk p.1) == some r)

/-- The interval is clean for an element (R209). -/
def cleanInterval (s : State) (e : Nat) : Bool :=
  match s.regionOf (Key.pkOfElem e) with
  | some r => !regionHolds s r
  | none => true

/-- AMOR and AMOC (R205, R209): OUT-FULL, NOT-CLEAN and ENGINE-REFUSED in the order of R88; then the firing asks for an
early cut and waits for its reply. -/
def runIrrevocable (op : Nat) (x : EA) (f : BitVec 3) (kop : State → Nat → KOp) (s : State) : Out :=
  let y := Body.ea x f
  runElem op y s fun e slot o =>
    let a := readSpec s e y x.a
    let b := readSpec s e y x.b
    let kop := kop s e
    if outFull (s.elem e) y o then s.abort e slot .outFull
    else if !cleanInterval s e then s.abort e slot .notClean
    else if ksRefused s e a kop false then s.abort e slot .engineRefused
    else
      (fireCommand s e slot o y false fun t s =>
        s.modElem e fun el => { el with
          irrev := el.irrev ++ [{ target := ksTargetOf a, cmd := ⟨kop, ksIndexOf a, b⟩, ticket := t, cut := el.io.snapCut + 1 }] }).askCut
        (Key.pkOfElem e)

/-- R206. Posted keystone add. -/
def execAmoAdd (x : EA) (s : State) : Out := runPosted 0x3A x 0 (.int 0) s

/-- R206. Posted keystone unsigned saturating add. -/
def execAmoAdds (x : EA) (s : State) : Out := runPosted 0x3A x 1 (.int 1) s

/-- R206. Posted keystone signed minimum. -/
def execAmoMin (x : EA) (s : State) : Out := runPosted 0x3A x 2 (.int 2) s

/-- R206. Posted keystone signed maximum. -/
def execAmoMax (x : EA) (s : State) : Out := runPosted 0x3A x 3 (.int 3) s

/-- R206. Posted keystone AND. -/
def execAmoAnd (x : EA) (s : State) : Out := runPosted 0x3A x 4 (.int 4) s

/-- R206. Posted keystone OR. -/
def execAmoOr (x : EA) (s : State) : Out := runPosted 0x3A x 5 (.int 5) s

/-- R206. Posted keystone XOR. -/
def execAmoXor (x : EA) (s : State) : Out := runPosted 0x3A x 6 (.int 6) s

/-- R206. Posted keystone swap, which re-initialises a barrier word. -/
def execAmoSwap (x : EA) (s : State) : Out := runPosted 0x3A x 7 (.int 7) s

/-- R209. Irrevocable keystone add with reply, or a barrier arrival. -/
def execAmorAdd (x : EA) (s : State) : Out := runIrrevocable 0x3B x 0 (fun _ _ => .int 0) s

/-- R209. Irrevocable saturating add with reply. -/
def execAmorAdds (x : EA) (s : State) : Out := runIrrevocable 0x3B x 1 (fun _ _ => .int 1) s

/-- R209. Irrevocable signed minimum with reply. -/
def execAmorMin (x : EA) (s : State) : Out := runIrrevocable 0x3B x 2 (fun _ _ => .int 2) s

/-- R209. Irrevocable signed maximum with reply. -/
def execAmorMax (x : EA) (s : State) : Out := runIrrevocable 0x3B x 3 (fun _ _ => .int 3) s

/-- R209. Irrevocable AND with reply. -/
def execAmorAnd (x : EA) (s : State) : Out := runIrrevocable 0x3B x 4 (fun _ _ => .int 4) s

/-- R209. Irrevocable OR with reply, which reads a barrier word. -/
def execAmorOr (x : EA) (s : State) : Out := runIrrevocable 0x3B x 5 (fun _ _ => .int 5) s

/-- R209. Irrevocable XOR with reply. -/
def execAmorXor (x : EA) (s : State) : Out := runIrrevocable 0x3B x 6 (fun _ _ => .int 6) s

/-- R209. Irrevocable swap with reply. -/
def execAmorSwap (x : EA) (s : State) : Out := runIrrevocable 0x3B x 7 (fun _ _ => .int 7) s

/-- R206. Irrevocable keystone compare-and-swap against d[F], with reply. -/
def execAmoc (x : EA) (f : BitVec 3) (s : State) : Out :=
  runIrrevocable 0x3C x f (fun s e => .cas ((s.elem e).reg f.toNat)) s

/-- R207. Posted keystone FP32 add in the range's rounding mode. -/
def execAmofFadd (x : EA) (s : State) : Out := runPosted 0x3D x 0 (.float 0) s

/-- R207. Posted keystone FP32 maximum. -/
def execAmofFmax (x : EA) (s : State) : Out := runPosted 0x3D x 1 (.float 1) s

/-- R207. Posted keystone FP32 minimum. -/
def execAmofFmin (x : EA) (s : State) : Out := runPosted 0x3D x 2 (.float 2) s

/-- R207. Posted keystone BF16x2 add. -/
def execAmofBadd2 (x : EA) (s : State) : Out := runPosted 0x3D x 3 (.float 3) s

/-! ### Events of the request port -/

/-- A command leaves the port for its keystone: at once on this device, over DLT to another one (R201, R367). -/
def ksSend (s : State) (e target : Nat) (cmd : KCmd) (ticket : Option Nat) : State :=
  let el := s.elem e
  match (el.targets.find? (·.1 == target)).map Prod.snd with
  | none => s
  | some tg =>
    let s := s.setElem e { el with ksOut := el.ksOut.put 0 target (el.ksOut.get 0 target + 1) }
    match tg.device with
    | none => ksArrive s tg.range cmd (.port e target ticket)
    | some d => s.dltSend d (tg.place + 4 * cmd.idx) (.ku cmd ticket.isNone) (.port e target ticket)

/-- The die of a range (R199). -/
def rangeDie (k : Nat) : Nat := Key.dieOfTile (if k < 16384 then Key.tileOf k else k - 16384)

/-- Links lead from an element to the range of a target, and back (R374, R375). -/
def targetLinked (s : State) (e target : Nat) : Bool :=
  match ((s.elem e).targets.find? (·.1 == target)).map Prod.snd with
  | some tg => tg.device.isSome || diesLinked s (Key.dieOfElem e) (rangeDie tg.range)
  | none => true

/-- A target takes a command now: links lead there, and its keystone does not withhold (R202, R214, R374). -/
def portOpen (s : State) (e target : Nat) : Bool :=
  targetLinked s e target && match ((s.elem e).targets.find? (·.1 == target)).map Prod.snd with
  | some tg => tg.device.isSome || !ksWithholds (s.kstone tg.range)
  | none => true

/-- Released commands leave in firing order, and behind one whose keystone withholds none to that target does (R208, R216): the
state, and what stays. -/
def sendPosted (e : Nat) : List Posted → List Nat → State → State × List Posted
  | [], _, s => (s, [])
  | p :: ps, shut, s =>
    if shut.contains p.target || !portOpen s e p.target then
      let r := sendPosted e ps (p.target :: shut) s
      (r.1, p :: r.2)
    else sendPosted e ps shut (ksSend s e p.target p.cmd none)

/-- The posted commands up to cut n leave, but for those that came after an irrevocable command that has not left yet: it fired in a
clean interval, before every posted command of its interval (R208, R209, R216). -/
def releasePosted (n : Nat) (s : State) (e : Nat) : State :=
  let el := s.elem e
  let upto := match el.irrev.find? fun i => !i.sent && i.cut ≤ n with
    | some i => i.cut - 1
    | none => n
  let (due, later) := el.posted.partition fun p => p.cut ≤ upto
  let (s, stay) := sendPosted e due [] s
  s.modElem e fun el => { el with posted := stay ++ later }

/-- The first irrevocable command that may leave: unsent, up to cut n, its target takes commands, and no posted command of an earlier
interval waits for that target. -/
def nextIrrev (s : State) (e n : Nat) : Option Irrev :=
  ((s.elem e).irrev.filter fun i => !i.sent && i.cut ≤ n).find? fun i =>
    portOpen s e i.target && (s.elem e).posted.all fun p => p.target != i.target || i.cut ≤ p.cut

/-- An irrevocable command leaves for its keystone. -/
def sendIrrev (s : State) (e : Nat) (i : Irrev) : State :=
  ksSend (s.modElem e fun el => { el with irrev := el.irrev.map fun j => if j.ticket = i.ticket then { j with sent := true } else j })
    e i.target i.cmd (some i.ticket)

/-- Everything of a port up to cut n that may leave does, in order. -/
def sendPort (n e : Nat) : Nat → State → State
  | 0, s => s
  | k + 1, s =>
    let s := releasePosted n s e
    match nextIrrev s e n with
    | some i => sendPort n e k (sendIrrev s e i)
    | none => s

/-- R209. The irrevocable commands of a port leave in the round after the REL of their early cut; the posted commands that REL released
and that waited behind them follow (R216). -/
def execIrrevocableDeparture (e : Nat) (s : State) : Out :=
  .next <| match s.regionOf (Key.pkOfElem e) with
    | some rk =>
      let r := s.region rk
      if r.relRound < s.round then sendPort r.lastRel e ((s.elem e).irrev.length + 1) s else s
    | none => s

/-- R209. What the keystone sent reaches the request port: a reply lands in D and is kept until the next REL, an ERR reply
is reported (R210, R12); the news of an update frees the command slot and sends the order token (R211). -/
def execKeystoneReply (e : Nat) (s : State) : Out :=
  let el := s.elem e
  .next <| match el.ksIn with
    | .reply due t tok :: rest =>
      if due ≤ s.round && ((el.irrev.find? (·.ticket == t)).all fun i => targetLinked s e i.target) then
        let cond := if el.irrev.any (fun i => i.ticket == t && i.cmd.isCas) then tok.payload != 0 else tok.tag == 0
        let el : Elem := { el with
          ksIn := rest, irrev := el.irrev.filter (fun i => i.ticket != t), kept := el.kept ++ [⟨t, tok, el.io.snapCut + 1⟩] }
        let s := s.setElem e (el.landReply s.round t tok.payload tok.tag cond)
        if tok.tag = 6 then s.report (Key.pkOfElem e) (elemPlace e) 8 (tok.payload.setWidth 32) (el.io.snapCut + 1) else s
      else s
    | .applied due target :: rest =>
      if due ≤ s.round && targetLinked s e target then
        let s := s.setElem e { el with ksIn := rest, ksOut := el.ksOut.put 0 target (el.ksOut.get 0 target - 1) }
        match ((el.targets.find? (·.1 == target)).map Prod.snd).bind (·.orderIn) with
        | some _ => oweOrder s (orderChan e target)
        | none => s
      else s
    | [] => s

end Sys2Proof.Machine
end

