-- ==== Sys2Proof/Machine/Streams.lean ====
section
/-! DEFINITION. Machine/Streams: stream parameter blocks (R190), pinned ranges (R191), address generators (R193, R194), granule
metadata and bank service (R177-R179), bank scrubs (R183), the repeat node (R196) and the schedule-table node (R197, R342). -/

namespace Sys2Proof.Machine

/-! ### Stream parameter blocks (R190) -/

namespace Spb

variable (l : List Dword)

def dw (k : Nat) : Nat := (l.getD k 0).toNat
def base : Nat := dw l 0 % 2 ^ 56
def ecode : Nat := dw l 1 % 8
/-- Element size in bytes. -/
def esize : Nat := 2 ^ ecode l
def fmt : Nat := dw l 1 / 2 ^ 3 % 32
def qual : Nat := dw l 1 / 2 ^ 8 % 4
def endp : Nat := dw l 1 / 2 ^ 10 % 4
def store : Bool := dw l 1 / 2 ^ 12 % 2 == 1
def indexed : Bool := dw l 1 / 2 ^ 13 % 2 == 1
def cls : Nat := dw l 1 / 2 ^ 16 % 16
def sid : Nat := dw l 1 / 2 ^ 20 % 65536
def count (k : Nat) : Nat := dw l (2 + k) % 2 ^ 32
def stride (k : Nat) : Int := ((l.getD (2 + k) 0).extractLsb' 32 32).toInt

/-- The number of elements of an affine stream. -/
def total : Nat := count l 0 * count l 1 * count l 2 * count l 3

/-- The address of element n of an affine stream: j0 varies fastest. -/
def addr (n : Nat) : Nat :=
  let j0 := n % count l 0
  let j1 := n / count l 0 % count l 1
  let j2 := n / (count l 0 * count l 1) % count l 2
  let j3 := n / (count l 0 * count l 1 * count l 2)
  ((base l : Int) + j0 * stride l 0 + j1 * stride l 1 + j2 * stride l 2 + j3 * stride l 3).toNat % 2 ^ 56

/-- The address of the element that index i names. One below 0 is 0, and one beyond 2^56 wraps (DESIGN CHOICE, log 98). -/
def indexAddr (i : Nat) : Nat := ((base l : Int) + i * stride l 0).toNat % 2 ^ 56

end Spb

/-- The place of an address in pinned ranges (R191). -/
def pinPlace (pins : List Pin) (va : Nat) : Option Nat :=
  (pins.find? fun p => p.va ≤ va && va < p.va + p.len).map fun p => p.place + (va - p.va)

/-! ### Granules (R178, R179) -/

/-- The metadata F + 2 C of a granule. -/
def State.gmetaAt (s : State) (p : Nat) : Nat := (s.tile (Place.tile p)).gmeta.get 0 (granuleOf p)
def State.setGmeta (s : State) (p v : Nat) : State :=
  let t := Place.tile p
  s.setTile t { s.tile t with gmeta := (s.tile t).gmeta.put 0 (granuleOf p) v }

/-- F of a granule. -/
def State.isFull (s : State) (p : Nat) : Bool := s.gmetaAt p % 2 == 1

/-- What the metadata of a granule are before a unit at a plane key changes them in a cut interval: a rollback restores them (R180). -/
def State.logMeta (s : State) (pk p cut : Nat) : State :=
  s.modRegionOf pk fun r => { r with metaLog := r.metaLog ++ [(p / 16 * 16, s.gmetaAt p, cut)] }

/-- An engine write of a cut interval completes a granule (R179). -/
def State.fillGranule (s : State) (pk cut p : Nat) : State := if isTileMem s p then (s.logMeta pk p cut).setGmeta p 1 else s

/-- A released write completes a granule: no rollback undoes it (R69, R179, R345). -/
def State.fillReleased (s : State) (pk p : Nat) : State :=
  if isTileMem s p then
    (s.modRegionOf pk fun r => { r with metaLog := r.metaLog.filter fun g => g.1 / 16 != p / 16 }).setGmeta p 1
  else s

/-- The metadata of a region as they were at cut n: what has changed in later intervals is undone, the newest first (R180). -/
def undoMeta (s : State) (r : Region) (n : Nat) : State :=
  r.metaLog.foldr (fun g s => if n < g.2.2 then s.setGmeta g.1 g.2.1 else s) s

/-- A CONSUME read moves past a granule (R179). -/
def State.consumeGranule (s : State) (a p : Nat) : State :=
  (s.logMeta (a / 2) p ((s.ag a).io.snapCut + 1)).setGmeta p 2

/-! ### Which banks a course holds (R17, R181) -/

/-- The owner of the banks of a plane: its launch and course. -/
def ownerOf (s : State) (pk : Nat) : Option (Nat × Nat) :=
  (s.regionOf pk).bind fun r => (s.region r).launch.map fun l => (l, (s.region r).course)

def holdsBank (s : State) (pk bank : Nat) : Bool :=
  match (s.tile (Key.tileOf pk)).owner.get none bank with
  | some o => ownerOf s pk == some o
  | none => false

/-- The course of a plane holds the token of the bank that a place lies in; places outside tile memory have none (R17). -/
def holdsAt (s : State) (pk p : Nat) : Bool :=
  !isTileMem s p || match (s.tile (Place.tile p)).owner.get none (bankOf p) with
    | some o => ownerOf s pk == some o
    | none => false

/-- The addresses that an SPB can reach: from the first to the first beyond (R190). -/
def Spb.extent (l : List Dword) : Nat × Nat :=
  let span : Int := ((List.range 4).map fun k => ((Spb.count l k : Int) - 1) * Spb.stride l k).foldl (· + min 0 ·) 0
  let rise : Int := ((List.range 4).map fun k => ((Spb.count l k : Int) - 1) * Spb.stride l k).foldl (· + max 0 ·) 0
  (((Spb.base l : Int) + span).toNat, ((Spb.base l : Int) + rise).toNat + Spb.esize l)

/-- The pages behind a range of addresses, as places with lengths; what is not mapped reaches nothing. -/
def reachFrom (s : State) (ctx stop : Nat) : Nat → Nat → List (Nat × Nat)
  | 0, _ => []
  | n + 1, va =>
    if stop ≤ va then []
    else match walk s va ctx with
      | .leaf lv d =>
        let next := (va / 2 ^ pageBits lv + 1) * 2 ^ pageBits lv
        (leafPlace lv d va, min next stop - va) :: reachFrom s ctx stop n next
      | .notPresent lv | .malformed lv | .ecc lv _ => reachFrom s ctx stop n ((va / 2 ^ levelShift lv + 1) * 2 ^ levelShift lv)

/-- The ranges of places that an AG's stream reaches: its pinned ranges, or what the extent of an indexed one maps to now. -/
def agReach (s : State) (ag : Ag) : List (Nat × Nat) :=
  if Spb.indexed ag.spb then
    let (lo, hi) := Spb.extent ag.spb
    reachFrom s ag.ctx hi ((hi - lo) / 65536 + 2) lo
  else ag.pins.map fun p => (p.place, p.len)

/-- The banks of a tile that ranges of places reach. -/
def banksIn (s : State) (reach : List (Nat × Nat)) (tile : Nat) : List Nat :=
  (List.range 16).filter fun b => reach.any fun p =>
    isTileMem s p.1 && Place.tile p.1 == tile && bankOf p.1 ≤ b && b ≤ bankOf (p.1 + (p.2 - 1))

/-- The banks of a tile that an AG uses; an indexed one reaches no bank outside the mask of its own tile (R194). -/
def agBanks (s : State) (a tile : Nat) : List Nat :=
  let bs := banksIn s (agReach s (s.ag a)) tile
  if Spb.indexed (s.ag a).spb && tile == a / 8 then bs.filter (s.plane (a / 2)).mask.testBit else bs

/-- An AG runs: its plane is active and the wave has reached its tile (R193). -/
def agActive (s : State) (a : Nat) : Bool :=
  let ag := s.ag a
  ag.bound && ag.started && !ag.io.drained && planeActive s (a / 2)

/-- An AG may issue: its course holds every bank of its tile that its stream reaches (R193). -/
def agReady (s : State) (a : Nat) : Bool :=
  agActive s a && (agBanks s a (a / 8)).all (holdsBank s (a / 2))

/-! ### Indexed accesses (R194) -/

/-- The block of a tile (R189). -/
def blockOf (tile : Nat) : Nat := Key.dieOfTile tile * 64 + Key.rowOfTile tile / 4 * 8 + Key.colOfTile tile / 4

/-- Whether a bank of a tile holds a keystone range: of the tile in a plane, or of the device, which stands in bank 0 (R199; DESIGN
CHOICE, log 96). -/
def keystoneBank (s : State) (tile bank : Nat) : Bool :=
  [tile * 4, tile * 4 + 1, tile * 4 + 2, tile * 4 + 3, 16384 + tile].any fun x =>
    let k := s.kstone x
    k.mapped && k.bank == bank

/-- The place of an indexed access of an AG or a streamer, or its ERR code: PERM 2, SPACE 3 (R184, R188, R194, R228). Where both apply
it is PERM (DESIGN CHOICE, log 95). -/
def indexedPlace (s : State) (pk : Nat) (str : Bool) (spb : List Dword) (lv : Nat) (d : Dword) (va : Nat) : Except Nat Nat :=
  let p := leafPlace lv d va
  if !(if Spb.store spb then leafW d else leafR d) then .error 2
  else if isOwn s p && (!placeValid s p || (if str then 4 else 3) ≤ Place.space p) then .error 3
  else if !isOwn s p && (Spb.qual spb ≠ 0 || 3 ≤ Place.space p || !s.devnum.getLsbD 16) then .error 3
  else if !str && isTileMem s p && Place.tile p = Key.tileOf pk && !(s.plane pk).mask.testBit (bankOf p) then .error 3
  else if !str && isTileMem s p && keystoneBank s (Place.tile p) (bankOf p) then .error 3
  else if Spb.qual spb ≠ 0 && !(isTileMem s p && s.regionOf (Place.tile p * 4 + Key.planeOf pk) == s.regionOf pk) then
    .error 3
  else .ok p

/-- What the translation of an indexed access gives: a place, an ERR code, or a wait for the walker (R189). -/
inductive Xlate where
  | place (p : Nat)
  | err (code : Nat)
  | miss
  deriving DecidableEq, Repr

def xlate (s : State) (pk : Nat) (str : Bool) (ctx : Nat) (spb : List Dword) (va : Nat) : Xlate :=
  match findLeaf (s.blockTlb.get [] (blockOf (Key.tileOf pk))) va ctx with
  | some l =>
    if Spb.store spb && leafM l.dword then .miss
    else match indexedPlace s pk str spb l.level l.dword va with
      | .ok p => .place p
      | .error c => .err c
  | none => .miss

/-- A miss asks the walker of the die, once (R189). -/
def askWalk (s : State) (u : UnitRef) (ctx va : Nat) (write : Bool) : State :=
  let ws := s.walks.get [] u.die
  let w : WalkReq := ⟨blockOf (Key.tileOf u.pk), va, ctx, write, u⟩
  if ws.any (fun x => decide (x = w)) then s else { s with walks := s.walks.put [] u.die (ws ++ [w]) }

/-! ### Address generators: what they send and report -/

/-- An ERR payload: code and index (R194). -/
def errPayload (code idx : Nat) : Dword := BitVec.ofNat 64 (code * 2 ^ 24 + idx % 2 ^ 24)

/-- The place of an AG's tile (R12). -/
def agPlace (a : Nat) : Word := Key.place (a / 2 / 4) 0

/-- A sink report that an AG raises (R12, R194). Its port is the number of the AG in its tile (log 80). -/
def State.agReport (s : State) (a code idx : Nat) : State :=
  s.report (a / 2) (agPlace a) (a % 2) ((errPayload code idx).setWidth 32) ((s.ag a).io.snapCut + 1)

/-- A token leaves an AG's data output. -/
def Ag.emit (ag : Ag) (n : Nat) (t : Token) : Ag := { ag with io := ag.io.reserve 0 { tok := t, ready := n } }

/-- An element as word tokens, low word first; 1 and 2 bytes are zero-extended (R190). -/
def elementTokens (bytes : List Byte) : List Token :=
  (List.range ((bytes.length + 3) / 4)).map fun k =>
    ⟨0, BitVec.ofNat 64 (leNat ((bytes.drop (4 * k)).take 4)), 0⟩

/-- A head of an AG's input is taken: its access is blocked no longer. -/
def agTake (s : State) (a k : Nat) : State :=
  let ag := s.ag a
  match ag.io.pop k with
  | (io, some t) => (s.setAg a { ag with io := io, stall := none }).freeSlot t.ch t.dst
  | (_, none) => s

/-- An access of the AG is blocked, since this round or an earlier one (R17, R179, R188). -/
def Ag.stalled (ag : Ag) (n : Nat) : Ag := { ag with stall := ag.stall <|> some n }

/-- What the AG's own held stores make of bytes of memory: a later load of its class sees them (R69, R193). An AG has one SPB, and with
it one class. -/
def Ag.forward (ag : Ag) (p : Nat) (bytes : List Byte) : List Byte :=
  ag.held.foldl (fun bs h => bs.zipIdx.map fun b =>
    if h.place ≤ p + b.2 && p + b.2 < h.place + h.bytes.length then h.bytes.getD (p + b.2 - h.place) b.1 else b.1) bytes

/-! ### Address generators: loads (R193) -/

/-- An AG has room for another request: up to 32 outstanding, and what it has not sent is bounded by its credits. -/
def Ag.canIssue (ag : Ag) : Bool := ag.reqs.length < 32 && (ag.io.outq 0).length < 32

/-- The stream ends: with ENDP END a load appends END with the number of elements made; `endSent` stands for it (R190). -/
def Ag.finish (ag : Ag) : Ag := { ag with ended := true }

/-- The next element request of an affine load. -/
def loadAffine (s : State) (a : Nat) : State :=
  let ag := s.ag a
  let n := Spb.total ag.spb
  if ag.seq < n then
    match pinPlace ag.pins (Spb.addr ag.spb ag.seq) with
    | some p => s.setAg a { ag with
        reqs := ag.reqs ++ [{ seq := ag.seq, place := p, size := Spb.esize ag.spb, issued := s.round }]
        seq := if ag.seq + 1 = n && Spb.endp ag.spb = 2 then 0 else ag.seq + 1
        made := ag.made + 1 }
    | none => s
  else s.setAg a ag.finish

/-- A request for the element of index `i` at a place, or the token that stands in its place. -/
def Ag.ask (ag : Ag) (n i place : Nat) (tok : Option Token) : Ag :=
  { ag with
    reqs := ag.reqs ++ [{ seq := ag.made, idx := i, place := place, size := Spb.esize ag.spb, tok := tok, issued := n }]
    made := ag.made + 1 }

/-- The oldest request of an AG whose data has not come. -/
def Ag.waiting (ag : Ag) : Option AgReq := ag.reqs.find? fun r => r.tok.isNone && r.data.isNone

/-- A CONSUME stream whose last read granule is not the one at `place` moves past it (R179). -/
def moveOn (s : State) (a place : Nat) : State :=
  let ag := s.ag a
  match ag.lastG with
  | some g =>
    if Spb.qual ag.spb = 1 && g ≠ place / 16 then
      let s := s.consumeGranule a (g * 16)
      s.setAg a { s.ag a with lastG := none }
    else s
  | none => s

/-- A CONSUME stream that has ended moves past its last granule (R179). -/
def moveEnd (s : State) (a : Nat) : State :=
  let ag := s.ag a
  match ag.lastG with
  | some g =>
    if Spb.qual ag.spb = 1 then
      let s := s.consumeGranule a (g * 16)
      s.setAg a { s.ag a with lastG := none }
    else s
  | none => s

/-- The stream of an indexed load ends at an END index: what it has read is behind it (R179, R190). -/
def endIndexed (s : State) (a : Nat) : State :=
  let s := if (s.ag a).waiting.isNone then moveEnd s a else s
  s.setAg a (s.ag a).finish

/-- The next element request of an indexed load: the index token at the head of input 1 (R190, R194). The stream ends at END, or at
DRAIN. -/
def loadIndexed (s : State) (a : Nat) : State :=
  let ag := s.ag a
  match ag.io.head? s.round 1 with
  | none => if ag.io.drainedIn s.round 1 then endIndexed s a else s
  | some t =>
    if t.tag = 7 then endIndexed (agTake s a 1) a
    else if t.tag = 6 then
      let s := agTake s a 1
      s.setAg a ((s.ag a).ask s.round 0 0 (some t))
    else
      let i := t.payload.toNat % 2 ^ 32
      let err (code : Nat) : State :=
        let s := agTake s a 1
        s.setAg a ((s.ag a).ask s.round i 0 (some ⟨6, errPayload code i, 0⟩))
      if Spb.count ag.spb 0 ≤ i then err 1
      else match xlate s (a / 2) false ag.ctx ag.spb (Spb.indexAddr ag.spb i) with
        | .place p =>
          let s := agTake s a 1
          let s := if (s.ag a).waiting.isNone then moveOn s a p else s
          s.setAg a ((s.ag a).ask s.round i p none)
        | .err c => err c
        | .miss => askWalk s (.ag a) ag.ctx (Spb.indexAddr ag.spb i) false

/-! ### Address generators: stores (R190, R193, R194) -/

/-- A store of an AG is made: it waits for REL. Its granule is complete when the stream has written every byte of it (R179). -/
def Ag.hold (ag : Ag) (idx place : Nat) (bytes : List Byte) : Ag :=
  let g := place / 16
  let m := ag.gmask.get 0 g ||| (2 ^ bytes.length - 1) * 2 ^ (place % 16)
  let full := m == 65535
  { ag with
    held := ag.held ++ [⟨idx, place, bytes, full, ag.io.snapCut + 1⟩]
    gmask := ag.gmask.put 0 g (if full then 0 else m)
    words := []
    made := ag.made + 1 }

/-- The stream of a store ends: partly written granules are complete (R179). -/
def Ag.finishStore (ag : Ag) : Ag :=
  { ag with
    ended := true
    held := ag.held ++ ag.gmask.map fun g => ⟨0, g.1 * 16, [], true, ag.io.snapCut + 1⟩
    gmask := [] }

/-- The place of the next store element with its index; it waits for an index or the walker, and an access is blocked by a bank token
that has not come (R17), a Full granule under CONSUME (R179) or a page in migration (R188). -/
inductive StoreTo where
  | place (idx p : Nat)
  | skip (payload : Word)
  | wait
  | blocked
  deriving DecidableEq, Repr

/-- The index token of an element is taken once its data are (R194): here it is only read. -/
def storeTo (s : State) (a : Nat) : State × StoreTo :=
  let ag := s.ag a
  let at_ (i p : Nat) : StoreTo :=
    if !holdsAt s (a / 2) p || (Spb.qual ag.spb = 1 && isTileMem s p && s.isFull p) then .blocked
    else .place i p
  if Spb.indexed ag.spb then
    match ag.io.head? s.round 1 with
    | none => (s, .wait)
    | some t =>
      let i := t.payload.toNat % 2 ^ 32
      if t.tag = 7 then (s, .wait)
      else if t.tag = 6 then (s, .skip (t.payload.setWidth 32))
      else if Spb.count ag.spb 0 ≤ i then (s, .skip ((errPayload 1 i).setWidth 32))
      else match xlate s (a / 2) false ag.ctx ag.spb (Spb.indexAddr ag.spb i) with
        | .place p => (s, at_ i p)
        | .err c => (s, .skip ((errPayload c i).setWidth 32))
        | .miss => (askWalk s (.ag a) ag.ctx (Spb.indexAddr ag.spb i) true, .blocked)
  else match pinPlace ag.pins (Spb.addr ag.spb ag.seq) with
    | some p => (s, at_ 0 p)
    | none => (s, .wait)

/-- The element at hand is done: an indexed stream takes its index; an affine stream goes on to the next element, and under
STOP ends after the count (R190). -/
def storeNext (s : State) (a : Nat) : State :=
  let ag := s.ag a
  if Spb.indexed ag.spb then agTake s a 1
  else
    let n := Spb.total ag.spb
    let seq := ag.seq + 1
    let ag := { ag with seq := if seq = n && Spb.endp ag.spb = 2 then 0 else seq }
    s.setAg a (if seq = n && Spb.endp ag.spb = 0 then ag.finishStore else ag)

/-- The bytes of an element from its words (R190). -/
def wordBytes (size : Nat) (ws : List Word) : List Byte := (ws.flatMap fun w => leBytes 4 w.toNat).take size

/-- An ERR-tagged token that stops at an AG is reported (R11, R12). -/
def State.agErr (s : State) (a : Nat) (t : Token) : State :=
  if t.tag = 6 then s.report (a / 2) (agPlace a) (a % 2) (t.payload.setWidth 32) ((s.ag a).io.snapCut + 1) else s

/-- One data token of a store stream. An ERR token stands for its whole element (R12); END ends a stream with ENDP END and
stores nothing; data beyond the count, or beyond the end of an indexed stream, make one ERR with code OVERRUN (R190), whose index field
is the number of elements made (DESIGN CHOICE, log 97). -/
def storeData (s : State) (a : Nat) (t : Token) : State :=
  let ag := s.ag a
  let past := ag.ended || (!Spb.indexed ag.spb && Spb.total ag.spb ≤ ag.seq)
  if t.tag = 7 then
    let s := agTake s a 0
    let ag := { s.ag a with words := [] }
    s.setAg a (if Spb.endp ag.spb = 1 && !ag.ended then ag.finishStore else { ag with discard := false })
  else if past || ag.discard then
    let s := (agTake s a 0).agErr a t
    let s := s.setAg a { s.ag a with overrun := true, discard := true }
    if ag.overrun then s else s.agReport a 4 ag.made
  else match storeTo s a with
    | (s, .wait) => s
    | (s, .blocked) => s.setAg a ((s.ag a).stalled s.round)
    | (s, .skip payload) =>
      let s := agTake s a 0
      let ag := s.ag a
      let last := t.tag = 6 || ag.words.length + 1 = (Spb.esize ag.spb + 3) / 4
      if !last then s.setAg a { ag with words := ag.words ++ [t.payload.setWidth 32] }
      else
        let s := s.setAg a { ag with words := [], made := ag.made + 1 }
        let s := s.report (a / 2) (agPlace a) (a % 2) payload (ag.io.snapCut + 1)
        storeNext (s.agErr a t) a
    | (s, .place i p) =>
      let s := agTake s a 0
      let ag := s.ag a
      if t.tag = 6 then
        let s := s.setAg a { ag with words := [], made := ag.made + 1 }
        storeNext (s.agErr a t) a
      else
        let ws := ag.words ++ [t.payload.setWidth 32]
        if ws.length < (Spb.esize ag.spb + 3) / 4 then s.setAg a { ag with words := ws }
        else storeNext (s.setAg a (ag.hold i p (wordBytes (Spb.esize ag.spb) ws))) a

/-- The store of one element at most in a round: up to four word tokens. -/
def storeStep (a : Nat) : Nat → State → State
  | 0, s => s
  | n + 1, s =>
    let ag := s.ag a
    if Spb.indexed ag.spb && !ag.ended && (match ag.io.head? s.round 1 with | some t => t.tag == 7 | none => false) then
      let s := agTake s a 1
      s.setAg a (s.ag a).finishStore
    else match ag.io.head? s.round 0 with
      | none => s
      | some t =>
        let s := storeData s a t
        if (s.ag a).words.isEmpty then s else storeStep a n s

/-- An affine store stream of no elements has ended before its first (R190). -/
def emptyStore (ag : Ag) : Bool :=
  !Spb.indexed ag.spb && Spb.total ag.spb == 0 && Spb.endp ag.spb == 0 && !ag.ended

/-! ### Load data (R193) -/

/-- n bytes have been read: correctable errors are corrected (R405), and where the place had caused a rollback, an error there is a new
one (R345). -/
def State.readGood (s : State) (pk p n : Nat) : State :=
  (s.corrected p n).modRegionOf pk fun r => if r.lastEcc = some p then { r with lastEcc := none } else r

/-- A request that a bank of tile memory serves (R177). -/
def needsBank (s : State) (r : AgReq) : Bool := r.tok.isNone && r.data.isNone && isTileMem s r.place

/-- A request that the memory nodes serve at once: HBM and vaults of this device. -/
def needsNode (s : State) (r : AgReq) : Bool := r.tok.isNone && r.data.isNone && isOwn s r.place && Place.space r.place ≤ 1

/-- R193. The load data of an AG request returns and is delivered in request order; after the last element the END token and
the end of the stream follow (R190). -/
def execAgLoadData (a : Nat) (s : State) : Out :=
  let ag := s.ag a
  .next <| match ag.reqs with
    | r :: rest =>
      if 4 ≤ (ag.io.outq 0).length then s
      else match r.tok, r.data with
        | some t, _ => s.setAg a ({ ag with reqs := rest }.emit s.round t)
        | none, some d =>
          s.setAg a ((elementTokens d).foldl (fun ag t => ag.emit s.round t) { ag with reqs := rest })
        | none, none =>
          if r.issued < s.round && needsNode s r && diesLinked s (Key.dieOfTile (a / 8)) (Place.die r.place) && !s.eccAt r.place r.size then
            let d := ag.forward r.place (s.bytes r.place r.size)
            (((s.setAg a ((elementTokens d).foldl (fun ag t => ag.emit s.round t) { ag with reqs := rest })).touch (a / 2)).takeTurn
              r.place).readGood (a / 2) r.place r.size
          else if !isOwn s r.place && !r.fwdd then
            (s.setAg a { ag with reqs := { r with fwdd := true } :: rest }).dltSend (Place.device r.place) r.place
              (.rd r.size) (.agLoad a r.seq)
          else s
    | [] =>
      if ag.ended && !ag.endSent && !Spb.store ag.spb then
        let s := moveEnd s a
        let ag := { s.ag a with endSent := true }
        s.setAg a (if Spb.endp ag.spb = 1 then ag.emit s.round ⟨7, BitVec.ofNat 64 (ag.made % 2 ^ 32), 0⟩ else ag)
      else s

/-! ### Bank service (R177) -/

/-- A bank can serve an AG's oldest waiting request in the second round after its issue: its place lies there, its course holds the
bank (R17), no error stands there, and CONSUME and OBSERVE find F = 1 (R179). -/
def servable (s : State) (tile bank a : Nat) : Option AgReq :=
  let ag := s.ag a
  match ag.waiting with
  | some r =>
    if isTileMem s r.place && Place.tile r.place = tile && bankOf r.place = bank
        && r.issued + (if a / 8 = tile then 1 else 0) < s.round && diesLinked s (Key.dieOfTile (a / 8)) (Key.dieOfTile tile)
        && holdsAt s (a / 2) r.place && !s.eccAt r.place r.size && (Spb.qual ag.spb = 0 || s.isFull r.place) then some r
    else none
  | none => none

/-- The next element of a CONSUME stream lies in another granule, or the stream ends with this one (R179). What comes next in an indexed
stream is known once its index has been taken. -/
def leavesGranule (ag : Ag) (r : AgReq) : Bool :=
  if Spb.indexed ag.spb then
    match ag.waiting with
    | some q => q.place / 16 != r.place / 16
    | none => ag.ended
  else
    let n := Spb.total ag.spb
    let next := if r.seq + 1 < n then some (r.seq + 1) else if Spb.endp ag.spb = 2 then some 0 else none
    match next.bind fun k => pinPlace ag.pins (Spb.addr ag.spb k) with
    | some p => p / 16 != r.place / 16
    | none => true

/-- The oldest request that waits takes its data. -/
def fillFirst (d : List Byte) : List AgReq → List AgReq
  | [] => []
  | r :: rs => if r.tok.isNone && r.data.isNone then { r with data := some d } :: rs else r :: fillFirst d rs

/-- A bank serves the oldest waiting request of an AG: the data is read, and a CONSUME stream moves past the granule. -/
def serveLoad (s : State) (a : Nat) (r : AgReq) : State :=
  let d := (s.ag a).forward r.place (s.bytes r.place r.size)
  let s := (s.touch (a / 2)).readGood (a / 2) r.place r.size
  let ag := s.ag a
  let ag := { ag with reqs := fillFirst d ag.reqs, lastG := some (r.place / 16) }
  let s := s.setAg a ag
  if Spb.qual ag.spb = 1 && leavesGranule ag r then moveEnd s a else s

/-- One bank in one round: one granule; each request sees what the requests before it left. -/
def serveBank (order : List Nat) (tile : Nat) (s : State) (bank : Nat) : State :=
  order.foldl (fun s a =>
    match servable s tile bank a with
    | some r => if s.bankTurn r.place then (serveLoad s a r).takeTurn r.place else s
    | none => s) s

/-- AG k of a tile in its planes, and the AGs of other tiles. -/
def ownAgs (tile k : Nat) : List Nat := (List.range 4).map fun p => (tile * 4 + p) * 2 + k
def otherAgs (s : State) (tile : Nat) : List Nat := s.ags.keys.filter fun a => a / 8 != tile

/-- How far a tile has served its own AGs in this round (R177). -/
def ownServed (s : State) (tile : Nat) : Nat :=
  match (s.tile tile).ownAt with
  | some (n, k) => if n = s.round then k else 0
  | none => 0

/-- A tile serves its own AGs below AG k, those that it has not served in this round (R177). -/
def serveTo (s : State) (tile k : Nat) : State :=
  let done := ownServed s tile
  if k ≤ done then s
  else
    let s := ((List.range k).drop done).foldl (fun s j => (List.range 16).foldl (serveBank (ownAgs tile j) tile) s) s
    s.setTile tile { s.tile tile with ownAt := some (s.round, k) }

/-- R177. Each round, a tile bank serves its requests in fixed order, and blocked requests wait: first in the round its own AGs; once
the repeat node has had its turn, those of other tiles. -/
def execBankService (tile : Nat) (s : State) : Out :=
  .next <|
    if ownServed s tile < 3 then
      let s := serveTo s tile 2
      s.setTile tile { s.tile tile with ownAt := some (s.round, 3) }
    else (List.range 16).foldl (serveBank (otherAgs s tile) tile) s

/-! ### Stores are released (R69, R211) -/

/-- The course has written a bank under CONSUME: what it leaves Full there is counted when it ends (R180). -/
def State.markConsume (s : State) (a p : Nat) : State :=
  if Spb.qual (s.ag a).spb = 1 && isTileMem s p then
    let b := Place.tile p * 16 + bankOf p
    s.modRegionOf (a / 2) fun r => if r.conBanks.contains b then r else { r with conBanks := r.conBanks ++ [b] }
  else s

/-- A bank has served, in the order of R177, the requests that come before a store of an AG in a round: AG 0 of its tile before a store
of AG 1, both before a store from outside the tile. -/
def serveBefore (s : State) (a p : Nat) : State :=
  if isTileMem s p then serveTo s (Place.tile p) (if a / 8 = Place.tile p then a % 2 else 2) else s

/-- A store of an AG that REL(n) releases is performed (R69) at its turn in the bank (R177); a granule that it completes becomes Full,
unless the stream is PLAIN, which changes no metadata (R179). A store to another device leaves for it (R368). -/
def performStore (n : Nat) (s : State) (a : Nat) (h : HeldStore) : State :=
  if isOwn s h.place then
    let s := serveBefore s a h.place
    let s := ((((s.setBytes h.place h.bytes).takeTurn h.place).touch (a / 2))).markConsume a h.place
    if h.full && Spb.qual (s.ag a).spb ≠ 0 then s.fillReleased (a / 2) h.place else s
  else if h.bytes.isEmpty then s
  else s.dltSend (Place.device h.place) h.place (.wr h.bytes (h.bytes.map fun _ => true)) (.agStore a n h.idx)

/-- An AG's order token (R211): it follows the stores of a REL, the last of which may be performed on another device. -/
def sendOrder (s : State) (a : Nat) : State :=
  if (s.ag a).orderTo.isSome then oweOrder s (agOrderChan a) else s

/-- A store can leave its AG: links lead to the die of its place, or to that of another device's port (R374). -/
def storeLinked (s : State) (a : Nat) (h : HeldStore) : Bool :=
  !isOwn s h.place || diesLinked s (Key.dieOfTile (a / 8)) (Place.die h.place)

/-- What an AG releases at REL(n): its stores in order, then one order token when it released one, once they are all performed
(R211). A store to a die that no link leads to waits for one, with those after it (R374, R375). -/
def releaseAg (n : Nat) (s : State) (a : Nat) : State :=
  let ag := s.ag a
  let due := (ag.held.filter fun h => h.cut ≤ n).takeWhile (storeLinked s a)
  let later := ag.held.drop due.length
  let far := due.countP fun h => !h.bytes.isEmpty && !isOwn s h.place
  let behind := later.any fun h => h.cut ≤ n && !h.bytes.isEmpty
  let s := s.setAg a { ag with held := later, ordPend := ag.ordPend.put 0 n (ag.ordPend.get 0 n + far) }
  let s := due.foldl (fun s h => performStore n s a h) s
  if !behind && (s.ag a).ordPend.get 0 n = 0 && due.any (fun h => !h.bytes.isEmpty) then sendOrder s a else s

/-- What a REL has released and no link has let through goes on with the next round (R375). -/
def releaseLate (a : Nat) (s : State) : State :=
  match s.regionOf (a / 2) with
  | some rk =>
    let n := (s.region rk).lastRel
    if (s.ag a).held.any fun h => h.cut ≤ n then releaseAg n s a else s
  | none => s

/-- Another device has performed a store that REL(n) released: with the last of them the order token leaves (R211). -/
def confirmStore (s : State) (a n : Nat) : State :=
  let left := (s.ag a).ordPend.get 0 n - 1
  let s := s.setAg a { s.ag a with ordPend := (s.ag a).ordPend.put 0 n left }
  if left = 0 && !(s.ag a).held.any (fun h => h.cut ≤ n && !h.bytes.isEmpty) then sendOrder s a else s

/-- R193. An AG issues one element request per round in stream order, paced by its credits; a request to a bank whose token has not
come stalls (R17). -/
def execAgRequestIssue (a : Nat) (s : State) : Out :=
  let s := releaseLate a s
  let ag := s.ag a
  .next <|
    if !agReady s a then (if agActive s a then s.setAg a (ag.stalled s.round) else s)
    else if Spb.store ag.spb then
      if emptyStore ag then s.setAg a ag.finishStore else storeStep a 4 s
    else if ag.ended || !ag.canIssue then s
    else
      let s := s.setAg a { ag with stall := none }
      if Spb.indexed ag.spb then loadIndexed s a else loadAffine s a

/-! ### Scrubs and hand-over (R181-R183) -/

/-- R183. A returned bank is scrubbed to zero and Empty, one granule a round, and then becomes grantable. -/
def execBankScrub (tile bank : Nat) (s : State) : Out :=
  let t := s.tile tile
  .next <| match t.scrub.get none bank with
    | some k =>
      let g := bank * 256 + k
      let s := s.setBytes (Place.ofTile tile (g * 16)) (List.replicate 16 0)
      let t := { t with gmeta := t.gmeta.put 0 g 0 }
      if k + 1 < 256 then s.setTile tile { t with scrub := t.scrub.put none bank (some (k + 1)) }
      else s.setTile tile { t with scrub := t.scrub.put none bank none, owner := t.owner.put none bank none }
    | none => s

/-- A snapshot of a unit that belongs to a released cut satisfies a test: no rollback goes back behind it (R64, R70). -/
def cutHolds (s : State) (u : UnitRef) (p : SnapVal → Bool) : Bool :=
  match s.regionOf u.pk with
  | some rk => s.snaps.any fun x => x.1 / 2 == u.key && decide (x.2.cut ≤ (s.region rk).lastRel) && p x.2.val
  | none => false

/-- An AG uses a bank of a tile: it still holds stores to it, or no released cut holds the end of its stream, so that it may yet read or
write there (R182, R70; log 99). -/
def agUses (s : State) (a tile bank : Nat) : Bool :=
  let ag := s.ag a
  let holds := ag.held.any fun h => isTileMem s h.place && Place.tile h.place == tile && bankOf h.place == bank
  let past := cutHolds s (.ag a) fun v => match v with
    | .ag x => (x.ended || x.io.drained) && x.reqs.isEmpty
    | _ => false
  ag.bound && (holds || (!past && (agBanks s a tile).contains bank))

/-! ### The repeat node (R196) -/

/-- The buffer holds 1,024 tokens, END included. -/
def repCap : Nat := 1024

def repTake (s : State) (pk k : Nat) : State :=
  let r := s.rep pk
  match r.io.pop k with
  | (io, some t) => (s.setRep pk { r with io := io }).freeSlot t.ch t.dst
  | (_, none) => s

/-- The node may act: its plane is active and its course holds the bank. -/
def repReady (s : State) (pk : Nat) : Bool :=
  let r := s.rep pk
  r.bound && !r.io.drained && planeActive s pk && holdsBank s pk r.bank

/-- An ERR-tagged token that stops at the repeat node is reported (R11, R12): at port `k` of its tile's place (log 80). -/
def State.repErr (s : State) (pk k : Nat) (t : Token) : State :=
  if t.tag = 6 then s.report pk (Key.place (Key.tileOf pk) 0) k (t.payload.setWidth 32) ((s.rep pk).io.snapCut + 1) else s

/-- The buffer is emptied. ERR tokens in it that it has never sent stop here and are reported (R11, R12). -/
def repDrop (s : State) (pk : Nat) : State :=
  let s := if (s.rep pk).emitted then s else (s.rep pk).buf.foldl (fun s t => s.repErr pk 0 t) s
  s.setRep pk { s.rep pk with buf := [], valid := false, emitted := false }

/-- The place of word n of the buffer in its bank. -/
def repPlace (s : State) (pk n : Nat) : Nat :=
  ownDevice s * 2 ^ 48 + Place.ofTile (Key.tileOf pk) ((s.rep pk).bank * 4096 + 4 * (n % repCap))

/-- One token enters the buffer and the bank; END closes the fill; a fill beyond the buffer sends one ERR with code OVERRUN
and discards up to the next END (R196); its payload ends in the size of the buffer (DESIGN CHOICE, log 97). A granule is complete with
its fourth word, or where the fill closes (R178, R179). -/
def repFill (s : State) (pk : Nat) (t : Token) : State :=
  let s := repTake s pk 0
  let r := s.rep pk
  if r.skip then (s.repErr pk 0 t).setRep pk { r with skip := t.tag != 7 }
  else if repCap ≤ r.buf.length then
    let s := (repDrop s pk).repErr pk 0 t
    let r := s.rep pk
    s.setRep pk { r with
      skip := t.tag != 7
      io := r.io.reserve 0 { tok := ⟨6, errPayload 4 repCap, 0⟩, ready := s.round } }
  else
    let p := repPlace s pk r.buf.length
    let s := ((s.write p 4 (t.payload.toNat % 2 ^ 32)).takeTurn p).touch pk
    let s := if t.tag = 7 || r.buf.length % 4 = 3 then s.fillGranule pk (r.io.snapCut + 1) p else s
    let r := { r with buf := r.buf ++ [t], emitted := false }
    s.setRep pk (if t.tag = 7 then { r with st := .hold, valid := true } else r)

/-- The bank serves the node's next word in this round (R177). -/
def repTurn (s : State) (pk : Nat) : Bool :=
  s.bankTurn (repPlace s pk (match (s.rep pk).st with | .fill => (s.rep pk).buf.length | .hold => 0 | .emit _ pos => pos))

/-- R196. The repeat node takes a data token into its buffer; from HOLD it refills when no count is there. -/
def execRepeatNodeFill (pk : Nat) (s : State) : Out :=
  let r := s.rep pk
  .next <| match repReady s pk && repTurn s pk, r.io.head? s.round 0, r.st with
    | true, some t, .fill => repFill s pk t
    | true, some t, .hold =>
      if (r.io.head? s.round 1).isNone then
        let s := repDrop s pk
        repFill (s.setRep pk { s.rep pk with st := .fill }) pk t
      else s
    | _, _, _ => s

/-- R196. The repeat node takes a count token and starts emitting; a count tagged END empties the buffer and enters FILL. An ERR token is
no count: it is reported and starts nothing (R11, log 80). -/
def execRepeatNodeCount (pk : Nat) (s : State) : Out :=
  let r := s.rep pk
  .next <| match repReady s pk, r.io.head? s.round 1, r.st with
    | true, some t, .hold =>
      let s := repTake s pk 1
      let r := s.rep pk
      if t.tag = 7 then
        let s := repDrop s pk
        s.setRep pk { s.rep pk with st := .fill }
      else if t.tag = 6 then s.repErr pk 1 t
      else
        let c := t.payload.toNat % 2 ^ 32
        s.setRep pk (if c = 0 then r else { r with st := .emit c 0 })
    | _, _, _ => s

/-- R196. The repeat node emits one buffered token per round: the bank serves its word (R177), unless an uncorrectable error stands there
(R405), and the node keeps its tag. -/
def execRepeatNodeEmit (pk : Nat) (s : State) : Out :=
  let r := s.rep pk
  .next <| match r.st with
    | .emit passes pos =>
      if repReady s pk && r.io.room 0 && repTurn s pk && !s.eccAt (repPlace s pk pos) 4 then
        let p := repPlace s pk pos
        let t := { r.buf.getD pos default with payload := BitVec.ofNat 64 (s.read p 4) }
        let s := (s.takeTurn p).readGood pk p 4
        let st : RepState :=
          if pos + 1 < r.buf.length then .emit passes (pos + 1) else if 1 < passes then .emit (passes - 1) 0 else .hold
        (s.setRep pk { r with st := st, emitted := true, io := r.io.reserve 0 { tok := t, ready := s.round } }).touch pk
      else s
    | _ => s

/-! ### The schedule-table node (R197, R342) -/

/-- R197. The schedule-table node serves the oldest request that has reached it: NEXT sends the entry at the cursor, or END with
the number of entries, and RESET sets the cursor to 0. -/
def execScheduleNodeServe (pk : Nat) (s : State) : Out :=
  let n := s.sched pk
  .next <| match n.reqs with
    | (reset, arr) :: rest =>
      if s.round < arr || !planeRuns s pk then s
      else if reset then s.setSched pk { n with reqs := rest, cursor := 0 }
      else
        let len := n.table.length
        let t : Token :=
          if n.cursor < len then ⟨0, ((n.table.getD n.cursor 0).setWidth 64), 0⟩ else ⟨7, BitVec.ofNat 64 len, 0⟩
        s.setSched pk { n with
          reqs := rest, cursor := min (n.cursor + 1) len
          io := n.io.reserve 0 { tok := t, ready := s.round } }
    | [] => s

/-- SCHD (R342): the node refuses a fifth request in the round of firing; else the request reaches it in the next round. -/
def runSchd (f : BitVec 3) (reset : Bool) (x : EA) (s : State) : Out :=
  let y := Body.ea x f
  runElem 0x3E y s fun e slot o =>
    let pk := Key.pkOfElem e
    if 4 ≤ (s.sched pk).reqs.length then s.abort e slot .engineRefused
    else
      let s := fireValue s e slot o y 0 false 0 0 id none
      let n := s.sched pk
      s.setSched pk { n with reqs := n.reqs ++ [(reset, s.round + 1)] }

/-- R342. Asks the schedule-table node for the next entry. -/
def execSchdNext (x : EA) (s : State) : Out := runSchd 0 false x s

/-- R342. Resets the cursor of the schedule-table node. -/
def execSchdReset (x : EA) (s : State) : Out := runSchd 1 true x s

end Sys2Proof.Machine
end

