-- ==== Sys2Proof/Machine/Island.lean ====
section
/-! DEFINITION. Machine/Island: MXT and MXQ (R246, R267), and matrix islands: acceptance, the array's arithmetic, slots, marks,
spills, BIND, readouts, completion, and drain (R240-R255, R261-R278). -/

namespace Sys2Proof.Machine

open Sys2Proof.Machine.Num

/-! ### MXT, MXQ and STC: tokens of 64 bits (R223, R246, R267) -/

/-- A rule that sends a 64-bit token on its output D in the round after it fires; it aborts only with OUT-FULL (R88). -/
def fireToken (s : State) (e slot : Nat) (o : OpInfo) (x : Body) (payload : Dword) (form : BitVec 3) : State :=
  if outFull (s.elem e) x o then s.abort e slot .outFull
  else
    let s := takeInputs s e x.dq none
    s.modElem e fun el =>
      let el := match outOf x.d with
        | some k => el.reserve k { tok := ⟨0, payload, form⟩, ready := s.round + 1 }
        | none => el
      (el.result s.round 1 [] (puWrite x.pu false)).noAbort slot

/-- MXT and STC: the command B : A with its form. -/
def runCommand (op : Nat) (f : BitVec 3) (x : EA) (s : State) : Out :=
  let y := Body.ea x f
  runElem op y s fun e slot o => fireToken s e slot o y (readSpec s e y x.b ++ readSpec s e y x.a) f

/-- R248. Sends the command that multiplies an M×N×K block into the marked slot. -/
def execMxtMma (x : EA) (s : State) : Out := runCommand 0x38 0 x s

/-- R269. Sends the command that mixes marked slots with coefficients. -/
def execMxtBind (x : EA) (s : State) : Out := runCommand 0x38 1 x s

/-- R271. Sends the command that mixes bound slots again. -/
def execMxtRebind (x : EA) (s : State) : Out := runCommand 0x38 2 x s

/-- R272. Sends the command that frees marks. -/
def execMxtRelease (x : EA) (s : State) : Out := runCommand 0x38 3 x s

/-- R272. Sends the command that spills a mark. -/
def execMxtSpill (x : EA) (s : State) : Out := runCommand 0x38 4 x s

/-- R251. Sends the command that reads a slot out in raw form. -/
def execMxtFlush (x : EA) (s : State) : Out := runCommand 0x38 5 x s

/-- R252. Sends the command that changes the SETUP record. -/
def execMxtSetup (x : EA) (s : State) : Out := runCommand 0x38 6 x s

/-- R253. Sends the command that waits for every earlier effect. -/
def execMxtIfence (x : EA) (s : State) : Out := runCommand 0x38 7 x s

/-- R267. Builds one coefficient entry and sends it. -/
def execMxq (x : EA) (s : State) : Out :=
  let y := Body.ea x 0
  runElem 0x3F y s fun e slot o =>
    let a := readSpec s e y x.a
    let b := readSpec s e y x.b
    let v : BitVec 1 := if b.getLsbD 15 then 0 else 1
    fireToken s e slot o y (v ++ (0#19 ++ (b.setWidth 12 ++ a))) 0

/-! ### SETUP (R242) -/

namespace ISetup
def fmt (w : Word) : Nat := w.toNat % 8
def rm (w : Word) : Nat := w.toNat / 8 % 8
def cen (w : Word) : Bool := w.getLsbD 7
def outI (w : Word) : Nat := w.toNat / 2 ^ 8 % 128
def outJ (w : Word) : Nat := w.toNat / 2 ^ 15 % 128
def mreg (w : Word) : Nat := w.toNat / 2 ^ 22 % 64
end ISetup

/-- Rounds per k (R244). -/
def roundsPerK : Nat → Nat
  | 2 | 3 => 4 | 4 => 16 | _ => 1

/-- Command fields. -/
def lo (c : Dword) (sh n : Nat) : Nat := c.toNat / 2 ^ sh % 2 ^ n
def hi (c : Dword) (sh n : Nat) : Nat := c.toNat / 2 ^ (32 + sh) % 2 ^ n

/-! ### Completion tokens (R247) -/

/-- Flags at bits 25, 24, 23 and 21. -/
def flagBits (fl : Flags) : Nat := (fl &&& 0b11101).toNat * 2 ^ 21

def complWord (op status : Nat) (fl : Flags) (iovf : Bool) (count : Nat) : Word :=
  BitVec.ofNat 32 (op * 2 ^ 29 + status * 2 ^ 26 + flagBits fl + iovf.toNat * 2 ^ 20 + count % 2 ^ 20)

/-- An engine command completes with a nonzero status in a cut interval: its launch counts it from that cut's REL on (R64, R337). -/
def State.failed (s : State) (pk cut : Nat) (island : Bool) : State :=
  s.modRegionOf pk fun r => { r with fails := r.fails ++ [(cut, island)] }

/-- A command completes: its token leaves on the completion output, and a status other than OK is counted (R247, R337). An IFENCE
begins the count of the next one (R253). -/
def islandSend (s : State) (i : Nat) (w : Word) : State :=
  let isl := s.island i
  let s := s.setIsland i { isl with
    io := isl.io.reserve 1 { tok := ⟨0, w.setWidth 64, 0⟩, ready := s.round }
    doneCmds := if w.toNat / 2 ^ 29 = 7 then 0 else isl.doneCmds + 1, idle := s.round }
  let s := s.touch (Key.enginePk i)
  if w.toNat / 2 ^ 26 % 8 = 0 then s else s.failed (Key.enginePk i) (isl.io.snapCut + 1) true

/-! ### Slots and marks (R261, R262) -/

namespace Island

def slot (isl : Island) (k : Nat) : ISlot := isl.slots.get {} k
def setSlot (isl : Island) (k : Nat) (v : ISlot) : Island := { isl with slots := isl.slots.put {} k v }

/-- The slot that holds a mark. -/
def holder (isl : Island) (m : Nat) : Option Nat :=
  (List.range 8).find? fun k => (isl.slot k).state ≠ 0 && (isl.slot k).mark == m

/-- The directory entry that holds a mark. -/
def entryOf (isl : Island) (m : Nat) : Option Nat :=
  (List.range 64).find? fun k => (isl.dir.get 0 k).getLsbD 31 && (isl.dir.get 0 k).toNat % 4096 == m

def freeSlot (isl : Island) : Option Nat := (List.range 8).find? fun k => (isl.slot k).state == 0

/-- The victim of FreeSlot: the bound slot with the lowest mark, else the oldest active slot. -/
def victim (isl : Island) : Nat :=
  let bound := (List.range 8).filter fun k => (isl.slot k).state == 2
  match bound with
  | b :: bs => bs.foldl (fun v k => if (isl.slot k).mark < (isl.slot v).mark then k else v) b
  | [] =>
    let age (k : Nat) : Nat := (isl.cmdNo + 2 ^ 32 - (isl.slot k).first) % 2 ^ 32
    (List.range 8).foldl (fun v k => if age v < age k then k else v) 0

/-- A free image: the lowest entry below n with V = 0 and HELD = 0. -/
def freeEntry (isl : Island) : Option Nat :=
  (List.range isl.spillN).find? fun k => !(isl.dir.get 0 k).getLsbD 31 && !(isl.dir.get 0 k).getLsbD 29

def dirWord (bound held : Bool) (v : Bool) (mark : Nat) : Word :=
  BitVec.ofNat 32 (v.toNat * 2 ^ 31 + bound.toNat * 2 ^ 30 + held.toNat * 2 ^ 29 + mark)

/-- The place of spill image k (R263). -/
def imagePlace (isl : Island) (k off : Nat) : Nat := (pinPlace isl.spillPins (isl.spillVa + k * 65600 + off)).getD 0

/-- The slot descriptor of R261. -/
def descriptor (sl : ISlot) : Dword :=
  BitVec.ofNat 64 (sl.state * 2 ^ 62 + sl.dirty.toNat * 2 ^ 61 + (sl.srow != 0 || sl.scol != 0).toNat * 2 ^ 60
    + sl.mark * 2 ^ 32 + sl.first)

/-- A slot is written: DIRTY is set until the next complete cut (R254, R261). -/
def touch (isl : Island) (k : Nat) (v : ISlot) : Island := isl.setSlot k { v with dirty := true, fresh := true }

/-- A directory entry gives its image up: V clears and HELD is set (R262, R272). -/
def freeImage (isl : Island) (k : Nat) : Island :=
  { isl with dir := isl.dir.put 0 k ((isl.dir.get 0 k &&& ~~~0x80000000#32) ||| 0x20000000), heldNew := isl.heldNew ++ [k] }

/-- RELEASE and FLUSH with FREE. -/
def free (isl : Island) (k : Nat) : Island := isl.touch k { isl.slot k with state := 0 }

def release (isl : Island) (m : Nat) : Island × Nat :=
  match isl.holder m with
  | some k => (isl.free k, 1)
  | none => match isl.entryOf m with
    | some k => (isl.freeImage k, 1)
    | none => (isl, 0)

end Island

/-- What a command needs before it is accepted (R262). -/
inductive SlotNeed where
  | ready
  | spill (slot entry : Nat)
  | reload (slot entry : Nat)
  | full (mark : Nat)
  deriving DecidableEq, Repr

/-- A slot for a mark: a free slot is needed when the mark is spilled, or when it is absent and an MMA takes it. -/
def slotNeed (isl : Island) (m : Nat) (forMma : Bool) : SlotNeed :=
  if (isl.holder m).isSome then .ready
  else
    let spillVictim : SlotNeed := match isl.freeEntry with
      | some k => .spill isl.victim k
      | none => .full (isl.slot isl.victim).mark
    match isl.entryOf m, isl.freeSlot with
    | some k, some sl => .reload sl k
    | some _, none => spillVictim
    | none, some _ => .ready
    | none, none => if forMma then spillVictim else .ready

/-- SlotFor once no transfer is needed (R262). -/
def slotFor (isl : Island) (m num : Nat) : Island × Nat :=
  match isl.holder m with
  | some k =>
    let sl := isl.slot k
    (if sl.state = 2 then isl.touch k { sl with state := 1, first := num } else isl, k)
  | none =>
    let k := isl.freeSlot.getD 0
    (isl.touch k { state := 1, mark := m, first := num }, k)

/-- The rounds of a spill or reload: 65,600 bytes at 64 bytes a round, and the unloaded latency to the image's vault (R8,
R262). -/
def transferRounds (i place : Nat) : Nat :=
  let t := Key.edgeTile (Key.engineDie i) (Key.engineSide i) (Key.enginePos i)
  let beneath := Place.bits place 42 37 == Key.rowOfTile t / 4 * 8 + Key.colOfTile t / 4
  1025 + if beneath then 24 else 110

/-- The 65,600 bytes of a slot's image (R263). -/
def imageBytes (sl : ISlot) : List Byte :=
  ((List.range 16384).flatMap fun k => leBytes 4 (sl.val.get 0 k).toNat)
    ++ leBytes 16 sl.srow.toNat ++ leBytes 16 sl.scol.toNat ++ leBytes 8 (Island.descriptor sl).toNat ++ List.replicate 24 0

/-- The image's element, masks and descriptor read back. -/
def imageSlot (s : State) (isl : Island) (k : Nat) : ISlot :=
  let w (off n : Nat) : Nat := s.read (isl.imagePlace k off) n
  { srow := BitVec.ofNat 128 (w 65536 16), scol := BitVec.ofNat 128 (w 65552 16), first := w 65568 4
    val := (List.range 16384).foldl (fun m j => m.put 0 j (BitVec.ofNat 32 (w (4 * j) 4))) [] }

/-- The first place of a spill image that holds an uncorrectable error (R405). -/
def imageEcc (s : State) (isl : Island) (k : Nat) : Option Nat :=
  if s.eccBad.isEmpty then none
  else (List.range 1025).findSome? fun c =>
    let p := isl.imagePlace k (64 * c)
    if s.eccAt p 64 then some p else none

/-- A read of a spill image corrects what can be corrected (R405). -/
def imageCorrected (s : State) (isl : Island) (k : Nat) : State :=
  if s.eccBad.isEmpty then s else (List.range 1025).foldl (fun s c => s.corrected (isl.imagePlace k (64 * c)) 64) s

/-- R262. A spill or reload transfer is performed, and the waiting command is accepted; an image with an uncorrectable error is not
read: the region rolls back (R345, R405). -/
def execSpillTransferDone (i : Nat) (s : State) : Out :=
  let isl := s.island i
  .next <| match isl.xfer with
    | some x =>
      if s.round < x.due || (!x.spill && (imageEcc s isl x.entry).isSome) then s
      else if x.spill then
        let sl := isl.slot x.slot
        let s := (List.range 1025).foldl (fun s c =>
          s.setBytes (isl.imagePlace x.entry (64 * c)) (((imageBytes sl).drop (64 * c)).take 64)) s
        s.setIsland i { isl.free x.slot with
          xfer := none, spilledNow := if x.asked then some sl.mark else isl.spilledNow
          dir := isl.dir.put 0 x.entry (Island.dirWord (sl.state == 2) false true sl.mark) }
      else
        let e := isl.dir.get 0 x.entry
        let m := e.toNat % 4096
        let isl := isl.touch x.slot { imageSlot s isl x.entry with mark := m, state := if e.getLsbD 30 then 2 else 1 }
        (imageCorrected s isl x.entry).setIsland i { isl.freeImage x.entry with xfer := none }
    | none => s

/-! ### Operand streams (R241, R254) -/

/-- A token that the island consumes from channel `ch` counts as overhang once that channel's MARKER of the next cut has been passed
(R254): where senders join at an input, each sends its own MARKER, and what came behind it is what that sender sends again. -/
def Island.consumed (isl : Island) (ch : Nat) : Island :=
  if isl.io.snapCut < isl.pastMark.get 0 ch then { isl with overhang := isl.overhang.put 0 ch (isl.overhang.get 0 ch + 1) } else isl

/-- What stands before the next token of an operand, scale or coefficient input goes: MARKERs are passed and counted, tokens that a
rollback's overhang names are discarded, and so are END tokens; one past the MARKER of the next cut is counted (R241, R254, R255).
`fuel` bounds the walk over the port. -/
def clearAhead (i k : Nat) : Nat → State → State
  | 0, s => s
  | fuel + 1, s =>
    let isl := s.island i
    match isl.io.inq k with
    | [] => s
    | t :: rest =>
      if s.round ≤ t.arr || t.tok.tag = 5 then s
      else
        let gone := { isl with io := { isl.io with ins := isl.io.ins.put [] k rest } }
        let go (isl : Island) : State := clearAhead i k fuel ((s.setIsland i isl).freeSlot t.ch t.dst)
        if t.tok.tag = 4 then go { gone with pastMark := isl.pastMark.put 0 t.ch (isl.pastMark.get 0 t.ch + 1) }
        else
          let gone := gone.consumed t.ch
          if 0 < isl.discard.get 0 t.ch then go { gone with discard := isl.discard.put 0 t.ch (isl.discard.get 0 t.ch - 1) }
          else if t.tok.tag = 7 then go gone
          else s

/-- The next token of an input, once what stands before it is gone; a DRAIN is none. -/
def ahead (s : State) (i k : Nat) : Option InTok :=
  match (s.island i).io.inq k with
  | t :: _ => if s.round ≤ t.arr || t.tok.tag = 5 || t.tok.tag = 4 then none else some t
  | [] => none

/-- The next token of an operand, scale or coefficient input is taken; one past the MARKER of the next cut is counted (R254). -/
def operand (i k fuel : Nat) (s : State) : State × Option Token :=
  let s := clearAhead i k fuel s
  match ahead s i k with
  | none => (s, none)
  | some t =>
    let isl := s.island i
    let isl := { isl with io := { isl.io with ins := isl.io.ins.put [] k (isl.io.inq k).tail } }
    ((s.setIsland i (isl.consumed t.ch)).freeSlot t.ch t.dst, some t.tok)

/-- An ERR token that the island takes and that goes no further is reported (R11, R12). -/
def islandReport (s : State) (i k : Nat) (t : Token) : State :=
  if t.tag = 6 then
    s.report (Key.enginePk i) (Key.place (Key.tileOf (Key.enginePk i)) 0) k (t.payload.setWidth 32) ((s.island i).io.snapCut + 1)
  else s

/-- An ERR token in an operand position goes on to the result output, or to the sink when none is routed (R241). -/
def islandErr (s : State) (i k : Nat) (t : Token) : State :=
  let isl := s.island i
  if (s.plane (Key.enginePk i)).routes.get 0 68 |>.getLsbD 31 then
    s.setIsland i { isl with io := isl.io.reserve 0 { tok := t, ready := s.round } }
  else s.report (Key.enginePk i) (Key.place (Key.tileOf (Key.enginePk i)) 0) k (t.payload.setWidth 32) (isl.io.snapCut + 1)

/-- The elements that one token carries: one, or on a ring, whose words are the byte stream of a block, as many as the word packs
(R233, R240). -/
def unpackTok (es : Nat) (t : Token) : List Opnd :=
  (List.range (4 / es)).map fun j => ⟨t.payload.toNat / 2 ^ (8 * es * j) % 2 ^ (8 * es), t.tag == 6⟩

/-- Bytes of one operand element of a format. -/
def opndBytes : Nat → Nat
  | 0 | 1 => 1 | 2 | 3 => 2 | _ => 4

/-- Up to `n` operands of input k (R241). On a ring-fed island a tag-3 header stays and fills the rest (R278), and a word is unpacked
into elements of `es` bytes. `fuel` bounds the tokens. -/
def takeOperands (i k : Nat) (ring : Bool) (es : Nat) : Nat → Nat → State → List Opnd → State × List Opnd
  | 0, _, s, acc => (s, acc)
  | _, 0, s, acc => (s, acc)
  | fuel + 1, n, s, acc =>
    let s := clearAhead i k 16 s
    if ring && (match ahead s i k with | some t => t.tok.tag == 3 | none => false) then (s, acc ++ List.replicate n ⟨0, true⟩)
    else match operand i k 16 s with
      | (s, some t) =>
        let s := if t.tag = 6 then islandErr s i k t else s
        let xs := if ring then unpackTok es t else [⟨t.payload.toNat % 2 ^ 32, t.tag == 6⟩]
        takeOperands i k ring es fuel (n - xs.length) s (acc ++ xs.take n)
      | (s, none) => (s, acc)

/-! ### The array (R61, R62, R248, R249) -/

/-- Shape and row-group mask of an MMA command. -/
def mmaM (c : Dword) : Nat := 16 * (lo c 0 3 + 1)
def mmaN (c : Dword) : Nat := 16 * (lo c 3 3 + 1)
def mmaG (c : Dword) : Nat := lo c 6 16
def mmaRg (c : Dword) : Nat := lo c 24 8
def mmaMark (c : Dword) : Nat := hi c 0 12
def mmaAcc (c : Dword) : Bool := c.getLsbD 44

def mmaRows (c : Dword) : List Nat := (List.range (mmaM c)).filter fun i => (mmaRg c).testBit (i / 16)

/-- An operand's value under a format, with its block scale; `none` is a special operand (R249), or under INT8 an ERR token. -/
def opVal (fmt : Nat) (o : Opnd) (scale : Opnd) : Option Val :=
  if o.special then none
  else match fmt with
    | 0 => if scale.special || scale.bits % 256 = 255 || o.bits % 256 = 0x80 then none
           else some (fromMK8 (o.bits % 256) (scale.bits % 256))
    | 1 => let v := (BitVec.ofNat 8 o.bits).toInt
           some (.num (decide (v < 0)) v.natAbs 0)
    | f => let (g, b) := match f with | 2 => (bf16, o.bits % 65536) | 3 => (fp16, o.bits % 65536) | _ => (fp32, o.bits)
           match ofBits g false b with
           | .num s n e => some (.num s n e)
           | _ => none

/-- The exact sum of a K-group as one value; an exact zero is +0 (R61). -/
def groupSum (xs : List Val) : Val :=
  let (t, e) := sumFinite xs
  .num (decide (t < 0)) t.natAbs e

/-- What an element's accumulation carries: the word, its flags, and whether it left the INT32 range. -/
structure Acc where
  c    : Word
  fl   : Flags := 0
  iovf : Bool := false

/-- One K-group into one element (R61, R62). -/
def accStep (fmt rm : Nat) (a : Acc) (p : Val) : Acc :=
  if fmt = 1 then
    let v : Int := match p with | .num s n e => if s then -((n * 2 ^ e.toNat : Nat) : Int) else (n * 2 ^ e.toNat : Nat) | _ => 0
    let t := a.c.toInt + v
    ⟨BitVec.ofInt 32 t, a.fl, a.iovf || t < -(2 ^ 31) || 2 ^ 31 - 1 < t⟩
  else
    let c := ofBits fp32 false a.c.toNat
    if p.isZero && c.isZero then a
    else
      let r := sumRes fp32 ⟨RM.ofCode rm, false, false⟩ false [c, p]
      ⟨r.word, a.fl ||| r.fl, a.iovf⟩

/-- The values of operands in the order that the MMA took them: A of group g, row number r (among the rows taken) and k; B of
k and column j. -/
def mmaA (m : Mma) (fmt : Nat) (g r k : Nat) : Option Val :=
  let rows := (mmaRows m.cmd).length
  opVal fmt (m.a.getD (g * 16 * rows + r * 16 + k) ⟨0, true⟩) (m.sa.getD (g * rows + r) ⟨0, false⟩)

def mmaB (m : Mma) (fmt : Nat) (g k j : Nat) : Option Val :=
  let n := mmaN m.cmd
  opVal fmt (m.b.getD ((g * 16 + k) * n + j) ⟨0, true⟩) (m.sb.getD (g * n + j) ⟨0, false⟩)

/-- One output element over every group; special operands enter as +0. -/
def mmaElement (m : Mma) (fmt rm : Nat) (start : Word) (r j : Nat) : Acc :=
  (List.range (mmaG m.cmd)).foldl (fun a g =>
    accStep fmt rm a (groupSum ((List.range 16).filterMap fun k =>
      match mmaA m fmt g r k, mmaB m fmt g k j with
      | some x, some y => some (mulVal x y).1
      | _, _ => none))) { c := start }

/-- The rows and the columns that hold a special operand (R249). -/
def specialRows (m : Mma) (fmt : Nat) : List Nat :=
  (mmaRows m.cmd).zipIdx.filterMap fun (i, r) =>
    if (List.range (mmaG m.cmd)).any (fun g => (List.range 16).any fun k => (mmaA m fmt g r k).isNone) then some i else none

def specialCols (m : Mma) (fmt : Nat) : List Nat :=
  (List.range (mmaN m.cmd)).filter fun j =>
    (List.range (mmaG m.cmd)).any fun g => (List.range 16).any fun k => (mmaB m fmt g k j).isNone

/-- MMA of R248 on its slot: the slot, the completion word's flags, IOVF. -/
def mmaApply (m : Mma) (setup : Word) (sl : ISlot) : ISlot × Flags × Bool :=
  let fmt := ISetup.fmt setup
  let whole := !mmaAcc m.cmd && mmaRg m.cmd = 255 && mmaN m.cmd = 128
  let sl := if whole then { sl with srow := 0, scol := 0 } else sl
  let rs := specialRows m fmt
  let cs := specialCols m fmt
  let (val, fl, iovf) := (mmaRows m.cmd).zipIdx.foldl (fun acc (i, r) =>
    (List.range (mmaN m.cmd)).foldl (fun (acc : Sparse Word × Flags × Bool) j =>
      let start := if mmaAcc m.cmd then sl.val.get 0 (128 * i + j) else 0
      let a := mmaElement m fmt (ISetup.rm setup) start r j
      (acc.1.put 0 (128 * i + j) a.c, acc.2.1 ||| a.fl, acc.2.2 || a.iovf)) acc) (sl.val, 0, false)
  let mask (l : List Nat) : BitVec 128 := l.foldl (fun m i => m ||| 1#128 <<< i) 0
  ({ sl with val := val, srow := sl.srow ||| mask rs, scol := sl.scol ||| mask cs },
    fl ||| (if rs.isEmpty && cs.isEmpty then 0 else fIV), iovf)

/-- A slot element as FP32, or the canonical NaN where its row or column is marked (R250). Under INT8 no NaN exists: `free` is
the value the spec leaves open (log 4). -/
def slotRead (fmt : Nat) (free : Word) (sl : ISlot) (i j : Nat) : Word :=
  if sl.srow.getLsbD i || sl.scol.getLsbD j then (if fmt = 1 then free else 0x7FC00000) else sl.val.get 0 (128 * i + j)

/-- Whether the value is the NaN overwrite, which raises no flag (R250). -/
def slotMarked (sl : ISlot) (i j : Nat) : Bool := sl.srow.getLsbD i || sl.scol.getLsbD j

/-- The contribution of a completed MMA (R174, R242): the value of element (OUTI, OUTJ) in the register's type, with its
rounding flags; `none` closes without a value. -/
def mmaContrib (s : State) (isl : Island) (m : Mma) (sl : ISlot) : Option (Word × BitVec 7) :=
  let i := ISetup.outI isl.setup
  let j := ISetup.outJ isl.setup
  match isl.mregSlot with
  | some (h, _) =>
    if !ISetup.cen isl.setup || !(mmaRows m.cmd).contains i || mmaN m.cmd ≤ j then none
    else
      let d := (s.home h).decl
      let w := slotRead (ISetup.fmt isl.setup) (Config.freeWord s.freeCtr) sl i j
      match d.ty with
      | 1 | 2 =>
        let r := ofVal bf16 ⟨RM.ofCode d.rm, false, false⟩ (ofBits fp32 false w.toNat)
        let fl := if slotMarked sl i j then 0 else r.fl.setWidth 7
        some (if d.ty = 1 then r.word else BitVec.ofNat 32 (r.bits * 65537), fl)
      | _ => some (w, 0)
  | none => none

/-! ### Acceptance (R245) -/

/-- The register of the island has an element home and its slot can take another close (R155). -/
def contribReady (s : State) (isl : Island) : Bool :=
  match isl.mregSlot with
  | some (h, k) => !closeRefused s h k
  | none => true

/-- Another command than an MMA may be accepted: every earlier command has completed in an earlier round. -/
def Island.allDone (isl : Island) (n : Nat) : Bool :=
  isl.mmas.isEmpty && isl.job == .none && (isl.idle < n || isl.cmdNo == 0)

/-- An MMA may be accepted in the last issue round of the MMA before it, or once every earlier command has completed (R245). -/
def Island.mmaNext (isl : Island) (n : Nat) : Bool :=
  isl.allDone n || (isl.job == .none && match isl.mmas.getLast? with
    | some m => m.lastIssue == some n
    | none => false)

/-- A command is taken from the command input: its number is counted. -/
def takeCommand (s : State) (i : Nat) : State :=
  let isl := s.island i
  match isl.io.pop 0 with
  | (io, some t) =>
    (s.setIsland i { isl with io := io, cmdNo := (isl.cmdNo + 1) % 2 ^ 32, spilledNow := none }).freeSlot t.ch t.dst
  | (_, none) => s

/-- An END or ERR token that stands where a command should is no command: it is taken, and an ERR is reported (R11, log 67). -/
def dropCommand (s : State) (i : Nat) (t : Token) : State :=
  let isl := s.island i
  match isl.io.pop 0 with
  | (io, some x) => islandReport ((s.setIsland i { isl with io := io }).freeSlot x.ch x.dst) i 0 t
  | (_, none) => s

/-- Completes at once with a word, in the round after acceptance. -/
def finishAt (s : State) (i : Nat) (w : Word) : State := s.setIsland i { s.island i with job := .finish (s.round + 1) w }

/-- An MMA that completes without running: it keeps its place among the MMAs. -/
def mmaAtOnce (s : State) (i : Nat) (c : Dword) (status count : Nat) : State :=
  let isl := s.island i
  s.setIsland i { isl with
    found := false
    mmas := isl.mmas ++ [{ cmd := c, acc := s.round, slot := 8, done := some (s.round + 1, complWord 0 status 0 false count) }] }

/-- RingScan of R278. -/
inductive Scan where
  | wait | found | passEnd | noBlock
  deriving DecidableEq, Repr

def ringScan (i mark : Nat) : Nat → State → State × Scan
  | 0, s => (s, .wait)
  | fuel + 1, s =>
    let s := clearAhead i 3 16 s
    match ahead s i 3 with
    | none => (s, .wait)
    | some t =>
      let pay := t.tok.payload.toNat % 2 ^ 32
      if t.tok.tag = 3 && pay = mark && mark ≠ 0xFFF then ((operand i 3 16 s).1, .found)
      else if t.tok.tag = 3 && pay = 2 ^ 32 - 1 then
        if mark = 0xFFF then ((operand i 3 16 s).1, .passEnd) else (s, .noBlock)
      else ringScan i mark fuel (islandReport (operand i 3 16 s).1 i 3 t.tok)

/-- A transfer starts, or SpillFull stops the island (R262, R264). -/
def startTransfer (s : State) (i : Nat) (need : SlotNeed) (asked : Bool := false) : State :=
  let isl := s.island i
  match need with
  | .spill sl e => s.setIsland i { isl with xfer := some ⟨true, sl, e, s.round + transferRounds i (isl.imagePlace e 0), asked⟩ }
  | .reload sl e => s.setIsland i { isl with xfer := some ⟨false, sl, e, s.round + transferRounds i (isl.imagePlace e 0), asked⟩ }
  | .full m => s.setIsland i { isl with spillWait := some m }
  | .ready => s

/-- An MMA takes its slot and is accepted, or the transfer that it needs goes first (R262). -/
def acceptReady (s : State) (i : Nat) (c : Dword) : State :=
  let isl := s.island i
  match slotNeed isl (mmaMark c) true with
  | .ready =>
    let s := takeCommand s i
    let (isl, k) := slotFor (s.island i) (mmaMark c) isl.cmdNo
    s.setIsland i { isl with found := false, mmas := isl.mmas ++ [{ cmd := c, acc := s.round, slot := k }] }
  | need => startTransfer s i need

/-- MMA at acceptance (R248, R278): its checks, on a ring-fed island the scan, and its slot. -/
def acceptMma (s : State) (i : Nat) (c : Dword) : State :=
  let isl := s.island i
  let closing := isl.ringFed && mmaMark c = 0xFFF
  let bad := lo c 22 2 ≠ 0 || hi c 13 19 ≠ 0
  let shape := mmaG c = 0 || mmaRg c = 0 || (mmaRg c) / 2 ^ (mmaM c / 16) ≠ 0
  if bad then mmaAtOnce (takeCommand s i) i c 2 0
  else if shape && !closing then mmaAtOnce (takeCommand s i) i c 1 0
  else if isl.ringFed && !isl.found then
    match ringScan i (mmaMark c) 300 s with
    | (s, .wait) => s
    | (s, .passEnd) => mmaAtOnce (takeCommand s i) i c 0 0
    | (s, .noBlock) => mmaAtOnce (takeCommand s i) i c 7 0
    | (s, .found) => acceptReady (s.setIsland i { s.island i with found := true }) i c
  else acceptReady s i c

/-- FLUSH at acceptance (R251). -/
def acceptFlush (s : State) (i : Nat) (c : Dword) : State :=
  let isl := s.island i
  let fmt := ISetup.fmt isl.setup
  let bf := c.getLsbD 6
  let m := hi c 0 12
  if lo c 8 24 ≠ 0 || hi c 12 20 ≠ 0 || (bf && fmt = 1) then finishAt (takeCommand s i) i (complWord 5 2 0 false 0)
  else if (isl.holder m).isNone && (isl.entryOf m).isNone then finishAt (takeCommand s i) i (complWord 5 4 0 false 0)
  else match slotNeed isl m false with
    | .ready =>
      let s := takeCommand s i
      let k := (isl.holder m).getD 0
      let sl := isl.slot k
      let idx := (List.range (mmaM c)).flatMap fun i => (List.range (mmaN c)).map fun j => (i, j)
      let rs := idx.map fun (x, y) =>
        let w := slotRead fmt (Config.freeWord s.freeCtr) sl x y
        if bf then
          let r := ofVal bf16 ⟨.rne, false, false⟩ (ofBits fp32 false w.toNat)
          (r.word, if slotMarked sl x y then 0 else r.fl)
        else (w, (0 : Flags))
      let fl := rs.foldl (fun (f : Flags) r => f ||| r.2) 0
      { s with freeCtr := s.freeCtr + 1 }.setIsland i { s.island i with
        job := .flush (rs.map Prod.fst) (if c.getLsbD 7 then some k else none)
          (complWord 5 0 fl false (mmaM c * mmaN c)) }
    | need => startTransfer s i need

/-- SETUP at acceptance (R252). -/
def acceptSetup (s : State) (i : Nat) (c : Dword) : State :=
  let s := takeCommand s i
  let isl := s.island i
  let a : Word := c.setWidth 32
  let field := hi c 0 32 ≠ 0 || a.toNat / 2 ^ 28 ≠ 0 || a.getLsbD 6 || 5 ≤ ISetup.rm a
    || ISetup.fmt a ≠ ISetup.fmt isl.setup || ISetup.mreg a ≠ ISetup.mreg isl.setup || (ISetup.cen a && isl.mregSlot.isNone)
  let busy := (List.range 8).any (fun k => (isl.slot k).state ≠ 0) || isl.dir.any fun e => e.2.getLsbD 31
  if field then finishAt s i (complWord 6 2 0 false 0)
  else if busy then finishAt s i (complWord 6 3 0 false 0)
  else finishAt (s.setIsland i { isl with setup := a }) i (complWord 6 0 0 false 0)

/-- RELEASE at acceptance (R272). -/
def acceptRelease (s : State) (i : Nat) (c : Dword) : State :=
  let s := takeCommand s i
  let isl := s.island i
  let all := c.getLsbD 0
  let pair := c.getLsbD 1
  if lo c 2 30 ≠ 0 || hi c 24 8 ≠ 0 || (all && (pair || hi c 0 32 ≠ 0)) || (!pair && hi c 12 12 ≠ 0) then
    finishAt s i (complWord 3 2 0 false 0)
  else
    let marks := if all then
        (List.range 8).filterMap (fun k => if (isl.slot k).state = 0 then none else some (isl.slot k).mark)
          ++ isl.dir.filterMap (fun e => if e.2.getLsbD 31 then some (e.2.toNat % 4096) else none)
      else if pair then [hi c 0 12, hi c 12 12] else [hi c 0 12]
    let (isl, n) := marks.foldl (fun (acc : Island × Nat) m =>
      let r := acc.1.release m
      (r.1, acc.2 + r.2)) (isl, 0)
    finishAt (s.setIsland i isl) i (complWord 3 0 0 false n)

/-- SPILL at acceptance (R272): the spill itself comes first. -/
def acceptSpill (s : State) (i : Nat) (c : Dword) : State :=
  let isl := s.island i
  let m := hi c 0 12
  let done (status count : Nat) : State := finishAt (takeCommand s i) i (complWord 4 status 0 false count)
  if lo c 0 32 ≠ 0 || hi c 12 20 ≠ 0 then done 2 0
  else if isl.spillN = 0 then done 5 0
  else if isl.spilledNow = some m then done 0 1
  else match isl.holder m with
    | some k => startTransfer s i (match isl.freeEntry with | some e => .spill k e | none => .full m) true
    | none => if (isl.entryOf m).isSome then done 0 0 else done 4 0

/-- BIND and REBIND at acceptance (R268, R271). -/
def acceptBind (s : State) (i : Nat) (c : Dword) (re : Bool) : State :=
  let s := takeCommand s i
  let isl := s.island i
  let op := if re then 2 else 1
  if lo c 7 25 ≠ 0 || hi c 0 32 ≠ 0 || ISetup.fmt isl.setup = 1 then finishAt s i (complWord op 2 0 false 0)
  else if re && (List.range 8).any (fun k => (isl.slot k).state == 1) then finishAt s i (complWord op 6 0 false 0)
  else s.setIsland i { isl with job := .bind { cmd := c ||| BitVec.ofNat 64 (op * 2 ^ 62) } }

/-- IFENCE at acceptance (R253). -/
def acceptFence (s : State) (i : Nat) (c : Dword) : State :=
  let s := takeCommand s i
  let isl := s.island i
  if c ≠ 0 then finishAt s i (complWord 7 2 0 false 0)
  else s.setIsland i { isl with job := .fence isl.doneCmds }

/-- R245. An island accepts the next MXT command when the earlier ones allow it, and checks it. -/
def execIslandCommandAccept (i : Nat) (s : State) : Out :=
  let isl := s.island i
  .next <|
    if !isl.bound || isl.io.drained || isl.xfer.isSome || isl.spillWait.isSome || !planeRuns s (Key.enginePk i) then s
    else match isl.io.head? s.round 0 with
      | some t =>
        let c := t.payload
        if t.tag = 7 || t.tag = 6 then dropCommand s i t
        else if t.form = 0 then (if isl.mmaNext s.round then acceptMma s i c else s)
        else if !isl.allDone s.round then s
        else match t.form.toNat with
          | 1 => acceptBind s i c false
          | 2 => acceptBind s i c true
          | 3 => acceptRelease s i c
          | 4 => acceptSpill s i c
          | 5 => acceptFlush s i c
          | 6 => acceptSetup s i c
          | _ => acceptFence s i c
      | none => s

/-! ### Issue and completion of an MMA (R244, R245, R278) -/

/-- What an MMA needs of each input. -/
def needOf (m : Mma) (mk8 : Bool) : Nat × Nat × Nat × Nat :=
  let r := (mmaRows m.cmd).length
  let g := mmaG m.cmd
  (r * g * 16, if mk8 then r * g else 0, mmaN m.cmd * g * 16, if mk8 then mmaN m.cmd * g else 0)

/-- The last MMA of the island replaced. -/
def Island.setLast (isl : Island) (m : Mma) : Island := { isl with mmas := isl.mmas.dropLast ++ [m] }

/-- The operands of issue round `issued` are there: those of index k = issued / r (R241, R244). -/
def canIssueK (m : Mma) (fmt : Nat) : Bool :=
  let k := m.issued / roundsPerK fmt
  let g := k / 16
  let r := (mmaRows m.cmd).length
  let n := mmaN m.cmd
  (g * 16 * r + (r - 1) * 16 + k % 16 < m.a.length && k * n + n ≤ m.b.length)
    && (fmt ≠ 0 || ((g + 1) * r ≤ m.sa.length && (g + 1) * n ≤ m.sb.length))

/-- The MMA takes what its inputs hold, issues one round when it can, and at its last issue round changes its slot. -/
def mmaIssue (s : State) (i : Nat) (m : Mma) : State :=
  let isl := s.island i
  let fmt := ISetup.fmt isl.setup
  let (na, nsa, nb, nsb) := needOf m (fmt == 0)
  let take (k : Nat) (ring : Bool) (n : Nat) (s : State) (l : List Opnd) : State × List Opnd :=
    takeOperands i k ring (opndBytes fmt) (n - l.length) (n - l.length) s l
  let (s, a) := take 2 false na s m.a
  let (s, b) := take 3 isl.ringFed nb s m.b
  let (s, sa) := take 4 false nsa s m.sa
  let (s, sb) := take 5 false nsb s m.sb
  let m := { m with a := a, b := b, sa := sa, sb := sb }
  let isl := s.island i
  if !canIssueK m fmt || isl.pendImg.contains m.slot then s.setIsland i (isl.setLast m)
  else
    let s := s.moved (Key.enginePk i)
    let m := { m with issued := m.issued + 1 }
    if m.issued < mmaG m.cmd * 16 * roundsPerK fmt then s.setIsland i (isl.setLast m)
    else
      let (sl, fl, iovf) := mmaApply m isl.setup (isl.slot m.slot)
      let m := { m with
        lastIssue := some s.round, done := some (s.round + 260, complWord 0 0 fl iovf (mmaG m.cmd)), contrib := mmaContrib s isl m sl }
      s.setIsland i ((isl.touch m.slot sl).setLast m)

/-- The contribution of an MMA reaches its slot before the MMA completes (R174): a close with or without a value. -/
def islandContrib (s : State) (isl : Island) (m : Mma) : State :=
  match isl.mregSlot with
  | some (h, k) =>
    let d := (s.home h).decl
    let s := contribAt s h k ⟨s.round, m.contrib.map fun v => (v.1, d.opc, d.ty), true⟩
    match m.contrib with
    | some (_, fl) =>
      let sk := (s.home h).slotKeys.getD k 0
      let p := s.pslot sk
      s.setPslot sk { p with cur := { p.cur with fl := p.cur.fl ||| fl } }
    | none => s
  | none => s

/-- The oldest MMA completes when its round has come and its close can be taken. -/
def mmaFinish (s : State) (i : Nat) : State :=
  let isl := s.island i
  match isl.mmas with
  | m :: rest =>
    match m.done with
    | some (due, w) =>
      let binds := w.toNat / 2 ^ 26 % 8 = 0 && m.slot < 8
      if s.round < due || (binds && !contribReady s isl) then s
      else
        let s := if binds then islandContrib s isl m else s
        islandSend (s.setIsland i { s.island i with mmas := rest }) i w
    | none => s
  | [] => s

/-! ### BIND, FLUSH, IFENCE: what follows acceptance -/

/-- The slot or spill image that holds a mark, for BIND. -/
def bindSlot (s : State) (isl : Island) (m : Nat) : Option ISlot :=
  match isl.holder m with
  | some k => some (isl.slot k)
  | none => (isl.entryOf m).map fun k => imageSlot s isl k

def bindM (c : Dword) : Nat := 16 * (lo c 1 3 + 1)
def bindN (c : Dword) : Nat := 16 * (lo c 4 3 + 1)

/-- Sorted insertion by mark, equal marks in entry order. -/
def insertMark (x : Nat × Word) : List (Nat × Word) → List (Nat × Word)
  | [] => [x]
  | y :: ys => if x.1 < y.1 then x :: y :: ys else y :: insertMark x ys

/-- The valid entries of a row that name a mark, in ascending mark (R269). -/
def rowEntries (es : List (Option Dword)) : List (Nat × Word) :=
  (es.filterMap fun e => match e with
    | some d => if d.getLsbD 63 then some ((d.extractLsb' 32 12).toNat, d.setWidth 32) else none
    | none => none).foldl (fun l x => insertMark x l) []

/-- One value of BIND: each step is one rounding of an exact sum (R269). -/
def bindValue (rm : Nat) (slots : List (ISlot × Word)) (i j : Nat) : Word × Flags :=
  let env : Env := ⟨RM.ofCode rm, false, false⟩
  let r := slots.foldl (fun (acc : Word × Flags) p =>
    let (v, bad) := mulVal (ofBits fp32 false p.2.toNat) (ofBits fp32 false (p.1.val.get 0 (128 * i + j)).toNat)
    let res := sumRes fp32 env bad [ofBits fp32 false acc.1.toNat, v]
    (res.word, acc.2 ||| res.fl)) (0, 0)
  if slots.any fun p => slotMarked p.1 i j then (0x7FC00000, r.2) else r

/-- One row of BIND, once its eight entries are there: its values, the marks it names, the absent marks and the flags (R269). -/
def bindRow (s : State) (i : Nat) (r : BindRun) : BindRun :=
  let isl := s.island i
  let bf := r.cmd.getLsbD 0
  let es := rowEntries r.es
  let l := es.filterMap fun e => (bindSlot s isl e.1).map fun sl => (e.1, sl, e.2)
  let slots := l.map Prod.snd
  let vals := (List.range (bindN r.cmd)).map fun j =>
    let (w, fl) := bindValue (ISetup.rm isl.setup) slots r.row j
    if bf then
      let res := ofVal bf16 ⟨.rne, false, false⟩ (ofBits fp32 false w.toNat)
      (res.word, if slots.any (fun p => slotMarked p.1 r.row j) then fl else fl ||| res.fl)
    else (w, fl)
  { r with
    row := r.row + 1, es := [], vals := r.vals ++ vals.map Prod.fst, marks := r.marks ++ l.map Prod.fst
    absent := r.absent + (es.length - l.length)
    fl := vals.foldl (fun f v => f ||| v.2) (r.fl ||| (if r.es.any Option.isNone then fIV else 0)) }

/-- Coefficient entries of the row at hand are taken as they come; an ERR token stands for an entry (R266), and is reported (R12). -/
def bindTake (s : State) (i : Nat) : Nat → List (Option Dword) → State × List (Option Dword)
  | 0, acc => (s, acc)
  | n + 1, acc =>
    match operand i 1 16 s with
    | (s, some t) => bindTake (islandReport s i 1 t) i n (acc ++ [if t.tag = 6 then none else some t.payload])
    | (s, none) => (s, acc)

/-- The spill images that a row of BIND reads. -/
def rowImages (isl : Island) (r : BindRun) : List Nat :=
  (rowEntries r.es).filterMap fun e => if (isl.holder e.1).isSome then none else isl.entryOf e.1

/-- The uncorrectable error that an island's read of a spill image has met, by a reload or a row of BIND (R405). -/
def islandEcc (s : State) (isl : Island) : Option Nat :=
  if s.eccBad.isEmpty then none
  else
    (isl.xfer.bind fun x => if x.spill || s.round < x.due then none else imageEcc s isl x.entry)
      <|> match isl.job with
        | .bind r => if r.es.length = 8 && r.vals.isEmpty then (rowImages isl r).findSome? (imageEcc s isl) else none
        | _ => none

/-- BIND and REBIND for one round: the entries of a row are read, and once they are there its values join those that leave. -/
def bindStep (s : State) (i : Nat) (r : BindRun) : State :=
  if r.row = bindM r.cmd then s
  else
    let (s, es) := bindTake s i (8 - r.es.length) r.es
    let r := { r with es := es }
    let isl := s.island i
    let due := es.length = 8 && r.vals.isEmpty && (islandEcc s { isl with job := .bind r }).isNone
    let s := if due then (rowImages isl r).foldl (fun s k => imageCorrected s isl k) s else s
    s.setIsland i { s.island i with job := .bind (if due then bindRow s i r else r) }

/-- Every mark that a BIND named becomes bound (R269). -/
def Island.bindMarks (isl : Island) (marks : List Nat) : Island :=
  marks.foldl (fun isl m => match isl.holder m with
    | some k => if (isl.slot k).state = 2 then isl else isl.touch k { isl.slot k with state := 2 }
    | none => match isl.entryOf m with
      | some k => { isl with dir := isl.dir.put 0 k (isl.dir.get 0 k ||| 0x40000000) }
      | none => isl) isl

/-- The result tokens of a channel that a destination has not received: RECV is a token's becoming the head (R64). -/
def unreceived (s : State) (ch : Nat) (d : UnitRef × Nat) : Bool :=
  let ts := ((s.io d.1).inq d.2).filter fun t => t.ch == ch && t.tok.tag != 4 && t.tok.tag != 5
  !ts.isEmpty && !(ts.length == 1 && match Ports.front [] ((s.io d.1).inq d.2) with
    | some (t, _) => t.ch == ch && t.arr < s.round
    | none => false)

/-- Every result token of an earlier command has been received at its destination (R253, R259). -/
def resultsReceived (s : State) (i : Nat) : Bool :=
  let ch := (UnitRef.island i).outChan 0
  ((s.island i).io.outq 0).isEmpty && (s.chan ch).flight.isEmpty && !(chanDests s ch).any (unreceived s ch)

/-- The last value of a FLUSH or BIND has been sent: the slot is freed or the marks are bound, and the completion token follows (R251,
R259, R269). -/
def islandEnd (s : State) (i : Nat) : State :=
  let isl := s.island i
  if !(isl.io.outq 0).isEmpty then s
  else match isl.job with
    | .flush [] free w =>
      let isl := match free with | some k => isl.free k | none => isl
      islandSend (s.setIsland i { isl with job := .none }) i w
    | .bind r =>
      if r.row = bindM r.cmd && r.vals.isEmpty then
        islandSend (s.setIsland i { isl.bindMarks r.marks with job := .none }) i (complWord (r.cmd.toNat / 2 ^ 62) 0 r.fl false r.absent)
      else s
    | _ => s

/-- The job of an island that is not an MMA, for one round. -/
def islandJob (s : State) (i : Nat) : State :=
  let isl := s.island i
  match isl.job with
  | .flush _ _ _ => islandEnd s i
  | .bind r => if r.row = bindM r.cmd then islandEnd s i else bindStep s i r
  | .fence n => if resultsReceived s i && isl.xfer.isNone then finishAt s i (complWord 7 0 0 false n) else s
  | .finish at_ w =>
    if at_ ≤ s.round then islandSend (s.setIsland i { isl with job := .none }) i w else s
  | .none => s

/-- R245. An MMA takes its operands, issues, and when it finishes sends its completion token; the same round's work of another
command (R251, R253, R269). -/
def execMmaComplete (i : Nat) (s : State) : Out :=
  let isl := s.island i
  .next <|
    if !isl.bound then s
    else
      let s := mmaFinish s i
      let s := match (s.island i).mmas.getLast? with
        | some m =>
          if m.done.isSome || s.round ≤ m.acc then s else mmaIssue s i m
        | none => s
      islandJob s i

/-! ### Results (R251, R269) -/

/-- R269. An island emits a FLUSH or BIND result value on its result output, one a round. -/
def execResultEmit (i : Nat) (s : State) : Out :=
  let isl := s.island i
  let push (v : Word) : Ports := isl.io.reserve 0 { tok := ⟨0, v.setWidth 64, 0⟩, ready := s.round }
  .next <|
    if 4 ≤ (isl.io.outq 0).length then s
    else match isl.job with
      | .flush (v :: vs) f w => s.setIsland i { isl with io := push v, job := .flush vs f w }
      | .bind r => match r.vals with
        | v :: vs => s.setIsland i { isl with io := push v, job := .bind { r with vals := vs } }
        | [] => s
      | _ => s

/-- The image of a slot that does not belong to the last complete cut (R254). The spec lays out neither the area nor its two images of a
slot: image `2 * slot + side` stands 65,600 bytes after the one before it (DESIGN CHOICE, log 79). -/
def Island.ckptPlace (isl : Island) (slot : Nat) : Nat :=
  isl.ckpt + (2 * slot + (!isl.ckptSide.get false slot).toNat) * 65600

/-- A slot as the island's last snapshot holds it. -/
def cutSlot (s : State) (i slot : Nat) : ISlot :=
  let isl := s.island i
  match (snapOf s (.island i) isl.io.snapCut).map Snap.val with
  | some (SnapVal.island x) => x.slot slot
  | _ => isl.slot slot

/-- R254. A slot written since the last cut is written, as the snapshot holds it, to the image that does not belong to the last complete
cut; firmware that has reserved no area leaves nothing to write (log 79). -/
def execIslandCheckpointWrite (i slot : Nat) (s : State) : Out :=
  let isl := s.island i
  .next <|
    if isl.pendImg.contains slot then
      let s := if isl.ckpt = 0 then s else s.setBytes (isl.ckptPlace slot) (imageBytes (cutSlot s i slot))
      s.setIsland i { isl with pendImg := isl.pendImg.filter (· ≠ slot), ckptNew := isl.ckptNew ++ [slot] }
    else s

/-! ### Drain (R255) -/

/-- The inputs that the course configures. -/
def Ports.configured (io : Ports) : List Nat := io.feed.keys

/-- Tokens that stand ahead of a DRAIN on an input are taken and discarded; an ERR is reported (R11). -/
def discardTo (i k : Nat) : Nat → State → State
  | 0, s => s
  | n + 1, s => match operand i k 16 s with
    | (s, some t) => discardTo i k n (islandReport s i k t)
    | (s, none) => s

/-- R255. With its command input drained and every command complete, the island discards surplus operands; once a DRAIN has
reached every configured input, it passes DRAIN on, and asks for an early cut (R18). -/
def execIslandDrain (i : Nat) (s : State) : Out :=
  let isl := s.island i
  .next <|
    if !isl.bound || isl.io.drained || !isl.io.drainedIn s.round 0 || !isl.allDone s.round || isl.xfer.isSome then s
    else
      let ks := isl.io.configured.filter (· ≠ 0)
      let s := ks.foldl (fun s k => discardTo i k 256 s) s
      let isl := s.island i
      if ks.all (isl.io.drainedIn s.round) then
        let t : OutTok := { tok := ⟨5, 0, 0⟩, ready := s.round }
        let routes := (s.plane (Key.enginePk i)).routes
        let io := [0, 1].foldl (fun (io : Ports) k =>
          if Route.v (routes.get 0 (68 + k)) && !io.closedOut.testBit k then io.reserve k t else io) isl.io
        (s.setIsland i { isl with io := { io with drained := true } }).askCut (Key.enginePk i)
      else s

end Sys2Proof.Machine
end

