-- ==== Sys2Proof/Machine/Streamer.lean ====
section
/-! DEFINITION. Machine/Streamer: STC (R223), the commands of a streamer (R225-R233), its format stage (R229), the weight ring
(R233, R277, R279), drain (R234), and collectives (R376-R379). -/

namespace Sys2Proof.Machine

open Sys2Proof.Machine.Num

/-! ### STC (R223) -/

/-- R227. Sends the command that copies bytes from one stream to another. -/
def execStcCopy (x : EA) (s : State) : Out := runCommand 0x39 0 x s

/-- R228. Sends the command that gathers elements by index. -/
def execStcGather (x : EA) (s : State) : Out := runCommand 0x39 1 x s

/-- R228. Sends the command that scatters elements by index. -/
def execStcScatter (x : EA) (s : State) : Out := runCommand 0x39 2 x s

/-- R232. Sends the flagged fence. -/
def execStcFlagf (x : EA) (s : State) : Out := runCommand 0x39 3 x s

/-- R231. Sends the command that closes the open batch. -/
def execStcBatch (x : EA) (s : State) : Out := runCommand 0x39 4 x s

/-- R231. Sends the command that waits for batches. -/
def execStcWaitb (x : EA) (s : State) : Out := runCommand 0x39 5 x s

/-- R233. Sends the command that puts a block on the weight ring. -/
def execStcInject (x : EA) (s : State) : Out := runCommand 0x39 6 x s

/-- R233. Sends the command that evicts an expert. -/
def execStcEvict (x : EA) (s : State) : Out := runCommand 0x39 7 x s

/-! ### Command fields (R225) and SPBs (R224) -/

namespace SCmd
def sp (c : SCmd) (k : Nat) : Nat := lo c.word (6 * k) 6
def b (c : SCmd) : Nat := hi c.word 0 32
def expert (c : SCmd) : Nat := lo c.word 6 12
end SCmd

namespace Streamer

/-- SPB k of the table: eight dwords. A place the image leaves empty holds zeros. -/
def spb (t : Streamer) (k : Nat) : List Dword := (List.range 8).map fun j => t.spbs.get 0 (8 * k + j)

def declared (t : Streamer) (k : Nat) : Bool := (t.spb k).any (· != 0)

/-- The command with an identity, and the commands with it replaced or removed. -/
def cmd? (t : Streamer) (id : Nat) : Option SCmd := t.cmds.find? (·.id == id)
def setCmd (t : Streamer) (c : SCmd) : Streamer := { t with cmds := t.cmds.map fun d => if d.id = c.id then c else d }
def dropCmd (t : Streamer) (id : Nat) : Streamer := { t with cmds := t.cmds.filter (·.id != id) }

/-- Room for a completion token. -/
def compRoom (t : Streamer) : Bool := (t.io.outq 0).length < 4

/-- Tokens that have entered the ring: those put there that the output no longer holds (R233). -/
def ringGone (t : Streamer) : Nat := t.ringSent - (t.io.outq 1).countP fun o => o.tok.tag != 4 && o.tok.tag != 5

/-- The outstanding batches: closed, with a command that has not completed (R231). -/
def outstanding (t : Streamer) : Nat :=
  (List.range t.batchNo).countP fun b => t.cmds.any fun c => c.batch == b && c.form != 5

end Streamer

/-! ### Chunks: the elements that a command reads and writes -/

/-- Bytes of one element that are read: their offset in the byte stream, place and length. -/
structure RdChunk where
  off   : Nat
  place : Nat
  n     : Nat
  deriving DecidableEq, Repr

/-- Bytes of one element that are written: the source bytes they come from by offset and length, the place, and the bytes. -/
structure WrChunk where
  off   : Nat
  srcN  : Nat
  place : Nat
  bytes : List Byte
  deriving DecidableEq, Repr

/-- The first `n` bytes of an affine stream as chunks (R227). -/
def affChunks (spb : List Dword) (pins : List Pin) (n : Nat) : List RdChunk :=
  let e := Spb.esize spb
  (List.range ((n + e - 1) / e)).filterMap fun j =>
    (pinPlace pins (Spb.addr spb j)).map fun p => ⟨j * e, p, min e (n - j * e)⟩

/-- Offsets of index and scale bytes among what a command has read. -/
def auxBase : Nat := 2 ^ 40

/-- Where the bytes of an island's slots stand in its memory (R184): element (i, j) of slot k at 65,536 k + 512 i + 4 j, as MXA numbers
them (R317, log 82). The key of the island in a plane, the slot, the element, and the byte of the word. -/
def islandAt (pk p : Nat) : Nat × Nat × Nat × Nat :=
  let off := Place.bits p 18 0
  (Key.engine (Place.die p) (Place.bits p 42 41) (Place.bits p 40 36) (pk % 4), off / 65536, off % 65536 / 4, off % 4)

def isIslandMem (s : State) (p : Nat) : Bool := isOwn s p && Place.space p == 3

/-- A byte that a streamer at a tile reads, and one that it writes: of memory, or of an island's slots in its plane (R184). -/
def stByte (s : State) (pk p : Nat) : Byte :=
  if isIslandMem s p then
    let (i, k, e, b) := islandAt pk p
    ((((s.island i).slot k).val.get 0 e).extractLsb' (8 * b) 8)
  else s.byte p

def stSetByte (s : State) (pk p : Nat) (v : Byte) : State :=
  if isIslandMem s p then
    let (i, k, e, b) := islandAt pk p
    let isl := s.island i
    let w := (isl.slot k).val.get 0 e
    let w' := BitVec.ofNat 32 (w.toNat - w.toNat / 2 ^ (8 * b) % 256 * 2 ^ (8 * b) + v.toNat * 2 ^ (8 * b))
    s.setIsland i (isl.setSlot k { isl.slot k with val := (isl.slot k).val.put 0 e w', dirty := true, fresh := true })
  else s.setByte p v

/-- Bytes that a streamer writes; a dword of memory that they cover whole is sound again (R405, log 18). -/
def stSetBytes (s : State) (pk p : Nat) (bs : List Byte) : State :=
  let s := bs.zipIdx.foldl (fun (s : State) b => stSetByte s pk (p + b.2) b.1) s
  if isIslandMem s p then s else s.cleanse p bs.length

/-- A streamer may use the bank of a place: it is not with another course of its launch (R68, log 81). -/
def streamerHolds (s : State) (pk p : Nat) : Bool :=
  !isTileMem s p || match (s.tile (Place.tile p)).owner.get none (bankOf p), ownerOf s pk with
    | some o, some me => o.1 != me.1 || o.2 == me.2
    | _, _ => true

/-- A streamer's access to a place goes on in this round (R68, R177), over links that carry traffic (R374); a read under OBSERVE needs
F = 1 (R179). -/
def stOpen (s : State) (pk p : Nat) (observe : Bool) : Bool :=
  s.bankTurn p && (!isOwn s p || diesLinked s (Key.dieOfTile (Key.tileOf pk)) (Place.die p)) && streamerHolds s pk p
    && (!observe || !isTileMem s p || s.isFull p)

/-- A list of chunks is worked off in order, from the one at hand to the first that cannot go on; true once all are done. -/
def workChunks {α : Type} (go : State → α → Bool) (act : State × StXfer → α → State × StXfer) :
    List α → State × StXfer → State × StXfer × Bool
  | [], r => (r.1, { r.2 with pos := 0 }, true)
  | c :: cs, r =>
    if go r.1 c then
      let r := act r c
      workChunks go act cs (r.1, { r.2 with pos := r.2.pos + 1 })
    else (r.1, r.2, false)

/-- Chunks are read: bytes of this device now, others over DLT (R227, R367). -/
def stFetch (s : State) (st id : Nat) (x : StXfer) (observe : Bool) (cs : List RdChunk) : State × StXfer × Bool :=
  let pk := Key.enginePk st
  workChunks (fun s c => stOpen s pk c.place observe) (fun r c =>
    if isOwn r.1 c.place then
      let data := (List.range c.n).foldl (fun (d : Sparse Byte) k => d.put 0 (c.off + k) (stByte r.1 pk (c.place + k))) r.2.data
      ((r.1.takeTurn c.place).readGood pk c.place c.n, { r.2 with data := data })
    else (r.1.dltSend (Place.device c.place) c.place (.rd c.n) (.stRead st id c.off), { r.2 with rd := r.2.rd + 1 }))
    (cs.drop x.pos) (s, x)

/-- A byte of this device among chunks holds an uncorrectable error: the command waits for the rollback (R345). -/
def stEcc (s : State) (cs : List RdChunk) : Bool := cs.any fun c => isOwn s c.place && s.eccAt c.place c.n

def StXfer.bytes (x : StXfer) (base n : Nat) : List Byte := (List.range n).map fun k => x.data.get 0 (base + k)

/-- A byte of the source was refused. -/
def StXfer.isRefused (x : StXfer) (k : Nat) : Bool := x.refused.get 0 k != 0

/-- Source bytes marked with the status of a refusal. -/
def StXfer.refuse (x : StXfer) (off n status : Nat) : StXfer :=
  { x with refused := (List.range n).foldl (fun (m : Sparse Nat) k => m.put 0 (off + k) status) x.refused }

/-- The bytes of a chunk that may be written: those whose source was not refused. -/
def wrMask (x : StXfer) (c : WrChunk) : List Bool :=
  (List.range c.bytes.length).map fun k => !x.isRefused (if c.srcN = c.bytes.length then c.off + k else c.off)

/-- The bytes of a chunk that stand in tile memory are written: their granule is complete once all 16 are (R227). -/
def writeChunk (s : State) (pk cut : Nat) (x : StXfer) (c : WrChunk) : State × StXfer :=
  let mask := wrMask x c
  let s := s.takeTurn c.place
  let s := if mask.all id then stSetBytes s pk c.place c.bytes
    else (c.bytes.zip mask).zipIdx.foldl (fun (s : State) b => if b.1.2 then stSetByte s pk (c.place + b.2) b.1.1 else s) s
  let g := c.place / 16
  let m := mask.zipIdx.foldl (fun (m : Nat) b => if b.1 then m ||| 2 ^ (c.place % 16 + b.2) else m) (x.gmask.get 0 g)
  if m = 65535 then (s.fillGranule pk cut c.place, { x with gmask := x.gmask.put 0 g 0 })
  else (s, { x with gmask := x.gmask.put 0 g m })

/-- The stream of a write ends: its partly written granules are complete (R227). -/
def fillRest (pk cut : Nat) (r : State × StXfer × Bool) : State × StXfer × Bool :=
  if r.2.2 then (r.2.1.gmask.foldl (fun s g => s.fillGranule pk cut (g.1 * 16)) r.1, { r.2.1 with gmask := [] }, true) else r

/-- Chunks are written: bytes of this device now, under a mask where the source was refused; others over DLT. -/
def stStore (s : State) (st id : Nat) (x : StXfer) (cs : List WrChunk) : State × StXfer × Bool :=
  let pk := Key.enginePk st
  let cut := (s.streamer st).io.snapCut + 1
  fillRest pk cut <| workChunks (fun s c => stOpen s pk c.place false) (fun r c =>
    let mask := wrMask r.2 c
    if !mask.any (fun b => b) then r
    else if isOwn r.1 c.place then writeChunk r.1 pk cut r.2 c
    else (r.1.dltSend (Place.device c.place) c.place (.wr c.bytes mask) (.stWrite st id c.off c.srcN),
      { r.2 with wr := r.2.wr + 1 }))
    (cs.drop x.pos) (s, x)

/-! ### The format stage (R229) -/

/-- The largest magnitude of a block; NaN or ∞ stands for the whole block (R132). -/
def maxMag (xs : List Val) : Val :=
  xs.foldl (fun m v =>
    match m, v with
    | .num _ n e, .num _ n' e' =>
      let a := Frac.ofDyadic n e
      let b := Frac.ofDyadic n' e'
      if a.n * b.d < b.n * a.d then .num false n' e' else .num false n e
    | .num _ _ _, v => v
    | m, _ => m) (.num false 0 0)

/-- The n-byte groups of a list of bytes. -/
def groups (n : Nat) : Nat → List Byte → List (List Byte)
  | 0, _ => []
  | k + 1, bs => bs.take n :: groups n k (bs.drop n)

/-- One block of 16 source elements: the destination bytes, the scale byte it makes, and its flags. -/
def fmtBlock (fmt : Nat) (src : List Byte) (scale : Nat) : List Byte × Nat × Flags :=
  let quant (vals : List Val) : List Byte × Nat × Flags :=
    let sc := blockScale (maxMag vals)
    let rs := vals.map fun v => toMK8 v sc .rne
    (rs.map fun r => BitVec.ofNat 8 r.1, sc, rs.foldl (fun f r => f ||| r.2) 0)
  let widen (f : Fmt) (n : Nat) : List Byte × Nat × Flags :=
    let rs := src.map fun c => ofVal f ⟨.rne, false, false⟩ (fromMK8 c.toNat scale)
    (rs.flatMap fun r => leBytes n r.bits, scale, rs.foldl (fun f r => f ||| r.fl) 0)
  match fmt with
  | 1 => quant ((groups 4 16 src).map fun g => ofBits fp32 false (leNat g))
  | 2 => quant ((groups 2 16 src).map fun g => ofBits bf16 false (leNat g))
  | 3 => widen fp32 4
  | _ => widen bf16 2

/-- Source and destination element sizes of a format stage. -/
def fmtSizes : Nat → Nat × Nat
  | 1 => (4, 1) | 2 => (2, 1) | 3 => (1, 4) | 4 => (1, 2) | _ => (0, 0)

/-! ### Checks before any access (R225, R230) -/

/-- The direction and mode of an SPB fit its role. -/
def roleOk (l : List Dword) (store indexed : Bool) : Bool := Spb.store l == store && Spb.indexed l == indexed

/-- Field check of a command: fields marked 0, and SPBs that are empty or do not fit their role. -/
def fieldBad (t : Streamer) (c : SCmd) : Bool :=
  let src := t.spb (c.sp 0)
  let dst := t.spb (c.sp 1)
  let aux := t.spb (c.sp 2)
  let no (k : Nat) : Bool := !t.declared (c.sp k)
  let fmt := Spb.fmt src
  match c.form with
  | 0 => lo c.word 18 14 != 0 || no 0 || no 1 || !roleOk src false false || !roleOk dst true false
      || (if fmt = 0 then c.sp 2 != 0 else no 2 || !roleOk aux (decide (fmt ≤ 2)) false)
  | 1 => lo c.word 18 14 != 0 || no 0 || no 1 || no 2 || !roleOk src false true || !roleOk dst true false
      || !roleOk aux false false
  | 2 => lo c.word 18 14 != 0 || no 0 || no 1 || no 2 || !roleOk src false false || !roleOk dst true true
      || !roleOk aux false false
  | 3 => lo c.word 6 26 != 0 || no 0 || !roleOk src true false
  | 4 => c.word != 0
  | 5 => lo c.word 0 32 != 0
  | 6 => lo c.word 18 14 != 0 || no 0 || !roleOk src false false
  | _ => lo c.word 0 6 != 0 || lo c.word 18 14 != 0 || c.b != 0

/-- The bytes of an affine stream. -/
def Spb.nbytes (l : List Dword) : Nat := Spb.total l * Spb.esize l

/-- B exceeds an extent. A FLAGF whose flag SPB has no element exceeds it too (DESIGN CHOICE, log 67). -/
def overrun (t : Streamer) (c : SCmd) : Bool :=
  let src := t.spb (c.sp 0)
  let dst := t.spb (c.sp 1)
  let aux := t.spb (c.sp 2)
  match c.form with
  | 0 => decide (Spb.nbytes src < c.b)
      || (if Spb.fmt src = 0 then decide (Spb.nbytes dst < c.b) else decide (Spb.total dst < c.b / Spb.esize src))
  | 1 => decide (Spb.total aux < c.b) || decide (Spb.total dst < c.b)
  | 2 => decide (Spb.total aux < c.b) || decide (Spb.total src < c.b)
  | 3 => Spb.total src == 0
  | 6 => decide (Spb.nbytes src < c.b)
  | _ => false

/-- A format rule is broken. -/
def formatBad (t : Streamer) (c : SCmd) : Bool :=
  let src := t.spb (c.sp 0)
  let dst := t.spb (c.sp 1)
  let aux := t.spb (c.sp 2)
  match c.form with
  | 0 =>
    let f := Spb.fmt src
    Spb.fmt dst != 0 || (f != 0 && (decide (4 < f) || (Spb.esize src, Spb.esize dst) != fmtSizes f
      || c.b % (16 * Spb.esize src) != 0 || Spb.esize aux != 1 || decide (Spb.total aux < c.b / (16 * Spb.esize src))))
  | 1 | 2 => Spb.ecode aux != 2 || Spb.esize src != Spb.esize dst || Spb.fmt src != 0 || Spb.fmt dst != 0 || Spb.fmt aux != 0
  | 6 => c.b % 16 != 0 || Spb.fmt src != 0
  | _ => false

/-- The status that the checks give: 7 FIELD, 1 OVERRUN, 5 FORMAT, then 6 EVICTED (R225, R233). -/
def checkCmd (t : Streamer) (c : SCmd) : Nat :=
  if fieldBad t c then 7 else if overrun t c then 1 else if formatBad t c then 5
  else if c.form = 6 && t.evicted.contains c.expert then 6 else 0

/-! ### Completion (R226) -/

/-- The completion token leaves, and a status other than OK is counted for its cut interval (R64, R226, R337). -/
def stcSend (s : State) (st form status : Nat) (fl : Flags) (count : Nat) : State :=
  let t := s.streamer st
  let w := form * 2 ^ 29 + status * 2 ^ 26 + flagBits fl + count % 2 ^ 21
  let s := s.setStreamer st { t with io := t.io.reserve 0 { tok := ⟨0, BitVec.ofNat 64 w, 0⟩, ready := s.round } }
  if status = 0 then s else s.failed (Key.enginePk st) (t.io.snapCut + 1) false

/-- A command completes and leaves the queue. -/
def stcDone (s : State) (st : Nat) (c : SCmd) (status count : Nat) : State :=
  stcSend ((s.setStreamer st ((s.streamer st).dropCmd c.id)).touch (Key.enginePk st)) st c.form status c.flags count

/-! ### The ring (R233, R277) -/

/-- Tokens go onto the ring. -/
def ringPush (t : Streamer) (n : Nat) (toks : List Token) : Streamer :=
  { t with ringSent := t.ringSent + toks.length
           io := toks.foldl (fun (io : Ports) k => io.reserve 1 { tok := k, ready := n }) t.io }

/-- The pass-end header. -/
def passEnd : Token := ⟨3, 0xFFFFFFFF, 0⟩

/-- The tokens of an INJECT: its header, then its words in byte order. -/
def injectTokens (c : SCmd) : List Token :=
  let n := if c.x.refused.isEmpty then c.b else 0
  ⟨3, BitVec.ofNat 64 c.expert, 0⟩ :: elementTokens (c.x.bytes 0 n)

/-- The next thing for the ring: the header of the oldest closed batch whose INJECTs have all completed, or the oldest INJECT whose
data has come. An INJECT of whose block another device has refused a byte sends nothing and completes with COUNT 0 (DESIGN CHOICE,
log 67). -/
def ringNext (n : Nat) (t : Streamer) : Streamer :=
  let left := t.cmds.find? fun c => c.form == 6 && c.status == 0
  let inj := t.cmds.find? fun c => c.form == 6 && c.status == 0 && c.mark.isNone
  let cl := t.closing.find? fun p => p.2.isNone
  let header (b : Nat) : Streamer :=
    let t := ringPush t n [passEnd]
    { t with closing := t.closing.map fun p => if p.1 = b then (b, some t.ringSent) else p }
  let block (c : SCmd) : Streamer :=
    if c.x.phase = 1 && c.x.rd = 0 then
      let t := if c.x.refused.isEmpty then ringPush t n (injectTokens c) else t
      t.setCmd { c with mark := some t.ringSent }
    else t
  match cl, left, inj with
  | some (b, _), some c, some i => if b < c.batch then header b else if i.batch ≤ b then block i else t
  | some (b, _), some c, none => if b < c.batch then header b else t
  | some (b, _), none, _ => header b
  | none, _, some i => block i
  | none, _, none => t

/-- The ring takes everything that is ready. -/
def ringPump (n : Nat) : Nat → Streamer → Streamer
  | 0, t => t
  | k + 1, t => ringPump n k (ringNext n t)

def State.pump (s : State) (st : Nat) : State :=
  let t := s.streamer st
  s.setStreamer st (ringPump s.round (t.cmds.length + t.closing.length) t)

/-- The pass boundary of an EVICT has come: the header of its batch's pass, or of a later one, has been sent (R279). -/
def boundaryPassed (t : Streamer) (c : SCmd) : Bool :=
  t.closing.any fun p => c.batch ≤ p.1 && (match p.2 with | some m => decide (m ≤ t.ringGone) | none => false)

/-- Closed batches whose header has been sent, and that no EVICT waits for, are forgotten. -/
def Streamer.tidy (t : Streamer) : Streamer :=
  { t with closing := t.closing.filter fun p =>
      !(match p.2 with | some m => decide (m ≤ t.ringGone) | none => false) || t.cmds.any fun c => c.form == 7 && c.batch ≤ p.1 }

/-! ### Batches and acceptance (R231) -/

/-- The open batch closes, if it holds a command; a batch with an INJECT has its pass-end header (R231, R277). -/
def Streamer.closeBatch (t : Streamer) : Streamer :=
  if t.opened = 0 then t
  else { t with
    batchNo := t.batchNo + 1, opened := 0, hasInject := false
    closing := if t.hasInject then t.closing ++ [(t.batchNo, none)] else t.closing }

/-- The command at the head of the command input is taken. -/
def stTake (s : State) (st : Nat) : State :=
  let t := s.streamer st
  match t.io.pop 0 with
  | (io, some k) => (s.setStreamer st { t with io := io }).freeSlot k.ch k.dst
  | (_, none) => s

/-- One command accepted. BATCH completes at once; WAITB closes the open batch and waits; every other joins the open batch. -/
def acceptCmd (s : State) (st form : Nat) (word : Dword) : State :=
  let s := stTake s st
  let t := s.streamer st
  let c : SCmd := { id := t.nextCmd, form := form, word := word, acc := s.round, batch := t.batchNo, cut := t.io.snapCut + 1 }
  let c := { c with status := checkCmd t c }
  let t := { t with nextCmd := t.nextCmd + 1 }
  match form with
  | 4 =>
    if c.status ≠ 0 then stcSend (s.setStreamer st t) st 4 c.status 0 0
    else stcSend ((s.setStreamer st t.closeBatch).pump st) st 4 0 0 t.opened
  | 5 =>
    let t := if c.status = 0 then t.closeBatch else t
    (s.setStreamer st { t with cmds := t.cmds ++ [{ c with batch := t.batchNo }] }).pump st
  | _ => s.setStreamer st { t with
      cmds := t.cmds ++ [c], opened := t.opened + 1, hasInject := t.hasInject || form == 6 }

/-- An ERR-tagged token that stops at an input of a streamer is reported (R11, R12): at the number of the input (log 80). -/
def State.stErr (s : State) (st k : Nat) (t : Token) : State :=
  if t.tag = 6 then
    s.report (Key.enginePk st) (Key.place (Key.tileOf (Key.enginePk st)) 0) k (t.payload.setWidth 32) ((s.streamer st).io.snapCut + 1)
  else s

/-- R231. A streamer accepts a command in arrival order: nothing behind a WAITB that has not completed, and within its limits of
64 commands and 16 outstanding batches. -/
def execStreamerCommandAccept (st : Nat) (s : State) : Out :=
  let t := s.streamer st
  .next <|
    if !t.bound || t.io.drained || t.draining || !planeRuns s (Key.enginePk st) || t.cmds.any (·.form == 5)
        || 64 ≤ t.cmds.length || 16 ≤ t.outstanding || !t.compRoom then s
    else match t.io.head? s.round 0 with
      | some k => if k.tag = 7 || k.tag = 6 then (stTake s st).stErr st 0 k else acceptCmd s st k.form.toNat k.payload
      | none => s

/-! ### Running a command (R227-R229) -/

/-- The earliest round in which a command can have moved its bytes: 64 a round. -/
def dueOf (t : Streamer) (c : SCmd) : Nat :=
  let n := match c.form with
    | 0 | 6 => c.b
    | 1 => c.b * Spb.esize (t.spb (c.sp 1))
    | 2 => c.b * Spb.esize (t.spb (c.sp 0))
    | _ => 0
  c.acc + max 1 ((n + 63) / 64)

/-- The chunks of indices or scales that a command reads first. -/
def auxChunks (t : Streamer) (c : SCmd) : List RdChunk :=
  let aux := t.spb (c.sp 2)
  let pins := t.pins.get [] (c.sp 2)
  match c.form with
  | 0 => if 3 ≤ Spb.fmt (t.spb (c.sp 0)) then affChunks aux pins (c.b / 16) else []
  | 1 | 2 => affChunks aux pins (4 * c.b)
  | _ => []

/-- The places of indexed elements; the status of those that move nothing: 2 INDEX, 3 PERM, 4 SPACE; or the first address that
waits for the walker (R228). An element whose index or source another device has refused moves nothing (R370). -/
def indexedPlaces (s : State) (pk : Nat) (t : Streamer) (c : SCmd) (spb : List Dword) : List (Except Nat Nat) ⊕ Nat :=
  let e := Spb.esize (t.spb (c.sp 0))
  let rs := (List.range c.b).map fun j =>
    let i := leNat (c.x.bytes (auxBase + 4 * j) 4)
    if c.x.isRefused (j * e) then (some (.error (c.x.refused.get 0 (j * e))), 0)
    else if Spb.count spb 0 ≤ i then (some (.error 2), 0)
    else match xlate s pk true t.ctx spb (Spb.indexAddr spb i) with
      | .place p => (some (Except.ok p), 0)
      | .err k => (some (.error (k + 1)), 0)
      | .miss => (none, Spb.indexAddr spb i)
  match rs.find? (·.1.isNone) with
  | some r => .inr r.2
  | none => .inl (rs.filterMap Prod.fst)

/-- What a command reads, or the address that it waits for; with the elements that move nothing. -/
def srcChunks (s : State) (pk : Nat) (t : Streamer) (c : SCmd) : (List RdChunk × List (Nat × Nat)) ⊕ Nat :=
  let src := t.spb (c.sp 0)
  let e := Spb.esize src
  match c.form with
  | 1 => match indexedPlaces s pk t c src with
    | .inr va => .inr va
    | .inl ps => .inl (ps.zipIdx.filterMap fun p => match p.1 with
        | .ok pl => some ⟨p.2 * e, pl, e⟩
        | .error _ => none, ps.zipIdx.filterMap fun p => match p.1 with | .ok _ => none | .error k => some (p.2 * e, k))
  | 2 => .inl (affChunks src (t.pins.get [] (c.sp 0)) (c.b * e), [])
  | _ => .inl (affChunks src (t.pins.get [] (c.sp 0)) c.b, [])

/-- A block that a format stage codes moves whole or not at all, since its scale rests on all of it: a refused byte marks its block. -/
def blockRefusals (x : StXfer) (n size : Nat) : StXfer :=
  (List.range (n / size)).foldl (fun x k =>
    match (List.range size).find? fun j => x.isRefused (k * size + j) with
    | some j => x.refuse (k * size) size (x.refused.get 0 (k * size + j))
    | none => x) x

/-- What a COPY writes (R227, R229), with the flags of its format stage: of the blocks that it codes, or of the codes that it widens. -/
def copyWrites (t : Streamer) (c : SCmd) : List WrChunk × Flags × StXfer :=
  let src := t.spb (c.sp 0)
  let dst := t.spb (c.sp 1)
  let dpins := t.pins.get [] (c.sp 1)
  let fmt := Spb.fmt src
  if fmt = 0 then
    ((affChunks dst dpins c.b).map fun k => ⟨k.off, k.n, k.place, c.x.bytes k.off k.n⟩, 0, c.x)
  else
    let (se, de) := fmtSizes fmt
    let x := if fmt ≤ 2 then blockRefusals c.x c.b (16 * se) else c.x
    let outs := (List.range (c.b / (16 * se))).map fun k =>
      fmtBlock fmt (x.bytes (16 * se * k) (16 * se)) (x.data.get 0 (auxBase + k)).toNat
    let bytes := outs.flatMap (·.1)
    let data := (affChunks dst dpins (c.b / se * de)).map fun (k : RdChunk) =>
      (⟨k.off / de * se, se, k.place, (bytes.drop k.off).take k.n⟩ : WrChunk)
    let scales := if fmt ≤ 2 then
        (affChunks (t.spb (c.sp 2)) (t.pins.get [] (c.sp 2)) outs.length).map fun (k : RdChunk) =>
          (⟨k.off * 16 * se, 0, k.place, [BitVec.ofNat 8 (outs.getD k.off ([], 0, 0)).2.1]⟩ : WrChunk)
      else []
    let fl := if fmt ≤ 2 then outs.zipIdx.foldl (fun f o => if x.isRefused (16 * se * o.2) then f else f ||| o.1.2.2) 0
      else (List.range c.b).foldl (fun f k => if x.isRefused k then f
        else f ||| (fmtBlock fmt [x.data.get 0 k] (x.data.get 0 (auxBase + k / 16)).toNat).2.2) 0
    (data ++ scales, fl, x)

/-- What a command writes, with flags, or the address that it waits for. -/
def wrChunks (s : State) (pk : Nat) (t : Streamer) (c : SCmd) : (List WrChunk × Flags × StXfer) ⊕ Nat :=
  let e := Spb.esize (t.spb (c.sp 1))
  match c.form with
  | 0 => .inl (copyWrites t c)
  | 1 => .inl ((affChunks (t.spb (c.sp 1)) (t.pins.get [] (c.sp 1)) (c.b * e)).map fun k =>
      ⟨k.off, k.n, k.place, c.x.bytes k.off k.n⟩, 0, c.x)
  | 2 => match indexedPlaces s pk t c (t.spb (c.sp 1)) with
    | .inr va => .inr va
    | .inl ps => .inl (ps.zipIdx.filterMap fun p => match p.1 with
          | .ok pl => some ⟨p.2 * e, e, pl, c.x.bytes (p.2 * e) e⟩
          | .error _ => none, 0,
        ps.zipIdx.foldl (fun (x : StXfer) p => match p.1 with
          | .ok _ => x
          | .error k => x.refuse (p.2 * e) e k) c.x)
  | _ => .inl ([], 0, c.x)

/-- A transfer that has been done: its status is that of the first refusal, its count what has moved (R226-R228). -/
def finishXfer (s : State) (st : Nat) (t : Streamer) (c : SCmd) : State :=
  let status := match c.x.refused with
    | p :: _ => p.2
    | [] => 0
  let e := match c.form with | 1 => Spb.esize (t.spb (c.sp 1)) | 2 => Spb.esize (t.spb (c.sp 0)) | _ => 1
  let total := c.b
  let lost := (List.range total).countP fun k => c.x.isRefused (k * e)
  stcDone s st c status (total - lost)

/-- One phase of a COPY, GATHER, SCATTER or INJECT: 0 reads indices and scales, 1 the source, 2 writes, 3 waits for ACKs.
An INJECT stops after its source: the ring takes it. -/
def xferPhase (s : State) (st id : Nat) : State :=
  let pk := Key.enginePk st
  let t := s.streamer st
  match t.cmd? id with
  | none => s
  | some c =>
    let put (r : State × StXfer × Bool) (phase : Nat) (fl : Flags) : State :=
      r.1.setStreamer st ((r.1.streamer st).setCmd
        { c with x := { r.2.1 with phase := if r.2.2 then phase else c.x.phase }, flags := c.flags ||| fl })
    let observe (k : Nat) : Bool := Spb.qual (t.spb (c.sp k)) == 2
    if c.x.rd ≠ 0 || c.x.wr ≠ 0 then s
    else if c.form = 6 then
      match c.x.phase, srcChunks s pk t c with
      | 0, .inl (cs, _) => if stEcc s cs then s else put (stFetch s st id c.x (observe 0) cs) 1 0
      | _, _ => s
    else match c.x.phase with
      | 0 =>
        let cs := auxChunks t c
        if stEcc s cs then s else put (stFetch s st id c.x (observe 2) (cs.map fun (k : RdChunk) => { k with off := auxBase + k.off })) 1 0
      | 1 => match srcChunks s pk t c with
        | .inr va => askWalk s (.streamer st) t.ctx va false
        | .inl (cs, skips) =>
          if stEcc s cs then s
          else
            let x := skips.foldl (fun (x : StXfer) k => x.refuse k.1 (Spb.esize (t.spb (c.sp 1))) k.2) c.x
            put (stFetch s st id x (observe 0) cs) 2 0
      | 2 => match wrChunks s pk t c with
        | .inr va => askWalk s (.streamer st) t.ctx va true
        | .inl (cs, fl, x) => put (stStore s st id x cs) 3 fl
      | _ => finishXfer s st t c

/-- As many phases as can be done at once. -/
def xferRun (st id : Nat) : Nat → State → State
  | 0, s => s
  | k + 1, s => xferRun st id k (xferPhase s st id)

/-- R226. A command completes and its completion token is sent: one that failed its checks, a transfer whose bytes have moved, a
WAITB with few enough batches outstanding, an INJECT whose last token has entered the ring, an EVICT at its boundary. -/
def execStreamerCommandComplete (st id : Nat) (s : State) : Out :=
  let t := s.streamer st
  .next <| match t.cmd? id with
    | none => s
    | some c =>
      if s.round ≤ c.acc || !t.compRoom then s
      else if c.status ≠ 0 then stcDone s st c c.status 0
      else match c.form with
        | 0 | 1 | 2 => if s.round < dueOf t c then s else xferRun st id 4 s
        | 5 => if t.outstanding ≤ c.b then stcDone s st c 0 t.outstanding else s
        | 6 =>
          let s := (xferPhase s st id).pump st
          let t := s.streamer st
          match t.cmd? id with
          | some c => match c.mark with
            | some m =>
              if m ≤ t.ringGone && dueOf t c ≤ s.round then
                match c.x.refused with
                | p :: _ => (stcDone s st c p.2 0).pump st
                | [] => (stcDone s st c 0 c.b).pump st
              else s
            | none => s
          | none => s
        | 7 =>
          if boundaryPassed t c then
            let s := stcDone s st c 0 0
            let t := s.streamer st
            s.setStreamer st { t with evicted := t.evicted ++ [c.expert] }.tidy
          else s
        | _ => s

/-! ### FLAGF (R232) -/

/-- An earlier command of the batch has a destination on a device and has not completed. -/
def fenceWaits (t : Streamer) (c : SCmd) (dev : Nat) : Bool :=
  t.cmds.any fun d =>
    d.id < c.id && d.batch == c.batch && d.status == 0
      && match d.form with
        | 0 | 1 =>
          let on (k : Nat) : Bool := (t.pins.get [] (d.sp k)).any fun p => Place.device p.place == dev
          on 1 || (d.form == 0 && (Spb.fmt (t.spb (d.sp 0)) == 1 || Spb.fmt (t.spb (d.sp 0)) == 2) && on 2)
        | 2 => true
        | 3 => (t.pins.get [] (d.sp 0)).any fun p => Place.device p.place == dev
        | _ => false

/-- The first granule of a FLAGF: its place and its bytes. -/
def flagBytes (c : SCmd) : List Byte := leBytes 4 c.b ++ List.replicate 12 0

/-- R232. A FLAGF write is performed: after the REL of the cut that follows its acceptance, and after every write of the earlier
commands of its batch toward the flag's device. -/
def execFlagfWrite (st id : Nat) (s : State) : Out :=
  let t := s.streamer st
  .next <| match t.cmd? id with
    | none => s
    | some c =>
      let spb := t.spb (c.sp 0)
      match pinPlace (t.pins.get [] (c.sp 0)) (Spb.addr spb 0) with
      | none => s
      | some p =>
        let p := p / 16 * 16
        let released := match s.regionOf (Key.enginePk st) with
          | some r => decide (c.cut ≤ (s.region r).lastRel)
          | none => true
        if c.form ≠ 3 || c.status ≠ 0 || s.round ≤ c.acc || !released || !t.compRoom || fenceWaits t c (Place.device p)
            || !stOpen s (Key.enginePk st) p false then s
        else if isOwn s p then
          let s := (stSetBytes s (Key.enginePk st) p (flagBytes c)).takeTurn p
          stcDone (s.fillReleased (Key.enginePk st) p) st c 0 0
        else if c.x.phase = 0 then
          (s.setStreamer st (t.setCmd { c with x := { c.x with phase := 1, wr := 1 } })).dltSend (Place.device p) p
            (.wr (flagBytes c) (List.replicate 16 true)) (.stWrite st id 0 16)
        else if c.x.wr = 0 then stcDone s st c (match c.x.refused with | r :: _ => r.2 | [] => 0) 0
        else s

/-! ### Answers from other devices (R227, R367, R370) -/

/-- What a unit of this device has outstanding for `id`: a command, or from 2^32 on a bucket. -/
def bucketId (b : Nat) : Nat := 2 ^ 32 + b

/-- The transfer record that an answer belongs to, changed. -/
def modXfer (s : State) (st id : Nat) (f : StXfer → StXfer) : State :=
  let t := s.streamer st
  if id < 2 ^ 32 then
    match t.cmd? id with
    | some c => s.setStreamer st (t.setCmd { c with x := f c.x })
    | none => s
  else match t.runs.get none (id - 2 ^ 32) with
    | some r => s.setStreamer st { t with runs := t.runs.put none (id - 2 ^ 32) (some { r with x := f r.x }) }
    | none => s

/-- The source bytes that a read of `n` bytes at an offset stands for: itself; of an index the element that it names; of a scale its
block (R227-R229). -/
def readFor (s : State) (st id off n : Nat) : Nat × Nat :=
  let t := s.streamer st
  let k := off % auxBase
  if off < auxBase then (off, n)
  else match t.cmd? id with
    | some c =>
      let e := Spb.esize (t.spb (c.sp 0))
      if c.form = 0 then (16 * e * k, 16 * e * n) else (k / 4 * e, e)
    | none => (k, n)

/-- The data of a read, or its refusal with an ERR code of R194. -/
def stReadAnswer (s : State) (st id off n : Nat) (ans : DltAns) : State :=
  let r := readFor s st id off n
  modXfer s st id fun x =>
    let x := { x with rd := x.rd - 1 }
    match ans with
    | .data bs => { x with data := bs.zipIdx.foldl (fun (d : Sparse Byte) b => d.put 0 (off + b.2) b.1) x.data }
    | .err c => x.refuse r.1 r.2 (c + 1)
    | _ => x

/-- The answer of a write: a refusal marks the source bytes that it stands for; a refused scale byte stands for none, and gives the
status (R227, R229). -/
def stWriteAnswer (s : State) (st id off n : Nat) (ans : DltAns) : State :=
  modXfer s st id fun x =>
    let x := { x with wr := x.wr - 1 }
    match ans with
    | .err c => if n = 0 then x.refuse (auxBase + off) 1 (c + 1) else x.refuse off n (c + 1)
    | _ => x

/-! ### Drain (R234) -/

/-- An EVICT whose pass will have no boundary completes at drain. -/
def drainEvicts (s : State) (st : Nat) : State :=
  let t := s.streamer st
  t.cmds.foldl (fun s c =>
    let t := s.streamer st
    if c.form = 7 && c.status = 0 && !t.closing.any (fun p => c.batch ≤ p.1) && t.compRoom then
      let s := stcDone s st c 0 0
      s.setStreamer st { s.streamer st with evicted := t.evicted ++ [c.expert] }
    else s) s

/-- A DRAIN has come on an input of a streamer, or the course configures none there. -/
def Streamer.fedOut (t : Streamer) (n k : Nat) : Bool := t.io.feed.get [] k == [] || t.io.drainedIn n k

/-- R234. With a DRAIN on the command input, the streamer closes its batch, asks for an early cut, completes every command and
then passes DRAIN. -/
def execStreamerDrain (st : Nat) (s : State) : Out :=
  let t := s.streamer st
  .next <|
    if !t.bound || t.io.drained || !t.fedOut s.round 0 then s
    else if !t.draining && t.io.feed.get [] 0 != [] then
      (drainEvicts ((s.setStreamer st { t.closeBatch with draining := true }).pump st) st).askCut (Key.enginePk st)
    else
      let s := drainEvicts s st
      let t := (s.streamer st).tidy
      if !t.cmds.isEmpty || !t.closing.isEmpty || t.runs.any (fun r => r.2.isSome)
          || !t.fedOut s.round 1 then s
      else
        let routes := (s.plane (Key.enginePk st)).routes
        let io := [0, 1].foldl (fun (io : Ports) k =>
          if Route.v (routes.get 0 (70 + k)) && !io.closedOut.testBit k then
            io.reserve k { tok := ⟨5, 0, 0⟩, ready := s.round }
          else io) t.io
        (s.setStreamer st { t with io := { io with drained := true } }).askCut (Key.enginePk st)

/-! ### Collectives (R376-R379) -/

namespace Coll

def env : Env := ⟨.rne, false, false⟩

/-- The words of a bucket and its SPB. -/
def count (d : BuckDecl) : Nat := Spb.total d.src

/-- SignEncode of R378: the contribution, the error memory, and the flags. -/
def signEncode (src err : List Word) : List Word × List Word × Flags :=
  let vs := (src.zip err).map fun p => sumRes fp32 env false [ofBits fp32 false p.1.toNat, ofBits fp32 false p.2.toNat]
  let n := src.length
  let vals := vs.map fun r => ofBits fp32 false r.bits
  let mags := vals.map fun v => match v with
    | .num _ k e => Val.num false k e
    | v => if Val.isInf v then (if Val.neg v then Val.negate v else v) else v
  let a : Res :=
    if mags.any Val.isNan then nanRes fp32 true
    else if mags.any Val.isInf then ⟨fp32.inf, 0⟩
    else
      let (t, e) := sumFinite mags
      if t = 0 then ⟨0, 0⟩
      else
        let f := Frac.ofDyadic t.natAbs e
        roundFP fp32 .rne false false ⟨f.n, f.d * n⟩
  let sigma (r : Res) : Word :=
    if Val.isNan (ofBits fp32 false a.bits) then BitVec.ofNat 32 a.bits
    else if r.word.getLsbD 31 then BitVec.ofNat 32 (a.bits + 2 ^ 31) else BitVec.ofNat 32 a.bits
  let es := vs.map fun r =>
    sumRes fp32 env false [ofBits fp32 false r.bits, Val.negate (ofBits fp32 false (sigma r).toNat)]
  let fl := vs.foldl (fun f r => f ||| r.fl) (es.foldl (fun f r => f ||| r.fl) a.fl)
  (vs.map sigma, es.map Res.word, fl)

/-- Wire of R377: the values as they go up, coded by the sender's scale for mk8. -/
def wire (w scale : Nat) (p : List Word) : List Word × Flags :=
  if w = 1 then
    let rs := p.map fun x => toMK8 (ofBits fp32 false x.toNat) scale .rne
    (rs.map fun r => BitVec.ofNat 32 r.1, rs.foldl (fun f r => f ||| r.2) 0)
  else (p, 0)

/-- Unwire of R377. -/
def unwire (w : Nat) (h : Hop) : List Word :=
  if w = 1 then h.vals.map fun c => (ofVal fp32 env (fromMK8 c.toNat h.scale)).word else h.vals

/-- The combine of R377, element by element, the lower rank on the left. -/
def combine (p q : List Word) : List Word × Flags :=
  let rs := (p.zip q).map fun x => sumRes fp32 env false [ofBits fp32 false x.1.toNat, ofBits fp32 false x.2.toNat]
  (rs.map Res.word, rs.foldl (fun f r => f ||| r.fl) 0)

/-- Ceil(Log2(p)). -/
def levels (p : Nat) : Nat := if p ≤ 1 then 0 else (p - 1).log2 + 1

end Coll

/-- The kept items of a bucket and step, and their change. -/
def Streamer.keptOf (t : Streamer) (b step : Nat) : Kept :=
  (t.kept.find? fun k => k.b == b && k.step == step && k.freeAt.isNone).getD { b := b, step := step }
def Streamer.setKept (t : Streamer) (k : Kept) : Streamer :=
  { t with kept := (t.kept.filter fun j => !(j.b == k.b && j.step == k.step && j.freeAt.isNone)) ++ [k] }

/-- A hop of a streamer leaves for a rank: to another device over DLT, where it has to come within the cross-device bound (R369, R379), or
to a streamer of this device. -/
def sendHop (s : State) (st : Nat) (t : Streamer) (h : Hop) : State :=
  let dev := t.peers.getD h.dst 0
  if dev = ownDevice s then { s with hopsIn := s.hopsIn ++ [h] } else { s with hopsOut := s.hopsOut ++ [⟨dev, h, st, s.round⟩] }

/-- The first start token that may run: of each bucket the oldest, of a bucket that is not running; nothing passes a MARKER or
a DRAIN. -/
def nextStart (t : Streamer) (n : Nat) : List InTok → List Nat → Option (InTok × List InTok)
  | [], _ => none
  | k :: ks, seen =>
    let b := k.tok.payload.toNat % 64
    if k.tok.tag = 4 || k.tok.tag = 5 || n ≤ k.arr then none
    else if k.tok.tag = 0 && (seen.contains b || (t.runs.get none b).isSome) then
      (nextStart t n ks (b :: seen)).map fun r => (r.1, k :: r.2)
    else some (k, ks)

/-- A bucket completion token (R379). -/
def bucketWord (b status step : Nat) (fl : Flags) : Dword :=
  BitVec.ofNat 64 (b * 2 ^ 26 + flagBits fl + status * 2 ^ 18 + step % 2 ^ 18)

/-- R379. A streamer receives a start token: it starts the bucket, or completes with FIELD where the bucket is not declared. -/
def execCollectiveStart (st : Nat) (s : State) : Out :=
  let t := s.streamer st
  .next <|
    if !t.bound || t.coll.isNone || !planeRuns s (Key.enginePk st) || !t.compRoom then s
    else match nextStart t s.round (t.io.inq 1) [] with
      | none => s
      | some (k, rest) =>
        let t := { t with io := { t.io with ins := t.io.ins.put [] 1 rest } }
        let s := (s.setStreamer st t).freeSlot k.ch k.dst
        let b := k.tok.payload.toNat % 64
        let step := k.tok.payload.toNat % 2 ^ 32 / 64
        if k.tok.tag ≠ 0 then s.stErr st 1 k.tok
        else if (t.bucks.get none b).isNone then
          s.setStreamer st { t with io := t.io.reserve 0 { tok := ⟨0, bucketWord b 1 step 0, 0⟩, ready := s.round } }
        else s.setStreamer st { t with runs := t.runs.put none b (some { step := step }) }

/-- A hop that a streamer's collective receives. -/
def Streamer.takesHop (t : Streamer) (h : Hop) : Bool :=
  match t.coll with
  | some (c, k, _) => t.bound && c == h.coll && k == h.dst
  | none => false

/-- R379. A collective message arrives and waits in its buffer: one for each bucket and sender; one that has been combined is
discarded. -/
def execCollectiveHop (st : Nat) (s : State) : Out :=
  let t := s.streamer st
  let ok (h : Hop) : Bool :=
    t.takesHop h && (t.used.contains (h.b, h.step, h.src) || t.hops.all fun g => !(g.b == h.b && g.src == h.src))
  .next <| match s.hopsIn.find? ok with
    | some h =>
      let s := { s with hopsIn := s.hopsIn.eraseP ok }
      if t.used.contains (h.b, h.step, h.src) then s else s.setStreamer st { t with hops := t.hops ++ [h] }
    | none => s

/-- The hop of a source for a bucket and step: from the buffer, or among what is kept. -/
def findHop (t : Streamer) (b step src : Nat) : Option Hop :=
  (t.hops ++ (t.keptOf b step).hops).find? fun h => h.b == b && h.step == step && h.src == src

/-- A hop is combined: it leaves the buffer and is kept until the bucket's cut (R379). -/
def useHop (t : Streamer) (h : Hop) : Streamer :=
  let k := t.keptOf h.b h.step
  { t.setKept { k with hops := if k.hops.contains h then k.hops else k.hops ++ [h] } with
    hops := t.hops.filter (· != h)
    used := if t.used.contains (h.b, h.step, h.src) then t.used else t.used ++ [(h.b, h.step, h.src)] }

/-- The words of a bucket stream that have been read; a byte that another device refused is a free value (log 4). -/
def bucketWords (s : State) (x : StXfer) (base n : Nat) : List Word :=
  (List.range n).map fun j =>
    if x.isRefused (base % auxBase + 4 * j) then Config.freeWord (s.freeCtr + j)
    else BitVec.ofNat 32 (leNat (x.bytes (base + 4 * j) 4))

/-- Writes of a bucket: words to its destination or error memory, or its scale byte; true once all are done. -/
def bucketWrite (s : State) (st b : Nat) (x : StXfer) (spb : List Dword) (pins : List Pin) (bytes : List Byte) :
    State × StXfer × Bool :=
  stStore s st (bucketId b) { x with refused := [] }
    ((affChunks spb pins bytes.length).map fun k => ⟨k.off, k.n, k.place, (bytes.drop k.off).take k.n⟩)

/-- The pins of the SPB s of a bucket. -/
def bucketPins (t : Streamer) (b k : Nat) : List Pin := t.pins.get [] (64 + 4 * b + k)

/-- Phase 0 reads src, and the scale or the error memory; phase 1 forms the rank's own contribution, encoded once (R378,
R379). -/
def bucketBegin (s : State) (st b : Nat) (d : BuckDecl) (r : BuckRun) : State :=
  let t := s.streamer st
  let n := Coll.count d
  let put (s : State) (r : BuckRun) : State :=
    let t := s.streamer st
    s.setStreamer st { t with runs := t.runs.put none b (some r) }
  if r.x.phase = 0 then
    let src := affChunks d.src (bucketPins t b 0) (4 * n)
    let aux := match d.wire with
      | 1 => affChunks d.scale (bucketPins t b 2) 1
      | 2 => affChunks d.errmem (bucketPins t b 3) (4 * n)
      | _ => []
    if stEcc s (src ++ aux) then s
    else
      let (s, x, ok) := stFetch s st (bucketId b) r.x false (src ++ aux.map fun (k : RdChunk) => { k with off := auxBase + k.off })
      put s { r with x := { x with phase := if ok then 1 else 0 } }
  else
    let src := bucketWords s r.x 0 n
    let s := { s with freeCtr := if r.x.refused.isEmpty then s.freeCtr else s.freeCtr + n }
    let scale := (r.x.data.get 0 auxBase).toNat
    if d.wire = 2 then
      let k := t.keptOf b r.step
      let ((p, errs), fl) := match k.enc with
        | some e => (e, k.flags)
        | none => let e := Coll.signEncode src (bucketWords s r.x auxBase n); ((e.1, e.2.1), e.2.2)
      let s := s.setStreamer st (t.setKept { k with enc := some (p, errs), flags := k.flags ||| fl })
      let (s, x, ok) := bucketWrite s st b r.x d.errmem (bucketPins t b 3) (errs.flatMap fun w => leBytes 4 w.toNat)
      put s { r with vals := p, flags := r.flags ||| fl, x := { x with phase := if ok then 2 else 1 } }
    else put s { r with vals := src, scale := scale, x := { r.x with phase := 2 } }

/-- Phase 2: one level of the way up (R377). -/
def bucketUp (s : State) (st b : Nat) (d : BuckDecl) (r : BuckRun) (c k p : Nat) : State :=
  let t := s.streamer st
  let put (t : Streamer) (r : BuckRun) : State := s.setStreamer st { t with runs := t.runs.put none b (some r) }
  let two := 2 ^ r.level
  if Coll.levels p ≤ r.level then put t { r with x := { r.x with phase := 3 } }
  else if k % (2 * two) = two then
    let kp := t.keptOf b r.step
    let (sc, vals, fl) := match kp.wire with
      | some w => (w.1, w.2, kp.flags)
      | none => let w := Coll.wire d.wire r.scale r.vals; (r.scale, w.1, w.2)
    let s := put (t.setKept { kp with wire := some (sc, vals), flags := kp.flags ||| fl })
      { r with up := true, flags := r.flags ||| fl, x := { r.x with phase := 3 } }
    sendHop s st t ⟨c, b, r.step, k, k - two, sc, vals⟩
  else if k % (2 * two) = 0 && k + two < p then
    match findHop t b r.step (k + two) with
    | some h =>
      let (vals, fl) := Coll.combine r.vals (Coll.unwire d.wire h)
      put (useHop t h) { r with level := r.level + 1, vals := vals, flags := r.flags ||| fl }
    | none => s
  else put t { r with level := r.level + 1 }

/-- Phase 3: the result at rank 0, or from the parent; it goes down to the children (R377). -/
def bucketDown (s : State) (st b : Nat) (r : BuckRun) (c k p : Nat) : State :=
  let t := s.streamer st
  let res : Option (List Word × Streamer) :=
    if !r.up then some (r.vals, t)
    else (findHop t b r.step (k - 2 ^ r.level)).map fun h => (h.vals, useHop t h)
  match res with
  | none => s
  | some (vals, t) =>
    let s := s.setStreamer st t
    let s := (List.range r.level).foldl (fun s lv =>
      if k + 2 ^ lv < p then sendHop s st t ⟨c, b, r.step, k, k + 2 ^ lv, 0, vals⟩ else s) s
    let t := s.streamer st
    s.setStreamer st { t with runs := t.runs.put none b (some { r with vals := vals, x := { r.x with phase := 4 } }) }

/-- Phases 4 and 5: the result goes into the destination; the scale byte follows for mk8 (R377). -/
def bucketPut (s : State) (st b : Nat) (d : BuckDecl) (r : BuckRun) : State :=
  let t := s.streamer st
  let put (w : State × StXfer × Bool) (phase : Nat) : State :=
    let t := w.1.streamer st
    w.1.setStreamer st { t with
      runs := t.runs.put none b (some { r with x := { w.2.1 with phase := if w.2.2 then phase else r.x.phase } }) }
  if r.x.phase = 4 then
    put (bucketWrite s st b r.x d.dst (bucketPins t b 1) (r.vals.flatMap fun w => leBytes 4 w.toNat)) 5
  else if d.wire = 1 then
    let sc := blockScale (maxMag (r.vals.map fun w => ofBits fp32 false w.toNat))
    put (bucketWrite s st b r.x d.scale (bucketPins t b 2) [BitVec.ofNat 8 sc]) 6
  else put (s, r.x, true) 6

/-- The bucket completes: its token leaves, and what it keeps may be freed at the next cut that completes (R379). -/
def bucketEnd (s : State) (st b : Nat) (r : BuckRun) : State :=
  let t := s.streamer st
  let k := t.keptOf b r.step
  let t := t.setKept { k with freeAt := some (t.io.snapCut + 1) }
  s.setStreamer st { t with
    runs := t.runs.put none b none
    io := t.io.reserve 0 { tok := ⟨0, bucketWord b 0 r.step r.flags, 0⟩, ready := s.round } }

/-- One step of a bucket that runs. -/
def bucketStep (st b : Nat) (s : State) : State :=
  let t := s.streamer st
  match t.runs.get none b, t.bucks.get none b, t.coll with
  | some r, some d, some (c, k, p) =>
    if r.x.rd ≠ 0 || r.x.wr ≠ 0 then s
    else match r.x.phase with
      | 0 | 1 => bucketBegin s st b d r
      | 2 => bucketUp s st b d r c k p
      | 3 => bucketDown s st b r c k p
      | 4 | 5 => bucketPut s st b d r
      | _ => if t.compRoom then bucketEnd s st b r else s
  | _, _, _ => s

def bucketRun (st b : Nat) : Nat → State → State
  | 0, s => s
  | n + 1, s => bucketRun st b n (bucketStep st b s)

/-- R377. A bucket does what it can: it reads, combines what has come, sends, and at the end writes its result and sends its
completion token. -/
def execBucketComplete (st b : Nat) (s : State) : Out := .next (bucketRun st b 19 s)

end Sys2Proof.Machine
end

