-- ==== Sys2Proof/Machine/Ends.lean ====
section
/-! DEFINITION. Machine/Ends: work-queue rings (R313, R339), completion records (R337, R366), and what the end of a graph frees
(R183, R341). -/

namespace Sys2Proof.Machine

/-! ### Work queues (R313, R339) -/

/-- The place of entry i of a queue's ring, counted from its head. -/
def WorkQueue.slot (q : WorkQueue) (i : Nat) : Nat := q.base + 64 * ((q.head + i) % q.cap)

/-- An entry of 64 bytes is appended to a queue; `false` when the queue is full or disabled. -/
def wqAppend (s : State) (q : Nat) (entry : List Byte) (service : Bool := false) : State × Bool :=
  let w := s.queue q
  if w.cap ≤ w.len then (s, false)
  else
    let s := s.setBytes (w.slot w.len) entry
    (s.setQueue q { w with len := w.len + 1, service := w.service ++ [service], headAt := if w.len = 0 then some s.round else w.headAt }, true)

/-- The head entry of a queue leaves it. -/
def wqDrop (s : State) (q : Nat) : State :=
  let w := s.queue q
  if w.len = 0 then s
  else s.setQueue q { w with
    head := (w.head + 1) % w.cap, len := w.len - 1, service := w.service.tail, headAt := if w.len = 1 then none else some s.round }

/-! ### Completion records (R337) -/

/-- Dwords as bytes. -/
def dwordBytes (ds : List Dword) : List Byte := ds.flatMap fun d => leBytes 8 d.toNat

/-! Fields of a host endpoint entry (R366). -/
namespace Endpoint
def v (w : Window) : Bool := w.d0.getLsbD 63
def launch (w : Window) : Bool := w.d0.getLsbD 62
def mgmt (w : Window) : Bool := w.d0.getLsbD 61
def fw (w : Window) : Bool := w.d0.getLsbD 60
def firstq (w : Window) : Nat := w.d0.toNat / 2 ^ 16 % 1024
def lastq (w : Window) : Nat := w.d0.toNat % 1024
def covers (w : Window) (q : Nat) : Bool := v w && firstq w ≤ q && q ≤ lastq w
end Endpoint

/-- The record is appended to its queue, and sent to the lowest-numbered endpoint that covers the queue (R366). -/
def appendRecord (s : State) (q : Nat) (record : List Dword) : State × Bool :=
  match wqAppend s q (dwordBytes record) with
  | (s, false) => (s, false)
  | (s, true) =>
    match s.hostEp.find? fun e => Endpoint.covers e.2 q with
    | some e => ({ s with hostOut := s.hostOut ++ [(e.2.d1, .completion q record)] }, true)
    | none => (s, true)

/-- A count that saturates at n bits. -/
def sat (n v : Nat) : Nat := min v (2 ^ n - 1)

/-- CAUSE of a late launch: the first that applied, else 5, program (R24, R341). -/
def lateCause (l : Launch) : Nat := if !l.late then 0 else if l.cause = 0 then 5 else l.cause

/-- The record of R337. MODE is the relaxed flag of the entry, also for a launch that never ran (DESIGN CHOICE, log 84). -/
def recordOf (s : State) (l : Launch) (status code : Nat) (place : Word) : List Dword :=
  [ BitVec.ofNat 64 (status * 2 ^ 56 + code * 2 ^ 48 + l.late.toNat * 2 ^ 47 + lateCause l * 2 ^ 44 + l.relaxed.toNat * 2 ^ 43
      + l.lclass * 2 ^ 40 + place.toNat),
    l.user, l.start, BitVec.ofNat 64 s.round,
    BitVec.ofNat 64 (sat 16 l.errs * 2 ^ 48 + sat 16 l.stc * 2 ^ 32 + sat 16 l.isl * 2 ^ 16 + sat 16 l.rbk),
    BitVec.ofNat 64 (sat 16 l.mregs * 2 ^ 48 + sat 16 l.slots * 2 ^ 32 + sat 32 l.fullg),
    (l.firstErr.getD 0).setWidth 64, 0 ]

/-- The record of a launch that has ended is appended to its queue; or held by its die, of 64 at most, while the queue is full; or by
the launch itself while the die holds 64 (R337, log 84). -/
def completeWith (s : State) (l : Nat) (x : Launch) (record : List Dword) : State :=
  let s := s.setLaunch l {}
  match appendRecord s x.cq record with
  | (s, true) => s
  | (s, false) =>
    let d := s.die x.die
    if d.heldCpl.length < 64 then s.setDie x.die { d with heldCpl := d.heldCpl ++ [(x.cq, record)] }
    else s.setLaunch l { phase := .ended record, die := x.die, cq := x.cq }

/-- Held records, oldest first, go to their queues where there is room (R337): the state, and what stays held. -/
def flushRecords : List (Nat × List Dword) → State → State × List (Nat × List Dword)
  | [], s => (s, [])
  | (q, record) :: rest, s =>
    match appendRecord s q record with
    | (s', true) => flushRecords rest s'
    | (_, false) =>
      let r := flushRecords rest s
      (r.1, (q, record) :: r.2)

/-- The records that a die holds leave it, and those of launches that have ended there take their room (R337, log 84). -/
def flushHeld (s : State) (die : Nat) : State :=
  let (s, stay) := flushRecords (s.die die).heldCpl s
  let s := s.setDie die { s.die die with heldCpl := stay }
  (s.launches.filter (·.2.die == die)).foldl (fun s l =>
    match l.2.phase with
    | .ended record => completeWith s l.1 l.2 record
    | _ => s) s

/-! ### Regions -/

/-- The tiles of a region in row-major order, and their plane keys. -/
def Region.tiles (r : Region) : List Nat :=
  (List.range r.h).flatMap fun a => (List.range r.w).map fun b => Key.tileAt (r.prow + a) (r.pcol + b)

def Region.pks (r : Region) : List Nat := r.tiles.map fun t => t * 4 + r.plane

/-- Hops from the region's north-west tile (R14, R343). -/
def Region.hops (r : Region) (tile : Nat) : Nat := (Key.prow tile - r.prow) + (Key.pcol tile - r.pcol)

/-- The last hop of a wave. -/
def Region.lastHop (r : Region) : Nat := r.h + r.w - 2

/-- A bank goes back to its tile and is scrubbed (R183). -/
def scrubBanks (s : State) (tile : Nat) (which : Nat × Nat → Bool) : State :=
  let t := s.tile tile
  let banks := (List.range 16).filter fun b => match t.owner.get none b with | some o => which o | none => false
  s.setTile tile (banks.foldl (fun (t : TileState) b => { t with scrub := t.scrub.put none b (some 0) }) t)

/-! ### Hand-over of banks (R182) -/

/-- A command or a bucket of a streamer that has not completed reaches a bank of a tile, or one of the batch at hand may do so again
after a rollback: no released cut holds all that it has accepted (R68, R70; log 99). -/
def streamerUses (s : State) (st tile bank : Nat) : Bool :=
  let t := s.streamer st
  let past := cutHolds s (.streamer st) fun v => match v with
    | .streamer x => x.io.drained || (x.nextCmd == t.nextCmd && x.cmds.isEmpty)
    | _ => false
  let on (k : Nat) : Bool := (banksIn s ((t.pins.get [] k).map fun p => (p.place, p.len)) tile).contains bank
  let spbs (c : SCmd) : List Nat := match c.form with
    | 0 | 1 | 2 => [c.sp 0, c.sp 1, c.sp 2]
    | 3 | 6 => [c.sp 0]
    | _ => []
  let indexed (c : SCmd) : Bool := match c.form with
    | 1 => indexedOn (c.sp 0)
    | 2 => indexedOn (c.sp 1)
    | _ => false
  t.bound && ((!past && t.nextCmd ≠ 0 && (List.range 80).any fun k => on k || (Spb.indexed (t.spb k) && indexedOn k))
    || t.cmds.any (fun c => c.status == 0 && ((spbs c).any on || indexed c))
    || t.runs.any fun b => b.2.isSome && (List.range 4).any fun k => on (64 + 4 * b.1 + k))
where
  indexedOn (k : Nat) : Bool :=
    let t := s.streamer st
    let (lo, hi) := Spb.extent (t.spb k)
    (banksIn s (reachFrom s t.ctx hi ((hi - lo) / 65536 + 2) lo) tile).contains bank

/-- The producer in a plane of a tile is done with a bank of the tile: every AG, repeat node and streamer of its course that uses it has
ended there, its stores there have been released, and no range of its own stands there; or it is past its DRN (R68, R182). -/
def bankDone (s : State) (pk bank : Nat) : Bool :=
  let units := match s.regionOf pk with | some r => (s.region r).units | none => []
  let k := s.kstone pk
  (s.plane pk).drn
    || (!(k.mapped && k.bank == bank) && units.all fun u => match u with
        | .ag a => !agUses s a (Key.tileOf pk) bank
        | .repeatNode p => p != pk || (s.rep p).bank != bank
            || cutHolds s (.repeatNode p) fun v => match v with | .rep x => x.io.drained | _ => false
        | .streamer st => !streamerUses s st (Key.tileOf pk) bank
        | _ => true)

/-- R182. A bank's ownership token passes to the consumer course once the producer's streams have ended and its stores are
released. -/
def execHandEv (tile bank : Nat) (s : State) : Out :=
  let t := s.tile tile
  .next <| match t.owner.get none bank with
    | some (l, c) =>
      match (List.range 4).find? fun p => ownerOf s (tile * 4 + p) == some (l, c) with
      | some p =>
        match (s.plane (tile * 4 + p)).hands.find? (·.1 == bank) with
        | some (_, c') =>
          if bankDone s (tile * 4 + p) bank then
            s.setTile tile { t with owner := t.owner.put none bank (some (l, c')) }
          else s
        | none => s
      | none => s
    | none => s

/-! ### The end of a course -/

/-- Registers that still hold a buffer value, island slots held, and granules left Full in banks that the course wrote under
CONSUME (R180, R337). -/
def leftovers (s : State) (r : Region) : Nat × Nat × Nat :=
  let mregs := r.mregs.countP fun m => (s.home m.2).slotKeys.any fun k => (s.pslot k).cur.v || (s.pslot k).nxt.v
  let slots := r.units.foldl (fun n u => match u with
    | .island i => n + (List.range 8).countP fun k => ((s.island i).slot k).state != 0
    | _ => n) 0
  let full := r.conBanks.foldl (fun n b =>
    n + (s.tile (b / 16)).gmeta.countP fun g => g.1 / 256 == b % 16 && g.2 % 2 == 1) 0
  (mregs, slots, full)

/-- The units of a region's planes are as after reset: the planes are free. Held barrier arrivals at its keystones break first
(R213). -/
def clearPlanes (s : State) (pks : List Nat) : State :=
  let s := pks.foldl breakAll s
  let at_ (pk : Nat) : Bool := pks.contains pk
  { s with
    elems := s.elems.without fun k => at_ (k / 16)
    ags := s.ags.without fun k => at_ (k / 2)
    reps := s.reps.without at_
    scheds := s.scheds.without at_
    islands := s.islands.without fun k => at_ (Key.enginePk k)
    streamers := s.streamers.without fun k => at_ (Key.enginePk k)
    pslots := s.pslots.without fun k => at_ (k / 64)
    homes := s.homes.without fun k => at_ (k / 64)
    kstones := s.kstones.without at_
    chans := s.chans.without fun c =>
      if c < 2 ^ 24 then at_ (c / 128)
      else if c < 2 ^ 30 then false
      else if c < 2 ^ 31 then at_ (Key.pkOfElem ((c - 2 ^ 30) / 4)) else at_ ((c - 2 ^ 31) / 2)
    planes := pks.foldl (fun (m : Sparse PlaneState) pk =>
      let p : PlaneState := m.get {} pk
      m.put {} pk { p with
        routes := [], mask := 0, hands := [], occupied := false, drainCut := none, drn := false }) s.planes
    walks := (s.walks.map fun w => (w.1, w.2.filter fun q => !at_ q.owner.pk)).filter fun w => !w.2.isEmpty }

/-- Request ports of a region that target a range of a device (R215): its key, once for each port. -/
def boundRanges (s : State) (r : Region) : List Nat :=
  r.units.flatMap fun u => match u with
    | .elem e => ((s.elem e).targets.filterMap fun t =>
        if t.2.device.isNone && 16384 ≤ t.2.range then some t.2.range else none).eraseDups
    | _ => []

/-- Ranges that a request port was bound to lose it (R215, R298). -/
def unbind (s : State) (ranges : List Nat) : State :=
  ranges.foldl (fun s k => s.setKstone k { s.kstone k with bound := (s.kstone k).bound - 1 }) s

/-- What a course leaves is counted for its launch (R337). -/
def countLeft (s : State) (r : Region) (left : Nat × Nat × Nat) : State :=
  match r.launch with
  | some l =>
    let x := s.launch l
    s.setLaunch l { x with
      mregs := x.mregs + left.1, slots := x.slots + left.2.1, fullg := x.fullg + left.2.2
      stc := x.stc + r.fails.countP (fun f => !f.2), isl := x.isl + r.fails.countP (fun f => f.2) }
  | none => s

/-- A region's course ends: what it leaves is counted for its launch, its planes become free, and its record and snapshots go. -/
def freeRegion (s : State) (rk : Nat) : State :=
  let r := s.region rk
  let s := countLeft s r (leftovers s r)
  let s := clearPlanes (unbind s (boundRanges s r)) r.pks
  let s := { s with
    snaps := s.snaps.without fun k => r.units.any fun u => u.key == k / 2
    chans := s.chans.without fun c => 2 ^ 24 ≤ c && c < 2 ^ 30 && (c - 2 ^ 24) / 256 == rk }
  s.setRegion rk {}

/-- A machine that holds a saved course's units in place of its own. -/
def Saved.view (v : Saved) (s : State) : State :=
  { s with elems := v.elems, pslots := v.pslots, homes := v.homes, islands := v.islands, kstones := v.kstones }

/-- A pre-empted course ends where it was saved (R351): what it leaves is counted, and what its keystones hold breaks (R213). -/
def dropSaved (s : State) (key : Nat) : State :=
  match s.saved.find? (·.1 == key) with
  | some (_, v) =>
    let t := v.view s
    let b := v.region.pks.foldl breakAll t
    let s := { b with elems := s.elems, pslots := s.pslots, homes := s.homes, islands := s.islands, kstones := s.kstones
                      saved := b.saved.erase key }
    countLeft (unbind s (boundRanges t v.region)) v.region (leftovers t v.region)
  | none => s

/-- The tiles whose banks a launch may hold: those of its regions, and of what was saved of it. -/
def launchTiles (s : State) (x : Launch) : List Nat :=
  ((x.region.toList ++ x.next).flatMap fun r => (s.region r).tiles)
    ++ x.saved.flatMap fun k => ((s.saved.find? (·.1 == k.1)).map fun v => v.2.region.tiles).getD []

/-- A launch ends with a status: an entry that still waits leaves its queue, its regions are freed, its banks go back, its record is
written (R337, R341). -/
def endLaunch (s : State) (l status code : Nat) (place : Word) : State :=
  let x := s.launch l
  let s := match x.phase with
    | .waiting | .pinWait _ => wqDrop s x.queue
    | _ => s
  let tiles := launchTiles s x
  let s := (x.region.toList ++ x.next).foldl freeRegion s
  let s := (x.saved.map Prod.fst).foldl dropSaved s
  let s := tiles.foldl (fun s t => scrubBanks s t fun o => o.1 == l) s
  let x := s.launch l
  completeWith s l x (recordOf s x status code place)

/-- The first cause of lateness is kept (R24). -/
def noteCause (s : State) (l cause : Nat) : State :=
  let x := s.launch l
  if x.cause = 0 then s.setLaunch l { x with cause := cause } else s

end Sys2Proof.Machine
end

