-- ==== Sys2Proof/Machine/Cuts.lean ====
section
/-! DEFINITION. Machine/Cuts: marker cuts (R142, R343, R344), their release (R69, R208, R211), drain (R18, R141), and rollback
(R345). -/

namespace Sys2Proof.Machine

/-! ### Inputs, outputs and markers -/

/-- The configured inputs of a unit: of an element as ECFG says (R73), of any other unit those that a channel feeds. -/
def configuredIns (s : State) (u : UnitRef) (io : Ports) : List Nat :=
  match u with
  | .elem e => (List.range 4).filter fun k => (s.elem e).ecfg.getLsbD k || io.feed.keys.contains k
  | _ => io.feed.keys

/-- The inputs of a unit on which it aligns a cut (R142): configured, neither back nor markerless; of an island only the command
input (R254). -/
def forwardInputs (s : State) (u : UnitRef) (io : Ports) : List Nat :=
  (configuredIns s u io).filter fun k => !io.back.testBit k && !io.markerless.testBit k && !passesMarkers u k

/-- A MARKER, or a DRAIN, has come on every channel of an input (R142, R139); none comes on an input that nothing feeds. -/
def marked (io : Ports) (n k : Nat) : Bool :=
  !(io.feed.get [] k).isEmpty && (io.feed.get [] k).all fun ch => (io.inq k).any fun t => t.ch == ch && (t.tok.tag == 4 || t.tok.tag == 5) && t.arr < n

/-- A DRAIN has come on a channel of an input. -/
def drainedChan (io : Ports) (k ch : Nat) : Bool := (io.inq k).any fun t => t.ch == ch && t.tok.tag == 5

/-- The configured outputs of a unit that carry MARKERs (R142): of an element as ECFG says (R73), of any other unit those that have a
route. -/
def markOutputs (s : State) (u : UnitRef) : List Nat :=
  let routed (k : Nat) : Bool := Route.v ((s.plane u.pk).routes.get 0 (u.outChan k % 128))
  match u with
  | .elem e => [0, 1, 2, 3].filter fun k => (s.elem e).ecfg.getLsbD (4 + k) || routed k
  | .island _ | .streamer _ => [0, 1].filter routed
  | .ag _ | .repeatNode _ => [0].filter routed
  | _ => []

/-- A unit that takes its snapshot, and emits its MARKERs, when the start request reaches it (R142, R343): it has no input to
align on. -/
def atRequest (s : State) (u : UnitRef) (io : Ports) : Bool := (forwardInputs s u io).isEmpty

/-- A marker source of R343. -/
def markerSource (s : State) (u : UnitRef) : Bool :=
  match u with
  | .elem e => let io := (s.elem e).io; (configuredIns s u io).all io.markerless.testBit
  | .ag a => !Spb.store (s.ag a).spb && !Spb.indexed (s.ag a).spb
  | .repeatNode _ => true
  | _ => false

/-- What stands in a port before the MARKERs of its channels. -/
def beforeMarks : List Nat → List InTok → List InTok
  | _, [] => []
  | held, t :: ts =>
    if t.tok.tag = 4 then beforeMarks (t.ch :: held) ts
    else if held.contains t.ch then beforeMarks held ts else t :: beforeMarks held ts

/-- The first MARKER of each channel leaves the port: what stays, and the MARKERs. -/
def takeMarks : List Nat → List InTok → List InTok × List InTok
  | _, [] => ([], [])
  | held, t :: ts =>
    if t.tok.tag = 4 && !held.contains t.ch then
      let r := takeMarks (t.ch :: held) ts
      (r.1, t :: r.2)
    else
      let r := takeMarks held ts
      (t :: r.1, r.2)

/-- The slots of an output from the first that waits for an irrevocable reply on: a MARKER goes ahead of them (R209). -/
def splitOut (tickets : List Nat) : List OutTok → List OutTok × List OutTok
  | [] => ([], [])
  | t :: ts =>
    if t.wait.any tickets.contains then ([], t :: ts)
    else
      let r := splitOut tickets ts
      (t :: r.1, r.2)

/-- The tickets of the irrevocable commands that wait at an element. -/
def irrevTickets (s : State) : UnitRef → List Nat
  | .elem e => (s.elem e).irrev.map (·.ticket)
  | _ => []

/-! ### The snapshot (R142, R254) -/

/-- The state of a unit, and the ports as given. The payload that a MOV has given to the MARKER of this cut is used by it (R106, R343). -/
def unitVal (s : State) (u : UnitRef) (io : Ports) : Option SnapVal :=
  match u with
  | .elem k => some (.elem { s.elem k with io := io, movMark := [] })
  | .ag k => some (.ag { s.ag k with io := io })
  | .repeatNode k => some (.rep { s.rep k with io := io })
  | .schedNode k => some (.sched { s.sched k with io := io })
  | .island k => some (.island { s.island k with io := io })
  | .streamer k => some (.streamer { s.streamer k with io := io })
  | .keystone _ => none

/-- The ports of a snapshot of cut n: inputs without what stands behind a MARKER, outputs without what leaves before it. -/
def snapPorts (s : State) (u : UnitRef) (n : Nat) : Ports :=
  let io := s.io u
  let past (k : Nat) : List Nat := match u with
    | .island i => if passesMarkers u k then (io.feed.get [] k).filter fun ch => decide (n ≤ (s.island i).pastMark.get 0 ch) else []
    | _ => []
  { io with
    ins := (io.ins.map fun p => (p.1, beforeMarks (past p.1) p.2)).filter fun p => !p.2.isEmpty
    outs := match u with
      | .schedNode _ => io.outs
      | _ => (io.outs.map fun p => (p.1, (splitOut (irrevTickets s u) p.2).2)).filter fun p => !p.2.isEmpty
    snapCut := n
    sinceMark := 0 }

/-- The partial slots and home records that belong to a unit: those it contributes to and those it is the home of (R166). -/
def combOf (s : State) (r : Region) (u : UnitRef) : List (Nat × Nat × PSlot × List CombCmd) × List (Nat × Home) :=
  let me : Bool × Nat := match u with | .island k => (true, k) | .elem k => (false, k) | _ => (true, 2 ^ 40)
  let homes := r.mregs.map fun m => (m.2, s.home m.2)
  (homes.flatMap fun h =>
      h.2.decl.contribs.zipIdx.filterMap fun c =>
        if c.1 = me then some (h.1, c.2, s.pslot (h.2.slotKeys.getD c.2 0), h.2.toSlot.get [] c.2) else none,
    match u with
    | .elem e => homes.filter fun h => h.2.decl.home == e
    | _ => [])

/-- A shadow takes the state of a unit for cut n (R344). -/
def saveUnit (s : State) (r : Region) (u : UnitRef) (n : Nat) : State :=
  match unitVal s u (snapPorts s u n) with
  | some v =>
    let c := combOf s r u
    { s with snaps := s.snaps.insert (snapKey u n) { cut := n, val := v, contribs := c.1, homes := c.2 } }
  | none => s

/-- The tokens on the channel from a schedule-table node to the element it feeds stand in the element's snapshot (R197). -/
def schedFlight (s : State) (pk : Nat) (n : Nat) (e : Nat) : State :=
  let ch := (UnitRef.schedNode pk).outChan 0
  (s.chan ch).flight.foldl (fun s f => s.addToSnap (.elem e) n (s.sched pk).port ⟨f.tok, ch, f.dst, s.round⟩) s

/-- A MARKER of cut n is reserved on an output, behind the tokens reserved before and ahead of a slot that waits for an
irrevocable reply; its payload is n, or that of a MOV (R106, R343). -/
def putMarker (s : State) (u : UnitRef) (n : Nat) (io : Ports) (k : Nat) : Ports :=
  if io.closedOut.testBit k then io
  else
    let pay : Dword := match u with
      | .elem e => (((s.elem e).movMark.find? (·.1 == k)).map Prod.snd).getD (BitVec.ofNat 64 (n % 2 ^ 32))
      | _ => BitVec.ofNat 64 (n % 2 ^ 32)
    let pay := match u with
      | .elem e => if (s.elem e).ctlOut k then 0 else pay
      | _ => pay
    let (a, b) := splitOut (irrevTickets s u) (io.outq k)
    { io with outs := io.outs.put [] k (a ++ [{ tok := ⟨4, pay, 0⟩, ready := s.round }] ++ b) }

/-- The MARKERs of cut n on the inputs are gone; the unit is past its snapshot. -/
def passMarkers (s : State) (u : UnitRef) (n : Nat) : State :=
  let io := s.io u
  let (io, gone) := io.feed.keys.foldl (fun (acc : Ports × List InTok) k =>
    if passesMarkers u k then acc
    else
      let r := takeMarks [] (acc.1.inq k)
      ({ acc.1 with ins := acc.1.ins.put [] k r.1 }, acc.2 ++ r.2)) (io, [])
  let io := (markOutputs s u).foldl (putMarker s u n) { io with snapCut := n, sinceMark := 0 }
  gone.foldl (fun s t => s.freeSlot t.ch t.dst) (s.setIo u io)

/-- A unit that has passed its final cut: a tile's units after DRN, an engine whose drained snapshot has been released (R18). -/
def unitLeft (s : State) (r : Region) (u : UnitRef) : Bool :=
  match u with
  | .island _ | .streamer _ =>
    s.snaps.any fun p => p.1 / 2 == u.key && p.2.cut ≤ r.lastRel && (match p.2.val with
      | .island x => x.io.drained
      | .streamer x => x.io.drained
      | _ => false)
  | u => (s.plane u.pk).drn

/-- A unit may take its snapshot of the open cut. -/
def snapReady (s : State) (r : Region) (u : UnitRef) : Bool :=
  let io := s.io u
  r.cutOpen && io.snapCut + 1 == r.cut && !r.frozen && !unitLeft s r u
    && (forwardInputs s u io).all (marked io s.round)
    && (!atRequest s u io || (match r.reqHop with | some k => decide (r.hops (Key.tileOf u.pk) ≤ k) | none => false))
    && match u with
      | .island i => (s.island i).allDone s.round && (s.island i).xfer.isNone
      | .schedNode _ | .keystone _ => false
      | _ => true

/-- What else changes at a snapshot: MOV's payloads are used; the images of an island's slots written since the previous one are to be
written, and its overhang is taken (R254); what is freed from now on is freed after the cut (R265). -/
def afterSnap (s : State) (u : UnitRef) : State :=
  match u with
  | .elem e => s.modElem e fun el => { el with movMark := [] }
  | .island i =>
    let isl := s.island i
    s.setIsland i { isl with
      pendImg := (List.range 8).filter fun k => (isl.slot k).fresh
      slots := isl.slots.map fun p => (p.1, { p.2 with fresh := false })
      heldNew := [], overhang := [] }
  | _ => s

/-- R142. A unit snapshots its state once MARKER n has reached all its forward inputs, and forwards markers. The schedule-table
node is saved with the element it feeds (R197). -/
def execSnapshotEv (u : UnitRef) (s : State) : Out :=
  .next <| match s.regionOf u.pk with
    | none => s
    | some rk =>
      let r := s.region rk
      if !snapReady s r u then s
      else
        let s := saveUnit s r u r.cut
        let s := match u with
          | .elem e =>
            let pk := Key.pkOfElem e
            if (s.sched pk).bound && (s.sched pk).feeds = e then
              let s := s.setSched pk { s.sched pk with io := { (s.sched pk).io with snapCut := r.cut } }
              schedFlight (saveUnit s r (.schedNode pk) r.cut) pk r.cut e
            else s
          | _ => s
        afterSnap (passMarkers s u r.cut) u

/-- What a seed port has not emitted of the seed stream, each token with its distance from the end of the stream (R336, R343), and
whether the port still owes its DRAIN. -/
def seedsOf (r : Region) (p : Nat) : List (Nat × Nat × Token) × List Nat :=
  ((r.seedQ.get [] p).map (fun x => (x.1, p, x.2)) ++ (r.seeds.zipIdx.filter (·.1.1 == p)).map fun x => (r.seeds.length - x.2, x.1), r.seedDrains.filter (· == p))

/-- Cut 0 of a course: the state in which it starts (R345). -/
def saveAll (s : State) (rk n : Nat) : State :=
  let r := s.region rk
  let s := r.units.foldl (fun s u => saveUnit s r u n) s
  let ports := (r.seedPorts.keys).foldl (fun (m : Sparse (List (Nat × Nat × Token) × List Nat)) p =>
    m.insert (2 * p + n % 2) (seedsOf r p)) []
  s.setRegion rk { r with seedSnaps := ports, seedMark := [] }

/-! ### Start, completion and release of a cut (R343, R344, R69) -/

/-- Units of a region that take part in its cuts. -/
def cutUnits (s : State) (r : Region) : List UnitRef :=
  r.units.filter fun u => !unitLeft s r u && (match u with | .schedNode _ | .keystone _ => false | _ => true)

/-- R343. MKROUNDS rounds since the last cut start trigger a new cut. -/
def execMkroundsExpiry (rk : Nat) (s : State) : Out :=
  let r := s.region rk
  .next <| if r.running && r.lastStart + r.mkRounds ≤ s.round then s.setRegion rk { r with cutAsked := true } else s

/-- R343. A marker source that has emitted MKTOKENS tokens triggers a cut. -/
def execMktokensReached (u : UnitRef) (s : State) : Out :=
  .next <| match s.regionOf u.pk with
    | some rk =>
      let r := s.region rk
      if r.running && markerSource s u && r.mkTokens ≤ (s.io u).sinceMark then s.setRegion rk { r with cutAsked := true } else s
    | none => s

/-- A seed port that the start request has reached saves its position and emits MARKER n (R343, R344). -/
def seedMarker (rk : Nat) (s : State) (p : Nat) : State :=
  let r := s.region rk
  let n := r.cut
  let here := match r.reqHop with | some k => decide (r.hops (r.seedPorts.get (0, 0) p).1 ≤ k) | none => false
  if r.cutOpen && r.seedMark.get 0 p < n && r.seedDrains.contains p && here then
    (s.setRegion rk { r with
      seedMark := r.seedMark.put 0 p n, seedSince := r.seedSince.put 0 p 0
      seedSnaps := r.seedSnaps.insert (2 * p + n % 2) (seedsOf r p) }).sendOn (seedChan rk p) ⟨4, BitVec.ofNat 64 (n % 2 ^ 32), 0⟩
        (chanDests s (seedChan rk p)).length
  else s

/-- R343. The start request advances one tile hop per round; with none under way and a trigger reported, marker control starts
the next cut. -/
def execStartRequestHop (rk : Nat) (s : State) : Out :=
  let r := s.region rk
  let marked (s : State) : State := (s.region rk).seedPorts.keys.foldl (seedMarker rk) s
  .next <|
    if !r.running || r.frozen then s
    else if r.cutOpen then
      match r.reqHop with
      | some k => marked (s.setRegion rk { r with reqHop := some (k + 1) })
      | none => s
    else if r.cutAsked && r.relDue.isNone then
      marked (s.setRegion rk { r with
        cutOpen := true, cutAsked := false, cut := r.done + 1, reqHop := some 0, lastStart := s.round })
    else s

/-- What one unit has saved for cut n: its state, and the channel contents up to MARKER n on its other inputs (R142, R254). -/
def unitSaved (u : UnitRef) (io : Ports) (n : Nat) : Bool :=
  n ≤ io.snapCut && io.feed.all fun p =>
    !(io.back.testBit p.1 || passesMarkers u p.1) || io.markerless.testBit p.1
      || p.2.all fun ch => n ≤ io.backSeen.get 0 ch || drainedChan io p.1 ch

/-- Every seed port has sent MARKER n or its DRAIN. -/
def seedsSaved (r : Region) (n : Nat) : Bool :=
  r.seedPorts.keys.all fun p => n ≤ r.seedMark.get 0 p || !r.seedDrains.contains p

/-- Everything that R344 lists has saved its state for the open cut. -/
def cutSaved (s : State) (r : Region) : Bool :=
  seedsSaved r r.cut && (cutUnits s r).all fun u =>
    unitSaved u (s.io u) r.cut && match u with
      | .island i => (s.island i).pendImg.isEmpty
      | _ => true

/-- At a completed cut the HELD bits of an island clear, but for images freed after the island's snapshot: a rollback to this cut
still names them (R265, log 85); DIRTY stays for what was written after it (R261); the images just written belong to the last
complete cut (R254). A streamer frees what its completed buckets kept (R379). -/
def settleEngine (n : Nat) (s : State) (u : UnitRef) : State :=
  match u with
  | .island i =>
    let isl := s.island i
    s.setIsland i { isl with
      dir := (isl.dir.map fun p => (p.1, if isl.heldNew.contains p.1 then p.2 else p.2 &&& ~~~0x20000000#32)).filter fun p => p.2 != 0
      slots := isl.slots.map fun p => (p.1, { p.2 with dirty := p.2.fresh })
      ckptSide := isl.ckptNew.foldl (fun (m : Sparse Bool) k => m.put false k (!m.get false k)) isl.ckptSide
      ckptNew := [] }
  | .streamer i =>
    let t := s.streamer i
    s.setStreamer i { t with kept := t.kept.filter fun k => match k.freeAt with | some c => n < c | none => true }
  | _ => s

/-- The home record that the snapshots of cut n hold of a combining register. -/
def snapHome (s : State) (r : Region) (n hk : Nat) : Option Home :=
  r.units.findSome? fun u => (snapOf s u n).bind fun p =>
    (p.homes.find? fun h => h.1 == hk).map Prod.snd

/-- At a completed cut the slots of a combining register forget what no rollback can ask of them again (R166). -/
def settleMreg (r : Region) (n : Nat) (s : State) (hk : Nat) : State :=
  let h := (snapHome s r n hk).getD (s.home hk)
  h.slotKeys.foldl (fun s sk => s.setPslot sk ((s.pslot sk).forget h)) s

/-- R344. Once every unit has saved its state for cut n the cut completes; REL follows in the next round. -/
def execCutComplete (rk : Nat) (s : State) : Out :=
  let r := s.region rk
  .next <|
    if r.cutOpen && !r.frozen && cutSaved s r then
      let s := s.setRegion rk { r with
        done := r.cut, cutOpen := false, reqHop := none, relDue := some (s.round + 1)
        metaLog := r.metaLog.filter fun g => r.cut < g.2.2 }
      (r.mregs.map Prod.snd).foldl (settleMreg r r.cut) (r.units.foldl (settleEngine r.cut) s)
    else s

/-- What a request port releases at REL(n): its posted commands in firing order (R208); copies of replies that the snapshot holds as
landed go (R209). -/
def releasePort (n : Nat) (s : State) (e : Nat) : State :=
  releasePosted n (s.modElem e fun el => { el with kept := el.kept.filter fun k => n < k.cut }) e

/-- The sink takes the reports released at one REL: the lowest place first, and at one place the lowest port (R12). -/
def firstReport (rs : List SinkReport) : Option SinkReport :=
  rs.foldl (fun b r => match b with
    | none => some r
    | some x => if r.place.toNat < x.place.toNat || (r.place = x.place && r.port < x.port) then some r else some x) none

/-- The reports that REL(n) releases reach the sink (R12); the engine commands of the interval that failed are counted for good
(R337). -/
def releaseReports (n : Nat) (s : State) (rk : Nat) : State :=
  let r := s.region rk
  let (due, later) := r.reports.partition fun p => p.cut ≤ n
  let (bad, rest) := r.fails.partition fun f => f.1 ≤ n
  let s := s.setRegion rk { r with reports := later, fails := rest }
  match r.launch with
  | some l =>
    let x := s.launch l
    s.setLaunch l { x with
      errs := x.errs + due.length
      stc := x.stc + bad.countP (fun f => !f.2), isl := x.isl + bad.countP (fun f => f.2)
      firstErr := if x.firstErr.isSome then x.firstErr else (firstReport due).map (·.payload) }
  | none => s

/-! ### Drain (R18, R141) -/

/-- An element's inputs that a DRAIN reaches: configured and not markerless (R141). -/
def drainInputs (s : State) (e : Nat) : List Nat :=
  (configuredIns s (.elem e) (s.elem e).io).filter fun k => !(s.elem e).io.markerless.testBit k

/-- A rule could fire but for room on an output that is not closed. -/
def dueRule (el : Elem) (n slot : Nat) : Bool :=
  match el.rule slot with
  | some (_, x) =>
    let g := x.guard
    !el.halt && (el.p ^^^ g.pv) &&& g.pm == 0 && (bitsOf g.ir).all (fun k => (el.head? n k).isSome)
      && (bitsOf g.orr).all (fun k => !el.io.closedOut.testBit k) && (g.te = 0 || el.headTag n g.tc.toNat == g.tv)
  | none => false

/-- Nothing of an element is due, replies aside: no result in flight, no order token to come, no rule that can fire (log 14). -/
def quiet (el : Elem) (n : Nat) : Bool :=
  el.landing.isEmpty
    && el.targets.all (fun t => t.2.orderIn.isNone || (el.ksOut.get 0 t.1 = 0 && !el.posted.any (·.target == t.1)))
    && (List.range 16).all fun k => !dueRule el n k

/-- The units of a tile in a plane: elements and nodes. -/
def tileUnits (r : Region) (pk : Nat) : List UnitRef :=
  r.units.filter fun u => u.pk == pk && (match u with | .island _ | .streamer _ | .keystone _ => false | _ => true)

/-- An order token is on its way to an input of an element that has room: in its channel, or not yet seen. The drain does not wait for
the input that the schedule-table node feeds (R197). -/
def tokenComing (s : State) (e : Nat) : Bool :=
  let io := (s.elem e).io
  let n := s.sched (Key.pkOfElem e)
  io.feed.keys.any fun k => io.markerless.testBit k && !(n.bound && n.feeds = e && n.port = k)
    && ((io.inq k).any (fun t => s.round ≤ t.arr)
      || ((io.inq k).length < 4 && (io.feed.get [] k).any (fun ch => !(s.chan ch).flight.isEmpty)))

/-- An element at rest: nothing of it is due, nothing comes, and no reply is outstanding (log 14). -/
def atRest (s : State) (e : Nat) : Bool :=
  quiet (s.elem e) s.round && (s.elem e).waits.isEmpty && !tokenComing s e

/-- An element waits for nothing but barriers: every reply it waits for is that of an arrival that a keystone holds (R212, R213). -/
def atBarrier (s : State) (e : Nat) : Bool :=
  quiet (s.elem e) s.round && !tokenComing s e && (s.elem e).waits.all fun w =>
    s.kstones.any fun k => k.2.held.any fun h => match h.2 with
      | .port f _ (some t) => f == e && t == w.ticket
      | _ => false

/-- An element that a DRAIN reaches on no input (R141): the second kind. -/
def drainsLast (s : State) (e : Nat) : Bool := (drainInputs s e).isEmpty

/-- All else on the tile has drained (R141). Elements that no DRAIN reaches on an input and that are the only ones left, so that each
waits for the others, drain together when they are all at rest (log 14). -/
def othersDrained (s : State) (r : Region) (e : Nat) : Bool :=
  let all := (tileUnits r (Key.pkOfElem e)).filter fun u => match u with | .schedNode _ => false | _ => true
  let left := all.filter fun u => !(s.io u).drained
  (left == [.elem e] && all.length != 1)
    || left.all fun u => match u with | .elem f => drainsLast s f && atRest s f | _ => false

/-- A DRAIN has reached what an element drains by (R141): every configured input that is not markerless; or, with none, its configured
outputs have all carried their DRAIN, or all else on the tile has drained. -/
def drainDue (s : State) (r : Region) (e : Nat) : Bool :=
  let el := s.elem e
  match drainInputs s e with
  | [] =>
    let outs := markOutputs s (.elem e)
    r.drainReq || (!outs.isEmpty && outs.all el.io.closedOut.testBit) || othersDrained s r e
  | ks => ks.all (el.io.drainedIn s.round)

/-- An element passes the drain on: its rules go ineligible, DRAIN leaves on its remaining outputs, and what its markerless inputs
hold is discarded. -/
def elementDrains (s : State) (e : Nat) : State :=
  let el := s.elem e
  let io := (markOutputs s (.elem e)).foldl (fun (io : Ports) k =>
    if io.closedOut.testBit k then io else io.reserve k { tok := ⟨5, 0, 0⟩, ready := s.round }) el.io
  let ks := io.feed.keys.filter io.markerless.testBit
  let lost := ks.flatMap io.inq
  let s := s.setElem e { el with
    io := { io with drained := true, ins := ks.foldl (fun (m : Sparse (List InTok)) k => m.put [] k []) io.ins } }
  lost.foldl (fun s t => s.freeSlot t.ch t.dst) s

/-- R141. An element whose inputs the DRAIN has reached drains in a later round, once it has finished what they began and is at rest, or
65,536 + `Config.drainLinger` rounds later (R284, log 14), in rounds in which its plane is active; one that no DRAIN reaches on an input
drains in the very next round. -/
def execElementDrain (e : Nat) (s : State) : Out :=
  let el := s.elem e
  .next <| match s.regionOf (Key.pkOfElem e) with
    | none => s
    | some rk =>
      let r := s.region rk
      if !r.runs || el.io.drained then s
      else if !drainDue s r e then s
      else match el.drainAt with
        | none => s.setElem e { el with drainAt := some r.act }
        | some at_ =>
          if at_ < r.act && (drainsLast s e || atRest s e || at_ + 65536 + Config.drainLinger < r.act) then elementDrains s e
          else s

/-- An AG has delivered all it had to, and a DRAIN stands on each of its inputs; an affine load drains when its stream has
ended, or at DRAINREQ (R190, R193, R310). -/
def agDrainReady (s : State) (r : Region) (a : Nat) : Bool :=
  let ag := s.ag a
  let ins := ag.io.feed.keys.all (ag.io.drainedIn s.round)
  if Spb.store ag.spb then ins
  else (ag.reqs.isEmpty && ins && ag.ended && ag.endSent) || (r.drainReq && !Spb.indexed ag.spb)

/-- A unit passes the drain on: DRAIN on its output, and it takes no more. -/
def passDrain (s : State) (u : UnitRef) : State :=
  let io := s.io u
  let io := (markOutputs s u).foldl (fun (io : Ports) k =>
    if io.closedOut.testBit k then io else io.reserve k { tok := ⟨5, 0, 0⟩, ready := s.round }) io
  s.setIo u { io with drained := true }

/-- Elements of a region whose request ports target the tile keystone of a plane, with the numbers of those targets. -/
def ksSources (s : State) (r : Region) (pk : Nat) : List (Nat × List Nat) :=
  r.units.filterMap fun u => match u with
    | .elem e =>
      match (((s.elem e).targets.filter fun t => t.2.device.isNone && t.2.range == pk).map Prod.fst) with
      | [] => none
      | ts => some (e, ts)
    | _ => none

/-- The drain has reached a tile keystone on every request port that targets it (R16, R18): their elements have drained, or wait at a
barrier with their inputs drained (R213); and every command of theirs that asks for a reply has come (log 16). -/
def keystoneLast (s : State) (r : Region) (pk : Nat) : Bool :=
  let k := s.kstone pk
  k.inq.isEmpty && k.waitQ.isEmpty && (ksSources s r pk).all fun x =>
    ((s.elem x.1).io.drained || (drainDue s r x.1 && atBarrier s x.1))
      && (s.elem x.1).irrev.all fun i => i.sent || !x.2.contains i.target

/-- No reply of a tile keystone is on its way to a request port (R213). -/
def repliesLanded (s : State) (r : Region) (pk : Nat) : Bool :=
  (ksSources s r pk).all fun x => (s.elem x.1).irrev.all fun i => !x.2.contains i.target

/-- A tile keystone has applied every posted update sent to it (R18, R208). -/
def updatesDone (s : State) (r : Region) (pk : Nat) : Bool :=
  (s.kstone pk).inq.isEmpty && (ksSources s r pk).all fun x =>
    let el := s.elem x.1
    x.2.all fun t => el.ksOut.get 0 t = 0 && !el.posted.any (·.target == t)

/-- A request port has nothing in flight to a keystone of its device (R208, R209). -/
def portIdle (el : Elem) : Bool :=
  el.posted.isEmpty && el.irrev.isEmpty && el.targets.all fun t => t.2.device.isSome || el.ksOut.get 0 t.1 = 0

/-- R18. An AG, a repeat node, a schedule-table node, an island, a streamer or a keystone finishes what it has accepted and passes
the drain on. A keystone's held arrivals break (R213). -/
def execEngineDrainPass (u : UnitRef) (s : State) : Out :=
  match u with
  | .elem _ => .next s
  | .island i => execIslandDrain i s
  | .streamer i => execStreamerDrain i s
  | .keystone k => .next <| match s.regionOf k with
    | some rk => if keystoneLast s (s.region rk) k then breakAll s k else s
    | none => s
  | _ => .next <| match s.regionOf u.pk with
    | none => s
    | some rk =>
      let r := s.region rk
      if !r.runs || (s.io u).drained then s
      else match u with
        | .ag a =>
          if !agDrainReady s r a then s
          else
            let s := if Spb.store (s.ag a).spb && !(s.ag a).ended then s.setAg a (s.ag a).finishStore else moveEnd s a
            let s := s.setAg a { s.ag a with ended := true, endSent := true, reqs := [] }
            passDrain s u
        | .repeatNode pk =>
          let x := s.rep pk
          let idle := match x.st with | .emit _ _ => false | _ => true
          if idle && x.io.feed.keys.all (x.io.drainedIn s.round) then passDrain (repDrop s pk) u else s
        | .schedNode pk =>
          let n := s.sched pk
          if (s.elem n.feeds).io.drained then s.setSched pk { n with reqs := [], io := { n.io with drained := true, outs := [] } }
          else s
        | _ => s

/-- The island and the streamer attached to a tile in a plane (R7). -/
def tileEngines (r : Region) (pk : Nat) : List UnitRef :=
  r.units.filter fun u => u.pk == pk && (match u with | .island _ | .streamer _ => true | _ => false)

/-- Every element and node of a tile has drained, every engine at it has passed the drain on, no command with a reply is
outstanding (R166), and the drain has reached its keystone, whose replies have landed (R213). -/
def tileDrained (s : State) (r : Region) (pk : Nat) : Bool :=
  (tileUnits r pk).all (fun u => (s.io u).drained) && (tileEngines r pk).all (fun u => (s.io u).drained)
    && (s.homes.all fun h => h.1 / 64 != pk || h.2.op.isNone)
    && (tileUnits r pk).all (fun u => match u with | .elem e => (s.elem e).irrev.isEmpty | _ => true)
    && keystoneLast s r pk && (s.kstone pk).held.isEmpty && repliesLanded s r pk

/-- The cut whose snapshot holds a drained tile: the open one if no unit of the tile has taken it yet, else the next. -/
def finalCut (s : State) (r : Region) (pk : Nat) : Nat :=
  let us := tileUnits r pk ++ tileEngines r pk
  if r.cutOpen then (if us.any fun u => decide (r.cut ≤ (s.io u).snapCut) then r.cut + 1 else r.cut) else r.done + 1

/-- The slots that an island still holds at its DRN are freed and counted (R255, R337). -/
def freeSlots (s : State) (r : Region) : UnitRef → State
  | .island i =>
    let isl := s.island i
    let s := match r.launch with
      | some l => s.setLaunch l { s.launch l with slots := (s.launch l).slots + (List.range 8).countP fun k => (isl.slot k).state != 0 }
      | none => s
    s.setIsland i { isl with slots := [], dir := [] }
  | _ => s

/-- What a REL has released at a tile is performed: its AGs hold none of it back, and its keystone has applied it (R18). -/
def releasesDone (s : State) (r : Region) (pk n : Nat) : Bool :=
  updatesDone s r pk && (tileUnits r pk).all fun u => match u with | .ag a => (s.ag a).held.all fun h => n < h.cut | _ => true

/-- R18. A drained tile asks for an early cut; at the REL of the cut that holds it drained, and once what that REL let go has been
performed, it is past its DRN and accepts the next configuration; its range exists no longer (R199), and the slots of its island are
free (R255). -/
def execTileDrn (pk : Nat) (s : State) : Out :=
  let p := s.plane pk
  .next <| match s.regionOf pk with
    | none => s
    | some rk =>
      let r := s.region rk
      if !r.running || p.drn then s
      else match p.drainCut with
        | none =>
          if tileDrained s r pk then
            (s.setPlane pk { p with drainCut := some (finalCut s r pk) }).askCut pk
          else s
        | some n =>
          if n ≤ r.lastRel && releasesDone s r pk n then
            (tileEngines r pk).foldl (fun s u => freeSlots s r u) ((s.setPlane pk { p with drn := true }).setKstone pk {})
          else s

/-! ### Rollback (R345) -/

/-- An element as its snapshot of cut `cut` holds it. Commands held since are dropped; replies of which a copy is kept are delivered
again (R209); what keystones still send is not undone. -/
def restoreElem (live snap : Elem) (cut n : Nat) : Elem :=
  let pending (t : Nat) : Bool := snap.irrev.any (·.ticket == t)
  let again := live.kept.filter fun k => pending k.ticket
  let came (t : Nat) : Bool :=
    again.any (·.ticket == t) || live.irrev.any (fun i => i.ticket == t && i.sent)
      || live.ksIn.any fun m => match m with | .reply _ k _ => k == t | _ => false
  { snap with
    posted := live.posted.filter (·.cut ≤ cut), ksOut := live.ksOut
    kept := live.kept.filter fun k => !pending k.ticket
    irrev := snap.irrev.map fun i => { i with sent := i.sent || came i.ticket }
    ksIn := (live.ksIn.filter fun m => match m with | .reply _ k _ => pending k | .applied _ _ => true)
      ++ again.map fun k => .reply n k.ticket k.tok }

/-- An AG: its stores made before the cut have been released, but for those that no link has let through, and its outstanding reads start
again. The start wave is past; what other devices have still to confirm is not undone (R211). -/
def restoreAg (live snap : Ag) (cut n : Nat) : Ag :=
  { snap with
    started := live.started, held := live.held.filter (·.cut ≤ cut), ordPend := live.ordPend, stall := none
    reqs := snap.reqs.map fun r => { r with fwdd := false, issued := n } }

/-- An island (R255): each operand input discards the overhang that the re-sending units deliver. The spill area is no part of the
snapshot (R264, R265), nor are the checkpoint images (R254). -/
def restoreIsland (live snap : Island) (n : Nat) : Island :=
  let chans : List Nat := snap.io.feed.flatMap Prod.snd
  { snap with
    spillVa := live.spillVa, spillN := live.spillN, spillPins := live.spillPins
    overhang := [], pastMark := chans.foldl (fun m ch => m.put 0 ch n) []
    discard := chans.foldl (fun m ch => m.put 0 ch (snap.discard.get 0 ch + snap.overhang.get 0 ch)) []
    pendImg := [], spillWait := none, xfer := none, heldNew := [], ckptSide := live.ckptSide, ckptNew := []
    slots := (snap.slots.map fun p => (p.1, { p.2 with dirty := false, fresh := false })).filter fun p => decide (p.2 ≠ {})
    dir := (snap.dir.map fun p => (p.1, p.2 &&& ~~~0x20000000#32)).filter fun p => p.2 != 0 }

/-- A streamer (R234, R379): commands that were not complete start again, an INJECT from its header on; hops and what buckets keep are
not undone, and a bucket whose completion is removed keeps them still. -/
def restoreStreamer (live snap : Streamer) : Streamer :=
  { snap with
    cmds := snap.cmds.map fun c => { c with x := {}, flags := 0, mark := none }
    runs := snap.runs.map fun p => (p.1, p.2.map fun r => { step := r.step })
    hops := live.hops, kept := live.kept.map fun k => { k with freeAt := none }, used := live.used }

/-- Every MARKER up to cut n counts as come. -/
def Ports.restored (io : Ports) (n : Nat) : Ports :=
  { io with backSeen := (io.feed.flatMap Prod.snd).foldl (fun (m : Sparse Nat) ch => m.put 0 ch n) [] }

/-- A unit goes back to its snapshot of cut n. -/
def restoreUnit (n : Nat) (s : State) (u : UnitRef) : State :=
  let v : Option SnapVal := (snapOf s u n).map (·.val)
  match v with
  | some (.elem x) =>
    match u with
    | .elem e => s.setElem e (restoreElem (s.elem e) { x with io := x.io.restored n } n s.round)
    | _ => s
  | some (.ag x) =>
    match u with
    | .ag a => s.setAg a (restoreAg (s.ag a) { x with io := x.io.restored n } n s.round)
    | _ => s
  | some (.rep x) => match u with | .repeatNode k => s.setRep k { x with io := x.io.restored n } | _ => s
  | some (.sched x) => match u with | .schedNode k => s.setSched k { x with io := x.io.restored n } | _ => s
  | some (.island x) => match u with | .island k => s.setIsland k (restoreIsland (s.island k) { x with io := x.io.restored n } n) | _ => s
  | some (.streamer x) =>
    match u with
    | .streamer k => s.setStreamer k (restoreStreamer (s.streamer k) { x with io := x.io.restored n })
    | _ => s
  | none => s

/-- The slot that the snapshots of cut n hold of a contributor, with what was on its way to it. -/
def snapSlot (s : State) (r : Region) (n hk k : Nat) : Option (PSlot × List CombCmd) :=
  (r.units.findSome? fun u => (snapOf s u n).bind fun p =>
    (p.contribs.find? fun c => c.1 == hk && c.2.1 == k)).map fun c => c.2.2

/-- A partial slot against its restored home: a closed generation that the home has settled moves on; one that a reset of the home has
emptied is empty (R166). -/
def syncSlot (h : Home) (p : PSlot) : PSlot :=
  let resets := match h.op with | some (.reset _ _ _ _) => true | _ => false
  if p.crsts < h.crsts && !resets then { p with cur := {}, nxt := {}, closed := false, gen := h.gen, crsts := h.crsts }
  else if p.behind h && p.closed then p.shift
  else p

/-- A reading command that the restored record holds starts again; an outstanding reset records the closes that the restored slots have
made since they took it, whose notices are gone. -/
def restartOp (closed : BitVec 16) : Option HomeOp → Option HomeOp
  | some (.read peek t fired _ _) => some (.read peek t fired none [])
  | some (.reset t fired acked _) => some (.reset t fired acked closed)
  | op => op

/-- R166. A combining register goes back to cut n; its closed mask follows from the restored slots. -/
def restoreMreg (r : Region) (n : Nat) (s : State) (hk : Nat) : State :=
  let live := s.home hk
  let h := if unitLeft s r (.elem live.decl.home) then live else (snapHome s r n hk).getD live
  let ks := List.range h.decl.contribs.length
  let slots := ks.map fun k =>
    let sk := h.slotKeys.getD k 0
    let c := h.decl.contribs.getD k (false, 0)
    if unitLeft s r (if c.1 then .island c.2 else .elem c.2) then (sk, s.pslot sk, live.toSlot.get [] k)
    else match snapSlot s r n hk k with
      | some (p, q) => (sk, syncSlot h p, q)
      | none => (sk, s.pslot sk, [])
  let closed := slots.zipIdx.foldl (fun (m : BitVec 16) p =>
    if (p.1.2.1.at h.crsts h.genNow).2 then m ||| 1#16 <<< p.2 else m) 0
  let s := slots.foldl (fun s p => s.setPslot p.1 p.2.1) s
  s.setHome hk { h with
    op := restartOp closed h.op, toHome := [], closed := closed, lastNotice := s.round
    toSlot := slots.zipIdx.foldl (fun (m : Sparse (List CombCmd)) p => m.put [] p.2 p.1.2.2) [] }

/-- Credits of a channel from what its destinations hold; tokens on the way are gone, but for order tokens, which come from
released effects (R142). -/
def restoreChan (s : State) (ch : Nat) : State :=
  let c := s.chan ch
  let flight := if ch < 2 ^ 30 then [] else c.flight
  let held := (chanDests s ch).zipIdx.map fun p =>
    ((s.io p.1.1).inq p.1.2).countP (fun t => t.ch == ch && t.dst == p.2) + flight.countP fun f => f.dst == p.2
  let used := held.foldl max 0
  payOwed ch c.owed <| s.setChan ch {
    owed := c.owed, sent := used, returned := 0, flight := flight
    freed := held.zipIdx.foldl (fun (m : Sparse Nat) p => m.put 0 p.2 (used - p.1)) [] }

/-- The channels that feed the units of a region. -/
def regionChans (s : State) (r : Region) : List Nat :=
  (r.units.flatMap fun u => (s.io u).feed.flatMap Prod.snd).foldl (fun l c => if l.contains c then l else l ++ [c]) []

/-- Reads that left for other devices are forgotten, and the walks that units waited for. The writes of streamers go on: they are never
removed, and nobody waits for their answers any more (R234). The bound of a hop on its way starts again (R379). -/
def dropReads (s : State) (r : Region) : State :=
  let at_ (pk : Nat) : Bool := r.pks.contains pk
  { s with
    dltOut := (s.dltOut.filter fun q => match q.src with
      | .agLoad a _ => !at_ (a / 2)
      | .stRead i _ _ => !at_ (Key.enginePk i)
      | _ => true).map fun q => match q.src with
      | .stWrite i _ _ _ => if at_ (Key.enginePk i) then { q with src := .gone } else q
      | _ => q
    hopsOut := s.hopsOut.map fun h => if at_ (Key.enginePk h.st) then { h with sent := s.round } else h
    walks := (s.walks.map fun w => (w.1, w.2.filter fun q => !at_ q.owner.pk)).filter fun w => !w.2.isEmpty }

/-- A seed token at its place in the stream: the farther from the end, the earlier. -/
def insertSeed (x : Nat × Nat × Token) : List (Nat × Nat × Token) → List (Nat × Nat × Token)
  | [] => [x]
  | y :: ys => if y.1 < x.1 then x :: y :: ys else y :: insertSeed x ys

/-- The seed position at cut n (R344): each port's tokens, in the order of the stream (R336). -/
def restoreSeeds (r : Region) (n : Nat) : Region :=
  let back := r.seedPorts.keys.map fun p =>
    if n ≤ r.seedMark.get 0 p || n = 0 then r.seedSnaps.get ([], []) (2 * p + n % 2) else ([], [])
  { r with
    seeds := ((back.flatMap Prod.fst).foldl (fun l x => insertSeed x l) []).map Prod.snd
    seedDrains := back.flatMap Prod.snd, seedSince := [], seedQ := []
    seedMark := r.seedPorts.keys.foldl (fun (m : Sparse Nat) p => m.put 0 p n) [] }

/-- Every item of R344 goes back to the last complete cut, at every tile and engine that has not passed its DRN. -/
def restoreCut (s : State) (rk : Nat) : State :=
  let r := s.region rk
  let n := r.done
  let us := r.units.filter fun u => !unitLeft s r u
  let s := dropReads s r
  let s := undoMeta s r n
  let left := r
  let s := us.foldl (restoreUnit n) s
  let s := (left.mregs.map Prod.snd).foldl (restoreMreg left n) s
  let s := (regionChans s left).foldl restoreChan s
  let s := r.pks.foldl (fun s pk =>
    let p := s.plane pk
    if p.drn then s else s.setPlane pk { p with drainCut := none }) s
  s.setRegion rk { restoreSeeds r n with
    cut := n, cutOpen := false, cutAsked := false, reqHop := none, reports := (r.reports.filter fun p => p.cut ≤ n)
    metaLog := r.metaLog.filter fun g => g.2.2 ≤ n
    movedAt := r.pks.foldl (fun (m : Sparse Nat) pk => m.put 0 pk r.act) []
    fails := r.fails.filter fun f => f.1 ≤ n }

/-- What has been written into the shadow of a plane is discarded (R331). -/
def dropShadow (s : State) (pk : Nat) : State :=
  s.setPlane pk { s.plane pk with shadow := [], rx := [], schedLen := 0, binds := (false, false), status := 0, acked := false, valid := false }

/-- The event of a cause (R345, R354): type, code, place, and its two data dwords. -/
def causeEvent (s : State) (r : Region) : RollCause → Option (Nat × Nat × Word × Dword × Dword)
  | .deliveryTimeout cls route | .linkRetrain cls route =>
    some (10, cls, Key.place (Key.tileAt r.prow r.pcol) 0, BitVec.ofNat 64 (route % 128), BitVec.ofNat 64 r.done)
  | .pageFault va ctx place => some (6, 0, place, BitVec.ofNat 64 va, BitVec.ofNat 64 ctx)
  | .walkFormat level va ctx place => some (7, level, place, BitVec.ofNat 64 va, BitVec.ofNat 64 ctx)
  | .spillFull isl mark =>
    let t := Key.tileOf (Key.enginePk isl)
    some (8, 0, Key.place t 0,
      BitVec.ofNat 64 (ownDevice s * 2 ^ 48 + 3 * 2 ^ 45 + Key.engineDie isl * 2 ^ 43 + Key.engineSide isl * 2 ^ 41
        + Key.enginePos isl * 2 ^ 36), BitVec.ofNat 64 mark)
  | .ecc place => some (11, Place.space place, Key.place (Key.tileAt r.prow r.pcol) 0, BitVec.ofNat 64 place, 0)
  | .firmware => none

/-- The region waits for firmware after these causes. -/
def causeWaits : RollCause → Bool
  | .pageFault _ _ _ | .walkFormat _ _ _ _ | .spillFull _ _ => true
  | _ => false

/-- The cause of lateness that a rollback gives (R24). -/
def causeLate : RollCause → Nat
  | .deliveryTimeout _ _ => 1
  | .linkRetrain _ _ => 3
  | _ => 2

/-- The rollback of R345: freeze, restore, post the event, thaw or wait; a shadow that is not committed goes (R331). The sixteenth to
one cut ends the launch; so does an error that recurs at its address on the re-read. A due REL goes first (R344): the rollback of a
retrain then follows it, and the other causes are found again. -/
def rollback (s : State) (rk : Nat) (cause : RollCause) : State :=
  let r := s.region rk
  if !r.live || !r.running || r.commitHop.isSome then s
  else if r.relDue.isSome then match cause with
    | .linkRetrain _ _ => s.setRegion rk { r with afterRel := some cause }
    | _ => s
  else
    let die := Key.dieOfTile (Key.tileAt r.prow r.pcol)
    let again := match cause with
      | .ecc p => r.lastEcc == some p
      | _ => false
    let s := match cause with
      | .ecc p => s.countUe (Place.die p)
      | _ => s
    let s := r.pks.foldl dropShadow (restoreCut s rk)
    let id := s.nextId % 2 ^ 16
    let s := match causeEvent s r cause with
      | some (t, c, place, d2, d3) => s.event die t c place d2 d3
      | none => s
    let s := match r.launch with
      | some l => noteCause (s.setLaunch l { s.launch l with rbk := (s.launch l).rbk + 1 }) l (causeLate cause)
      | none => s
    let s := s.setRegion rk { s.region rk with
      sameCut := r.sameCut + 1, progress := s.round, moved := s.round
      lastEcc := match cause with | .ecc p => some p | _ => r.lastEcc
      frozen := r.frozen || causeWaits cause
      frozenAt := if r.frozen then r.frozenAt else s.round
      waitEv := if causeWaits cause then some id else r.waitEv
      waitType := if causeWaits cause then ((causeEvent s r cause).map (·.1)).getD 0 else r.waitType
      waitIsl := match cause with | .spillFull i _ => some i | _ => r.waitIsl }
    match r.launch with
    | some l =>
      if again then endLaunch s l 11 0 0
      else if 16 ≤ r.sameCut + 1 then endLaunch s l 9 0 0
      else s
    | none => s

/-- R69. In the round after cut completion, the posted effects held before the cut are released; a rollback that the cut held up follows
(R344). -/
def execRelEv (rk : Nat) (s : State) : Out :=
  let r := s.region rk
  .next <| match r.relDue with
    | some d =>
      if s.round < d then s
      else
        let n := r.done
        let s := r.units.foldl (fun s u => match u with
          | .ag a => releaseAg n s a
          | .elem e => releasePort n s e
          | _ => s) s
        let s := releaseReports n s rk
        let s := s.setRegion rk { s.region rk with
          relDue := none, lastRel := n, relRound := s.round, sameCut := 0, lastEcc := none, afterRel := none }
        match r.afterRel with
        | some c => rollback s rk c
        | none => s
    | none => s

/-- R345. The region freezes, restores the last complete cut, drops held effects, posts the event and thaws. -/
def execRollbackEv (rk : Nat) (cause : RollCause) (s : State) : Out := .next (rollback s rk cause)

/-! ### What leads to a rollback -/

/-- R189. The walker serves its oldest miss: a leaf enters the block's cache, and a store behind a page in migration goes on
waiting; an indexed walk that fails rolls its region back (R194). -/
def execWalkEv (die : Nat) (s : State) : Out :=
  .next <| match s.walks.get [] die with
    | [] => s
    | w :: rest =>
      let done (s : State) : State := { s with walks := s.walks.put [] die rest }
      let fail (s : State) (c : RollCause) : State :=
        match s.regionOf w.owner.pk with
        | some rk => if (s.region rk).relDue.isSome then s else rollback s rk c
        | none => done s
      let r := walk s w.va w.ctx
      let s := walkCorrected s w.va w.ctx
      match r with
      | .leaf lv d =>
        if w.write && leafM d then { s with walks := s.walks.put [] die (rest ++ [w]) }
        else
          let tlb := (s.blockTlb.get [] w.block).filter fun l => !l.serves w.va w.ctx
          done { s with
            freeCtr := s.freeCtr + 1
            blockTlb := s.blockTlb.put [] w.block (fillLeaf 256 s.freeCtr tlb ⟨w.ctx, w.va, lv, d⟩) }
      | .notPresent _ => fail s (.pageFault w.va w.ctx w.owner.place)
      | .malformed lv => fail s (.walkFormat lv w.va w.ctx w.owner.place)
      | .ecc _ p => fail s (.ecc p)

/-! ### What misses a delivery bound (R23, R18, log 15) -/

/-- The last round in which something moved in the regions that hold one of the launch's courses. -/
def courseMoved (s : State) (l c : Nat) : Nat :=
  s.regions.foldl (fun n p => if p.2.live && p.2.launch == some l && p.2.course == c then max n p.2.moved else n) 0

/-- The bank tokens that an AG stalls for have not come for longer than a bound, though the courses that hold them stand still (R17). -/
def bankLate (s : State) (a bound : Nat) : Bool :=
  let late (n : Nat) : Bool := n + bound < s.round
  match (s.ag a).stall with
  | some n => late n && agActive s a && (agBanks s a (a / 8)).any fun b =>
      !holdsBank s (a / 2) b && match (s.tile (a / 8)).owner.get none b with
        | some (l, c) => late (courseMoved s l c)
        | none => true
  | none => false

/-- A token of a channel has missed its bound (R23, log 15): it is on its way longer than the class allows and a link of its path carries
nothing or its element has halted; or a halted element holds it that long, from its arrival on (R91; DESIGN CHOICE, log 15). A token
that waits for a slot of its port waits for the receiver, and a channel is insensitive to that (R10). The stall of an AG for a bank
token counts toward the bound of its data channel, beside the 350 rounds of an access (R17). -/
def overdue (s : State) (ch : Nat) : Bool :=
  let c := s.chan ch
  let bound := classBound (chanClass s ch)
  let late (r : Nat) : Bool := r + bound < s.round
  let halted (u : UnitRef) : Bool := match u with | .elem e => (s.elem e).halt | _ => false
  let blocked (u : UnitRef) : Bool := match u with | .ag a => bankLate s a (bound + 350) | _ => false
  c.flight.any (fun f => late f.sent && match (chanDests s ch)[f.dst]? with
    | some (u, _) => !pathUp s ch u f.sent || halted u
    | none => false)
    || (chanDests s ch).any (fun d => blocked d.1 || halted d.1 && ((s.io d.1).inq d.2).any fun t =>
      t.ch == ch && t.tok.tag != 4 && t.tok.tag != 5 && late t.arr)
    || (chanSender ch).any fun u => blocked u.1

/-- The longest class that the units of a region deliver over (R23). -/
def regionClass (s : State) (r : Region) : Nat :=
  let far (u : UnitRef) : Bool := match u with
    | .elem e => (s.elem e).targets.any fun t => t.2.device.isSome
    | .ag a => (s.ag a).pins.any (fun p => !isOwn s p.place) || (s.ag a).reqs.any (·.fwdd)
    | .streamer i => (s.streamer i).coll.isSome || (s.streamer i).pins.any fun l => l.2.any fun p => !isOwn s p.place
    | _ => false
  if r.units.any far then 3 else if (r.tiles.map Key.dieOfTile).eraseDups.length > 1 then 2 else 1

/-- An engine does what it needs nobody for, and is not late with it: it spills, computes or moves bytes. -/
def engineBusy (s : State) (u : UnitRef) (bound : Nat) : Bool :=
  match u with
  | .island i =>
    let isl := s.island i
    isl.xfer.isSome || isl.mmas.any fun m => match m.done with | some (n, _) => decide (s.round ≤ n + bound) | none => false
  | .streamer i =>
    let t := s.streamer i
    t.cmds.any fun c => c.status == 0 && (c.form ≤ 2 || c.form == 6) && s.round ≤ dueOf t c + bound
  | _ => false

/-- The last round in which something moved in a region or in another one of its launch (R17). -/
def lastMoved (s : State) (r : Region) : Nat :=
  s.regions.foldl (fun n p => if p.2.live && p.2.launch == r.launch then max n p.2.moved else n) r.moved

/-- An AG has been blocked for longer than a bound: its banks have not come, a bank cannot serve it, or F is not what its qualifier
needs (R17, R177, R179, R188). -/
def agBlocked (s : State) (a since : Nat) : Bool :=
  let ag := s.ag a
  (match ag.stall with | some n => decide (n < since) | none => false)
    || match ag.waiting with | some q => decide (q.issued < since) | none => false

/-- A unit waits for a memory, a keystone or an engine: the latency of an access is not its channels' (log 15). -/
def awaits (s : State) (u : UnitRef) : Bool :=
  match u with
  | .elem e => !(s.elem e).waits.isEmpty || !(s.elem e).irrev.isEmpty || !(s.elem e).posted.isEmpty
  | .ag a => !(s.ag a).reqs.isEmpty || (s.ag a).waiting.isSome || (s.ag a).stall.isSome || !(s.ag a).held.isEmpty
  | .streamer i => !(s.streamer i).cmds.isEmpty || !(s.streamer i).runs.isEmpty
  | .island i => !(s.island i).mmas.isEmpty || (s.island i).job ≠ .none
  | _ => false

/-- Something of a region has to go on: a DRAIN stands at a unit that has not drained, or some units have drained and the others wait
for nothing but the drain (R18, R141). -/
def drainLeft (s : State) (r : Region) : Bool :=
  let left := r.units.filter fun u => match u with | .keystone _ => false | u => !(s.io u).drained
  left.any (fun u => (s.io u).ins.any fun p => p.2.any fun t => t.tok.tag == 5)
    || (!left.isEmpty && r.units.any (fun u => (s.io u).drained) && r.seeds.isEmpty && r.waveHop.isNone && !r.units.any (awaits s))

/-- The tiles that send to a tile in a plane: on channels, and through keystones and AGs on order channels. -/
def feeders (s : State) (r : Region) (pk : Nat) : List Nat :=
  (r.units.filter fun u => u.pk == pk).flatMap fun u => ((s.io u).feed.flatMap Prod.snd).filterMap fun ch =>
    if ch < 2 ^ 24 then (chanSender ch).map (·.1.pk)
    else if ch < 2 ^ 30 then none
    else if ch < 2 ^ 31 then some (Key.pkOfElem ((ch - 2 ^ 30) / 4))
    else some ((ch - 2 ^ 31) / 2)

/-- The tiles that feed a tile within n steps, with itself. -/
def upstream (s : State) (r : Region) : Nat → List Nat → List Nat
  | 0, pks => pks
  | n + 1, pks =>
    let more := ((pks.flatMap (feeders s r)).filter fun p => !pks.contains p).eraseDups
    if more.isEmpty then pks else upstream s r n (pks ++ more)

/-- The drain of a tile has missed the tile's bound (R18): a DRAIN stands at a unit that has not drained, and neither that tile nor any
that feeds it has moved for the bound or waits for a memory, a keystone, an engine or a seed token. -/
def tileStalled (s : State) (r : Region) (bound pk : Nat) : Bool :=
  let quietTile (p : Nat) : Bool := r.movedAt.get 0 p + bound ≤ r.act
  quietTile pk
    && (r.units.any fun u => u.pk == pk && !(s.io u).drained && (s.io u).ins.any fun p => p.2.any fun t => t.tok.tag == 5)
    && (let c := upstream s r r.pks.length [pk]
        c.all quietTile && r.seeds.isEmpty && r.seedQ.isEmpty && r.waveHop.isNone
          && !r.units.any fun u => c.contains u.pk && awaits s u)

/-- A region stands still though its drain has to go on (R18), or an access is blocked. Nothing has moved for the delivery bound of the
region and, where a unit awaits one, the latency of a memory access, counted in rounds in which its plane is active; no engine works,
and no effect waits for a cut that is still to start. -/
def regionStalled (s : State) (r : Region) : Bool :=
  r.running && !r.frozen && r.moved + classBound 1 < s.round &&
    (let bound := classBound (regionClass s r) + if r.units.any (awaits s) then 350 else 0
     let still (n : Nat) : Bool := n + bound < s.round
     still r.moved && bound ≤ r.still && !r.units.any (fun u => engineBusy s u bound)
       && !(!r.cutOpen && r.units.any fun u => match u with
         | .ag a => !(s.ag a).held.isEmpty
         | .elem e => !(s.elem e).posted.isEmpty
         | .streamer i => (s.streamer i).cmds.any fun c => c.form == 3 && c.status == 0
         | _ => false)
       && (drainLeft s r || r.units.any fun u => !(s.io u).drained && match u with
         | .ag a => still (lastMoved s r) && agBlocked s a (s.round - bound)
         | _ => false))

/-- An island cannot go on: it has held its close beyond the bound (R155), or a DRAIN has stood at the head of an input from which an
accepted MMA still needs tokens (R255). -/
def islandStalled (s : State) (i : Nat) (bound : Nat) : Bool :=
  let isl := s.island i
  let held := match isl.mmas with
    | m :: _ => (match m.done with | some (n, _) => decide (n + bound < s.round) | none => false) && !contribReady s isl
    | [] => false
  let ended (k : Nat) : Bool := match isl.io.inq k with
    | t :: _ => t.tok.tag == 5 && t.arr + bound < s.round
    | [] => false
  held || isl.mmas.any fun m => m.done.isNone && m.slot < 8 &&
    (let (na, nsa, nb, nsb) := needOf m (ISetup.fmt isl.setup == 0)
     (m.a.length < na && ended 2) || (m.b.length < nb && ended 3) || (m.sa.length < nsa && ended 4) || (m.sb.length < nsb && ended 5))

/-- The result of a read that a home has issued has missed 2 × B + 4 rounds (R164). -/
def homeStalled (s : State) (h : Home) : Bool :=
  match h.op with
  | some (.read _ _ _ (some n) _) =>
    let die := Key.dieOfElem h.decl.home
    let c := h.slotKeys.foldl (fun m k =>
      max m (if Key.dieOfTile (k / 256) ≠ die then 2 else if k / 64 = Key.pkOfElem h.decl.home then 0 else 1)) 0
    n + 2 * classBound c + 4 < s.round
  | _ => false

/-- Something of a region has missed its bound (R18, R155, R164, R255). -/
def regionLate (s : State) (r : Region) : Bool :=
  r.runs && (regionStalled s r || (!r.frozen && r.pks.any (tileStalled s r (classBound (regionClass s r))))
    || r.units.any (fun u => match u with | .island i => islandStalled s i (classBound (regionClass s r)) | _ => false)
    || r.mregs.any fun m => homeStalled s (s.home m.2))

/-- The region of a channel's destination. -/
def chanRegion (s : State) (ch : Nat) : Option Nat :=
  match chanDests s ch with
  | (u, _) :: _ => s.regionOf u.pk
  | [] => none

/-- The drain has not reached every destination of a channel (R18). -/
def undrained (s : State) (ch : Nat) : Bool :=
  (chanDests s ch).any fun d => !(s.io d.1).drained && !(s.io d.1).drainedIn s.round d.2

/-- R23. A token that misses its channel class bound raises a delivery-timeout fault, and the region rolls back; so does what else of
the region has missed its bound (R18). -/
def execDeliveryTimeout (ch : Nat) (s : State) : Out :=
  .next <| match chanRegion s ch with
    | some rk =>
      let r := s.region rk
      if !r.frozen && (overdue s ch || regionLate s r) then
        rollback s rk (.deliveryTimeout (chanClass s ch) ch)
      else s
    | none => s

end Sys2Proof.Machine
end

