-- ==== Sys2Proof/Machine/Windows.lean ====
section
/-! DEFINITION. Machine/Windows: configuration space (R297, R298) and status space (R299, R338, R339, R364, R371-R373, R401, R403,
R406) as dwords. -/

namespace Sys2Proof.Machine

/-! ### Unit windows (R298), word by word -/

/-- A word made of two halfwords, low first. -/
def halves (lo hi : BitVec 16) : Word := hi ++ lo

/-- SLOTST of R74. -/
def slotStWord (st : SlotSt) : Word :=
  BitVec.ofNat 32 (st.cls * 2 ^ 30 + st.age * 2 ^ 23 + st.lastc * 2 ^ 20 + st.aborts)

/-- CPTR of R75. -/
def cptrWord (el : Elem) : Word :=
  BitVec.ofNat 32 ((List.range 5).foldl (fun n k => n + el.ptr.get 0 k * 2 ^ (4 * k)) 0)

/-- Slot dword j of a port: valid, tag, payload (R298). -/
def portDword (ts : List Token) (j : Nat) : Dword :=
  match ts[j]? with
  | some t => BitVec.ofNat 64 (2 ^ 63 + t.tag.toNat * 2 ^ 32 + t.payload.toNat % 2 ^ 32)
  | none => 0

/-- Half of a dword, by the byte offset of the word. -/
def halfOf (d : Dword) (off : Nat) : Word := if off % 8 = 0 then d.setWidth 32 else d.extractLsb' 32 32

/-- A word of an element's window. -/
def elemWord (el : Elem) (off : Nat) : Word :=
  if off < 0x40 then el.reg (off / 4)
  else if off = 0x40 then el.p.setWidth 32
  else if off = 0x44 then el.fctl
  else if off = 0x48 then el.fflg
  else if off = 0x4C then el.ecfg
  else if off = 0x50 then cptrWord el
  else if off = 0x54 then (BitVec.ofBool el.halt).setWidth 32
  else if 0x80 ≤ off && off < 0xC0 then slotStWord (el.slotSt ((off - 0x80) / 4))
  else if 0xC0 ≤ off && off < 0xE0 then
    halves (el.conflict.get 0 ((off - 0xC0) / 2)) (el.conflict.get 0 ((off - 0xC0) / 2 + 1))
  else if 0x100 ≤ off && off < 0x200 then el.ls.get 0 ((off - 0x100) / 4)
  else if 0x200 ≤ off && off < 0x280 then halfOf (el.slots.get 0 ((off - 0x200) / 8)) off
  else if 0x280 ≤ off && off < 0x380 then
    let port := (off - 0x280) / 32
    let j := (off - 0x280) / 8 % 4
    let ts := if port < 4 then (el.io.inq port).map (·.tok) else (el.io.outq (port - 4)).map (·.tok)
    halfOf (portDword ts j) off
  else 0

/-- The control dword of a partial slot (R150). -/
def pslotDword (p : PSlot) : Dword :=
  BitVec.ofNat 64 (p.mreg * 2 ^ 58 + p.cidx * 2 ^ 54 + p.gen.toNat * 2 ^ 33 + p.cur.v.toNat * 2 ^ 32 + p.closed.toNat * 2 ^ 31
    + p.cur.m.toNat * 2 ^ 30 + p.cur.opc * 2 ^ 26 + p.cur.ty * 2 ^ 23 + p.cur.fl.toNat * 2 ^ 16 + p.nxt.v.toNat * 2 ^ 15
    + p.nxt.m.toNat * 2 ^ 14 + p.nxt.opc * 2 ^ 10 + p.nxt.ty * 2 ^ 7 + p.nxt.fl.toNat)

/-- A partial slot from its control dword and its two values (R150, R298). -/
def pslotOf (d : Dword) (cur nxt : Word) : PSlot :=
  let c := d.toNat
  let bits (hi lo : Nat) : Nat := c / 2 ^ lo % 2 ^ (hi + 1 - lo)
  { mreg := bits 63 58, cidx := bits 57 54, gen := BitVec.ofNat 16 (bits 48 33)
    cur := ⟨bits 32 32 == 1, bits 30 30 == 1, cur, bits 29 26, bits 25 23, BitVec.ofNat 7 (bits 22 16)⟩
    closed := bits 31 31 == 1
    nxt := ⟨bits 15 15 == 1, bits 14 14 == 1, nxt, bits 13 10, bits 9 7, BitVec.ofNat 7 (bits 6 0)⟩ }

def pslotWord (p : PSlot) (off : Nat) : Word :=
  match off / 4 with
  | 0 | 1 => halfOf (pslotDword p) off
  | 2 => p.cur.val
  | 3 => p.nxt.val
  | _ => 0

def agWord (ag : Ag) (off : Nat) : Word := halfOf (ag.spb.getD (off / 8) 0) off

/-- State and tokens buffered of the repeat node. -/
def repWord (r : Repeat) (off : Nat) : Word :=
  if off ≠ 0 then 0
  else
    let st := match r.st with | .fill => 0 | .hold => 1 | .emit _ _ => 2
    BitVec.ofNat 32 (st + r.buf.length * 2 ^ 16)

def schedWord (n : SchedNode) (off : Nat) : Word :=
  if off < 0x400 then n.table.getD (off / 4) 0 else if off = 0x400 then BitVec.ofNat 32 n.cursor else 0

/-- The range word of a keystone. -/
def rangeWord (k : Keystone) : Word :=
  if k.mapped then BitVec.ofNat 32 (2 ^ 31 + k.bar.toNat * 2 ^ 30 + k.ss.toNat * 2 ^ 29 + k.rm * 2 ^ 26 + (k.words - 1)) else 0

/-- The keystone whose range word a configuration place reads: the tile keystone of a plane that a course occupies, else the
device keystone of the tile (R199, R298). -/
def ksOfPlace (s : State) (pk : Nat) : Nat := if (s.plane pk).occupied then pk else 16384 + pk / 4

/-- Tile control: bank mask, configuration-port status, fused and retired, granule metadata. -/
def tileWord (s : State) (pk off : Nat) : Word :=
  let p := s.plane pk
  let t := s.tile (pk / 4)
  if off = 0 then BitVec.ofNat 32 p.mask
  else if off = 4 then BitVec.ofNat 32 (p.status + p.acked.toNat * 2 ^ 8 + p.valid.toNat * 2 ^ 9)
  else if off = 8 then BitVec.ofNat 32 ((Config.fused (pk / 4)).toNat + t.retired.toNat * 2)
  else if 0x400 ≤ off then
    BitVec.ofNat 32 ((List.range 16).foldl (fun n j => n + t.gmeta.get 0 ((off - 0x400) * 4 + j) * 2 ^ (2 * j)) 0)
  else 0

/-- A word of a unit's window in the committed plane. -/
def liveWord (s : State) (pk unit off : Nat) : Word :=
  if unit < 16 then elemWord (s.elem (pk * 16 + unit)) off
  else match unit with
    | 16 => pslotWord (s.pslot (pk * 64 + off / 32)) (off % 32)
    | 17 => agWord (s.ag (2 * pk)) off
    | 18 => agWord (s.ag (2 * pk + 1)) off
    | 19 => repWord (s.rep pk) off
    | 20 => schedWord (s.sched pk) off
    | 21 => if off = 0 then rangeWord (s.kstone (ksOfPlace s pk)) else 0
    | 22 => (s.plane pk).routes.get 0 (off / 4)
    | 23 => tileWord s pk off
    | _ => 0

/-- A dword of a plane's shadow. -/
def shadowDword (s : State) (pk unit off : Nat) : Dword := (s.plane pk).shadow.get 0 (unit * 8192 + off / 8)

/-- Granule metadata as a cut of a plane's region holds it: a rollback to it restores those bits (R180, R344). -/
def cutMeta (s : State) (n pk : Nat) : State :=
  match s.regionOf pk with
  | some rk => undoMeta s (s.region rk) n
  | none => s

/-- A word of a snapshot in the layout of the unit's window. -/
def SnapVal.word (v : SnapVal) (off : Nat) : Word :=
  match v with
  | .elem x => elemWord x off
  | .ag x => agWord x off
  | .rep x => repWord x off
  | .sched x => schedWord x off
  | .island _ | .streamer _ => 0

/-- The unit that a window shows, where a cut saves it. -/
def windowUnit (pk unit : Nat) : Option UnitRef :=
  if unit < 16 then some (.elem (pk * 16 + unit))
  else match unit with
    | 17 | 18 => some (.ag (2 * pk + (unit - 17)))
    | 19 => some (.repeatNode pk)
    | 20 => some (.schedNode pk)
    | _ => none

/-- An item as cut n saves it; what no cut saves reads as committed. -/
def cutWord (s : State) (n pk unit off : Nat) : Word :=
  match (windowUnit pk unit).bind fun u => snapOf s u n with
  | some sn => sn.val.word off
  | none =>
    if unit = 16 then
      match s.snaps.findSome? fun p => if p.2.cut ≠ n then none else p.2.contribs.findSome? fun c =>
          if (s.home c.1).slotKeys.getD c.2.1 (2 ^ 40) = pk * 64 + off / 32 then some c.2.2.1 else none with
      | some sl => pslotWord sl (off % 32)
      | none => liveWord s pk unit off
    else if unit = 23 && 0x400 ≤ off then tileWord (cutMeta s n pk) pk off
    else liveWord s pk unit off

/-- The same item from the snapshot shadow of the last complete cut (R309, R344). -/
def snapWord (s : State) (pk unit off : Nat) : Word :=
  cutWord s (match s.regionOf pk with | some r => (s.region r).done | none => 0) pk unit off

/-! ### Configuration places (R297) -/

namespace CfgPlace
def pk (p : Nat) : Nat := Place.tile p * 4 + Place.bits p 32 31
def shadow (p : Nat) : Bool := Place.bits p 30 30 == 1
def unit (p : Nat) : Nat := Place.bits p 29 25
def off (p : Nat) : Nat := Place.bits p 15 0
end CfgPlace

/-- A read of 4 or 8 bytes of a configuration place through a word reader. -/
def readWords (f : Nat → Word) (off width : Nat) : Nat :=
  (f off).toNat + if width = 8 then (f (off + 4)).toNat * 2 ^ 32 else 0

def cfgRead (s : State) (p width : Nat) : Nat :=
  let pk := CfgPlace.pk p
  let u := CfgPlace.unit p
  readWords (fun o => if CfgPlace.shadow p then halfOf (shadowDword s pk u o) o else liveWord s pk u o) (CfgPlace.off p) width

/-- A mason store to a word of an element's window (R298): the items it may write; the others ignore it (R3). -/
def elemStore (el : Elem) (off : Nat) (v : Word) : Elem :=
  if off < 0x40 then el.setReg (off / 4) v
  else if off = 0x40 then { el with p := v.setWidth 8 }
  else if off = 0x48 then { el with fflg := (el.fflg &&& ~~~0x1F#32) ||| (v &&& 0x1F#32) }
  else if 0x100 ≤ off && off < 0x200 then { el with ls := el.ls.put 0 ((off - 0x100) / 4) v }
  else el

/-- A course that runs has a target bound to a keystone range, or to an old home that forwards to it (R214, R298). -/
def targetBound (s : State) (ks : Nat) : Bool :=
  s.elems.any fun e => e.2.targets.any fun t => t.2.device.isNone && (forwardsTo s 4 ks).contains t.2.range
    && (match s.regionOf (Key.pkOfElem e.1) with | some r => (s.region r).running | none => false)

/-- A write to the range word of a keystone (R213, R215, R298): V = 0 unmaps it and breaks its arrivals, V = 1 maps it, unless its
rounding mode or its reserved bits forbid that, or a running course has a target bound to it. The word stands in the bank of the
range. -/
def writeRange (s : State) (ks : Nat) (v : Word) : State :=
  let k := s.kstone ks
  let words := v.toNat % 1024 + 1
  if !v.getLsbD 31 then (breakAll s ks).setKstone ks { bank := k.bank }
  else if targetBound s ks then s
  else if 5 ≤ v.toNat / 2 ^ 26 % 8 || v.toNat / 2 ^ 10 % 2 ^ 16 ≠ 0 then (breakAll s ks).setKstone ks { bank := k.bank }
  else
    let kept := if k.mapped then k else { bank := k.bank }
    s.setKstone ks { kept with
      mapped := true, words := words, bar := v.getLsbD 30, ss := v.getLsbD 29 && !(k.mapped && k.ss), rm := v.toNat / 2 ^ 26 % 8
      mem := kept.mem.filter fun p => p.1 < words }

/-- R298. A write to a keystone range word maps the device range, unmaps it and breaks its held arrivals, or changes nothing. -/
def execRangeWordWrite (ks : Nat) (v : Word) (s : State) : Out := .next (writeRange s ks v)

/-- Tiles that firmware has retired on a die, in this run or before a reset (R407). -/
def retiredTiles (s : State) (d : Nat) : Nat := s.tiles.countP fun t => Key.dieOfTile t.1 == d && t.2.retired

/-- R407. A write of tile control bit 1 retires a frozen or free tile, and moves one count from SPARES to RETIRED; RR follows where no
spare is left. -/
def retireTile (s : State) (tile : Nat) : State :=
  let d := Key.dieOfTile tile
  let free := (List.range 4).all fun p => match s.regionOf (tile * 4 + p) with
    | some r => (s.region r).frozen
    | none => true
  if (s.tile tile).retired || Config.fused tile || !free then s
  else
    let s := s.setTile tile { s.tile tile with retired := true }
    let x := s.die d
    let x := { x with retiredNow := x.retiredNow + 1 }
    s.setDie d { x with rr := x.rr || Config.spareTiles d ≤ retiredTiles s d }

/-- Retirements are applied again at boot (R407): REPLACE-REQUESTED is set where they leave a die no spare. -/
def noteRetired (s : State) (d : Nat) : State :=
  if 0 < retiredTiles s d && decide (Config.spareTiles d ≤ retiredTiles s d) then s.setDie d { s.die d with rr := true } else s

def execTileRetire (tile : Nat) (s : State) : Out := .next (retireTile s tile)

/-- A core changes the metadata of a granule: a rollback of a course that holds the bank restores them (R180, log 87). -/
def coreMeta (s : State) (p : Nat) : State :=
  (List.range 4).foldl (fun s pl =>
    let pk := Place.tile p * 4 + pl
    match s.regionOf pk with
    | some rk => if holdsBank s pk (bankOf p) then s.logMeta pk p (finalCut s (s.region rk) pk) else s
    | none => s) s

/-- A word of granule metadata is written: sixteen granules from `g` on; (1, 1) leaves a granule Full (R178). -/
def writeMeta (s : State) (tile g : Nat) (v : Word) : State :=
  (List.range 16).foldl (fun s j =>
    let n := v.toNat / 2 ^ (2 * j) % 4
    let p := Place.ofTile tile (16 * (g + j))
    (coreMeta s p).setGmeta p (if n = 3 then 1 else n)) s

/-- A store to a word of a partial slot: the control dword is read only (R150), the CUR and NEXT values are not. -/
def pslotStore (p : PSlot) (off : Nat) (v : Word) : PSlot :=
  match off / 4 with
  | 2 => { p with cur := { p.cur with val := v } }
  | 3 => { p with nxt := { p.nxt with val := v } }
  | _ => p

/-- A store to a word of a bound SPB (R298). -/
def agStore (ag : Ag) (off : Nat) (v : Word) : Ag :=
  let old := ag.spb.getD (off / 8) 0
  let new : Dword := if off % 8 = 0 then old.extractLsb' 32 32 ++ v else v ++ old.setWidth 32
  { ag with spb := (List.range 8).map fun k => if k = off / 8 then new else ag.spb.getD k 0 }

/-- A store to an entry of the schedule table, or to the cursor, which does not pass the entries (R197); an entry beyond the last one
makes the table as long (log 88). -/
def schedStore (n : SchedNode) (off : Nat) (v : Word) : SchedNode :=
  if off < 0x400 then
    { n with table := (List.range (max n.table.length (off / 4 + 1))).map fun k => if k = off / 4 then v else n.table.getD k 0 }
  else if off = 0x400 then { n with cursor := min v.toNat n.table.length } else n

/-- A store of 4 or 8 bytes to a committed plane, word by word. -/
def cfgStoreWord (s : State) (pk unit off : Nat) (v : Word) : State :=
  if unit < 16 then s.modElem (pk * 16 + unit) fun el => elemStore el off v
  else match unit with
    | 16 => s.setPslot (pk * 64 + off / 32) (pslotStore (s.pslot (pk * 64 + off / 32)) (off % 32) v)
    | 17 | 18 => s.setAg (2 * pk + (unit - 17)) (agStore (s.ag (2 * pk + (unit - 17))) off v)
    | 20 => s.setSched pk (schedStore (s.sched pk) off v)
    | 21 => if off ≠ 0 then s else writeRange s (ksOfPlace s pk) v
    | 22 => s.setPlane pk { s.plane pk with routes := (s.plane pk).routes.put 0 (off / 4) v }
    | 23 =>
      if off = 0 then s.setPlane pk { s.plane pk with mask := v.toNat % 65536 }
      else if off = 8 && v.getLsbD 1 then retireTile s (pk / 4)
      else if 0x400 ≤ off && off < 0x800 then writeMeta s (pk / 4) ((off - 0x400) * 4) v
      else s
    | _ => s

/-- A dword of a shadow written; what no block may write stays (R298, R328). -/
def shadowStore (s : State) (pk unit off : Nat) (v : Dword) : State :=
  if unit < 16 && 0x280 ≤ off then s
  else s.setPlane pk { s.plane pk with shadow := (s.plane pk).shadow.put 0 (unit * 8192 + off / 8) v }

/-- A store to a configuration place, or LIVE: the plane is occupied and its region not frozen (R297). -/
def cfgStore (s : State) (p width v : Nat) : Option State :=
  let pk := CfgPlace.pk p
  let u := CfgPlace.unit p
  let off := CfgPlace.off p
  if CfgPlace.shadow p then
    let old := (shadowDword s pk u off).toNat
    let new := if width = 8 then v
      else if off % 8 = 0 then old / 2 ^ 32 * 2 ^ 32 + v % 2 ^ 32 else v % 2 ^ 32 * 2 ^ 32 + old % 2 ^ 32
    some (shadowStore s pk u (off / 8 * 8) (BitVec.ofNat 64 new))
  else
    let frozen := match s.regionOf pk with | some r => (s.region r).frozen | none => false
    if (s.plane pk).occupied && !frozen then none
    else
      let s := cfgStoreWord s pk u off (BitVec.ofNat 32 v)
      some (if width = 8 then cfgStoreWord s pk u (off + 4) (BitVec.ofNat 32 (v / 2 ^ 32)) else s)

/-! ### Status space (R299) -/

namespace StPlace
def die (p : Nat) : Nat := Place.die p
def block (p : Nat) : Nat := Place.bits p 42 32
def off (p : Nat) : Nat := Place.bits p 31 0
end StPlace

/-- STATE of a core (R299). -/
def coreState : CoreRun → Nat
  | .halted => 0 | .running => 1 | .double => 2 | .idle | .wfe => 3

/-- The link numbers that exist (R315). -/
def linkExists (l : Nat) : Bool := l < 18 || (32 ≤ l && l < 36)

/-- LKST of R372. -/
def linkWord (l : Nat) (k : Link) : Dword :=
  let up := k.on
  if !linkExists l then 0
  else BitVec.ofNat 64 (up.toNat * 2 ^ 63 + k.degraded.toNat * 2 ^ 62 + k.training.isSome.toNat * 2 ^ 61
    + (if 32 ≤ l then 1 else 0) * 2 ^ 56 + k.width * 2 ^ 48 + k.spares * 2 ^ 40 + k.retrains * 2 ^ 16 + k.replays)

/-- Launches of a die in a phase (R339). -/
def launchCount (s : State) (d : Nat) (f : LaunchPhase → Bool) : Nat := s.launches.countP fun l => l.2.die == d && f l.2.phase

def isRunningPhase : LaunchPhase → Bool | .running => true | _ => false
def isWaitingPhase : LaunchPhase → Bool | .waiting | .pinWait _ => true | _ => false
def isPreemptedPhase : LaunchPhase → Bool | .preempted => true | _ => false

/-- Tiles fused or retired on a die (R292). -/
def retiredCount (s : State) (d : Nat) : Nat :=
  (List.range 1024).countP fun t => Config.fused (1024 * d + t) || (s.tile (1024 * d + t)).retired

/-- The queue map dword of R339. -/
def queueDword (q : WorkQueue) : Dword :=
  BitVec.ofNat 64 (q.cap * 2 ^ 32 + q.die * 2 ^ 24 + q.ms.toNat * 2 ^ 17 + q.priv.toNat * 2 ^ 16)

/-- SECST of R312: indices remaining, secure boot passed, identity key present, attestation enabled. -/
def secst (s : State) : Dword :=
  let left := s.attest.left
  BitVec.ofNat 64 (min left (2 ^ 32 - 1) * 2 ^ 32 + s.secBoot.toNat * 4 + 2 + (decide (0 < left)).toNat)

/-- Eight bytes of a list as a dword. -/
def bytesDword (l : List Byte) (off : Nat) : Dword := BitVec.ofNat 64 (leNat ((l.drop off).take 8))

/-- The public identity key in the layout of R312: the OID of XMSS-SHAKE_20_256 (R402), most significant byte first, then root and
SEED. -/
def identityBytes : List Byte := [0, 0, 0, 9] ++ (List.range 64).map fun k => Config.identityKey.getD k 0

/-- A dword of the attestation mailbox (R403). -/
def mailDword (s : State) (off : Nat) : Dword :=
  let a := s.attest
  if off < 0x40 then bytesDword a.nonce off
  else if off = 0x48 then BitVec.ofNat 64 a.state
  else if 0x100 ≤ off && off < 0x200 then bytesDword a.report (off - 0x100)
  else if 0x200 ≤ off && off < 0x248 then bytesDword identityBytes (off - 0x200)
  else if 0x400 ≤ off then bytesDword a.sig (off - 0x400)
  else 0

/-- A dword of status space. What no block lists reads 0. -/
def statusDword (s : State) (d block off : Nat) : Dword :=
  match block with
  | 0 =>
    if 256 ≤ off then 0
    else
      let k := s.core (4 * d + off / 64)
      match off % 64 / 8 with
      | 0 => if coreState k.run = 1 || coreState k.run = 3 then 1 else 0
      | 1 => k.entry
      | 2 => BitVec.ofNat 64 (coreState k.run)
      | _ => 0
  | 1 => if off < 0x200 then (s.die d).frame.get 0 (off / 8) else if off = 0x200 then BitVec.ofNat 64 (s.die d).cur else 0
  | 2 =>
    if 16384 ≤ off then 0
    else
      let q := s.queue (off / 16)
      if off % 16 = 0 then queueDword q else BitVec.ofNat 64 q.base
  | 3 => if off < 32768 then s.ctxTable.get 0 (off / 8) else 0
  | 4 =>
    match off / 8 with
    | 0 => BitVec.ofNat 64 (launchCount s d isRunningPhase)
    | 1 => BitVec.ofNat 64 (launchCount s d isWaitingPhase)
    | 2 => BitVec.ofNat 64 (launchCount s d isPreemptedPhase)
    | 3 => BitVec.ofNat 64 (s.die d).preArea
    | 4 => BitVec.ofNat 64 (s.die d).preSize
    | _ => 0
  | 5 =>
    if off = 0 then s.devnum
    else if 0x1000 ≤ off && off < 0x1000 + 64 * 36 then
      let l := (off - 0x1000) / 64
      match off % 64 / 8 with
      | 0 => linkWord l (s.link l)
      | 1 => if linkExists l then (s.link l).ctl.setWidth 64 else 0
      | _ => 0
    else if 0x2000 ≤ off && off < 0x2400 then
      let w := s.windows.get {} ((off - 0x2000) / 16)
      if off % 16 = 0 then w.d0 else w.d1
    else if 0x3000 ≤ off && off < 0x4000 then
      let w := s.hostEp.get {} ((off - 0x3000) / 16)
      if off % 16 = 0 then w.d0 else w.d1
    else 0
  | 6 =>
    if 65536 ≤ off then 0
    else
      let e := s.imageDir.get {} (off / 16)
      if off % 16 = 0 then BitVec.ofNat 64 (e.v.toNat * 2 ^ 63 + e.rel.toNat * 2 ^ 62 + e.place) else BitVec.ofNat 64 e.len
  | 7 =>
    if 128 ≤ off then 0
    else
      let x := s.die (off / 32)
      match off % 32 / 8 with
      | 0 => BitVec.ofNat 64 x.ce
      | 1 => BitVec.ofNat 64 x.ue
      | 2 => BitVec.ofNat 64 x.retiredNow
      | _ => 0
  | 8 => if d = 0 && off < 262144 then
      BitVec.ofNat 64 (leNat ((List.range 8).map fun k => Config.romByte (off + k))) else 0
  | 9 => if off < 2 ^ 26 then BitVec.ofNat 64 (leNat ((List.range 8).map fun k => s.flash.get 0 (off + k))) else 0
  | 10 => mailDword s off
  | _ => 0

/-- A read of 4 or 8 bytes of a status place. -/
def statusRead (s : State) (p width : Nat) : Nat :=
  let off := StPlace.off p
  let d := statusDword s (StPlace.die p) (StPlace.block p) (off / 8 * 8)
  if width = 8 then d.toNat else (halfOf d off).toNat

/-- A core-control write of RUN (R299): 1 starts a core that does not run, at ENTRY in firmware mode; 0 halts it. -/
def runWrite (s : State) (c : Nat) (v : Dword) : State :=
  let k := s.core c
  if v = 1 then
    match k.run with
    | .halted | .double => s.setCore c { k with run := .running, pc := k.entry, pstat := k.pstat ||| 1, held := false, operands := [] }
    | _ => s
  else if v = 0 then s.setCore c { k with run := .halted, pend := none, busyTo := none, held := false }
  else s

/-- R299. A core-control write of RUN = 1 starts a core at its ENTRY in firmware mode, and RUN = 0 halts it. -/
def execCoreRunWrite (c : Nat) (v : Dword) (s : State) : Out := .next (runWrite s c v)

/-- GO of R403: with an index left, the counter in one-time storage is advanced and committed before the signature is computed
(R404); with none left the state is exhausted. -/
def attestGo (s : State) : State :=
  let a := s.attest
  if a.state = 1 then s
  else if a.left = 0 then { s with attest := { a with state := 3 } }
  else { s with attest := { a with state := 1, committed := some a.index, index := a.index + 1, left := a.left - 1 } }

/-- A link control write (R373). -/
def linkCtl (s : State) (l : Nat) (v : Dword) : State :=
  s.putLink l { s.link l with ctl := v.setWidth 32 &&& 0xFF03#32 }

/-- Bits that a register keeps of a written value (R3). -/
def keepBits (v mask : Nat) : Nat := (BitVec.ofNat 64 v &&& BitVec.ofNat 64 mask).toNat

/-- The bytes of a mailbox field with a dword replaced. -/
def putDword (l : List Byte) (len off : Nat) (v : Dword) : List Byte :=
  (List.range len).map fun k => if off ≤ k && k < off + 8 then BitVec.ofNat 8 (v.toNat / 2 ^ (8 * (k - off))) else l.getD k 0

/-- A write of a dword of status space by firmware; bits and places without a field ignore it (R3). -/
def statusStore (s : State) (d block off : Nat) (v : Dword) : State :=
  let n := v.toNat
  match block with
  | 0 =>
    if 256 ≤ off then s
    else
      let c := 4 * d + off / 64
      match off % 64 / 8 with
      | 0 => runWrite s c v
      | 1 => s.setCore c { s.core c with entry := v }
      | _ => s
  | 1 =>
    if off < 0x200 then
      let x := s.die d
      s.setDie d { x with frame := x.frame.put 0 (off / 8) (v &&& 0x800000000003FFFF#64) }
    else s
  | 2 =>
    if 16384 ≤ off then s
    else
      let k := off / 16
      let q := s.queue k
      if off % 16 = 0 then
        let cap := n / 2 ^ 32 % 65536
        let q := if cap = q.cap then q else { q with head := 0, len := 0, service := [], headAt := none }
        s.setQueue k { q with cap := cap, die := n / 2 ^ 24 % 4, ms := v.getLsbD 17, priv := v.getLsbD 16 }
      else s.setQueue k { q with base := n % 2 ^ 60 }
  | 3 => if off < 32768 then { s with ctxTable := s.ctxTable.put 0 (off / 8) (v &&& 0x800007FFFFFFFFFF#64) } else s
  | 4 =>
    let x := s.die d
    match off / 8 with
    | 3 => s.setDie d { x with preArea := n % 2 ^ 60 }
    | 4 => s.setDie d { x with preSize := n }
    | _ => s
  | 5 =>
    if off = 0 then { s with devnum := v &&& 0x10FFF#64 }
    else if 0x1000 ≤ off && off < 0x1000 + 64 * 36 then
      if off % 64 = 8 && linkExists ((off - 0x1000) / 64) then linkCtl s ((off - 0x1000) / 64) v else s
    else if 0x2000 ≤ off && off < 0x2400 then
      let k := (off - 0x2000) / 16
      let w := s.windows.get {} k
      { s with windows := s.windows.put {} k (if off % 16 = 0 then { w with d0 := v &&& 0xF0003F0000FFFFFF#64 }
        else { w with d1 := v &&& 0x0FFFFFFFFFFFFFFF#64 }) }
    else if 0x3000 ≤ off && off < 0x4000 then
      let k := (off - 0x3000) / 16
      let w := s.hostEp.get {} k
      { s with hostEp := s.hostEp.put {} k (if off % 16 = 0 then { w with d0 := v &&& 0xF000000003FF03FF#64 }
        else { w with d1 := v }) }
    else s
  | 6 =>
    if 65536 ≤ off then s
    else
      let k := off / 16
      let e := s.imageDir.get {} k
      { s with imageDir := s.imageDir.put {} k (if off % 16 = 0 then
        { e with v := v.getLsbD 63, rel := v.getLsbD 62, place := n % 2 ^ 60 } else { e with len := n }) }
  | 9 =>
    if off < 2 ^ 26 then
      { s with flash := (List.range 8).foldl (fun (m : Sparse Byte) k => m.put 0 (off + k) (BitVec.ofNat 8 (n / 2 ^ (8 * k)))) s.flash }
    else s
  | 10 =>
    if off < 0x40 then { s with attest := { s.attest with nonce := putDword s.attest.nonce 64 off v } }
    else if off = 0x40 && v = 1 then attestGo s
    else s
  | _ => s

/-- A store of 4 or 8 bytes: a word store replaces one half of the dword. -/
def statusWrite (s : State) (p width v : Nat) : State :=
  let off := StPlace.off p
  let d := StPlace.die p
  let b := StPlace.block p
  if width = 8 then statusStore s d b off (BitVec.ofNat 64 v)
  else
    let old := (statusDword s d b (off / 8 * 8)).toNat
    let new := if off % 8 = 0 then old / 2 ^ 32 * 2 ^ 32 + v % 2 ^ 32 else v % 2 ^ 32 * 2 ^ 32 + old % 2 ^ 32
    statusStore s d b (off / 8 * 8) (BitVec.ofNat 64 new)

/-- R297, R299, R364. A permitted write to a configuration or status place changes the field it names. -/
def execRegisterWrite (place : Nat) (v : Dword) (s : State) : Out :=
  .next <| match Place.space place with
    | 5 => (cfgStore s place 8 v.toNat).getD s
    | 6 => statusWrite s place 8 v.toNat
    | _ => s

end Sys2Proof.Machine
end

