-- ==== Sys2Proof/Machine/Commit.lean ====
section
/-! DEFINITION. Machine/Commit: tile blocks and the statuses of R328, pinned ranges (R191), the commit wave (R332), and what a
committed plane's units are (R298, R328). -/

namespace Sys2Proof.Machine

/-! ### CRC32C (R311) -/

/-- One bit, eight times. -/
def crcBits : Nat → Word → Word
  | 0, c => c
  | n + 1, c => crcBits n (if c.getLsbD 0 then c >>> 1 ^^^ 0x82F63B78 else c >>> 1)

def crcByte (c : Word) (b : Byte) : Word := crcBits 8 (c ^^^ b.setWidth 32)

/-- CRC32C of bytes in memory order, seeded and inverted (R328). -/
def crc32c (bs : List Byte) : Word := ~~~(bs.foldl crcByte 0xFFFFFFFF)

/-! ### Items of a tile block (R328) -/

/-- An item: its unit, its offset and its data. -/
structure Item where
  unit : Nat
  off  : Nat
  data : List Dword
  deriving DecidableEq, Repr

/-- The items of a block body; none where one runs past the block or sets a zero bit. -/
def parseItems : Nat → List Dword → Option (List Item)
  | _, [] => some []
  | 0, _ => none
  | n + 1, d :: rest =>
    let x := d.toNat
    let len := x % 2 ^ 16
    if x / 2 ^ 48 % 2 ^ 11 ≠ 0 || x / 2 ^ 16 % 2 ^ 16 ≠ 0 || rest.length < len then none
    else (parseItems n (rest.drop len)).map (⟨x / 2 ^ 59, x / 2 ^ 32 % 2 ^ 16, rest.take len⟩ :: ·)

/-- The bytes that a block may write of a unit's window. -/
def blockWindow (unit : Nat) : Nat :=
  if unit < 16 then 0x280
  else match unit with
    | 19 | 21 => 8 | 20 => 0x408 | 24 => 0x28 | 25 => 0xC000 | u => windowSize u

/-- The bits of a dword of an island or streamer record that a block may set (R328). -/
def recordMask (unit off : Nat) : Nat :=
  if unit = 24 then if off = 0 || off = 0x20 then 2 ^ 32 - 1 else 2 ^ 64 - 1
  else if off < 0x1000 || 0x8000 ≤ off then 2 ^ 64 - 1
  else if off < 0x1100 then 2 ^ 63 + 0x1FF * 2 ^ 36
  else if off < 0x2000 then 0
  else if off = 0x2000 then 2 ^ 63 + 0xFFFF * 2 ^ 32 + 0xFFF * 2 ^ 16 + 0x1FFF
  else if off < 0x2208 then 2 ^ 63 + 3 * 2 ^ 56
  else if 0x4000 ≤ off && off < 0x6000 then 0x0FFF0FFF0FFF0FFF
  else 0

def outside (v : Dword) (mask : Nat) : Bool := v &&& ~~~(BitVec.ofNat 64 mask) != 0

/-- A route entry that R329 allows at a tile, but for its chain. -/
def routeOk (tile idx : Nat) (w : Word) : Bool :=
  !Route.v w || (Route.slots w != 0 && Route.kind w < 9 && Route.inPackage tile w && !(72 ≤ idx && idx < 80))

/-- A dword of a streamer record declares a bucket, whose wire code 3 is reserved (R328). -/
def isBucket (off : Nat) : Bool := 0x2008 ≤ off && off < 0x2208

/-- One item is well formed at a tile; the zero fields of a range word and of a partial slot (R298) are zero. -/
def itemOk (tile : Nat) (it : Item) : Bool :=
  let ds := it.data.zipIdx
  it.unit < 26 && it.off % 8 == 0 && it.off + 8 * it.data.length ≤ blockWindow it.unit
    && (it.unit != 24 || (Key.engineAt (4 * tile) false).isSome) && (it.unit != 25 || (Key.engineAt (4 * tile) true).isSome)
    && (it.unit < 24 || ds.all fun d => !outside d.1 (recordMask it.unit (it.off + 8 * d.2)))
    && (it.unit != 25 || ds.all fun d => !isBucket (it.off + 8 * d.2) || d.1.toNat / 2 ^ 56 % 4 != 3)
    && (it.unit != 16 || ds.all fun d => (it.off + 8 * d.2) % 32 < 16 || d.1 == 0)
    && (it.unit != 21 || ds.all fun d => !outside d.1 0xFC0003FF)
    && (it.unit != 22 || ds.all fun d =>
      routeOk tile (it.off / 4 + 2 * d.2) (halfOf d.1 0) && routeOk tile (it.off / 4 + 2 * d.2 + 1) (halfOf d.1 4))

/-- Where a chain of extension entries from entry k ends; none where it runs out of entries (R329). -/
def extEnd (routes : Sparse Word) : Nat → Nat → Option Nat
  | 0, _ => none
  | n + 1, k => if Route.mc (routes.get 0 k) then extEnd routes n (k + 1) else some (k + 1)

/-- Every chain finds the extension entries that it needs. -/
def chainsOk (routes : Sparse Word) : Bool :=
  ((List.range 80).foldl (fun (acc : Option Nat) i => acc.bind fun k =>
    let w := routes.get 0 i
    if Route.v w && Route.mc w then extEnd routes (128 - k) k else some k) (some 80)).isSome

/-! ### A plane's shadow -/

/-- Data dwords written to a shadow at an offset upward. -/
def putItem (m : Sparse Dword) (it : Item) : Sparse Dword :=
  it.data.zipIdx.foldl (fun m d => m.put 0 (it.unit * 8192 + it.off / 8 + d.2) d.1) m

/-- The route entries of a shadow. -/
def shadowRoutes (m : Sparse Dword) : Sparse Word :=
  m.foldl (fun (r : Sparse Word) p =>
    if p.1 / 8192 = 22 then
      let i := p.1 % 8192 * 2
      (r.put 0 i (halfOf p.2 0)).put 0 (i + 1) (halfOf p.2 4)
    else r) []

/-- A course that has not drained holds the plane, or its region is frozen (R328). -/
def planeBusy (s : State) (pk : Nat) : Bool :=
  let p := s.plane pk
  (p.occupied && !p.drn) || (match s.regionOf pk with | some r => (s.region r).frozen | none => false)

/-- The status of a block at a tile, and its items (R328): the first of the table that applies. -/
def blockStatus (s : State) (pk : Nat) (header : Dword) (body : List Dword) : Nat × List Item :=
  let tile := pk / 4
  if crc32c (dwordBytes body) ≠ header.setWidth 32 then (1, [])
  else if Config.fused tile || (s.tile tile).retired then (2, [])
  else if planeBusy s pk then (3, [])
  else match parseItems body.length body with
    | some items =>
      if items.all (itemOk tile) && chainsOk (shadowRoutes (items.foldl putItem [])) then (0, items) else (4, [])
    | none => (4, [])

/-- A whole block has arrived at a tile: the status, and the shadow that it leaves valid or invalid. -/
def takeBlock (s : State) (pk : Nat) (header : Dword) (body : List Dword) : State :=
  let (st, items) := blockStatus s pk header body
  let sched := (items.filter (·.unit == 20)).foldl (fun n it => if it.off < 0x400 then max n (it.off / 8 + it.data.length) else n) 0
  s.setPlane pk { s.plane pk with
    shadow := items.foldl putItem [], rx := [], schedLen := min sched 128, status := st, acked := true, valid := st == 0
    binds := (items.any (·.unit == 24), items.any (·.unit == 25)) }

/-- The next dword of a block for a tile's configuration port (R309, R328): a header clears the shadow (R358), and the last body
dword has the block checked. -/
def portWrite (s : State) (pk : Nat) (d : Dword) : State :=
  let p := s.plane pk
  let rx := p.rx ++ [d]
  let n := (rx.headD 0).toNat / 2 ^ 32 % 2 ^ 16
  let s := s.setPlane pk (if p.rx.isEmpty then
    { p with rx := rx, shadow := [], schedLen := 0, binds := (false, false), status := 0, acked := false, valid := false } else { p with rx := rx })
  if rx.length = n + 1 then takeBlock s pk (rx.headD 0) rx.tail else s

/-! ### The units of a committed plane -/

namespace Shadow

def dw (m : Sparse Dword) (unit off : Nat) : Dword := m.get 0 (unit * 8192 + off / 8)
def word (m : Sparse Dword) (unit off : Nat) : Word := halfOf (dw m unit off) off
/-- n dwords from an offset. -/
def dws (m : Sparse Dword) (unit off n : Nat) : List Dword := (List.range n).map fun k => dw m unit (off + 8 * k)

/-- n words by index. -/
def words (m : Sparse Dword) (unit off n : Nat) : Sparse Word :=
  (List.range n).foldl (fun (r : Sparse Word) k => r.put 0 k (word m unit (off + 4 * k))) []

/-- An element as its window configures it (R298); the conflict matrix is the derived one with the image's additions (R83). At course load
FFLG is 0, CPTR 0, HALT clear and SLOTST 0 but for CLASS (R54, R72). -/
def elem (m : Sparse Dword) (e : Nat) : Elem :=
  let slots := (List.range 16).foldl (fun (r : Sparse Dword) k => r.put 0 k (dw m e (0x200 + 8 * k))) []
  let add (k : Nat) : BitVec 16 := (word m e (0xC0 + 4 * (k / 2))).extractLsb' (16 * (k % 2)) 16
  let el : Elem := { slots := slots }
  { el with
    d := words m e 0 16
    p := (word m e 0x40).setWidth 8
    fctl := word m e 0x44, ecfg := word m e 0x4C
    st := (List.range 16).foldl (fun (r : Sparse SlotSt) k =>
      r.put {} k { cls := (word m e (0x80 + 4 * k)).toNat / 2 ^ 30 }) []
    ls := words m e 0x100 64
    conflict := (List.range 16).foldl (fun (r : Sparse (BitVec 16)) k => r.put 0 k (deriveConflicts el.rule k ||| add k)) [] }

/-- A partial slot from its window (R150, R298). -/
def pslot (m : Sparse Dword) (k : Nat) : PSlot :=
  pslotOf (dw m 16 (32 * k)) (word m 16 (32 * k + 8)) (word m 16 (32 * k + 12))

def ag (m : Sparse Dword) (k : Nat) : Ag :=
  let l := dws m (17 + k) 0 8
  if l.all (· == 0) then {} else { bound := true, spb := l }

/-- The schedule table: the words that the block wrote, less a last word of zero (log 19). The cursor is 0 at course load (R197). -/
def sched (m : Sparse Dword) (len : Nat) : SchedNode :=
  let top := m.foldl (fun n p => if p.1 / 8192 = 20 && p.1 % 8192 < 128 then max n (p.1 % 8192 + 1) else n) len
  let ws := (List.range (2 * top)).map fun k => word m 20 (4 * k)
  { table := if ws.getLastD 1 = 0 then ws.dropLast else ws }

/-- A tile keystone from its range word (R298). -/
def keystone (m : Sparse Dword) : Keystone :=
  let w := word m 21 0
  if w.getLsbD 31 then
    { mapped := true, bar := w.getLsbD 30, ss := w.getLsbD 29, rm := w.toNat / 2 ^ 26 % 8, words := w.toNat % 1024 + 1 }
  else {}

def island (m : Sparse Dword) : Island :=
  { bound := true, setup := word m 24 0, spillVa := (dw m 24 8).toNat, spillN := (dw m 24 0x10).toNat, ckpt := (dw m 24 0x18).toNat
    homeAt := word m 24 0x20 }

/-- Bucket declarations of a streamer record. -/
def buckets (m : Sparse Dword) : Sparse (Option BuckDecl) :=
  (List.range 64).foldl (fun (r : Sparse (Option BuckDecl)) b =>
    let h := dw m 25 (0x2008 + 8 * b)
    let spb (k : Nat) : List Dword := dws m 25 (0x8000 + 256 * b + 64 * k) 8
    r.put none b (if h.getLsbD 63 then some ⟨h.toNat / 2 ^ 56 % 4, spb 0, spb 1, spb 2, spb 3⟩ else none)) []

/-- A streamer from its record; the islands of its ring stand in the same plane (R277). -/
def streamer (m : Sparse Dword) (plane : Nat) : Streamer :=
  let h := dw m 25 0x2000
  let p := h.toNat % 2 ^ 13
  { bound := true
    spbs := (List.range 512).foldl (fun (r : Sparse Dword) k => r.put 0 k (dw m 25 (8 * k))) []
    ringTo := (dws m 25 0x1000 32).filterMap fun d =>
      if d.getLsbD 63 then
        some (Key.engine (d.toNat / 2 ^ 43 % 4) (d.toNat / 2 ^ 41 % 4) (d.toNat / 2 ^ 36 % 32) plane)
      else none
    coll := if h.getLsbD 63 then some (h.toNat / 2 ^ 32 % 65536, h.toNat / 2 ^ 16 % 4096, p) else none
    peers := if h.getLsbD 63 then
        (List.range p).map fun r => (dw m 25 (0x4000 + 2 * r / 8 * 8)).toNat / 2 ^ (16 * (r % 4)) % 4096
      else []
    bucks := buckets m }

end Shadow

/-- Granule metadata that a tile block holds (R181, R298). -/
def swapMeta (s : State) (tile : Nat) (m : Sparse Dword) : State :=
  (m.filter fun d => d.1 / 8192 == 23 && 128 ≤ d.1 % 8192).foldl (fun s d =>
    let g := (d.1 % 8192 - 128) * 32
    writeMeta (writeMeta s tile g (halfOf d.2 0)) tile (g + 16) (halfOf d.2 4)) s

/-- The swap of a tile (R332): its shadow becomes the committed plane, with the granule metadata that it holds. -/
def swapTile (s : State) (pk : Nat) : State :=
  let p := s.plane pk
  let m := p.shadow
  let s := swapMeta s (pk / 4) m
  let es := List.range 16
  let s := es.foldl (fun s e => s.setElem (pk * 16 + e) (Shadow.elem m e)) s
  let s := (List.range 64).foldl (fun s k => s.setPslot (pk * 64 + k) (Shadow.pslot m k)) s
  let s := [0, 1].foldl (fun s k => s.setAg (pk * 2 + k) (Shadow.ag m k)) s
  let routes := Shadow.words m 22 0 128
  let s := s.setRep pk { bound := Route.v (routes.get 0 66) }
  let s := s.setSched pk { Shadow.sched m p.schedLen with bound := Route.v (routes.get 0 67) }
  let s := if (Shadow.word m 21 0).getLsbD 31 then s.setKstone pk (Shadow.keystone m) else s
  let s := match Key.engineAt pk false with
    | some i => if p.binds.1 then s.setIsland i (Shadow.island m) else s
    | none => s
  let s := match Key.engineAt pk true with
    | some i => if p.binds.2 then s.setStreamer i (Shadow.streamer m (pk % 4)) else s
    | none => s
  s.setPlane pk { p with
    routes := routes, mask := (Shadow.word m 23 0).toNat % 65536, occupied := true, drn := false, drainCut := none
    shadow := [], rx := [], schedLen := 0, binds := (false, false), valid := false }

/-! ### Pinned ranges (R188, R191) -/

/-- Why a pin fails. -/
inductive PinErr where
  | notPresent (va : Nat)
  | malformed (lv va : Nat)
  | migrating
  | perm
  | space
  | ranges
  | ecc (place : Nat)
  deriving DecidableEq, Repr

/-- A range with the permissions of its pages. -/
structure PinRun where
  pin  : Pin
  perm : Bool × Bool × Bool
  deriving DecidableEq, Repr

/-- A page joins the last range when it continues its place with equal permissions. -/
def joinPin (rs : List PinRun) (r : PinRun) : List PinRun :=
  match rs with
  | x :: rest =>
    if x.pin.place + x.pin.len = r.pin.place && x.perm = r.perm then { x with pin := { x.pin with len := x.pin.len + r.pin.len } } :: rest
    else r :: x :: rest
  | [] => [r]

/-- The pages of [va, hi], by leaves; `ok` says which places are valid. -/
def pinWalk (s : State) (ctx : Nat) (r w : Bool) (ok : Nat → Bool) : Nat → Nat → Nat → List PinRun → Except PinErr (List PinRun)
  | 0, _, _, acc => .ok acc
  | n + 1, va, hi, acc =>
    if hi < va then .ok acc
    else match walk s va ctx with
      | .notPresent _ => .error (.notPresent va)
      | .malformed lv => .error (.malformed lv va)
      | .ecc _ p => .error (.ecc p)
      | .leaf lv d =>
        let page := 2 ^ pageBits lv
        let len := min (page - va % page) (hi + 1 - va)
        let p := leafPlace lv d va
        if (r && !leafR d) || (w && !leafW d) then .error .perm
        else if leafM d then .error .migrating
        else if !ok p || !ok (p + len - 1) then .error .space
        else pinWalk s ctx r w ok n (va + len) hi (joinPin acc ⟨⟨va, len, p⟩, (leafR d, leafW d, leafA d)⟩)

/-- A place that a stream of an AG or a streamer may reach; another device's once DEVNUM is valid (R184, R364). -/
def streamPlaceOk (s : State) (top p : Nat) : Bool :=
  Place.space p < top && if isOwn s p then placeValid s p else s.devnum.getLsbD 16

/-- The ranges of an extent. -/
def pinExtent (s : State) (ctx : Nat) (r w : Bool) (ok : Nat → Bool) (lo hi : Nat) : Except PinErr (List Pin) :=
  (pinWalk s ctx r w ok ((hi - lo) / 65536 + 2) lo hi []).map fun rs => (rs.reverse).map (·.pin)

/-- The lowest and highest byte of an affine stream (R190). -/
def spbExtent (l : List Dword) : Int × Int :=
  let part (k : Nat) : Int := ((Spb.count l k : Int) - 1) * Spb.stride l k
  let lo := [0, 1, 2, 3].foldl (fun (a : Int) k => a + min 0 (part k)) (Spb.base l)
  let hi := [0, 1, 2, 3].foldl (fun (a : Int) k => a + max 0 (part k)) (Spb.base l)
  (lo, hi + Spb.esize l - 1)

/-- The pins of an SPB that is not indexed (R191): at most 16 ranges. -/
def pinSpb (s : State) (ctx : Nat) (r w : Bool) (top : Nat) (l : List Dword) : Except PinErr (List Pin) :=
  if Spb.indexed l || Spb.total l = 0 then .ok []
  else
    let (lo, hi) := spbExtent l
    if lo < 0 || 2 ^ 56 ≤ hi then .error .space
    else match pinExtent s ctx r w (streamPlaceOk s top) lo.toNat hi.toNat with
      | .ok ps => if 16 < ps.length then .error .ranges else .ok ps
      | e => e

/-- The pins that a direction needs: R for a load, W for a store. -/
def pinStream (s : State) (ctx top : Nat) (l : List Dword) : Except PinErr (List Pin) :=
  pinSpb s ctx (!Spb.store l) (Spb.store l) top l

/-- The pins of a spill area: vault places of the island's own die with R and W (R263). -/
def pinSpill (s : State) (ctx i : Nat) (isl : Island) : Except PinErr (List Pin) :=
  if isl.spillN = 0 then .ok []
  else if 2 ^ 56 < isl.spillVa + isl.spillN * 65600 then .error .space
  else pinExtent s ctx true true
    (fun p => isOwn s p && Place.space p == 1 && Place.die p == Key.engineDie i && placeValid s p)
    isl.spillVa (isl.spillVa + isl.spillN * 65600 - 1)

/-- Pins, or none where there is no translation. -/
def pinsOr (r : Except PinErr (List Pin)) : List Pin := match r with | .ok ps => ps | .error _ => []

/-! ### The channels of a course (R142, R329) -/

/-- The units of a tile that its configuration names, by place and first primary index (R30, R329). -/
def unitsAt (s : State) (pk : Nat) : List UnitRef :=
  let elems := (List.range 16).filterMap fun e => if s.elem (pk * 16 + e) ≠ {} then some (UnitRef.elem (pk * 16 + e)) else none
  let ags := [0, 1].filterMap fun k => if (s.ag (pk * 2 + k)).bound then some (UnitRef.ag (pk * 2 + k)) else none
  let rep := if (s.rep pk).bound then [UnitRef.repeatNode pk] else []
  let sch := if (s.sched pk).bound then [UnitRef.schedNode pk] else []
  let isl := match Key.engineAt pk false with
    | some i => if (s.island i).bound then [UnitRef.island i] else []
    | none => []
  let str := match Key.engineAt pk true with
    | some i => if (s.streamer i).bound then [UnitRef.streamer i] else []
    | none => []
  let ks := if (s.kstone pk).mapped then [UnitRef.keystone pk] else []
  let (e0, es) := elems.partition (· == .elem (pk * 16))
  e0 ++ ags ++ rep ++ sch ++ isl ++ str ++ es ++ ks

/-- The channels of a unit by output. -/
def unitChans (u : UnitRef) : List Nat :=
  match u with
  | .elem _ => (List.range 4).map u.outChan
  | .island _ | .streamer _ => [u.outChan 0, u.outChan 1]
  | .keystone _ => []
  | _ => [u.outChan 0]

/-- The markerless inputs of R142: order inputs, and what the schedule-table node feeds. -/
def markerlessInputs (s : State) (us : List UnitRef) : List (UnitRef × Nat) :=
  us.flatMap fun u => match u with
    | .elem e => (s.elem e).targets.filterMap fun t => t.2.orderIn.map fun k => (UnitRef.elem e, k)
    | .ag a => match (s.ag a).orderTo with | some p => [(.elem (p / 4), p % 4)] | none => []
    | .schedNode _ => chanDests s (u.outChan 0)
    | _ => []

/-- Every channel of a course: the routes, the seed ports and the order channels. -/
def courseChans (s : State) (rk : Nat) (us : List UnitRef) : List Nat :=
  us.flatMap unitChans ++ (s.region rk).seedPorts.keys.map (seedChan rk)
    ++ us.flatMap fun u => match u with
      | .elem e => (s.elem e).targets.filterMap fun t => t.2.orderIn.map fun _ => orderChan e t.1
      | .ag a => if (s.ag a).orderTo.isSome then [agOrderChan a] else []
      | _ => []

/-- Inputs with a bit each. -/
def portBits (l : List (UnitRef × Nat)) (u : UnitRef) : Nat :=
  (l.filter (·.1 == u)).foldl (fun m x => m ||| 2 ^ x.2) 0

/-- The depth-first walk of R142 from a unit: units visited, and the inputs whose channel leads to a unit on the path. -/
def depthFirst (next : UnitRef → List (UnitRef × Nat)) :
    Nat → List UnitRef → List UnitRef × List (UnitRef × Nat) → UnitRef → List UnitRef × List (UnitRef × Nat)
  | 0, _, acc, _ => acc
  | n + 1, path, acc, u =>
    if acc.1.contains u then acc
    else (next u).foldl (fun acc v =>
      if (u :: path).contains v.1 then (acc.1, v :: acc.2) else depthFirst next n (u :: path) acc v.1) (u :: acc.1, acc.2)

/-- The back inputs of a course (R142). The units of a die stand in ascending place order, and so the walk takes them die by die (R30). -/
def backInputs (s : State) (rk : Nat) (us : List UnitRef) (markerless : List (UnitRef × Nat)) : List (UnitRef × Nat) :=
  let next (u : UnitRef) : List (UnitRef × Nat) :=
    match u with
    | .schedNode _ => []
    | u => ((unitChans u).flatMap (chanDests s)).filter fun d => !markerless.contains d
  let seeds := (s.region rk).seedPorts.keys.flatMap fun p => (chanDests s (seedChan rk p)).map (·.1)
  let sources := us.filter (markerSource s)
  let starts := seeds ++ (List.range 4).flatMap fun die => sources.filter (·.die == die)
  (starts.foldl (depthFirst next (us.length + 1) []) ([], [])).2

/-- The inputs of every unit: the channels that feed them, and their kind. A repeat node emits its MARKER when the request reaches
it, so its inputs count as back inputs (R343, log 20). -/
def wireChannels (s : State) (rk : Nat) : State :=
  let us := (s.region rk).units
  let feeds := (courseChans s rk us).flatMap fun ch => (chanDests s ch).map fun d => (d, ch)
  let setFeed (s : State) (u : UnitRef) : State :=
    let mine := feeds.filter fun f => f.1.1 == u
    s.setIo u { s.io u with
      feed := mine.foldl (fun (m : Sparse (List Nat)) f => m.put [] f.1.2 (m.get [] f.1.2 ++ [f.2])) [] }
  let s := us.foldl setFeed s
  let ml := markerlessInputs s us
  let s := us.foldl (fun s u => s.setIo u { s.io u with markerless := portBits ml u }) s
  let back := backInputs s rk us ml
  us.foldl (fun s u => match u with
    | .repeatNode _ => s.setIo u { s.io u with back := 3 }
    | u => s.setIo u { s.io u with back := portBits back u }) s

/-! ### What an image declares outside its words (log 9) -/

/-- Image coordinates placed in the region (R330). -/
def Region.place (r : Region) (a b : Nat) : Nat := Key.tileAt (r.rmap.getD a 0) (r.cmap.getD b 0)
def Region.placePk (r : Region) (t : Nat × Nat) : Nat := r.place t.1 t.2 * 4 + r.plane
def Region.placeElem (r : Region) (e : Nat × Nat × Nat) : Nat := r.placePk (e.1, e.2.1) * 16 + e.2.2

/-- A contributor's key: an element, or the island at its tile. -/
def Region.contrib (r : Region) (c : Bool × (Nat × Nat × Nat)) : Bool × Nat :=
  if c.1 then (true, (Key.engineAt (r.placePk (c.2.1, c.2.2.1)) false).getD 0) else (false, r.placeElem c.2)

/-- The partial slot of a contributor: the one its tile's window names, else the first that no register uses. -/
def slotFor2 (s : State) (pk m c : Nat) (used : List Nat) : Nat :=
  let named := (List.range 64).find? fun k =>
    let p := s.pslot (pk * 64 + k)
    (p != {}) && p.mreg == m && p.cidx == c && !used.contains (pk * 64 + k)
  match named with
  | some k => pk * 64 + k
  | none => pk * 64 + ((List.range 64).find? fun k => !used.contains (pk * 64 + k) && s.pslot (pk * 64 + k) == {}).getD 63

/-- The record of an island binds it to a declared register (R242, R328): CEN is set, MREG is the register's number, and the record names
the place of its home element, by its tile of the package or of the image (DESIGN CHOICE, log 102). -/
def bindsTo (r : Region) (isl : Island) (d : MregDecl) : Bool :=
  let w := isl.setup.toNat
  w / 2 ^ 7 % 2 == 1 && w / 2 ^ 22 % 64 == d.m
    && (isl.homeAt == elemPlace (r.placeElem d.home) || isl.homeAt == Key.place (Key.tileAt d.home.1 d.home.2.1) d.home.2.2)

/-- One combining register: its home record, its slots, and the islands that their records bind to it (R146, R149, R150, R328). -/
def wireMreg (rk : Nat) (s : State) (d : MregDecl) : State :=
  let r := s.region rk
  let home := r.placeElem d.home
  let hk := Key.pkOfElem home * 64 + d.m
  let cs := d.contribs.map r.contrib
  let pkOf (c : Bool × Nat) : Nat := if c.1 then Key.enginePk c.2 else Key.pkOfElem c.2
  let taken := s.homes.flatMap fun h => h.2.slotKeys
  let slots := cs.zipIdx.foldl (fun (acc : List Nat) c => acc ++ [slotFor2 s (pkOf c.1) d.m c.2 (taken ++ acc)]) []
  let s := slots.zipIdx.foldl (fun s k => s.setPslot k.1 { s.pslot k.1 with mreg := d.m, cidx := k.2 }) s
  let s := s.setHome hk { decl := ⟨d.opc, d.ty, d.rm, home, cs, d.resettable⟩, slotKeys := slots }
  let s := cs.zipIdx.foldl (fun s c =>
    if c.1.1 && bindsTo r (s.island c.1.2) d then s.setIsland c.1.2 { s.island c.1.2 with mregSlot := some (hk, c.2) } else s) s
  s.setRegion rk { s.region rk with mregs := (s.region rk).mregs.put 0 d.m hk }

/-- The keystone that a target names: a tile keystone of the region, or the device keystone behind a virtual address, at the place that
the load of the course found (R201). A range counts each request port once (R215); the range word of a keystone on another device
comes from there (R298, log 78). -/
def wireTarget (rk ctx : Nat) (s : State) (d : TargetDecl) : State :=
  let r := s.region rk
  let e := r.placeElem d.elem
  let put (t : KsTarget) : State := s.modElem e fun el => { el with targets := el.targets.insert d.k t }
  match d.tile with
  | some t =>
    let pk := r.placePk t
    put { range := pk, words := (s.kstone pk).words, bar := (s.kstone pk).bar, orderIn := d.orderIn, orderSlots := d.slots }
  | none =>
    let found := match r.pinnedKs.find? (·.1 == 4 * e + d.k) with
      | some (_, p) => some p
      | none => match walk s d.va ctx with
        | .leaf lv x => some (leafPlace lv x d.va)
        | _ => none
    match found with
    | none => s
    | some p =>
      let ks := 16384 + Place.tile p
      if isOwn s p then
        let k := s.kstone ks
        let more := (s.elem e).targets.any fun t => t.2.device.isNone && t.2.range == ks
        (put { range := ks, words := k.words, bar := k.bar, place := p, orderIn := d.orderIn, orderSlots := d.slots }).setKstone ks
          { k with bound := if more then k.bound else k.bound + 1 }
      else
        let w := Config.remoteRange p
        put { range := ks, words := if w.getLsbD 31 then w.toNat % 1024 + 1 else 0, bar := w.getLsbD 30
              device := some (Place.device p), place := p, orderIn := d.orderIn, orderSlots := d.slots }

/-- Initial words and the bank of a tile keystone (R199). -/
def wireKeystone (rk : Nat) (s : State) (d : KeystoneDecl) : State :=
  let pk := (s.region rk).placePk d.tile
  let s := s.setKstone pk { s.kstone pk with bank := d.bank }
  (List.range (s.kstone pk).words).foldl (fun s k => s.setKeystoneWord pk k (d.init.getD k 0)) s

/-- Preloaded granules of a bank: their bytes, and Full (R181). -/
def wirePreload (rk : Nat) (s : State) (d : (Nat × Nat) × Nat × List Byte) : State :=
  let tile := (s.region rk).place d.1.1 d.1.2
  let p := Place.ofTile tile d.2.1
  let s := s.setBytes p d.2.2
  (List.range ((d.2.2.length + 15) / 16)).foldl (fun s g => s.setGmeta (p + 16 * g) 1) s

/-- Everything that the course's units need beyond their windows: registers, targets, keystones, banks, orders, pins and
channels. The pins are those that the load of a launch's course has taken (R191). -/
def wireCourse (s : State) (rk ctx : Nat) (x : CourseAnnex) : State :=
  let r := s.region rk
  let s := x.keystones.foldl (wireKeystone rk) s
  let s := x.targets.foldl (wireTarget rk ctx) s
  let s := x.mregs.foldl (wireMreg rk) s
  let s := x.repBanks.foldl (fun s b => s.setRep (r.placePk b.1) { s.rep (r.placePk b.1) with bank := b.2 }) s
  let s := x.hands.foldl (fun s h => match h.2.2 with
    | some c => s.setPlane (r.placePk h.1) { s.plane (r.placePk h.1) with hands := (s.plane (r.placePk h.1)).hands ++ [(h.2.1, c)] }
    | none => s) s
  let s := x.preloads.foldl (wirePreload rk) s
  let s := x.orders.foldl (fun s o =>
    let a := r.placePk o.1 * 2 + o.2.1
    s.setAg a { s.ag a with orderTo := some ((r.placePk o.1 * 16 + o.2.2.1) * 4 + o.2.2.2.1), orderSlots := o.2.2.2.2 }) s
  let us := r.pks.flatMap (unitsAt s)
  let taken (u : UnitRef) (k : Nat) (now : List Pin) : List Pin := match r.pinned.find? (·.1 == u) with
    | some (_, m) => m.get [] k
    | none => now
  let s := s.setRegion rk { s.region rk with units := us }
  let s := us.foldl (fun s u => match u with
    | .ag a => s.setAg a { s.ag a with ctx := ctx, pins := taken u 0 (pinsOr (pinStream s ctx 3 (s.ag a).spb)) }
    | .schedNode pk =>
      match chanDests s (u.outChan 0) with
      | (.elem e, k) :: _ => s.setSched pk { s.sched pk with feeds := e, port := k }
      | _ => s
    | .island i =>
      s.setIsland i { s.island i with
        spillPins := taken u 0 (pinsOr (pinSpill s ctx i (s.island i)))
        ringFed := us.any fun v => match v with | .streamer st => (s.streamer st).ringTo.contains i | _ => false }
    | .streamer i =>
      let t := s.streamer i
      let pins := (List.range 64).foldl (fun (m : Sparse (List Pin)) k => m.put [] k (taken u k (pinsOr (pinStream s ctx 4 (t.spb k))))) []
      let pins := t.bucks.foldl (fun (m : Sparse (List Pin)) b => match b.2 with
        | some d => [d.src, d.dst, d.scale, d.errmem].zipIdx.foldl (fun (m : Sparse (List Pin)) l =>
            m.put [] (64 + 4 * b.1 + l.2)
              (taken u (64 + 4 * b.1 + l.2) (pinsOr (if l.2 < 2 then pinStream s ctx 4 l.1 else pinSpb s ctx true true 4 l.1)))) m
        | none => m) pins
      s.setStreamer i { t with ctx := ctx, pins := pins }
    | _ => s) s
  wireChannels s rk

/-! ### The commit wave (R332) -/

/-- Every valid route entry of a shadow leads into the region. -/
def routesInside (r : Region) (pk : Nat) (m : Sparse Dword) : Bool :=
  (shadowRoutes m).all fun e =>
    !Route.v e.2 || (let (a, b) := Route.target (pk / 4) e.2
      (r.prow : Int) ≤ a && a < r.prow + r.h && (r.pcol : Int) ≤ b && b < r.pcol + r.w)

/-- The tiles of a region that are not fused or retired (R359). -/
def Region.livePks (s : State) (r : Region) : List Nat :=
  r.pks.filter fun pk => !Config.fused (pk / 4) && !(s.tile (pk / 4)).retired

/-- The check before the wave (R332): a tile whose routes leave the region loses its shadow and shows status 4. -/
def commitCheck (s : State) (r : Region) : State × Bool :=
  let pks := r.livePks s
  let bad := pks.filter fun pk => (s.plane pk).valid && !routesInside r pk (s.plane pk).shadow
  let ok := bad.isEmpty && pks.all fun pk => (s.plane pk).valid
  (bad.foldl (fun s pk => s.setPlane pk { s.plane pk with status := 4, valid := false, shadow := [] }) s, ok)

/-- The annex of a region's course (log 9). -/
def annexOf (s : State) (r : Region) : CourseAnnex :=
  match r.launch with
  | some l => s.annex.get {} ((s.launch l).handle * 65536 + r.course)
  | none => {}

/-- The wave has reached every tile: the course's units are complete, cut 0 is its initial state, and it may fire from the next
round on. A course of no launch starts its AGs at once (log 21). -/
def commitEnd (s : State) (rk : Nat) : State :=
  let r := s.region rk
  let ctx := match r.launch with | some l => (s.launch l).ctx | none => 0
  let s := s.setRegion rk { r with commitHop := none, waveHop := r.launch.map fun _ => 0 }
  let s := wireCourse s rk ctx (annexOf s r)
  let s := if r.launch.isNone then
      (s.region rk).units.foldl (fun s u => match u with | .ag a => s.setAg a { s.ag a with started := true } | _ => s) s
    else s
  let s := saveAll s rk 0
  s.setRegion rk { s.region rk with running := true, lastStart := s.round, progress := s.round, moved := s.round }

/-- R332. The commit wave reaches the tiles of its next hop, which swap their shadows; after the last hop the course runs. -/
def execCommitWaveHop (rk : Nat) (s : State) : Out :=
  let r := s.region rk
  .next <| match r.commitHop with
    | none => s
    | some h =>
      let s := (r.livePks s).foldl (fun s pk => if r.hops (pk / 4) = h then swapTile s pk else s) s
      if r.lastHop ≤ h then commitEnd s rk else s.setRegion rk { r with commitHop := some (h + 1) }

end Sys2Proof.Machine
end

