-- ==== Sys2Proof/Machine/Preempt.lean ====
section
/-! DEFINITION. Machine/Preempt: FREEZE and THAW (R346, R347), READOUT and RESTORE (R348-R350), and deadlock probes (R352). -/

namespace Sys2Proof.Machine

/-! ### Region descriptors (R308) -/

/-- A descriptor's fields; none where it is not valid. -/
def descriptor (d : Dword) : Option Region :=
  let n := d.toNat
  let r : Region := { prow := n / 2 ^ 58, pcol := n / 2 ^ 52 % 64, h := n / 2 ^ 46 % 64 + 1, w := n / 2 ^ 40 % 64 + 1,
                      plane := n / 2 ^ 38 % 4 }
  if n % 2 ^ 38 ≠ 0 || 64 < r.prow + r.h || 64 < r.pcol + r.w then none else some r

/-- The descriptor of a region. -/
def Region.desc (r : Region) : Dword :=
  BitVec.ofNat 64 (r.prow * 2 ^ 58 + r.pcol * 2 ^ 52 + (r.h - 1) * 2 ^ 46 + (r.w - 1) * 2 ^ 40 + r.plane * 2 ^ 38)

/-- The course region that a descriptor names. -/
def regionNamed (s : State) (r : Region) : Option Nat :=
  (s.regions.find? fun p => p.2.live && p.2.desc == r.desc).map Prod.fst

/-! ### Freeze and thaw (R346, R347) -/

/-- Rule selection in a region stops. -/
def freezeRegion (s : State) (rk : Nat) : State :=
  let r := s.region rk
  if r.frozen then s else s.setRegion rk { r with frozen := true, frozenAt := s.round }

/-- An island works on a command token that nothing outside it holds up (R310): a transfer or a completion is on its way, an MMA can
issue, values can leave, or entries can be read. -/
def islandBusy (s : State) (isl : Island) : Bool :=
  let has (k : Nat) : Bool := (isl.io.head? s.round k).isSome
  isl.xfer.isSome || !isl.pendImg.isEmpty
    || (isl.mmas.any fun m => match m.done with
      | some _ => contribReady s isl
      | none => m.slot < 8 && (canIssueK m (ISetup.fmt isl.setup) || [2, 3, 4, 5].any has))
    || match isl.job with
      | .none | .fence _ => false
      | .flush vals _ _ => vals.isEmpty || isl.io.room 0
      | .bind r => if r.vals.isEmpty then has 1 || r.row = bindM r.cmd else isl.io.room 0
      | .finish _ _ => true

/-- Results in flight have landed, islands have parked, and what streamers, request ports and AGs have asked for has come (R347). -/
def settled (s : State) (r : Region) : Bool :=
  (r.units.all fun u => match u with
    | .elem e =>
      let el := s.elem e
      el.landing.isEmpty && el.ksIn.isEmpty && el.targets.all fun t => el.ksOut.get 0 t.1 = 0
    | .island i => !islandBusy s (s.island i)
    | .streamer i => (s.streamer i).cmds.all (fun c => c.x.rd = 0 && c.x.wr = 0)
        && (s.streamer i).runs.all fun b => b.2.all fun r => r.x.rd = 0 && r.x.wr = 0
    | _ => true)
    && s.dltOut.all fun q => match q.src with
      | .agLoad a _ | .agStore a _ _ => !r.pks.contains (a / 2)
      | .port e _ _ => !r.pks.contains (Key.pkOfElem e)
      | .stRead i _ _ | .stWrite i _ _ _ => !r.pks.contains (Key.enginePk i)
      | .core _ | .seed _ | .gone => true

/-- A frozen region runs on as if it had never stopped: its clocks take up the rounds that it stood (R346, R347). -/
def thawRegion (s : State) (rk : Nat) : State :=
  let r := s.region rk
  if !r.frozen then s
  else
    let d := s.round - r.frozenAt
    let s := (regionChans s r).foldl (fun s ch =>
      let c := s.chan ch
      s.setChan ch { c with flight := c.flight.map fun f => { f with sent := f.sent + d } }) s
    let s := r.units.foldl (fun s u => match u with
      | .ag a =>
        let ag := s.ag a
        s.setAg a { ag with
          stall := ag.stall.map (· + d), reqs := ag.reqs.map fun q => { q with issued := min s.round (q.issued + d) } }
      | _ => s) s
    let s := (r.mregs.map Prod.snd).foldl (fun s h => match (s.home h).op with
      | some (.read peek t fired (some n) parts) => s.setHome h { s.home h with op := some (.read peek t fired (some (n + d)) parts) }
      | _ => s) s
    s.setRegion rk { r with frozen := false, lastStart := r.lastStart + d, progress := r.progress + d, moved := r.moved + d }

/-! ### READOUT (R348, R349, log 10) -/

/-- A section: its header dword, and its contents. An empty section, or one of zeros, is left out. -/
def sectionOf (unit copy : Nat) (ds : List Dword) : List Dword :=
  if ds.all (· == 0) then [] else BitVec.ofNat 64 (unit * 2 ^ 59 + copy * 2 ^ 56 + 8 * ds.length) :: ds

/-- A window as dwords. -/
def windowDwords (f : Nat → Word) (size : Nat) : List Dword :=
  (List.range ((size + 7) / 8)).map fun k => f (8 * k + 4) ++ f (8 * k)

/-- Numbers as dwords. -/
def numDwords (ns : List Nat) : List Dword := ns.map (BitVec.ofNat 64)

/-- Eight bytes each as dwords. -/
def byteDwords : Nat → List Byte → List Dword
  | 0, _ => []
  | n + 1, bs => BitVec.ofNat 64 (leNat (bs.take 8)) :: byteDwords n (bs.drop 8)

/-- The tokens in a tile's switch buffers (R348). -/
def channelSection (s : State) (pk : Nat) : List Dword :=
  (List.range 80).flatMap fun i => (s.chan (pk * 128 + i)).flight.flatMap fun f =>
    [BitVec.ofNat 64 (i * 2 ^ 48 + f.dst * 2 ^ 32 + f.tok.tag.toNat), f.tok.payload]

/-- The slots of an island that are not free. -/
def Island.usedSlots (isl : Island) : List Nat := (List.range 8).filter fun k => (isl.slot k).state ≠ 0

/-- A matrix island (R349): SETUP record and the rest of its window (R328), accepted commands, overhang counts, descriptors, directory,
each slot that is not free with its checkpoint image of the last complete cut, and then what else it holds. -/
def islandSection (s : State) (isl : Island) : List Dword :=
  if !isl.bound then []
  else
    [isl.setup.setWidth 64, BitVec.ofNat 64 isl.spillVa, BitVec.ofNat 64 isl.spillN, BitVec.ofNat 64 isl.ckpt, isl.homeAt.setWidth 64]
      ++ numDwords ((pairC (listC mmaC) islandJobC).enc (isl.mmas, isl.job))
      ++ numDwords ((sparseC natC).enc isl.overhang)
      ++ (List.range 8).map (fun k => Island.descriptor (isl.slot k))
      ++ (List.range 32).map (fun k => isl.dir.get 0 (2 * k + 1) ++ isl.dir.get 0 (2 * k))
      ++ (isl.usedSlots.flatMap fun k => byteDwords 8200 (imageBytes (isl.slot k))
        ++ (if isl.ckpt = 0 then [] else
          byteDwords 8200 (s.bytes (isl.ckpt + (2 * k + (isl.ckptSide.get false k).toNat) * 65600) 65600)))
      ++ numDwords (islandC.enc { isl with mmas := [], job := .none, slots := isl.slots.map fun p => (p.1, { p.2 with val := [] }) })

/-- A streamer (R349): its SPB table, and then its command queue, batches, ring, EVICT and collective state. -/
def streamerSection (t : Streamer) : List Dword :=
  if !t.bound then [] else (List.range 512).map (fun k => t.spbs.get 0 k) ++ numDwords (streamerC.enc { t with spbs := [] })

/-- A tile keystone (R349): range word, status, words, and the held barrier arrivals with the ports their replies go to, among what else
it holds. -/
def keystoneSection (s : State) (ks : Nat) : List Dword :=
  let k := s.kstone ks
  if !k.mapped then []
  else [k.statusWord ++ rangeWord k]
    ++ (List.range ((k.words + 1) / 2)).map (fun j => keystoneWord s ks (2 * j + 1) ++ keystoneWord s ks (2 * j))
    ++ numDwords (keystoneC.enc k)

/-- The partial slots and the home records that a tile holds in a plane, by their numbers. -/
def tileMregs (s : State) (pk : Nat) : Sparse PSlot × Sparse Home :=
  let own {α : Type} (m : Sparse α) : Sparse α := (m.filter fun p => p.1 / 64 == pk).map fun p => (p.1 % 64, p.2)
  (own s.pslots, own s.homes)

def mregsC : Codec (Sparse PSlot × Sparse Home) := pairC (sparseC pSlotC) (sparseC homeC)

/-- The channels that leave a tile in a plane: those of its outputs, and the order channels of its ports and AGs. -/
def tileChans (s : State) (pk : Nat) : Sparse Chan :=
  s.chans.filter fun p =>
    if p.1 < 2 ^ 24 then p.1 / 128 == pk
    else if p.1 < 2 ^ 30 then false
    else if p.1 < 2 ^ 31 then (p.1 - 2 ^ 30) / 64 == pk else (p.1 - 2 ^ 31) / 2 == pk

/-- What stands in a region's north-west tile: the region's own state, and the channels of its seed ports. -/
def regionState (s : State) (pk : Nat) : Option (Region × Sparse Chan) :=
  (s.regionOf pk).bind fun rk =>
    let r := s.region rk
    if Key.tileAt r.prow r.pcol = pk / 4 then
      some (r, (s.chans.filter fun p => 2 ^ 24 ≤ p.1 && p.1 < 2 ^ 30 && (p.1 - 2 ^ 24) / 256 == rk).map fun p => ((p.1 - 2 ^ 24) % 256, p.2))
    else none

def planeC : Codec (PlaneState × Option (Region × Sparse Chan)) := pairC planeStateC (optC (pairC regionC (sparseC chanC)))

/-- A window, and behind it what the unit holds that no window shows; nothing where the unit is as after reset. -/
def withRest {α : Type} [DecidableEq α] (c : Codec α) (dflt x : α) (window : List Dword) : List Dword :=
  if x = dflt then [] else window ++ numDwords (c.enc x)

/-- The contents of a unit's section (R298, R348, R349). -/
def unitSection (s : State) (pk u : Nat) : List Dword :=
  let window := windowDwords (liveWord s pk u) (windowSize u)
  if u < 16 then withRest elemC {} (s.elem (pk * 16 + u)) window
  else match u with
    | 16 => withRest mregsC ([], []) (tileMregs s pk) window
    | 17 | 18 => withRest agC {} (s.ag (2 * pk + (u - 17))) window
    | 19 => withRest repeatC {} (s.rep pk) window
    | 20 => withRest schedNodeC {} (s.sched pk) window
    | 21 => keystoneSection s pk
    | 22 => window ++ numDwords ((sparseC chanC).enc (tileChans s pk))
    | 23 => window ++ numDwords (planeC.enc ({ s.plane pk with shadow := [], rx := [] }, regionState s pk))
    | 24 => match Key.engineAt pk false with | some i => islandSection s (s.island i) | none => []
    | 25 => match Key.engineAt pk true with | some i => streamerSection (s.streamer i) | none => []
    | _ => []

/-- The unit of a section whose snapshots it holds. -/
def sectionUnit (pk u : Nat) : Option UnitRef :=
  match u with
  | 24 => (Key.engineAt pk false).map .island
  | 25 => (Key.engineAt pk true).map .streamer
  | _ => windowUnit pk u

/-- The section of a unit in the snapshot shadow of a cut: its window as that cut saves it, and the snapshot. -/
def cutSection (s : State) (pk n u : Nat) : List Dword :=
  let window := if u < 21 then windowDwords (cutWord s n pk u) (windowSize u) else []
  match (sectionUnit pk u).bind fun x => snapOf s x n with
  | some sn => window ++ numDwords (snapC.enc sn)
  | none => if u = 16 && decide (tileMregs s pk ≠ ([], [])) then window else []

/-- The cuts of the two snapshot shadows: the last complete cut, and the one after it where that has begun, else the one before (R344). -/
def shadowCuts (r : Region) : List Nat := [r.done, if r.cutOpen then r.cut else r.done - 1]

/-- The record of one tile (R348, R349, log 10): it ends with its channel section, which always stands. -/
def tileRecord (s : State) (r : Region) (pk : Nat) : List Dword :=
  let chs := channelSection s pk
  (List.range 26).flatMap (fun u => sectionOf u 0 (unitSection s pk u))
    ++ (shadowCuts r).zipIdx.flatMap (fun n => (List.range 26).flatMap fun u => sectionOf u (n.2 + 1) (cutSection s pk n.1 u))
    ++ BitVec.ofNat 64 (31 * 2 ^ 59 + 8 * chs.length) :: chs

/-- The header of a READOUT image (R348). -/
def readoutHeader (s : State) (r : Region) (bytes : Nat) : List Dword :=
  let handle := match r.launch with | some l => (s.launch l).handle | none => 0
  [0x44535244, r.desc, BitVec.ofNat 64 (handle * 2 ^ 32 + r.course), BitVec.ofNat 64 r.done, BitVec.ofNat 64 bytes, 0, 0, 0]

/-- A READOUT image: header and tile records in row-major order. -/
def readoutImage (s : State) (r : Region) : List Dword :=
  let body := r.pks.flatMap (tileRecord s r)
  readoutHeader s r (64 + 8 * body.length) ++ body

/-- Everything that a frozen course holds, as its image does (R348, R349, log 10). -/
def saveRegion (s : State) (rk : Nat) : Saved :=
  let r := s.region rk
  let pks := r.pks
  let at_ (pk : Nat) : Bool := pks.contains pk
  { header := (readoutImage s r).take 8
    region := r
    planes := s.planes.filter fun p => at_ p.1
    elems := s.elems.filter fun p => at_ (p.1 / 16)
    pslots := s.pslots.filter fun p => at_ (p.1 / 64)
    homes := s.homes.filter fun p => at_ (p.1 / 64)
    ags := s.ags.filter fun p => at_ (p.1 / 2)
    reps := s.reps.filter fun p => at_ p.1
    scheds := s.scheds.filter fun p => at_ p.1
    islands := s.islands.filter fun p => at_ (Key.enginePk p.1)
    streamers := s.streamers.filter fun p => at_ (Key.enginePk p.1)
    kstones := (s.kstones.filter fun p => p.1 < 16384 && at_ p.1).map fun p =>
      (p.1, { p.2 with mem := (List.range p.2.words).foldl (fun (m : Sparse Word) k => m.put 0 k (keystoneWord s p.1 k)) [] })
    chans := s.chans.filter fun p =>
      if p.1 < 2 ^ 24 then at_ (p.1 / 128)
      else if p.1 < 2 ^ 30 then (p.1 - 2 ^ 24) / 256 == rk
      else if p.1 < 2 ^ 31 then at_ ((p.1 - 2 ^ 30) / 64) else at_ ((p.1 - 2 ^ 31) / 2)
    snaps := s.snaps.filter fun p => r.units.any fun u => u.key == p.1 / 2 }

/-! ### An image read back (R350): the words of the windows over what stands behind them -/

/-- The tokens of a port as its four slot dwords hold them (R298). -/
def portTokens {α : Type} (ts : List α) (put : α → Token → α) (tok : α → Token) (ds : List Dword) : List α :=
  ts.zipIdx.filterMap fun t => match ds[t.2]? with
    | some d =>
      if d.getLsbD 63 then
        some (put t.1 { tok t.1 with tag := d.extractLsb' 32 3, payload := d.extractLsb' 0 32 |>.setWidth 64 })
      else none
    | none => some t.1

/-- The ports of an element as its window holds them. -/
def portsRestore (el : Elem) (ds : List Dword) : Elem :=
  let slots (k : Nat) : List Dword := (ds.drop (0x280 / 8 + 4 * k)).take 4
  { el with io := { el.io with
    ins := [0, 1, 2, 3].foldl (fun (m : Sparse (List InTok)) k =>
      m.put [] k (portTokens (m.get [] k) (fun t v => { t with tok := v }) (·.tok) (slots k))) el.io.ins
    outs := [0, 1, 2, 3].foldl (fun (m : Sparse (List OutTok)) k =>
      m.put [] k (portTokens (m.get [] k) (fun t v => { t with tok := v }) (·.tok) (slots (4 + k)))) el.io.outs } }

/-- A word of an element's window as RESTORE writes it (R298, R350): every item but the ports. -/
def elemRestore (el : Elem) (off : Nat) (v : Word) : Elem :=
  if off < 0x44 || off = 0x48 || (0x100 ≤ off && off < 0x200) then elemStore el off v
  else if off = 0x44 then { el with fctl := v }
  else if off = 0x4C then { el with ecfg := v }
  else if off = 0x50 then { el with ptr := (List.range 5).foldl (fun (m : Sparse Nat) k => m.put 0 k (v.toNat / 2 ^ (4 * k) % 16)) [] }
  else if off = 0x54 then { el with halt := v.getLsbD 0 }
  else if 0x80 ≤ off && off < 0xC0 then
    el.setSlotSt ((off - 0x80) / 4)
      { cls := v.toNat / 2 ^ 30, age := v.toNat / 2 ^ 23 % 128, lastc := v.toNat / 2 ^ 20 % 8, aborts := v.toNat % 65536 }
  else if 0xC0 ≤ off && off < 0xE0 then
    let k := (off - 0xC0) / 2
    { el with conflict := (el.conflict.put 0 k (v.setWidth 16)).put 0 (k + 1) (v.extractLsb' 16 16) }
  else if 0x200 ≤ off && off < 0x280 then
    let k := (off - 0x200) / 8
    let old := el.slots.get 0 k
    { el with slots := el.slots.put 0 k (if off % 8 = 0 then old.extractLsb' 32 32 ++ v else v ++ old.setWidth 32) }
  else el

/-- The words of a section's window laid over a value, in order. -/
def overlay {α : Type} (f : α → Nat → Word → α) (x : α) (ds : List Dword) : α :=
  ds.zipIdx.foldl (fun x d => f (f x (8 * d.2) (d.1.setWidth 32)) (8 * d.2 + 4) (d.1.extractLsb' 32 32)) x

def elemOf (el : Elem) (ds : List Dword) : Elem := portsRestore (overlay elemRestore el (ds.take 0x50)) ds

/-- The schedule table and its cursor: an image makes no table longer. -/
def schedOf (n : SchedNode) (ds : List Dword) : SchedNode :=
  overlay (fun n off v => if off / 4 < n.table.length || off = 0x400 then schedStore n off v else n) n ds

/-- Every partial slot of a tile, its control dword too. -/
def pslotsOf (m : Sparse PSlot) (ds : List Dword) : Sparse PSlot :=
  (List.range 64).foldl (fun (m : Sparse PSlot) k =>
    let old := m.get {} k
    let d (j : Nat) : Dword := ds.getD (4 * k + j) 0
    m.put {} k { pslotOf (d 0) ((d 1).setWidth 32) ((d 1).extractLsb' 32 32) with past := old.past, crsts := old.crsts }) m

/-- A tile keystone: its range and status words, and its words. -/
def keystoneOf (k : Keystone) (ds : List Dword) : Keystone :=
  let w := (ds.headD 0).setWidth 32
  let word (j : Nat) : Word := halfOf (ds.getD (1 + j / 2) 0) (4 * j)
  { k with
    mapped := w.getLsbD 31, bar := w.getLsbD 30, ss := w.getLsbD 29, rm := w.toNat / 2 ^ 26 % 8
    sticky := ((ds.headD 0).extractLsb' 32 7), mem := (List.range k.words).foldl (fun (m : Sparse Word) j => m.put 0 j (word j)) [] }

/-- What a codec reads from dwords, with what is left. -/
def readRest {α : Type} (c : Codec α) (ds : List Dword) : Option (α × List Dword) :=
  (c.dec (ds.map (·.toNat))).map fun r => (r.1, numDwords r.2)

/-- A value that fills the rest of a section. -/
def readAll {α : Type} (c : Codec α) (ds : List Dword) : Option α :=
  (c.dec (ds.map (·.toNat))).bind fun r => if r.2.isEmpty then some r.1 else none

/-- A slot from its image and its descriptor. -/
def slotOf (sl : ISlot) (desc : Dword) (ds : List Dword) : ISlot :=
  let wide (k : Nat) : BitVec 128 := ds.getD (k + 1) 0 ++ ds.getD k 0
  { sl with
    state := desc.toNat / 2 ^ 62, dirty := desc.getLsbD 61, mark := desc.toNat / 2 ^ 32 % 4096, first := desc.toNat % 2 ^ 32
    srow := wide 8192, scol := wide 8194
    val := (List.range 16384).foldl (fun (m : Sparse Word) j => m.put 0 j (halfOf (ds.getD (j / 2) 0) (4 * j))) [] }

/-- The images of an island's slots in an image, in turn: the slots, the checkpoint images with their places, and what follows. -/
def slotsOf (isl : Island) (desc : Nat → Dword) : List Nat → List Dword → Sparse ISlot × List (Nat × List Dword) × List Dword
  | [], ds => ([], [], ds)
  | k :: ks, ds =>
    let sl := slotOf {} (desc k) (ds.take 8200)
    let ds := ds.drop 8200
    let here := if isl.ckpt = 0 then [] else [(isl.ckpt + (2 * k + (isl.ckptSide.get false k).toNat) * 65600, ds.take 8200)]
    let r := slotsOf isl desc ks (if isl.ckpt = 0 then ds else ds.drop 8200)
    (r.1.insert k sl, here ++ r.2.1, r.2.2)

/-- An island from its section, with its checkpoint images; the last part says what no rule names. -/
def islandOf (ds : List Dword) : Option (Island × List (Nat × List Dword)) :=
  (readRest (pairC (listC mmaC) islandJobC) (ds.drop 5)).bind fun cmds => (readRest (sparseC natC) cmds.2).bind fun hang =>
    let rest := hang.2
    let desc (k : Nat) : Dword := rest.getD k 0
    let used := (List.range 8).filter fun k => (desc k).toNat / 2 ^ 62 ≠ 0
    let ckpt := (ds.getD 3 0).toNat
    let images := used.length * (if ckpt = 0 then 8200 else 16400)
    (readAll islandC (rest.drop (40 + images))).map fun isl =>
      let isl := { isl with
        setup := (ds.getD 0 0).setWidth 32, spillVa := (ds.getD 1 0).toNat, spillN := (ds.getD 2 0).toNat, ckpt := ckpt
        homeAt := (ds.getD 4 0).setWidth 32, mmas := cmds.1.1, job := cmds.1.2
        overhang := hang.1
        dir := (List.range 64).foldl (fun (m : Sparse Word) k => m.put 0 k (halfOf (rest.getD (8 + k / 2) 0) (4 * k))) [] }
      let r := slotsOf isl desc used (rest.drop 40)
      ({ isl with slots := r.1.map fun p => (p.1, { p.2 with fresh := (isl.slots.get {} p.1).fresh }) }, r.2.1)

def streamerOf (ds : List Dword) : Option Streamer :=
  (readAll streamerC (ds.drop 512)).map fun t =>
    { t with spbs := (List.range 512).foldl (fun (m : Sparse Dword) k => m.put 0 k (ds.getD k 0)) [] }

/-- A snapshot with the window that its section opens with. -/
def snapRestore (sn : Snap) (window : List Dword) : Snap :=
  { sn with val := match sn.val with
    | .elem x => .elem (elemOf x window)
    | .ag x => .ag (overlay agStore x window)
    | .sched x => .sched (schedOf x window)
    | v => v }

/-- The tokens of a tile's switch buffers, in the order of the channel section. -/
def tokensOf (m : Sparse Chan) (pk : Nat) : List Dword → Option (Sparse Chan)
  | a :: v :: rest =>
    let i := a.toNat / 2 ^ 48
    (tokensOf m pk rest).bind fun m =>
      let c := m.get {} (pk * 128 + i)
      let todo := c.flight.length - (rest.zipIdx.countP fun d => d.2 % 2 = 0 && d.1.toNat / 2 ^ 48 = i)
      match c.flight[todo - 1]? with
      | some f =>
        let f := { f with dst := a.toNat / 2 ^ 32 % 65536, tok := { f.tok with tag := a.extractLsb' 0 3, payload := v } }
        some (m.put {} (pk * 128 + i) { c with flight := c.flight.set (todo - 1) f })
      | none => none
  | [] => some m
  | [_] => none

/-- One section of a tile joins what has been read; none where its contents are malformed. -/
def takeSection (pk u copy : Nat) (ds : List Dword) (v : Saved) : Option Saved :=
  let n := (windowSize u + 7) / 8
  let window := ds.take n
  let rest := ds.drop n
  if copy ≠ 0 then
    if u = 16 then some v
    else (sectionUnit pk u).bind fun x => (readAll snapC (if u < 21 then rest else ds)).map fun sn =>
      { v with snaps := v.snaps.insert (snapKey x sn.cut) (snapRestore sn window) }
  else if u < 16 then
    (readAll elemC rest).map fun el => { v with elems := v.elems.insert (pk * 16 + u) (elemOf el window) }
  else match u with
    | 16 => (readAll mregsC rest).map fun m => { v with
        pslots := (pslotsOf m.1 window).foldl (fun (a : Sparse PSlot) p => a.insert (pk * 64 + p.1) p.2) v.pslots
        homes := m.2.foldl (fun (a : Sparse Home) p => a.insert (pk * 64 + p.1) p.2) v.homes }
    | 17 | 18 => (readAll agC rest).map fun a => { v with ags := v.ags.insert (2 * pk + (u - 17)) (overlay agStore a window) }
    | 19 => (readAll repeatC rest).map fun x => { v with reps := v.reps.insert pk x }
    | 20 => (readAll schedNodeC rest).map fun x => { v with scheds := v.scheds.insert pk (schedOf x window) }
    | 21 =>
      let words := (ds.headD 0).toNat % 1024 + 1
      (readAll keystoneC (ds.drop (1 + (words + 1) / 2))).map fun k =>
        { v with kstones := v.kstones.insert pk (keystoneOf { k with words := words } ds) }
    | 22 => (readAll (sparseC chanC) rest).map fun m => { v with
        planes := v.planes.insert pk
          { routes := overlay (fun (m : Sparse Word) off w => m.put 0 (off / 4) w) [] window }
        chans := m.foldl (fun (a : Sparse Chan) p => a.insert p.1 p.2) v.chans }
    | 23 => (readAll planeC rest).map fun x =>
        let p := { x.1 with routes := (v.planes.get {} pk).routes, mask := (window.headD 0).toNat % 65536 }
        let v := { v with planes := v.planes.insert pk p }
        match x.2 with
        | some (r, chs) => { v with region := r, chans := chs.foldl (fun (a : Sparse Chan) c => a.insert (2 ^ 24 + c.1) c.2) v.chans }
        | none => v
    | 24 => (Key.engineAt pk false).bind fun i => (islandOf ds).map fun x =>
        { v with islands := v.islands.insert i x.1, ckpts := v.ckpts ++ x.2 }
    | 25 => (Key.engineAt pk true).bind fun i => (streamerOf ds).map fun x => { v with streamers := v.streamers.insert i x }
    | 31 => (tokensOf v.chans pk ds).map fun m => { v with chans := m }
    | _ => none

/-- The tile records of an image, in order; a record ends with its channel section. A section that runs beyond the image, of a unit or a
copy that does not exist, or with a nonzero zero field makes the image malformed. -/
def takeSections : Nat → List Nat → List Dword → Saved → Option Saved
  | _, [], [], v => some v
  | n + 1, pk :: pks, h :: ds, v =>
    let u := h.toNat / 2 ^ 59
    let copy := h.toNat / 2 ^ 56 % 8
    let bytes := h.toNat % 2 ^ 32
    if h.toNat / 2 ^ 32 % 2 ^ 24 ≠ 0 || 2 < copy || (u = 31 && copy ≠ 0) || bytes % 8 ≠ 0 || ds.length < bytes / 8 then none
    else (takeSection pk u copy (ds.take (bytes / 8)) v).bind
      (takeSections n (if u = 31 then pks else pk :: pks) (ds.drop (bytes / 8)))
  | _, _, _, _ => none

/-- What an image holds; none where it is malformed (R310). The keys of its seed channels count from 2 ^ 24. -/
def imageCourse (image : List Dword) : Option Saved :=
  (descriptor (image.getD 1 0)).bind fun d =>
    let empty : Saved := { (default : Saved) with header := image.take 8 }
    (takeSections image.length d.pks (image.drop 8) empty).bind fun v =>
      if v.region.desc == image.getD 1 0 then some v else none

/-! ### RESTORE (R350): keys move with the plane -/

/-- Keys of a saved region in another plane and under another region key. -/
structure Move where
  pl  : Nat
  rk  : Nat

namespace Move

def pk (m : Move) (k : Nat) : Nat := k / 4 * 4 + m.pl
def elem (m : Move) (k : Nat) : Nat := m.pk (k / 16) * 16 + k % 16
def ag (m : Move) (k : Nat) : Nat := m.pk (k / 2) * 2 + k % 2
def slot (m : Move) (k : Nat) : Nat := m.pk (k / 64) * 64 + k % 64
def engine (m : Move) (k : Nat) : Nat := k / 4 * 4 + m.pl
def ks (m : Move) (k : Nat) : Nat := if k < 16384 then m.pk k else k

def chan (m : Move) (k : Nat) : Nat :=
  if k < 2 ^ 24 then m.pk (k / 128) * 128 + k % 128
  else if k < 2 ^ 30 then 2 ^ 24 + m.rk * 256 + (k - 2 ^ 24) % 256
  else if k < 2 ^ 31 then 2 ^ 30 + 4 * m.elem ((k - 2 ^ 30) / 4) + (k - 2 ^ 30) % 4
  else 2 ^ 31 + m.ag (k - 2 ^ 31)

def unit (m : Move) : UnitRef → UnitRef
  | .elem k => .elem (m.elem k)
  | .ag k => .ag (m.ag k)
  | .repeatNode k => .repeatNode (m.pk k)
  | .schedNode k => .schedNode (m.pk k)
  | .island k => .island (m.engine k)
  | .streamer k => .streamer (m.engine k)
  | .keystone k => .keystone (m.ks k)

/-- Counts by channel. -/
def counts (m : Move) (x : Sparse Nat) : Sparse Nat := x.foldl (fun (a : Sparse Nat) p => a.put 0 (m.chan p.1) p.2) []

def ports (m : Move) (io : Ports) : Ports :=
  { io with
    ins := io.ins.map fun p => (p.1, p.2.map fun t => { t with ch := m.chan t.ch })
    feed := io.feed.map fun p => (p.1, p.2.map m.chan)
    backSeen := m.counts io.backSeen }

def elemVal (m : Move) (x : Elem) : Elem :=
  { x with io := m.ports x.io, targets := x.targets.map fun t => (t.1, { t.2 with range := m.ks t.2.range }) }
def agVal (m : Move) (x : Ag) : Ag := { x with io := m.ports x.io, orderTo := x.orderTo.map fun p => m.elem (p / 4) * 4 + p % 4 }
def repVal (m : Move) (x : Repeat) : Repeat := { x with io := m.ports x.io }
def schedVal (m : Move) (x : SchedNode) : SchedNode := { x with io := m.ports x.io, feeds := m.elem x.feeds }
def islandVal (m : Move) (x : Island) : Island :=
  { x with
    io := m.ports x.io, mregSlot := x.mregSlot.map fun p => (m.slot p.1, p.2)
    overhang := m.counts x.overhang, pastMark := m.counts x.pastMark, discard := m.counts x.discard }
def streamerVal (m : Move) (x : Streamer) : Streamer := { x with io := m.ports x.io, ringTo := x.ringTo.map m.engine }

def contrib (m : Move) (c : Bool × Nat) : Bool × Nat := if c.1 then (true, m.engine c.2) else (false, m.elem c.2)
def homeVal (m : Move) (x : Home) : Home :=
  { x with slotKeys := x.slotKeys.map m.slot, decl := { x.decl with home := m.elem x.decl.home, contribs := x.decl.contribs.map m.contrib } }

def src (m : Move) : KSrc → KSrc
  | .port e t k => .port (m.elem e) t k
  | x => x
def ksVal (m : Move) (x : Keystone) : Keystone :=
  { x with mem := [], inq := x.inq.map (fun a => { a with src := m.src a.src }), held := x.held.map fun h => (h.1, m.src h.2) }

def snapVal (m : Move) : SnapVal → SnapVal
  | .elem x => .elem (m.elemVal x)
  | .ag x => .ag (m.agVal x)
  | .rep x => .rep (m.repVal x)
  | .sched x => .sched (m.schedVal x)
  | .island x => .island (m.islandVal x)
  | .streamer x => .streamer (m.streamerVal x)

def snap (m : Move) (us : List UnitRef) (p : Nat × Snap) : Nat × Snap :=
  let key := match us.find? fun u => u.key == p.1 / 2 with
    | some u => (m.unit u).key * 2 + p.1 % 2
    | none => p.1
  (key, { p.2 with
    val := m.snapVal p.2.val
    contribs := p.2.contribs.map fun c => (m.slot c.1, c.2)
    homes := p.2.homes.map fun h => (m.slot h.1, m.homeVal h.2) })

end Move

/-- Entries put into a map at their keys. -/
def putAll {α : Type} (m : Sparse α) (xs : Sparse α) (key : Nat → Nat) (val : α → α) : Sparse α :=
  xs.foldl (fun (m : Sparse α) p => m.insert (key p.1) (val p.2)) m

/-- Arrivals that device keystones hold for elements of a course follow those elements to new keys (R346). -/
def moveHeld (s : State) (at_ : Nat → Option Nat) : State :=
  let move (h : Nat × KSrc) : Nat × KSrc := match h.2 with
    | .port e t k => (h.1, .port ((at_ e).getD e) t k)
    | _ => h
  { s with kstones := s.kstones.map fun k => if k.1 < 16384 then k else (k.1, { k.2 with held := k.2.held.map move }) }

/-- The planes of a region become empty, and nothing of its course is lost to anyone outside it: it has been saved. -/
def vacate (s : State) (rk : Nat) : State :=
  let r := s.region rk
  let s := { s with kstones := s.kstones.without fun k => r.pks.contains k }
  let s := clearPlanes s r.pks
  { s with
    regions := s.regions.erase rk
    snaps := s.snaps.without fun k => r.units.any fun u => u.key == k / 2
    chans := s.chans.without fun c => 2 ^ 24 ≤ c && c < 2 ^ 30 && (c - 2 ^ 24) / 256 == rk }

/-- The words of the tile keystones of a saved course, in the banks of their tiles; its checkpoint images, in the checkpoint area; its
spill areas pinned again (R349). -/
def putEngines (s : State) (plane : Nat) (v : Saved) : State :=
  let m : Move := ⟨plane, 0⟩
  let ctx := match v.region.launch with | some l => (s.launch l).ctx | none => 0
  let s := v.kstones.foldl (fun s k => (List.range k.2.words).foldl (fun s j => s.setKeystoneWord (m.pk k.1) j (k.2.mem.get 0 j)) s) s
  let s := v.ckpts.foldl (fun s c => s.setBytes c.1 (dwordBytes c.2)) s
  v.islands.foldl (fun s p =>
    let i := m.engine p.1
    match pinSpill s ctx i (s.island i) with
    | .ok ps => s.setIsland i { s.island i with spillPins := ps }
    | .error _ => s) s

/-- A saved region written back under a region key, in a plane of the same tiles; it stays frozen (R350). `key` is where it was saved,
and names its elements at device keystones (R346). -/
def putBack (s : State) (rk plane key : Nat) (v : Saved) : State :=
  let m : Move := ⟨plane, rk⟩
  let us := v.region.units
  let s := { s with
    planes := v.planes.foldl (fun (a : Sparse PlaneState) (p : Nat × PlaneState) => a.insert (m.pk p.1)
      { p.2 with shadow := (s.plane (m.pk p.1)).shadow, rx := (s.plane (m.pk p.1)).rx, occupied := true }) s.planes
    elems := putAll s.elems v.elems m.elem m.elemVal
    pslots := putAll s.pslots v.pslots m.slot id
    homes := putAll s.homes v.homes m.slot m.homeVal
    ags := putAll s.ags v.ags m.ag m.agVal
    reps := putAll s.reps v.reps m.pk m.repVal
    scheds := putAll s.scheds v.scheds m.pk m.schedVal
    islands := putAll s.islands v.islands m.engine m.islandVal
    streamers := putAll s.streamers v.streamers m.engine m.streamerVal
    kstones := putAll s.kstones v.kstones m.ks m.ksVal
    chans := putAll s.chans v.chans m.chan id
    snaps := (v.snaps.map (m.snap us)).foldl (fun (a : Sparse Snap) (p : Nat × Snap) => a.insert p.1 p.2) s.snaps }
  let s := moveHeld s fun e =>
    if e / 2 ^ 40 = key + 1 then some (m.elem (e % 2 ^ 40))
    else if v.region.pks.contains (Key.pkOfElem e) then some (m.elem e) else none
  let s := s.setRegion rk { v.region with
    plane := plane, frozen := true, live := true, units := us.map m.unit
    movedAt := v.region.pks.foldl (fun (a : Sparse Nat) pk => a.put 0 (m.pk pk) v.region.act) []
    waitIsl := v.region.waitIsl.map m.engine
    mregs := v.region.mregs.map fun (p : Nat × Nat) => (p.1, m.slot p.2) }
  putEngines s plane v

/-- RESTORE into a named region from an image (R350): 2 for a wrong MAGIC, a size or a length that disagrees, or a malformed image; 3
where the target's planes are not empty. A course that still stands frozen in the planes it was read out from leaves them: it goes back
into them, or from them into the others (R310, R346; log 10). -/
def restoreFrom (s : State) (r : Region) (image : List Dword) : State × Nat :=
  let g (k : Nat) : Dword := image.getD k 0
  match descriptor (g 1), imageCourse image with
  | some d, some v =>
    if g 0 ≠ 0x44535244 || d.h ≠ r.h || d.w ≠ r.w || d.prow ≠ r.prow || d.pcol ≠ r.pcol || (g 4).toNat ≠ 8 * image.length then (s, 2)
    else
      let back (rk : Nat) : State × Nat :=
        let launch := (s.region rk).launch
        (putBack (vacate s rk) rk r.plane s.nextId { v with region := { v.region with launch := launch } }, 0)
      match regionNamed s r with
      | some rk => if (s.region rk).frozen then back rk else (s, 3)
      | none =>
        if r.pks.any fun pk => (s.plane pk).occupied then (s, 3)
        else match regionNamed s d with
          | some rk =>
            if (s.region rk).frozen && (s.region rk).course == v.region.course then back rk
            else (putBack s (emptyRegion s) r.plane s.nextId { v with region := { v.region with launch := none } }, 0)
          | none => (putBack s (emptyRegion s) r.plane s.nextId { v with region := { v.region with launch := none } }, 0)
  | _, _ => (s, 2)
where
  emptyRegion (s : State) : Nat := ((List.range (s.regions.length + 1)).find? fun k => !(s.region k).live).getD 0

/-! ### Deadlock probes (R352) -/

/-- The next token of an output is ready and has no credit: the channel. -/
def blockedOut (s : State) (u : UnitRef) (k : Nat) : Option Nat :=
  match (s.io u).outq k with
  | t :: _ => if t.wait.isNone && t.ready ≤ s.round && !creditHeld s (u.outChan k) then some (u.outChan k) else none
  | [] => none

/-- The destinations that have not freed the oldest slots of a channel. -/
def slowDests (s : State) (ch : Nat) : List UnitRef :=
  let c := s.chan ch
  ((chanDests s ch).zipIdx.filter fun d => c.freed.get 0 d.2 ≤ c.returned).map fun d => d.1.1

/-- The units that send on the channels of an input. -/
def sendersOf (s : State) (u : UnitRef) (k : Nat) : List UnitRef :=
  ((s.io u).feed.get [] k).filterMap fun ch => (chanSender ch).map Prod.fst

/-- An element's input holds a head that no eligible rule can take; the inputs that the rules which take it lack. -/
def blockedIn (s : State) (e k : Nat) : Option (List Nat) :=
  let el := s.elem e
  if (el.head? s.round k).isNone then none
  else
    let takes := (List.range 16).filterMap fun j => (el.rule j).bind fun r => if r.2.dq.getLsbD k then some (j, r.2) else none
    if takes.any fun t => eligible el s.round t.1 then none
    else some ((takes.flatMap fun t => bitsOf t.2.guard.ir).filter fun j => (el.head? s.round j).isNone)

/-- A SETTLE waits at its home for closes: the contributors that have not closed (R158). -/
def settleWaits (s : State) (e : Nat) : List UnitRef :=
  match s.regionOf (Key.pkOfElem e) with
  | none => []
  | some rk => ((s.region rk).mregs.map Prod.snd).flatMap fun hk =>
    let h := s.home hk
    if h.decl.home ≠ e then []
    else match h.op with
      | some (.read false _ _ none _) => h.decl.contribs.zipIdx.filterMap fun c =>
          if h.closed.getLsbD c.2 then none else some (if c.1.1 then .island c.1.2 else .elem c.1.2)
      | _ => []

/-- The engine port is blocked: every slot toward a target is used (R201), or a SETTLE waits (R158). -/
def blockedPort (s : State) (e : Nat) : List UnitRef :=
  ((s.elem e).targets.filterMap fun t => if 4 ≤ slotsUsed (s.elem e) t.1 then some (.keystone t.2.range) else none)
    ++ settleWaits s e

/-- Wait-for arcs from a port: 0-3 inputs, 4-7 outputs, 8 the engine port. -/
def arcsFrom (s : State) (u : UnitRef) (port : Nat) : List UnitRef :=
  if 4 ≤ port && port < 8 then
    match blockedOut s u (port - 4) with
    | some ch => slowDests s ch
    | none => []
  else match u with
    | .elem e =>
      if port = 8 then blockedPort s e
      else match blockedIn s e port with
        | some js => js.flatMap (sendersOf s u)
        | none => []
    | _ =>
      let io := s.io u
      if port = 8 || (io.head? s.round port).isNone then []
      else (io.feed.keys.filter fun k => (io.inq k).isEmpty).flatMap (sendersOf s u)

/-- All wait-for arcs of a unit. -/
def arcs (s : State) (u : UnitRef) : List UnitRef := (List.range 9).flatMap (arcsFrom s u)

/-- The units that arcs lead to within n steps. -/
def reach (s : State) : Nat → List UnitRef → List UnitRef
  | 0, us => us
  | n + 1, us => reach s n (us ++ ((us.flatMap (arcs s)).filter fun v => !us.contains v).eraseDups)

/-- The lowest element on a cycle, its blocked port that leads around the cycle, and the slot that waits there. -/
def findCycle (s : State) (r : Region) : Option (Nat × Nat × Nat) :=
  let n := r.units.length
  let es := r.units.filterMap fun u => match u with | .elem e => some e | _ => none
  let victim := es.foldl (fun (b : Option Nat) e =>
    if (reach s n (arcs s (.elem e))).contains (.elem e) then
      match b with
      | some x => if (elemPlace e).toNat < (elemPlace x).toNat then some e else b
      | none => some e
    else b) none
  victim.map fun e =>
    let port := ((List.range 9).find? fun p => (reach s n (arcsFrom s (.elem e) p)).contains (.elem e)).getD 8
    let slot := (List.range 16).find? fun j => match (s.elem e).rule j with
      | some (o, x) =>
        if port < 4 then x.dq.getLsbD port
        else if port < 8 then (x.outsWritten o ||| x.guard.orr).getLsbD (port - 4)
        else (0x3A ≤ o.op && o.op ≤ 0x3D) || o.op = 0x33
      | none => false
    (e, port, slot.getD 0)

/-- The probes of a region: a cycle posts DEADLOCK, and the region runs on (R352). -/
def probeRegion (s : State) (rk : Nat) : State × Bool :=
  match findCycle s (s.region rk) with
  | some (e, port, slot) => (s.event (Key.dieOfElem e) 9 port (elemPlace e) (BitVec.ofNat 64 slot) 0, true)
  | none => (s, false)

/-- Some channel of a region holds a token. -/
def holdsToken (s : State) (r : Region) : Bool :=
  (regionChans s r).any fun ch => decide ((s.chan ch).returned < (s.chan ch).sent)

/-- R352. After 65,536 active rounds in which nothing of a region moved while a channel holds a token, probes start. -/
def execDeadlockProbeAuto (rk : Nat) (s : State) : Out :=
  let r := s.region rk
  .next <|
    if !r.runs then s
    else if !r.pks.any (planeActive s) then (if r.progress = s.round then s.setRegion rk { r with still := 0, probed := false } else s)
    else if r.progress = s.round then s.setRegion rk { r with still := 0, probed := false, act := r.act + 1 }
    else
      let s := s.setRegion rk { r with still := r.still + 1, act := r.act + 1 }
      if !r.probed && 65536 ≤ r.still + 1 && holdsToken s r then
        let (s, _) := probeRegion s rk
        s.setRegion rk { s.region rk with probed := true }
      else s

end Sys2Proof.Machine
end

