-- ==== Sys2Proof/Machine/Image.lean ====
section
/-! DEFINITION. Machine/Image: images and their course records as memory holds them (R325-R328), where they may be placed (R330), and
the blocks as a placement rewrites them. -/

namespace Sys2Proof.Machine

/-! ### Reading an image (R325, R327) -/

/-- n dwords of memory. -/
def dwordsAt (s : State) (p n : Nat) : List Dword := (List.range n).map fun k => BitVec.ofNat 64 (s.read (p + 8 * k) 8)

/-- What an image's header says. -/
structure ImageHead where
  rel     : Bool
  h       : Nat
  w       : Nat
  ncourse : Nat
  body    : Nat
  deriving DecidableEq, Repr

def imageHead (s : State) (p : Nat) : ImageHead :=
  let d0 := s.read p 8
  let d1 := s.read (p + 8) 8
  { rel := d0 % 2 == 1, h := d1 / 2 ^ 8 % 64 + 1, w := d1 % 64 + 1, ncourse := d1 / 2 ^ 48, body := s.read (p + 16) 8 }

/-- A tile block: its header, and its body. -/
structure Block where
  header : Dword
  body   : List Dword
  deriving DecidableEq, Repr

namespace Block
def row (b : Block) : Nat := b.header.toNat / 2 ^ 56
def col (b : Block) : Nat := b.header.toNat / 2 ^ 48 % 256
end Block

/-- A course record. -/
structure CourseRec where
  head   : List Dword
  ports  : List Dword
  seeds  : List Dword
  blocks : List Block
  deriving DecidableEq, Repr

namespace CourseRec
def num (c : CourseRec) : Nat := (c.head.headD 0).toNat / 2 ^ 48
def nblk (c : CourseRec) : Nat := (c.head.headD 0).toNat / 2 ^ 32 % 65536
def nport (c : CourseRec) : Nat := (c.head.headD 0).toNat / 2 ^ 16 % 65536
def mkRounds (c : CourseRec) : Nat := let n := (c.head.getD 1 0).toNat / 2 ^ 32; if n = 0 then 2400 else n
def mkTokens (c : CourseRec) : Nat := let n := (c.head.getD 1 0).toNat / 2 ^ 16 % 65536; if n = 0 then 4096 else n
/-- The zero fields of a record's four dwords are zero, and NPORT is in range. -/
def headOk (c : CourseRec) : Bool :=
  (c.head.headD 0).toNat % 65536 == 0 && (c.head.getD 1 0).toNat % 65536 == 0 && (c.head.getD 2 0).toNat / 2 ^ 32 == 0
    && c.head.getD 3 0 == 0 && c.nport ≤ 256
end CourseRec

/-- n blocks from a place, and the place after them; none past `limit`. -/
def blocksAt (s : State) (limit : Nat) : Nat → Nat → List Block × Nat
  | 0, p => ([], p)
  | n + 1, p =>
    let h := BitVec.ofNat 64 (s.read p 8)
    let len := h.toNat / 2 ^ 32 % 65536
    if limit < p + 8 + 8 * len then ([], p)
    else
      let (bs, q) := blocksAt s limit n (p + 8 + 8 * len)
      (⟨h, dwordsAt s (p + 8) len⟩ :: bs, q)

/-- The course record at a place, and the place after it. -/
def courseAt (s : State) (limit p : Nat) : CourseRec × Nat :=
  let head := dwordsAt s p 4
  let nport := min ((head.headD 0).toNat / 2 ^ 16 % 65536) ((limit - p) / 8)
  let nseed := min ((head.getD 2 0).toNat % 2 ^ 32) ((limit - p) / 8)
  let nblk := (head.headD 0).toNat / 2 ^ 32 % 65536
  let q := p + 32 + 8 * nport
  let (bs, e) := blocksAt s limit nblk (q + 8 * nseed)
  (⟨head, dwordsAt s (p + 32) nport, dwordsAt s q nseed, bs⟩, e)

/-- The places of an image's course records. -/
def coursePlaces (s : State) (limit : Nat) : Nat → Nat → List Nat
  | 0, _ => []
  | n + 1, p => if limit ≤ p then [] else p :: coursePlaces s limit n (courseAt s limit p).2

/-- A directory entry's image: its header, the end of its course records, and their places (R339). -/
def imageCourses (s : State) (d : DirEntry) : ImageHead × Nat × List Nat :=
  let h := imageHead s d.place
  let limit := d.place + 128 + h.body
  (h, limit, coursePlaces s limit h.ncourse (d.place + 128))

/-! ### Placement (R330) -/

/-- A row map and a column map. -/
structure Maps where
  rows : List Nat
  cols : List Nat
  deriving DecidableEq, Repr

/-- A tile takes part in no work (R358). -/
def badTile (s : State) (tile : Nat) : Bool := Config.fused tile || (s.tile tile).retired

/-- The maps with their north-west tile at a package row and column: contiguous rows, and columns that skip the fused and retired tiles
of the rows used where the image is relocatable (R330, R359). -/
def mapsAt (s : State) (h : ImageHead) (r0 c0 : Nat) : Option Maps :=
  if 64 < r0 + h.h then none
  else
    let rows := (List.range h.h).map (r0 + ·)
    let good (c : Nat) : Bool := rows.all fun r => !badTile s (Key.tileAt r c)
    let cols := ((List.range (64 - c0)).map (c0 + ·)).filter good
    let cols := cols.take h.w
    if cols.length < h.w || cols.headD 64 ≠ c0 || (!h.rel && cols.getLastD 0 ≠ c0 + h.w - 1) then none else some ⟨rows, cols⟩

/-- The new delta of an image coordinate along a map; a target outside the image keeps its delta. -/
def moveDelta (m : List Nat) (at_ : Nat) (d : Int) : Int :=
  let t := (at_ : Int) + d
  if t < 0 || (m.length : Int) ≤ t then d else (m.getD t.toNat 0 : Int) - m.getD at_ 0

/-- A route entry as a placement rewrites it; none where a delta leaves its field. -/
def moveRoute (m : Maps) (r c : Nat) (w : Word) : Option Word :=
  if !Route.v w then some w
  else
    let dr := moveDelta m.rows r (Route.drow w)
    let dc := moveDelta m.cols c (Route.dcol w)
    if dr < -32 || 31 < dr || dc < -32 || 31 < dc then none
    else some ((w &&& 0xC003FFFF) ||| (BitVec.ofInt 6 dr).setWidth 32 <<< 24 ||| (BitVec.ofInt 6 dc).setWidth 32 <<< 18)

/-- The dword of an item. -/
def Item.dword (it : Item) : Dword := BitVec.ofNat 64 (it.unit * 2 ^ 59 + it.off * 2 ^ 32 + it.data.length)

def moveItem (m : Maps) (r c : Nat) (it : Item) : Option Item :=
  if it.unit ≠ 22 then some it
  else (it.data.mapM fun d => do
    let lo ← moveRoute m r c (halfOf d 0)
    let hi ← moveRoute m r c (halfOf d 4)
    pure (hi ++ lo)).map fun ds => { it with data := ds }

/-- A block as a placement rewrites it, its CRC computed again where the body has changed (R330). -/
def moveBlock (m : Maps) (b : Block) : Option Block :=
  match parseItems b.body.length b.body with
  | none => some b
  | some items => (items.mapM (moveItem m b.row b.col)).map fun its =>
      let body := its.flatMap fun it => it.dword :: it.data
      if body = b.body then b
      else ⟨(b.header.extractLsb' 32 32) ++ crc32c (dwordBytes body), body⟩

/-- Every engine that a block binds stands at a position of its kind at a tile (R330). -/
def blockFits (b : Block) (tile : Nat) : Bool :=
  match parseItems b.body.length b.body with
  | some items => items.all fun it =>
      (it.unit != 24 || (Key.engineAt (4 * tile) false).isSome) && (it.unit != 25 || (Key.engineAt (4 * tile) true).isSome)
  | none => true

def enginesFit (m : Maps) (c : CourseRec) : Bool :=
  c.blocks.all fun b => blockFits b (Key.tileAt (m.rows.getD b.row 0) (m.cols.getD b.col 0))

/-- The tiles whose engines face the die edges that a course names (R330): the edges of `sides`. -/
def sidesFit (m : Maps) (x : CourseAnnex) : Bool :=
  x.sides.all fun b => (Key.engineAt (4 * Key.tileAt (m.rows.getD b.1.1 0) (m.cols.getD b.1.2 0)) b.2.1).any fun e =>
    Key.engineSide e == b.2.2

/-- So do the islands that contribute to registers, by the edge that the declaration names (R148). -/
def contribsFit (m : Maps) (x : CourseAnnex) : Bool :=
  x.mregs.all fun d => d.contribs.all fun c => !c.1
    || (Key.engineAt (4 * Key.tileAt (m.rows.getD c.2.1 0) (m.cols.getD c.2.2.1 0)) false).any fun e => Key.engineSide e == c.2.2.2

/-- A placement that every course of the image can use. -/
def mapsFit (m : Maps) (cs : List CourseRec) : Bool :=
  cs.all fun c => enginesFit m c && c.blocks.all fun b => (moveBlock m b).isSome

/-- Image tile (i, j) may stand at a package row and column: the tile is usable, and the engines of its blocks fit there. -/
def tileFits (s : State) (cs : List CourseRec) (i j r c : Nat) : Bool :=
  !badTile s (Key.tileAt r c) && cs.all fun k => k.blocks.all fun b => b.row != i || b.col != j || blockFits b (Key.tileAt r c)

/-- The first strictly increasing list of coordinates that `ok` allows one by one, by their index, and `done` accepts, counted from
64 less the fuel. -/
def searchCoords {α : Type} (ok : Nat → Nat → Bool) (done : List Nat → Option α) : Nat → Nat → List Nat → Option α
  | _, 0, acc => done acc.reverse
  | 0, _ + 1, _ => none
  | f + 1, n + 1, acc =>
    let x := 63 - f
    let taken := if ok acc.length x then searchCoords ok done f n (x :: acc) else none
    match taken with
    | some r => some r
    | none => searchCoords ok done f (n + 1) acc

/-- A placement of a relocatable image by any row map and column map, that a test accepts (R330). -/
def searchMaps (s : State) (die : Nat) (h : ImageHead) (cs : List CourseRec) (ok : Maps → Bool) : Option Maps :=
  let rowOk (i r : Nat) : Bool := (i ≠ 0 || r / 32 = die / 2) && (List.range h.w).all fun j =>
    (List.range 64).any fun c => tileFits s cs i j r c
  searchCoords rowOk (fun rows =>
    let colOk (j c : Nat) : Bool := (j ≠ 0 || c / 32 = die % 2) && rows.zipIdx.all fun r => tileFits s cs r.2 j r.1 c
    searchCoords colOk (fun cols => if mapsFit ⟨rows, cols⟩ cs && ok ⟨rows, cols⟩ then some (⟨rows, cols⟩ : Maps) else none) 64 h.w []) 64 h.h []

/-- The placements whose north-west tile stands on a die, in row-major order; where none of contiguous rows holds the image, any other
that does (log 26). Placements at which contributing islands face the edges that their declarations name go before all others: where there
are none, MREG-DECL rejects the course (R148). -/
def placements (s : State) (die : Nat) (h : ImageHead) (cs : List CourseRec) (xs : List CourseAnnex) : List Maps :=
  let plain := (List.range 1024).filterMap fun k =>
    (mapsAt s h (32 * (die / 2) + k / 32) (32 * (die % 2) + k % 32)).bind fun m =>
      if mapsFit m cs && xs.all (sidesFit m) then some m else none
  let faced := plain.filter fun m => xs.all (contribsFit m)
  if plain.isEmpty && h.rel then (searchMaps s die h cs fun m => xs.all (sidesFit m)).toList else if faced.isEmpty then plain else faced

/-! ### A placed course -/

/-- The region that a placement covers in a plane, with what its course record says. -/
def placedRegion (m : Maps) (plane : Nat) (c : CourseRec) : Region :=
  { live := true
    prow := m.rows.headD 0, pcol := m.cols.headD 0
    h := m.rows.getLastD 0 + 1 - m.rows.headD 0, w := m.cols.getLastD 0 + 1 - m.cols.headD 0
    plane := plane, course := c.num, mkRounds := c.mkRounds, mkTokens := c.mkTokens, rmap := m.rows, cmap := m.cols
    seedPorts := c.ports.zipIdx.foldl (fun (a : Sparse (Nat × Word)) p =>
      let d := p.1.toNat
      a.put (0, 0) p.2 (Key.tileAt (m.rows.getD (d / 2 ^ 58) 0) (m.cols.getD (d / 2 ^ 52 % 64) 0), BitVec.ofNat 32 d)) [] }

/-- The block that a tile of a placed region receives: the course's block of the image tile, or an empty block (R359, log 27). -/
def blockFor (m : Maps) (c : CourseRec) (tile : Nat) : Block :=
  let found := c.blocks.find? fun b =>
    m.rows[b.row]? == some (Key.prow tile) && m.cols[b.col]? == some (Key.pcol tile)
  match found.bind (moveBlock m) with
  | some b => b
  | none => ⟨0, []⟩

/-- Every usable tile of a region receives its block (R331). -/
def writeBlocks (s : State) (r : Region) (m : Maps) (c : CourseRec) : State :=
  (r.livePks s).foldl (fun s pk => let b := blockFor m c (pk / 4); takeBlock s pk b.header b.body) s

/-! ### Seeds (R336) -/

/-- The tokens of a seed record. -/
def seedTokens (d : Dword) : List (Nat × Token) :=
  let n := d.toNat
  List.replicate (n / 2 ^ 32 % 65536 + 1) (n / 2 ^ 56, ⟨BitVec.ofNat 3 (n / 2 ^ 48), BitVec.ofNat 64 (n % 2 ^ 32), 0⟩)

/-- A record names a port beyond NPORT, a tag of 4, 5 or 6, or sets a zero bit. -/
def badSeed (nport : Nat) (d : Dword) : Bool :=
  let n := d.toNat
  let tag := n / 2 ^ 48 % 8
  nport ≤ n / 2 ^ 56 || (4 ≤ tag && tag ≤ 6) || n / 2 ^ 51 % 32 != 0

/-- What reading a launch's own seed records gives: the records, an address that does not translate with R set, an uncorrectable error,
or a block of 64 bytes that another device has not sent yet (R336). -/
inductive SeedRead where
  | recs (ds : List Dword)
  | fault
  | ecc
  | ask (place : Nat)
  deriving DecidableEq, Repr

/-- A byte of the records, through the launch's context. -/
def seedByte (s : State) (got : Sparse (Option (List Byte))) (ctx a : Nat) : Except SeedRead Byte :=
  match walk s a ctx with
  | .leaf lv d =>
    let p := leafPlace lv d a
    if 2 ^ 56 ≤ a || !leafR d || 3 ≤ Place.space p then .error .fault
    else if isOwn s p then
      if !placeValid s p then .error .fault else if s.eccAt p 1 then .error .ecc else .ok (s.byte p)
    else if !s.devnum.getLsbD 16 then .error .fault
    else match got.find? (·.1 == p / 64) with
      | some (_, some bs) => .ok (bs.getD (p % 64) 0)
      | some (_, none) => .error .fault
      | none => .error (.ask (p / 64 * 64))
  | .ecc _ _ => .error .ecc
  | _ => .error .fault

/-- The launch's own seed records (R336). -/
def launchSeeds (s : State) (x : Launch) : SeedRead :=
  match (List.range x.seedN).mapM fun k =>
      ((List.range 8).mapM fun j => seedByte s x.seedGot x.ctx (x.seedVa + 8 * k + j)).map fun bs => BitVec.ofNat 64 (leNat bs) with
  | .ok ds => .recs ds
  | .error e => e

end Sys2Proof.Machine
end

