-- ==== Sys2Proof/Machine/Checks.lean ====
section
/-! DEFINITION. Machine/Checks: the rejections of R335, each with the place of its fault. A course is checked as its placement
leaves it: swapped in and wired in a scratch state. -/

namespace Sys2Proof.Machine

/-- A fault of a course: its place in the layout of R30, and its code (R335). -/
abbrev Fault1 := Nat × Nat

def tilePlace (tile : Nat) : Nat := (Key.place tile 0).toNat
def unitPlace (u : UnitRef) : Nat := u.place.toNat
/-- A fault where a test holds. -/
def faultIf (b : Bool) (place code : Nat) : List Fault1 := if b then [(place, code)] else []

/-- The first fault: the lowest place, and at one place the lowest code (R335). -/
def firstFault (fs : List Fault1) : Option Fault1 :=
  fs.foldl (fun (m : Option Fault1) f => match m with
    | none => some f
    | some g => if f.1 < g.1 || (f.1 == g.1 && f.2 < g.2) then some f else m) none

/-- The code of a word fault (R38, R335). -/
def faultCode : WordFault → Nat
  | .opcodeReserved => 1 | .opcodeMason => 2 | .voidMalformed => 3 | .formReserved => 4 | .fieldNonzero => 5
  | .specReserved => 6 | .specDirection => 7 | .guardField => 8 | .headUnguarded => 9 | .portUnconfigured => 10
  | .puNocond => 11 | .combineCode => 12

/-! ### The record and its blocks (R327-R329) -/

/-- A seed-port entry that R327 forbids. -/
def seedPortBad (h : ImageHead) (d : Dword) : Bool :=
  let w := BitVec.ofNat 32 d.toNat
  d.toNat / 2 ^ 32 % 2 ^ 20 != 0 || Route.drow w != 0 || Route.dcol w != 0 || Route.mc w
    || h.h ≤ d.toNat / 2 ^ 58 || h.w ≤ d.toNat / 2 ^ 52 % 64 || !Route.v w || Route.slots w == 0 || 9 ≤ Route.kind w

/-- IMAGE-FORMAT: a record or a block that R327-R329 forbids. -/
def formatFaults (s : State) (r : Region) (m : Maps) (h : ImageHead) (num : Nat) (c : CourseRec) : List Fault1 :=
  let nw := tilePlace (Key.tileAt r.prow r.pcol)
  faultIf (c.num != num || !c.headOk || c.blocks.length != c.nblk || c.ports.length != c.nport || c.ports.any (seedPortBad h)) nw 41
    ++ c.blocks.zipIdx.flatMap fun b =>
      let (x, k) := b
      if h.h ≤ x.row || h.w ≤ x.col then [(nw, 41)]
      else
        let tile := Key.tileAt (m.rows.getD x.row 0) (m.cols.getD x.col 0)
        let st := (blockStatus s (tile * 4 + r.plane) x.header x.body).1
        faultIf (st = 1 || st = 4 || (c.blocks.take k).any fun y => y.row == x.row && y.col == x.col) (tilePlace tile) 41

/-! ### Rule words and elements (R38, R53, R73, R83) -/

def elemRules (el : Elem) : List (Nat × OpInfo × Body) :=
  (List.range 16).filterMap fun k => (el.rule k).map fun r => (k, r)

/-- The words of an element, FCTL, ECFG and the conflict override. -/
def elemFaults (s : State) (shadow : Sparse Dword) (e : Nat) : List Fault1 :=
  let el := s.elem e
  let p := (elemPlace e).toNat
  let peni := el.ecfg.extractLsb' 0 4
  let peno := el.ecfg.extractLsb' 4 4
  let n := e % 16
  let ovl (k : Nat) : BitVec 16 := (Shadow.word shadow n (0xC0 + 4 * (k / 2))).extractLsb' (16 * (k % 2)) 16
  (List.range 16).flatMap (fun k => match elemWordFault (el.slots.get 0 k) peni peno with
      | some f => [(p, faultCode f)]
      | none => [])
    ++ faultIf (el.fctl &&& 0xFFFFE0C8 != 0 || 5 ≤ el.fctl.toNat % 8) p 15
    ++ faultIf (el.ecfg.toNat / 2 ^ 17 != 0 || el.ecfg.extractLsb' 8 4 &&& ~~~peni != 0 || el.ecfg.extractLsb' 12 4 &&& ~~~peno != 0) p 16
    ++ faultIf ((List.range 16).any fun a => (ovl a).getLsbD a || (List.range 16).any fun b => (ovl a).getLsbD b != (ovl b).getLsbD a) p 17

/-! ### Exact mode (R21, R144, R215) -/

/-- Some predicate stands in both PM fields with opposite PV bits (R144). -/
def exclusive (x y : Body) : Bool :=
  let a := x.guard
  let b := y.guard
  a.pm &&& b.pm &&& (a.pv ^^^ b.pv) != 0

/-- The ranges that a keystone instruction may target: target 0 where A is ZERO, else any target of the element. -/
def targetsOf (el : Elem) (x : Body) : List KsTarget :=
  if x.a = 24 then (el.targets.filter (·.1 == 0)).map (·.2) else el.targets.map (·.2)

/-- A keystone instruction that R215 counts as SWAP, CAS or float reduction. -/
def unsafeForm (el : Elem) (o : OpInfo) (x : Body) : Bool :=
  match o.op with
  | 0x3A => x.f == 7
  | 0x3B => x.f != 0 || !(targetsOf el x).all (·.bar)
  | 0x3C | 0x3D => true
  | _ => false

/-- Two targets name one range. -/
def sameRange (t u : KsTarget) : Bool := t.range == u.range && t.device == u.device

/-- The request ports of a course that target a range: its elements. -/
def portsOn (s : State) (us : List UnitRef) (t : KsTarget) : Nat :=
  us.countP fun u => match u with | .elem e => (s.elem e).targets.any fun x => sameRange x.2 t | _ => false

/-- SS of a target's range (R298); the range word of another device comes from there (log 78). -/
def targetSs (s : State) (t : KsTarget) : Bool :=
  if t.device.isSome then (Config.remoteRange t.place).getLsbD 29 else (s.kstone t.range).ss

/-- KEYSTONE-UNSAFE: such an instruction on a range that is not single-source: declared or granted so, with one request port (R215). -/
def ksUnsafe (s : State) (us : List UnitRef) (el : Elem) (o : OpInfo) (x : Body) : Bool :=
  unsafeForm el o x && !(targetsOf el x).all fun t => targetSs s t && portsOn s us t == 1

/-- A form that R144 accepts on an item that it both reads and writes. -/
def mergeForm (o : OpInfo) (x : Body) : Bool :=
  let f := x.f.toNat
  (o.op == 0x01 && [0, 2, 3, 4, 6, 7].contains f) || (o.op == 0x02 && f < 2) || (o.op == 0x20 && 4 ≤ f)

/-- The rule accumulates into the item that its D names. -/
def accumulates (o : OpInfo) (x : Body) (item : Option Nat) : Bool :=
  mergeForm o x && (x.d == x.a || x.d == x.b) && x.d.toNat < 16 && (item.isNone || item == some (Item.d x.d.toNat))

/-- The rule takes or reads no data but passes it on: FWD, or MOV to an output with tag 0. -/
def forwards (o : OpInfo) (x : Body) : Bool := (o.op == 0x18 || (o.op == 0x17 && x.f == 0)) && (outOf x.d).isSome

/-- What fails R144's test: a rule, by the place of its element, or a consumer that is no element. -/
inductive Fails where
  | rule (place : Nat)
  | engine (place : Nat)
  deriving DecidableEq, Repr

/-- The place to name: of a failing rule, or of an engine that an output of another engine feeds. -/
def Fails.place : Fails → Nat
  | .rule p | .engine p => p

/-- The failing rules among failures. A merged value that a rule forwards to an engine fails by that rule (R144). -/
def rulesOf (fs : List Fails) : List Fails := fs.filter fun f => match f with | .rule _ => true | .engine _ => false

/-- The rules and units after an input that fail R144's test: each rule that takes its head has to be accepted, chains of
forwarding followed, each rule at most once; a rule that forwards to one that fails fails too. `n` bounds the chain, which no course
exceeds. -/
def consumerFails (s : State) (us : List UnitRef) : Nat → List (Nat × Nat) → UnitRef × Nat → List Fails × List (Nat × Nat)
  | 0, seen, (u, _) => ([.engine (unitPlace u)], seen)
  | n + 1, seen, (u, k) =>
    match u with
    | .elem e =>
      let el := s.elem e
      let p := (elemPlace e).toNat
      ((elemRules el).filter fun r => r.2.2.dq.getLsbD k).foldl (fun (acc : List Fails × List (Nat × Nat)) r =>
        if acc.2.contains (e, r.1) then acc
        else
          let seen := (e, r.1) :: acc.2
          if accumulates r.2.1 r.2.2 none || r.2.1.op == 0x30 || r.2.1.op == 0x31
              || (0x3A ≤ r.2.1.op && r.2.1.op ≤ 0x3D && !ksUnsafe s us el r.2.1 r.2.2) then (acc.1, seen)
          else if forwards r.2.1 r.2.2 then
            let (fs, seen) := (chanDests s (Key.outChan e ((outOf r.2.2.d).getD 0))).foldl
              (fun (b : List Fails × List (Nat × Nat)) d => let c := consumerFails s us n b.2 d; (b.1 ++ c.1, c.2)) ([], seen)
            (acc.1 ++ rulesOf fs ++ (if fs.isEmpty then [] else [.rule p]), seen)
          else (acc.1 ++ [.rule p], seen)) ([], seen)
    | u => ([.engine (unitPlace u)], seen)

/-- The places that fail where one rule stands after a merge on an item it writes. -/
def writerFails (s : State) (us : List UnitRef) (e fuel : Nat) (o : OpInfo) (x : Body) (item : Nat) : List Nat :=
  let p := (elemPlace e).toNat
  if accumulates o x (some item) || o.op == 0x30 || o.op == 0x31 || (0x3A ≤ o.op && o.op ≤ 0x3D && !ksUnsafe s us (s.elem e) o x) then []
  else if forwards o x then
    let fs := (chanDests s (Key.outChan e ((outOf x.d).getD 0))).flatMap fun d => (consumerFails s us fuel [] d).1
    if fs.isEmpty then [] else p :: (rulesOf fs).map Fails.place
  else [p]

/-- The items of a rule's writes that can merge: d registers, predicates, local store words and outputs that carry data. -/
def mergeItems (o : OpInfo) (x : Body) : List Nat :=
  (writeSet o x).filter fun i =>
    i < 24 || (64 ≤ i && i < 200) || (40 ≤ i && i < 44 && !(o.op == 0x17 && (x.f == 4 || x.f == 5)))

/-- MERGE-INEXACT (R144): the places where a merge of an element's rules fails. -/
def mergeFails (s : State) (us : List UnitRef) (e fuel : Nat) : List Nat :=
  let el := s.elem e
  let rs := elemRules el
  let writers (i : Nat) : List (Nat × OpInfo × Body) := rs.filter fun a =>
    (mergeItems a.2.1 a.2.2).contains i && rs.any fun b =>
      a.1 != b.1 && (mergeItems b.2.1 b.2.2).contains i && a.2.2.guard.ir != b.2.2.guard.ir && !exclusive a.2.2 b.2.2
  ((rs.flatMap fun a => mergeItems a.2.1 a.2.2).eraseDups).flatMap fun i =>
    let ws := writers i
    if ws.isEmpty then []
    else (ws.flatMap fun w => writerFails s us e fuel w.2.1 w.2.2 i)
      ++ if rs.any fun r => !(ws.any (·.1 == r.1)) && (readSet r.2.1 r.2.2).contains i && !(ws.all fun w => exclusive w.2.2 r.2.2)
        then [(elemPlace e).toNat] else []

/-- The places where a fan-in channel of a unit fails (R139, R144): an engine uses its tokens in arrival order. -/
def faninFails (s : State) (us : List UnitRef) (u : UnitRef) (fuel : Nat) : List Nat :=
  (s.io u).feed.flatMap fun f => if 2 ≤ f.2.length then ((consumerFails s us fuel [] (u, f.1)).1).map Fails.place else []

/-- The two checks of exact mode (R21). -/
def exactFaults (s : State) (us : List UnitRef) (fuel : Nat) : List Fault1 :=
  us.flatMap fun u =>
    ((faninFails s us u fuel).map fun p => (p, 13))
      ++ match u with
        | .elem e =>
          let el := s.elem e
          ((mergeFails s us e fuel).map fun p => (p, 13))
            ++ faultIf ((elemRules el).any fun r => ksUnsafe s us el r.2.1 r.2.2) (elemPlace e).toNat 14
        | _ => []

/-! ### Combining registers (R146, R147) -/

/-- An island contributor stands at its tile on the edge that the declaration names (R148). -/
def onEdge (r : Region) (c : Bool × (Nat × Nat × Nat)) : Bool :=
  match Key.engineAt (r.placePk (c.2.1, c.2.2.1)) false with
  | some i => Key.engineSide i == c.2.2.2
  | none => false

/-- Declarations: MREG-DECL, COMBINE-CODE, MREG-CONTRIB of islands. -/
def declFaults (s : State) (r : Region) (h : ImageHead) (ds : List MregDecl) : List Fault1 :=
  ds.zipIdx.flatMap fun (d, k) =>
    let p := (elemPlace (r.placeElem d.home)).toNat
    let inside (t : Nat × Nat × Nat) : Bool := t.1 < h.h && t.2.1 < h.w && t.2.2 < 16
    faultIf ((ds.take k).any (·.m == d.m) || d.contribs.isEmpty || 16 < d.contribs.length
        || (d.contribs.map r.contrib).eraseDups.length != d.contribs.length
        || !inside d.home || !(d.contribs.all fun c => inside c.2) || d.contribs.any fun c => c.1 && !onEdge r c) p 18
      ++ faultIf (!combineCodeOk d.opc d.ty || 5 ≤ d.rm) p 12
      ++ faultIf (d.contribs.any fun c => c.1 && (let w := (s.island (r.contrib c).2).setup
          !w.getLsbD 7 || w.toNat / 2 ^ 22 % 64 != d.m)) p 20

/-- EC words of an element: MREG-UNDECL, MREG-CONTRIB, MREG-HOME, MREG-RESET. -/
def ecFaults (s : State) (r : Region) (ds : List MregDecl) (e : Nat) : List Fault1 :=
  let p := (elemPlace e).toNat
  (elemRules (s.elem e)).flatMap fun (_, o, x) => match x with
    | .ec y => match ds.find? (·.m == y.m.toNat) with
      | none => [(p, 19)]
      | some d =>
        if o.op ≤ 0x32 then faultIf (!(d.contribs.any fun c => r.contrib c == (false, e))) p 20
        else faultIf (r.placeElem d.home != e) p 21 ++ faultIf (o.op == 0x36 && !d.resettable) p 22
    | _ => []

/-- MREG-SPACE: the partial slots and home records of a tile. -/
def spaceFaults (r : Region) (ds : List MregDecl) (pk : Nat) : List Fault1 :=
  let tileOf (c : Bool × Nat) : Nat := if c.1 then Key.enginePk c.2 else Key.pkOfElem c.2
  let n := ds.foldl (fun n d => n + (if Key.pkOfElem (r.placeElem d.home) = pk then 1 else 0)
    + (d.contribs.countP fun c => tileOf (r.contrib c) == pk)) 0
  faultIf (64 < n) (tilePlace (pk / 4)) 23

/-! ### Streams (R180, R181, R190-R192, R224, R376) -/

/-- A bit of an SPB that R190's table does not assign, or a code that it does not list. -/
def spbBad (l : List Dword) : Bool :=
  Spb.dw l 0 / 2 ^ 56 != 0 || Spb.dw l 1 / 2 ^ 36 != 0 || Spb.dw l 1 / 2 ^ 14 % 4 != 0 || Spb.dw l 6 != 0 || Spb.dw l 7 != 0
    || 4 < Spb.ecode l || 4 < Spb.fmt l || Spb.qual l == 3 || Spb.endp l == 3
    || (Spb.indexed l && [1, 2, 3].any fun k => Spb.count l k != 1 || Spb.stride l k != 0)

def spbMisaligned (l : List Dword) : Bool :=
  Spb.base l % Spb.esize l != 0 || [0, 1, 2, 3].any fun k => Spb.stride l k % (Spb.esize l : Int) != 0

/-- The code of a pin that is rejected. -/
def pinCode : PinErr → Option Nat
  | .perm => some 30
  | .space => some 31
  | .ranges => some 32
  | _ => none

def pinFault (r : Except PinErr (List Pin)) (place : Nat) : List Fault1 :=
  match r with
  | .error e => match pinCode e with | some c => [(place, c)] | none => []
  | .ok _ => []

/-- Every byte of the pins stands in tile memory of the region. -/
def pinsInRegion (s : State) (r : Region) (ps : List Pin) : Bool :=
  ps.all fun p => isOwn s p.place && Place.space p.place == 2 && r.tiles.contains (Place.tile p.place)
    && Place.tile (p.place + (p.len - 1)) == Place.tile p.place

/-- Two ends of a stream that differ (R192). -/
def endsDiffer (l m : List Dword) : Bool :=
  Spb.sid l != Spb.sid m || Spb.ecode l != Spb.ecode m || Spb.fmt l != Spb.fmt m || Spb.endp l != Spb.endp m
    || (!Spb.indexed l && !Spb.indexed m && Spb.total l != Spb.total m) || Spb.store l == Spb.store m

/-- The ESIZE code that an island's operand inputs take from FMT (R243). -/
def operandEcode (fmt : Nat) : Nat := if fmt < 2 then 0 else if fmt < 4 then 1 else 2

/-- The SPB that a repeat node of a tile holds for its data input, and the one for its output, where the course declares them (R192,
log 94). -/
def repSpb (r : Region) (x : CourseAnnex) (pk : Nat) (out : Bool) : Option (List Dword) :=
  (x.repSpbs.find? fun b => r.placePk b.1 == pk).map fun b => if out then b.2.2 else b.2.1

/-- The faults of a repeat node's output against the SPB at the other end of its stream (R192). -/
def repFaults (s : State) (r : Region) (x : CourseAnnex) (pk : Nat) : List Fault1 :=
  match repSpb r x pk true with
  | none => []
  | some l => faultIf ((chanDests s (UnitRef.outChan (.repeatNode pk) 0)).any fun d => match d with
      | (.ag b, 0) => endsDiffer l (s.ag b).spb
      | (.repeatNode q, 0) => (repSpb r x q false).any (endsDiffer l)
      | (.island i, k) => (k == 2 || k == 3) && (Spb.ecode l != operandEcode ((s.island i).setup.toNat % 8) || Spb.fmt l != 0)
      | _ => false) (tilePlace (pk / 4)) 27

/-- The faults of one AG. An indexed one reaches no keystone bank and no bank outside the mask: each access is checked (R194). -/
def agFaults (s : State) (r : Region) (x : CourseAnnex) (a : Nat) : List Fault1 :=
  let ag := s.ag a
  let pk := a / 2
  let p := tilePlace (pk / 4)
  let l := ag.spb
  let fed (k : Nat) : Bool := !(ag.io.feed.get [] k).isEmpty
  let pin := pinStream s ag.ctx 3 l
  let reached (tile : Nat) : List Nat := if Spb.indexed l then [] else agBanks s a tile
  faultIf (spbBad l || Spb.indexed l != fed 1) p 24
    ++ faultIf (spbMisaligned l) p 25
    ++ faultIf (Spb.qual l != 0 && !pinsInRegion s r (pinsOr pin)) p 26
    ++ faultIf ((chanDests s (UnitRef.outChan (.ag a) 0)).any fun d => match d with
        | (.ag b, 0) => endsDiffer l (s.ag b).spb
        | (.repeatNode q, 0) => (repSpb r x q false).any (endsDiffer l)
        | (.island i, k) => (k == 2 || k == 3) && (Spb.ecode l != operandEcode ((s.island i).setup.toNat % 8) || Spb.fmt l != 0)
        | _ => false) p 27
    ++ faultIf ((reached (pk / 4)).any fun b => !(s.plane pk).mask.testBit b) p 28
    ++ faultIf (r.pks.any fun k => (s.kstone k).mapped && (reached (k / 4)).contains (s.kstone k).bank) p 29
    ++ pinFault pin p

/-- Banks of the repeat node and of the tile keystone. -/
def nodeFaults (s : State) (pk : Nat) : List Fault1 :=
  let p := tilePlace (pk / 4)
  let mask := (s.plane pk).mask
  let rep := s.rep pk
  let k := s.kstone pk
  faultIf ((rep.bound && !mask.testBit rep.bank) || (k.mapped && !mask.testBit k.bank)) p 28
    ++ faultIf (rep.bound && k.mapped && k.bank == rep.bank) p 29
    ++ faultIf (k.mapped && 5 ≤ k.rm) p 44

/-- One bucket's SPBs break R376. -/
def bucketBad (d : BuckDecl) : Bool :=
  let n := Spb.total d.src
  let plain (l : List Dword) (store : Bool) (ec : Nat) : Bool :=
    !spbBad l && !Spb.indexed l && Spb.qual l == 0 && Spb.store l == store && Spb.ecode l == ec
  !plain d.src false 2 || !plain d.dst true 2 || Spb.total d.dst != n || n % 16 != 0 || n < 16 || 16384 < n
    || (d.wire == 1 && !(plain d.scale false 0 && Spb.total d.scale == 1))
    || (d.wire == 2 && !(plain d.errmem false 2 && Spb.total d.errmem == n))

/-- The faults of a streamer: its SPBs, its collective, and its ring. -/
def streamerFaults (s : State) (r : Region) (st : Nat) : List Fault1 :=
  let t := s.streamer st
  let p := unitPlace (.streamer st)
  let spbs := ((List.range 64).map t.spb).filter fun l => !(l.all (· == 0))
  let bucks := t.bucks.filterMap (·.2)
  let others := r.units.filterMap fun u => match u with | .streamer x => if x = st then none else some x | _ => none
  faultIf (spbs.any spbBad || bucks.any bucketBad) p 24
    ++ faultIf (spbs.any spbMisaligned || bucks.any fun d => [d.src, d.dst, d.scale, d.errmem].any spbMisaligned) p 25
    ++ faultIf (spbs.any fun l => Spb.qual l == 1 || (Spb.qual l == 2 && !pinsInRegion s r (pinsOr (pinStream s t.ctx 4 l)))) p 26
    ++ spbs.flatMap (fun l => pinFault (pinStream s t.ctx 4 l) p)
    ++ bucks.flatMap (fun d =>
        pinFault (pinStream s t.ctx 4 d.src) p ++ pinFault (pinStream s t.ctx 4 d.dst) p
          ++ (if d.wire = 1 then pinFault (pinSpb s t.ctx true true 4 d.scale) p else [])
          ++ (if d.wire = 2 then pinFault (pinSpb s t.ctx true true 4 d.errmem) p else []))
    ++ faultIf (2 ≤ (t.io.feed.get [] 0).length || 2 ≤ (t.io.feed.get [] 1).length) p 35
    ++ faultIf (match t.coll with | some (_, k, n) => n = 0 || 4096 < n || n ≤ k | none => false) p 40
    ++ faultIf ((chanDests s (UnitRef.outChan (.streamer st) 1)).any (fun d => match d with | (.island _, 3) => false | _ => true)
        || t.ringTo.any (fun i => !(s.island i).bound || (((s.island i).io.feed.get [] 3)).length != 1)
        || t.ringTo.eraseDups.length != t.ringTo.length
        || t.ringTo.any fun i => others.any fun x => (s.streamer x).ringTo.contains i) p 39

/-! ### Islands and command routes (R223, R243, R263, R270) -/

/-- The types of R147 that suit an island's format. -/
def typeSuits (fmt ty : Nat) : Bool := if fmt = 1 then ty == 3 || ty == 4 else ty ≤ 2

def islandFaults (s : State) (ds : List MregDecl) (r : Region) (i : Nat) : List Fault1 :=
  let isl := s.island i
  let p := unitPlace (.island i)
  let w := isl.setup.toNat
  let fmt := w % 8
  let m := w / 2 ^ 22 % 64
  let bound := w / 2 ^ 7 % 2 == 1
  let decl := ds.find? (·.m == m)
  let fed (k : Nat) : List Nat := isl.io.feed.get [] k
  faultIf (5 ≤ fmt || 5 ≤ w / 8 % 8 || w / 2 ^ 28 != 0 || w / 2 ^ 6 % 2 == 1
      || (fmt != 0 && !((fed 4).isEmpty && (fed 5).isEmpty)) || 64 < isl.spillN || (isl.spillN = 0 && isl.spillVa != 0) || isl.spillVa % 64 != 0
      || (bound && match decl with | some d => !typeSuits fmt d.ty | none => false)) p 36
    ++ faultIf (bound && match decl with | some d => !bindsTo r isl d | none => true) p 19
    ++ faultIf (bound && match decl with | some d => !(d.contribs.any fun c => r.contrib c == (true, i)) | none => false) p 20
    ++ pinFault (pinSpill s (match r.launch with | some l => (s.launch l).ctx | none => 0) i isl) p
    ++ faultIf (2 ≤ (fed 0).length) p 37
    ++ faultIf (2 ≤ (fed 1).length) p 38

/-- The command routes of an element's rules: STC, MXT and MXQ; and SCHD. -/
def commandFaults (s : State) (e : Nat) : List Fault1 :=
  let el := s.elem e
  let p := (elemPlace e).toNat
  let pk := Key.pkOfElem e
  (elemRules el).flatMap fun (_, o, x) =>
    let out := outOf x.d
    let ds := match out with | some k => chanDests s (Key.outChan e k) | none => []
    let ctl := match out with | some k => el.ctlOut k | none => false
    match o.op with
    | 0x39 => faultIf (ctl || !ds.any fun d => match d with | (.streamer _, 0) => true | _ => false) p 35
    | 0x38 =>
      faultIf (ctl || !ds.any fun d => match d with | (.island _, 0) => true | _ => false) p 37
        ++ ds.flatMap fun d => match d with
          | (.island i, 0) =>
            faultIf ((x.f == 5 || x.f == 1 || x.f == 2) && (chanDests s (UnitRef.outChan (.island i) 0)).isEmpty
              || (x.f == 1 || x.f == 2) && ((s.island i).io.feed.get [] 1).isEmpty) p 36
          | _ => []
    | 0x3F => faultIf (ctl || !ds.any fun d => match d with | (.island _, 1) => true | _ => false) p 38
    | 0x3E => faultIf (!(s.sched pk).bound || (s.sched pk).feeds != e) p 42
    | _ => []

/-! ### Routes (R283, R329) -/

/-- An input that the course configures: an input of an element whose PENI names it, or of an engine that is bound (R173, R283). -/
def inputThere (s : State) (d : UnitRef × Nat) : Bool :=
  match d with
  | (.elem e, k) => (s.elem e).ecfg.getLsbD k
  | (.ag a, k) => (s.ag a).bound && k < 2
  | (.repeatNode p, k) => (s.rep p).bound && k < 2
  | (.island i, _) => (s.island i).bound
  | (.streamer i, k) => (s.streamer i).bound && k < 2
  | _ => false

/-- The source of a primary entry is an output that the course configures (R283, R329). -/
def outputThere (s : State) (pk idx : Nat) : Bool :=
  if idx < 64 then (s.elem (pk * 16 + idx / 4)).ecfg.getLsbD (4 + idx % 4)
  else if idx < 66 then (s.ag (2 * pk + idx - 64)).bound && !Spb.store (s.ag (2 * pk + idx - 64)).spb
  else if idx = 68 || idx = 69 then (Key.engineAt pk false).any fun i => (s.island i).bound
  else if idx = 70 || idx = 71 then (Key.engineAt pk true).any fun i => (s.streamer i).bound
  else true

/-- A route entry of a tile leads out of the region, comes from no output, or leads to no input that is there. -/
def routeBad (s : State) (r : Region) (pk idx : Nat) (w : Word) : Bool :=
  let (a, b) := Route.target (pk / 4) w
  Route.v w && (!((r.prow : Int) ≤ a && a < r.prow + r.h && (r.pcol : Int) ≤ b && b < r.pcol + r.w)
    || !outputThere s pk idx
    || match Route.kind w with
      | 2 | 6 | 7 => false
      | _ => match Route.dest pk w with
        | some d => !inputThere s d
        | none => true)

/-- A seed port whose input is not configured (R173). -/
def seedFaults (s : State) (r : Region) : List Fault1 :=
  r.seedPorts.flatMap fun q => match Route.dest (q.2.1 * 4 + r.plane) q.2.2 with
    | some d => faultIf (!inputThere s d) (unitPlace d.1) 10
    | none => [(tilePlace q.2.1, 10)]

/-- Commands and coefficients from an output that is a control channel (R223, R243, R267). -/
def controlFaults (s : State) (e : Nat) : List Fault1 :=
  (List.range 4).flatMap fun k =>
    if (s.elem e).ctlOut k then (chanDests s (Key.outChan e k)).flatMap fun d => match d with
      | (.streamer _, _) => [((elemPlace e).toNat, 35)]
      | (.island _, 0) => [((elemPlace e).toNat, 37)]
      | (.island _, 1) => [((elemPlace e).toNat, 38)]
      | _ => []
    else []

/-- Routes of a tile, and inputs with more than one channel that a route line names without its fan-in clause (R283). -/
def routeFaults (s : State) (r : Region) (pk : Nat) : List Fault1 :=
  (s.plane pk).routes.flatMap fun w => faultIf (routeBad s r pk w.1 w.2) (tilePlace (pk / 4)) 40

def plainFaults (s : State) (r : Region) (x : CourseAnnex) : List Fault1 :=
  x.plain.flatMap fun d =>
    let e := r.placeElem d.1
    faultIf (2 ≤ ((s.elem e).io.feed.get [] d.2).length) (elemPlace e).toNat 40

/-! ### Keystone targets (R201, R212) -/

def targetFaults (s : State) (us : List UnitRef) (r : Region) (h : ImageHead) (ctx : Nat) (x : CourseAnnex) : List Fault1 :=
  x.targets.flatMap fun d =>
    let e := r.placeElem d.elem
    let p := (elemPlace e).toNat
    let users : Nat := (((s.elem e).targets.find? (·.1 == d.k)).map fun y => portsOn s us y.2).getD 0
    match d.tile with
    | some t =>
      let pk := r.placePk t
      faultIf (h.h ≤ t.1 || h.w ≤ t.2 || !(s.kstone pk).mapped) p 33
        ++ faultIf ((d.single || (s.kstone pk).ss) && 1 < users) p 34
    | none =>
      match walk s d.va ctx with
      | .leaf lv l =>
        let q := leafPlace lv l d.va
        let k := s.kstone (16384 + Place.tile q)
        faultIf (!leafA l) p 30
          ++ faultIf (Place.space q != 4
              || if isOwn s q then !placeValid s q else !s.devnum.getLsbD 16 || !(Config.remoteRange q).getLsbD 31) p 31
          ++ faultIf (d.single && (1 < users
              || if isOwn s q then !k.ss || 0 < ksBound s (16384 + Place.tile q) - users else !(Config.remoteRange q).getLsbD 29)) p 34
      | _ => []

/-! ### A whole course -/

/-- The scratch state of a course: every tile of its region swapped in and wired. -/
def scratch (s : State) (rk : Nat) (r : Region) (m : Maps) (c : CourseRec) (ctx : Nat) (x : CourseAnnex) : State × Sparse (Sparse Dword) :=
  let s := clearPlanes s r.pks
  let s := s.setRegion rk r
  let s := writeBlocks s r m c
  let shadows := r.pks.map fun pk => (pk, (s.plane pk).shadow)
  let s := (r.livePks s).foldl swapTile s
  (wireCourse s rk ctx x, shadows)

/-- The SETUP records that a block holds. -/
def setupsOf (b : Block) : Nat :=
  match parseItems b.body.length b.body with
  | some its => its.countP fun it => it.unit == 24 && it.off == 0 && !it.data.isEmpty
  | none => 0

/-- The blocks of a tile bind its island by two SETUP records (R243, R397). -/
def islandTwice (bs : List Block) (b : Block) : Bool :=
  2 ≤ (bs.filter fun y => y.row == b.row && y.col == b.col).foldl (fun n y => n + setupsOf y) 0

/-- Every fault of one course of a graph in a placement (R335). -/
def courseFaults (s : State) (rk : Nat) (m : Maps) (plane launch ctx : Nat) (relaxed : Bool) (h : ImageHead) (num : Nat)
    (c : CourseRec) (x : CourseAnnex) : List Fault1 :=
  let r := { placedRegion m plane c with launch := some launch }
  let (t, shadows) := scratch s rk r m c ctx x
  let us := (t.region rk).units
  let es := us.filterMap fun u => match u with | .elem e => some e | _ => none
  formatFaults (clearPlanes s r.pks) r m h num c
    ++ es.flatMap (fun e => elemFaults t (shadows.get [] (Key.pkOfElem e)) e ++ ecFaults t r x.mregs e ++ commandFaults t e
        ++ controlFaults t e)
    ++ (if relaxed then [] else exactFaults t us (16 * us.length + 1))
    ++ declFaults t r h x.mregs
    ++ r.pks.flatMap (fun pk => spaceFaults r x.mregs pk ++ nodeFaults t pk ++ routeFaults t r pk)
    ++ us.flatMap (fun u => match u with
        | .ag a => agFaults t (t.region rk) x a
        | .repeatNode pk => repFaults t (t.region rk) x pk
        | .island i => islandFaults t x.mregs (t.region rk) i
        | .streamer st => streamerFaults t (t.region rk) st
        | _ => [])
    ++ (c.blocks.filter (islandTwice c.blocks)).map (fun b => (tilePlace (Key.tileAt (m.rows.getD b.row 0) (m.cols.getD b.col 0)), 36))
    ++ seedFaults t r ++ plainFaults t r x
    ++ targetFaults t us r h ctx x

/-! ### The load of a course (R188, R191, R201) -/

/-- What the load of a course takes, or why it cannot: a page that is not present, a malformed walk or a stream's page in migration, for
which it waits; a pin or a target that is rejected; else the pins by unit and the places of the keystone targets. A target on a page in
migration is bound to its old home (R214). -/
structure Load where
  wait   : Option PinErr := none
  reject : Option Fault1 := none
  pinned : List (UnitRef × Sparse (List Pin)) := []
  ksAt   : Sparse Nat := []
  deriving DecidableEq, Repr

/-- The outcomes of the pins of a wired unit. -/
def unitPins (t : State) (ctx : Nat) (u : UnitRef) : List (Except PinErr (List Pin)) :=
  match u with
  | .ag a => [pinStream t ctx 3 (t.ag a).spb]
  | .island i => [pinSpill t ctx i (t.island i)]
  | .streamer st =>
    let v := t.streamer st
    ((List.range 64).map fun k => pinStream t ctx 4 (v.spb k))
      ++ (v.bucks.filterMap (·.2)).flatMap fun d => [pinStream t ctx 4 d.src, pinStream t ctx 4 d.dst]
          ++ (if d.wire = 1 then [pinSpb t ctx true true 4 d.scale] else []) ++ (if d.wire = 2 then [pinSpb t ctx true true 4 d.errmem] else [])
  | _ => []

/-- The codes that rest on the pages of a context, which may have changed since the launch was admitted: SPB-QUAL, BANK-UNDECLARED,
BANK-KEYSTONE and those of pins (R180, R181, R191, R199). -/
def pageCode (c : Nat) : Bool := (26 ≤ c && c ≤ 32 && c != 27)

/-- The load of a course into a plane. -/
def loadCourse (s : State) (rk : Nat) (r : Region) (m : Maps) (c : CourseRec) (ctx : Nat) (x : CourseAnnex) : Load :=
  let (t, _) := scratch s rk r m c ctx x
  let us := (t.region rk).units
  let pins := us.flatMap fun u => (unitPins t ctx u).map fun e => (u, e)
  let targets := x.targets.filterMap fun d => if d.tile.isSome then none else some (r.placeElem d.elem, d, walk t d.va ctx)
  let waits := (pins.filterMap fun p => match p.2 with
      | .error f => if (pinCode f).isNone then some f else none
      | .ok _ => none)
    ++ targets.filterMap fun d => match d.2.2 with
      | .notPresent _ => some (PinErr.notPresent d.2.1.va)
      | .malformed lv => some (PinErr.malformed lv d.2.1.va)
      | .ecc _ p => some (PinErr.ecc p)
      | .leaf _ _ => none
  let rejects := ((us.flatMap fun u => match u with
      | .ag a => agFaults t (t.region rk) x a
      | .streamer st => streamerFaults t (t.region rk) st
      | .island i => islandFaults t x.mregs (t.region rk) i
      | _ => []).filter fun f => pageCode f.2)
    ++ targets.flatMap fun d => match d.2.2 with
      | .leaf lv l =>
        let q := leafPlace lv l d.2.1.va
        faultIf (!leafA l) (elemPlace d.1).toNat 30
          ++ faultIf (Place.space q != 4 || if isOwn s q then !placeValid s q else !s.devnum.getLsbD 16) (elemPlace d.1).toNat 31
      | _ => []
  { wait := waits.head?, reject := firstFault rejects
    pinned := us.filterMap fun u => match u with
      | .ag a => some (u, [(0, (t.ag a).pins)])
      | .island i => some (u, [(0, (t.island i).spillPins)])
      | .streamer st => some (u, (t.streamer st).pins)
      | _ => none
    ksAt := targets.foldl (fun (a : Sparse Nat) d => match d.2.2 with
      | .leaf lv l => a.insert (4 * d.1 + d.2.1.k) (leafPlace lv l d.2.1.va)
      | _ => a) [] }

end Sys2Proof.Machine
end

