-- ==== Sys2Proof/Machine/Keccak.lean ====
section
/-! DEFINITION. Machine/Keccak: SHAKE128 and SHAKE256, and the verification of an XMSS signature (R312, R402). SHA-3 and RFC 8391 are
named by the spec; their text is the standards' (log 22). -/

namespace Sys2Proof.Machine

/-! ### Keccak-f[1600] -/

namespace Keccak

/-- Rotation offsets by x + 5 y. -/
def offsets : List Nat :=
  [0, 1, 62, 28, 27, 36, 44, 6, 55, 20, 3, 10, 43, 25, 39, 41, 45, 15, 21, 8, 18, 2, 61, 56, 14]

/-- Round constants. -/
def constants : List Dword :=
  [0x0000000000000001, 0x0000000000008082, 0x800000000000808A, 0x8000000080008000, 0x000000000000808B, 0x0000000080000001,
   0x8000000080008081, 0x8000000000008009, 0x000000000000008A, 0x0000000000000088, 0x0000000080008009, 0x000000008000000A]
  ++ [0x000000008000808B, 0x800000000000008B, 0x8000000000008089, 0x8000000000008003, 0x8000000000008002, 0x8000000000000080,
   0x000000000000800A, 0x800000008000000A, 0x8000000080008081, 0x8000000000008080, 0x0000000080000001, 0x8000000080008008]

def lane (a : List Dword) (x y : Nat) : Dword := a.getD (x % 5 + 5 * (y % 5)) 0

/-- The 25 lanes by x + 5 y. -/
def build (f : Nat → Nat → Dword) : List Dword := (List.range 25).map fun i => f (i % 5) (i / 5)

def round (a : List Dword) (rc : Dword) : List Dword :=
  let c := (List.range 5).map fun x => lane a x 0 ^^^ lane a x 1 ^^^ lane a x 2 ^^^ lane a x 3 ^^^ lane a x 4
  let d := (List.range 5).map fun x => c.getD ((x + 4) % 5) 0 ^^^ (c.getD ((x + 1) % 5) 0).rotateLeft 1
  let a := build fun x y => lane a x y ^^^ d.getD x 0
  let b := build fun x y => (lane a (x + 3 * y) x).rotateLeft (offsets.getD ((x + 3 * y) % 5 + 5 * x) 0)
  let a := build fun x y => lane b x y ^^^ (~~~(lane b (x + 1) y) &&& lane b (x + 2) y)
  a.set 0 (a.getD 0 0 ^^^ rc)

def permute (a : List Dword) : List Dword := constants.foldl round a

/-! ### The sponge -/

def leDword (l : List Byte) : Dword := l.foldr (fun b v => v <<< 8 ||| b.setWidth 64) 0
def dwordLe (d : Dword) : List Byte := (List.range 8).map fun k => d.extractLsb' (8 * k) 8

/-- A block of `rate` bytes is absorbed. -/
def absorb (rate : Nat) (a : List Dword) (block : List Byte) : List Dword :=
  permute ((List.range 25).map fun i =>
    if 8 * i < rate then a.getD i 0 ^^^ leDword ((block.drop (8 * i)).take 8) else a.getD i 0)

def absorbAll (rate : Nat) : Nat → List Byte → List Dword → List Dword
  | 0, _, a => a
  | n + 1, m, a => absorbAll rate n (m.drop rate) (absorb rate a (m.take rate))

/-- The SHAKE padding. -/
def pad (rate : Nat) (m : List Byte) : List Byte :=
  let r := m.length % rate
  if r + 1 = rate then m ++ [0x9F] else m ++ [0x1F] ++ List.replicate (rate - r - 2) 0 ++ [0x80]

def squeeze (rate : Nat) : Nat → List Dword → List Byte
  | 0, _ => []
  | n + 1, a => ((a.flatMap dwordLe).take rate) ++ squeeze rate n (permute a)

/-- SHAKE with a rate: n bytes of output. -/
def shake (rate n : Nat) (m : List Byte) : List Byte :=
  let p := pad rate m
  (squeeze rate (n / rate + 1) (absorbAll rate (p.length / rate) p (List.replicate 25 0))).take n

end Keccak

/-- SHAKE256 of bytes. -/
def shake256 (n : Nat) (m : List Byte) : List Byte := Keccak.shake 136 n m
/-- SHAKE128 of bytes. -/
def shake128 (n : Nat) (m : List Byte) : List Byte := Keccak.shake 168 n m

/-! ### XMSS (RFC 8391, n = 32, w = 16) -/

namespace Xmss

/-- The height of a parameter set of R402. -/
def height (set : Nat) : Option Nat :=
  match set with
  | 7 => some 10 | 8 => some 16 | 9 => some 20 | _ => none

/-- n bytes, most significant first. -/
def beBytes : Nat → Nat → List Byte
  | 0, _ => []
  | n + 1, v => BitVec.ofNat 8 (v / 256 ^ n) :: beBytes n v
def beNat (l : List Byte) : Nat := l.foldl (fun n b => 256 * n + b.toNat) 0

/-- The keyed functions: F 0, H 1, H_msg 2, PRF 3. -/
def hash (tag : Nat) (key m : List Byte) : List Byte := shake128 32 (beBytes 32 tag ++ key ++ m)

def xorBytes (a b : List Byte) : List Byte := (a.zip b).map fun p => p.1 ^^^ p.2

/-- A hash address: its type, words 4 to 6, and keyAndMask. -/
def adrs (type w4 w5 w6 mask : Nat) : List Byte :=
  beBytes 12 0 ++ beBytes 4 type ++ beBytes 4 w4 ++ beBytes 4 w5 ++ beBytes 4 w6 ++ beBytes 4 mask

/-- The chaining function of WOTS+ from step i for n steps. -/
def chain (seed : List Byte) (ots ch : Nat) : Nat → Nat → List Byte → List Byte
  | 0, _, x => x
  | n + 1, i, x =>
    let key := hash 3 seed (adrs 0 ots ch i 0)
    let bm := hash 3 seed (adrs 0 ots ch i 1)
    chain seed ots ch n (i + 1) (hash 0 key (xorBytes x bm))

/-- RAND_HASH of two nodes. -/
def randHash (seed : List Byte) (type w4 w5 w6 : Nat) (l r : List Byte) : List Byte :=
  let prf (k : Nat) : List Byte := hash 3 seed (adrs type w4 w5 w6 k)
  hash 1 (prf 0) (xorBytes l (prf 1) ++ xorBytes r (prf 2))

/-- The 67 digits of a message hash: 64 of the message and 3 of the checksum. -/
def digits (m : List Byte) : List Nat :=
  let ds := m.flatMap fun b => [b.toNat / 16, b.toNat % 16]
  let c := (ds.foldl (fun n d => n + (15 - d)) 0) * 16
  ds ++ [c / 4096 % 16, c / 256 % 16, c / 16 % 16]

/-- One level of an L-tree. -/
def pairUp (seed : List Byte) (idx h : Nat) : Nat → List (List Byte) → List (List Byte)
  | k, a :: b :: rest => randHash seed 1 idx h k a b :: pairUp seed idx h (k + 1) rest
  | _, rest => rest

def lTree (seed : List Byte) (idx : Nat) : Nat → Nat → List (List Byte) → List Byte
  | 0, _, ns => ns.headD []
  | n + 1, h, ns => if ns.length ≤ 1 then ns.headD [] else lTree seed idx n (h + 1) (pairUp seed idx h 0 ns)

/-- The root above a leaf, by its authentication path. -/
def climb (seed : List Byte) (idx : Nat) : Nat → List (List Byte) → List Byte → List Byte
  | _, [], node => node
  | k, sib :: rest, node =>
    climb seed idx (k + 1) rest
      (if idx / 2 ^ k % 2 = 1 then randHash seed 2 0 k (idx / 2 ^ (k + 1)) sib node
       else randHash seed 2 0 k (idx / 2 ^ (k + 1)) node sib)

/-- Pieces of 32 bytes. -/
def pieces (n : Nat) (l : List Byte) : List (List Byte) := (List.range n).map fun k => (l.drop (32 * k)).take 32

/-- Verification of a signature over a message under a key of root and seed. -/
def verify (h : Nat) (msg sig root seed : List Byte) : Bool :=
  let idx := beNat (sig.take 4)
  let r := (sig.drop 4).take 32
  let m := hash 2 (r ++ root ++ beBytes 32 idx) msg
  let ots := pieces 67 (sig.drop 36)
  let pk := (ots.zip (digits m)).zipIdx.map fun p => chain seed idx p.2 (15 - p.1.2) p.1.2 p.1.1
  idx < 2 ^ h && climb seed idx 0 (pieces h (sig.drop (36 + 32 * 67))) (lTree seed idx 8 0 pk) == root

/-- SIGV (R312): 0 valid, 1 invalid, 2 where the set or the key's OID is not one of R402. -/
def sigv (set : Nat) (msg sig pk : List Byte) : Nat :=
  match height set with
  | none => 2
  | some h => if beNat (pk.take 4) ≠ set then 2 else if verify h msg sig ((pk.drop 4).take 32) ((pk.drop 36).take 32) then 0 else 1

/-- The bytes of a serialized signature. -/
def sigBytes (h : Nat) : Nat := 4 + 32 * (68 + h)

end Xmss

end Sys2Proof.Machine
end

