-- ==== Sys2Proof/Machine/Links.lean ====
section
/-! DEFINITION. Machine/Links: retrains and replays of links, and the rollbacks of channels that wait behind one (R372, R373,
R375). -/

namespace Sys2Proof.Machine

/-- A retrain may begin: the link exists, is enabled and not isolated, and none runs. -/
def canTrain (l : Nat) (k : Link) : Bool := linkExists l && k.training.isNone && k.ctl.getLsbD 0 && !k.ctl.getLsbD 1

/-- A retrain begins, and is counted (R372). -/
def startRetrain (s : State) (l : Nat) : State :=
  let k := s.link l
  s.putLink l { k with training := some s.round, retrains := sat 16 (k.retrains + 1) }

/-- R375. A link retrains while traffic waits in its replay buffer: no token moves over it meanwhile. -/
def execLinkRetrain (l : Nat) (s : State) : Out := .next (if canTrain l (s.link l) then startRetrain s l else s)


/-- RTMAX (R373). -/
def rtmax (k : Link) : Nat := (k.ctl.extractLsb' 8 8).toNat

/-- The cross-die channels of a region that hold a token behind a link. -/
def waitsBehind (s : State) (l ch : Nat) : Bool :=
  (s.chan ch).flight.any fun f => match (chanDests s ch)[f.dst]? with
    | some (u, _) => (linksBetween (chanDie s ch) u.die).contains l && !(s.link l).passes f.sent
    | none => false

/-- Launches that a retrain of the link has held up take its cause (R24): a token of theirs has waited behind the link, or a request to
another device where the link leads to one. -/
def noteRetrain (s : State) (l : Nat) : State :=
  let held (r : Region) : Bool :=
    if l < 32 then s.dltOut.any fun q => match q.src with
      | .agLoad a _ | .agStore a _ _ => r.pks.contains (a / 2)
      | .port e _ _ => r.pks.contains (Key.pkOfElem e)
      | .stRead i _ _ | .stWrite i _ _ _ => r.pks.contains (Key.enginePk i)
      | .core _ | .seed _ | .gone => false
    else (regionChans s r).any (waitsBehind s l)
  s.regions.foldl (fun s p => match p.2.launch with
    | some x => if p.2.live && held p.2 then noteCause s x 3 else s
    | none => s) s

/-- R375. A retrain ends, the link carries traffic, and what waited is sent again in order. -/
def execRetrainComplete (l : Nat) (s : State) : Out :=
  let k := s.link l
  .next (if k.training.isSome then (noteRetrain s l).putLink l { k with training := none, fails := 0, up := true } else s)

/-- Every region with a channel that waits behind the link rolls back with cause "link retrain" (R375). -/
def retrainRollbacks (s : State) (l : Nat) : State :=
  s.regions.foldl (fun s p =>
    if !p.2.runs then s
    else match (regionChans s p.2).find? (waitsBehind s l) with
      | some ch => rollback s p.1 (.linkRetrain (chanClass s ch) ch)
      | none => s) s

/-- The link after a retrain that did not finish: failed lanes on spare lanes, whole modules dropped, up on what remains, or down
after RTMAX failures or with fewer than eight modules left (R375). A port without a module drops the failed lanes. -/
def linkAfter (l : Nat) (k : Link) (failed modules : Nat) : Link :=
  let d2d := decide (32 ≤ l)
  let width := k.width - (if d2d then modules else failed)
  let fails := k.fails + 1
  { k with
    training := none, fails := fails, width := width
    spares := if d2d then sat 8 (k.spares + failed) else k.spares
    degraded := k.degraded || (if d2d then 0 < modules else 0 < failed)
    up := !(rtmax k ≤ fails || (if d2d then width < 8 else width == 0)) }

/-- The dies of a die-to-die link (R374). -/
def linkDies (l : Nat) : List Nat :=
  match l with
  | 32 => [0, 1] | 33 => [2, 3] | 34 => [0, 2] | 35 => [1, 3] | _ => []

/-- REPLACE-REQUESTED where a die-to-die link is degraded with no spare lane left (R407). -/
def noteSpares (s : State) (l : Nat) : State :=
  let k := s.link l
  if k.degraded && 4 * k.width ≤ k.spares then
    (linkDies l).foldl (fun s d => s.setDie d { s.die d with rr := true }) s
  else s

/-- R375. A retrain unfinished 20 µs after it began times out the channels that wait behind the link; then the controller maps
failed lanes, drops modules or takes the link down. A link that is down, disabled or isolated has the same effect as one that cannot
train (R373): what waits behind it times out again and again. -/
def execRetrainTimeout (l failed modules : Nat) (s : State) : Out :=
  let k := s.link l
  .next <| match k.training, k.downAt with
    | some t, _ =>
      if s.round < t + 24000 then s
      else
        let s := retrainRollbacks s l
        noteSpares (s.putLink l (linkAfter l (s.link l) failed modules)) l
    | none, some t =>
      if s.round < t + 24000 then s else (retrainRollbacks s l).setLink l { k with downAt := some s.round }
    | none, none => s

/-- R372. A link-level retry replays flits; the link counts it. -/
def execLinkLevelReplay (l : Nat) (s : State) : Out :=
  let k := s.link l
  .next (if linkExists l then s.setLink l { k with replays := sat 16 (k.replays + 1) } else s)

end Sys2Proof.Machine
end

