-- ==== Sys2Proof/Machine/MasonMem.lean ====
section
/-! DEFINITION. Machine/MasonMem: a mason core's addresses (R296, R297), its loads, stores and MAMO (R302, R303), fences (R304) and the
instruction cache (R305). -/

namespace Sys2Proof.Machine

/-! ### Addresses (R296) -/

/-- How an address ends before the access itself: a place, a wait for a migrating page (R188), or a refusal with its DETAIL. -/
inductive Addr where
  | place (p : Nat)
  | wait
  | bad (detail : Nat)
  /-- A table entry of the walk holds an uncorrectable error (R405). -/
  | ecc
  deriving DecidableEq, Repr

/-- A walk's outcome for an access that needs R or W (R188, R296). -/
def judgeWalk (va : Nat) (r w : Bool) : WalkRes → Addr
  | .notPresent _ => .bad Detail.notPresent
  | .malformed _ => .bad Detail.malformed
  | .ecc _ _ => .ecc
  | .leaf lv d =>
    if (r && !leafR d) || (w && !leafW d) then .bad Detail.perm
    else if w && leafM d then .wait
    else .place (leafPlace lv d va)

/-- A mason address resolved for an access that needs R or W; a leaf with M set is walked again until a walk finds M clear (R188). -/
def resolve (s : State) (c : Nat) (addr : Dword) (r w : Bool) : State × Addr :=
  let a := addr.toNat
  if addr.getLsbD 63 then
    (s, if a / 2 ^ 60 % 8 = 0 then .place (a % 2 ^ 60) else .bad Detail.space)
  else if a / 2 ^ 56 ≠ 0 then (s, .bad Detail.space)
  else
    let (s, x) := translate s c a
    match judgeWalk a r w x with
    | .wait => (s, judgeWalk a r w (walk s a ((s.core c).mctx.toNat % 4096)))
    | y => (s, y)

/-- The core runs in firmware mode (R287). -/
def Core.firmware (k : Core) : Bool := Pstat.mode k.pstat

/-! ### Accesses to a place -/

/-- A read of a place: its value, a request to another device, or a trap with its cause and DETAIL. -/
inductive ReadRes where
  | val (v : Nat)
  | remote
  | trap (cause detail : Nat)

/-- Space 3 or 4, or less than a word of space 5 or 6 (R296). -/
def badWidth (p width : Nat) : Bool :=
  Place.space p == 3 || Place.space p == 4 || ((Place.space p == 5 || Place.space p == 6) && width < 4)

/-- A place of another device can be reached: DEVNUM is valid (R364). -/
def reachable (s : State) : Bool := s.devnum.getLsbD 16

/-- A read of `width` bytes at a place that a core may reach (R296, R297, R299). -/
def readPlace (s : State) (p width : Nat) : ReadRes :=
  if badWidth p width then .trap Cause.load Detail.width
  else if !isOwn s p then if reachable s then .remote else .trap Cause.load Detail.space
  else if !placeValid s p then .trap Cause.load Detail.space
  else match Place.space p with
    | 5 => .val (cfgRead s p width)
    | 6 => .val (statusRead s p width)
    | _ => if s.eccAt p width then .trap Cause.ecc 0 else .val (s.read p width)

/-- A write of a place: the new state, a request to another device, or a trap. -/
inductive WriteRes where
  | done (s : State)
  | remote
  | trap (cause detail : Nat)

/-- A store of `width` bytes at a place that a core may reach; status space needs firmware mode (R287, R297, R299). -/
def writePlace (s : State) (fw : Bool) (p width v : Nat) : WriteRes :=
  if Place.space p = 6 && !fw then .trap Cause.priv 0
  else if badWidth p width then .trap Cause.store Detail.width
  else if !isOwn s p then if reachable s then .remote else .trap Cause.store Detail.space
  else if !placeValid s p then .trap Cause.store Detail.space
  else match Place.space p with
    | 5 => match cfgStore s p width v with
      | some s => .done s
      | none => .trap Cause.store Detail.live
    | 6 => .done (statusWrite s p width v)
    | _ => .done (s.write p width v)

/-! ### Loads and stores (R302)

A bank of tile memory serves mason cores after its other requests, one granule in a round (R177): a core whose granule it cannot serve
waits. -/

/-- The bank of a place serves a core, and links lead from its die to that of the place (R374, R375). -/
def State.coreTurn (s : State) (c p : Nat) : Bool := s.bankTurn p && (!isOwn s p || diesLinked s (coreDie c) (Place.die p))

/-- A value of `width` bytes as a register takes it. -/
def extend (signed : Bool) (width v : Nat) : Dword :=
  let m := 2 ^ (8 * width)
  if signed && m / 2 ≤ v % m then BitVec.ofInt 64 ((v % m : Nat) - (m : Int)) else BitVec.ofNat 64 (v % m)

/-- An access that a core waits for (R302, R303, R318). -/
def CorePend.ask (addr : Dword) (cause : Nat) (write : Bool) (dreg : BitVec 5) (width : Nat) (signed : Bool) (pu : BitVec 5) : CorePend :=
  { id := 0, addr := addr, cause := cause, write := write, dreg := dreg, width := width, signed := signed, pu := pu }

/-- A core sends a request to another device and waits for its answer (R367, R368). -/
def askRemote (s : State) (c place : Nat) (op : DltOp) (p : CorePend) : State :=
  let s := s.setCore c { s.core c with pend := some { p with id := s.nextTicket } }
  s.dltSend (Place.device place) place op (.core c)

/-- The word that a core executes, which PRIV and ILLEGAL report (R293). -/
def wordOf (op : Nat) (y : Body) : Dword := y.bits (BitVec.ofNat 7 op)

/-- The address of a trap: the word for PRIV, else the data address (R293). -/
def trapAt (cause detail : Nat) (addr word : Dword) : CoreRes :=
  .trap cause detail (if cause = Cause.priv then word else addr)

/-- A load of R302. -/
def runLoad (op : Nat) (x : MS) (width : Nat) (signed : Bool) (s : State) : Out :=
  let y := Body.ms x
  runCore op y s fun c k =>
    let ea := k.reg x.a + x.imm.signExtend 64
    if ea.toNat % width ≠ 0 then .trap Cause.align 0 ea
    else match resolve s c ea true false with
      | (_, .bad d) => .trap Cause.load d ea
      | (_, .ecc) => .trap Cause.ecc 0 ea
      | (s, .wait) => hold s c
      | (s, .place p) =>
        if !s.coreTurn c p then hold s c
        else match readPlace s p width with
          | .val v => .done (((s.takeTurn p).corrected p width).setCore c ((s.core c).setReg x.d (extend signed width v)).advance)
          | .remote => .done (askRemote s c p (.rd width) (CorePend.ask ea Cause.load true x.d width signed 0))
          | .trap cause d => trapAt cause d ea (wordOf op y)

/-- A store of R302. -/
def runStore (op : Nat) (x : MS) (width : Nat) (s : State) : Out :=
  let y := Body.ms x
  runCore op y s fun c k =>
    let ea := k.reg x.a + x.imm.signExtend 64
    let v := (k.reg x.d).toNat % 2 ^ (8 * width)
    if ea.toNat % width ≠ 0 then .trap Cause.align 0 ea
    else match resolve s c ea false true with
      | (_, .bad d) => .trap Cause.store d ea
      | (_, .ecc) => .trap Cause.ecc 0 ea
      | (s, .wait) => hold s c
      | (s, .place p) =>
        if !s.coreTurn c p then hold s c
        else match writePlace s k.firmware p width v with
          | .done s => .done ((s.takeTurn p).setCore c (s.core c).advance)
          | .remote => .done (askRemote s c p (.wr (leBytes width v) (List.replicate width true))
              (CorePend.ask ea Cause.store false 0 width false 0))
          | .trap cause d => trapAt cause d ea (wordOf op y)

/-- R302. Load byte, zero-extended. -/
def execLdb (x : MS) (s : State) : Out := runLoad 0x43 x 1 false s

/-- R302. Load halfword, zero-extended. -/
def execLdh (x : MS) (s : State) : Out := runLoad 0x44 x 2 false s

/-- R302. Load word, zero-extended. -/
def execLdw (x : MS) (s : State) : Out := runLoad 0x45 x 4 false s

/-- R302. Load dword. -/
def execLdd (x : MS) (s : State) : Out := runLoad 0x46 x 8 false s

/-- R302. Load byte, sign-extended. -/
def execLdbs (x : MS) (s : State) : Out := runLoad 0x47 x 1 true s

/-- R302. Load halfword, sign-extended. -/
def execLdhs (x : MS) (s : State) : Out := runLoad 0x48 x 2 true s

/-- R302. Load word, sign-extended. -/
def execLdws (x : MS) (s : State) : Out := runLoad 0x49 x 4 true s

/-- R302. Store byte. -/
def execStb (x : MS) (s : State) : Out := runStore 0x4A x 1 s

/-- R302. Store halfword. -/
def execSth (x : MS) (s : State) : Out := runStore 0x4B x 2 s

/-- R302. Store word. -/
def execStw (x : MS) (s : State) : Out := runStore 0x4C x 4 s

/-- R302. Store dword. -/
def execStd (x : MS) (s : State) : Out := runStore 0x4D x 8 s

/-! ### MAMO (R303) -/

/-- The new value of a MAMO form; `cmp` is the old D of CAS. -/
def mamoNew (f : Nat) (o v cmp : Dword) : Dword :=
  match f with
  | 0 => o + v
  | 1 => if v.slt o then v else o
  | 2 => if o.slt v then v else o
  | 3 => o &&& v
  | 4 => o ||| v
  | 5 => o ^^^ v
  | 6 => v
  | _ => if o = cmp then v else o

/-- MAMO needs R and W, and a place of memory (R296, R303). -/
def runMamo (f : BitVec 3) (x : EA) (s : State) : Out :=
  let y := Body.ea x f
  runCore 0x4E y s fun c k =>
    let a := k.reg x.a
    let v := k.reg x.b
    let cmp := k.reg x.d
    if a.toNat % 8 ≠ 0 then .trap Cause.align 0 a
    else match resolve s c a true true with
      | (_, .bad d) => .trap Cause.store d a
      | (_, .ecc) => .trap Cause.ecc 0 a
      | (s, .wait) => hold s c
      | (s, .place p) =>
        if Place.space p = 6 && !k.firmware then .trap Cause.priv 0 (wordOf 0x4E y)
        else if 3 ≤ Place.space p && Place.space p ≤ 6 then .trap Cause.store Detail.width a
        else if !isOwn s p then
          if reachable s then
            .done (askRemote s c p (.at_ f.toNat v cmp) (CorePend.ask a Cause.store true x.d 8 false x.pu))
          else .trap Cause.store Detail.space a
        else if !placeValid s p then .trap Cause.store Detail.space a
        else if !s.coreTurn c p then hold s c
        else if s.eccAt p 8 then .trap Cause.ecc 0 a
        else
          let o := BitVec.ofNat 64 (s.read p 8)
          let s := ((s.takeTurn p).corrected p 8).write p 8 (mamoNew f.toNat o v cmp).toNat
          coreWrite s c (s.core c) y o (o != 0)

/-- R303. Atomic add of a dword in memory. -/
def execMamoAdd (x : EA) (s : State) : Out := runMamo 0 x s

/-- R303. Atomic signed minimum. -/
def execMamoMin (x : EA) (s : State) : Out := runMamo 1 x s

/-- R303. Atomic signed maximum. -/
def execMamoMax (x : EA) (s : State) : Out := runMamo 2 x s

/-- R303. Atomic AND. -/
def execMamoAnd (x : EA) (s : State) : Out := runMamo 3 x s

/-- R303. Atomic OR. -/
def execMamoOr (x : EA) (s : State) : Out := runMamo 4 x s

/-- R303. Atomic XOR. -/
def execMamoXor (x : EA) (s : State) : Out := runMamo 5 x s

/-- R303. Atomic swap. -/
def execMamoSwap (x : EA) (s : State) : Out := runMamo 6 x s

/-- R303. Atomic compare-and-swap against the old D. -/
def execMamoCas (x : EA) (s : State) : Out := runMamo 7 x s

/-! ### Fences and the instruction cache (R304, R305) -/

/-- A core goes on to the next word with the PU field of the word done. -/
def coreNext (s : State) (c : Nat) (y : Body) : CoreRes := .done (s.setCore c ((s.core c).update y.pu false).advance)

/-- FENCE: the model performs every access of a core before its next instruction begins, so each form only goes on (log 7). -/
def runFence (f : BitVec 3) (x : EA) (s : State) : Out :=
  let y := Body.ea x f
  runCore 0x4F y s fun c _ => coreNext s c y

/-- R304. Orders all accesses before all accesses. -/
def execFenceAll (x : EA) (s : State) : Out := runFence 0 x s

/-- R304. Orders loads and MAMO before loads and MAMO. -/
def execFenceLd (x : EA) (s : State) : Out := runFence 1 x s

/-- R304. Orders stores and MAMO before stores and MAMO. -/
def execFenceSt (x : EA) (s : State) : Out := runFence 2 x s

/-- R304. Orders loads and MAMO before all accesses. -/
def execFenceAcq (x : EA) (s : State) : Out := runFence 3 x s

/-- R304. Orders all accesses before stores and MAMO. -/
def execFenceRel (x : EA) (s : State) : Out := runFence 4 x s

/-- R304. Orders all accesses and system operations before all of these. -/
def execFenceCfg (x : EA) (s : State) : Out := runFence 5 x s

/-- The line of the instruction cache that holds an address; an address that does not resolve has none, and no walk fills a
cache (R305, log 17). -/
def lineOf (s : State) (c : Nat) (addr : Dword) : Option Nat :=
  let a := addr.toNat
  if addr.getLsbD 63 then if a / 2 ^ 60 % 8 = 0 then some (a % 2 ^ 60 / 64) else none
  else if a / 2 ^ 56 ≠ 0 then none
  else
    let k := s.core c
    let ctx := k.mctx.toNat % 4096
    match (match findLeaf k.tlb a ctx with | some l => WalkRes.leaf l.level l.dword | none => walk s a ctx) with
    | .leaf lv d => some (leafPlace lv d a / 64)
    | _ => none

/-- R305. Drops the 64-byte line of the instruction cache that holds g[A]; never faults. -/
def execIinv (x : EA) (s : State) : Out :=
  let y := Body.ea x 0
  runCore 0x5B y s fun c k =>
    match lineOf s c (k.reg x.a) with
    | some l => coreNext (s.setCore c { k with icache := k.icache.erase l }) c y
    | none => coreNext s c y

/-- R305. Empties the instruction cache. -/
def execIinva (x : EA) (s : State) : Out :=
  let y := Body.ea x 1
  runCore 0x5B y s fun c k => coreNext (s.setCore c { k with icache := [] }) c y

end Sys2Proof.Machine
end

