-- ==== Sys2Proof/Machine/MasonSys.lean ====
section
/-! DEFINITION. Machine/MasonSys: the system operations of mason cores, but for keystones and engines (R308-R316). -/

namespace Sys2Proof.Machine

/-! ### Conventions (R308) -/

/-- D receives a result, and the core goes on. -/
def ret (s : State) (c : Nat) (y : Body) (v : Nat) : CoreRes :=
  let d := BitVec.ofNat 64 v
  coreWrite s c (s.core c) y d (d != 0)

/-- The codes of R308. -/
def codeBusy : Nat := 1
def codeArg : Nat := 2
def codeState : Nat := 3

/-- A system operation in format EA. -/
def runSys (op : Nat) (f : BitVec 3) (x : EA) (s : State) (k : Nat → Body → Dword → Dword → CoreRes) : Out :=
  let y := Body.ea x f
  runCore op y s fun c core => k c y (core.reg x.a) (core.reg x.b)

/-! ### Memory operands (R308) -/

/-- How the pieces of a memory operand resolve. -/
inductive Span where
  | ok (pieces : List (Nat × Nat))
  | wait
  | bad (cause detail : Nat) (addr : Dword)

/-- A piece of a memory operand stands in memory of this device or of a device that can be reached; space 3 or 4 has DETAIL WIDTH
(R296). -/
def pieceBad (s : State) (p : Nat) : Option Nat :=
  if Place.space p = 3 || Place.space p = 4 then some Detail.width
  else if isOwn s p then (if placeValid s p && Place.space p ≤ 4 then none else some Detail.space)
  else if reachable s then none
  else some Detail.space

/-- The pieces of n bytes from an address, page by page. -/
def spanOf (c : Nat) (w : Bool) : Nat → State → Dword → Nat → State × Span
  | 0, s, _, _ => (s, .ok [])
  | k + 1, s, addr, n =>
    if n = 0 then (s, .ok [])
    else
      let len := min n (65536 - addr.toNat % 65536)
      let cause := if w then Cause.store else Cause.load
      match resolve s c addr (!w) w with
      | (s, .bad d) => (s, .bad cause d addr)
      | (s, .ecc) => (s, .bad Cause.ecc 0 addr)
      | (s, .wait) => (s, .wait)
      | (s, .place p) =>
        match pieceBad s p with
        | some d => (s, .bad cause d addr)
        | none =>
          if !w && isOwn s p && s.eccAt p len then (s, .bad Cause.ecc 0 addr)
          else match spanOf c w k s (addr + BitVec.ofNat 64 len) (n - len) with
            | (s, .ok ps) => (s, .ok ((p, len) :: ps))
            | r => r

/-- n bytes from a place in blocks of 64 bytes, as requests to another device carry them (R367). -/
def blocksOf : Nat → Nat → Nat → List (Nat × Nat)
  | 0, _, _ => []
  | k + 1, p, n => if n = 0 then [] else let m := min n (64 - p % 64); (p, m) :: blocksOf k (p + m) (n - m)

/-- The pieces of an operand, those of other devices in blocks. -/
def operandParts (s : State) (ps : List (Nat × Nat)) : List (Nat × Nat) :=
  ps.flatMap fun p => if isOwn s p.1 then [p] else blocksOf (p.2 / 64 + 2) p.1 p.2

/-- The granules of tile memory that an operand touches may be served in this round (R177), and links lead to its dies (R374); an
operation moves its whole operand in one round (log 23). -/
def operandTurn (s : State) (c : Nat) (ps : List (Nat × Nat)) : Bool :=
  ps.all fun p => (!isOwn s p.1 || diesLinked s (coreDie c) (Place.die p.1)) && (!isTileMem s p.1 || (List.range (p.2 / 16 + 2)).all fun k => p.1 % 16 + p.2 ≤ 16 * k || s.bankTurn (p.1 + 16 * k))

/-- The banks that an operand touches serve it. -/
def takeTurns (s : State) (ps : List (Nat × Nat)) : State :=
  ps.foldl (fun s p => if isTileMem s p.1 then (List.range (p.2 / 4096 + 1)).foldl (fun s k => s.takeTurn (p.1 + 4096 * k)) s
    else s.takeTurn p.1) s

/-- What another device has sent or confirmed of a part, for the word at PC. -/
def operandAt (s : State) (c : Nat) (p : Nat × Nat) : Option (List Byte) :=
  ((s.core c).operands.find? fun o => o.1 == p.1 && o.2.length == p.2).map Prod.snd

/-- The core asks another device for a part of an operand, or for its write. -/
def askOperand (s : State) (c place : Nat) (op : DltOp) (addr : Dword) (cause : Nat) : CoreRes :=
  .done (askRemote s c place op { CorePend.ask addr cause false 0 8 false 0 with oper := true })

/-- An operation has moved its operand: the banks that it touched have served it. -/
def CoreRes.served (ps : List (Nat × Nat)) : CoreRes → CoreRes
  | .done s => .done (takeTurns s ps)
  | r => r

/-- An operation on n bytes that it reads at an address. -/
def withRead (s : State) (c : Nat) (addr : Dword) (n : Nat) (k : State → List Byte → CoreRes) : CoreRes :=
  match spanOf c false (n / 65536 + 2) s addr n with
  | (s, .ok ps) =>
    let parts := operandParts s ps
    match parts.find? fun p => !isOwn s p.1 && (operandAt s c p).isNone with
    | some p => askOperand s c p.1 (.rd p.2) addr Cause.load
    | none =>
      if !operandTurn s c ps then hold s c
      else (k (ps.foldl (fun s p => s.corrected p.1 p.2) s)
        (parts.flatMap fun p => if isOwn s p.1 then s.bytes p.1 p.2 else (operandAt s c p).getD [])).served ps
  | (s, .wait) => hold s c
  | (_, .bad cause d a) => .trap cause d a

/-- Bytes dealt out to the parts of an operand. -/
def dealBytes : List (Nat × Nat) → List Byte → List (Nat × List Byte)
  | [], _ => []
  | p :: ps, bs => (p.1, bs.take p.2) :: dealBytes ps (bs.drop p.2)

/-- An operation that stores bytes at an address; it goes on once other devices have confirmed their parts. -/
def withWrite (s : State) (c : Nat) (addr : Dword) (bytes : List Byte) (k : State → CoreRes) : CoreRes :=
  match spanOf c true (bytes.length / 65536 + 2) s addr bytes.length with
  | (s, .ok ps) =>
    let parts := dealBytes (operandParts s ps) bytes
    match parts.find? fun p => !isOwn s p.1 && !(s.core c).operands.contains p with
    | some p => askOperand s c p.1 (.wr p.2 (List.replicate p.2.length true)) addr Cause.store
    | none =>
      if !operandTurn s c ps then hold s c
      else (k (parts.foldl (fun s p => if isOwn s p.1 then s.setBytes p.1 p.2 else s) s)).served ps
  | (s, .wait) => hold s c
  | (_, .bad cause d a) => .trap cause d a

/-! ### CFG (R309) -/

/-- The place that an address names without translation, if its form is that of a place (R296). -/
def placeArg (a : Dword) : Option Nat := if a.getLsbD 63 && a.toNat / 2 ^ 60 % 8 = 0 then some (a.toNat % 2 ^ 60) else none

/-- A tile place: UNIT, OFFSET, PLANE and S zero (R309). -/
def tileArg (s : State) (a : Dword) : Option Nat :=
  (placeArg a).bind fun p => if Place.space p = 5 && isOwn s p && p % 2 ^ 33 = 0 then some (Place.tile p) else none

/-- A CFG access to status space, which needs firmware mode (R287). -/
def statusAccess (a : Dword) : Bool := match placeArg a with | some p => Place.space p == 6 | none => false

/-- R309. Sends a dword of a tile block to a tile's configuration port for the selected plane. -/
def execCfgw (x : EA) (s : State) : Out :=
  runSys 0x53 0 x s fun c y a b =>
    let k := s.core c
    if statusAccess a && !k.firmware then .trap Cause.priv 0 (wordOf 0x53 y)
    else match tileArg s a with
      | none => ret s c y codeArg
      | some t =>
        let pk := t * 4 + k.selPlane
        if planeBusy s pk then ret s c y codeState else ret (portWrite s pk b) c y 0

/-- A CFG read of a configuration place as LDD reads it; a status place needs firmware mode. -/
def cfgAccess (s : State) (c : Nat) (y : Body) (a : Dword) (f : State → Nat → Nat) : CoreRes :=
  if a.toNat % 8 ≠ 0 then .trap Cause.align 0 a
  else match resolve s c a true false with
    | (_, .bad d) => .trap Cause.load d a
    | (_, .ecc) => .trap Cause.ecc 0 a
    | (s, .wait) => hold s c
    | (s, .place p) =>
      if Place.space p = 6 && !(s.core c).firmware then .trap Cause.priv 0 (wordOf 0x53 y)
      else match readPlace s p 8 with
        | .val v => if 5 ≤ Place.space p then ret s c y (if Place.space p = 5 then f s p else v) else .trap Cause.load Detail.space a
        | .remote => .done (askRemote s c p (.rd 8) (CorePend.ask a Cause.load true y.d 8 false y.pu))
        | .trap cause d => .trap cause d a

/-- R309. Reads a configuration place. -/
def execCfgr (x : EA) (s : State) : Out :=
  runSys 0x53 1 x s fun c y a _ => cfgAccess s c y a fun s p => cfgRead s p 8

/-- A region key that holds nothing. -/
def freeRegionKey (s : State) : Nat := ((List.range (s.regions.length + 1)).find? fun k => !(s.region k).live).getD 0

/-- Regions that share a plane of a tile with a region. -/
def overlapping (s : State) (r : Region) : List Nat :=
  (s.regions.filter fun p => p.2.live && p.2.plane == r.plane && p.2.pks.any r.pks.contains).map Prod.fst

/-- A committed course of no launch begins: its wave starts. -/
def startCommit (s : State) (rk : Nat) (r : Region) : State :=
  s.setRegion rk { r with
    live := true, commitHop := some 0, mkRounds := 2400, mkTokens := 4096
    rmap := (List.range r.h).map (r.prow + ·), cmap := (List.range r.w).map (r.pcol + ·) }

/-- R309. Checks a region's shadows and commits them; returns when the wave ends. -/
def execCfgcommit (x : EA) (s : State) : Out :=
  runSys 0x53 2 x s fun c y a _ =>
    match descriptor a with
    | none => ret s c y codeArg
    | some r =>
      match (s.core c).busyTo with
      | some rk =>
        if (s.region rk).commitHop.isSome then hold s c
        else ret (s.setCore c { s.core c with busyTo := none }) c y 0
      | none =>
        let old := overlapping s r
        if old.any fun o => (s.region o).launch.isSome || (s.region o).pks.any fun pk => !(s.plane pk).drn then ret s c y codeState
        else
          let (s, ok) := commitCheck s r
          if !ok then ret s c y codeState
          else
            let s := old.foldl freeRegion s
            let rk := freeRegionKey s
            .done ((startCommit s rk r).setCore c { s.core c with busyTo := some rk })

/-- R309. Discards the selected plane's shadow at every tile of a region. -/
def execCfgabort (x : EA) (s : State) : Out :=
  runSys 0x53 3 x s fun c y a _ =>
    match descriptor a with
    | none => ret s c y codeArg
    | some r =>
      let pks := ({ r with plane := (s.core c).selPlane } : Region).livePks s
      ret (pks.foldl dropShadow s) c y 0

/-- R309. Reads the configuration-port status word of a tile in the selected plane. -/
def execCfgstat (x : EA) (s : State) : Out :=
  runSys 0x53 4 x s fun c y a _ =>
    if statusAccess a && !(s.core c).firmware then .trap Cause.priv 0 (wordOf 0x53 y)
    else match tileArg s a with
    | none => ret s c y codeArg
    | some t => ret s c y (tileWord s (t * 4 + (s.core c).selPlane) 4).toNat

/-- R309. Selects a plane; the result is the previous one. -/
def execPlanesel (x : EA) (s : State) : Out :=
  runSys 0x53 5 x s fun c y a _ =>
    if a.toNat / 4 ≠ 0 then ret s c y codeArg
    else
      let k := s.core c
      ret (s.setCore c { k with selPlane := a.toNat }) c y k.selPlane

/-- R309. Reads an item of the snapshot shadow of the last complete cut. -/
def execSnaprd (x : EA) (s : State) : Out :=
  runSys 0x53 6 x s fun c y a _ =>
    cfgAccess s c y a fun s p => readWords (snapWord s (CfgPlace.pk p) (CfgPlace.unit p)) (CfgPlace.off p) 8

/-- R309. Rolls a frozen course region back to its last complete cut, after a REL that is due (R344). -/
def execRollbk (x : EA) (s : State) : Out :=
  runSys 0x53 7 x s fun c y a _ =>
    match (descriptor a).bind (regionNamed s) with
    | none => ret s c y codeArg
    | some rk =>
      if !(s.region rk).frozen then ret s c y codeState
      else if (s.region rk).relDue.isSome then hold s c
      else ret (rollback s rk .firmware) c y 0

/-! ### RGN (R310) -/

/-- An operation on a course region. -/
def runRegion (f : BitVec 3) (x : EA) (s : State) (k : Nat → Body → Nat → Dword → CoreRes) : Out :=
  runSys 0x54 f x s fun c y a b =>
    match (descriptor a).bind (regionNamed s) with
    | none => ret s c y codeArg
    | some rk => k c y rk b

/-- R310. Freezes a region once no commit wave runs; completes when results in flight have landed. -/
def execFreeze (x : EA) (s : State) : Out :=
  runRegion 0 x s fun c y rk _ =>
    if (s.region rk).commitHop.isSome then hold s c
    else
      let s := freezeRegion s rk
      if settled s (s.region rk) then ret s c y 0 else hold s c

/-- R310. Thaws a frozen region. -/
def execThaw (x : EA) (s : State) : Out :=
  runRegion 1 x s fun c y rk _ => if (s.region rk).frozen then ret (thawRegion s rk) c y 0 else ret s c y codeState

/-- R310, R348. Writes a frozen region's state to memory. -/
def execReadout (x : EA) (s : State) : Out :=
  runRegion 2 x s fun c y rk b =>
    if !(s.region rk).frozen then ret s c y codeState
    else
      let bytes := dwordBytes (readoutImage s (s.region rk))
      withWrite s c b bytes fun s => ret s c y bytes.length

/-- Dwords of bytes. -/
def bytesDwords (bs : List Byte) : List Dword := (List.range (bs.length / 8)).map fun k => BitVec.ofNat 64 (leNat ((bs.drop (8 * k)).take 8))

/-- R310, R350. Writes a READOUT image back into a region; a wrong MAGIC, or a length that no image has, shows in its header. -/
def execRestore (x : EA) (s : State) : Out :=
  runSys 0x54 3 x s fun c y a b =>
    match descriptor a with
    | none => ret s c y codeArg
    | some r => withRead s c b 64 fun s head =>
        let n := ((bytesDwords head).getD 4 0).toNat
        if (bytesDwords head).getD 0 0 ≠ 0x44535244 || n < 64 || n % 8 ≠ 0 then ret s c y codeArg
        else withRead s c b n fun s bs => let (s, v) := restoreFrom s r (bytesDwords bs); ret s c y v

/-- R310, R352. Sends deadlock probes through a region. -/
def execProbe (x : EA) (s : State) : Out :=
  runRegion 4 x s fun c y rk _ => let (s, found) := probeRegion s rk; ret s c y found.toNat

/-- R310. Asks a region's sources to send DRAIN at once. -/
def execDrainreq (x : EA) (s : State) : Out :=
  runRegion 5 x s fun c y rk _ =>
    let r := s.region rk
    if r.frozen then ret s c y codeState else ret (s.setRegion rk { r with drainReq := true }) c y 0

/-! ### CRC (R311) -/

/-- CRC of the n low bytes of a register, lowest first. -/
def crcReg (n : Nat) (c : Word) (v : Dword) : Word := (leBytes n v.toNat).foldl crcByte c

def runCrc (f : BitVec 3) (n : Nat) (x : EA) (s : State) : Out :=
  runSys 0x55 f x s fun c y a _ => ret s c y (crcReg n (((s.core c).reg x.d).setWidth 32) a).toNat

/-- R311. CRC32C of one byte. -/
def execCrcb (x : EA) (s : State) : Out := runCrc 0 1 x s

/-- R311. CRC32C of two bytes. -/
def execCrch (x : EA) (s : State) : Out := runCrc 1 2 x s

/-- R311. CRC32C of four bytes. -/
def execCrcw (x : EA) (s : State) : Out := runCrc 2 4 x s

/-- R311. CRC32C of eight bytes. -/
def execCrcd (x : EA) (s : State) : Out := runCrc 3 8 x s

/-! ### SEC (R312) -/

/-- R312. Empties the sponge, or absorbs up to eight bytes. -/
def execShka (x : EA) (s : State) : Out :=
  runSys 0x56 0 x s fun c y a b =>
    let k := s.core c
    let n := b.toNat
    if 8 < n || (n ≠ 0 && k.sponge.squeezed ≠ 0) then .trap Cause.illegal 0 (wordOf 0x56 y)
    else
      let sp : Sponge := if n = 0 then {} else { k.sponge with absorbed := k.sponge.absorbed ++ leBytes n a.toNat }
      coreNext (s.setCore c { k with sponge := sp }) c y

/-- R312. Squeezes the next eight bytes of SHAKE256. -/
def execShks (x : EA) (s : State) : Out :=
  runSys 0x56 1 x s fun c y _ _ =>
    let k := s.core c
    let n := k.sponge.squeezed
    let out := (shake256 (8 * n + 8) k.sponge.absorbed).drop (8 * n)
    ret (s.setCore c { k with sponge := { k.sponge with squeezed := n + 1 } }) c y (leNat out)

/-- R312. Verifies an XMSS signature that a descriptor names. -/
def execSigv (x : EA) (s : State) : Out :=
  runSys 0x56 2 x s fun c y a _ =>
    withRead s c a 64 fun s bs =>
      let d := bytesDwords bs
      let g (k : Nat) : Dword := d.getD k 0
      match Xmss.height (g 3).toNat with
      | none => ret s c y codeArg
      | some h =>
        if (d.drop 4).any (· != 0) then ret s c y codeArg
        else withRead s c (g 0) 64 fun s msg =>
          withRead s c (g 1) (Xmss.sigBytes h) fun s sig =>
            withRead s c (g 2) 68 fun s pk => ret s c y (Xmss.sigv (g 3).toNat msg sig pk)

/-- R312. Reads the security status. -/
def execSecst (x : EA) (s : State) : Out := runSys 0x56 3 x s fun c y _ _ => ret s c y (secst s).toNat

/-! ### WQ (R313) -/

/-- A queue operation on a queue number below 1,024. -/
def runQueue (f : BitVec 3) (x : EA) (s : State) (k : Nat → Body → Nat → Dword → CoreRes) : Out :=
  runSys 0x57 f x s fun c y a b => if 1024 ≤ a.toNat then ret s c y codeArg else k c y a.toNat b

/-- R313. Moves the head entry of a mason-serviced queue to memory. -/
def execWqpop (x : EA) (s : State) : Out :=
  runQueue 0 x s fun c y q b =>
    let w := s.queue q
    if !w.ms then ret s c y codeArg
    else if b.toNat % 64 ≠ 0 then .trap Cause.align 0 b
    else if w.len = 0 then ret s c y 0
    else withWrite s c b (s.bytes (w.slot 0) 64) fun s => ret (wqDrop s q) c y 1

/-- R313. Appends the entry at g[B] to a queue. -/
def execWqpush (x : EA) (s : State) : Out :=
  runQueue 1 x s fun c y q b =>
    if b.toNat % 64 ≠ 0 then .trap Cause.align 0 b
    else withRead s c b 64 fun s bs =>
      let (s, ok) := wqAppend s q bs (!(s.core c).firmware)
      ret s c y (if ok then 0 else 1)

/-- R313. Reads the state of a queue. -/
def execWqstat (x : EA) (s : State) : Out :=
  runQueue 2 x s fun c y q _ =>
    let w := s.queue q
    ret s c y (w.cap * 2 ^ 32 + w.ms.toNat * 2 ^ 17 + w.priv.toNat * 2 ^ 16 + w.len)

/-! ### EVT (R314) -/

/-- The four dwords of a record (R353). -/
def EvRec.dwords (r : EvRec) : List Dword :=
  [BitVec.ofNat 64 (r.type * 2 ^ 56 + r.code % 256 * 2 ^ 48 + r.id % 65536 * 2 ^ 32 + r.place.toNat), r.cyc, r.d2, r.d3]

/-- The head record leaves a queue; a held record takes the room (R355). -/
def popEvent (s : State) (die : Nat) : State :=
  let q := s.evq die
  let q := { q with recs := q.recs.tail }
  match q.held with
  | r :: rest =>
    let (q', ok) := q.enter r (lostRec s)
    s.setEvq die (if ok then { q' with held := rest } else q')
  | [] => s.setEvq die q

/-- R314. Moves the head record of the die's event queue to memory. -/
def execEvpop (x : EA) (s : State) : Out :=
  runSys 0x5C 0 x s fun c y a _ =>
    if a.toNat % 32 ≠ 0 then .trap Cause.align 0 a
    else match (s.evq (coreDie c)).recs with
      | [] => ret s c y 0
      | r :: _ => withWrite s c a (dwordBytes r.dwords) fun s => ret (popEvent s (coreDie c)) c y 1

/-- The status that a failed wait gives its launch (R337): a pin, an indexed walk that found no page or a malformed table (R188), or a
spill area that was full. -/
def failStatus (type : Nat) : Nat :=
  match type with
  | 5 => 4 | 6 | 7 => 5 | 8 => 6 | _ => 7

/-- The pre-empted launch whose saved course waits under an identifier, with that course. -/
def awayWaiting (s : State) (id : Nat) : Option (Nat × Nat × Saved) :=
  s.launches.findSome? fun p => p.2.saved.findSome? fun k =>
    (s.saved.find? fun v => v.1 == k.1 && v.2.region.waitEv == some id).map fun v => (p.1, v.1, v.2)

/-- A record that waits is answered: action 0 resumes, action 1 fails the launch (R314). Whether one waited under the
identifier is the second component. -/
def answerEvent (s : State) (id action : Nat) : State × Bool :=
  match s.regions.find? fun p => p.2.live && p.2.waitEv == some id with
  | some (rk, r) =>
    let s := s.setRegion rk { r with waitEv := none }
    if action = 0 then (thawRegion s rk, true)
    else match r.launch with
      | some l => (endLaunch s l (failStatus r.waitType) 0 0, true)
      | none => (freeRegion s rk, true)
  | none =>
    match s.launches.find? fun p => p.2.phase == .pinWait id with
    | some (l, v) =>
      if action = 0 then (s.setLaunch l { v with phase := .waiting }, true)
      else (endLaunch s l (failStatus v.waitType) 0 0, true)
    | none =>
      match awayWaiting s id with
      | some (l, key, v) =>
        let v := { v with region := { v.region with waitEv := none, frozen := false } }
        if action = 0 then ({ s with saved := s.saved.insert key v }, true)
        else (endLaunch s l (failStatus v.region.waitType) 0 0, true)
      | none => (s, false)

/-- R314. Answers a record that waits for firmware. -/
def execEvack (x : EA) (s : State) : Out :=
  runSys 0x5C 1 x s fun c y a b =>
    if 1 < b.toNat then ret s c y codeArg
    else
      let (s, found) := answerEvent s a.toNat b.toNat
      ret s c y (if found then 0 else codeArg)

/-- R314. Reads EVQ. -/
def execEvstat (x : EA) (s : State) : Out :=
  runSys 0x5C 2 x s fun c y _ _ =>
    let n := (s.evq (coreDie c)).recs.length
    ret s c y ((if evqCap ≤ n then 2 ^ 31 else 0) + n)

/-! ### LINK (R315) -/

/-- R315. Reads the status word of a link. -/
def execLkst (x : EA) (s : State) : Out :=
  runSys 0x58 0 x s fun c y a _ =>
    if linkExists a.toNat then ret s c y (linkWord a.toNat (s.link a.toNat)).toNat else ret s c y codeArg

/-- R315. Requests a retrain. -/
def execLkrt (x : EA) (s : State) : Out :=
  runSys 0x58 1 x s fun c y a _ =>
    let l := a.toNat
    if !linkExists l then ret s c y codeArg
    else if (s.link l).training.isSome then ret s c y 1
    else ret (startRetrain s l) c y 0

/-- R315, R373. Writes the control word of a link; firmware mode only. -/
def execLkctl (x : EA) (s : State) : Out :=
  runSys 0x58 2 x s fun c y a b =>
    if !(s.core c).firmware then .trap Cause.priv 0 (wordOf 0x58 y)
    else if !linkExists a.toNat || b.toNat / 65536 ≠ 0 then ret s c y codeArg
    else ret (linkCtl s a.toNat b) c y 0

/-! ### PMAP (R316) -/

/-- A cached leaf that TLBI names. -/
def tlbiHits (va sel : Nat) (l : Leaf) : Bool :=
  (sel / 2 ^ 12 % 2 == 1 || l.va / 2 ^ pageBits l.level == va / 2 ^ pageBits l.level)
    && (if leafG l.dword then sel / 2 ^ 14 % 2 == 1 else sel / 2 ^ 13 % 2 == 1 || l.ctx == sel % 4096)

/-- Every matching leaf leaves every translation cache of the package. -/
def dropLeaves (s : State) (va sel : Nat) : State :=
  { s with
    blockTlb := (s.blockTlb.map fun b => (b.1, b.2.filter fun l => !tlbiHits va sel l)).filter fun b => !b.2.isEmpty
    cores := s.cores.foldl (fun (m : Sparse Core) k =>
      m.put {} k.1 { k.2 with tlb := k.2.tlb.filter fun l => !tlbiHits va sel l }) s.cores }

/-- R316. Drops translations from every cache. -/
def execTlbi (x : EA) (s : State) : Out :=
  runSys 0x59 0 x s fun c y a b =>
    if b.toNat / 2 ^ 15 ≠ 0 then ret s c y codeArg else ret (dropLeaves s a.toNat b.toNat) c y 0

/-- R316. Walks a virtual address without filling a cache. -/
def execPwalk (x : EA) (s : State) : Out :=
  runSys 0x59 1 x s fun c y a b =>
    let va := a.toNat % 2 ^ 56
    let ctx := b.toNat % 4096
    match walk s va ctx with
    | .leaf lv d => ret (walkCorrected s va ctx) c y (leafPlace lv d va)
    | .notPresent _ => ret (walkCorrected s va ctx) c y (2 ^ 60)
    | .malformed _ => ret (walkCorrected s va ctx) c y (2 ^ 61)
    | .ecc _ _ => .trap Cause.ecc 0 a

/-- The device keystone that a keystone place names: its range, mapped. -/
def ksArg (s : State) (a : Dword) : Option Nat :=
  (placeArg a).bind fun p =>
    let ks := 16384 + Place.tile p
    if Place.space p = 4 && isOwn s p && p % 2 ^ 33 = 0 && (s.kstone ks).mapped then some ks else none

/-- R316. Moves a device keystone to a new home and returns when FWD is set (R214). -/
def execMigr (x : EA) (s : State) : Out :=
  runSys 0x59 2 x s fun c y a b =>
    match (s.core c).busyTo with
    | some old =>
      if (s.kstone old).fwd.isSome then ret (s.setCore c { s.core c with busyTo := none }) c y 0 else hold s c
    | none =>
      match ksArg s a, ksArg s b with
      | some old, some new =>
        let k := s.kstone old
        if old = new || k.words ≠ (s.kstone new).words then ret s c y codeArg
        else if k.fwd.isSome || k.hold then ret s c y codeState
        else
          let s := s.setKstone old { k with hold := true, copyTo := some new }
          .done (s.setCore c { s.core c with busyTo := some old })
      | _, _ => ret s c y codeArg

/-- R316. Reads the forwarding state of a keystone. -/
def execMigq (x : EA) (s : State) : Out :=
  runSys 0x59 3 x s fun c y a _ =>
    match ksArg s a with
    | some ks =>
      let k := s.kstone ks
      ret s c y (k.hold.toNat * 2 ^ 17 + k.fwd.isSome.toNat * 2 ^ 16 + k.waitQ.length)
    | none => ret s c y codeArg

end Sys2Proof.Machine
end

