-- ==== Sys2Proof/Machine/Launch.lean ====
section
/-! DEFINITION. Machine/Launch: the frame table (R15, R338) and the launch sequencer: queue heads (R13, R333), admission (R14, R335),
pre-emption (R351), the configuration-complete wave, seeds (R336), the courses and the end of a graph (R340, R341), and lateness
(R24, R334). -/

namespace Sys2Proof.Machine

/-! ### The frame table (R338) -/

/-- The valid entries of a frame table in ascending order. -/
def validEntries (d : DieState) : List Nat := (d.frame.filter fun p => p.2.getLsbD 63).map Prod.fst

/-- The rounds that an entry grants. -/
def entryRun (d : DieState) (k : Nat) : Nat := (d.frame.get 0 k).toNat % 65536 + 1

/-- The entry whose run holds position n of a turn through the entries. -/
def entryAt (d : DieState) : List Nat → Nat → Option Nat
  | [], _ => none
  | k :: ks, n => if n < entryRun d k then some k else entryAt d ks (n - entryRun d k)

/-- The entry of a round: the valid entries take their runs in turn, counted from round 0 of the device, so that the tables of two dies
that are equal grant the same plane (R15, R338, log 86). -/
def roundEntry (d : DieState) (round : Nat) : Option Nat :=
  let ks := validEntries d
  entryAt d ks (round % (ks.foldl (fun n k => n + entryRun d k) 0))

/-- A running launch whose course loses this round at one of its tiles to a context of higher priority (R334). -/
def outranked (s : State) (l : Launch) : Bool :=
  l.region.any fun rk =>
    let r := s.region rk
    r.runs && r.tiles.any fun t => match activePlane s t with
      | some p => p != r.plane && (match (s.regionOf (t * 4 + p)).bind fun k => (s.region k).launch with
        | some m => l.prio < (s.launch m).prio
        | none => false)
      | none => false

/-- R338. The frame table takes the entry of the round, and the active planes change with it; launches that lost the
round that ends to a higher priority take the cause of R334. -/
def execFrameTableStep (die : Nat) (s : State) : Out :=
  let lost := (s.launches.filter fun p => p.2.die == die && p.2.phase == .running && p.2.cause == 0 && outranked s p.2).map Prod.fst
  let s := lost.foldl (fun s l => noteCause s l 4) s
  .next <| match roundEntry (s.die die) s.round with
    | some k => s.setDie die { s.die die with cur := k }
    | none => s

/-- A context enters the frame tables of its dies: an entry of one round, where no valid entry grants its plane yet (log 28). -/
def enterFrame (s : State) (r : Region) : State :=
  ((r.tiles.map Key.dieOfTile).eraseDups).foldl (fun s die =>
    let d := s.die die
    if (validEntries d).any fun k => ((d.frame.get 0 k).extractLsb' 16 2).toNat == r.plane then s
    else match (List.range 64).find? fun k => !(d.frame.get 0 k).getLsbD 63 with
      | some k => s.setDie die { d with frame := d.frame.put 0 k (BitVec.ofNat 64 (2 ^ 63 + r.plane * 65536)) }
      | none => s) s

/-! ### Queue heads (R13, R333) -/

/-- Dword k of the entry at a queue's head. -/
def headDword (s : State) (q k : Nat) : Nat := s.read ((s.queue q).slot 0 + 8 * k) 8

/-- A completion queue is full and its die holds 64 records: no launch with that queue is admitted (R337). -/
def cqShut (s : State) (die cq : Nat) : Bool :=
  decide ((s.queue cq).cap ≤ (s.queue cq).len) && decide (64 ≤ (s.die die).heldCpl.length)

def cqBlocked (s : State) (x : Launch) : Bool := cqShut s x.die x.cq

/-- A queue of a die whose head the launch sequencer has not taken yet, and may take (log 84). -/
def headFresh (s : State) (die q : Nat) : Bool :=
  let w := s.queue q
  w.cap != 0 && w.len != 0 && !w.ms && w.die == die && !(s.launches.any fun p => p.2.queue == q && isWaitingPhase p.2.phase)
    && !cqShut s die (headDword s q 3 % 1024)

/-- The next head: the highest priority, then the lowest queue number (R13). -/
def nextHead (s : State) (die : Nat) : Option Nat :=
  let qs := s.queues.keys.filter (headFresh s die)
  let prio (q : Nat) : Nat := headDword s q 0 / 2 ^ 29 % 8
  qs.foldl (fun (b : Option Nat) q => match b with
    | none => some q
    | some x => if prio x < prio q then some q else b) none

/-- A zero field of an entry is not zero (R333). -/
def entryBad (s : State) (q : Nat) : Bool :=
  let d (k : Nat) : Nat := headDword s q k
  d 0 / 2 ^ 44 != 0 || d 0 / 2 ^ 12 % 2 ^ 13 != 0 || d 1 / 2 ^ 56 != 0 || d 2 / 2 ^ 32 != 0 || d 3 / 2 ^ 10 != 0
    || d 5 != 0 || d 6 != 0 || d 7 != 0

/-- The launch that an entry asks for. -/
def launchOf (s : State) (die q : Nat) : Launch :=
  let d (k : Nat) : Nat := headDword s q k
  { phase := .waiting, die := die, queue := q, handle := d 0 / 2 ^ 32 % 4096, prio := d 0 / 2 ^ 29 % 8, lclass := d 0 / 2 ^ 26 % 8
    relaxed := d 0 / 2 ^ 25 % 2 == 1, ctx := d 0 % 4096, seedVa := d 1 % 2 ^ 56, seedN := d 2 % 2 ^ 32, cq := d 3 % 1024
    user := BitVec.ofNat 64 (d 4), start := BitVec.ofNat 64 ((s.queue q).headAt.getD s.round)
    fromService := (s.queue q).service.headD false }

/-- The lowest key that holds no launch. -/
def freeLaunchKey (s : State) : Nat := ((List.range (s.launches.length + 1)).find? fun k => (s.launch k).phase == .none).getD 0

/-- R13. The launch sequencer of a die takes the best queue head and checks its fields, its handle and its relaxed flag: in this order
where several statuses apply, one head a round, first tried for a region in the next round (DESIGN CHOICE, log 84). Held
completion records go first where their queues have room. -/
def execWorkQueueTake (die : Nat) (s : State) : Out :=
  let s := flushHeld s die
  .next <| match nextHead s die with
    | none => s
    | some q =>
      let l := freeLaunchKey s
      let bad := entryBad s q
      let x := launchOf s die q
      let s := s.setLaunch l x
      if bad then endLaunch s l 12 0 0
      else if !(s.imageDir.get {} x.handle).v then endLaunch s l 1 0 0
      else if x.relaxed && !(s.queue q).priv && !x.fromService then endLaunch s l 2 0 0
      else s

/-! ### Where a launch may go (R14, R181, R338, R375) -/

/-- The course of a region has passed DRN at every usable tile and every bound engine, and the commands that its request ports
released there have been applied (R208). -/
def courseDone (s : State) (r : Region) : Bool :=
  r.live && r.running && (r.livePks s).all (fun pk => (s.plane pk).drn) && r.units.all (unitLeft s r)
    && r.units.all (fun u => match u with | .elem e => portIdle (s.elem e) | _ => true)

/-- Regions that stand in the same plane of some tile. -/
def overlap (a b : Region) : Bool :=
  a.plane == b.plane && a.prow < b.prow + b.h && b.prow < a.prow + a.h && a.pcol < b.pcol + b.w && b.pcol < a.pcol + a.w

/-- Courses of no launch that have drained: they hold no plane any more. -/
def spentRegions (s : State) (r : Region) : List Nat :=
  (s.regions.filter fun p => p.2.live && overlap p.2 r && p.2.launch.isNone && courseDone s p.2).map Prod.fst

/-- A plane is free at every tile of a region. -/
def planeFree (s : State) (r : Region) : Bool :=
  s.regions.all fun p => !(p.2.live && overlap p.2 r) || (p.2.launch.isNone && courseDone s p.2)

/-- The frame tables of a region's dies are equal, and no link between them is down. -/
def diesAgree (s : State) (r : Region) : Bool :=
  let dies := (r.tiles.map Key.dieOfTile).eraseDups
  dies.all fun a => dies.all fun b =>
    decide ((s.die a).frame = (s.die b).frame) && (linksBetween a b).all fun l => (s.link l).on

/-- The bank mask that a block declares. -/
def blockMask (b : Block) : Nat :=
  match parseItems b.body.length b.body with
  | some its => its.foldl (fun m it => if it.unit = 23 && it.off = 0 then (it.data.headD 0).toNat % 65536 else m) 0
  | none => 0

/-- Every bank of the masks is free: no course holds it and no scrub is under way. -/
def banksFree (s : State) (r : Region) (m : Maps) (c : CourseRec) : Bool :=
  (r.livePks s).all fun pk =>
    let t := s.tile (pk / 4)
    let mask := blockMask (blockFor m c (pk / 4))
    (List.range 16).all fun b => !mask.testBit b || ((t.owner.get none b).isNone && (t.scrub.get none b).isNone)

/-- A placement and a plane that are free. -/
def findPlane (s : State) (m : Maps) (c : CourseRec) : Option Nat :=
  (List.range 4).find? fun p =>
    let r := placedRegion m p c
    planeFree s r && diesAgree s r && banksFree s r m c

def findRegion (s : State) (ms : List Maps) (c : CourseRec) : Option (Maps × Nat) :=
  ms.findSome? fun m => (findPlane s m c).map fun p => (m, p)

/-! ### Writing a course (R14, R331, R340) -/

/-- The banks of a course's masks that nobody holds go to it, and every granule in them becomes Empty (R178, R181, log 29). -/
def grantBanks (s : State) (r : Region) (l course : Nat) : State :=
  (r.livePks s).foldl (fun s pk =>
    let t := s.tile (pk / 4)
    let mask := (Shadow.word (s.plane pk).shadow 23 0).toNat
    s.setTile (pk / 4) ((List.range 16).foldl (fun (t : TileState) b =>
      if mask.testBit b && (t.owner.get none b).isNone && (t.scrub.get none b).isNone then
        { t with owner := t.owner.put none b (some (l, course)), gmeta := t.gmeta.without fun g => g / 256 == b }
      else t) t)) s

/-- The shadows of a course would all be valid at the tiles of its region, with routes that lead inside (R332). -/
def shadowsGood (s : State) (r : Region) (m : Maps) (c : CourseRec) : Bool :=
  (commitCheck (writeBlocks (clearPlanes s r.pks) r m c) r).2

/-- A course is written into the shadows of a plane and its commit wave starts (R14, R331, R332), with the pins of its load (R191). -/
def writeCourse (s : State) (l plane : Nat) (m : Maps) (c : CourseRec) (extra : List Dword) (ld : Load) : State × Nat :=
  let rk := freeRegionKey s
  let r := { placedRegion m plane c with launch := some l, commitHop := some 0, pinned := ld.pinned, pinnedKs := ld.ksAt }
  let r := { r with seeds := (c.seeds ++ extra).flatMap seedTokens, seedDrains := r.seedPorts.keys }
  let s := (spentRegions s r).foldl freeRegion s
  let s := clearPlanes s r.pks
  let s := writeBlocks s r m c
  let s := grantBanks s r l c.num
  (enterFrame (s.setRegion rk r) r, rk)

/-- A launch that waited thaws the regions it had frozen to make room (R351). -/
def releaseVictim (s : State) (l : Nat) : State :=
  match (s.launch l).victim with
  | some v => ((v.2.filter fun rk => (s.region rk).launch == some v.1).foldl thawRegion s).setLaunch l { s.launch l with victim := none }
  | none => s

/-- An admitted launch leaves its queue and starts its first course (R14). -/
def admitLaunch (s : State) (l plane : Nat) (m : Maps) (places : List Nat) (c : CourseRec) (extra : List Dword)
    (ld : Load) : State :=
  let s := releaseVictim s l
  let s := wqDrop s (s.launch l).queue
  let (s, rk) := writeCourse s l plane m c extra ld
  { s.setLaunch l { s.launch l with phase := .running, region := some rk, next := [], image := places, seq := s.nextTicket } with
    nextTicket := s.nextTicket + 1 }

/-! ### Pre-emption (R351) -/

/-- The regions of a launch, its oldest course first. -/
def Launch.regions (x : Launch) : List Nat := x.region.toList ++ x.next

/-- The contexts that a launch may displace: those that run, of lower priority. -/
def victims (s : State) (x : Launch) : Sparse Launch :=
  s.launches.filter fun p => p.2.phase == .running && p.2.prio < x.prio && !p.2.regions.isEmpty

/-- The lowest priority, and the latest admitted among equals. -/
def chooseVictim (vs : Sparse Launch) : Option (Nat × Launch) :=
  vs.foldl (fun (b : Option (Nat × Launch)) v => match b with
    | none => some v
    | some w => if v.2.prio < w.2.prio || (v.2.prio = w.2.prio && w.2.seq < v.2.seq) then some v else b) none

/-- The parts of a die's pre-emption area that images take: offset and length. -/
def areaUsed (s : State) (die : Nat) : List (Nat × Nat) :=
  s.launches.flatMap fun p => if p.2.die == die then
      p.2.saved.map fun k => (k.2 - (s.die die).preArea, ((s.saved.find? (·.1 == k.1)).map fun v => (v.2.header.getD 4 0).toNat).getD 0)
    else []

/-- Room in the pre-emption area for images of these lengths: for each the first offset at which it fits beside those before it
(log 30). -/
def areaPlan (size : Nat) : List (Nat × Nat) → List Nat → Option (List Nat)
  | _, [] => some []
  | used, n :: ns =>
    let room (o : Nat) : Bool := o + n ≤ size && used.all fun u => o + n ≤ u.1 || u.1 + u.2 ≤ o
    ((0 :: used.map fun u => u.1 + u.2).find? room).bind fun o => (areaPlan size ((o, n) :: used) ns).map (o :: ·)

/-- Where the images of a launch's courses would stand in the pre-emption area of its die. -/
def areaFor (s : State) (x : Launch) : Option (List Nat) :=
  areaPlan (s.die x.die).preSize (areaUsed s x.die) (x.regions.map fun rk => 8 * (readoutImage s (s.region rk)).length)

/-- A frozen course is read out into the pre-emption area of its launch's die and its plane is free. Its record says whether firmware had
frozen it before. -/
def displace (v : Nat) (ours : List Nat) (s : State) (at_ : Nat × Nat) : State :=
  let (rk, off) := at_
  let r := s.region rk
  let key := s.nextId
  let place := (s.die (s.launch v).die).preArea + off
  let image := readoutImage s r
  let record := saveRegion s rk
  let record := { record with region := { record.region with frozen := !ours.contains rk } }
  let s := { s with saved := s.saved.insert key record, nextId := s.nextId + 1 }
  let s := moveHeld (s.setBytes place (dwordBytes image)) fun e => if r.pks.contains (Key.pkOfElem e) then some (parked key e) else none
  let s := vacate s rk
  let x := s.launch v
  s.setLaunch v { x with phase := .preempted, region := none, next := [], saved := x.saved ++ [(key, place)] }

/-- A launch that finds no free plane displaces a context whose planes would do, once its commit waves have ended (R332) and its courses
stand still; else it waits. The request discards what has been written into the shadows of those planes (R331). -/
def preempt (s : State) (l : Nat) (ms : List Maps) (c : CourseRec) : State :=
  let x := s.launch l
  let s := noteCause s l 4
  let away (v : Launch) : State := v.regions.foldl (fun s rk => s.setRegion rk {}) s
  match chooseVictim ((victims s x).filter fun v => (findRegion (away v.2) ms c).isSome && (areaFor s v.2).isSome) with
  | none => releaseVictim s l
  | some (v, y) =>
    let s := match x.victim with
      | some w => if w.1 = v then s else releaseVictim s l
      | none => s
    let rks := y.regions
    let ours := match (s.launch l).victim with | some w => w.2 | none => []
    if rks.any fun rk => (s.region rk).commitHop.isSome then s
    else
      let new := rks.filter fun rk => !(s.region rk).frozen
      let s := (new.foldl freezeRegion s).setLaunch l { s.launch l with victim := some (v, ours ++ new) }
      let s := (new.flatMap fun rk => (s.region rk).pks).foldl dropShadow s
      if new.isEmpty && rks.all fun rk => settled s (s.region rk) then
        match areaFor s y with
        | some offs => noteCause (((rks.zip offs).foldl (displace v ours) s).setLaunch l { s.launch l with victim := none }) v 4
        | none => s
      else s

/-! ### Admission (R14, R335) -/

/-- A pin that has to wait: the event for firmware with what the launch then waits on, or nothing for a page in migration. A malformed walk
waits in the same way as a page that is not present (R188, R191). -/
def pinEvent (s : State) (r : Region) (ctx : Nat) : PinErr → Option (Nat × State)
  | .notPresent va =>
    some (5, s.event (Key.dieOfTile (Key.tileAt r.prow r.pcol)) 5 0 (Key.place (Key.tileAt r.prow r.pcol) 0) (BitVec.ofNat 64 va) (BitVec.ofNat 64 ctx))
  | .malformed lv va =>
    some (5, s.event (Key.dieOfTile (Key.tileAt r.prow r.pcol)) 7 lv (Key.place (Key.tileAt r.prow r.pcol) 0) (BitVec.ofNat 64 va) (BitVec.ofNat 64 ctx))
  | _ => none

/-- What the courses of a launch's image declare outside its words (log 9). -/
def annexes (s : State) (x : Launch) (n : Nat) : List CourseAnnex :=
  (List.range n).map fun k => s.annex.get {} (x.handle * 65536 + k)

/-- The placements of an image: those of the queue's die, else those of the first other die of this device that has one (log 26). -/
def allPlacements (s : State) (die : Nat) (h : ImageHead) (cs : List CourseRec) (xs : List CourseAnnex) : List Maps :=
  ((die :: (List.range 4).filter (· != die)).findSome? fun d =>
    let ms := placements s d h cs xs
    if ms.isEmpty then none else some ms).getD []

/-- The faults of every course of a graph in a placement. -/
def graphFaults (s : State) (l plane : Nat) (m : Maps) (h : ImageHead) (cs : List CourseRec) : List Fault1 :=
  let x := s.launch l
  (cs.zip (annexes s x cs.length)).zipIdx.flatMap fun c =>
    courseFaults s (freeRegionKey s) m plane l x.ctx x.relaxed h c.2 c.1.1 c.1.2

/-- R14. The sequencer rejects a launch that R335 forbids, admits it where a fitting region has a free plane, and else tries again at
the next round boundary or pre-empts. -/
def execLaunchAdmit (l : Nat) (s : State) : Out :=
  let x := s.launch l
  .next <|
    if x.phase ≠ .waiting || cqBlocked s x then s
    else
      let (h, limit, places) := imageCourses s (s.imageDir.get {} x.handle)
      let cs := places.map fun p => (courseAt s limit p).1
      match cs with
      | [] => endLaunch s l 3 41 0
      | c :: _ =>
        if places.length ≠ h.ncourse then endLaunch s l 3 41 0
        else if cs.any fun c => c.seeds.any (badSeed c.ports.length) then endLaunch s l 8 0 0
        else match launchSeeds s x with
          | .fault => endLaunch s l 5 0 0
          | .ecc => endLaunch s l 11 0 0
          | .ask p =>
            if s.dltOut.any fun q => q.src == .seed l && q.place == p then s else s.dltSend (Place.device p) p (.rd 64) (.seed l)
          | .recs extra =>
            if extra.any (badSeed c.ports.length) then endLaunch s l 8 0 0
            else
              let ms := allPlacements s x.die h cs (annexes s x cs.length)
              if ms.isEmpty then endLaunch s l 3 43 0
              else match findRegion s ms c with
                | none => preempt s l ms c
                | some (m, plane) =>
                  match firstFault (graphFaults s l plane m h cs) with
                  | some (p, code) => endLaunch (releaseVictim s l) l 3 code (BitVec.ofNat 32 p)
                  | none =>
                    let r := { placedRegion m plane c with launch := some l }
                    let ld := loadCourse s (freeRegionKey s) r m c x.ctx (s.annex.get {} (x.handle * 65536))
                    match ld.wait with
                    | none => admitLaunch s l plane m places c extra ld
                    | some (.ecc _) => endLaunch (releaseVictim s l) l 11 0 0
                    | some e => match pinEvent s r x.ctx e with
                      | some (t, s') => s'.setLaunch l { s'.launch l with phase := .pinWait (s.nextId % 2 ^ 16), waitType := t }
                      | none => s

/-- What was saved of a pre-empted launch, the oldest course first: its key, its record and its place. -/
def savedOf (s : State) (x : Launch) : List (Nat × Saved × Nat) :=
  x.saved.filterMap fun k => (s.saved.find? (·.1 == k.1)).map fun v => (k.1, v.2, k.2)

/-- A saved course as its image in memory holds it (R350), with what has happened to it since: replies of keystones, and the answer of
firmware. An image that memory no longer holds is taken from the record (log 30). -/
def savedNow (v : Saved) (image : List Dword) : Saved :=
  match imageCourse image with
  | some w =>
    if w.header == v.header then
      { w with
        elems := w.elems.map fun p => (p.1, { p.2 with ksIn := (v.elems.get {} p.1).ksIn })
        region := { w.region with
          launch := v.region.launch, waitEv := v.region.waitEv, waitType := v.region.waitType, frozen := v.region.frozen } }
    else v
  | none => v

/-- One course of a pre-empted launch goes back from its image into a plane; it runs on unless firmware had frozen it, or its
region waits for firmware. -/
def restoreCourse (l : Nat) (s : State) (c : (Nat × Saved × Nat) × Nat) : State :=
  let ((key, v, place), p) := c
  let rk := freeRegionKey s
  let box : Region := { v.region with plane := p }
  let s := (spentRegions s box).foldl freeRegion s
  let s := { s with saved := s.saved.erase key }
  let v := savedNow v (dwordsAt s place ((v.header.getD 4 0).toNat / 8))
  let s := putBack (clearPlanes s box.pks) rk p key v
  let s := if v.region.frozen then s else thawRegion s rk
  let x := s.launch l
  enterFrame (s.setLaunch l (if x.region.isNone then { x with region := some rk } else { x with next := x.next ++ [rk] })) (s.region rk)

/-- R351. A pre-empted context goes back, from its images in the pre-emption area, into the first planes that are free at its tiles, once
there is one for each of its courses, and runs on. -/
def execPreemptedRestore (l : Nat) (s : State) : Out :=
  let x := s.launch l
  .next <| match x.phase, savedOf s x with
    | .preempted, v :: vs =>
      let box (p : Nat) : Region := { v.2.1.region with plane := p }
      let planes := (List.range 4).filter fun p => planeFree s (box p) && diesAgree s (box p)
      if planes.length < vs.length + 1 then s
      else ((v :: vs).zip planes).foldl (restoreCourse l) (s.setLaunch l { x with phase := .running, saved := [] })
    | _, _ => s

/-! ### The wave and the seeds (R14, R336, R343) -/

/-- R14. The configuration-complete wave reaches the tiles of its next hop, where AGs may start. -/
def execConfigurationWaveHop (rk : Nat) (s : State) : Out :=
  let r := s.region rk
  .next <| match r.waveHop with
    | none => s
    | some h =>
      if r.frozen then s
      else
        let s := r.units.foldl (fun s u => match u with
          | .ag a => if r.hops (a / 8) = h then s.setAg a { s.ag a with started := true } else s
          | _ => s) s
        s.setRegion rk { r with waveHop := if r.lastHop ≤ h then none else some (h + 1) }

/-- The oldest token that a seed port holds enters its channel with a credit (R70), and counts toward MKTOKENS (R343); the DRAIN
follows the last one once every record has been injected (R310, R336). -/
def seedLeave (rk : Nat) (ended : Bool) (s : State) (p : Nat) : State :=
  let r := s.region rk
  let out (s : State) (t : Token) := s.sendOn (seedChan rk p) t (chanDests s (seedChan rk p)).length
  match r.seedQ.get [] p with
  | (_, t) :: rest =>
    let k := r.seedSince.get 0 p + 1
    if creditHeld s (seedChan rk p) then
      out (s.setRegion rk { r with
        seedQ := r.seedQ.put [] p rest, seedSince := r.seedSince.put 0 p k, cutAsked := r.cutAsked || decide (r.mkTokens ≤ k) }) t
    else s
  | [] =>
    if ended && r.seedDrains.contains p then out (s.setRegion rk { r with seedDrains := r.seedDrains.erase p }) ⟨5, 0, 0⟩ else s

/-- Every record has been injected, or firmware asks the sources to end (R310, R336). -/
def seedsOver (r : Region) : Bool := r.drainReq || r.seeds.isEmpty

/-- The next seed token goes to its port, which holds it behind those that it has (log 25); a region asked to drain injects no more
(R310). -/
def seedInject (s : State) (rk : Nat) : State :=
  let r := s.region rk
  if r.drainReq then s.setRegion rk { r with seeds := [] }
  else match r.seeds with
    | [] => s
    | (p, t) :: rest => s.setRegion rk { r with seeds := rest, seedQ := r.seedQ.put [] p (r.seedQ.get [] p ++ [(rest.length + 1, t)]) }

/-- R336. The sequencer injects one seed token per round in stream order, and a DRAIN to each seed port after the last one, or at once
when firmware asks for it (R310). Each port is a marker source (R343). -/
def execSeedInjection (rk : Nat) (s : State) : Out :=
  let r := s.region rk
  .next <|
    if !r.runs || r.waveHop.isSome then s
    else r.seedPorts.keys.foldl (seedLeave rk (seedsOver r)) (seedInject s rk)

/-! ### The courses of a graph, and its end (R340, R341) -/

/-- A launch's oldest course that has ended, with another after it, gives up its plane. -/
def retireCourse (s : State) (l : Nat) : State :=
  let x := s.launch l
  match x.region, x.next with
  | some rk, nx :: rest =>
    if courseDone s (s.region rk) then (freeRegion s rk).setLaunch l { (freeRegion s rk).launch l with region := some nx, next := rest } else s
  | _, _ => s

/-- The latest course that a launch has written. -/
def latestCourse (x : Launch) : Option Nat := match x.next.getLast? with | some r => some r | none => x.region

/-- R340. Once the latest course has committed the next one is written into a free plane of the same tiles, or into the same plane after
its DRN, and commits once every tile holds its valid shadow: blocks that leave one invalid are written again. A pin that its load
rejects ends the launch (R188, R191). -/
def execNextCourseWrite (l : Nat) (s : State) : Out :=
  let s := retireCourse s l
  let x := s.launch l
  .next <| match x.phase, latestCourse x with
    | .running, some rk =>
      let r := s.region rk
      if !r.running || r.frozen || r.waitEv.isSome then s
      else match x.image[r.course + 1]? with
        | none => s
        | some p =>
          let d := s.imageDir.get {} x.handle
          let (c, _) := courseAt s (d.place + 128 + (imageHead s d.place).body) p
          let m : Maps := ⟨r.rmap, r.cmap⟩
          let done := courseDone s r
          let free := (List.range 4).find? fun q => planeFree s (placedRegion m q c) || (done && q == r.plane)
          match free with
          | none => s
          | some q =>
            let annex := s.annex.get {} (x.handle * 65536 + r.course + 1)
            let nr := { placedRegion m q c with launch := some l }
            let ld := loadCourse s (freeRegionKey s) nr m c x.ctx annex
            match ld.wait, ld.reject with
            | none, some (place, code) => endLaunch s l 3 code (BitVec.ofNat 32 place)
            | some (.ecc _), _ => endLaunch s l 11 0 0
            | some e, _ => match pinEvent s nr x.ctx e with
              | some (t, s') => s'.setRegion rk { r with waitEv := some (s.nextId % 2 ^ 16), waitType := t }
              | none => s
            | none, none =>
              if !shadowsGood s nr m c then (commitCheck (writeBlocks s nr m c) nr).1
              else
                let same := done && q == r.plane
                let s := if same then freeRegion s rk else s
                let (s, nk) := writeCourse s l q m c [] ld
                let y := s.launch l
                s.setLaunch l (if same then
                    (if y.next.isEmpty then { y with region := some nk } else { y with next := y.next.dropLast ++ [nk] })
                  else { y with next := y.next ++ [nk] })
    | _, _ => s

/-- R341. When the last course has passed DRN at every tile and engine its banks go back, its planes are free, and its completion
record is written. -/
def execGraphEnd (l : Nat) (s : State) : Out :=
  let x := s.launch l
  .next <| match x.phase, x.region with
    | .running, some rk =>
      if x.next.isEmpty && (s.region rk).course + 1 = x.image.length && courseDone s (s.region rk) then
        endLaunch s l 0 0 0
      else s
    | _, _ => s

/-- The latency-class bounds in rounds, at 1.2 GHz (R334); class 7 has none. -/
def classRounds (c : Nat) : Option Nat := if c < 7 then some (120000 * 10 ^ c) else none

/-- R24. A launch that passes its latency-class bound is late. -/
def execLatencyClassExpiry (l : Nat) (s : State) : Out :=
  let x := s.launch l
  .next <| match classRounds x.lclass with
    | some b => if x.phase ≠ .none && !x.late && x.start.toNat + b < s.round then s.setLaunch l { x with late := true } else s
    | none => s

end Sys2Proof.Machine
end

