-- ==== Sys2Proof/Machine/MasonCtl.lean ====
section
/-! DEFINITION. Machine/MasonCtl: branches (R301), system registers (R288-R292, R306), SYS (R307), the traps and wake-ups that come
from the event queue (R295, R307), and the read of the word at PC (R300). -/

namespace Sys2Proof.Machine

/-! ### Branches (R301) -/

/-- PC plus an offset in words. -/
def branchTo (k : Core) {n : Nat} (off : BitVec n) : Dword := k.pc + off.signExtend 64 * 8

/-- R301. PC-relative branch. -/
def execBr (x : MB) (s : State) : Out :=
  runCore 0x40 (.mb x) s fun c k => .done (s.setCore c { k with pc := branchTo k x.off })

/-- R301. Branch that links in g31. -/
def execBrl (x : MB) (s : State) : Out :=
  runCore 0x41 (.mb x) s fun c k => .done (s.setCore c { k.setReg 31 (k.pc + 8) with pc := branchTo k x.off })

/-- R301. Branch to g[A]. -/
def execBri (x : EA) (s : State) : Out :=
  let y := Body.ea x 0
  runCore 0x42 y s fun c k => .done (s.setCore c { k.update y.pu false with pc := k.reg x.a })

/-- R301. Branch to g[A] that links in D; A is read before D is written. -/
def execBrli (x : EA) (s : State) : Out :=
  let y := Body.ea x 1
  runCore 0x42 y s fun c k =>
    .done (s.setCore c { (k.setReg x.d (k.pc + 8)).update y.pu (k.pc + 8 != 0) with pc := k.reg x.a })

/-- R301. Writes the address of a label. -/
def execMovpc (x : EK) (s : State) : Out :=
  let y := Body.ek x
  runCore 0x5A y s fun c k => coreWrite s c k y (branchTo k x.imm) (branchTo k x.imm != 0)

/-! ### System registers (R288-R292) -/

/-- Records waiting in a die's queue. -/
def evCount (s : State) (die : Nat) : Nat := (s.evq die).recs.length

/-- EVQ of R291. -/
def evqWord (s : State) (die : Nat) : Dword :=
  BitVec.ofNat 64 ((if evqCap ≤ evCount s die then 2 ^ 31 else 0) + evCount s die)

/-- HEALTH of R292. -/
def healthWord (s : State) (d : Nat) : Dword :=
  let x := s.die d
  BitVec.ofNat 64 (x.rr.toNat * 2 ^ 31 + (s.dblt.get false d).toNat * 2 ^ 30 + x.fatal.toNat * 2 ^ 29
    + (Config.spareTiles d - retiredTiles s d) % 256 * 2 ^ 16 + retiredCount s d % 2 ^ 16)

/-- The value of a system register; none for a reserved number (R288). -/
def sysRead (s : State) (c n : Nat) : Option Dword :=
  let k := s.core c
  match n with
  | 0 => some k.pstat
  | 1 => some k.tvb
  | 2 => some k.tcause
  | 3 => some k.tepc
  | 4 => some k.tval
  | 5 => some k.tscr
  | 6 => some (BitVec.ofNat 64 s.round)
  | 7 => some (BitVec.ofNat 64 c)
  | 8 => some (evqWord s (coreDie c))
  | 9 => some (healthWord s (coreDie c))
  | 10 => some k.mctx
  | _ => none

/-- PSTAT after a SYSWR: MODE never changes, PMODE only in firmware mode (R287, R289). -/
def pstatWrite (fw : Bool) (old v : Dword) : Dword :=
  let m : Dword := if fw then 0x3E else 0x3C
  (old &&& ~~~m) ||| (v &&& m)

/-- A SYSWR of R306 to register n, by the Access columns of R289-R292. -/
def sysWrite (s : State) (c n : Nat) (v : Dword) : State :=
  let k := s.core c
  match n with
  | 0 => s.setCore c { k with pstat := pstatWrite k.firmware k.pstat v }
  | 1 => s.setCore c { k with tvb := v &&& 0xFFFFFFFFFFFFF000#64 }
  | 3 => s.setCore c { k with tepc := v }
  | 5 => s.setCore c { k with tscr := v }
  | 9 => if v.getLsbD 30 then { s with dblt := s.dblt.put false (coreDie c) false } else s
  | 10 => s.setCore c { k with mctx := v &&& 0xFFF#64 }
  | _ => s

/-- The register number of SYSRD and SYSWR (R306). -/
def sysNum (k : Core) (x : EI) : Nat := (k.reg x.a + x.imm.signExtend 64).toNat

/-- R306. Reads a system register; a reserved number traps ILLEGAL. -/
def execSysrd (x : EI) (s : State) : Out :=
  let y := Body.ei x
  runCore 0x50 y s fun c k =>
    match sysRead s c (sysNum k x) with
    | some v => coreWrite s c k y v (v != 0)
    | none => .trap Cause.illegal 0 (wordOf 0x50 y)

/-- R306. Writes a system register by its Access column; TVB, HEALTH and PLACE need firmware mode (R287). -/
def execSyswr (x : EI) (s : State) : Out :=
  let y := Body.ei x
  runCore 0x51 y s fun c k =>
    let n := sysNum k x
    if 11 ≤ n then .trap Cause.illegal 0 (wordOf 0x51 y)
    else if (n = 1 || n = 7 || n = 9) && !k.firmware then .trap Cause.priv 0 (wordOf 0x51 y)
    else coreNext (sysWrite s c n (k.reg x.d)) c y

/-! ### SYS (R307) -/

/-- R307. System call: takes the trap SYSCALL with g[A]. -/
def execTrap (x : EA) (s : State) : Out := runCore 0x52 (.ea x 0) s fun _ k => .trap Cause.syscall 0 (k.reg x.a)

/-- R294. Returns from a trap. -/
def execEret (x : EA) (s : State) : Out :=
  runCore 0x52 (.ea x 1) s fun c k => .done (s.setCore c (k.update x.pu false).eret)

/-- EVENT may be taken: IE set, no trap in progress, a record waiting (R295). -/
def eventDue (s : State) (c : Nat) : Bool :=
  let k := s.core c
  Pstat.ie k.pstat && !Pstat.tip k.pstat && 0 < evCount s (coreDie c)

/-- The asynchronous trap EVENT where it is due (R295). -/
def takeEvent (s : State) (c : Nat) : State :=
  if eventDue s c then s.takeTrap c Cause.event 0 (BitVec.ofNat 64 (evCount s (coreDie c))) true else s

/-- A core that waits goes on with the next word. -/
def resumeCore (s : State) (c : Nat) : State := s.setCore c { (s.core c).advance with run := .running }

/-- R307. Waits until a record is queued, then takes EVENT where IE and TIP allow it. -/
def execIdle (x : EA) (s : State) : Out :=
  runCore 0x52 (.ea x 2) s fun c k =>
    let s := s.setCore c (k.update x.pu false)
    .done (if 0 < evCount s (coreDie c) then takeEvent (resumeCore s c) c else s.setCore c { s.core c with run := .idle })

/-- The event flag with a value (R289). -/
def Core.setEvf (k : Core) (b : Bool) : Core :=
  { k with pstat := if b then k.pstat ||| 4 else k.pstat &&& ~~~4#64 }

/-- R307. Consumes the event flag, or waits for it or for a record to enter the queue. -/
def execWfe (x : EA) (s : State) : Out :=
  runCore 0x52 (.ea x 3) s fun c k =>
    let k := k.update x.pu false
    .done (if Pstat.evf k.pstat then s.setCore c (k.setEvf false).advance
      else s.setCore c { k with run := .wfe, seen := (s.evq (coreDie c)).entered })

/-- SEV sets EVF on every core of a die (R307). -/
def sevAll (s : State) (die : Nat) : State := (List.range 4).foldl (fun s j => s.setCore (4 * die + j) ((s.core (4 * die + j)).setEvf true)) s

/-- R307. Sets EVF on every mason core of the die, this one included. -/
def execSev (x : EA) (s : State) : Out :=
  let y := Body.ea x 4
  runCore 0x52 y s fun c _ => coreNext (sevAll s (coreDie c)) c y

/-- R307. Takes the trap BREAK. -/
def execBrk (x : EA) (s : State) : Out := runCore 0x52 (.ea x 5) s fun _ _ => .trap Cause.brk 0 0

/-- R307. Stops the core at the next word; firmware mode only. -/
def execHalt (x : EA) (s : State) : Out :=
  let y := Body.ea x 6
  runCore 0x52 y s fun c k =>
    if k.firmware then .done (s.setCore c { (k.update x.pu false).advance with run := .halted })
    else .trap Cause.priv 0 (wordOf 0x52 y)

/-! ### Events of a core -/

/-- The core stands at an instruction boundary: it runs, and no instruction of it is under way (R295). -/
def atBoundary (k : Core) : Bool := k.run == .running && k.pend.isNone && k.busyTo.isNone && !k.held

/-- R295. At an instruction boundary a waiting record raises EVENT. -/
def execEventTrap (c : Nat) (s : State) : Out := .next (if atBoundary (s.core c) then takeEvent s c else s)

/-- R307. A core in IDLE goes on once a record is queued, with EVENT where it may be taken. -/
def execIdleWake (c : Nat) (s : State) : Out :=
  .next (if (s.core c).run == .idle && 0 < evCount s (coreDie c) then takeEvent (resumeCore s c) c else s)

/-- R307. A core in WFE goes on once EVF is set or a record has entered the queue, and clears EVF. -/
def execWfeWake (c : Nat) (s : State) : Out :=
  let k := s.core c
  .next (if k.run == .wfe && (Pstat.evf k.pstat || k.seen < (s.evq (coreDie c)).entered) then
    resumeCore (s.setCore c (k.setEvf false)) c else s)

/-! ### The word at PC (R300) -/

/-- A fetch: its word, a trap, or a word that has not come yet. -/
inductive FetchRes where
  | word (w : Dword)
  | wait
  | trap (cause detail : Nat)

/-- How many lines of 64 bytes the instruction cache has: 32 KiB (R286). -/
def icacheLines : Nat := 512

/-- A line enters the instruction cache; a full cache replaces a line of its own choice, a free value (log 4, 17). -/
def fillLine (ctr : Nat) (m : Sparse (List Byte)) (line : Nat) (bytes : List Byte) : Sparse (List Byte) :=
  let m := if m.length < icacheLines then m
    else m.erase ((m.keys)[(Config.freeWord ctr).toNat % icacheLines]?.getD 0)
  m.insert line bytes

/-- A line enters a core's instruction cache. -/
def State.fillLineOf (s : State) (c line : Nat) (bytes : List Byte) : State :=
  let k := s.core c
  let s' := s.setCore c { k with icache := fillLine s.freeCtr k.icache line bytes }
  { s' with freeCtr := if icacheLines ≤ k.icache.length then s.freeCtr + 1 else s.freeCtr }

/-- A word of memory through the instruction cache, which does not snoop stores. A line that holds an uncorrectable dword is not cached,
so that a fetch of that dword finds the error (R300). -/
def fetchCached (s : State) (c p : Nat) : State × FetchRes :=
  let k := s.core c
  let line := p / 64
  let at_ (bytes : List Byte) : Dword := BitVec.ofNat 64 (leNat ((bytes.drop (p % 64)).take 8))
  match k.icache.find? fun e => e.1 == line with
  | some e => (s, .word (at_ e.2))
  | none =>
    if !isOwn s p then
      let q := { CorePend.ask k.pc Cause.fetch false 0 8 false 0 with line := true }
      (askRemote s c (64 * line) (.rd 64) q, .wait)
    else if !s.coreTurn c p then (s, .wait)
    else
      let s := s.takeTurn p
      if s.eccAt p 8 then (s, .trap Cause.ecc 0)
      else
        let bytes := s.bytes (64 * line) 64
        let s := s.corrected (64 * line) 64
        (if s.eccAt (64 * line) 64 then s else s.fillLineOf c line bytes, .word (at_ bytes))

/-- The word at PC (R300): a misaligned PC gives DETAIL SPACE. A line of another device comes over DLT. Spaces 5 and 6 are read as LDD
reads them, past the cache (log 17). -/
def fetchAt (s : State) (c : Nat) : State × FetchRes :=
  let pc := (s.core c).pc
  if pc.toNat % 8 ≠ 0 then (s, .trap Cause.fetch Detail.space)
  else match resolve s c pc true false with
    | (s, .bad d) => (s, .trap Cause.fetch d)
    | (s, .ecc) => (s, .trap Cause.ecc 0)
    | (s, .wait) => (s, .wait)
    | (s, .place p) =>
      if Place.space p < 3 && (if isOwn s p then placeValid s p else reachable s) then fetchCached s c p
      else match readPlace s p 8 with
        | .val v => (s, .word (BitVec.ofNat 64 v))
        | .remote =>
          (askRemote s c p (.rd 8) { CorePend.ask pc Cause.fetch false 0 8 false 0 with line := true }, .wait)
        | .trap _ d => (s, .trap Cause.fetch d)

end Sys2Proof.Machine
end

