-- ==== Sys2Proof/Machine/Remote.lean ====
section
/-! DEFINITION. Machine/Remote: requests from other devices (R367, R370, R371), and the answers to this device's requests with
their bound (R367-R369). -/

namespace Sys2Proof.Machine

/-! ### Import windows (R371) -/

namespace Window
def v (w : Window) : Bool := w.d0.getLsbD 63
def r (w : Window) : Bool := w.d0.getLsbD 62
def w (w : Window) : Bool := w.d0.getLsbD 61
def a (w : Window) : Bool := w.d0.getLsbD 60
def lsize (w : Window) : Nat := w.d0.toNat / 2 ^ 40 % 64
def last (w : Window) : Nat := w.d0.toNat / 2 ^ 12 % 4096
def first (w : Window) : Nat := w.d0.toNat % 4096
/-- The base without its device field. -/
def base (w : Window) : Nat := w.d1.toNat % 2 ^ 48

/-- The window covers n bytes at a place. -/
def covers (x : Window) (p n : Nat) : Bool :=
  16 ≤ lsize x && lsize x ≤ 39 && base x % 2 ^ lsize x == 0 && base x ≤ Place.here p && Place.here p + n ≤ base x + 2 ^ lsize x

def admits (x : Window) (p n dev : Nat) : Bool := v x && covers x p n && first x ≤ dev && dev ≤ last x
end Window

/-- The window that a request uses: the lowest-numbered one that covers the place and admits the source. -/
def windowFor (s : State) (p n dev : Nat) : Option Window := (s.windows.find? fun w => Window.admits w.2 p n dev).map Prod.snd

/-! ERR codes of R194 as answers carry them. -/
namespace ErrCode
def perm := 2
def space := 3
end ErrCode

/-- Why a request is refused (R370): no window, a right that the window lacks, or a place outside `spaces`. -/
def refusal (s : State) (q : DltIn) (n : Nat) (right : Window → Bool) (spaces : Nat → Bool) : Option Nat :=
  match windowFor s q.place n q.dev with
  | none => some ErrCode.perm
  | some w =>
    if !right w then some ErrCode.perm
    else if !spaces (Place.space q.place) || !placeValid s (Place.here q.place) || !placeValid s (Place.here q.place + n - 1) then some ErrCode.space
    else none

/-- An answer leaves for the device that asked. -/
def answerTo (s : State) (q : DltIn) (a : DltAns) : State := { s with dltAnsOut := s.dltAnsOut ++ [(q.dev, q.id, a)] }

/-- The bytes of a write that its mask names. -/
def maskedWrite (s : State) (p : Nat) (bytes : List Byte) (mask : List Bool) : State :=
  if mask.all id && bytes.length ≤ mask.length then s.setBytes p bytes
  else (bytes.zip mask).zipIdx.foldl (fun s b => if b.1.2 then s.setByte (p + b.2) b.1.1 else s) s

/-- A request waits: its bank serves another granule in this round (R177), or its keystone withholds credits (R202). -/
def inWaits (s : State) (q : DltIn) : Bool :=
  match q.op with
  | .ku _ _ => ksWithholds (s.kstone (16384 + Place.tile q.place))
  | _ => isTileMem s q.place && !s.bankTurn q.place

/-- The next request to be applied, with the requests that stay: the first that does not wait and has none of its own device before it
(R381). -/
def nextIn (s : State) : List Nat → List DltIn → Option DltIn × List DltIn
  | _, [] => (none, [])
  | shut, q :: qs =>
    if shut.contains q.dev || inWaits s q then
      let r := nextIn s (q.dev :: shut) qs
      (r.1, q :: r.2)
    else (some q, qs)

/-- R367. A read of another device is applied at its memory node; an uncorrectable error is answered after one re-read (R370). -/
def execRdReq (s : State) : Out :=
  .next <| match nextIn s [] s.dltIn with
    | (some q, rest) => match q.op with
      | .rd n =>
        let s := ({ s with dltIn := rest } : State).takeTurn q.place
        match refusal s q n Window.r (· < 3) with
        | some c => answerTo s q (.err c)
        | none =>
          if s.eccAt q.place n then answerTo (s.countUe (Place.die q.place)) q .ecc
          else answerTo (s.corrected q.place n) q (.data (s.bytes q.place n))
      | _ => s
    | (none, _) => s

/-- R367. A write of another device is applied at its memory node. -/
def execWrReq (s : State) : Out :=
  .next <| match nextIn s [] s.dltIn with
    | (some q, rest) => match q.op with
      | .wr bytes mask =>
        let s := ({ s with dltIn := rest } : State).takeTurn q.place
        match refusal s q bytes.length Window.w (· < 3) with
        | some c => answerTo s q (.err c)
        | none => answerTo (maskedWrite s q.place bytes mask) q .ack
      | _ => s
    | (none, _) => s

/-- R367. A keystone command of another device arrives at its keystone, whose reply or ACK answers it. -/
def execKuReq (s : State) : Out :=
  .next <| match nextIn s [] s.dltIn with
    | (some q, rest) => match q.op with
      | .ku cmd posted =>
        let s := { s with dltIn := rest }
        match refusal s q 4 Window.a (· == 4) with
        | some c => answerTo s q (.err c)
        | none => ksArrive s (16384 + Place.tile q.place) cmd (.remote q.id q.dev posted)
      | _ => s
    | (none, _) => s

/-- R367. A MAMO of another device is applied at its memory node. -/
def execAtReq (s : State) : Out :=
  .next <| match nextIn s [] s.dltIn with
    | (some q, rest) => match q.op with
      | .at_ f v cmp =>
        let s := ({ s with dltIn := rest } : State).takeTurn q.place
        match refusal s q 8 Window.a (· < 3) with
        | some c => answerTo s q (.err c)
        | none =>
          if s.eccAt q.place 8 then answerTo (s.countUe (Place.die q.place)) q .ecc
          else
            let o := BitVec.ofNat 64 (s.read q.place 8)
            answerTo ((s.corrected q.place 8).write q.place 8 (mamoNew f o v cmp).toNat) q (.old o)
      | _ => s
    | (none, _) => s

/-! ### Answers to this device's requests -/

/-- An answer that rolls the region of a unit back with event ECC (R370). -/
def eccRollback (s : State) (pk place : Nat) : State :=
  match s.regionOf pk with
  | some rk => rollback s rk (.ecc place)
  | none => s

/-- The request that waits for an answer, the first of its number, changed. -/
def onRequest (seq : Nat) (f : AgReq → AgReq) : List AgReq → List AgReq
  | [] => []
  | r :: rs => if r.seq = seq && r.fwdd && r.tok.isNone && r.data.isNone then f r :: rs else r :: onRequest seq f rs

/-- The data of an AG's load, as its own held stores leave it; or the ERR token that stands in its place, with the index that named the
element (R194), or its number. -/
def agAnswer (s : State) (a seq place : Nat) : DltAns → State
  | .data bs =>
    let ag := s.ag a
    s.setAg a { ag with reqs := onRequest seq (fun r => { r with data := some (ag.forward r.place bs) }) ag.reqs }
  | .err c =>
    let ag := s.ag a
    let name (r : AgReq) : Nat := if Spb.indexed ag.spb then r.idx else r.seq
    s.setAg a { ag with reqs := onRequest seq (fun r => { r with tok := some ⟨6, errPayload c (name r), 0⟩ }) ag.reqs }
  | .ecc => eccRollback s (a / 2) place
  | _ => s

/-- The reply or the ACK of a keystone command (R201, R209, R211). A refusal too frees its slot and sends its order token (DESIGN CHOICE,
log 101). -/
def portAnswer (s : State) (e target place : Nat) (ticket : Option Nat) (cmd : KCmd) : DltAns → State
  | .reply t =>
    s.modElem e fun el => { el with ksIn := el.ksIn ++ (match ticket with
      | some k => [.reply s.round k t]
      | none => []) ++ [.applied s.round target] }
  | .ack => s.modElem e fun el => { el with ksIn := el.ksIn ++ [.applied s.round target] }
  | .err c =>
    let t := ksErr c cmd.idx
    match ticket with
    | some k => s.modElem e fun el => { el with ksIn := el.ksIn ++ [.reply s.round k t, .applied s.round target] }
    | none =>
      let s := s.modElem e fun el => { el with ksIn := el.ksIn ++ [.applied s.round target] }
      s.report (Key.pkOfElem e) (elemPlace e) 8 (t.payload.setWidth 32) ((s.elem e).io.snapCut + 1)
  | .ecc => eccRollback s (Key.pkOfElem e) place
  | _ => s

/-- DETAIL of a refusal (R370). -/
def errDetail (c : Nat) : Nat := if c = ErrCode.perm then Detail.perm else Detail.space

/-- A core's access ends: its value, the line for its instruction cache, bytes of an operand, or a precise trap (R369, R370). -/
def coreAnswer (s : State) (c place : Nat) (op : DltOp) (a : DltAns) : State :=
  let k := s.core c
  match k.pend with
  | none => s
  | some p =>
    let trap (cause detail : Nat) : State := (s.setCore c { k with pend := none }).takeTrap c cause detail p.addr
    let kept (bs : List Byte) : State := s.setCore c { k with pend := none, operands := (place, bs) :: k.operands }
    match a with
    | .data bs =>
      if p.line then (s.setCore c { k with pend := none }).fillLineOf c (place / 64) bs
      else if p.oper then kept bs
      else s.setCore c (k.answered (BitVec.ofNat 64 (leNat bs)))
    | .ack => if p.oper then kept (match op with | .wr bs _ => bs | _ => []) else s.setCore c (k.answered 0)
    | .reply t => s.setCore c (k.answered t.payload)
    | .old v => s.setCore c (k.answered v)
    | .err code => trap p.cause (errDetail code)
    | .ecc => trap Cause.ecc 0

/-- What an answer does at the unit that sent the request. -/
def deliverAnswer (s : State) (q : DltReq) (a : DltAns) : State :=
  match q.src with
  | .agLoad x seq => agAnswer s x seq q.place a
  | .agStore x cut idx =>
    let s := confirmStore s x cut
    match a with
    | .err c => s.agReport x c idx
    | _ => s
  | .port e target ticket => match q.op with
    | .ku cmd _ => portAnswer s e target q.place ticket cmd a
    | _ => s
  | .core c => coreAnswer s c q.place q.op a
  | .stRead st id off => match q.op, a with
    | _, .ecc => eccRollback s (Key.enginePk st) q.place
    | .rd n, a => stReadAnswer s st id off n a
    | _, _ => s
  | .stWrite st id off n => stWriteAnswer s st id off n a
  | .seed l =>
    if (s.launch l).phase ≠ .waiting then s
    else match a with
    | .data bs => s.setLaunch l { s.launch l with seedGot := (s.launch l).seedGot.insert (q.place / 64) (some bs) }
    | .ecc => endLaunch s l 11 0 0
    | _ => s.setLaunch l { s.launch l with seedGot := (s.launch l).seedGot.insert (q.place / 64) none }
  | .gone => s

/-- The plane and the route index of a request's unit. -/
def DltSrc.pk? : DltSrc → Option (Nat × Nat)
  | .agLoad a _ | .agStore a _ _ => some (a / 2, 64 + a % 2)
  | .port e t _ => some (Key.pkOfElem e, 4 * (e % 16) + t)
  | .stRead st _ _ | .stWrite st _ _ _ => some (Key.enginePk st, 70)
  | .core _ | .seed _ | .gone => none

/-- The region of a request's unit has a REL due: a rollback comes after it (R344). -/
def relFirst (s : State) (q : DltReq) : Bool := (q.src.pk?.bind fun x => s.regionOf x.1).any fun rk => (s.region rk).relDue.isSome

/-- R367. The answer of a request reaches the unit that sent it. -/
def execDltAnswer (s : State) : Out :=
  .next <| match s.dltAnsIn with
    | (id, a) :: rest =>
      match s.dltOut.find? (·.id == id) with
      | some q =>
        if a = .ecc && relFirst s q then s
        else deliverAnswer { s with dltAnsIn := rest, dltOut := s.dltOut.filter (·.id != id) } q a
      | none => { s with dltAnsIn := rest }
    | [] => s

/-! ### The bound of a request (R369) -/

/-- 40 µs in rounds. -/
def dltBound : Nat := 48000

/-- R369. A request that misses the bound: the region rolls back with channel class 3, or the core traps TIMEOUT. A posted effect
that has been sent is not recalled, and its bound starts again. -/
def execDltTimeout (id : Nat) (s : State) : Out :=
  .next <| match s.dltOut.find? (·.id == id) with
    | none => s
    | some q =>
      if s.round ≤ q.sent + dltBound then s
      else match q.src, q.src.pk? with
        | .core c, _ =>
          let s := { s with dltOut := s.dltOut.filter (·.id != id) }
          let k := s.core c
          match k.pend with
          | some p => (s.setCore c { k with pend := none }).takeTrap c p.cause Detail.timeout p.addr
          | none => s
        | _, some (pk, route) =>
          match s.regionOf pk with
          | some rk =>
            let r := s.region rk
            if r.frozen || r.relDue.isSome then s
            else rollback { s with dltOut := s.dltOut.map fun (x : DltReq) => if x.id = id then { x with sent := s.round } else x } rk
              (.deliveryTimeout 3 route)
          | none => { s with dltOut := s.dltOut.filter (·.id != id) }
        | _, none => { s with dltOut := s.dltOut.filter (·.id != id) }

end Sys2Proof.Machine
end

