-- ==== Sys2Proof/Machine/Device.lean ====
section
/-! DEFINITION. Machine/Device: host messages and power states (R365, R366, R399, R400), reset and bring-up (R401, R408), attestation
(R403, R404), the patrol scrubber (R405) and fatal errors (R356). -/

namespace Sys2Proof.Machine

/-! ### Reset and loss of supply (R404, R408) -/

/-- What outlives a reset: the boot flash with the retirements, one-time storage, HBM and vaults, what images declare, and what is on
its way to others (log 32). A signature index that was committed is skipped. -/
def resetDevice (s : State) : State :=
  { State.reset with
    freeCtr := s.freeCtr
    flash := s.flash
    tiles := (s.tiles.filter fun t => t.2.retired).map fun t => (t.1, { retired := true })
    attest := { index := s.attest.index, left := s.attest.left }
    mem := s.mem.filter fun b => Place.space b.1 < 2
    eccBad := s.eccBad.filter fun g => Place.space (8 * g.1) < 2
    annex := s.annex
    hostIn := s.hostIn, hostOut := s.hostOut
    dltAnsOut := s.dltAnsOut, hopsOut := s.hopsOut }

/-- R408. Device reset sets every unit to its reset state; core 0 of die 0 then starts at the ROM entry. -/
def execDeviceReset (s : State) : Out := .next (resetDevice s)

/-- R404. Supply is lost: memory loses its contents, and a committed signature index that was not used is skipped. -/
def execPowerLoss (s : State) : Out := .next { resetDevice s with mem := [], eccBad := [], hostIn := [] }

/-! ### Bring-up (R401) -/

/-- The ROM entry. -/
def romEntry : Dword := 0x8000C00800000000

/-- Where the ROM puts the firmware copy, in HBM. -/
def firmwareBase : Nat := 0x7FE0000000

/-- One firmware copy of the boot flash: its header, body and signature. -/
structure FlashCopy where
  head : List Byte
  body : List Byte
  sig  : List Byte

def flashBytes (s : State) (off n : Nat) : List Byte := (List.range n).map fun k => s.flash.get 0 (off + k)

/-- The copy at an offset, within its half of the flash (R325, R401). -/
def flashCopy (s : State) (off : Nat) : FlashCopy :=
  let head := flashBytes s off 128
  let n := min (leNat ((head.drop 16).take 8)) (2 ^ 25 - 128)
  let m := min (leNat ((head.drop 28).take 4)) (2 ^ 25 - 128 - n)
  ⟨head, flashBytes s (off + 128) n, flashBytes s (off + 128 + n) m⟩

/-- DIGEST, and the signature over it under the firmware key (R326, R401). -/
def copyVerified (c : FlashCopy) : Bool :=
  (c.head.drop 32).take 64 == shake256 64 c.body
    && Xmss.sigv (leNat ((c.head.drop 24).take 4)) (shake256 64 (c.head.take 96)) c.sig Config.firmwareKey == 0

/-- A link that the ROM has trained: every lane or module that is built (R372, R374). -/
def trained (l : Nat) (k : Link) : Link := { k with up := true, width := if 32 ≤ l then 16 else 8, training := none, downAt := none }

/-- The ROM (R401): memory and links are trained, a firmware copy goes to HBM and is checked, and firmware is entered; when both
copies fail the core stops. -/
def romBoot (s : State) : State :=
  let s := ((List.range 36).filter linkExists).foldl (fun s l => s.setLink l (trained l (s.link l))) s
  let s := (List.range 4).foldl noteRetired s
  let try_ (s : State) (off : Nat) : State × Bool :=
    let c := flashCopy s off
    (s.setBytes firmwareBase (c.head ++ c.body ++ c.sig), copyVerified c)
  let enter (s : State) : State :=
    let k := s.core 0
    ({ s with secBoot := true }).setCore 0 { k with pc := Config.firmwareEntry, pstat := k.pstat ||| 1 }
  match try_ s 0 with
  | (s, true) => enter s
  | (s, false) => match try_ s 0x2000000 with
    | (s, true) => enter s
    | (s, false) => ({ s with bootFailed := true }).setCore 0 { s.core 0 with run := .halted }

/-! ### Attestation (R403, R404) -/

/-- R403. A firmware write of GO starts an attestation report. -/
def execAttestationGo (s : State) : Out := .next (attestGo s)

/-- The report: nonce, firmware DIGEST, SECST, DEVNUM and the signature index, each field after the one before (log 33). -/
def attestReport (s : State) (index : Nat) : List Byte :=
  let nonce := (List.range 64).map fun k => s.attest.nonce.getD k 0
  nonce ++ s.bytes (firmwareBase + 32) 64 ++ leBytes 8 (secst s).toNat ++ leBytes 8 s.devnum.toNat ++ leBytes 8 index

/-- n bytes that nothing constrains: what the private key makes of the report (log 4). -/
def freeBytes (s : State) (n : Nat) : List Byte := (List.range n).map fun k => (Config.freeWord (s.freeCtr + k)).setWidth 8

/-- R404. The report is signed under the index that was committed, and the state becomes done. -/
def execAttestationDone (s : State) : Out :=
  let a := s.attest
  .next <| match a.state, a.committed with
    | 1, some i =>
      let n := Xmss.sigBytes 20 - 4
      { s with
        freeCtr := s.freeCtr + n
        attest := { a with state := 2, report := attestReport s i, sig := Xmss.beBytes 4 i ++ freeBytes s n, committed := none } }
    | _, _ => s

/-! ### Fatal errors (R356) -/

/-- The dwords of a record in an event queue (R353). -/
def EvRec.dump (r : EvRec) : List Dword :=
  [BitVec.ofNat 64 (r.type * 2 ^ 56 + r.code * 2 ^ 48 + r.id * 2 ^ 32 + r.place.toNat), r.cyc, r.d2, r.d3]

/-- The dump of R356: header, then each die's event queue, core states and launch sequencer block (log 31). -/
def fatalDump (s : State) (cause : Nat) : List Dword :=
  [0x44534D50, BitVec.ofNat 64 s.round, BitVec.ofNat 64 cause]
    ++ (List.range 4).map (fun d => healthWord s d)
    ++ (List.range 4).flatMap fun d =>
      (s.evq d).recs.flatMap EvRec.dump
        ++ ((List.range 4).flatMap fun c =>
          let k := s.core (4 * d + c)
          [BitVec.ofNat 64 (coreState k.run), k.pc, k.pstat, k.tvb, k.tcause, k.tepc, k.tval, k.tscr, k.mctx])
        ++ (List.range 5).map fun k => statusDword s d 4 (8 * k)

/-- R356. A fatal error writes the dump to the top of HBM, sets HEALTH.FATAL and completes every running launch with status FATAL. -/
def execFatalError (cause : Nat) (s : State) : Out :=
  let s := s.setBytes 0x7FF0000000 (dwordBytes (fatalDump s cause))
  let s := (List.range 4).foldl (fun s d => s.setDie d { s.die d with fatal := true }) s
  .next <| (s.launches.filter fun l => l.2.phase == .running || l.2.phase == .preempted).foldl (fun s l => endLaunch s l.1 10 0 0) s

/-- A fatal error has been written: the device serves management messages only. -/
def isFatal (s : State) : Bool := (List.range 4).any fun d => (s.die d).fatal

/-! ### Host messages (R365, R366) -/

namespace HostMsg
def type (m : HostMsg) : Nat := m.head.toNat / 2 ^ 56
def low (m : HostMsg) : Nat := m.head.toNat % 2 ^ 16
/-- The dword at the front of the body. -/
def place (m : HostMsg) : Nat := leNat (m.body.take 8)

/-- A place of status space of this device, dword by dword (log 34). -/
def statusOk (s : State) (m : HostMsg) (n : Nat) : Bool :=
  m.place / 2 ^ 60 == 0 && isOwn s m.place && Place.space m.place == 6 && m.place % 8 == 0 && 8 ≤ n && n ≤ 64 && n % 8 == 0

/-- The message is of its type's form: its zero fields are zero and its body has the length and the contents that R365 gives. -/
def wellFormed (s : State) (m : HostMsg) : Bool :=
  m.head.toNat / 2 ^ 16 % 2 ^ 40 == 0 && match m.type with
    | 1 => m.low < 1024 && m.body.length == 64
    | 3 => m.body.length == 8 && m.statusOk s m.low
    | 4 => m.body.length == 8 + m.low && m.statusOk s m.low
    | 5 => m.low == 0 && m.body.length == 8 && m.place < 3
    | 6 => m.low == 0 && m.body.all (· == 0)
    | _ => false
end HostMsg

/-- Some entry of the endpoint table permits a message (R366). Where no firmware has started, none is there to fill the table, and what
the device still serves it serves for any endpoint (R401; DEDUCED, log 103). -/
def permitted (s : State) (m : HostMsg) (right : Window → Bool) : Bool :=
  s.bootFailed || s.hostEp.any fun e => Endpoint.v e.2 && e.2.d1 == m.eid && right e.2

/-- The reply goes to the host. -/
def replyTo (s : State) (m : HostMsg) (r : HostReply) : State := { s with hostOut := s.hostOut ++ [(m.eid, r)] }

/-- One message of a type is served; a message of another type stays. -/
def serve (type : Nat) (f : HostMsg → State → State) (s : State) : Out :=
  .next <| match s.hostIn with
    | m :: rest => if m.type = type then
        let s := { s with hostIn := rest }
        if m.wellFormed s then f m s else replyTo s m .denied
      else s
    | [] => s

/-- R366. A host LAUNCH acts as WQPUSH on a queue of its endpoint; it wakes the device from IDLE (R400). -/
def execHostLaunch (s : State) : Out :=
  serve 1 (fun m s =>
    let q := s.queue m.low
    if !permitted s m (fun e => Endpoint.launch e && Endpoint.covers e m.low) || isFatal s || s.bootFailed || s.power = 2 || q.ms then
      replyTo s m .denied
    else
      let s := { s with power := 0 }
      match wqAppend s m.low m.body with
      | (s, true) => replyTo s m .accepted
      | (s, false) => replyTo s m .full) s

/-- R365. A host reads 8 to 64 bytes of status space. -/
def execHostMread (s : State) : Out :=
  serve 3 (fun m s =>
    if !permitted s m Endpoint.mgmt then replyTo s m .denied
    else replyTo s m (.data ((List.range (m.low / 8)).flatMap fun k => leBytes 8 (statusRead s (m.place + 8 * k) 8)))) s

/-- R365. A host writes 8 to 64 bytes of status space; with no firmware only the boot flash (R401), in STANDBY none (R400). -/
def execHostMwrite (s : State) : Out :=
  serve 4 (fun m s =>
    if !permitted s m Endpoint.fw || s.power = 2 || (s.bootFailed && StPlace.block m.place != 9) then replyTo s m .denied
    else
      let ws := (List.range (m.low / 8)).map fun k => (m.place + 8 * k, leNat ((m.body.drop (8 + 8 * k)).take 8))
      replyTo (ws.foldl (fun s w => statusWrite s w.1 8 w.2) s) m .done) s

/-- Some launch runs, waits or is pre-empted (R400): also one whose entry the launch sequencer has not taken from its queue yet. -/
def launchesAlive (s : State) : Bool :=
  (s.launches.any fun l => isRunningPhase l.2.phase || isWaitingPhase l.2.phase || isPreemptedPhase l.2.phase)
    || s.queues.any fun q => q.2.len != 0 && !q.2.ms

/-- STANDBY takes the contents of vaults and tile memory (R400). -/
def enterPower (s : State) (n : Nat) : State :=
  let s := { s with power := n }
  if n = 2 then
    { s with
      mem := s.mem.filter fun b => Place.space b.1 ≠ 1 && Place.space b.1 ≠ 2
      eccBad := s.eccBad.filter fun g => Place.space (8 * g.1) ≠ 1 && Place.space (8 * g.1) ≠ 2 }
  else s

/-- R400. A host sets the power state; IDLE and STANDBY are denied while a launch runs, waits or is pre-empted. -/
def execHostPower (s : State) : Out :=
  serve 5 (fun m s =>
    if !permitted s m Endpoint.mgmt || s.bootFailed || (m.place ≠ 0 && launchesAlive s) then replyTo s m .denied
    else replyTo (enterPower s m.place) m .done) s

/-- R365. The device replies DONE and is reset. -/
def execHostReset (s : State) : Out :=
  serve 6 (fun m s =>
    if !permitted s m Endpoint.fw then replyTo s m .denied else resetDevice (replyTo s m .done)) s

/-- R365. A message of another type is answered DENIED and has no effect. -/
def execHostMessage (s : State) : Out :=
  .next <| match s.hostIn with
    | m :: rest =>
      let s' := { s with hostIn := rest }
      if [1, 3, 4, 5, 6].contains m.type && m.wellFormed s then s else replyTo s' m .denied
    | [] => s

/-! ### The power limit and the patrol scrubber (R399, R405) -/

/-- R399. The power controller inserts an idle round at an island or an element: what the unit would have done in the rest of this round
waits, and a launch that it makes late was delayed by contention. -/
def execPowerLimitIdle (u : UnitRef) (s : State) : Out :=
  let idles (i : Instr) : Bool := match u, i with
    | .elem e, .scheduleRound x => e == x
    | .island k, .mmaComplete x => k == x
    | _, _ => false
  let s := { s with agenda := s.agenda.filter fun i => !idles i }
  .next <| match (s.regionOf u.pk).bind fun r => (s.region r).launch with
    | some l => noteCause s l 4
    | none => s

/-- The place of a granule of a vault (R184). -/
def vaultPlace (die vault granule : Nat) : Nat := 2 ^ 45 + die * 2 ^ 43 + vault * 2 ^ 37 + granule * 16

/-- R405. The scrubber rewrites a vault granule, and corrects and counts what is correctable there; what it cannot correct it leaves and
counts. It yields to an access to the vault in the same round, and comes back in a later one. -/
def execPatrolScrub (die vault granule : Nat) (s : State) : Out :=
  let p := vaultPlace die vault granule
  let d := s.die die
  .next <| if !placeValid s p then s
    else if d.vaultAt.get 0 vault = s.round + 1 then s.setDie die { d with scrubDue := d.scrubDue.filter (· ≠ p) ++ [p] }
    else
      let s := s.setDie die { d with scrubDue := d.scrubDue.filter (· ≠ p) }
      if s.eccAt p 16 then s.countUe die
      else (s.corrected (ownDevice s * 2 ^ 48 + p) 16).setBytes p (s.bytes p 16)

end Sys2Proof.Machine
end

