-- ==== Sys2Proof/Machine/Float.lean ====
section
/-! DEFINITION. Machine/Float: the meanings of the floating, packed and MK8 instructions of elements (R118-R135). -/

namespace Sys2Proof.Machine

open Sys2Proof.Machine.Num Sys2Proof.Machine.FpAlu

/-- A floating instruction of an element: the result with its flags, an exception whose trap is enabled aborting the rule
(R55). `g` gets the rounding context and the values of A, B and D. -/
def runFp (op : Nat) (x : EA) (f : BitVec 3) (g : Env → Word → Word → Word → FRes) (s : State) : Out :=
  let y := Body.ea x f
  runElem op y s fun e slot o =>
    let d := if o.d == .acc then readSpec s e y x.d else 0
    let r := g (s.elem e).env (readSpec s e y x.a) (readSpec s e y x.b) d
    fireValue s e slot o y r.val r.cond r.fl 0 id none

/-- R120. FP32 add, rounded once. -/
def execFadd (x : EA) (s : State) : Out := runFp 0x20 x 0 (fun v a b _ => fadd v a b) s

/-- R120. FP32 subtract, rounded once. -/
def execFsub (x : EA) (s : State) : Out := runFp 0x20 x 1 (fun v a b _ => fsub v a b) s

/-- R120. FP32 multiply, rounded once. -/
def execFmul (x : EA) (s : State) : Out := runFp 0x20 x 2 (fun v a b _ => fmul v a b) s

/-- R120. Correctly rounded FP32 divide. -/
def execFdiv (x : EA) (s : State) : Out := runFp 0x20 x 3 (fun v a b _ => fdiv v a b) s

/-- R121. IEEE minimum of two FP32 values. -/
def execFmin (x : EA) (s : State) : Out := runFp 0x20 x 4 (fun v a b _ => fminmax .min v a b) s

/-- R121. IEEE maximum of two FP32 values. -/
def execFmax (x : EA) (s : State) : Out := runFp 0x20 x 5 (fun v a b _ => fminmax .max v a b) s

/-- R121. IEEE minimumNumber of two FP32 values. -/
def execFminn (x : EA) (s : State) : Out := runFp 0x20 x 6 (fun v a b _ => fminmax .minn v a b) s

/-- R121. IEEE maximumNumber of two FP32 values. -/
def execFmaxn (x : EA) (s : State) : Out := runFp 0x20 x 7 (fun v a b _ => fminmax .maxn v a b) s

/-- R122. Fused A times B plus D, rounded once. -/
def execFma (x : EA) (s : State) : Out := runFp 0x21 x 0 (fma false false) s

/-- R122. Fused A times B minus D. -/
def execFms (x : EA) (s : State) : Out := runFp 0x21 x 1 (fma false true) s

/-- R122. Fused minus A times B, plus D. -/
def execFnma (x : EA) (s : State) : Out := runFp 0x21 x 2 (fma true false) s

/-- R122. Fused minus A times B, minus D. -/
def execFnms (x : EA) (s : State) : Out := runFp 0x21 x 3 (fma true true) s

/-- R123. Quiet FP32 equality compare. -/
def execFceq (x : EA) (s : State) : Out := runFp 0x22 x 0 (fun v a b _ => fcmp .eq false v a b) s

/-- R123. Quiet FP32 less-than compare. -/
def execFclt (x : EA) (s : State) : Out := runFp 0x22 x 1 (fun v a b _ => fcmp .lt false v a b) s

/-- R123. Quiet FP32 less-or-equal compare. -/
def execFcle (x : EA) (s : State) : Out := runFp 0x22 x 2 (fun v a b _ => fcmp .le false v a b) s

/-- R123. Tests whether the two operands are unordered. -/
def execFcun (x : EA) (s : State) : Out := runFp 0x22 x 3 (fun v a b _ => fcmp .un false v a b) s

/-- R123. Quiet not-equal compare, true when unordered. -/
def execFcne (x : EA) (s : State) : Out := runFp 0x22 x 4 (fun v a b _ => fcmp .ne false v a b) s

/-- R123. Signalling FP32 equality compare. -/
def execFceqs (x : EA) (s : State) : Out := runFp 0x22 x 5 (fun v a b _ => fcmp .eq true v a b) s

/-- R123. Signalling FP32 less-than compare. -/
def execFclts (x : EA) (s : State) : Out := runFp 0x22 x 6 (fun v a b _ => fcmp .lt true v a b) s

/-- R123. Signalling FP32 less-or-equal compare. -/
def execFcles (x : EA) (s : State) : Out := runFp 0x22 x 7 (fun v a b _ => fcmp .le true v a b) s

/-- R124. Correctly rounded FP32 square root. -/
def execFsqrt (x : EA) (s : State) : Out := runFp 0x23 x 0 (fun v a b _ => fsqrt v a b) s

/-- R124. Clears the sign bit. -/
def execFabs (x : EA) (s : State) : Out := runFp 0x23 x 1 (fun v a b _ => fabs v a b) s

/-- R124. Inverts the sign bit. -/
def execFneg (x : EA) (s : State) : Out := runFp 0x23 x 2 (fun v a b _ => fneg v a b) s

/-- R124. Writes the one-hot class mask of A. -/
def execFclass (x : EA) (s : State) : Out := runFp 0x23 x 3 (fun v a b _ => fclass v a b) s

/-- R125. 12-bit approximation of the reciprocal. -/
def execFrcpa (x : EA) (s : State) : Out := runFp 0x23 x 4 (fun v a b _ => frcpa v a b) s

/-- R125. 12-bit approximation of the reciprocal square root. -/
def execFrsqa (x : EA) (s : State) : Out := runFp 0x23 x 5 (fun v a b _ => frsqa v a b) s

/-- R124. Rounds to an integral FP32 value. -/
def execFrint (x : EA) (s : State) : Out := runFp 0x23 x 6 (fun v a b _ => frint v a b) s

/-- R124. Copies the sign of B onto A. -/
def execFcpys (x : EA) (s : State) : Out := runFp 0x23 x 7 (fun v a b _ => fcpys v a b) s

/-- R126. Converts a signed integer to FP32. -/
def execI2f (x : EA) (s : State) : Out := runFp 0x24 x 0 (fun v a b _ => i2f v a b) s

/-- R126. Converts an unsigned integer to FP32. -/
def execN2f (x : EA) (s : State) : Out := runFp 0x24 x 1 (fun v a b _ => n2f v a b) s

/-- R126. Converts FP32 to a signed integer in FCTL.RM. -/
def execF2i (x : EA) (s : State) : Out := runFp 0x24 x 2 (fun v a b _ => f2i v a b) s

/-- R126. Converts FP32 to a signed integer, rounding toward zero. -/
def execF2iz (x : EA) (s : State) : Out := runFp 0x24 x 3 (fun v a b _ => f2iz v a b) s

/-- R126. Converts FP32 to an unsigned integer. -/
def execF2n (x : EA) (s : State) : Out := runFp 0x24 x 4 (fun v a b _ => f2n v a b) s

/-- R127. Narrows FP32 to BF16. -/
def execF2bf (x : EA) (s : State) : Out := runFp 0x24 x 5 (fun v a b _ => f2bf v a b) s

/-- R127. Widens the low BF16 half to FP32. -/
def execBf2fl (x : EA) (s : State) : Out := runFp 0x24 x 6 (fun v a b _ => bf2fl v a b) s

/-- R127. Widens the high BF16 half to FP32. -/
def execBf2fh (x : EA) (s : State) : Out := runFp 0x24 x 7 (fun v a b _ => bf2fh v a b) s

/-- R127. Narrows FP32 to FP16. -/
def execF2h (x : EA) (s : State) : Out := runFp 0x25 x 0 (fun v a b _ => f2h v a b) s

/-- R127. Widens the low FP16 half to FP32. -/
def execH2fl (x : EA) (s : State) : Out := runFp 0x25 x 1 (fun v a b _ => h2fl v a b) s

/-- R127. Widens the high FP16 half to FP32. -/
def execH2fh (x : EA) (s : State) : Out := runFp 0x25 x 2 (fun v a b _ => h2fh v a b) s

/-- R128. Adds two BF16 lanes. -/
def execBadd2 (x : EA) (s : State) : Out := runFp 0x26 x 0 (add2 bf16) s

/-- R128. Subtracts two BF16 lanes. -/
def execBsub2 (x : EA) (s : State) : Out := runFp 0x26 x 1 (sub2 bf16) s

/-- R128. Multiplies two BF16 lanes. -/
def execBmul2 (x : EA) (s : State) : Out := runFp 0x26 x 2 (mul2 bf16) s

/-- R128. Fused multiply-add on two BF16 lanes. -/
def execBfma2 (x : EA) (s : State) : Out := runFp 0x26 x 3 (fma2 bf16) s

/-- R128. IEEE maximum of each BF16 lane. -/
def execBmax2 (x : EA) (s : State) : Out := runFp 0x26 x 4 (minmax2 .max bf16) s

/-- R128. IEEE minimum of each BF16 lane. -/
def execBmin2 (x : EA) (s : State) : Out := runFp 0x26 x 5 (minmax2 .min bf16) s

/-- R128. BF16x2 dot product accumulated into FP32 D. -/
def execBdot2 (x : EA) (s : State) : Out := runFp 0x26 x 6 (dot2 bf16) s

/-- R128. maximumNumber of each BF16 lane. -/
def execBmaxv2 (x : EA) (s : State) : Out := runFp 0x26 x 7 (minmax2 .maxn bf16) s

/-- R128. Adds two FP16 lanes. -/
def execHadd2 (x : EA) (s : State) : Out := runFp 0x27 x 0 (add2 fp16) s

/-- R128. Subtracts two FP16 lanes. -/
def execHsub2 (x : EA) (s : State) : Out := runFp 0x27 x 1 (sub2 fp16) s

/-- R128. Multiplies two FP16 lanes. -/
def execHmul2 (x : EA) (s : State) : Out := runFp 0x27 x 2 (mul2 fp16) s

/-- R128. Fused multiply-add on two FP16 lanes. -/
def execHfma2 (x : EA) (s : State) : Out := runFp 0x27 x 3 (fma2 fp16) s

/-- R128. IEEE maximum of each FP16 lane. -/
def execHmax2 (x : EA) (s : State) : Out := runFp 0x27 x 4 (minmax2 .max fp16) s

/-- R128. IEEE minimum of each FP16 lane. -/
def execHmin2 (x : EA) (s : State) : Out := runFp 0x27 x 5 (minmax2 .min fp16) s

/-- R128. FP16x2 dot product accumulated into FP32 D. -/
def execHdot2 (x : EA) (s : State) : Out := runFp 0x27 x 6 (dot2 fp16) s

/-- R129. Lane-wise BF16 equality compare. -/
def execBceq2 (x : EA) (s : State) : Out := runFp 0x2C x 0 (fun v a b _ => cmp2 .eq bf16 v a b) s

/-- R129. Lane-wise BF16 less-than compare. -/
def execBclt2 (x : EA) (s : State) : Out := runFp 0x2C x 1 (fun v a b _ => cmp2 .lt bf16 v a b) s

/-- R129. Lane-wise BF16 less-or-equal compare. -/
def execBcle2 (x : EA) (s : State) : Out := runFp 0x2C x 2 (fun v a b _ => cmp2 .le bf16 v a b) s

/-- R129. Lane-wise BF16 unordered test. -/
def execBcun2 (x : EA) (s : State) : Out := runFp 0x2C x 3 (fun v a b _ => cmp2 .un bf16 v a b) s

/-- R129. Lane-wise FP16 equality compare. -/
def execHceq2 (x : EA) (s : State) : Out := runFp 0x2D x 0 (fun v a b _ => cmp2 .eq fp16 v a b) s

/-- R129. Lane-wise FP16 less-than compare. -/
def execHclt2 (x : EA) (s : State) : Out := runFp 0x2D x 1 (fun v a b _ => cmp2 .lt fp16 v a b) s

/-- R129. Lane-wise FP16 less-or-equal compare. -/
def execHcle2 (x : EA) (s : State) : Out := runFp 0x2D x 2 (fun v a b _ => cmp2 .le fp16 v a b) s

/-- R129. Lane-wise FP16 unordered test. -/
def execHcun2 (x : EA) (s : State) : Out := runFp 0x2D x 3 (fun v a b _ => cmp2 .un fp16 v a b) s

/-- R130. Four-lane MK8 dot product added to FP32 D, rounded once. -/
def execQdot4 (x : EA) (s : State) : Out := runFp 0x28 x 0 (qdot4) s

/-- R131. Decodes the low two MK8 codes to BF16x2. -/
def execQunpl (x : EA) (s : State) : Out := runFp 0x28 x 1 (qunp 0) s

/-- R131. Decodes the high two MK8 codes to BF16x2. -/
def execQunph (x : EA) (s : State) : Out := runFp 0x28 x 2 (qunp 2) s

/-- R131. Encodes four BF16 values to MK8 under the scale in D. -/
def execQpack (x : EA) (s : State) : Out := runFp 0x28 x 3 (qpack) s

/-- R131. Running absolute maximum over a BF16x2 operand. -/
def execQamax (x : EA) (s : State) : Out := runFp 0x28 x 4 (qamax) s

/-- R132. Decodes one MK8 code to FP32. -/
def execQ2f (x : EA) (s : State) : Out := runFp 0x29 x 0 (fun v a b _ => q2f v a b) s

/-- R132. Encodes FP32 to one MK8 code. -/
def execF2q (x : EA) (s : State) : Out := runFp 0x29 x 1 (fun v a b _ => f2q v a b) s

/-- R132. Computes the block scale for an absolute maximum. -/
def execQscl (x : EA) (s : State) : Out := runFp 0x29 x 2 (fun v a b _ => qscl v a b) s

/-- R133. Requantises four MK8 codes, rounding to nearest even. -/
def execReqRne (x : EA) (s : State) : Out := runFp 0x2A x 0 (fun _ a b _ => req .rne a b) s

/-- R133. Requantises four MK8 codes, rounding ties away from zero. -/
def execReqRna (x : EA) (s : State) : Out := runFp 0x2A x 1 (fun _ a b _ => req .rna a b) s

/-- R133. Requantises four MK8 codes, rounding toward zero. -/
def execReqRtz (x : EA) (s : State) : Out := runFp 0x2A x 2 (fun _ a b _ => req .rtz a b) s

/-- R133. Requantises four MK8 codes, rounding up. -/
def execReqRup (x : EA) (s : State) : Out := runFp 0x2A x 3 (fun _ a b _ => req .rup a b) s

/-- R133. Requantises four MK8 codes, rounding down. -/
def execReqRdn (x : EA) (s : State) : Out := runFp 0x2A x 4 (fun _ a b _ => req .rdn a b) s

/-- R133. Requantises four MK8 codes in FCTL.RM. -/
def execReqFctl (x : EA) (s : State) : Out := runFp 0x2A x 5 (fun v a b _ => req v.rm a b) s

/-- R134. Reads FFLG. -/
def execFrfl (x : EA) (s : State) : Out :=
  let y := Body.ea x 0
  runElem 0x2B y s fun e slot o =>
    let res := (s.elem e).fflg &&& 0x1F
    fireValue s e slot o y res (res != 0) 0 0 id none

/-- R134. Writes FFLG bits [4:0]. -/
def execFwfl (x : EA) (s : State) : Out :=
  let y := Body.ea x 1
  runElem 0x2B y s fun e slot o =>
    let v := readSpec s e y x.a &&& 0x1F
    fireValue s e slot o y 0 (v != 0) 0 0 (fun el => { el with fflg := v }) none

/-- R134. Clears FFLG. -/
def execFclr (x : EA) (s : State) : Out :=
  let y := Body.ea x 2
  runElem 0x2B y s fun e slot o =>
    fireValue s e slot o y 0 false 0 0 (fun el => { el with fflg := 0 }) none

end Sys2Proof.Machine
end

