-- ==== Sys2Proof/Machine/Integer.lean ====
section
/-! DEFINITION. Machine/Integer: the meanings of the integer, channel, predicate, local store and event instructions
(R93-R117), in elements and, for the shared opcodes, in mason cores (R95). -/

namespace Sys2Proof.Machine

/-- R96. Integer add that wraps modulo 2^W. -/
def execAdd (x : EA) (s : State) : Out := runAlu 0x01 x 0 IntAlu.add s

/-- R96. Integer subtract that wraps modulo 2^W. -/
def execSub (x : EA) (s : State) : Out := runAlu 0x01 x 1 IntAlu.sub s

/-- R96. Bitwise AND of A and B. -/
def execAnd (x : EA) (s : State) : Out := runAlu 0x01 x 2 IntAlu.and s

/-- R96. Bitwise OR of A and B. -/
def execOr (x : EA) (s : State) : Out := runAlu 0x01 x 3 IntAlu.or s

/-- R96. Bitwise XOR of A and B. -/
def execXor (x : EA) (s : State) : Out := runAlu 0x01 x 4 IntAlu.xor s

/-- R96. A AND NOT B. -/
def execAndn (x : EA) (s : State) : Out := runAlu 0x01 x 5 IntAlu.andn s

/-- R96. Signed minimum of A and B. -/
def execMin (x : EA) (s : State) : Out := runAlu 0x01 x 6 IntAlu.min s

/-- R96. Signed maximum of A and B. -/
def execMax (x : EA) (s : State) : Out := runAlu 0x01 x 7 IntAlu.max s

/-- R96. Unsigned minimum of A and B. -/
def execMinu (x : EA) (s : State) : Out := runAlu 0x02 x 0 IntAlu.minu s

/-- R96. Unsigned maximum of A and B. -/
def execMaxu (x : EA) (s : State) : Out := runAlu 0x02 x 1 IntAlu.maxu s

/-- R96. Signed saturating add. -/
def execAdds (x : EA) (s : State) : Out := runAlu 0x02 x 2 IntAlu.adds s

/-- R96. Signed saturating subtract. -/
def execSubs (x : EA) (s : State) : Out := runAlu 0x02 x 3 IntAlu.subs s

/-- R96. Unsigned saturating add. -/
def execAddsu (x : EA) (s : State) : Out := runAlu 0x02 x 4 IntAlu.addsu s

/-- R96. Unsigned saturating subtract. -/
def execSubsu (x : EA) (s : State) : Out := runAlu 0x02 x 5 IntAlu.subsu s

/-- R96. Absolute signed difference, taken as unsigned. -/
def execAbsd (x : EA) (s : State) : Out := runAlu 0x02 x 6 IntAlu.absd s

/-- R96. Signed average, with halves rounded toward +infinity. -/
def execAvg (x : EA) (s : State) : Out := runAlu 0x02 x 7 IntAlu.avg s

/-- R97. Shift left by B mod W, filling with zero. -/
def execShl (x : EA) (s : State) : Out := runAlu 0x03 x 0 IntAlu.shl s

/-- R97. Logical shift right by B mod W. -/
def execShr (x : EA) (s : State) : Out := runAlu 0x03 x 1 IntAlu.shr s

/-- R97. Arithmetic shift right by B mod W. -/
def execSar (x : EA) (s : State) : Out := runAlu 0x03 x 2 IntAlu.sar s

/-- R97. Rotate left by B mod W. -/
def execRol (x : EA) (s : State) : Out := runAlu 0x03 x 3 IntAlu.rol s

/-- R97. Rotate right by B mod W. -/
def execRor (x : EA) (s : State) : Out := runAlu 0x03 x 4 IntAlu.ror s

/-- R98. Low W bits of the product. -/
def execMul (x : EA) (s : State) : Out := runAlu 0x04 x 0 IntAlu.mul s

/-- R98. High W bits of the signed product. -/
def execMulhs (x : EA) (s : State) : Out := runAlu 0x04 x 1 IntAlu.mulhs s

/-- R98. High W bits of the unsigned product. -/
def execMulhu (x : EA) (s : State) : Out := runAlu 0x04 x 2 IntAlu.mulhu s

/-- R98. High W bits of the signed-by-unsigned product. -/
def execMulhsu (x : EA) (s : State) : Out := runAlu 0x04 x 3 IntAlu.mulhsu s

/-- R99. Signed division that rounds toward zero and never traps. -/
def execDivs (x : EA) (s : State) : Out := runAlu 0x05 x 0 IntAlu.divs s

/-- R99. Unsigned division. -/
def execDivu (x : EA) (s : State) : Out := runAlu 0x05 x 1 IntAlu.divu s

/-- R99. Signed remainder, with the sign of the dividend. -/
def execRems (x : EA) (s : State) : Out := runAlu 0x05 x 2 IntAlu.rems s

/-- R99. Unsigned remainder. -/
def execRemu (x : EA) (s : State) : Out := runAlu 0x05 x 3 IntAlu.remu s

/-- R100. Writes 1 if A equals B. -/
def execCmpeq (x : EA) (s : State) : Out := runAlu 0x06 x 0 IntAlu.cmpeq s

/-- R100. Writes 1 if A differs from B. -/
def execCmpne (x : EA) (s : State) : Out := runAlu 0x06 x 1 IntAlu.cmpne s

/-- R100. Signed less-than compare. -/
def execCmplt (x : EA) (s : State) : Out := runAlu 0x06 x 2 IntAlu.cmplt s

/-- R100. Signed less-or-equal compare. -/
def execCmple (x : EA) (s : State) : Out := runAlu 0x06 x 3 IntAlu.cmple s

/-- R100. Unsigned less-than compare. -/
def execCmpltu (x : EA) (s : State) : Out := runAlu 0x06 x 4 IntAlu.cmpltu s

/-- R100. Unsigned less-or-equal compare. -/
def execCmpleu (x : EA) (s : State) : Out := runAlu 0x06 x 5 IntAlu.cmpleu s

/-- R100. Writes 1 if A AND B is nonzero. -/
def execTst (x : EA) (s : State) : Out := runAlu 0x06 x 6 IntAlu.tst s

/-- R100. Writes 1 if A AND B is zero. -/
def execTstn (x : EA) (s : State) : Out := runAlu 0x06 x 7 IntAlu.tstn s

/-- R101. Counts the leading zero bits of A. -/
def execClz (x : EA) (s : State) : Out := runAlu 0x07 x 0 IntAlu.clz s

/-- R101. Counts the trailing zero bits of A. -/
def execCtz (x : EA) (s : State) : Out := runAlu 0x07 x 1 IntAlu.ctz s

/-- R101. Counts the one bits of A. -/
def execPopc (x : EA) (s : State) : Out := runAlu 0x07 x 2 IntAlu.popc s

/-- R101. Reverses the bits of A. -/
def execBrev (x : EA) (s : State) : Out := runAlu 0x07 x 3 IntAlu.brev s

/-- R101. Reverses the bytes of A. -/
def execBswap (x : EA) (s : State) : Out := runAlu 0x07 x 4 IntAlu.bswap s

/-- R101. Sign-extends the low byte of A. -/
def execSexb (x : EA) (s : State) : Out := runAlu 0x07 x 5 IntAlu.sexb s

/-- R101. Sign-extends the low halfword of A. -/
def execSexh (x : EA) (s : State) : Out := runAlu 0x07 x 6 IntAlu.sexh s

/-- R101. Zero-extends the low halfword of A. -/
def execZexh (x : EA) (s : State) : Out := runAlu 0x07 x 7 IntAlu.zexh s

/-- R102. Extracts an unsigned bit field. -/
def execBfxu (x : EA) (s : State) : Out := runAlu 0x08 x 0 IntAlu.bfxu s

/-- R102. Extracts a signed bit field. -/
def execBfxs (x : EA) (s : State) : Out := runAlu 0x08 x 1 IntAlu.bfxs s

/-- R104. Adds a sign-extended 8-bit immediate. -/
def execAddi (x : EI) (s : State) : Out := runAluImm 0x0A x IntAlu.add s

/-- R104. ANDs with a sign-extended immediate. -/
def execAndi (x : EI) (s : State) : Out := runAluImm 0x0B x IntAlu.and s

/-- R104. ORs with a sign-extended immediate. -/
def execOri (x : EI) (s : State) : Out := runAluImm 0x0C x IntAlu.or s

/-- R104. XORs with a sign-extended immediate. -/
def execXori (x : EI) (s : State) : Out := runAluImm 0x0D x IntAlu.xor s

/-- R104. Shifts left by an immediate count. -/
def execShli (x : EI) (s : State) : Out := runAluImm 0x0E x IntAlu.shl s

/-- R104. Shifts right logically by an immediate count. -/
def execShri (x : EI) (s : State) : Out := runAluImm 0x0F x IntAlu.shr s

/-- R104. Shifts right arithmetically by an immediate count. -/
def execSari (x : EI) (s : State) : Out := runAluImm 0x10 x IntAlu.sar s

/-- R104. Compares A with an immediate for equality. -/
def execCmpieq (x : EI) (s : State) : Out := runAluImm 0x11 x IntAlu.cmpeq s

/-- R104. Signed less-than compare of A with an immediate. -/
def execCmpilt (x : EI) (s : State) : Out := runAluImm 0x12 x IntAlu.cmplt s

/-- R104. Unsigned less-than compare of A with an immediate. -/
def execCmpiltu (x : EI) (s : State) : Out := runAluImm 0x13 x IntAlu.cmpltu s

/-- R104. Multiplies by an immediate and keeps the low W bits. -/
def execMuli (x : EI) (s : State) : Out := runAluImm 0x14 x IntAlu.mul s

/-- R115. Adds two 16-bit lanes with wrapping. -/
def execAdd2h (x : EA) (s : State) : Out := runPacked 0x2E x 0 IntAlu.add2h s

/-- R115. Subtracts two 16-bit lanes with wrapping. -/
def execSub2h (x : EA) (s : State) : Out := runPacked 0x2E x 1 IntAlu.sub2h s

/-- R115. Signed maximum of each 16-bit lane. -/
def execMax2h (x : EA) (s : State) : Out := runPacked 0x2E x 2 IntAlu.max2h s

/-- R115. Signed minimum of each 16-bit lane. -/
def execMin2h (x : EA) (s : State) : Out := runPacked 0x2E x 3 IntAlu.min2h s

/-- R115. Unsigned maximum of each 16-bit lane. -/
def execMax2hu (x : EA) (s : State) : Out := runPacked 0x2E x 4 IntAlu.max2hu s

/-- R115. Unsigned minimum of each 16-bit lane. -/
def execMin2hu (x : EA) (s : State) : Out := runPacked 0x2E x 5 IntAlu.min2hu s

/-- R116. Adds four byte lanes with wrapping. -/
def execAdd4b (x : EA) (s : State) : Out := runPacked 0x2F x 0 IntAlu.add4b s

/-- R116. Subtracts four byte lanes with wrapping. -/
def execSub4b (x : EA) (s : State) : Out := runPacked 0x2F x 1 IntAlu.sub4b s

/-- R116. Signed maximum of each byte lane. -/
def execMax4b (x : EA) (s : State) : Out := runPacked 0x2F x 2 IntAlu.max4b s

/-- R116. Signed minimum of each byte lane. -/
def execMin4b (x : EA) (s : State) : Out := runPacked 0x2F x 3 IntAlu.min4b s

/-- R116. Sum of the absolute byte-lane differences. -/
def execSad4b (x : EA) (s : State) : Out := runPacked 0x2F x 4 IntAlu.sad4b s

/-- R116. Signed dot product of the four byte lanes. -/
def execDot4b (x : EA) (s : State) : Out := runPacked 0x2F x 5 IntAlu.dot4b s

/-- R116. Unsigned dot product of the four byte lanes. -/
def execDot4bu (x : EA) (s : State) : Out := runPacked 0x2F x 6 IntAlu.dot4bu s

/-- R102. Inserts a bit field into D; D is read (R94). -/
def execBfi (x : EA) (s : State) : Out :=
  let y := Body.ea x 2
  runShared 0x08 y s
    (fun e slot o =>
      let res := IntAlu.bfi 32 (readSpec s e y x.a) (readSpec s e y x.b) (readSpec s e y x.d)
      fireValue s e slot o y res (res != 0) 0 0 id none)
    (fun c k =>
      let res := IntAlu.bfi 64 (k.reg x.a) (k.reg x.b) (k.reg x.d)
      coreWrite s c k y res (res != 0))

/-- R103. Selects A or B by predicate p[F]. -/
def execSel (x : EA) (f : BitVec 3) (s : State) : Out :=
  let y := Body.ea x f
  runShared 0x09 y s
    (fun e slot o =>
      let res := if (s.elem e).pred f.toNat then readSpec s e y x.a else readSpec s e y x.b
      fireValue s e slot o y res (res != 0) 0 0 id none)
    (fun c k =>
      let res := if k.p.getLsbD f.toNat then k.reg x.a else k.reg x.b
      coreWrite s c k y res (res != 0))

/-- R105. Writes a sign-extended 22-bit constant. -/
def execMovk (x : EK) (s : State) : Out :=
  let y := Body.ek x
  runShared 0x15 y s
    (fun e slot o => fireValue s e slot o y (x.imm.signExtend 32) false 0 0 id none)
    (fun c k => coreWrite s c k y (x.imm.signExtend 64) false)

/-- R105. Shifts D left by 22 and ORs in a 22-bit constant. -/
def execMovks (x : EK) (s : State) : Out :=
  let y := Body.ek x
  runShared 0x16 y s
    (fun e slot o => fireValue s e slot o y (IntAlu.movks 32 (readSpec s e y x.d) x.imm) false 0 0 id none)
    (fun c k => coreWrite s c k y (IntAlu.movks 64 (k.reg x.d) x.imm) false)

/-- The input whose head the A operand names and the firing takes: an ERR token that the firing passes on (R12). -/
def passedOn (x : EA) : Option Nat :=
  let k := x.a.toNat - 16
  if 16 ≤ x.a.toNat && x.a.toNat ≤ 19 && x.dq.getLsbD k then some k else none

/-- R106. Copies A to D; to an output it writes a token with tag F. A MARKER asks for a cut and travels with the element's
own marker at its snapshot (R343); of two before that snapshot the later one's payload travels (DESIGN CHOICE, log 91). -/
def execMov (x : EA) (f : BitVec 3) (s : State) : Out :=
  let y := Body.ea x f
  runShared 0x17 y s
    (fun e slot o =>
      let a := readSpec s e y x.a
      match outOf x.d with
      | some k =>
        if f = 4 then
          if outFull (s.elem e) y o then s.abort e slot .outFull
          else
            let s := (takeInputs s e x.dq none).askCut (Key.pkOfElem e)
            s.modElem e fun el =>
              (({ el with movMark := el.movMark.insert k (a.setWidth 64) } : Elem).result s.round 1 []
                (puWrite x.pu (a != 0))).noAbort slot
        else fireValue s e slot o y a (a != 0) 0 f id (if f = 6 then passedOn x else none)
      | none => fireValue s e slot o y a (a != 0) 0 0 id none)
    (fun c k => coreWrite s c k y (k.reg x.a) (k.reg x.a != 0))

/-- R107. Forwards the head token of input A, tag included, to output D. -/
def execFwd (x : EA) (s : State) : Out :=
  let y := Body.ea x 0
  runElem 0x18 y s fun e slot o =>
    let k := x.a.toNat - 16
    let el := s.elem e
    let passed := if el.headTag s.round k = 6 then passedOn x else none
    fireValue s e slot o y (el.headVal s.round k) false 0 (el.headTag s.round k) id passed

/-- R109. Writes an ERR token with payload A to output D. -/
def execErrt (x : EA) (s : State) : Out :=
  let y := Body.ea x 0
  runElem 0x1E y s fun e slot o =>
    fireValue s e slot o y (readSpec s e y x.a) false 0 6 id (passedOn x)

/-- R110. Reads the eight predicates as a byte. -/
def execPget (x : EA) (s : State) : Out :=
  let y := Body.ea x 0
  runShared 0x19 y s
    (fun e slot o =>
      let res : Word := (s.elem e).p.setWidth 32
      fireValue s e slot o y res (res != 0) 0 0 id none)
    (fun c k =>
      let res : Dword := k.p.setWidth 64
      coreWrite s c k y res (res != 0))

/-- The forms of PMOV that write the predicates (R110); PU applies after the form's own write. -/
def runPmov (x : EA) (f : BitVec 3) (g : BitVec 8 → BitVec 8 → BitVec 8) (s : State) : Out :=
  let y := Body.ea x f
  runShared 0x19 y s
    (fun e slot o =>
      let p := g (s.elem e).p ((readSpec s e y x.a).setWidth 8)
      fireValue s e slot o y 0 (p != 0) 0 0 (fun el => { el with p := p }) none)
    (fun c k =>
      let p := g k.p ((k.reg x.a).setWidth 8)
      coreWrite s c { k with p := p } y 0 (p != 0))

/-- R110. Writes the eight predicates from a byte. -/
def execPput (x : EA) (s : State) : Out := runPmov x 1 (fun _ a => a) s

/-- R110. Sets the predicates selected by a mask. -/
def execPsetm (x : EA) (s : State) : Out := runPmov x 2 (fun p a => p ||| a) s

/-- R110. Clears the predicates selected by a mask. -/
def execPclrm (x : EA) (s : State) : Out := runPmov x 3 (fun p a => p &&& ~~~a) s

/-- R111. Applies only its takes and its predicate update. -/
def execNop (x : EA) (s : State) : Out :=
  let y := Body.ea x 0
  runShared 0x1A y s
    (fun e slot o => fireValue s e slot o y 0 false 0 0 id none)
    (fun c k => .done (s.setCore c (k.update x.pu false).advance))

/-- The local store word of R112: A plus the immediate, modulo 64. -/
def lsIndex (a : Word) (imm : BitVec 8) : Nat := (a + imm.signExtend 32).toNat % 64

/-- R112. Loads a word of the element's local store. -/
def execLld (x : EI) (s : State) : Out :=
  let y := Body.ei x
  runElem 0x1B y s fun e slot o =>
    let res := (s.elem e).ls.get 0 (lsIndex (readSpec s e y x.a) x.imm)
    fireValue s e slot o y res (res != 0) 0 0 id none

/-- R112. Stores the value of its D field, read as a source, into the element's local store. -/
def execLst (x : EI) (s : State) : Out :=
  let y := Body.ei x
  runElem 0x1C y s fun e slot o =>
    let k := lsIndex (readSpec s e y x.a) x.imm
    let v := readSpec s e y x.d
    fireValue s e slot o y 0 false 0 0 (fun el => { el with ls := el.ls.put 0 k v }) none

/-- R113. Posts an ETRAP event in the next round. -/
def execEtrap (x : EA) (f : BitVec 3) (s : State) : Out :=
  let y := Body.ea x f
  runElem 0x1D y s fun e slot o =>
    let b := readSpec s e y x.b
    let r := s.mkEv 3 f.toNat (elemPlace e) (b.setWidth 64) (BitVec.ofNat 64 slot)
    let s := { s with nextId := s.nextId + 1 }
    fireValue s e slot o y 0 false 0 0
      (fun el => { el with landing := el.landing ++ [{ due := s.round + 1, ev := some r }] }) none

/-- R114. Sets HALT on the element in its plane; AGE of every slot returns to 0 (R91). -/
def execEhalt (x : EA) (s : State) : Out :=
  let y := Body.ea x 0
  runElem 0x1F y s fun e slot o =>
    fireValue s e slot o y 0 false 0 0 (fun el => { el with halt := true }) none

end Sys2Proof.Machine
end

