-- ==== Sys2Proof/Machine/MasonEng.lean ====
section
/-! DEFINITION. Machine/MasonEng: a mason core's access to islands and streamers (R317) and to keystones (R318). -/

namespace Sys2Proof.Machine

/-! ### Engine places and selectors (R317) -/

/-- The selector in g[B]: plane, kind and index. -/
structure Selector where
  plane : Nat
  kind  : Nat
  index : Nat
  deriving DecidableEq, Repr

def selectorOf (b : Dword) : Option Selector :=
  let n := b.toNat
  if n / 2 ^ 32 ≠ 0 then none else some ⟨n / 2 ^ 30, n / 2 ^ 27 % 8, n % 2 ^ 27⟩

/-- The position that a space-3 place with offset zero names, of islands or of streamers (R7, R184): die, side and position. -/
def engineArg (s : State) (a : Dword) (streamer : Bool) : Option (Nat × Nat × Nat) :=
  (placeArg a).bind fun p =>
    let pos := Place.bits p 40 36
    if Place.space p = 3 && isOwn s p && p % 2 ^ 36 = 0 && decide (28 ≤ pos) == streamer then
      some (Place.die p, Place.bits p 42 41, pos)
    else none

def engineKey (e : Nat × Nat × Nat) (plane : Nat) : Nat := Key.engine e.1 e.2.1 e.2.2 plane

/-- The region of an engine is frozen (R317). -/
def engineFrozen (s : State) (i : Nat) : Bool :=
  match s.regionOf (Key.enginePk i) with
  | some rk => (s.region rk).frozen
  | none => false

/-! ### Islands -/

/-- A word of SROW or SCOL. -/
def specialWord (sl : ISlot) (w : Nat) : Word :=
  if w < 4 then sl.srow.extractLsb' (32 * w) 32 else sl.scol.extractLsb' (32 * (w - 4)) 32

/-- Thirty-two bits of a vector of 128 replaced. -/
def putBits (v : BitVec 128) (w : Nat) (x : Word) : BitVec 128 :=
  (v &&& ~~~((0xFFFFFFFF : BitVec 128) <<< (32 * w))) ||| (x.setWidth 128 <<< (32 * w))

/-- An item of an island; none for a bad kind or index. -/
def islandItem (isl : Island) (kind index : Nat) : Option Dword :=
  match kind with
  | 0 => if index < 2 ^ 17 then some (((isl.slot (index / 2 ^ 14)).val.get 0 (index % 2 ^ 14)).setWidth 64) else none
  | 1 => if index < 8 then some (Island.descriptor (isl.slot index)) else none
  | 2 => if index < 64 then some ((isl.dir.get 0 index).setWidth 64) else none
  | 3 => if index = 0 then some (isl.setup.setWidth 64) else none
  | 4 => if index < 64 then some ((specialWord (isl.slot (index / 8)) (index % 8)).setWidth 64) else none
  | 5 => if index = 0 then some (BitVec.ofNat 64 isl.spillVa) else if index = 1 then some (BitVec.ofNat 64 isl.spillN) else none
  | 6 => if index = 0 then some (BitVec.ofNat 64 isl.ckpt) else none
  | _ => none

/-- The RW fields of a SETUP record (R242): OUTJ, OUTI, CEN and RM. -/
def setupRw : Word := 0x3FFFB8

/-- An item of an island that is written: a SETUP record keeps its RO fields (R3, R242), and a new spill area is pinned again (R264). -/
def islandWrite (s : State) (i kind index : Nat) (v : Dword) : State :=
  let isl := s.island i
  match kind with
  | 0 =>
    let sl := isl.slot (index / 2 ^ 14)
    s.setIsland i (isl.touch (index / 2 ^ 14) { sl with val := sl.val.put 0 (index % 2 ^ 14) (v.setWidth 32) })
  | 3 => s.setIsland i { isl with setup := (isl.setup &&& ~~~setupRw) ||| (v.setWidth 32 &&& setupRw) }
  | 4 =>
    let sl := isl.slot (index / 8)
    let w := index % 8
    s.setIsland i (isl.touch (index / 8) (if w < 4 then { sl with srow := putBits sl.srow w (v.setWidth 32) }
      else { sl with scol := putBits sl.scol (w - 4) (v.setWidth 32) }))
  | 5 =>
    let isl := if index = 0 then { isl with spillVa := v.toNat % 2 ^ 56 } else { isl with spillN := min v.toNat 64 }
    let ctx := match (s.regionOf (Key.enginePk i)).bind fun rk => (s.region rk).launch with | some l => (s.launch l).ctx | none => 0
    s.setIsland i { isl with spillPins := pinsOr (pinSpill s ctx i isl) }
  | 6 => s.setIsland i { isl with ckpt := v.toNat % 2 ^ 60 }
  | _ => s

/-- R317. Reads an item of an island. -/
def execSlotrd (x : EA) (s : State) : Out :=
  runSys 0x5D 0 x s fun c y a b =>
    match engineArg s a false, selectorOf b with
    | some e, some sel =>
      match islandItem (s.island (engineKey e sel.plane)) sel.kind sel.index with
      | some v => ret s c y v.toNat
      | none => .trap Cause.load Detail.space a
    | _, _ => .trap Cause.load Detail.space a

/-- Commands of an island accepted and not completed. -/
def islandOutstanding (isl : Island) : Nat := (isl.mmas.countP fun m => m.done.isNone) + (if isl.job = .none then 0 else 1)

/-- An island waits for firmware on SPILL-FULL. -/
def spillWaits (s : State) (i : Nat) : Bool :=
  (s.island i).spillWait.isSome || match s.regionOf (Key.enginePk i) with
    | some rk => (s.region rk).waitEv.isSome && (s.region rk).waitType == 8 && (s.region rk).waitIsl == some i
    | none => false

/-- R317. Writes an item of an island whose region is frozen, or its spill area while it waits on SPILL-FULL; descriptors and directory
entries are read only (R261). -/
def execSlotwr (x : EA) (s : State) : Out :=
  runSys 0x5D 1 x s fun c y a b =>
    match engineArg s a false, selectorOf b with
    | some e, some sel =>
      let i := engineKey e sel.plane
      if (islandItem (s.island i) sel.kind sel.index).isNone || sel.kind == 1 || sel.kind == 2 then .trap Cause.store Detail.space a
      else if !engineFrozen s i && !(sel.kind == 5 && spillWaits s i) then .trap Cause.store Detail.live a
      else coreNext (islandWrite s i sel.kind sel.index ((s.core c).reg x.d)) c y
    | _, _ => .trap Cause.store Detail.space a

/-- R317. Reads the status of an island, in the plane the core has selected (log 24). -/
def execIslst (x : EA) (s : State) : Out :=
  runSys 0x5D 2 x s fun c y a _ =>
    match engineArg s a false with
    | some e =>
      let i := engineKey e (s.core c).selPlane
      let isl := s.island i
      let n := islandOutstanding isl
      ret s c y (min n 255 * 2 ^ 8 + (spillWaits s i).toNat * 2 ^ 4 + (decide (0 < n) || isl.xfer.isSome).toNat * 2 ^ 3
        + ISetup.fmt isl.setup)
    | none => .trap Cause.load Detail.space a

/-! ### Streamers -/

/-- R317. Reads an item of a streamer: an SPB dword, the word of a command that it holds, or its ring and evict state, whose layout the
spec does not give: a free value (log 4). -/
def execStrd (x : EA) (s : State) : Out :=
  runSys 0x5E 0 x s fun c y a b =>
    match engineArg s a true, selectorOf b with
    | some e, some sel =>
      let t := s.streamer (engineKey e sel.plane)
      match sel.kind with
      | 0 => if sel.index < 512 then ret s c y (t.spbs.get 0 sel.index).toNat else .trap Cause.load Detail.space a
      | 1 => if sel.index < 64 then ret s c y ((t.cmds[sel.index]?.map fun k => k.word.toNat).getD 0) else .trap Cause.load Detail.space a
      | 2 =>
        if sel.index = 0 then ret { s with freeCtr := s.freeCtr + 1 } c y (Config.freeDword s.freeCtr).toNat
        else .trap Cause.load Detail.space a
      | _ => .trap Cause.load Detail.space a
    | _, _ => .trap Cause.load Detail.space a

/-- R317. Writes a dword of the SPB table of a streamer whose region is frozen. -/
def execStwr (x : EA) (s : State) : Out :=
  runSys 0x5E 1 x s fun c y a b =>
    match engineArg s a true, selectorOf b with
    | some e, some sel =>
      let i := engineKey e sel.plane
      if sel.kind ≠ 0 || 512 ≤ sel.index then .trap Cause.store Detail.space a
      else if !engineFrozen s i then .trap Cause.store Detail.live a
      else
        let t := s.streamer i
        coreNext (s.setStreamer i { t with spbs := t.spbs.put 0 sel.index ((s.core c).reg x.d) }) c y
    | _, _ => .trap Cause.store Detail.space a

/-- R317. Reads the status of a streamer, in the plane the core has selected (log 24). -/
def execStst (x : EA) (s : State) : Out :=
  runSys 0x5E 2 x s fun c y a _ =>
    match engineArg s a true with
    | some e =>
      let t := s.streamer (engineKey e (s.core c).selPlane)
      let closed := ((t.cmds.map (·.batch)).eraseDups.filter (· != t.batchNo)).length
      ret s c y ((decide (0 < t.opened)).toNat * 2 ^ 12 + min closed 31 * 2 ^ 7 + min t.cmds.length 127)
    | none => .trap Cause.load Detail.space a

/-! ### Keystones (R318) -/

/-- The range that a place names (R184, R200): the device keystone of that tile, or the keystone that the tile has in the plane the core
has selected (log 24). -/
def ksHere (s : State) (c p : Nat) : Nat :=
  if (s.kstone (16384 + Place.tile p)).mapped then 16384 + Place.tile p else Place.tile p * 4 + (s.core c).selPlane

/-- A place stands within a range (R318). -/
def ksReaches (s : State) (c p : Nat) : Bool :=
  Place.bits p 32 12 == 0 && (s.kstone (ksHere s c p)).mapped && Place.bits p 11 0 < 4 * (s.kstone (ksHere s c p)).words

/-- A core's access enters a keystone's arrival order, and the core waits for its answer (R204); a keystone that withholds takes none
(R202, R214), and a full list of held arrivals holds a core back as it does a port (DESIGN CHOICE, log 100). -/
def ksAccess (s : State) (c ks : Nat) (cmd : KCmd) (p : CorePend) : CoreRes :=
  if ksWithholds (s.kstone ks) || !diesLinked s (coreDie c) (rangeDie ks) then hold s c
  else .done (ksArrive (s.setCore c { s.core c with pend := some p }) ks cmd (.core c))

/-- A KSA operation: a word-aligned address of a keystone word that exists, here or on another device (R318, R367). -/
def runKsa (f : BitVec 3) (x : EA) (write : Bool) (op : Dword → KOp) (s : State) : Out :=
  runSys 0x5F f x s fun c y a b =>
    let cause := if write then Cause.store else Cause.load
    if a.toNat % 4 ≠ 0 then .trap Cause.align 0 a
    else match resolve s c a (!write) write with
      | (_, .bad d) => .trap cause d a
      | (_, .ecc) => .trap Cause.ecc 0 a
      | (s, .wait) => hold s c
      | (s, .place p) =>
        let pend := CorePend.ask a cause (!write) y.d 8 false y.pu
        let cmd : KCmd := ⟨op b, Place.bits p 11 0 / 4, b.setWidth 32⟩
        if Place.space p ≠ 4 then .trap cause Detail.space a
        else if !isOwn s p then
          if reachable s then .done (askRemote s c p (.ku cmd write) pend) else .trap cause Detail.space a
        else if !ksReaches s c p then .trap cause Detail.space a
        else ksAccess s c (ksHere s c p) cmd pend

/-- R318. Reads a keystone word. -/
def execKsrd (x : EA) (s : State) : Out := runKsa 0 x false (fun _ => .read) s

/-- R318. Writes a keystone word; on a barrier word it is a re-initialisation. -/
def execKswr (x : EA) (s : State) : Out := runKsa 1 x true (fun _ => .write) s

/-- R318. Reads the range status, then clears the sticky bits that g[B] names. -/
def execKsst (x : EA) (s : State) : Out := runKsa 2 x false (fun b => .status (b.setWidth 7)) s

end Sys2Proof.Machine
end

