-- ==== Sys2Proof/Machine/Issue.lean ====
section
/-! DEFINITION. Machine/Issue: an instruction word runs on the unit at hand (R25, R39), the round of an element's scheduler
(R78), and the word at a mason core's PC (R300). -/

namespace Sys2Proof.Machine

/-- A word that is no instruction: no rule of an element ever is one, and a mason core traps it as illegal (R37, R38). -/
def issueReject (w : Dword) (s : State) : Out :=
  match s.cur with
  | .element _ _ => .next s
  | .core c => .next (s.takeTrap c Cause.illegal 0 w)

/-- A form of an EA opcode, from F = 0 upward (R34). -/
def issueForm (w : Dword) (forms : List (EA → State → Out)) (s : State) : Out :=
  match forms[(fOf w).toNat]? with
  | some f => f (eaOf w) s
  | none => issueReject w s

/-- The meaning of a word whose opcode is `op`, by the opcode map of R39. -/
def issueOp (op : Nat) (w : Dword) (s : State) : Out :=
  match op with
  | 0x01 => issueForm w [execAdd, execSub, execAnd, execOr, execXor, execAndn, execMin, execMax] s
  | 0x02 => issueForm w [execMinu, execMaxu, execAdds, execSubs, execAddsu, execSubsu, execAbsd, execAvg] s
  | 0x03 => issueForm w [execShl, execShr, execSar, execRol, execRor] s
  | 0x04 => issueForm w [execMul, execMulhs, execMulhu, execMulhsu] s
  | 0x05 => issueForm w [execDivs, execDivu, execRems, execRemu] s
  | 0x06 => issueForm w [execCmpeq, execCmpne, execCmplt, execCmple, execCmpltu, execCmpleu, execTst, execTstn] s
  | 0x07 => issueForm w [execClz, execCtz, execPopc, execBrev, execBswap, execSexb, execSexh, execZexh] s
  | 0x08 => issueForm w [execBfxu, execBfxs, execBfi] s
  | 0x09 => execSel (eaOf w) (fOf w) s
  | 0x0A => execAddi (eiOf w) s
  | 0x0B => execAndi (eiOf w) s
  | 0x0C => execOri (eiOf w) s
  | 0x0D => execXori (eiOf w) s
  | 0x0E => execShli (eiOf w) s
  | 0x0F => execShri (eiOf w) s
  | 0x10 => execSari (eiOf w) s
  | 0x11 => execCmpieq (eiOf w) s
  | 0x12 => execCmpilt (eiOf w) s
  | 0x13 => execCmpiltu (eiOf w) s
  | 0x14 => execMuli (eiOf w) s
  | 0x15 => execMovk (ekOf w) s
  | 0x16 => execMovks (ekOf w) s
  | 0x17 => execMov (eaOf w) (fOf w) s
  | 0x18 => issueForm w [execFwd] s
  | 0x19 => issueForm w [execPget, execPput, execPsetm, execPclrm] s
  | 0x1A => issueForm w [execNop] s
  | 0x1B => execLld (eiOf w) s
  | 0x1C => execLst (eiOf w) s
  | 0x1D => execEtrap (eaOf w) (fOf w) s
  | 0x1E => issueForm w [execErrt] s
  | 0x1F => issueForm w [execEhalt] s
  | 0x20 => issueForm w [execFadd, execFsub, execFmul, execFdiv, execFmin, execFmax, execFminn, execFmaxn] s
  | 0x21 => issueForm w [execFma, execFms, execFnma, execFnms] s
  | 0x22 => issueForm w [execFceq, execFclt, execFcle, execFcun, execFcne, execFceqs, execFclts, execFcles] s
  | 0x23 => issueForm w [execFsqrt, execFabs, execFneg, execFclass, execFrcpa, execFrsqa, execFrint, execFcpys] s
  | 0x24 => issueForm w [execI2f, execN2f, execF2i, execF2iz, execF2n, execF2bf, execBf2fl, execBf2fh] s
  | 0x25 => issueForm w [execF2h, execH2fl, execH2fh] s
  | 0x26 => issueForm w [execBadd2, execBsub2, execBmul2, execBfma2, execBmax2, execBmin2, execBdot2, execBmaxv2] s
  | 0x27 => issueForm w [execHadd2, execHsub2, execHmul2, execHfma2, execHmax2, execHmin2, execHdot2] s
  | 0x28 => issueForm w [execQdot4, execQunpl, execQunph, execQpack, execQamax] s
  | 0x29 => issueForm w [execQ2f, execF2q, execQscl] s
  | 0x2A => issueForm w [execReqRne, execReqRna, execReqRtz, execReqRup, execReqRdn, execReqFctl] s
  | 0x2B => issueForm w [execFrfl, execFwfl, execFclr] s
  | 0x2C => issueForm w [execBceq2, execBclt2, execBcle2, execBcun2] s
  | 0x2D => issueForm w [execHceq2, execHclt2, execHcle2, execHcun2] s
  | 0x2E => issueForm w [execAdd2h, execSub2h, execMax2h, execMin2h, execMax2hu, execMin2hu] s
  | 0x2F => issueForm w [execAdd4b, execSub4b, execMax4b, execMin4b, execSad4b, execDot4b, execDot4bu] s
  | 0x30 => execContrib (ecOf w) s
  | 0x31 => execContribc (ecOf w) s
  | 0x32 => execCclose (ecOf w) s
  | 0x33 => execSettle (ecOf w) s
  | 0x34 => execPeek (ecOf w) s
  | 0x35 => execCstat (ecOf w) s
  | 0x36 => execCrst (ecOf w) s
  | 0x37 => execCpoll (ecOf w) s
  | 0x38 => issueForm w [execMxtMma, execMxtBind, execMxtRebind, execMxtRelease, execMxtSpill, execMxtFlush,
      execMxtSetup, execMxtIfence] s
  | 0x39 => issueForm w [execStcCopy, execStcGather, execStcScatter, execStcFlagf, execStcBatch, execStcWaitb,
      execStcInject, execStcEvict] s
  | 0x3A => issueForm w [execAmoAdd, execAmoAdds, execAmoMin, execAmoMax, execAmoAnd, execAmoOr, execAmoXor, execAmoSwap] s
  | 0x3B => issueForm w [execAmorAdd, execAmorAdds, execAmorMin, execAmorMax, execAmorAnd, execAmorOr, execAmorXor,
      execAmorSwap] s
  | 0x3C => execAmoc (eaOf w) (fOf w) s
  | 0x3D => issueForm w [execAmofFadd, execAmofFmax, execAmofFmin, execAmofBadd2] s
  | 0x3E => issueForm w [execSchdNext, execSchdReset] s
  | 0x3F => issueForm w [execMxq] s
  | 0x40 => execBr (mbOf w) s
  | 0x41 => execBrl (mbOf w) s
  | 0x42 => issueForm w [execBri, execBrli] s
  | 0x43 => execLdb (msOf w) s
  | 0x44 => execLdh (msOf w) s
  | 0x45 => execLdw (msOf w) s
  | 0x46 => execLdd (msOf w) s
  | 0x47 => execLdbs (msOf w) s
  | 0x48 => execLdhs (msOf w) s
  | 0x49 => execLdws (msOf w) s
  | 0x4A => execStb (msOf w) s
  | 0x4B => execSth (msOf w) s
  | 0x4C => execStw (msOf w) s
  | 0x4D => execStd (msOf w) s
  | 0x4E => issueForm w [execMamoAdd, execMamoMin, execMamoMax, execMamoAnd, execMamoOr, execMamoXor, execMamoSwap,
      execMamoCas] s
  | 0x4F => issueForm w [execFenceAll, execFenceLd, execFenceSt, execFenceAcq, execFenceRel, execFenceCfg] s
  | 0x50 => execSysrd (eiOf w) s
  | 0x51 => execSyswr (eiOf w) s
  | 0x52 => issueForm w [execTrap, execEret, execIdle, execWfe, execSev, execBrk, execHalt] s
  | 0x53 => issueForm w [execCfgw, execCfgr, execCfgcommit, execCfgabort, execCfgstat, execPlanesel, execSnaprd, execRollbk] s
  | 0x54 => issueForm w [execFreeze, execThaw, execReadout, execRestore, execProbe, execDrainreq] s
  | 0x55 => issueForm w [execCrcb, execCrch, execCrcw, execCrcd] s
  | 0x56 => issueForm w [execShka, execShks, execSigv, execSecst] s
  | 0x57 => issueForm w [execWqpop, execWqpush, execWqstat] s
  | 0x58 => issueForm w [execLkst, execLkrt, execLkctl] s
  | 0x59 => issueForm w [execTlbi, execPwalk, execMigr, execMigq] s
  | 0x5A => execMovpc (ekOf w) s
  | 0x5B => issueForm w [execIinv, execIinva] s
  | 0x5C => issueForm w [execEvpop, execEvack, execEvstat] s
  | 0x5D => issueForm w [execSlotrd, execSlotwr, execIslst] s
  | 0x5E => issueForm w [execStrd, execStwr, execStst] s
  | 0x5F => issueForm w [execKsrd, execKswr, execKsst] s
  | _ => issueReject w s

/-- The meaning of a word (R25). -/
def issueWord (w : Dword) (s : State) : Out := issueOp (opcodeOf w).toNat w s

/-! ### The element scheduler (R78) -/

/-- The rules eligible in this round; an element that has drained has none (R77, R141). -/
def eligibleSlots (el : Elem) (n : Nat) : List Nat := if el.io.drained then [] else (List.range 16).filter (eligible el n)

/-- A rule's word runs on its element: no mason word is one (R38). -/
def issueRule (w : Dword) (s : State) : Out := if (opcodeOf w).toNat < 0x40 then issueWord w s else .next s

/-- FireRule of the chosen rules, each with its word, one at a time in walk order (R78, R79). -/
def fireRules (e : Nat) : List (Nat × Dword) → State → Out
  | [], s => .next s
  | (slot, w) :: rest, s =>
    match issueRule w { s with cur := .element e slot } with
    | .next s' => fireRules e rest s'
    | o => o

/-- A chosen rule has done work: it has trapped (LASTC 1), or fired. A fired rule leaves ABORTS at 0, where an abort that wraps the count
posts its event (R89, R90). -/
def firedSlot (e : Nat) (s s' : State) (slot : Nat) : Bool :=
  let x := (s'.elem e).slotSt slot
  x.lastc == 1 || (x.aborts == 0 && (((s.elem e).slotSt slot).aborts != 65535 || s'.nextId == s.nextId))

/-- R78. Each round in which its plane is active, the scheduler chooses rules in walk order, fires them, and moves its pointers and
counters. -/
def execScheduleRound (e : Nat) (s : State) : Out :=
  if !planeActive s (Key.pkOfElem e) then .next s
  else
    let el := s.elem e
    let elig := eligibleSlots el s.round
    let chosen := choose el (walkOrder el elig)
    match fireRules e (chosen.map fun c => (c.1, el.slots.get 0 c.1)) s with
    | .next s' =>
      let s' := if chosen.any fun c => firedSlot e s s' c.1 then s'.touch (Key.pkOfElem e) else s'
      .next (s'.modElem e fun el => updateCounters (updatePointers el chosen) elig chosen)
    | o => o

/-! ### The word at PC (R300) -/

/-- A core that may begin a word: it runs, and no access of it waits for its answer. -/
def Core.canFetch (k : Core) : Bool := k.run == .running && k.pend.isNone

/-- R300. A core whose answer has come from a keystone takes it first (R204). A mason core fetches the word at PC and executes it; a fetch that fails traps FETCH. At the
ROM entry core 0 of die 0 runs the ROM, whose effect R401 gives. -/
def execInstructionFetch (c : Nat) (s : State) : Out :=
  let s := s.setCore c ((s.core c).landed s.round)
  if !(s.core c).canFetch then .next s
  else if c = 0 && (s.core c).pc == romEntry then .next (romBoot s)
  else match fetchAt s c with
    | (s, .trap cause detail) => .next (s.takeTrap c cause detail (s.core c).pc)
    | (s, .wait) => .next s
    | (s, .word w) => issueWord w { s with cur := .core c }

end Sys2Proof.Machine
end

