-- ==== Sys2Proof/Machine/Dispatch.lean ====
section
/-! DEFINITION. Machine/Dispatch: the meaning of every instruction, one arm each. -/

namespace Sys2Proof.Machine

def exec (i : Instr) (s : State) : Host.Outcome State Fault Refusal :=
    match i with
    | .scheduleRound e => Sys2Proof.Machine.execScheduleRound e s
    | .resultLands e => Sys2Proof.Machine.execResultLands e s
    | .outputTokenAccept ch => Sys2Proof.Machine.execOutputTokenAccept ch s
    | .tokenReceipt ch dst => Sys2Proof.Machine.execTokenReceipt ch dst s
    | .creditReturn ch => Sys2Proof.Machine.execCreditReturn ch s
    | .deliveryTimeout ch => Sys2Proof.Machine.execDeliveryTimeout ch s
    | .frameTableStep die => Sys2Proof.Machine.execFrameTableStep die s
    | .workQueueTake die => Sys2Proof.Machine.execWorkQueueTake die s
    | .launchAdmit l => Sys2Proof.Machine.execLaunchAdmit l s
    | .preemptedRestore l => Sys2Proof.Machine.execPreemptedRestore l s
    | .configurationWaveHop r => Sys2Proof.Machine.execConfigurationWaveHop r s
    | .seedInjection r => Sys2Proof.Machine.execSeedInjection r s
    | .nextCourseWrite l => Sys2Proof.Machine.execNextCourseWrite l s
    | .graphEnd l => Sys2Proof.Machine.execGraphEnd l s
    | .latencyClassExpiry l => Sys2Proof.Machine.execLatencyClassExpiry l s
    | .elementDrain e => Sys2Proof.Machine.execElementDrain e s
    | .tileDrn pk => Sys2Proof.Machine.execTileDrn pk s
    | .engineDrainPass u => Sys2Proof.Machine.execEngineDrainPass u s
    | .mkroundsExpiry r => Sys2Proof.Machine.execMkroundsExpiry r s
    | .mktokensReached u => Sys2Proof.Machine.execMktokensReached u s
    | .startRequestHop r => Sys2Proof.Machine.execStartRequestHop r s
    | .snapshotEv u => Sys2Proof.Machine.execSnapshotEv u s
    | .cutComplete r => Sys2Proof.Machine.execCutComplete r s
    | .relEv r => Sys2Proof.Machine.execRelEv r s
    | .rollbackEv r cause => Sys2Proof.Machine.execRollbackEv r cause s
    | .handEv tile bank => Sys2Proof.Machine.execHandEv tile bank s
    | .bankScrub tile bank => Sys2Proof.Machine.execBankScrub tile bank s
    | .bankService tile => Sys2Proof.Machine.execBankService tile s
    | .agRequestIssue a => Sys2Proof.Machine.execAgRequestIssue a s
    | .agLoadData a => Sys2Proof.Machine.execAgLoadData a s
    | .walkEv die => Sys2Proof.Machine.execWalkEv die s
    | .repeatNodeFill pk => Sys2Proof.Machine.execRepeatNodeFill pk s
    | .repeatNodeCount pk => Sys2Proof.Machine.execRepeatNodeCount pk s
    | .repeatNodeEmit pk => Sys2Proof.Machine.execRepeatNodeEmit pk s
    | .scheduleNodeServe pk => Sys2Proof.Machine.execScheduleNodeServe pk s
    | .contribLocal h k => Sys2Proof.Machine.execContribLocal h k s
    | .closeNotice h k => Sys2Proof.Machine.execCloseNotice h k s
    | .gatherIssue h => Sys2Proof.Machine.execGatherIssue h s
    | .gatherRead h k => Sys2Proof.Machine.execGatherRead h k s
    | .settleReply h => Sys2Proof.Machine.execSettleReply h s
    | .resetArrival h k => Sys2Proof.Machine.execResetArrival h k s
    | .resetAck h k => Sys2Proof.Machine.execResetAck h k s
    | .updateIssue ks => Sys2Proof.Machine.execUpdateIssue ks s
    | .irrevocableDeparture e => Sys2Proof.Machine.execIrrevocableDeparture e s
    | .keystoneReply e => Sys2Proof.Machine.execKeystoneReply e s
    | .migrationCopyDone ks => Sys2Proof.Machine.execMigrationCopyDone ks s
    | .keystoneForward ks => Sys2Proof.Machine.execKeystoneForward ks s
    | .streamerCommandAccept st => Sys2Proof.Machine.execStreamerCommandAccept st s
    | .streamerCommandComplete st id => Sys2Proof.Machine.execStreamerCommandComplete st id s
    | .flagfWrite st id => Sys2Proof.Machine.execFlagfWrite st id s
    | .streamerDrain st => Sys2Proof.Machine.execStreamerDrain st s
    | .collectiveStart st => Sys2Proof.Machine.execCollectiveStart st s
    | .collectiveHop st => Sys2Proof.Machine.execCollectiveHop st s
    | .bucketComplete st b => Sys2Proof.Machine.execBucketComplete st b s
    | .islandCommandAccept isl => Sys2Proof.Machine.execIslandCommandAccept isl s
    | .spillTransferDone isl => Sys2Proof.Machine.execSpillTransferDone isl s
    | .mmaComplete isl => Sys2Proof.Machine.execMmaComplete isl s
    | .resultEmit isl => Sys2Proof.Machine.execResultEmit isl s
    | .islandCheckpointWrite isl slot => Sys2Proof.Machine.execIslandCheckpointWrite isl slot s
    | .islandDrain isl => Sys2Proof.Machine.execIslandDrain isl s
    | .instructionFetch c => Sys2Proof.Machine.execInstructionFetch c s
    | .eventTrap c => Sys2Proof.Machine.execEventTrap c s
    | .idleWake c => Sys2Proof.Machine.execIdleWake c s
    | .wfeWake c => Sys2Proof.Machine.execWfeWake c s
    | .coreRunWrite c v => Sys2Proof.Machine.execCoreRunWrite c v s
    | .commitWaveHop r => Sys2Proof.Machine.execCommitWaveHop r s
    | .deadlockProbeAuto r => Sys2Proof.Machine.execDeadlockProbeAuto r s
    | .fatalError cause => Sys2Proof.Machine.execFatalError cause s
    | .hostLaunch => Sys2Proof.Machine.execHostLaunch s
    | .hostMread => Sys2Proof.Machine.execHostMread s
    | .hostMwrite => Sys2Proof.Machine.execHostMwrite s
    | .hostPower => Sys2Proof.Machine.execHostPower s
    | .hostReset => Sys2Proof.Machine.execHostReset s
    | .rdReq => Sys2Proof.Machine.execRdReq s
    | .wrReq => Sys2Proof.Machine.execWrReq s
    | .kuReq => Sys2Proof.Machine.execKuReq s
    | .atReq => Sys2Proof.Machine.execAtReq s
    | .dltAnswer => Sys2Proof.Machine.execDltAnswer s
    | .dltTimeout id => Sys2Proof.Machine.execDltTimeout id s
    | .linkRetrain l => Sys2Proof.Machine.execLinkRetrain l s
    | .retrainComplete l => Sys2Proof.Machine.execRetrainComplete l s
    | .retrainTimeout l failed modules => Sys2Proof.Machine.execRetrainTimeout l failed modules s
    | .powerLimitIdle u => Sys2Proof.Machine.execPowerLimitIdle u s
    | .deviceReset => Sys2Proof.Machine.execDeviceReset s
    | .attestationGo => Sys2Proof.Machine.execAttestationGo s
    | .attestationDone => Sys2Proof.Machine.execAttestationDone s
    | .rangeWordWrite ks v => Sys2Proof.Machine.execRangeWordWrite ks v s
    | .tileRetire tile => Sys2Proof.Machine.execTileRetire tile s
    | .patrolScrub die vault granule => Sys2Proof.Machine.execPatrolScrub die vault granule s
    | .registerWrite place v => Sys2Proof.Machine.execRegisterWrite place v s
    | .powerLoss => Sys2Proof.Machine.execPowerLoss s
    | .linkLevelReplay l => Sys2Proof.Machine.execLinkLevelReplay l s
    | .hostMessage => Sys2Proof.Machine.execHostMessage s
    | .add x => Sys2Proof.Machine.execAdd x s
    | .sub x => Sys2Proof.Machine.execSub x s
    | .and x => Sys2Proof.Machine.execAnd x s
    | .or x => Sys2Proof.Machine.execOr x s
    | .xor x => Sys2Proof.Machine.execXor x s
    | .andn x => Sys2Proof.Machine.execAndn x s
    | .min x => Sys2Proof.Machine.execMin x s
    | .max x => Sys2Proof.Machine.execMax x s
    | .minu x => Sys2Proof.Machine.execMinu x s
    | .maxu x => Sys2Proof.Machine.execMaxu x s
    | .adds x => Sys2Proof.Machine.execAdds x s
    | .subs x => Sys2Proof.Machine.execSubs x s
    | .addsu x => Sys2Proof.Machine.execAddsu x s
    | .subsu x => Sys2Proof.Machine.execSubsu x s
    | .absd x => Sys2Proof.Machine.execAbsd x s
    | .avg x => Sys2Proof.Machine.execAvg x s
    | .shl x => Sys2Proof.Machine.execShl x s
    | .shr x => Sys2Proof.Machine.execShr x s
    | .sar x => Sys2Proof.Machine.execSar x s
    | .rol x => Sys2Proof.Machine.execRol x s
    | .ror x => Sys2Proof.Machine.execRor x s
    | .mul x => Sys2Proof.Machine.execMul x s
    | .mulhs x => Sys2Proof.Machine.execMulhs x s
    | .mulhu x => Sys2Proof.Machine.execMulhu x s
    | .mulhsu x => Sys2Proof.Machine.execMulhsu x s
    | .divs x => Sys2Proof.Machine.execDivs x s
    | .divu x => Sys2Proof.Machine.execDivu x s
    | .rems x => Sys2Proof.Machine.execRems x s
    | .remu x => Sys2Proof.Machine.execRemu x s
    | .cmpeq x => Sys2Proof.Machine.execCmpeq x s
    | .cmpne x => Sys2Proof.Machine.execCmpne x s
    | .cmplt x => Sys2Proof.Machine.execCmplt x s
    | .cmple x => Sys2Proof.Machine.execCmple x s
    | .cmpltu x => Sys2Proof.Machine.execCmpltu x s
    | .cmpleu x => Sys2Proof.Machine.execCmpleu x s
    | .tst x => Sys2Proof.Machine.execTst x s
    | .tstn x => Sys2Proof.Machine.execTstn x s
    | .clz x => Sys2Proof.Machine.execClz x s
    | .ctz x => Sys2Proof.Machine.execCtz x s
    | .popc x => Sys2Proof.Machine.execPopc x s
    | .brev x => Sys2Proof.Machine.execBrev x s
    | .bswap x => Sys2Proof.Machine.execBswap x s
    | .sexb x => Sys2Proof.Machine.execSexb x s
    | .sexh x => Sys2Proof.Machine.execSexh x s
    | .zexh x => Sys2Proof.Machine.execZexh x s
    | .bfxu x => Sys2Proof.Machine.execBfxu x s
    | .bfxs x => Sys2Proof.Machine.execBfxs x s
    | .bfi x => Sys2Proof.Machine.execBfi x s
    | .sel x f => Sys2Proof.Machine.execSel x f s
    | .addi x => Sys2Proof.Machine.execAddi x s
    | .andi x => Sys2Proof.Machine.execAndi x s
    | .ori x => Sys2Proof.Machine.execOri x s
    | .xori x => Sys2Proof.Machine.execXori x s
    | .shli x => Sys2Proof.Machine.execShli x s
    | .shri x => Sys2Proof.Machine.execShri x s
    | .sari x => Sys2Proof.Machine.execSari x s
    | .cmpieq x => Sys2Proof.Machine.execCmpieq x s
    | .cmpilt x => Sys2Proof.Machine.execCmpilt x s
    | .cmpiltu x => Sys2Proof.Machine.execCmpiltu x s
    | .muli x => Sys2Proof.Machine.execMuli x s
    | .movk x => Sys2Proof.Machine.execMovk x s
    | .movks x => Sys2Proof.Machine.execMovks x s
    | .mov x f => Sys2Proof.Machine.execMov x f s
    | .fwd x => Sys2Proof.Machine.execFwd x s
    | .pget x => Sys2Proof.Machine.execPget x s
    | .pput x => Sys2Proof.Machine.execPput x s
    | .psetm x => Sys2Proof.Machine.execPsetm x s
    | .pclrm x => Sys2Proof.Machine.execPclrm x s
    | .nop x => Sys2Proof.Machine.execNop x s
    | .lld x => Sys2Proof.Machine.execLld x s
    | .lst x => Sys2Proof.Machine.execLst x s
    | .etrap x f => Sys2Proof.Machine.execEtrap x f s
    | .errt x => Sys2Proof.Machine.execErrt x s
    | .ehalt x => Sys2Proof.Machine.execEhalt x s
    | .add2h x => Sys2Proof.Machine.execAdd2h x s
    | .sub2h x => Sys2Proof.Machine.execSub2h x s
    | .max2h x => Sys2Proof.Machine.execMax2h x s
    | .min2h x => Sys2Proof.Machine.execMin2h x s
    | .max2hu x => Sys2Proof.Machine.execMax2hu x s
    | .min2hu x => Sys2Proof.Machine.execMin2hu x s
    | .add4b x => Sys2Proof.Machine.execAdd4b x s
    | .sub4b x => Sys2Proof.Machine.execSub4b x s
    | .max4b x => Sys2Proof.Machine.execMax4b x s
    | .min4b x => Sys2Proof.Machine.execMin4b x s
    | .sad4b x => Sys2Proof.Machine.execSad4b x s
    | .dot4b x => Sys2Proof.Machine.execDot4b x s
    | .dot4bu x => Sys2Proof.Machine.execDot4bu x s
    | .fadd x => Sys2Proof.Machine.execFadd x s
    | .fsub x => Sys2Proof.Machine.execFsub x s
    | .fmul x => Sys2Proof.Machine.execFmul x s
    | .fdiv x => Sys2Proof.Machine.execFdiv x s
    | .fmin x => Sys2Proof.Machine.execFmin x s
    | .fmax x => Sys2Proof.Machine.execFmax x s
    | .fminn x => Sys2Proof.Machine.execFminn x s
    | .fmaxn x => Sys2Proof.Machine.execFmaxn x s
    | .fma x => Sys2Proof.Machine.execFma x s
    | .fms x => Sys2Proof.Machine.execFms x s
    | .fnma x => Sys2Proof.Machine.execFnma x s
    | .fnms x => Sys2Proof.Machine.execFnms x s
    | .fceq x => Sys2Proof.Machine.execFceq x s
    | .fclt x => Sys2Proof.Machine.execFclt x s
    | .fcle x => Sys2Proof.Machine.execFcle x s
    | .fcun x => Sys2Proof.Machine.execFcun x s
    | .fcne x => Sys2Proof.Machine.execFcne x s
    | .fceqs x => Sys2Proof.Machine.execFceqs x s
    | .fclts x => Sys2Proof.Machine.execFclts x s
    | .fcles x => Sys2Proof.Machine.execFcles x s
    | .fsqrt x => Sys2Proof.Machine.execFsqrt x s
    | .fabs x => Sys2Proof.Machine.execFabs x s
    | .fneg x => Sys2Proof.Machine.execFneg x s
    | .fclass x => Sys2Proof.Machine.execFclass x s
    | .frcpa x => Sys2Proof.Machine.execFrcpa x s
    | .frsqa x => Sys2Proof.Machine.execFrsqa x s
    | .frint x => Sys2Proof.Machine.execFrint x s
    | .fcpys x => Sys2Proof.Machine.execFcpys x s
    | .i2f x => Sys2Proof.Machine.execI2f x s
    | .n2f x => Sys2Proof.Machine.execN2f x s
    | .f2i x => Sys2Proof.Machine.execF2i x s
    | .f2iz x => Sys2Proof.Machine.execF2iz x s
    | .f2n x => Sys2Proof.Machine.execF2n x s
    | .f2bf x => Sys2Proof.Machine.execF2bf x s
    | .bf2fl x => Sys2Proof.Machine.execBf2fl x s
    | .bf2fh x => Sys2Proof.Machine.execBf2fh x s
    | .f2h x => Sys2Proof.Machine.execF2h x s
    | .h2fl x => Sys2Proof.Machine.execH2fl x s
    | .h2fh x => Sys2Proof.Machine.execH2fh x s
    | .badd2 x => Sys2Proof.Machine.execBadd2 x s
    | .bsub2 x => Sys2Proof.Machine.execBsub2 x s
    | .bmul2 x => Sys2Proof.Machine.execBmul2 x s
    | .bfma2 x => Sys2Proof.Machine.execBfma2 x s
    | .bmax2 x => Sys2Proof.Machine.execBmax2 x s
    | .bmin2 x => Sys2Proof.Machine.execBmin2 x s
    | .bdot2 x => Sys2Proof.Machine.execBdot2 x s
    | .bmaxv2 x => Sys2Proof.Machine.execBmaxv2 x s
    | .hadd2 x => Sys2Proof.Machine.execHadd2 x s
    | .hsub2 x => Sys2Proof.Machine.execHsub2 x s
    | .hmul2 x => Sys2Proof.Machine.execHmul2 x s
    | .hfma2 x => Sys2Proof.Machine.execHfma2 x s
    | .hmax2 x => Sys2Proof.Machine.execHmax2 x s
    | .hmin2 x => Sys2Proof.Machine.execHmin2 x s
    | .hdot2 x => Sys2Proof.Machine.execHdot2 x s
    | .bceq2 x => Sys2Proof.Machine.execBceq2 x s
    | .bclt2 x => Sys2Proof.Machine.execBclt2 x s
    | .bcle2 x => Sys2Proof.Machine.execBcle2 x s
    | .bcun2 x => Sys2Proof.Machine.execBcun2 x s
    | .hceq2 x => Sys2Proof.Machine.execHceq2 x s
    | .hclt2 x => Sys2Proof.Machine.execHclt2 x s
    | .hcle2 x => Sys2Proof.Machine.execHcle2 x s
    | .hcun2 x => Sys2Proof.Machine.execHcun2 x s
    | .qdot4 x => Sys2Proof.Machine.execQdot4 x s
    | .qunpl x => Sys2Proof.Machine.execQunpl x s
    | .qunph x => Sys2Proof.Machine.execQunph x s
    | .qpack x => Sys2Proof.Machine.execQpack x s
    | .qamax x => Sys2Proof.Machine.execQamax x s
    | .q2f x => Sys2Proof.Machine.execQ2f x s
    | .f2q x => Sys2Proof.Machine.execF2q x s
    | .qscl x => Sys2Proof.Machine.execQscl x s
    | .reqRne x => Sys2Proof.Machine.execReqRne x s
    | .reqRna x => Sys2Proof.Machine.execReqRna x s
    | .reqRtz x => Sys2Proof.Machine.execReqRtz x s
    | .reqRup x => Sys2Proof.Machine.execReqRup x s
    | .reqRdn x => Sys2Proof.Machine.execReqRdn x s
    | .reqFctl x => Sys2Proof.Machine.execReqFctl x s
    | .frfl x => Sys2Proof.Machine.execFrfl x s
    | .fwfl x => Sys2Proof.Machine.execFwfl x s
    | .fclr x => Sys2Proof.Machine.execFclr x s
    | .contrib x => Sys2Proof.Machine.execContrib x s
    | .contribc x => Sys2Proof.Machine.execContribc x s
    | .cclose x => Sys2Proof.Machine.execCclose x s
    | .settle x => Sys2Proof.Machine.execSettle x s
    | .peek x => Sys2Proof.Machine.execPeek x s
    | .cstat x => Sys2Proof.Machine.execCstat x s
    | .cpoll x => Sys2Proof.Machine.execCpoll x s
    | .crst x => Sys2Proof.Machine.execCrst x s
    | .mxtMma x => Sys2Proof.Machine.execMxtMma x s
    | .mxtBind x => Sys2Proof.Machine.execMxtBind x s
    | .mxtRebind x => Sys2Proof.Machine.execMxtRebind x s
    | .mxtRelease x => Sys2Proof.Machine.execMxtRelease x s
    | .mxtSpill x => Sys2Proof.Machine.execMxtSpill x s
    | .mxtFlush x => Sys2Proof.Machine.execMxtFlush x s
    | .mxtSetup x => Sys2Proof.Machine.execMxtSetup x s
    | .mxtIfence x => Sys2Proof.Machine.execMxtIfence x s
    | .stcCopy x => Sys2Proof.Machine.execStcCopy x s
    | .stcGather x => Sys2Proof.Machine.execStcGather x s
    | .stcScatter x => Sys2Proof.Machine.execStcScatter x s
    | .stcFlagf x => Sys2Proof.Machine.execStcFlagf x s
    | .stcBatch x => Sys2Proof.Machine.execStcBatch x s
    | .stcWaitb x => Sys2Proof.Machine.execStcWaitb x s
    | .stcInject x => Sys2Proof.Machine.execStcInject x s
    | .stcEvict x => Sys2Proof.Machine.execStcEvict x s
    | .amoAdd x => Sys2Proof.Machine.execAmoAdd x s
    | .amoAdds x => Sys2Proof.Machine.execAmoAdds x s
    | .amoMin x => Sys2Proof.Machine.execAmoMin x s
    | .amoMax x => Sys2Proof.Machine.execAmoMax x s
    | .amoAnd x => Sys2Proof.Machine.execAmoAnd x s
    | .amoOr x => Sys2Proof.Machine.execAmoOr x s
    | .amoXor x => Sys2Proof.Machine.execAmoXor x s
    | .amoSwap x => Sys2Proof.Machine.execAmoSwap x s
    | .amorAdd x => Sys2Proof.Machine.execAmorAdd x s
    | .amorAdds x => Sys2Proof.Machine.execAmorAdds x s
    | .amorMin x => Sys2Proof.Machine.execAmorMin x s
    | .amorMax x => Sys2Proof.Machine.execAmorMax x s
    | .amorAnd x => Sys2Proof.Machine.execAmorAnd x s
    | .amorOr x => Sys2Proof.Machine.execAmorOr x s
    | .amorXor x => Sys2Proof.Machine.execAmorXor x s
    | .amorSwap x => Sys2Proof.Machine.execAmorSwap x s
    | .amoc x f => Sys2Proof.Machine.execAmoc x f s
    | .amofFadd x => Sys2Proof.Machine.execAmofFadd x s
    | .amofFmax x => Sys2Proof.Machine.execAmofFmax x s
    | .amofFmin x => Sys2Proof.Machine.execAmofFmin x s
    | .amofBadd2 x => Sys2Proof.Machine.execAmofBadd2 x s
    | .schdNext x => Sys2Proof.Machine.execSchdNext x s
    | .schdReset x => Sys2Proof.Machine.execSchdReset x s
    | .mxq x => Sys2Proof.Machine.execMxq x s
    | .br x => Sys2Proof.Machine.execBr x s
    | .brl x => Sys2Proof.Machine.execBrl x s
    | .bri x => Sys2Proof.Machine.execBri x s
    | .brli x => Sys2Proof.Machine.execBrli x s
    | .movpc x => Sys2Proof.Machine.execMovpc x s
    | .ldb x => Sys2Proof.Machine.execLdb x s
    | .ldh x => Sys2Proof.Machine.execLdh x s
    | .ldw x => Sys2Proof.Machine.execLdw x s
    | .ldd x => Sys2Proof.Machine.execLdd x s
    | .ldbs x => Sys2Proof.Machine.execLdbs x s
    | .ldhs x => Sys2Proof.Machine.execLdhs x s
    | .ldws x => Sys2Proof.Machine.execLdws x s
    | .stb x => Sys2Proof.Machine.execStb x s
    | .sth x => Sys2Proof.Machine.execSth x s
    | .stw x => Sys2Proof.Machine.execStw x s
    | .std x => Sys2Proof.Machine.execStd x s
    | .mamoAdd x => Sys2Proof.Machine.execMamoAdd x s
    | .mamoMin x => Sys2Proof.Machine.execMamoMin x s
    | .mamoMax x => Sys2Proof.Machine.execMamoMax x s
    | .mamoAnd x => Sys2Proof.Machine.execMamoAnd x s
    | .mamoOr x => Sys2Proof.Machine.execMamoOr x s
    | .mamoXor x => Sys2Proof.Machine.execMamoXor x s
    | .mamoSwap x => Sys2Proof.Machine.execMamoSwap x s
    | .mamoCas x => Sys2Proof.Machine.execMamoCas x s
    | .fenceAll x => Sys2Proof.Machine.execFenceAll x s
    | .fenceLd x => Sys2Proof.Machine.execFenceLd x s
    | .fenceSt x => Sys2Proof.Machine.execFenceSt x s
    | .fenceAcq x => Sys2Proof.Machine.execFenceAcq x s
    | .fenceRel x => Sys2Proof.Machine.execFenceRel x s
    | .fenceCfg x => Sys2Proof.Machine.execFenceCfg x s
    | .iinv x => Sys2Proof.Machine.execIinv x s
    | .iinva x => Sys2Proof.Machine.execIinva x s
    | .sysrd x => Sys2Proof.Machine.execSysrd x s
    | .syswr x => Sys2Proof.Machine.execSyswr x s
    | .trap x => Sys2Proof.Machine.execTrap x s
    | .eret x => Sys2Proof.Machine.execEret x s
    | .idle x => Sys2Proof.Machine.execIdle x s
    | .wfe x => Sys2Proof.Machine.execWfe x s
    | .sev x => Sys2Proof.Machine.execSev x s
    | .brk x => Sys2Proof.Machine.execBrk x s
    | .halt x => Sys2Proof.Machine.execHalt x s
    | .cfgw x => Sys2Proof.Machine.execCfgw x s
    | .cfgr x => Sys2Proof.Machine.execCfgr x s
    | .cfgcommit x => Sys2Proof.Machine.execCfgcommit x s
    | .cfgabort x => Sys2Proof.Machine.execCfgabort x s
    | .cfgstat x => Sys2Proof.Machine.execCfgstat x s
    | .planesel x => Sys2Proof.Machine.execPlanesel x s
    | .snaprd x => Sys2Proof.Machine.execSnaprd x s
    | .rollbk x => Sys2Proof.Machine.execRollbk x s
    | .freeze x => Sys2Proof.Machine.execFreeze x s
    | .thaw x => Sys2Proof.Machine.execThaw x s
    | .readout x => Sys2Proof.Machine.execReadout x s
    | .restore x => Sys2Proof.Machine.execRestore x s
    | .probe x => Sys2Proof.Machine.execProbe x s
    | .drainreq x => Sys2Proof.Machine.execDrainreq x s
    | .crcb x => Sys2Proof.Machine.execCrcb x s
    | .crch x => Sys2Proof.Machine.execCrch x s
    | .crcw x => Sys2Proof.Machine.execCrcw x s
    | .crcd x => Sys2Proof.Machine.execCrcd x s
    | .shka x => Sys2Proof.Machine.execShka x s
    | .shks x => Sys2Proof.Machine.execShks x s
    | .sigv x => Sys2Proof.Machine.execSigv x s
    | .secst x => Sys2Proof.Machine.execSecst x s
    | .wqpop x => Sys2Proof.Machine.execWqpop x s
    | .wqpush x => Sys2Proof.Machine.execWqpush x s
    | .wqstat x => Sys2Proof.Machine.execWqstat x s
    | .evpop x => Sys2Proof.Machine.execEvpop x s
    | .evack x => Sys2Proof.Machine.execEvack x s
    | .evstat x => Sys2Proof.Machine.execEvstat x s
    | .lkst x => Sys2Proof.Machine.execLkst x s
    | .lkrt x => Sys2Proof.Machine.execLkrt x s
    | .lkctl x => Sys2Proof.Machine.execLkctl x s
    | .tlbi x => Sys2Proof.Machine.execTlbi x s
    | .pwalk x => Sys2Proof.Machine.execPwalk x s
    | .migr x => Sys2Proof.Machine.execMigr x s
    | .migq x => Sys2Proof.Machine.execMigq x s
    | .slotrd x => Sys2Proof.Machine.execSlotrd x s
    | .slotwr x => Sys2Proof.Machine.execSlotwr x s
    | .islst x => Sys2Proof.Machine.execIslst x s
    | .strd x => Sys2Proof.Machine.execStrd x s
    | .stwr x => Sys2Proof.Machine.execStwr x s
    | .stst x => Sys2Proof.Machine.execStst x s
    | .ksrd x => Sys2Proof.Machine.execKsrd x s
    | .kswr x => Sys2Proof.Machine.execKswr x s
    | .ksst x => Sys2Proof.Machine.execKsst x s

end Sys2Proof.Machine
end

