-- ==== Sys2Proof/Machine/Plan.lean ====
section
/-! DEFINITION. Machine/Plan: the steps of one round in the order in which this model takes them (log 2). A step whose condition does
not hold by then changes nothing, so that the plan lists what may be due. The plan takes every step in the earliest round that its
rule allows. -/

namespace Sys2Proof.Machine

/-! ### Outside the fabric -/

/-- The step that serves a host message (R365). -/
def hostStep (m : HostMsg) : Instr :=
  match m.type with
  | 1 => .hostLaunch
  | 3 => .hostMread
  | 4 => .hostMwrite
  | 5 => .hostPower
  | 6 => .hostReset
  | _ => .hostMessage

/-- The step that applies a request of another device (R367). -/
def dltInStep (q : DltIn) : Instr :=
  match q.op with
  | .rd _ => .rdReq
  | .wr _ _ => .wrReq
  | .ku _ _ => .kuReq
  | .at_ _ _ _ => .atReq

/-- Answers that have come from other devices, and bounds that have passed (R367, R369). -/
def dltPlan (s : State) : List Instr :=
  s.dltAnsIn.map (fun _ => .dltAnswer)
    ++ (s.dltOut.filter fun q => decide (q.sent + dltBound < s.round)).map fun q => .dltTimeout q.id

/-- A retrain ends in the round after it began, unless something else came first; what waits behind a die-to-die link that takes no traffic
times out (R373, R375); a report is signed (R404). -/
def linkPlan (s : State) : List Instr :=
  (s.links.filter fun l => match l.2.training with | some t => decide (t < s.round) | none => false).map (fun l => .retrainComplete l.1)
    ++ (s.links.filter fun l => decide (32 ≤ l.1) && match l.2.downAt with | some t => decide (t + 24000 ≤ s.round) | none => false).map
        (fun l => .retrainTimeout l.1 0 0)
    ++ (if s.attest.state = 1 then [.attestationDone] else [])

/-- The granules of vaults that errors stand in, where their turn in the scrubber's schedule has come or has yielded (R405): rewriting a
sound granule changes nothing. -/
def scrubPlan (s : State) : List Instr :=
  let now := s.eccBad.filterMap fun e =>
    let p := 8 * e.1
    if Place.space p = 1 && p / 16 % 2 ^ 24 = s.round % 2 ^ 24 then some (p / 16 * 16) else none
  (now ++ (List.range 4).flatMap fun d => (s.die d).scrubDue).eraseDups.map fun p =>
    .patrolScrub (Place.die p) (vaultOf p) (p % 2 ^ 37 / 16)

/-- A byte of the firmware copy in HBM has an uncorrectable error (R356, R401). -/
def firmwareBad (s : State) : Bool := s.eccBad.any fun e => decide (firmwareBase ≤ 8 * e.1) && decide (8 * e.1 < firmwareBase + 2 ^ 28)

/-- Every core of a die has stopped on a double trap. -/
def dieStopped (s : State) (d : Nat) : Bool := (List.range 4).all fun c => (s.core (4 * d + c)).run == .double

/-- The causes of a fatal error: 1 a double trap on core 0 of die 0, 2 all cores of a die stopped, 3 an error in firmware memory
(R356). -/
def fatalPlan (s : State) : List Instr :=
  if (s.core 0).run = .double then [.fatalError 1]
  else if (List.range 4).any (dieStopped s) then [.fatalError 2]
  else if firmwareBad s then [.fatalError 3]
  else []

/-! ### Launches (R13, R14, R338-R341, R351) -/

/-- Launches that wait or are pre-empted, by falling priority, the pre-empted first among equals (R351), then by rising queue number
(R13). -/
def insertLaunch (x : Nat × Launch) : List (Nat × Launch) → List (Nat × Launch)
  | [] => [x]
  | y :: ys =>
    let key (l : Launch) : Nat := 2 * l.prio + (if l.phase = .preempted then 1 else 0)
    if key y.2 < key x.2 || (key y.2 = key x.2 && x.2.queue < y.2.queue) then x :: y :: ys else y :: insertLaunch x ys

def waitingSteps (s : State) : List Instr :=
  ((s.launches.filter fun l => l.2.phase == .waiting || l.2.phase == .preempted).foldl (fun l x => insertLaunch x l) []).map fun l =>
    if l.2.phase = .preempted then .preemptedRestore l.1 else .launchAdmit l.1

/-- A launch of a die has ended and holds its own record (R337, log 84). -/
def recordWaits (s : State) (d : Nat) : Bool :=
  s.launches.any fun l => l.2.die == d && match l.2.phase with | .ended _ => true | _ => false

def launchPlan (s : State) : List Instr :=
  let dies := List.range 4
  (dies.filter fun d => (s.die d).frame.any fun e => e.2.getLsbD 63).map Instr.frameTableStep
    ++ (dies.filter fun d => (nextHead s d).isSome || !(s.die d).heldCpl.isEmpty || recordWaits s d).map Instr.workQueueTake
    ++ waitingSteps s
    ++ s.launches.keys.map Instr.latencyClassExpiry
    ++ (s.launches.filter fun l => l.2.phase == .running).flatMap fun l => [.nextCourseWrite l.1, .graphEnd l.1]

/-! ### One region -/

/-- Keystones: what has arrived is applied, and migrations go on (R204, R214). -/
def keystonePlan (s : State) : List Instr :=
  s.kstones.flatMap fun k =>
    (if k.2.inq.isEmpty then [] else [.updateIssue k.1]) ++ (if k.2.copyTo.isSome then [.migrationCopyDone k.1] else [])
      ++ (if k.2.fwd.isSome then k.2.waitQ.map fun _ => .keystoneForward k.1 else [])

/-- Combining registers of a region (R153-R166). -/
def homePlan (s : State) (r : Region) : List Instr :=
  (r.mregs.map Prod.snd).flatMap fun h =>
    let x := s.home h
    let ks := List.range x.decl.contribs.length
    (ks.flatMap fun k => (x.toSlot.get [] k).map fun _ => .contribLocal h k)
      ++ (ks.flatMap fun k => (x.toHome.get [] k).map fun m => match m with
        | .notice _ => .closeNotice h k
        | .ack _ => .resetAck h k)
      ++ match x.op with
        | some (.read _ _ _ _ _) => .gatherIssue h :: ks.map (fun k => .gatherRead h k) ++ [.settleReply h]
        | some (.reset _ _ _ _) => ks.map fun k => .resetArrival h k
        | none => []

/-- What the request port and the results of an element have in flight (R87, R209). -/
def portPlan (s : State) (e : Nat) : List Instr :=
  let el := s.elem e
  (if el.landing.isEmpty then [] else [.resultLands e]) ++ el.ksIn.map (fun _ => .keystoneReply e)

/-- Work that goes on in a frozen region too (R347): what is in flight lands, and islands finish. A streamer has nothing more to do than to
take the answers of its outstanding accesses. -/
def inFlight (s : State) : UnitRef → List Instr
  | .elem e => portPlan s e
  | .island i =>
    let x := s.island i
    (x.pendImg.map fun k => .islandCheckpointWrite i k) ++ (if x.xfer.isSome then [.spillTransferDone i] else [])
      ++ (if x.mmas.isEmpty && x.job == .none then [] else [.mmaComplete i, .resultEmit i])
  | _ => []

/-- The memory error that a read of an AG or a streamer has met (R345, R405). -/
def agEcc (s : State) (a : Nat) : Option Nat :=
  (s.ag a).waiting.bind fun r => if isOwn s r.place && s.eccAt r.place r.size then some r.place else none

def chunkEcc (s : State) (cs : List RdChunk) : Option Nat := (cs.find? fun c => isOwn s c.place && s.eccAt c.place c.n).map (·.place)

def streamerEcc (s : State) (i : Nat) : Option Nat :=
  let t := s.streamer i
  (t.cmds.findSome? fun c =>
      if c.status ≠ 0 then none
      else match c.form, c.x.phase with
        | 0, 0 | 1, 0 | 2, 0 => chunkEcc s (auxChunks t c)
        | 0, 1 | 1, 1 | 2, 1 | 6, 0 => match srcChunks s (Key.enginePk i) t c with
          | .inl (cs, _) => chunkEcc s cs
          | .inr _ => none
        | _, _ => none)
    <|> t.runs.findSome? fun b => match b.2, t.bucks.get none b.1 with
      | some r, some d =>
        if r.x.phase ≠ 0 then none
        else chunkEcc s (affChunks d.src (bucketPins t b.1 0) (4 * Coll.count d)
          ++ match d.wire with
            | 1 => affChunks d.scale (bucketPins t b.1 2) 1
            | 2 => affChunks d.errmem (bucketPins t b.1 3) (4 * Coll.count d)
            | _ => [])
      | _, _ => none

/-- The word of a keystone that the oldest command of an element waits for there holds an error. -/
def portEcc (s : State) (e : Nat) : Option Nat :=
  s.kstones.findSome? fun k => match k.2.inq with
    | a :: _ => match a.src with
      | .port f _ _ =>
        if f = e && mayIssue s.round k.2 a && keystoneBad s k.1 a.cmd.idx then some (keystoneCell s k.1 a.cmd.idx) else none
      | _ => none
    | [] => none

/-- A hop of a streamer has not come to the other device within its bound (R369, R379). -/
def hopLate (s : State) (i : Nat) : Bool := s.hopsOut.any fun h => h.st == i && decide (h.sent + dltBound < s.round)

/-- The rollback that a unit has come to: an uncorrectable error on a read, a spill with no free image (R264, R345), or a hop that has
missed its bound (R379). -/
def rollbackOf (s : State) : UnitRef → Option RollCause
  | .elem e => (portEcc s e).map .ecc
  | .ag a => (agEcc s a).map .ecc
  | .streamer i => ((streamerEcc s i).map .ecc) <|> (if hopLate s i then some (.deliveryTimeout 3 70) else none)
  | .island i => ((islandEcc s (s.island i)).map .ecc) <|> (s.island i).spillWait.map fun m => .spillFull i m
  | .repeatNode pk => match (s.rep pk).st with
    | .emit _ pos => if s.eccAt (repPlace s pk pos) 4 then some (.ecc (repPlace s pk pos)) else none
    | _ => none
  | _ => none

/-- The repeat node: its bank serves it after the AGs of its tile and before requests from outside (R177). -/
def repeatPlan (s : State) : UnitRef → List Instr
  | .repeatNode k => if (s.rep k).bound then [.repeatNodeEmit k, .repeatNodeCount k, .repeatNodeFill k] else []
  | _ => []

/-- Streams, engines and rules of a running region. -/
def unitPlan (s : State) (r : Region) : UnitRef → List Instr
  | .elem e =>
    let el := s.elem e
    (if el.irrev.isEmpty && el.posted.all (fun p => decide (r.lastRel < p.cut)) then [] else [.irrevocableDeparture e])
      ++ (if el.slots.isEmpty then [] else [.scheduleRound e]) ++ portPlan s e
  | .ag a => if (s.ag a).bound then [.agRequestIssue a, .agLoadData a] else []
  | .repeatNode _ => []
  | .schedNode k => if (s.sched k).reqs.isEmpty then [] else [.scheduleNodeServe k]
  | .island i => inFlight s (.island i) ++ [.islandCommandAccept i, .islandDrain i]
  | .streamer i =>
    let t := s.streamer i
    (t.cmds.flatMap fun c => if c.form = 3 && c.status = 0 then [.flagfWrite i c.id] else [.streamerCommandComplete i c.id])
      ++ [.streamerCommandAccept i] ++ (if t.coll.isSome then [.collectiveHop i, .collectiveStart i] else [])
      ++ (t.runs.filter fun b => b.2.isSome).map (fun b => .bucketComplete i b.1) ++ [.streamerDrain i]
  | .keystone k =>
    if (s.kstone k).held.isEmpty || !keystoneLast s r k then []
    else [.engineDrainPass (.keystone k)]

/-- Drains and cuts of a unit. -/
def drainPlan : UnitRef → List Instr
  | .elem e => [.elementDrain e]
  | .island _ | .streamer _ | .keystone _ => []
  | u => [.engineDrainPass u]

/-- Tokens that leave outputs: a token that becomes ready in a round leaves in it (R86), so that every channel is listed. -/
def sendPlan (chs : List Nat) : List Instr := (chs.filter fun ch => (chanSender ch).isSome).map Instr.outputTokenAccept

/-- The first part of a region's round: tokens that arrive, markers and snapshots, and the repeat nodes. -/
def earlyPlan (s : State) (rk : Nat) (r : Region) : List Instr :=
  ((r.units.filterMap (rollbackOf s)).take 1).map (fun c => .rollbackEv rk c)
    ++ (if r.waveHop.isSome then [.configurationWaveHop rk] else [.seedInjection rk])
    ++ ((regionChans s r).flatMap fun ch => (s.chan ch).flight.map fun f => .tokenReceipt ch f.dst)
    ++ [.mkroundsExpiry rk] ++ (r.units.filter (markerSource s)).map Instr.mktokensReached
    ++ [.startRequestHop rk] ++ r.units.map Instr.snapshotEv
    ++ r.units.flatMap (repeatPlan s)

/-- The second part: units act, drains go on, tokens leave, credits return, bounds are judged. A rule sees its element as it stood at the
start of the round (R77), so a result that lands in a round counts from the next one (R87). -/
def latePlan (s : State) (rk : Nat) (r : Region) : List Instr :=
  let chs := regionChans s r
  let late := chs.filter fun ch => overdue s ch
  r.units.flatMap (unitPlan s r) ++ homePlan s r
    ++ r.units.flatMap drainPlan ++ r.pks.map Instr.tileDrn
    ++ sendPlan chs
    ++ (chs.filter fun ch => decide ((s.chan ch).returned < (s.chan ch).sent)).map Instr.creditReturn
    ++ (late ++ if regionLate s r then (chs.filter (undrained s) ++ chs).take 1 else []).map Instr.deliveryTimeout
    ++ [.cutComplete rk, .deadlockProbeAuto rk]

/-- The two parts of a region's round. In a frozen region only what is in flight goes on (R346). -/
def regionEarly (s : State) (rk : Nat) (r : Region) : List Instr :=
  if !r.live then []
  else if r.commitHop.isSome then [.commitWaveHop rk]
  else if !r.running then []
  else if r.frozen then []
  else earlyPlan s rk r

def regionLatePlan (s : State) (rk : Nat) (r : Region) : List Instr :=
  if !r.live || r.commitHop.isSome || !r.running then []
  else if r.frozen then r.units.flatMap (inFlight s)
  else latePlan s rk r

/-! ### Tile memory and walks -/

/-- Tiles whose banks have loads to serve. -/
def servingTiles (s : State) : List Nat :=
  ((s.ags.filterMap fun a => a.2.waiting.bind fun q => if isTileMem s q.place then some (Place.tile q.place) else none)).eraseDups

/-- Banks scrub and change hands (R182, R183); walkers serve (R189). -/
def memoryPlan (s : State) : List Instr :=
  (s.tiles.flatMap fun t =>
      (t.2.scrub.keys.map fun b => .bankScrub t.1 b)
        ++ (t.2.owner.keys.filter fun b => (List.range 4).any fun p => (s.plane (4 * t.1 + p)).hands.any (·.1 == b)).map fun b => .handEv t.1 b)
    ++ s.walks.flatMap fun w => (w.2.take 64).map fun _ => .walkEv w.1

/-- What the fabric does in a round. Cuts release first (R69). The banks of tile memory serve in the order of R177: the AGs of their tile; repeat nodes;
keystones, other devices and the AGs of other tiles; and mason cores last, after the fabric. -/
def fabricPlan (s : State) : List Instr :=
  let banks := (servingTiles s).map Instr.bankService
  (s.regions.filter fun r => r.2.live && r.2.commitHop.isNone && r.2.running && r.2.relDue.isSome).map (fun r => .relEv r.1)
    ++ banks ++ s.regions.flatMap (fun r => regionEarly s r.1 r.2)
    ++ keystonePlan s ++ s.dltIn.map dltInStep ++ banks
    ++ s.regions.flatMap (fun r => regionLatePlan s r.1 r.2) ++ memoryPlan s

/-! ### Mason cores -/

/-- What a core does in a round: it wakes, takes an event, and executes one word (R295, R300, R307). -/
def corePlan (s : State) (c : Nat) : List Instr :=
  match (s.core c).run with
  | .idle => [.idleWake c]
  | .wfe => [.wfeWake c]
  | .running => [.eventTrap c, .instructionFetch c]
  | _ => []

/-! ### The round -/

/-- The steps of a round. After a fatal error the device serves messages only (R356); IDLE gates the fabric, and STANDBY leaves core 0
of die 0 alone (R400). -/
def roundPlan (s : State) : List Instr :=
  let host := s.hostIn.map hostStep
  if isFatal s then host
  else if s.power = 2 then host ++ corePlan s 0
  else
    host ++ dltPlan s ++ linkPlan s ++ fatalPlan s
      ++ (if s.power = 1 then s.dltIn.map dltInStep
        else launchPlan s ++ fabricPlan s)
      ++ (List.range 16).flatMap (corePlan s) ++ scrubPlan s

end Sys2Proof.Machine
end

