-- ==== Sys2Proof/Machine/Step.lean ====
section
/-! DEFINITION. Machine/Step: one step of the device: the next step of the round at hand, or the turn to the next round
(log 2). -/

namespace Sys2Proof.Machine

/-- The round counter goes up, and the steps of the new round are planned (R30, log 2). -/
def turn (s : State) : State := { s with round := s.round + 1, agenda := roundPlan { s with round := s.round + 1 } }

/-- One step. -/
def step (s : State) : Host.Outcome State Fault Refusal :=
  match s.agenda with
  | [] => .next (turn s)
  | i :: rest => exec i { s with agenda := rest }

/-- Opcodes whose words only elements run (R39). -/
def elementOnly (op : Nat) : Bool :=
  op == 0x18 || (0x1B ≤ op && op ≤ 0x3F)

/-- A region that holds the first tile in plane 0 and runs. -/
def fetchRegion : Region := { live := true, running := true, h := 1, w := 1 }

/-- The instruction of `nbits` bits `w` stands where the next step fetches: a word that only elements run in slot 0 of the first
element, whose scheduler is next; any other at the PC of core 0, which is next (log 1). The bits above `nbits` are zero, up to 64. -/
def State.withFetchWord (s : State) (nbits w : Nat) : State :=
  let word : Dword := BitVec.ofNat 64 (w % 2 ^ nbits)
  if elementOnly (opcodeOf word).toNat then
    { s with
      elems := s.elems.put {} 0 { slots := [(0, word)] }
      regions := s.regions.put {} 0 fetchRegion
      agenda := [.scheduleRound 0] }
  else
    { s with
      mem := (s.write 0 8 word.toNat).mem
      cores := s.cores.put {} 0 { s.core 0 with pc := 0x8000000000000000, run := .running, icache := [], pend := none, busyTo := none, held := false, operands := [] }
      agenda := [.instructionFetch 0] }

end Sys2Proof.Machine
end

