-- ==== Sys2Proof/Safety.lean ====
section
/-! DEFINITION. Safety: the terms that claims use: what it is for a word to run on a mason core or to fire on an element, the
state after a result has been written, the spec's tables of results, and the invariant of a step. -/

namespace Sys2Proof.Claims

open Sys2Proof.Machine

/-- What a step can answer. -/
abbrev Outcome := Host.Outcome State Fault Refusal

/-! ### A word on a mason core (R36) -/

/-- Core `c`, which runs, executes instruction `i`: the word is legal there, and its condition holds. -/
structure CoreRuns (s : State) (c : Nat) (i : Instr) : Prop where
  here  : s.cur = .core c
  runs  : (s.core c).run = .running
  legal : i.coreIllegal = false
  holds : ∀ x, i.body? = some x → (s.core c).condHolds x.guard = true

/-- The registers after a write of `v` to register `d`; g0 discards it (R31). -/
def regsAfter (g : Sparse Dword) (d : BitVec 5) (v : Dword) : Sparse Dword := if d = 0 then g else g.put 0 d.toNat v

/-- The predicates after a PU field, given the condition (R33). -/
def predAfter (p : BitVec 8) (pu : BitVec 5) (cond : Bool) : BitVec 8 :=
  let bit := 1#8 <<< (pu.toNat / 4)
  match pu.toNat % 4 with
  | 1 => p ||| bit
  | 2 => p &&& ~~~bit
  | 3 => if cond then p ||| bit else p &&& ~~~bit
  | _ => p

/-- A core after a word that writes `v` to D, updates PU and goes on: everything else is as before. -/
def coreAfter (k : Core) (d : BitVec 5) (v : Dword) (pu : BitVec 5) (cond : Bool) : Core :=
  { k with g := regsAfter k.g d v, p := predAfter k.p pu cond, pc := k.pc + 8, held := false, operands := [] }

/-- The state after core `c` has written `v` to D with "result nonzero" as the condition, and nothing else. -/
def coreWrote (s : State) (c : Nat) (d : BitVec 5) (pu : BitVec 5) (v : Dword) : State :=
  s.setCore c (coreAfter (s.core c) d v pu (v != 0))

/-- The state after a word that writes no register: PU, and the next word. -/
def coreWent (s : State) (c : Nat) (pu : BitVec 5) : State :=
  s.setCore c { s.core c with p := predAfter (s.core c).p pu false, pc := (s.core c).pc + 8, held := false, operands := [] }

/-- A core after the trap of R294 with TIP clear: the saved registers, the status and the vector. -/
def coreTrapped (k : Core) (cause detail : Nat) (tval : Dword) : Core :=
  { k with
    tepc := k.pc
    tcause := BitVec.ofNat 64 (detail * 256 + cause)
    tval := tval
    pstat := Pstat.mk (Pstat.mode k.pstat || cause == 8) (Pstat.mode k.pstat) (Pstat.evf k.pstat) false (Pstat.ie k.pstat) true
    pc := k.tvb + BitVec.ofNat 64 (64 * cause)
    held := false
    operands := []
    run := .running }

/-- The state after a trap of core `c` with TIP clear. -/
def trapped (s : State) (c cause detail : Nat) (tval : Dword) : State :=
  s.setCore c (coreTrapped (s.core c) cause detail tval)

/-- A core after the asynchronous trap EVENT, with `n` records waiting (R293-R295). -/
def coreEvent (k : Core) (epc : Dword) (n : Nat) : Core :=
  { k with
    tepc := epc
    tcause := BitVec.ofNat 64 (2 ^ 63 + 10)
    tval := BitVec.ofNat 64 n
    pstat := Pstat.mk (Pstat.mode k.pstat) (Pstat.mode k.pstat) (Pstat.evf k.pstat) false (Pstat.ie k.pstat) true
    pc := k.tvb + 640
    held := false
    operands := []
    run := .running }

/-! ### A rule on an element (R35) -/

/-- Element `e` fires instruction `i` of slot `slot`: a word that the loader accepts there. -/
structure ElemFires (s : State) (e slot : Nat) (i : Instr) : Prop where
  here : s.cur = .element e slot
  fits : i.elemFault 0xF 0xF = none

/-- Every output that D names and OR does not has room (R88). -/
def Room (s : State) (e : Nat) (x : Body) : Prop :=
  ∀ k, k < 4 → x.d.toNat = 20 + k → x.guard.orr.getLsbD k = false → (s.elem e).io.room k = true

/-- No flag of an instruction has its trap enabled in FCTL (R54, R55). -/
def NoTrap (s : State) (e : Nat) (fl : BitVec 5) : Prop := fl &&& (s.elem e).fctl.extractLsb' 8 5 = 0

/-- The state after a rule has written a value: its takes, an implicit write `post` of the opcode, the flags, D with the PU
predicate at the opcode's latency, and ABORTS at 0. -/
def valueFired (s : State) (e slot lat : Nat) (x : Body) (code : BitVec 5) (v : Word) (cond : Bool)
    (fl : BitVec 5 := 0) (tag : BitVec 3 := 0) (post : Elem → Elem := id) (passed : Option Nat := none) : State :=
  (takeInputs s e x.dq passed).modElem e fun el =>
    (((post el).orFlags fl).writeDest s.round lat code v tag (puWrite x.pu cond)).noAbort slot

/-! ### The tables of results -/

/-- A truth value as a register value (R100). -/
def truth (w : Nat) (c : Prop) [Decidable c] : BitVec w := if c then 1 else 0

/-- v clamped to lo ... hi. -/
def clamp (lo hi v : Int) : Int := if v < lo then lo else if hi < v then hi else v

/-- One form of an integer opcode of format EA: its constructor, F, its latency in an element, and its result for a register
width (R96-R102). -/
structure AluRow where
  op  : EA → Instr
  f   : BitVec 3
  lat : Nat
  res : (w : Nat) → BitVec w → BitVec w → BitVec w

/-- R96. -/
def aluArith : List AluRow := [
  ⟨.add, 0, 1, fun w a b => BitVec.ofNat w (a.toNat + b.toNat)⟩,
  ⟨.sub, 1, 1, fun w a b => BitVec.ofInt w (a.toInt - b.toInt)⟩,
  ⟨.and, 2, 1, fun _ a b => a &&& b⟩,
  ⟨.or, 3, 1, fun _ a b => a ||| b⟩,
  ⟨.xor, 4, 1, fun _ a b => a ^^^ b⟩,
  ⟨.andn, 5, 1, fun _ a b => a &&& ~~~b⟩,
  ⟨.min, 6, 1, fun w a b => BitVec.ofInt w (min a.toInt b.toInt)⟩,
  ⟨.max, 7, 1, fun w a b => BitVec.ofInt w (max a.toInt b.toInt)⟩,
  ⟨.minu, 0, 1, fun w a b => BitVec.ofNat w (min a.toNat b.toNat)⟩,
  ⟨.maxu, 1, 1, fun w a b => BitVec.ofNat w (max a.toNat b.toNat)⟩,
  ⟨.adds, 2, 1, fun w a b => BitVec.ofInt w (clamp (-2 ^ (w - 1)) (2 ^ (w - 1) - 1) (a.toInt + b.toInt))⟩,
  ⟨.subs, 3, 1, fun w a b => BitVec.ofInt w (clamp (-2 ^ (w - 1)) (2 ^ (w - 1) - 1) (a.toInt - b.toInt))⟩,
  ⟨.addsu, 4, 1, fun w a b => BitVec.ofInt w (clamp 0 (2 ^ w - 1) ((a.toNat : Int) + b.toNat))⟩,
  ⟨.subsu, 5, 1, fun w a b => BitVec.ofInt w (clamp 0 (2 ^ w - 1) ((a.toNat : Int) - b.toNat))⟩,
  ⟨.absd, 6, 1, fun w a b => BitVec.ofNat w (a.toInt - b.toInt).natAbs⟩,
  ⟨.avg, 7, 1, fun w a b => BitVec.ofInt w ((a.toInt + b.toInt + 1) / 2)⟩]

/-- R97-R99: the shift count is B modulo W, and a division by zero gives all ones or the dividend. -/
def aluShiftMulDiv : List AluRow := [
  ⟨.shl, 0, 1, fun w a b => BitVec.ofNat w (a.toNat * 2 ^ (b.toNat % w))⟩,
  ⟨.shr, 1, 1, fun w a b => BitVec.ofNat w (a.toNat / 2 ^ (b.toNat % w))⟩,
  ⟨.sar, 2, 1, fun w a b => BitVec.ofInt w (a.toInt / 2 ^ (b.toNat % w))⟩,
  ⟨.rol, 3, 1, fun _ a b => a.rotateLeft b.toNat⟩,
  ⟨.ror, 4, 1, fun _ a b => a.rotateRight b.toNat⟩,
  ⟨.mul, 0, 2, fun w a b => BitVec.ofNat w (a.toNat * b.toNat)⟩,
  ⟨.mulhs, 1, 2, fun w a b => BitVec.ofInt w (a.toInt * b.toInt / 2 ^ w)⟩,
  ⟨.mulhu, 2, 2, fun w a b => BitVec.ofNat w (a.toNat * b.toNat / 2 ^ w)⟩,
  ⟨.mulhsu, 3, 2, fun w a b => BitVec.ofInt w (a.toInt * b.toNat / 2 ^ w)⟩,
  ⟨.divs, 0, 18, fun w a b => if b = 0 then BitVec.allOnes w else BitVec.ofInt w (a.toInt.tdiv b.toInt)⟩,
  ⟨.divu, 1, 18, fun w a b => if b = 0 then BitVec.allOnes w else BitVec.ofNat w (a.toNat / b.toNat)⟩,
  ⟨.rems, 2, 18, fun w a b => if b = 0 then a else BitVec.ofInt w (a.toInt.tmod b.toInt)⟩,
  ⟨.remu, 3, 18, fun w a b => if b = 0 then a else BitVec.ofNat w (a.toNat % b.toNat)⟩]

/-- R100. -/
def aluCompare : List AluRow := [
  ⟨.cmpeq, 0, 1, fun w a b => truth w (a = b)⟩,
  ⟨.cmpne, 1, 1, fun w a b => truth w (a ≠ b)⟩,
  ⟨.cmplt, 2, 1, fun w a b => truth w (a.toInt < b.toInt)⟩,
  ⟨.cmple, 3, 1, fun w a b => truth w (a.toInt ≤ b.toInt)⟩,
  ⟨.cmpltu, 4, 1, fun w a b => truth w (a.toNat < b.toNat)⟩,
  ⟨.cmpleu, 5, 1, fun w a b => truth w (a.toNat ≤ b.toNat)⟩,
  ⟨.tst, 6, 1, fun w a b => truth w (a &&& b ≠ 0)⟩,
  ⟨.tstn, 7, 1, fun w a b => truth w (a &&& b = 0)⟩]

/-- Position and length of a bit field (R102 in an element, R95 in a mason core), clipped at the top bit. -/
def fieldAt (w : Nat) (b : BitVec w) : Nat × Nat :=
  let pos := if w = 64 then b.toNat / 64 % 64 else b.toNat / 32 % 32
  let len := (if w = 64 then b.toNat % 64 else b.toNat % 32) + 1
  (pos, min len (w - pos))

/-- R101 and R102. -/
def aluBits : List AluRow := [
  ⟨.clz, 0, 1, fun w a _ => BitVec.ofNat w (((List.range w).takeWhile fun k => !a.getMsbD k).length)⟩,
  ⟨.ctz, 1, 1, fun w a _ => BitVec.ofNat w (((List.range w).takeWhile fun k => !a.getLsbD k).length)⟩,
  ⟨.popc, 2, 1, fun w a _ => BitVec.ofNat w (((List.range w).filter a.getLsbD).length)⟩,
  ⟨.brev, 3, 1, fun _ a _ => a.reverse⟩,
  ⟨.bswap, 4, 1, fun w a _ =>
    (List.range (w / 8)).foldl (fun r k => r ||| ((a >>> (8 * k)) &&& 0xFF) <<< (w - 8 - 8 * k)) 0⟩,
  ⟨.sexb, 5, 1, fun w a _ => (a.setWidth 8).signExtend w⟩,
  ⟨.sexh, 6, 1, fun w a _ => (a.setWidth 16).signExtend w⟩,
  ⟨.zexh, 7, 1, fun w a _ => (a.setWidth 16).setWidth w⟩,
  ⟨.bfxu, 0, 1, fun w a b => BitVec.ofNat w (a.toNat / 2 ^ (fieldAt w b).1 % 2 ^ (fieldAt w b).2)⟩,
  ⟨.bfxs, 1, 1, fun w a b => (BitVec.ofNat (fieldAt w b).2 (a.toNat / 2 ^ (fieldAt w b).1)).signExtend w⟩]

/-- Every two-operand and one-operand integer form. -/
def aluRows : List AluRow := aluArith ++ (aluShiftMulDiv ++ (aluCompare ++ aluBits))

/-- One integer opcode of format EI (R104). -/
structure ImmRow where
  op  : EI → Instr
  lat : Nat
  res : (w : Nat) → BitVec w → BitVec w → BitVec w

/-- R104; the second operand is the immediate, sign-extended. -/
def immRows : List ImmRow := [
  ⟨.addi, 1, fun w a b => BitVec.ofNat w (a.toNat + b.toNat)⟩,
  ⟨.andi, 1, fun _ a b => a &&& b⟩,
  ⟨.ori, 1, fun _ a b => a ||| b⟩,
  ⟨.xori, 1, fun _ a b => a ^^^ b⟩,
  ⟨.shli, 1, fun w a b => BitVec.ofNat w (a.toNat * 2 ^ (b.toNat % w))⟩,
  ⟨.shri, 1, fun w a b => BitVec.ofNat w (a.toNat / 2 ^ (b.toNat % w))⟩,
  ⟨.sari, 1, fun w a b => BitVec.ofInt w (a.toInt / 2 ^ (b.toNat % w))⟩,
  ⟨.cmpieq, 1, fun w a b => truth w (a = b)⟩,
  ⟨.cmpilt, 1, fun w a b => truth w (a.toInt < b.toInt)⟩,
  ⟨.cmpiltu, 1, fun w a b => truth w (a.toNat < b.toNat)⟩,
  ⟨.muli, 2, fun w a b => BitVec.ofNat w (a.toNat * b.toNat)⟩]

/-- One load opcode (R302). -/
structure LoadRow where
  op     : MS → Instr
  width  : Nat
  signed : Bool

noncomputable def loadRows : List LoadRow :=
  [⟨.ldb, 1, false⟩, ⟨.ldh, 2, false⟩, ⟨.ldw, 4, false⟩, ⟨.ldd, 8, false⟩, ⟨.ldbs, 1, true⟩, ⟨.ldhs, 2, true⟩, ⟨.ldws, 4, true⟩]

/-- What a load writes to D for the `8 × width` bits read (R302). -/
def loadValue (row : LoadRow) (v : Nat) : Dword :=
  if row.signed then (BitVec.ofNat (8 * row.width) v).signExtend 64 else (BitVec.ofNat (8 * row.width) v).setWidth 64

/-- One store opcode with its width (R302). -/
noncomputable def storeRows : List ((MS → Instr) × Nat) := [(.stb, 1), (.sth, 2), (.stw, 4), (.std, 8)]

/-- One MAMO form: the new dword from the old dword, g[B] and the old D (R303). -/
noncomputable def mamoRows : List ((EA → Instr) × (Dword → Dword → Dword → Dword)) := [
  (.mamoAdd, fun o v _ => o + v),
  (.mamoMin, fun o v _ => if v.toInt < o.toInt then v else o),
  (.mamoMax, fun o v _ => if o.toInt < v.toInt then v else o),
  (.mamoAnd, fun o v _ => o &&& v),
  (.mamoOr, fun o v _ => o ||| v),
  (.mamoXor, fun o v _ => o ^^^ v),
  (.mamoSwap, fun _ v _ => v),
  (.mamoCas, fun o v d => if o = d then v else o)]

/-- The effective address of a load or store (R302). -/
def effAddr (s : State) (c : Nat) (x : MS) : Dword := (s.core c).reg x.a + x.imm.signExtend 64

/-- `width` bytes at place `p` are memory of this device with no uncorrectable error, and core `c` can be served there in this round
(R177, R184, R374, R405). -/
structure InMemory (s : State) (c p width : Nat) : Prop where
  own   : isOwn s p = true
  valid : placeValid s p = true
  space : Place.space p < 3
  clean : s.eccAt p width = false
  turn  : s.coreTurn c p = true

/-- The entry `e` of a table of level `lv` is malformed, as R187 lists it. -/
def EntryBad (s : State) (lv : Nat) (e : Dword) : Prop :=
  let size := (e.extractLsb' 55 3).toNat
  let frame := (e.extractLsb' 0 44).toNat
  4 < size ∨ (size ≠ 0 ∧ size + lv ≠ 5)
    ∨ (size = 0 ∧ (lv = 4 ∨ e.extractLsb' 58 5 ≠ 0 ∨ tableOk s (lv + 1) ((e.extractLsb' 0 55).toNat * 32) = false))
    ∨ (size ≠ 0 ∧ (e.extractLsb' 44 11 ≠ 0 ∨ frame % 2 ^ (pageBits lv - 16) ≠ 0 ∨ pageOk s lv (frame * 65536) = false))

/-- What core `c` reads of an entry of a walk that needs R or W (R188, R296): a permission that is missing, or a migrating page. -/
def missing (d : Dword) (r w : Bool) : Prop := (r = true ∧ leafR d = false) ∨ (w = true ∧ leafW d = false)
def moving (d : Dword) (r w : Bool) : Prop := ¬missing d r w ∧ w = true ∧ leafM d = true

/-- The state after a walk for core `c`, whose leaf enters the core's translation cache (R189, R296). -/
def filled (s : State) (c va lv : Nat) (d : Dword) : State :=
  let ctx := (s.core c).mctx.toNat % 4096
  let t := walkCorrected s va ctx
  { t with freeCtr := t.freeCtr + 1 }.setCore c { s.core c with tlb := fillLeaf 64 t.freeCtr (s.core c).tlb ⟨ctx, va, lv, d⟩ }

/-- Core `c` stays at its word, which it takes again in a later round. -/
def heldAt (s : State) (c : Nat) : State := s.setCore c { s.core c with held := true }

/-- `t` is `s` but for its memory and the uncorrectable errors that a write ended: what a store may change beside the core
that makes it. -/
def OnlyMemory (s t : State) : Prop := t = { s with mem := t.mem, eccBad := t.eccBad }

/-- The fence forms and the other mason words that only go on (R304). -/
noncomputable def fenceRows : List (EA → Instr) := [.fenceAll, .fenceLd, .fenceSt, .fenceAcq, .fenceRel, .fenceCfg]

/-! ### System operations (R308-R318) -/

/-- The errors that a read of the pieces `ps` corrects are counted (R405). -/
def readOf (s : State) (ps : List (Nat × Nat)) : State := ps.foldl (fun s p => s.corrected p.1 p.2) s

/-- The `n` bytes from address `addr` are `bytes`, and core `c` may read them in this round: they stand in the pieces `ps`, whose banks
can serve them, and another device has sent what it holds of them. -/
structure Reads (s : State) (c : Nat) (addr : Dword) (n : Nat) (ps : List (Nat × Nat)) (bytes : List Byte) : Prop where
  span : spanOf c false (n / 65536 + 2) s addr n = (s, .ok ps)
  come : ∀ p ∈ operandParts s ps, isOwn s p.1 = false → operandAt s c p ≠ none
  turn : operandTurn s c ps = true
  what : bytes = (operandParts s ps).flatMap fun p => if isOwn s p.1 then s.bytes p.1 p.2 else (operandAt s c p).getD []

/-- Core `c` may write `bytes` from address `addr` in this round: they go to the pieces `ps`, whose banks can serve them, and another
device has confirmed what it takes of them. -/
structure Writes (s : State) (c : Nat) (addr : Dword) (bytes : List Byte) (ps : List (Nat × Nat)) : Prop where
  span : spanOf c true (bytes.length / 65536 + 2) s addr bytes.length = (s, .ok ps)
  come : ∀ p ∈ dealBytes (operandParts s ps) bytes, isOwn s p.1 = false → p ∈ (s.core c).operands
  turn : operandTurn s c ps = true

/-- The bytes written to the pieces of this device. -/
def stored (s : State) (ps : List (Nat × Nat)) (bytes : List Byte) : State :=
  (dealBytes (operandParts s ps) bytes).foldl (fun s p => if isOwn s p.1 then s.setBytes p.1 p.2 else s) s

/-- One bit of a CRC32C (R311). -/
def crcBit (c : Word) : Word := if c.getLsbD 0 then (c >>> 1) ^^^ 0x82F63B78 else c >>> 1

/-- CRC32C over the `n` low bytes of `a`, lowest first, from `c` (R311). -/
def crcSpec (n : Nat) (c : Word) (a : Dword) : Word :=
  (List.range n).foldl (fun c k =>
    crcBit (crcBit (crcBit (crcBit (crcBit (crcBit (crcBit (crcBit (c ^^^ (a.extractLsb' (8 * k) 8).setWidth 32))))))))) c

/-- The CRC forms with their widths in bytes. -/
noncomputable def crcRows : List ((EA → Instr) × Nat) := [(.crcb, 1), (.crch, 2), (.crcw, 4), (.crcd, 8)]

/-! ### Packed, floating and keystone forms of elements -/

/-- The two 16-bit lanes of a word, lane by lane (R115). -/
def lanes2h (g : BitVec 16 → BitVec 16 → BitVec 16) (a b : Word) : Word :=
  g (a.extractLsb' 16 16) (b.extractLsb' 16 16) ++ g (a.extractLsb' 0 16) (b.extractLsb' 0 16)

/-- The four bytes of a word, lane by lane (R116). -/
def lanes4b (g : Byte → Byte → Byte) (a b : Word) : Word :=
  g (a.extractLsb' 24 8) (b.extractLsb' 24 8) ++ (g (a.extractLsb' 16 8) (b.extractLsb' 16 8)
    ++ (g (a.extractLsb' 8 8) (b.extractLsb' 8 8) ++ g (a.extractLsb' 0 8) (b.extractLsb' 0 8)))

/-- A sum over the four bytes of a word (R116). -/
def bytes4Sum (g : Byte → Byte → Int) (a b : Word) : Word :=
  BitVec.ofInt 32 (((List.range 4).map fun j => g (a.extractLsb' (8 * j) 8) (b.extractLsb' (8 * j) 8)).sum)

/-- R115 and R116. -/
def packRows : List ((EA → Instr) × (Word → Word → Word)) := [
  (.add2h, lanes2h fun x y => x + y),
  (.sub2h, lanes2h fun x y => x - y),
  (.max2h, lanes2h fun x y => if x.toInt < y.toInt then y else x),
  (.min2h, lanes2h fun x y => if y.toInt < x.toInt then y else x),
  (.max2hu, lanes2h fun x y => if x.toNat < y.toNat then y else x),
  (.min2hu, lanes2h fun x y => if y.toNat < x.toNat then y else x),
  (.add4b, lanes4b fun x y => x + y),
  (.sub4b, lanes4b fun x y => x - y),
  (.max4b, lanes4b fun x y => if x.toInt < y.toInt then y else x),
  (.min4b, lanes4b fun x y => if y.toInt < x.toInt then y else x),
  (.sad4b, bytes4Sum fun x y => ((x.toNat : Int) - y.toNat).natAbs),
  (.dot4b, bytes4Sum fun x y => x.toInt * y.toInt),
  (.dot4bu, bytes4Sum fun x y => (x.toNat : Int) * y.toNat)]

/-- One floating form: its latency (R86), and its result with its flags from the context and the values of A, B and D. -/
structure FpRow where
  op  : EA → Instr
  lat : Nat
  res : Num.Env → Word → Word → Word → FpAlu.FRes

open FpAlu in
/-- R120 to R122. -/
def fpArith : List FpRow := [
  ⟨.fadd, 3, fun v a b _ => fadd v a b⟩, ⟨.fsub, 3, fun v a b _ => fsub v a b⟩, ⟨.fmul, 3, fun v a b _ => fmul v a b⟩,
  ⟨.fdiv, 10, fun v a b _ => fdiv v a b⟩, ⟨.fmin, 3, fun v a b _ => fminmax .min v a b⟩,
  ⟨.fmax, 3, fun v a b _ => fminmax .max v a b⟩, ⟨.fminn, 3, fun v a b _ => fminmax .minn v a b⟩,
  ⟨.fmaxn, 3, fun v a b _ => fminmax .maxn v a b⟩, ⟨.fma, 3, FpAlu.fma false false⟩, ⟨.fms, 3, FpAlu.fma false true⟩,
  ⟨.fnma, 3, FpAlu.fma true false⟩, ⟨.fnms, 3, FpAlu.fma true true⟩]

open FpAlu in
/-- R123 to R127. -/
def fpUnary : List FpRow := [
  ⟨.fceq, 1, fun v a b _ => fcmp .eq false v a b⟩, ⟨.fclt, 1, fun v a b _ => fcmp .lt false v a b⟩,
  ⟨.fcle, 1, fun v a b _ => fcmp .le false v a b⟩, ⟨.fcun, 1, fun v a b _ => fcmp .un false v a b⟩,
  ⟨.fcne, 1, fun v a b _ => fcmp .ne false v a b⟩, ⟨.fceqs, 1, fun v a b _ => fcmp .eq true v a b⟩,
  ⟨.fclts, 1, fun v a b _ => fcmp .lt true v a b⟩, ⟨.fcles, 1, fun v a b _ => fcmp .le true v a b⟩,
  ⟨.fsqrt, 12, fun v a b _ => fsqrt v a b⟩,
  ⟨.fabs, 1, fun _ a _ _ => ⟨a &&& 0x7FFFFFFF, a &&& 0x7FFFFFFF != 0, 0⟩⟩,
  ⟨.fneg, 1, fun _ a _ _ => ⟨a ^^^ 0x80000000, a ^^^ 0x80000000 != 0, 0⟩⟩,
  ⟨.fclass, 1, fun v a b _ => fclass v a b⟩, ⟨.frcpa, 3, fun v a b _ => frcpa v a b⟩, ⟨.frsqa, 3, fun v a b _ => frsqa v a b⟩,
  ⟨.frint, 3, fun v a b _ => frint v a b⟩,
  ⟨.fcpys, 1, fun _ a b _ => ⟨(a &&& 0x7FFFFFFF) ||| (b &&& 0x80000000), (a &&& 0x7FFFFFFF) ||| (b &&& 0x80000000) != 0, 0⟩⟩,
  ⟨.i2f, 2, fun v a b _ => i2f v a b⟩, ⟨.n2f, 2, fun v a b _ => n2f v a b⟩, ⟨.f2i, 2, fun v a b _ => f2i v a b⟩,
  ⟨.f2iz, 2, fun v a b _ => f2iz v a b⟩, ⟨.f2n, 2, fun v a b _ => f2n v a b⟩, ⟨.f2bf, 2, fun v a b _ => f2bf v a b⟩,
  ⟨.bf2fl, 2, fun v a b _ => bf2fl v a b⟩, ⟨.bf2fh, 2, fun v a b _ => bf2fh v a b⟩, ⟨.f2h, 2, fun v a b _ => f2h v a b⟩,
  ⟨.h2fl, 2, fun v a b _ => h2fl v a b⟩, ⟨.h2fh, 2, fun v a b _ => h2fh v a b⟩]

open FpAlu Num in
/-- R128 and R129. -/
def fpLanes : List FpRow := [
  ⟨.badd2, 3, add2 bf16⟩, ⟨.bsub2, 3, sub2 bf16⟩, ⟨.bmul2, 3, mul2 bf16⟩, ⟨.bfma2, 3, fma2 bf16⟩,
  ⟨.bmax2, 3, minmax2 .max bf16⟩, ⟨.bmin2, 3, minmax2 .min bf16⟩, ⟨.bdot2, 3, dot2 bf16⟩, ⟨.bmaxv2, 3, minmax2 .maxn bf16⟩,
  ⟨.hadd2, 3, add2 fp16⟩, ⟨.hsub2, 3, sub2 fp16⟩, ⟨.hmul2, 3, mul2 fp16⟩, ⟨.hfma2, 3, fma2 fp16⟩,
  ⟨.hmax2, 3, minmax2 .max fp16⟩, ⟨.hmin2, 3, minmax2 .min fp16⟩, ⟨.hdot2, 3, dot2 fp16⟩,
  ⟨.bceq2, 1, fun v a b _ => cmp2 .eq bf16 v a b⟩, ⟨.bclt2, 1, fun v a b _ => cmp2 .lt bf16 v a b⟩,
  ⟨.bcle2, 1, fun v a b _ => cmp2 .le bf16 v a b⟩, ⟨.bcun2, 1, fun v a b _ => cmp2 .un bf16 v a b⟩,
  ⟨.hceq2, 1, fun v a b _ => cmp2 .eq fp16 v a b⟩, ⟨.hclt2, 1, fun v a b _ => cmp2 .lt fp16 v a b⟩,
  ⟨.hcle2, 1, fun v a b _ => cmp2 .le fp16 v a b⟩, ⟨.hcun2, 1, fun v a b _ => cmp2 .un fp16 v a b⟩]

open FpAlu in
/-- R130 to R133. -/
noncomputable def fpMk8 : List FpRow := [
  ⟨.qdot4, 3, qdot4⟩, ⟨.qunpl, 2, qunp 0⟩, ⟨.qunph, 2, qunp 2⟩, ⟨.qpack, 2, qpack⟩, ⟨.qamax, 2, qamax⟩,
  ⟨.q2f, 2, fun v a b _ => q2f v a b⟩, ⟨.f2q, 2, fun v a b _ => f2q v a b⟩, ⟨.qscl, 2, fun v a b _ => qscl v a b⟩,
  ⟨.reqRne, 2, fun _ a b _ => req .rne a b⟩, ⟨.reqRna, 2, fun _ a b _ => req .rna a b⟩, ⟨.reqRtz, 2, fun _ a b _ => req .rtz a b⟩,
  ⟨.reqRup, 2, fun _ a b _ => req .rup a b⟩, ⟨.reqRdn, 2, fun _ a b _ => req .rdn a b⟩,
  ⟨.reqFctl, 2, fun v a b _ => req v.rm a b⟩]

/-- Every floating, packed and MK8 form but FRFL, FWFL and FCLR. -/
noncomputable def fpRows : List FpRow := fpArith ++ (fpUnary ++ (fpLanes ++ fpMk8))

/-- AMO and AMOF, which are posted (R205-R208). -/
noncomputable def postedRows : List ((EA → Instr) × KOp) := [
  (.amoAdd, .int 0), (.amoAdds, .int 1), (.amoMin, .int 2), (.amoMax, .int 3), (.amoAnd, .int 4), (.amoOr, .int 5),
  (.amoXor, .int 6), (.amoSwap, .int 7), (.amofFadd, .float 0), (.amofFmax, .float 1), (.amofFmin, .float 2),
  (.amofBadd2, .float 3)]

/-- AMOR, which is irrevocable (R205, R209). -/
noncomputable def amorRows : List ((EA → Instr) × KOp) := [
  (.amorAdd, .int 0), (.amorAdds, .int 1), (.amorMin, .int 2), (.amorMax, .int 3), (.amorAnd, .int 4), (.amorOr, .int 5),
  (.amorXor, .int 6), (.amorSwap, .int 7)]

/-- MXT and STC, with F (R223, R246). -/
noncomputable def tokenRows : List ((EA → Instr) × BitVec 3) := [
  (.mxtMma, 0), (.mxtBind, 1), (.mxtRebind, 2), (.mxtRelease, 3), (.mxtSpill, 4), (.mxtFlush, 5), (.mxtSetup, 6), (.mxtIfence, 7),
  (.stcCopy, 0), (.stcGather, 1), (.stcScatter, 2), (.stcFlagf, 3), (.stcBatch, 4), (.stcWaitb, 5), (.stcInject, 6), (.stcEvict, 7)]

/-- The state after a rule has fired a command with a reply: a ticket, the takes, and what D and PU reserve until the reply lands
(R86, R87). -/
def awaited (s : State) (e slot : Nat) (x : Body) (code : BitVec 5) : State :=
  (takeInputs { s with nextTicket := s.nextTicket + 1 } e x.dq none).modElem e fun el =>
    (el.await s.nextTicket code false x.pu).noAbort slot

/-- A streamer may accept a command: the course feeds it and runs, it does not drain, no WAITB waits, its limits of 64 commands and 16
batches are not reached, and a completion has room (R231, R234). -/
def streamerOpen (s : State) (st : Nat) : Bool :=
  let t := s.streamer st
  t.bound && !t.io.drained && !t.draining && planeRuns s (Key.enginePk st) && t.cmds.all (·.form != 5)
    && decide (t.cmds.length < 64) && decide (t.outstanding < 16) && t.compRoom

/-- An island may look at its next command: the course feeds it and runs, it has not drained, and no transfer is on its way or waits
(R245, R262, R264). -/
def islandOpen (s : State) (i : Nat) : Bool :=
  let t := s.island i
  t.bound && !t.io.drained && t.xfer.isNone && t.spillWait.isNone && planeRuns s (Key.enginePk i)

end Sys2Proof.Claims
end

