-- ==== Sys2Proof/Certificates/Slice0/Obligations.lean ====
section
/-! DEFINITION. Certificates/Slice0/Obligations: the statements about the machine that the provers prove. Each docstring names the
rules of spec/ that the statement formalises. -/

open Sys2Proof Sys2Proof.Machine Sys2Proof.Claims

/-! ### Encoding -/

/-- R25, R26, R29, R39: an instruction's word decodes to the instruction, whatever bytes follow it; no field is dropped. -/
def Obligations.DecodeOfEncode : Prop :=
  ∀ (i : Instr) (x : Body) (rest : List Byte), i.body? = some x →
    decodeWord (encode i) = .ok i ∧ decode (bytesOfDword (encode i) ++ rest) = .ok (i, rest)

/-- R25, R29: no two words decode to one instruction: the instruction gives the word back. -/
def Obligations.EncodeOfDecode : Prop :=
  ∀ (w : Dword) (i : Instr), decodeWord w = .ok i → encode i = w ∧ ∃ x, i.body? = some x

/-- R34, R37, R39: the words that are no instruction: VOID, opcode 0 with other bits, the opcodes 0x60 to 0x7F, and every F beyond
the forms that the opcode map lists; the numbers are those of an opcode's forms. -/
def Obligations.RejectedWords : Prop :=
  decodeWord 0 = .error .void
    ∧ (∀ w : Dword, (opcodeOf w).toNat = 0 → w ≠ 0 → decodeWord w = .error .voidMalformed)
    ∧ (∀ w : Dword, 0x60 ≤ (opcodeOf w).toNat → decodeWord w = .error .opcodeReserved)
    ∧ (∀ (w : Dword) (forms : Nat), (opcodeOf w, forms) ∈
        ([(0x03, 5), (0x04, 4), (0x05, 4), (0x08, 3), (0x18, 1), (0x19, 4), (0x1A, 1), (0x1E, 1), (0x1F, 1), (0x21, 4),
          (0x25, 3), (0x27, 7), (0x28, 5), (0x29, 3), (0x2A, 6), (0x2B, 3), (0x2C, 4), (0x2D, 4), (0x2E, 6), (0x2F, 7), (0x3D, 4),
          (0x3E, 2), (0x3F, 1), (0x42, 2), (0x4F, 6), (0x52, 7), (0x54, 6), (0x55, 4), (0x56, 4), (0x57, 3), (0x58, 3), (0x59, 4),
          (0x5B, 2), (0x5C, 3), (0x5D, 3), (0x5E, 3), (0x5F, 3)] : List (BitVec 7 × Nat)) → forms ≤ (fOf w).toNat →
        decodeWord w = .error .formReserved)

/-- Words that the spec writes out bit by bit, one or more of a family: each decodes to its instruction (R29, R95, R105, R156, R206, R223,
R267, R302, R304, R319). -/
def Obligations.SpecWords : Prop :=
  decodeWord 0x0000400010C3243A = .ok (.adds ⟨⟨0, 0, 4, 0, 0, 0, 0⟩, 3, 1, 18, 4, 7⟩)
    ∧ decodeWord 0x050121A905224248 = .ok (.fadd ⟨⟨5, 1, 2, 1, 1, 1, 2⟩, 20, 17, 4, 2, 9⟩)
    ∧ decodeWord 0x02000000A84001FF = .ok (.movk ⟨⟨2, 0, 0, 0, 0, 0, 0⟩, 1, 0x1FF⟩)
    ∧ decodeWord 0x0301000180A13029 = .ok (.contrib ⟨⟨3, 1, 0, 0, 0, 0, 0⟩, 5, 1, 3, 0, 5, 1⟩)
    ∧ decodeWord 0x01010001E0C22005 = .ok (.amoc ⟨⟨1, 1, 0, 0, 0, 0, 0⟩, 3, 1, 2, 0, 0⟩ 5)
    ∧ decodeWord 0x00000201CD422000 = .ok (.stcCopy ⟨⟨0, 0, 0, 2, 0, 0, 0⟩, 21, 1, 2, 0, 0⟩)
    ∧ decodeWord 0x00000201FD443000 = .ok (.mxq ⟨⟨0, 0, 0, 2, 0, 0, 0⟩, 21, 2, 3, 0, 0⟩)
    ∧ decodeWord 0x0000000231040010 = .ok (.ldd ⟨⟨0, 0, 0, 0, 0, 0, 0⟩, 4, 2, 16⟩)
    ∧ decodeWord 0x0000000278000001 = .ok (.fenceLd ⟨⟨0, 0, 0, 0, 0, 0, 0⟩, 0, 0, 0, 0, 0⟩)
    ∧ decodeWord 0x02020002003FFFFC = .ok (.br ⟨⟨2, 2, 0, 0, 0, 0, 0⟩, 0, 0x3FFFFC⟩)
    ∧ decodeWord 0x0000000290000006 = .ok (.halt ⟨⟨0, 0, 0, 0, 0, 0, 0⟩, 0, 0, 0, 0, 0⟩)

/-! ### A step -/

/-- R300, R35, R36: a step performs the first step that stands on the agenda (log 2); a core's fetch executes the instruction that the
word at its PC decodes to, and the scheduler fires the instruction that the word of a chosen slot decodes to. With nothing left to do a step begins the next round: the
device round counter goes up by one, and nothing else but the agenda changes. -/
def Obligations.StepRunsDecoded : Prop :=
  (∀ (s : State) (i : Instr) (rest : List Instr), s.agenda = i :: rest → step s = Machine.exec i { s with agenda := rest })
    ∧ (∀ (s s' : State) (c : Nat) (w : Dword) (i : Instr),
        let s0 := s.setCore c ((s.core c).landed s.round)
        (s0.core c).canFetch = true → ¬(c = 0 ∧ (s0.core c).pc = romEntry) → fetchAt s0 c = (s', .word w) → decodeWord w = .ok i →
        ∃ t, Machine.exec (.instructionFetch c) s = .next t ∧ Machine.exec i { s' with cur := .core c } = .next t)
    ∧ (∀ (s t : State) (e slot : Nat) (w : Dword) (rest : List (Nat × Dword)) (i : Instr), (opcodeOf w).toNat < 0x40 →
        decodeWord w = .ok i → Machine.exec i { s with cur := .element e slot } = .next t →
        fireRules e ((slot, w) :: rest) s = fireRules e rest t)
    ∧ (∀ s : State, s.agenda = [] → ∃ plan, step s = .next { s with round := s.round + 1, agenda := plan })

/-! ### Mason cores: registers and control -/

/-- R95-R102, R104: what the integer instructions of formats EA and EI write in a mason core: D, the predicate of PU and the PC,
and nothing else. -/
def Obligations.CoreInteger : Prop :=
  (∀ (s : State) (c : Nat) (row : AluRow) (x : EA), row ∈ aluRows → CoreRuns s c (row.op x) →
      Machine.exec (row.op x) s = .next (coreWrote s c x.d x.pu (row.res 64 ((s.core c).reg x.a) ((s.core c).reg x.b))))
    ∧ (∀ (s : State) (c : Nat) (row : ImmRow) (x : EI), row ∈ immRows → CoreRuns s c (row.op x) →
      Machine.exec (row.op x) s = .next (coreWrote s c x.d x.pu (row.res 64 ((s.core c).reg x.a) (x.imm.signExtend 64))))

/-- R95, R102, R103, R105, R106, R110, R111, R301: BFI, SEL, MOVK, MOVKS, MOV, MOVPC, PGET, PPUT, PSETM, PCLRM and NOP in a mason
core; PU applies after the form's own write. -/
def Obligations.CoreMovesPredicates : Prop :=
  (∀ (s : State) (c : Nat),
      (∀ x : EA, CoreRuns s c (.bfi x) →
        let a := (s.core c).reg x.a
        let (pos, len) := fieldAt 64 ((s.core c).reg x.b)
        let m : Dword := BitVec.ofNat 64 ((2 ^ len - 1) * 2 ^ pos)
        Machine.exec (.bfi x) s = .next (coreWrote s c x.d x.pu (((s.core c).reg x.d &&& ~~~m) ||| ((a <<< pos) &&& m))))
      ∧ (∀ (x : EA) (f : BitVec 3), CoreRuns s c (.sel x f) →
        Machine.exec (.sel x f) s
          = .next (coreWrote s c x.d x.pu (if (s.core c).p.getLsbD f.toNat then (s.core c).reg x.a else (s.core c).reg x.b)))
      ∧ (∀ x : EK, CoreRuns s c (.movk x) → Machine.exec (.movk x) s = .next (coreWrote s c x.d 0 (x.imm.signExtend 64)))
      ∧ (∀ x : EK, CoreRuns s c (.movks x) →
        Machine.exec (.movks x) s
          = .next (coreWrote s c x.d 0 (BitVec.ofNat 64 (((s.core c).reg x.d).toNat * 2 ^ 22 + x.imm.toNat))))
      ∧ (∀ (x : EA) (f : BitVec 3), CoreRuns s c (.mov x f) →
        Machine.exec (.mov x f) s = .next (coreWrote s c x.d x.pu ((s.core c).reg x.a)))
      ∧ (∀ x : EK, CoreRuns s c (.movpc x) →
        Machine.exec (.movpc x) s = .next (coreWrote s c x.d 0 ((s.core c).pc + x.imm.signExtend 64 * 8))))
    ∧ (∀ (s : State) (c : Nat) (x : EA),
      let k := s.core c
      let a : BitVec 8 := (k.reg x.a).setWidth 8
      let put (p : BitVec 8) : State := s.setCore c { k with p := predAfter p x.pu (p != 0), pc := k.pc + 8, held := false, operands := [] }
      (CoreRuns s c (.pget x) → Machine.exec (.pget x) s = .next (coreWrote s c x.d x.pu (k.p.setWidth 64)))
      ∧ (CoreRuns s c (.pput x) → Machine.exec (.pput x) s = .next (put a))
      ∧ (CoreRuns s c (.psetm x) → Machine.exec (.psetm x) s = .next (put (k.p ||| a)))
      ∧ (CoreRuns s c (.pclrm x) → Machine.exec (.pclrm x) s = .next (put (k.p &&& ~~~a)))
      ∧ (CoreRuns s c (.nop x) → Machine.exec (.nop x) s = .next (coreWent s c x.pu)))

/-- R36: a word that is legal in a mason core and whose condition is false only advances the PC by 8; the encoding is checked before the
condition, so that a malformed word traps ILLEGAL whatever its condition. -/
def Obligations.CoreConditionFalse : Prop :=
  ∀ (s : State) (c : Nat) (i : Instr) (x : Body), i.body? = some x → s.cur = .core c → (s.core c).condHolds x.guard = false →
    (i.coreIllegal = false → Machine.exec i s = .next (s.setCore c { s.core c with pc := (s.core c).pc + 8, held := false, operands := [] }))
    ∧ (i.coreIllegal = true → Pstat.tip (s.core c).pstat = false → Machine.exec i s = .next (trapped s c 1 0 (encode i)))

/-- R36, R37, R38, R293: an encoding fault traps ILLEGAL with the word in TVAL, before the condition is tested: a word that is
no instruction, and an instruction that a mason core does not take by R38: an opcode of elements, bits [47:34] or DQ not zero, a tag of
MOV, an unused field not zero, or PU action 11 at an opcode without a condition. -/
def Obligations.CoreIllegal : Prop :=
  ∀ (s : State) (c : Nat), s.cur = .core c → Pstat.tip (s.core c).pstat = false →
    (∀ (w : Dword) (r : Reject), decodeWord w = .error r → issueWord w s = .next (trapped s c 1 0 w))
    ∧ (∀ (i : Instr) (x : Body), i.body? = some x → i.coreIllegal = true →
        Machine.exec i s = .next (trapped s c 1 0 (encode i)))
    ∧ (∀ (i : Instr) (x : Body) (o : OpInfo), i.body? = some x → i.info? = some o → (i.coreIllegal = true ↔
        (i.op = 0x18 ∨ 0x1B ≤ i.op ∧ i.op ≤ 0x3F) ∨ (encode i).extractLsb' 34 14 ≠ 0 ∨ x.dq ≠ 0 ∨ (i.op = 0x17 ∧ x.f ≠ 0)
          ∨ x.unusedZero o = false ∨ (x.pu.toNat % 4 = 3 ∧ o.cond = false)))

/-- R293, R294, R307: TRAP and BREAK take their traps: TEPC, TCAUSE, TVAL and PSTAT are written, and the core goes on at
TVB + 64 × cause; ERET restores the PC, MODE and IE, and clears TIP. -/
def Obligations.CoreTraps : Prop :=
  (∀ (s : State) (c : Nat) (x : EA), Pstat.tip (s.core c).pstat = false →
      (CoreRuns s c (.trap x) → Machine.exec (.trap x) s = .next (trapped s c 8 0 ((s.core c).reg x.a)))
      ∧ (CoreRuns s c (.brk x) → Machine.exec (.brk x) s = .next (trapped s c 9 0 0)))
    ∧ (∀ (s : State) (c : Nat) (x : EA), CoreRuns s c (.eret x) →
      let k := s.core c
      Machine.exec (.eret x) s = .next (s.setCore c { k with
        p := predAfter k.p x.pu false
        pc := k.tepc
        pstat := Pstat.mk (Pstat.pmode k.pstat) (Pstat.pmode k.pstat) (Pstat.evf k.pstat) (Pstat.pie k.pstat) (Pstat.pie k.pstat) false }))

/-- R294, R354: a trap with TIP set stops the core: it sets DBLT of the die's HEALTH, and posts MASON-DOUBLE; no register of the core
changes. -/
def Obligations.CoreDoubleTrap : Prop :=
  ∀ (s : State) (c : Nat) (x : EA) (i : Instr), i = .trap x ∨ i = .brk x → CoreRuns s c i →
    Pstat.tip (s.core c).pstat = true →
    ∃ t, Machine.exec i s = .next t ∧ t.core c = { s.core c with run := .double } ∧ t.dblt.get false (c / 4) = true
      ∧ (∀ c', c' ≠ c → t.core c' = s.core c') ∧ t.mem = s.mem
      ∧ ((s.evq (c / 4)).recs.length < 256 → (s.evq (c / 4)).lost = 0 →
          (t.evq (c / 4)).recs = (s.evq (c / 4)).recs ++ [{
            type := 12, code := c % 4, id := s.nextId % 2 ^ 16, place := corePlace c, cyc := BitVec.ofNat 64 s.round
            d2 := (s.core c).tepc, d3 := (s.core c).tcause }])

/-- R301: the branches and MOVPC: where the PC goes, and what BRL, BRLI and MOVPC write. BRLI reads A before it writes D. -/
def Obligations.CoreBranches : Prop :=
  ∀ (s : State) (c : Nat),
    let k := s.core c
    (∀ x : MB, CoreRuns s c (.br x) → Machine.exec (.br x) s = .next (s.setCore c { k with pc := k.pc + x.off.signExtend 64 * 8 }))
    ∧ (∀ x : MB, CoreRuns s c (.brl x) →
      Machine.exec (.brl x) s = .next (s.setCore c { k with g := k.g.put 0 31 (k.pc + 8), pc := k.pc + x.off.signExtend 64 * 8 }))
    ∧ (∀ x : EA, CoreRuns s c (.bri x) →
      Machine.exec (.bri x) s = .next (s.setCore c { k with p := predAfter k.p x.pu false, pc := k.reg x.a }))
    ∧ (∀ x : EA, CoreRuns s c (.brli x) →
      Machine.exec (.brli x) s = .next (s.setCore c { coreAfter k x.d (k.pc + 8) x.pu (k.pc + 8 != 0) with pc := k.reg x.a }))
    ∧ (∀ x : EK, CoreRuns s c (.movpc x) →
      Machine.exec (.movpc x) s = .next (coreWrote s c x.d 0 (k.pc + x.imm.signExtend 64 * 8)))

/-- R288-R292, R306: SYSRD gives a system register, SYSWR writes one by the Access columns, and a reserved number traps ILLEGAL. -/
def Obligations.CoreSystemRegisters : Prop :=
  ∀ (s : State) (c : Nat) (x : EI),
    let k := s.core c
    let n := (k.reg x.a + x.imm.signExtend 64).toNat
    let v := k.reg x.d
    let went (k : Core) : Outcome := .next (s.setCore c { k with p := predAfter k.p x.pu false, pc := k.pc + 8, held := false, operands := [] })
    (CoreRuns s c (.sysrd x) →
      (∀ r, (n, r) ∈ ([(0, k.pstat), (1, k.tvb), (2, k.tcause), (3, k.tepc), (4, k.tval), (5, k.tscr), (6, BitVec.ofNat 64 s.round),
          (7, BitVec.ofNat 64 c), (8, evqWord s (coreDie c)), (9, healthWord s (coreDie c)), (10, k.mctx)] : List (Nat × Dword)) →
        Machine.exec (.sysrd x) s = .next (coreWrote s c x.d x.pu r))
      ∧ (11 ≤ n → Pstat.tip k.pstat = false → Machine.exec (.sysrd x) s = .next (trapped s c 1 0 (encode (.sysrd x)))))
    ∧ (CoreRuns s c (.syswr x) →
      (n = 0 → k.firmware = true → Machine.exec (.syswr x) s = went { k with pstat := (k.pstat &&& ~~~0x3E) ||| (v &&& 0x3E) })
      ∧ (n = 0 → k.firmware = false → Machine.exec (.syswr x) s = went { k with pstat := (k.pstat &&& ~~~0x3C) ||| (v &&& 0x3C) })
      ∧ (n = 1 → k.firmware = true → Machine.exec (.syswr x) s = went { k with tvb := v &&& 0xFFFFFFFFFFFFF000 })
      ∧ (n = 3 → Machine.exec (.syswr x) s = went { k with tepc := v })
      ∧ (n = 5 → Machine.exec (.syswr x) s = went { k with tscr := v })
      ∧ (n = 10 → Machine.exec (.syswr x) s = went { k with mctx := v &&& 0xFFF })
      ∧ (n = 2 ∨ n = 4 ∨ n = 6 ∨ n = 8 ∨ (n = 7 ∧ k.firmware = true) → Machine.exec (.syswr x) s = went k)
      ∧ (n = 9 → k.firmware = true → Machine.exec (.syswr x) s
          = .next (coreWent (if v.getLsbD 30 then { s with dblt := s.dblt.put false (coreDie c) false } else s) c x.pu))
      ∧ (n = 1 ∨ n = 7 ∨ n = 9 → k.firmware = false → Pstat.tip k.pstat = false →
          Machine.exec (.syswr x) s = .next (trapped s c 2 0 (encode (.syswr x))))
      ∧ (11 ≤ n → Pstat.tip k.pstat = false → Machine.exec (.syswr x) s = .next (trapped s c 1 0 (encode (.syswr x)))))

/-- R307: IDLE and WFE go on or wait, SEV sets EVF on every core of the die, HALT stops the core at the next word. -/
def Obligations.CoreWaits : Prop :=
  ∀ (s : State) (c : Nat) (x : EA),
    let k := s.core c
    let p := predAfter k.p x.pu false
    let waiting := 0 < (s.evq (coreDie c)).recs.length
    (CoreRuns s c (.idle x) →
      (¬waiting → Machine.exec (.idle x) s = .next (s.setCore c { k with p := p, run := .idle }))
      ∧ (waiting → ¬(Pstat.ie k.pstat = true ∧ Pstat.tip k.pstat = false) →
          Machine.exec (.idle x) s = .next (s.setCore c { k with p := p, pc := k.pc + 8, held := false, operands := [], run := .running }))
      ∧ (waiting → Pstat.ie k.pstat = true → Pstat.tip k.pstat = false →
          Machine.exec (.idle x) s
            = .next (s.setCore c (coreEvent { k with p := p } (k.pc + 8) (s.evq (coreDie c)).recs.length))))
    ∧ (CoreRuns s c (.wfe x) →
      (Pstat.evf k.pstat = true →
          Machine.exec (.wfe x) s = .next (s.setCore c { k with p := p, pc := k.pc + 8, held := false, operands := [], pstat := k.pstat &&& ~~~4#64 }))
      ∧ (Pstat.evf k.pstat = false →
          Machine.exec (.wfe x) s = .next (s.setCore c { k with p := p, run := .wfe, seen := (s.evq (coreDie c)).entered })))
    ∧ (CoreRuns s c (.sev x) → ∃ t, Machine.exec (.sev x) s = .next t
      ∧ (t.core c).pc = k.pc + 8 ∧ ∀ j, j < 4 → Pstat.evf (t.core (4 * coreDie c + j)).pstat = true)
    ∧ (CoreRuns s c (.halt x) → k.firmware = true →
      Machine.exec (.halt x) s = .next (s.setCore c { k with p := p, pc := k.pc + 8, held := false, operands := [], run := .halted }))

/-- R287, R293: HALT, LKCTL and SYSWR to TVB, HEALTH or PLACE in service mode trap PRIV with the word, and have no other effect; a store,
a MAMO or a CFG access to status space does too. That PRIV comes before the check of the width is the model's choice (log 60). -/
def Obligations.CorePrivileged : Prop :=
  ∀ (s : State) (c : Nat), (s.core c).firmware = false → Pstat.tip (s.core c).pstat = false →
    (∀ x : EA, ∀ op ∈ ([.halt, .lkctl] : List (EA → Instr)), CoreRuns s c (op x) →
      Machine.exec (op x) s = .next (trapped s c 2 0 (encode (op x))))
    ∧ (∀ x : EI, let n := ((s.core c).reg x.a + x.imm.signExtend 64).toNat
      CoreRuns s c (.syswr x) → n = 1 ∨ n = 7 ∨ n = 9 → Machine.exec (.syswr x) s = .next (trapped s c 2 0 (encode (.syswr x))))
    ∧ (∀ (x : MS) (row : (MS → Instr) × Nat) (s' : State) (p : Nat), row ∈ storeRows → CoreRuns s c (row.1 x) →
      (effAddr s c x).toNat % row.2 = 0 → resolve s c (effAddr s c x) false true = (s', .place p) → Place.space p = 6 →
      s'.coreTurn c p = true → Machine.exec (row.1 x) s = .next (trapped s c 2 0 (encode (row.1 x))))
    ∧ (∀ (x : EA) (row : (EA → Instr) × (Dword → Dword → Dword → Dword)) (s' : State) (p : Nat), row ∈ mamoRows →
      CoreRuns s c (row.1 x) → ((s.core c).reg x.a).toNat % 8 = 0 → resolve s c ((s.core c).reg x.a) true true = (s', .place p) →
      Place.space p = 6 → Machine.exec (row.1 x) s = .next (trapped s c 2 0 (encode (row.1 x))))
    ∧ (∀ x : EA, ∀ op ∈ ([.cfgw, .cfgstat] : List (EA → Instr)), CoreRuns s c (op x) → ∀ p, p < 2 ^ 60 → Place.space p = 6 →
      (s.core c).reg x.a = BitVec.ofNat 64 (2 ^ 63 + p) → Machine.exec (op x) s = .next (trapped s c 2 0 (encode (op x))))
    ∧ (∀ (x : EA) (s' : State) (p : Nat), ∀ op ∈ ([.cfgr, .snaprd] : List (EA → Instr)), CoreRuns s c (op x) →
      ((s.core c).reg x.a).toNat % 8 = 0 → resolve s c ((s.core c).reg x.a) true false = (s', .place p) → Place.space p = 6 →
      Machine.exec (op x) s = .next (trapped s c 2 0 (encode (op x))))

/-! ### Mason cores: memory -/

/-- R2, R302: a value written at a place is read back, cut to its width and little-endian; no other byte of memory changes, and
nothing else but the uncorrectable errors that the write ends; the memory keeps its canonical form. -/
def Obligations.MemoryReadWrite : Prop :=
  ∀ (s : State) (p n v : Nat), n ≤ 2 ^ 48 →
    (Memory.wf s.mem = true → Memory.wf (s.write p n v).mem = true)
    ∧ ((s.write p n v).read p n = v % 2 ^ (8 * n)
      ∧ ∀ k, k < n → (s.write p n v).byte (p + k) = BitVec.ofNat 8 (v / 256 ^ k))
    ∧ (∀ q, (∀ k, k < n → Place.here q ≠ Place.here (p + k)) → (s.write p n v).byte q = s.byte q)
    ∧ OnlyMemory s (s.write p n v)

/-- R185-R189, R296, R299, R405: how a mason address becomes a place. Bit 63 gives a place as it stands; a reserved bit set gives SPACE; a
virtual address goes through the core's translation cache, or through the walk, whose leaf enters the cache. A missing permission has DETAIL
2, and a migrating page holds a write back. The walk reads one entry of a table at each level; one with an uncorrectable error ends it. -/
def Obligations.AddressForms : Prop :=
  ∀ (s : State) (c : Nat) (a : Dword) (r w : Bool),
    (∀ p, p < 2 ^ 60 → a = BitVec.ofNat 64 (2 ^ 63 + p) → resolve s c a r w = (s, .place p))
    ∧ (a.getLsbD 63 = true → a.toNat / 2 ^ 60 % 8 ≠ 0 → resolve s c a r w = (s, .bad 3))
    ∧ (a.getLsbD 63 = false → a.toNat / 2 ^ 56 ≠ 0 → resolve s c a r w = (s, .bad 3))
    ∧ (a.toNat < 2 ^ 56 → ∀ (ctx : Nat) (l : Leaf), ctx = (s.core c).mctx.toNat % 4096 → findLeaf (s.core c).tlb a.toNat ctx = some l →
        (r = true → leafR l.dword = true) → (w = true → leafW l.dword = true ∧ leafM l.dword = false) →
        resolve s c a r w = (s, .place (leafPlace l.level l.dword a.toNat)))
    ∧ (a.toNat < 2 ^ 56 → ∀ (ctx : Nat) (l : Leaf), ctx = (s.core c).mctx.toNat % 4096 → findLeaf (s.core c).tlb a.toNat ctx = some l →
        (missing l.dword r w → resolve s c a r w = (s, .bad 2))
        ∧ (moving l.dword r w → ∀ lv d, walk s a.toNat ctx = .leaf lv d → ¬missing d r w →
            (leafM d = true → resolve s c a r w = (s, .wait))
            ∧ (leafM d = false → resolve s c a r w = (s, .place (leafPlace lv d a.toNat)))))
    ∧ (a.toNat < 2 ^ 56 → ∀ ctx, ctx = (s.core c).mctx.toNat % 4096 → findLeaf (s.core c).tlb a.toNat ctx = none →
        (∀ lv, walk s a.toNat ctx = .notPresent lv → resolve s c a r w = (walkCorrected s a.toNat ctx, .bad 0))
        ∧ (∀ lv, walk s a.toNat ctx = .malformed lv → resolve s c a r w = (walkCorrected s a.toNat ctx, .bad 1))
        ∧ (∀ lv p, walk s a.toNat ctx = .ecc lv p → (resolve s c a r w).2 = .ecc)
        ∧ (∀ lv d, walk s a.toNat ctx = .leaf lv d →
          (missing d r w → resolve s c a r w = (filled s c a.toNat lv d, .bad 2))
          ∧ (moving d r w → (resolve s c a r w).1 = filled s c a.toNat lv d)
          ∧ (¬missing d r w → ¬moving d r w →
              resolve s c a r w = (filled s c a.toNat lv d, .place (leafPlace lv d a.toNat)))))
    ∧ (∀ va ctx : Nat, let root := s.ctxTable.get 0 ctx
        let t := (root.extractLsb' 0 43).toNat * 2 ^ 17
        (root.getLsbD 63 = false → walk s va ctx = .notPresent 0)
        ∧ (root.getLsbD 63 = true → tableOk s 0 t = false → walk s va ctx = .malformed 0)
        ∧ (root.getLsbD 63 = true → tableOk s 0 t = true → walk s va ctx = walkFrom s va 5 0 t))
    ∧ (∀ va n lv t : Nat, lv ≤ 4 →
        let p := t + va / 2 ^ levelShift lv % 2 ^ levelBits lv * 8
        let e := BitVec.ofNat 64 (s.read p 8)
        let next := walkFrom s va (n + 1) lv t
        (s.eccAt p 8 = true → next = .ecc lv p)
        ∧ (s.eccAt p 8 = false →
          (e.getLsbD 63 = false → next = .notPresent lv)
          ∧ (e.getLsbD 63 = true → EntryBad s lv e → next = .malformed lv)
          ∧ (e.getLsbD 63 = true → ¬EntryBad s lv e → e.extractLsb' 55 3 ≠ 0 → next = .leaf lv e)
          ∧ (e.getLsbD 63 = true → ¬EntryBad s lv e → e.extractLsb' 55 3 = 0 →
              next = walkFrom s va n (lv + 1) ((e.extractLsb' 0 55).toNat * 32))))
    ∧ (s.eccBad = [] → ∀ va ctx, walkCorrected s va ctx = s)

/-- R302: a load of memory writes D with the little-endian value, zero- or sign-extended, and goes on; memory does not change. A load of
configuration or status space of a word or more gives what R297-R299 place there; that a block of status space with no content reads 0 and
the load goes on is the model's choice (log 55). An uncorrectable error traps ECC (R293, R405). A load that cannot be served in this round
waits at its word (R177, R374); a load from another device sends a request, and the core waits for its answer (R367, R368). -/
def Obligations.CoreLoads : Prop :=
  ∀ (s s' : State) (c p : Nat) (row : LoadRow) (x : MS), row ∈ loadRows → CoreRuns s c (row.op x) →
    (effAddr s c x).toNat % row.width = 0 → resolve s c (effAddr s c x) true false = (s', .place p) →
    let wrote (t : State) (v : Nat) : State :=
      t.setCore c { t.core c with g := regsAfter (t.core c).g x.d (loadValue row v), pc := (t.core c).pc + 8, held := false, operands := [] }
    let served := (s'.takeTurn p).corrected p row.width
    (InMemory s' c p row.width → Machine.exec (row.op x) s = .next (wrote served (s'.read p row.width)))
    ∧ (s'.coreTurn c p = false → Machine.exec (row.op x) s = .next (heldAt s' c))
    ∧ (isOwn s' p = true → placeValid s' p = true → Place.space p < 3 → s'.eccAt p row.width = true → s'.coreTurn c p = true →
        Pstat.tip (s.core c).pstat = false →
        Machine.exec (row.op x) s = .next (trapped (s.countUe (c / 4)) c 7 0 (effAddr s c x)))
    ∧ (isOwn s' p = true → placeValid s' p = true → 4 ≤ row.width → Place.space p = 5 → s'.coreTurn c p = true →
        Machine.exec (row.op x) s = .next (wrote served (cfgRead s' p row.width)))
    ∧ (isOwn s' p = true → 4 ≤ row.width → Place.space p = 6 → s'.coreTurn c p = true →
        Machine.exec (row.op x) s = .next (wrote served (statusRead s' p row.width)))
    ∧ (isOwn s' p = false → reachable s' = true → Place.space p < 3 → Machine.exec (row.op x) s = .next
        (askRemote s' c p (.rd row.width) (CorePend.ask (effAddr s c x) 4 true x.d row.width row.signed 0)))
    ∧ s'.mem = s.mem

/-- R302: a store writes the low bytes of g[D] at its place, and nothing else of memory; the core goes on. It waits at its word where it
cannot be served in this round (R177, R374), and for an answer where its place stands on another device (R367, R368). A word or a dword goes
to configuration space, unless the plane holds a course that is not frozen, which traps with DETAIL LIVE (R297); in firmware mode it goes to
status space (R287, R299). -/
def Obligations.CoreStores : Prop :=
  ∀ (s s' : State) (c p : Nat) (row : (MS → Instr) × Nat) (x : MS), row ∈ storeRows → CoreRuns s c (row.1 x) →
    (effAddr s c x).toNat % row.2 = 0 → resolve s c (effAddr s c x) false true = (s', .place p) →
    (Place.space p < 3 → isOwn s' p = true → placeValid s' p = true → s'.coreTurn c p = true →
      ∃ t, Machine.exec (row.1 x) s = .next t
        ∧ t = ((s'.write p row.2 ((s.core c).reg x.d).toNat).takeTurn p).setCore c
            { s'.core c with pc := (s'.core c).pc + 8, held := false, operands := [] }
        ∧ (∀ k, k < row.2 → t.byte (p + k) = ((s.core c).reg x.d).extractLsb' (8 * k) 8)
        ∧ (∀ q, (∀ k, k < row.2 → Place.here q ≠ Place.here (p + k)) → t.byte q = s.byte q))
    ∧ (s'.coreTurn c p = false → Machine.exec (row.1 x) s = .next (heldAt s' c))
    ∧ (isOwn s' p = true → placeValid s' p = true → s'.coreTurn c p = true → 4 ≤ row.2 →
        let v := ((s.core c).reg x.d).toNat % 2 ^ (8 * row.2)
        let went (t : State) : Outcome := .next ((t.takeTurn p).setCore c { t.core c with pc := (t.core c).pc + 8, held := false, operands := [] })
        (∀ t, Place.space p = 5 → cfgStore s' p row.2 v = some t → Machine.exec (row.1 x) s = went t)
        ∧ (Place.space p = 5 → CfgPlace.shadow p = false → (s'.plane (CfgPlace.pk p)).occupied = true →
            (∀ rk, s'.regionOf (CfgPlace.pk p) = some rk → (s'.region rk).frozen = false) → Pstat.tip (s.core c).pstat = false →
            Machine.exec (row.1 x) s = .next (trapped s c 5 5 (effAddr s c x)))
        ∧ (Place.space p = 5 → (CfgPlace.shadow p = true ∨ (s'.plane (CfgPlace.pk p)).occupied = false
              ∨ ∃ rk, s'.regionOf (CfgPlace.pk p) = some rk ∧ (s'.region rk).frozen = true) → ∃ t, cfgStore s' p row.2 v = some t)
        ∧ (Place.space p = 6 → (s.core c).firmware = true → Machine.exec (row.1 x) s = went (statusWrite s' p row.2 v)))
    ∧ (Place.space p < 3 → isOwn s' p = false → reachable s' = true → ∃ bytes : List Byte, bytes.length = row.2
        ∧ (∀ k, k < row.2 → bytes[k]? = some (((s.core c).reg x.d).extractLsb' (8 * k) 8))
        ∧ Machine.exec (row.1 x) s = .next (askRemote s' c p (.wr bytes (List.replicate row.2 true))
            (CorePend.ask (effAddr s c x) 5 false 0 row.2 false 0)))

/-- R293, R296, R302, R303: an address that is no multiple of the width traps ALIGN; one that does not become a place, or becomes
a place that the access may not use, traps LOAD or STORE with its DETAIL; TVAL is the address, and nothing else changes. The order of these
checks is the model's choice (log 60). -/
def Obligations.CoreAccessTraps : Prop :=
  ∀ (s : State) (c : Nat), Pstat.tip (s.core c).pstat = false →
    (∀ (row : LoadRow) (x : MS), row ∈ loadRows → CoreRuns s c (row.op x) →
      let ea := effAddr s c x
      (ea.toNat % row.width ≠ 0 → Machine.exec (row.op x) s = .next (trapped s c 6 0 ea))
      ∧ (∀ d, ea.toNat % row.width = 0 → (resolve s c ea true false).2 = .bad d →
          Machine.exec (row.op x) s = .next (trapped s c 4 d ea))
      ∧ (ea.toNat % row.width = 0 → (resolve s c ea true false).2 = .ecc →
          Machine.exec (row.op x) s = .next (trapped (s.countUe (c / 4)) c 7 0 ea))
      ∧ (∀ s' p, ea.toNat % row.width = 0 → resolve s c ea true false = (s', .place p) → s'.coreTurn c p = true →
          (Place.space p = 3 ∨ Place.space p = 4 ∨ (Place.space p = 5 ∨ Place.space p = 6) ∧ row.width < 4 →
            Machine.exec (row.op x) s = .next (trapped s c 4 4 ea))
          ∧ (isOwn s' p = true → Place.space p < 3 → placeValid s' p = false →
            Machine.exec (row.op x) s = .next (trapped s c 4 3 ea))))
    ∧ (∀ (row : (MS → Instr) × Nat) (x : MS), row ∈ storeRows → CoreRuns s c (row.1 x) →
      let ea := effAddr s c x
      (ea.toNat % row.2 ≠ 0 → Machine.exec (row.1 x) s = .next (trapped s c 6 0 ea))
      ∧ (∀ d, ea.toNat % row.2 = 0 → (resolve s c ea false true).2 = .bad d →
          Machine.exec (row.1 x) s = .next (trapped s c 5 d ea))
      ∧ (ea.toNat % row.2 = 0 → (resolve s c ea false true).2 = .ecc →
          Machine.exec (row.1 x) s = .next (trapped (s.countUe (c / 4)) c 7 0 ea))
      ∧ (∀ s' p, ea.toNat % row.2 = 0 → resolve s c ea false true = (s', .place p) → s'.coreTurn c p = true →
          (Place.space p = 3 ∨ Place.space p = 4 ∨ (Place.space p = 5 ∨ Place.space p = 6 ∧ (s.core c).firmware = true) ∧ row.2 < 4 →
            Machine.exec (row.1 x) s = .next (trapped s c 5 4 ea))
          ∧ (isOwn s' p = true → Place.space p < 3 → placeValid s' p = false →
            Machine.exec (row.1 x) s = .next (trapped s c 5 3 ea))))
    ∧ (∀ (row : (EA → Instr) × (Dword → Dword → Dword → Dword)) (x : EA), row ∈ mamoRows → CoreRuns s c (row.1 x) →
      let a := (s.core c).reg x.a
      (a.toNat % 8 ≠ 0 → Machine.exec (row.1 x) s = .next (trapped s c 6 0 a))
      ∧ (∀ d, a.toNat % 8 = 0 → (resolve s c a true true).2 = .bad d → Machine.exec (row.1 x) s = .next (trapped s c 5 d a))
      ∧ (a.toNat % 8 = 0 → (resolve s c a true true).2 = .ecc →
          Machine.exec (row.1 x) s = .next (trapped (s.countUe (c / 4)) c 7 0 a))
      ∧ (∀ s' p, a.toNat % 8 = 0 → resolve s c a true true = (s', .place p) → 3 ≤ Place.space p → Place.space p ≤ 6 →
          (Place.space p = 6 → (s.core c).firmware = true) → Machine.exec (row.1 x) s = .next (trapped s c 5 4 a)))

/-- R303: MAMO replaces the dword at g[A] in one step, and D takes the old dword; the PU condition is "old dword nonzero". It waits where
it cannot be served in this round (R177, R374), and traps ECC on an uncorrectable error (R405). -/
def Obligations.CoreMamo : Prop :=
  ∀ (s s' : State) (c p : Nat) (row : (EA → Instr) × (Dword → Dword → Dword → Dword)) (x : EA), row ∈ mamoRows →
    CoreRuns s c (row.1 x) → ((s.core c).reg x.a).toNat % 8 = 0 → resolve s c ((s.core c).reg x.a) true true = (s', .place p) →
    let o := BitVec.ofNat 64 (s'.read p 8)
    let new := row.2 o ((s.core c).reg x.b) ((s.core c).reg x.d)
    (InMemory s' c p 8 → Machine.exec (row.1 x) s
        = .next (coreWrote (((s'.takeTurn p).corrected p 8).write p 8 new.toNat) c x.d x.pu o))
    ∧ (isOwn s' p = true → placeValid s' p = true → Place.space p < 3 →
        (s'.coreTurn c p = false → Machine.exec (row.1 x) s = .next (heldAt s' c))
        ∧ (s'.coreTurn c p = true → s'.eccAt p 8 = true → Pstat.tip (s.core c).pstat = false →
          Machine.exec (row.1 x) s = .next (trapped (s.countUe (c / 4)) c 7 0 ((s.core c).reg x.a))))

/-- R304, R305: a fence only goes on, since the model performs each access of a core before the next instruction begins (log 7); IINVA
empties the instruction cache, and IINV drops at most the line it names. -/
def Obligations.CoreFences : Prop :=
  ∀ (s : State) (c : Nat) (x : EA),
    (∀ op ∈ fenceRows, CoreRuns s c (op x) → Machine.exec (op x) s = .next (coreWent s c x.pu))
    ∧ (CoreRuns s c (.iinva x) → Machine.exec (.iinva x) s = .next (coreWent (s.setCore c { s.core c with icache := [] }) c x.pu))
    ∧ (CoreRuns s c (.iinv x) →
      (∀ l, lineOf s c ((s.core c).reg x.a) = some l →
        Machine.exec (.iinv x) s = .next (coreWent (s.setCore c { s.core c with icache := (s.core c).icache.erase l }) c x.pu))
      ∧ (lineOf s c ((s.core c).reg x.a) = none → Machine.exec (.iinv x) s = .next (coreWent s c x.pu)))

/-! ### Mason cores: system operations -/

/-- R311: CRCB to CRCD. -/
def Obligations.CoreCrc : Prop :=
  ∀ (s : State) (c : Nat) (row : (EA → Instr) × Nat) (x : EA), row ∈ crcRows → CoreRuns s c (row.1 x) →
    Machine.exec (row.1 x) s = .next (coreWrote s c x.d x.pu
      ((crcSpec row.2 (((s.core c).reg x.d).setWidth 32) ((s.core c).reg x.a)).setWidth 64))

/-- R312: SHKA empties the sponge or absorbs the low bytes of g[A], and traps ILLEGAL past eight bytes or after a squeeze; SHKS gives
the next eight bytes of SHAKE256; SIGV gives the verdict on readable operands; SECST gives the security status. -/
def Obligations.CoreSecurity : Prop :=
  ∀ (s : State) (c : Nat) (x : EA),
    let k := s.core c
    let n := (k.reg x.b).toNat
    (CoreRuns s c (.shka x) →
      (n = 0 → Machine.exec (.shka x) s = .next (coreWent (s.setCore c { k with sponge := {} }) c x.pu))
      ∧ (1 ≤ n → n ≤ 8 → k.sponge.squeezed = 0 → Machine.exec (.shka x) s = .next (coreWent (s.setCore c { k with
          sponge := { k.sponge with absorbed := k.sponge.absorbed ++ (List.range n).map fun j => (k.reg x.a).extractLsb' (8 * j) 8 } }) c x.pu))
      ∧ (8 < n ∨ 1 ≤ n ∧ k.sponge.squeezed ≠ 0 → Pstat.tip k.pstat = false →
          Machine.exec (.shka x) s = .next (trapped s c 1 0 (encode (.shka x)))))
    ∧ (CoreRuns s c (.shks x) → Machine.exec (.shks x) s = .next (coreWrote
        (s.setCore c { k with sponge := { k.sponge with squeezed := k.sponge.squeezed + 1 } }) c x.d x.pu
        (BitVec.ofNat 64 (leNat ((shake256 (8 * k.sponge.squeezed + 8) k.sponge.absorbed).drop (8 * k.sponge.squeezed))))))
    ∧ (CoreRuns s c (.sigv x) → ∀ (d : List Byte) (ps : List (Nat × Nat)), Reads s c (k.reg x.a) 64 ps d →
      let g (j : Nat) : Dword := (bytesDwords d).getD j 0
      (Xmss.height (g 3).toNat = none → Machine.exec (.sigv x) s = .next (takeTurns (coreWrote (readOf s ps) c x.d x.pu 2) ps))
      ∧ (∀ (h : Nat) (msg sig pk : List Byte) (pm pg pp : List (Nat × Nat)),
          Xmss.height (g 3).toNat = some h → (∀ w ∈ (bytesDwords d).drop 4, w = 0) →
          let s1 := readOf s ps
          let s2 := readOf s1 pm
          let s3 := readOf s2 pg
          Reads s1 c (g 0) 64 pm msg → Reads s2 c (g 1) (4 + 32 * (68 + h)) pg sig → Reads s3 c (g 2) 68 pp pk →
          Machine.exec (.sigv x) s = .next ([pp, pg, pm, ps].foldl takeTurns
            (coreWrote (readOf s3 pp) c x.d x.pu (BitVec.ofNat 64 (Xmss.sigv (g 3).toNat msg sig pk))))))
    ∧ (CoreRuns s c (.secst x) → ∃ v : Dword, Machine.exec (.secst x) s = .next (coreWrote s c x.d x.pu v)
      ∧ v.toNat / 2 ^ 32 = min s.attest.left (2 ^ 32 - 1) ∧ v.getLsbD 2 = s.secBoot ∧ v.getLsbD 0 = decide (0 < s.attest.left))

/-- R313: WQPOP moves the head entry of a mason-serviced queue, WQPUSH appends an entry, WQSTAT gives the state; a queue number of
1,024 or above gives ARG. WQPUSH first asks another device for what it holds of the entry, and waits where the banks cannot serve the
entry in this round (R177, R308, R367; log 23). -/
def Obligations.CoreQueues : Prop :=
  ∀ (s : State) (c : Nat) (x : EA),
    let k := s.core c
    let q := (k.reg x.a).toNat
    let w := s.queue q
    (∀ op ∈ ([.wqpop, .wqpush, .wqstat] : List (EA → Instr)), CoreRuns s c (op x) → 1024 ≤ q →
      Machine.exec (op x) s = .next (coreWrote s c x.d x.pu 2))
    ∧ (CoreRuns s c (.wqpop x) → q < 1024 →
      (w.ms = false → Machine.exec (.wqpop x) s = .next (coreWrote s c x.d x.pu 2))
      ∧ (w.ms = true → (k.reg x.b).toNat % 64 = 0 → w.len = 0 → Machine.exec (.wqpop x) s = .next (coreWrote s c x.d x.pu 0))
      ∧ (∀ ps, w.ms = true → (k.reg x.b).toNat % 64 = 0 → w.len ≠ 0 → Writes s c (k.reg x.b) (s.bytes (w.slot 0) 64) ps →
          Machine.exec (.wqpop x) s
            = .next (takeTurns (coreWrote (wqDrop (stored s ps (s.bytes (w.slot 0) 64)) q) c x.d x.pu 1) ps)))
    ∧ (CoreRuns s c (.wqpush x) → q < 1024 → (k.reg x.b).toNat % 64 = 0 → ∀ ps bs, Reads s c (k.reg x.b) 64 ps bs →
      (w.cap ≤ w.len → Machine.exec (.wqpush x) s = .next (takeTurns (coreWrote (readOf s ps) c x.d x.pu 1) ps))
      ∧ (w.len < w.cap → ∃ t, Machine.exec (.wqpush x) s = .next (takeTurns (coreWrote t c x.d x.pu 0) ps)
          ∧ (t.queue q).len = w.len + 1 ∧ t.mem = (s.setBytes (w.slot w.len) bs).mem ∧ t.cores = s.cores))
    ∧ (CoreRuns s c (.wqpush x) → q < 1024 → (k.reg x.b).toNat % 64 = 0 → ∀ ps,
      spanOf c false 2 s (k.reg x.b) 64 = (s, .ok ps) →
      (∀ p, (operandParts s ps).find? (fun p => !isOwn s p.1 && (operandAt s c p).isNone) = some p →
        Machine.exec (.wqpush x) s = .next (askRemote s c p.1 (.rd p.2)
          { CorePend.ask (k.reg x.b) 4 false 0 8 false 0 with oper := true }))
      ∧ ((∀ p ∈ ps, isOwn s p.1 = true) → operandTurn s c ps = false → Machine.exec (.wqpush x) s = .next (heldAt s c)))
    ∧ (CoreRuns s c (.wqstat x) → q < 1024 → Machine.exec (.wqstat x) s
        = .next (coreWrote s c x.d x.pu (BitVec.ofNat 64 (w.cap * 2 ^ 32 + w.ms.toNat * 2 ^ 17 + w.priv.toNat * 2 ^ 16 + w.len))))

/-- R314: EVPOP moves the head record of the die's event queue to memory, EVACK answers a record that waits, EVSTAT gives EVQ. -/
def Obligations.CoreEventQueue : Prop :=
  ∀ (s : State) (c : Nat) (x : EA),
    let k := s.core c
    let d := coreDie c
    (CoreRuns s c (.evpop x) →
      ((k.reg x.a).toNat % 32 = 0 → (s.evq d).recs = [] → Machine.exec (.evpop x) s = .next (coreWrote s c x.d x.pu 0))
      ∧ (∀ r rest ps, (k.reg x.a).toNat % 32 = 0 → (s.evq d).recs = r :: rest → Writes s c (k.reg x.a) (dwordBytes r.dwords) ps →
          Machine.exec (.evpop x) s
            = .next (takeTurns (coreWrote (popEvent (stored s ps (dwordBytes r.dwords)) d) c x.d x.pu 1) ps))
      ∧ ((k.reg x.a).toNat % 32 ≠ 0 → Pstat.tip k.pstat = false → Machine.exec (.evpop x) s = .next (trapped s c 6 0 (k.reg x.a))))
    ∧ (CoreRuns s c (.evack x) →
      (1 < (k.reg x.b).toNat → Machine.exec (.evack x) s = .next (coreWrote s c x.d x.pu 2))
      ∧ ((k.reg x.b).toNat ≤ 1 → (∀ p ∈ s.regions, p.2.live = true → p.2.waitEv ≠ some (k.reg x.a).toNat) →
          (∀ p ∈ s.launches, p.2.phase ≠ .pinWait (k.reg x.a).toNat) → Machine.exec (.evack x) s = .next (coreWrote s c x.d x.pu 2))
      ∧ (∀ t, (k.reg x.b).toNat ≤ 1 → answerEvent s (k.reg x.a).toNat (k.reg x.b).toNat = (t, true) →
          Machine.exec (.evack x) s = .next (coreWrote t c x.d x.pu 0)))
    ∧ (CoreRuns s c (.evstat x) → Machine.exec (.evstat x) s = .next (coreWrote s c x.d x.pu (evqWord s d)))

/-- R315: LKST, LKRT and LKCTL; a number that is no link gives ARG. -/
def Obligations.CoreLinks : Prop :=
  ∀ (s : State) (c : Nat) (x : EA),
    let k := s.core c
    let l := (k.reg x.a).toNat
    let isLink : Prop := l ≤ 17 ∨ 32 ≤ l ∧ l ≤ 35
    (CoreRuns s c (.lkst x) →
      (isLink → Machine.exec (.lkst x) s = .next (coreWrote s c x.d x.pu (linkWord l (s.link l))))
      ∧ (¬isLink → Machine.exec (.lkst x) s = .next (coreWrote s c x.d x.pu 2)))
    ∧ (CoreRuns s c (.lkrt x) →
      (isLink → (s.link l).training.isSome = true → Machine.exec (.lkrt x) s = .next (coreWrote s c x.d x.pu 1))
      ∧ (isLink → (s.link l).training = none → Machine.exec (.lkrt x) s = .next (coreWrote (s.putLink l { s.link l with
          training := some s.round, retrains := min ((s.link l).retrains + 1) 65535 }) c x.d x.pu 0))
      ∧ (¬isLink → Machine.exec (.lkrt x) s = .next (coreWrote s c x.d x.pu 2)))
    ∧ (CoreRuns s c (.lkctl x) → k.firmware = true →
      (isLink → (k.reg x.b).toNat < 65536 → Machine.exec (.lkctl x) s = .next (coreWrote (s.putLink l { s.link l with
          ctl := (k.reg x.b).setWidth 32 &&& 0xFF03 }) c x.d x.pu 0))
      ∧ (¬isLink → Machine.exec (.lkctl x) s = .next (coreWrote s c x.d x.pu 2)))
    ∧ (∀ kl : Link,
      let on : Prop := kl.up = true ∧ kl.ctl.getLsbD 0 = true ∧ kl.ctl.getLsbD 1 = false
      (on → s.putLink l kl = s.setLink l { kl with downAt := none })
      ∧ (¬on → kl.downAt = none → s.putLink l kl = s.setLink l { kl with downAt := some s.round })
      ∧ (¬on → kl.downAt ≠ none → s.putLink l kl = s.setLink l kl))

/-- R316, R214: TLBI drops translations, PWALK walks, MIGR completes when FWD is set, MIGQ gives the forwarding state. -/
def Obligations.CorePages : Prop :=
  ∀ (s : State) (c : Nat) (x : EA),
    let k := s.core c
    let a := k.reg x.a
    let b := k.reg x.b
    (CoreRuns s c (.tlbi x) →
      (b.toNat < 2 ^ 15 → Machine.exec (.tlbi x) s = .next (coreWrote (dropLeaves s a.toNat b.toNat) c x.d x.pu 0))
      ∧ (2 ^ 15 ≤ b.toNat → Machine.exec (.tlbi x) s = .next (coreWrote s c x.d x.pu 2)))
    ∧ (CoreRuns s c (.pwalk x) → a.toNat < 2 ^ 56 →
      let ctx := b.toNat % 4096
      let found (v : Nat) : Outcome := .next (coreWrote (walkCorrected s a.toNat ctx) c x.d x.pu (BitVec.ofNat 64 v))
      (∀ lv d, walk s a.toNat ctx = .leaf lv d → Machine.exec (.pwalk x) s = found (leafPlace lv d a.toNat))
      ∧ (∀ lv, walk s a.toNat ctx = .notPresent lv → Machine.exec (.pwalk x) s = found (2 ^ 60))
      ∧ (∀ lv, walk s a.toNat ctx = .malformed lv → Machine.exec (.pwalk x) s = found (2 ^ 61))
      ∧ (∀ lv p, walk s a.toNat ctx = .ecc lv p → Pstat.tip k.pstat = false →
        Machine.exec (.pwalk x) s = .next (trapped (s.countUe (c / 4)) c 7 0 a)))
    ∧ (CoreRuns s c (.migr x) →
      (∀ old new, k.busyTo = none → ksArg s a = some old → ksArg s b = some new → old ≠ new →
        (s.kstone old).words = (s.kstone new).words → (s.kstone old).fwd = none → (s.kstone old).hold = false →
        Machine.exec (.migr x) s = .next ((s.setKstone old { s.kstone old with hold := true, copyTo := some new }).setCore c
          { k with busyTo := some old }))
      ∧ (∀ old, k.busyTo = some old → (s.kstone old).fwd.isSome = true →
        Machine.exec (.migr x) s = .next (coreWrote (s.setCore c { k with busyTo := none }) c x.d x.pu 0)))
    ∧ (CoreRuns s c (.migq x) →
      (∀ ks, ksArg s a = some ks → Machine.exec (.migq x) s = .next (coreWrote s c x.d x.pu (BitVec.ofNat 64
        ((s.kstone ks).hold.toNat * 2 ^ 17 + (s.kstone ks).fwd.isSome.toNat * 2 ^ 16 + (s.kstone ks).waitQ.length))))
      ∧ (ksArg s a = none → Machine.exec (.migq x) s = .next (coreWrote s c x.d x.pu 2)))

/-- R309: the operations on configuration ports, planes, snapshot shadows and commits. -/
def Obligations.CoreConfiguration : Prop :=
  ∀ (s : State) (c : Nat) (x : EA),
    let k := s.core c
    let a := k.reg x.a
    (CoreRuns s c (.cfgw x) → ∀ t, tileArg s a = some t → statusAccess a = false →
      (planeBusy s (4 * t + k.selPlane) = false →
        Machine.exec (.cfgw x) s = .next (coreWrote (portWrite s (4 * t + k.selPlane) (k.reg x.b)) c x.d x.pu 0))
      ∧ (planeBusy s (4 * t + k.selPlane) = true → Machine.exec (.cfgw x) s = .next (coreWrote s c x.d x.pu 3)))
    ∧ (CoreRuns s c (.cfgr x) → ∀ p, a.toNat % 8 = 0 → resolve s c a true false = (s, .place p) → Place.space p = 5 →
      isOwn s p = true → placeValid s p = true →
      Machine.exec (.cfgr x) s = .next (coreWrote s c x.d x.pu (BitVec.ofNat 64 (cfgRead s p 8))))
    ∧ (CoreRuns s c (.snaprd x) → ∀ p, a.toNat % 8 = 0 → resolve s c a true false = (s, .place p) → Place.space p = 5 →
      isOwn s p = true → placeValid s p = true →
      Machine.exec (.snaprd x) s = .next (coreWrote s c x.d x.pu
        (BitVec.ofNat 64 (readWords (snapWord s (CfgPlace.pk p) (CfgPlace.unit p)) (CfgPlace.off p) 8))))
    ∧ (CoreRuns s c (.cfgstat x) → ∀ t, tileArg s a = some t →
      Machine.exec (.cfgstat x) s = .next (coreWrote s c x.d x.pu ((tileWord s (4 * t + k.selPlane) 4).setWidth 64)))
    ∧ (CoreRuns s c (.planesel x) →
      (a.toNat < 4 → Machine.exec (.planesel x) s
        = .next (coreWrote (s.setCore c { k with selPlane := a.toNat }) c x.d x.pu (BitVec.ofNat 64 k.selPlane)))
      ∧ (4 ≤ a.toNat → Machine.exec (.planesel x) s = .next (coreWrote s c x.d x.pu 2)))
    ∧ (CoreRuns s c (.cfgabort x) → ∀ r, descriptor a = some r → ∃ t, Machine.exec (.cfgabort x) s = .next (coreWrote t c x.d x.pu 0)
      ∧ t.cores = s.cores ∧ t.mem = s.mem ∧ ∀ pk ∈ ({ r with plane := k.selPlane } : Region).livePks s, (t.plane pk).shadow = [])
    ∧ (CoreRuns s c (.cfgcommit x) → ∀ r, descriptor a = some r →
      (∀ rk, k.busyTo = some rk → (s.region rk).commitHop = none →
        Machine.exec (.cfgcommit x) s = .next (coreWrote (s.setCore c { k with busyTo := none }) c x.d x.pu 0))
      ∧ (∀ t ok, k.busyTo = none → overlapping s r = [] → commitCheck s r = (t, ok) → Machine.exec (.cfgcommit x) s = .next (
          if ok then (startCommit t (freeRegionKey t) r).setCore c { t.core c with busyTo := some (freeRegionKey t) }
          else coreWrote t c x.d x.pu 3)))
    ∧ (CoreRuns s c (.rollbk x) →
      ((descriptor a).bind (regionNamed s) = none → Machine.exec (.rollbk x) s = .next (coreWrote s c x.d x.pu 2))
      ∧ (∀ rk, (descriptor a).bind (regionNamed s) = some rk →
        ((s.region rk).frozen = false → Machine.exec (.rollbk x) s = .next (coreWrote s c x.d x.pu 3))
        ∧ ((s.region rk).frozen = true → (s.region rk).relDue = none →
          Machine.exec (.rollbk x) s = .next (coreWrote (rollback s rk .firmware) c x.d x.pu 0))))

/-- R310, R346-R352: the operations on regions. A descriptor that names no region gives ARG; what the operation needs and the region
lacks gives STATE. How READOUT lays a region out and RESTORE reads it back is the model's choice (log 10), and so are an operand that moves
in one round (log 23) and the answers of DRAINREQ to a frozen region (log 61). -/
def Obligations.CoreRegions : Prop :=
  ∀ (s : State) (c : Nat) (x : EA),
    let k := s.core c
    let named := (descriptor (k.reg x.a)).bind (regionNamed s)
    (∀ op ∈ ([.freeze, .thaw, .readout, .probe, .drainreq] : List (EA → Instr)), CoreRuns s c (op x) → named = none →
      Machine.exec (op x) s = .next (coreWrote s c x.d x.pu 2))
    ∧ (∀ rk, named = some rk →
      (CoreRuns s c (.freeze x) → (s.region rk).commitHop = none →
        settled (freezeRegion s rk) ((freezeRegion s rk).region rk) = true →
        Machine.exec (.freeze x) s = .next (coreWrote (freezeRegion s rk) c x.d x.pu 0) ∧ ((freezeRegion s rk).region rk).frozen = true)
      ∧ (CoreRuns s c (.thaw x) →
        ((s.region rk).frozen = true → Machine.exec (.thaw x) s = .next (coreWrote (thawRegion s rk) c x.d x.pu 0))
        ∧ ((s.region rk).frozen = false → Machine.exec (.thaw x) s = .next (coreWrote s c x.d x.pu 3)))
      ∧ (CoreRuns s c (.readout x) →
        (∀ ps, (s.region rk).frozen = true →
          let bytes := dwordBytes (readoutImage s (s.region rk))
          Writes s c (k.reg x.b) bytes ps → Machine.exec (.readout x) s
            = .next (takeTurns (coreWrote (stored s ps bytes) c x.d x.pu (BitVec.ofNat 64 bytes.length)) ps))
        ∧ ((s.region rk).frozen = false → Machine.exec (.readout x) s = .next (coreWrote s c x.d x.pu 3)))
      ∧ (CoreRuns s c (.probe x) → ∀ t found, probeRegion s rk = (t, found) →
        Machine.exec (.probe x) s = .next (coreWrote t c x.d x.pu (if found then 1 else 0)))
      ∧ (CoreRuns s c (.drainreq x) →
        ((s.region rk).frozen = false → Machine.exec (.drainreq x) s
          = .next (coreWrote (s.setRegion rk { s.region rk with drainReq := true }) c x.d x.pu 0))
        ∧ ((s.region rk).frozen = true → Machine.exec (.drainreq x) s = .next (coreWrote s c x.d x.pu 3))))
    ∧ (CoreRuns s c (.restore x) → ∀ r ph head, descriptor (k.reg x.a) = some r → Reads s c (k.reg x.b) 64 ph head →
      let n := ((bytesDwords head).getD 4 0).toNat
      let image : Prop := (bytesDwords head).getD 0 0 = 0x44535244 ∧ 64 ≤ n ∧ n % 8 = 0
      let s1 := readOf s ph
      (¬image → Machine.exec (.restore x) s = .next (takeTurns (coreWrote s1 c x.d x.pu 2) ph))
      ∧ (image → ∀ ps bs t v, Reads s1 c (k.reg x.b) n ps bs → restoreFrom (readOf s1 ps) r (bytesDwords bs) = (t, v) →
        Machine.exec (.restore x) s = .next (takeTurns (takeTurns (coreWrote t c x.d x.pu (BitVec.ofNat 64 v)) ps) ph)))

/-- R317: a core's access to the items of an island and of a streamer. A write needs the region frozen, but for the spill area while the
island waits on SPILL-FULL (R264); a slot's descriptor and a directory entry are read only (R261); a bad place or selector traps with
SPACE. That ISLST and STST read the plane the core has selected is the model's choice (log 24); the ring and evict state, whose layout the
spec does not give, is a free value (log 4). -/
def Obligations.CoreEngineAccess : Prop :=
  ∀ (s : State) (c : Nat) (x : EA),
    let k := s.core c
    let a := k.reg x.a
    (∀ e sel, engineArg s a false = some e → selectorOf (k.reg x.b) = some sel →
      let i := engineKey e sel.plane
      (CoreRuns s c (.slotrd x) → ∀ v, islandItem (s.island i) sel.kind sel.index = some v →
        Machine.exec (.slotrd x) s = .next (coreWrote s c x.d x.pu v))
      ∧ (CoreRuns s c (.slotwr x) → (islandItem (s.island i) sel.kind sel.index).isSome = true →
        (sel.kind ≠ 1 → sel.kind ≠ 2 → engineFrozen s i = true ∨ sel.kind = 5 ∧ spillWaits s i = true →
          Machine.exec (.slotwr x) s = .next (coreWent (islandWrite s i sel.kind sel.index (k.reg x.d)) c x.pu))
        ∧ (sel.kind ≠ 1 → sel.kind ≠ 2 → engineFrozen s i = false → sel.kind ≠ 5 ∨ spillWaits s i = false → Pstat.tip k.pstat = false →
          Machine.exec (.slotwr x) s = .next (trapped s c 5 5 a))
        ∧ (sel.kind = 1 ∨ sel.kind = 2 → Pstat.tip k.pstat = false → Machine.exec (.slotwr x) s = .next (trapped s c 5 3 a))))
    ∧ (∀ e sel, engineArg s a true = some e → selectorOf (k.reg x.b) = some sel →
      let i := engineKey e sel.plane
      (CoreRuns s c (.strd x) → sel.kind = 0 → sel.index < 512 →
        Machine.exec (.strd x) s = .next (coreWrote s c x.d x.pu ((s.streamer i).spbs.get 0 sel.index)))
      ∧ (CoreRuns s c (.strd x) → sel.kind = 2 → sel.index = 0 →
        Machine.exec (.strd x) s
          = .next (coreWrote { s with freeCtr := s.freeCtr + 1 } c x.d x.pu (Config.freeDword s.freeCtr)))
      ∧ (CoreRuns s c (.stwr x) → sel.kind = 0 → sel.index < 512 → engineFrozen s i = true →
        Machine.exec (.stwr x) s = .next (coreWent (s.setStreamer i { s.streamer i with
          spbs := (s.streamer i).spbs.put 0 sel.index (k.reg x.d) }) c x.pu))
      ∧ (CoreRuns s c (.stwr x) → sel.kind = 0 → sel.index < 512 → engineFrozen s i = false → Pstat.tip k.pstat = false →
        Machine.exec (.stwr x) s = .next (trapped s c 5 5 a)))
    ∧ (∀ e, engineArg s a false = some e → CoreRuns s c (.islst x) →
      let i := engineKey e k.selPlane
      let n := ((s.island i).mmas.filter fun m => m.done.isNone).length + (if (s.island i).job = .none then 0 else 1)
      ∃ v : Dword, Machine.exec (.islst x) s = .next (coreWrote s c x.d x.pu v)
        ∧ v.extractLsb' 0 3 = (s.island i).setup.extractLsb' 0 3
        ∧ v.getLsbD 3 = (decide (0 < n) || (s.island i).xfer.isSome) ∧ v.getLsbD 4 = spillWaits s i
        ∧ v.extractLsb' 5 3 = 0 ∧ v.toNat / 2 ^ 8 = min n 255)
    ∧ (∀ e, engineArg s a true = some e → CoreRuns s c (.stst x) →
      let t := s.streamer (engineKey e k.selPlane)
      let batches := ((t.cmds.map (·.batch)).eraseDups.filter fun b => b ≠ t.batchNo).length
      ∃ v : Dword, Machine.exec (.stst x) s = .next (coreWrote s c x.d x.pu v)
        ∧ v.toNat % 2 ^ 7 = min t.cmds.length 127 ∧ v.toNat / 2 ^ 7 % 2 ^ 5 = min batches 31
        ∧ v.getLsbD 12 = decide (0 < t.opened) ∧ v.toNat < 2 ^ 13)
    ∧ (Pstat.tip k.pstat = false → engineArg s a false = none → CoreRuns s c (.slotrd x) →
      Machine.exec (.slotrd x) s = .next (trapped s c 4 3 a))

/-- R318, R200, R202, R204, R214: a core's access to a keystone word enters the arrival order of the range that the place names, and the
core waits for its answer: KSRD reads the word, KSWR writes it, KSST reads the range status and clears the sticky bits that g[B] names. A
keystone that withholds takes no access, and none takes one while no link leads to its die (R374): the core stays at its word (for a list
of held arrivals that is full, R212 speaks of ports only: log 100). A place that is no word of a range traps with SPACE, an address that is
no multiple of 4 with ALIGN. When the keystone issues the access, the answer is on its way and reaches the core two rounds later. -/
def Obligations.CoreKeystoneAccess : Prop :=
  ∀ (s : State) (c : Nat) (x : EA),
    let k := s.core c
    let a := k.reg x.a
    let b := k.reg x.b
    (∀ p, a.toNat % 4 = 0 → Place.space p = 4 → isOwn s p = true → ksReaches s c p = true →
      let key := ksHere s c p
      let arrives (op : KOp) (write : Bool) : Outcome :=
        let cause := if write then 5 else 4
        .next (if ksWithholds (s.kstone key) = true ∨ diesLinked s (c / 4) (rangeDie key) = false then heldAt s c
          else ksArrive (s.setCore c { k with pend := some (CorePend.ask a cause (!write) x.d 8 false x.pu) }) key
            ⟨op, Place.bits p 11 0 / 4, b.setWidth 32⟩ (.core c))
      (CoreRuns s c (.ksrd x) → resolve s c a true false = (s, .place p) → Machine.exec (.ksrd x) s = arrives .read false)
      ∧ (CoreRuns s c (.ksst x) → resolve s c a true false = (s, .place p) →
          Machine.exec (.ksst x) s = arrives (.status (b.setWidth 7)) false)
      ∧ (CoreRuns s c (.kswr x) → resolve s c a false true = (s, .place p) → Machine.exec (.kswr x) s = arrives .write true))
    ∧ (∀ op ∈ ([.ksrd, .kswr, .ksst] : List (EA → Instr)), Pstat.tip k.pstat = false → CoreRuns s c (op x) → a.toNat % 4 ≠ 0 →
        Machine.exec (op x) s = .next (trapped s c 6 0 a))
    ∧ (∀ p, Pstat.tip k.pstat = false → a.toNat % 4 = 0 → (Place.space p ≠ 4 ∨ isOwn s p = true ∧ ksReaches s c p = false) →
        (∀ op ∈ ([.ksrd, .ksst] : List (EA → Instr)), CoreRuns s c (op x) → resolve s c a true false = (s, .place p) →
          Machine.exec (op x) s = .next (trapped s c 4 3 a))
        ∧ (CoreRuns s c (.kswr x) → resolve s c a false true = (s, .place p) → Machine.exec (.kswr x) s = .next (trapped s c 5 3 a)))
    ∧ (∀ (ks idx arr : Nat) (v : Word) (p : CorePend), k.pend = some p → p.got = none → idx < 1024 →
        let kst := s.kstone ks
        let issued (op : KOp) : State := issueUpdate s ks kst ⟨⟨op, idx, v⟩, .core c, arr⟩
        let answer (d : Dword) : Option CorePend := some { p with got := some (s.round + 2, d) }
        let same (t : State) : Prop := ∀ j, j < 1024 → keystoneWord t ks j = keystoneWord s ks j
        (((issued .read).core c).pend = answer ((keystoneWord s ks idx).setWidth 64) ∧ same (issued .read))
        ∧ (kst.bar = false → ((issued .write).core c).pend = answer 0 ∧ keystoneWord (issued .write) ks idx = v
          ∧ ∀ j, j < 1024 → j ≠ idx → keystoneWord (issued .write) ks j = keystoneWord s ks j)
        ∧ (∀ m, ((issued (.status m)).core c).pend = answer (kst.statusWord.setWidth 64)
          ∧ ((issued (.status m)).kstone ks).sticky = kst.sticky &&& ~~~m ∧ same (issued (.status m))))
    ∧ (∀ (p : CorePend) (due : Nat) (v : Dword), k.pend = some p → p.got = some (due, v) →
        (due ≤ s.round → k.landed s.round = k.answered v) ∧ (s.round < due → k.landed s.round = k))

/-! ### Elements -/

/-- R30, R31, R76: what a source specifier of an element reads. -/
def Obligations.ElemOperands : Prop :=
  ∀ (s : State) (e : Nat) (x : Body) (code : BitVec 5),
    let el := s.elem e
    (code.toNat < 16 → readSpec s e x code = el.d.get 0 code.toNat)
    ∧ (∀ (k : Nat) (t : Token), k < 4 → code.toNat = 16 + k → el.io.head? s.round k = some t →
        readSpec s e x code = if el.ecfg.getLsbD (8 + k) then 0 else t.payload.setWidth 32)
    ∧ (code.toNat = 24 → readSpec s e x code = 0)
    ∧ (∀ t : Token, code.toNat = 25 → el.io.head? s.round x.guard.tc.toNat = some t → readSpec s e x code = t.tag.setWidth 32)
    ∧ (code.toNat = 26 → readSpec s e x code
        = BitVec.ofNat 32 (e / 65536 * 2 ^ 30 + e / 2048 % 32 * 2 ^ 25 + e / 64 % 32 * 2 ^ 20 + e % 16 * 2 ^ 16))
    ∧ (code.toNat = 27 → readSpec s e x code = BitVec.ofNat 32 s.round)

/-- R31, R76, R86, R87: a result of latency 1 is written at once; a longer one sets the busy marks of its register and of the predicate that
PU writes, and lands in round n + L - 1; a result for an output reserves a slot, whose token is ready in round n + L - 1, and a control
channel drops the payload; ZERO discards the result. -/
def Obligations.ElemDestinations : Prop :=
  ∀ (el : Elem) (n lat : Nat) (code : BitVec 5) (v : Word) (tag : BitVec 3),
    (code.toNat < 16 → lat = 1 → el.writeDest n lat code v tag none = { el with d := el.d.put 0 code.toNat v })
    ∧ (code.toNat < 16 → 1 < lat → el.writeDest n lat code v tag none = { el with
        busyD := el.busyD ||| 1#16 <<< code.toNat, landing := el.landing ++ [{ due := n + lat - 1, regs := [(code.toNat, v)] }] })
    ∧ (∀ k, k < 4 → code.toNat = 20 + k → 1 ≤ lat →
        let out : OutTok := { tok := ⟨tag, if el.ecfg.getLsbD (12 + k) then 0 else v.setWidth 64, 0⟩, ready := n + lat - 1 }
        (el.writeDest n lat code v tag none).io = el.io.reserve k out
        ∧ (lat = 1 → el.writeDest n lat code v tag none = { el with io := el.io.reserve k out })
        ∧ (1 < lat → el.writeDest n lat code v tag none = { el with
            io := el.io.reserve k out, landing := el.landing ++ [{ due := n + lat - 1 }] }))
    ∧ (code.toNat = 24 → lat = 1 → el.writeDest n lat code v tag none = el)
    ∧ (code.toNat = 24 → 1 < lat → el.writeDest n lat code v tag none = { el with landing := el.landing ++ [{ due := n + lat - 1 }] })
    ∧ (∀ k b, code.toNat = 24 → lat = 1 →
        el.writeDest n lat code v tag (some (k, b)) = { el with p := if b then el.p ||| 1#8 <<< k else el.p &&& ~~~(1#8 <<< k) })
    ∧ (∀ k b, 1 < lat → let t := el.writeDest n lat code v tag (some (k, b))
        t.busyP = el.busyP ||| 1#8 <<< k ∧ t.p = el.p
          ∧ t.landing = el.landing ++ [{ due := n + lat - 1, regs := if code.toNat < 16 then [(code.toNat, v)] else [], pred := some (k, b) }])

/-- R32, R12, R138: a take removes the head of an input and frees its slot in the channel; an ERR token that stops here is reported; an
input that DQ does not name keeps its tokens. -/
def Obligations.ElemTakes : Prop :=
  ∀ (s : State) (e k : Nat) (passed : Option Nat) (x : InTok) (rest : List InTok), k < 4 →
    Ports.front [] ((s.elem e).io.inq k) = some (x, rest) →
    let t := takeInputs s e (BitVec.ofNat 4 (2 ^ k)) passed
    (t.elem e).io.inq k = rest
      ∧ (∀ j, j ≠ k → (t.elem e).io.inq j = (s.elem e).io.inq j)
      ∧ (t.chan x.ch).freed.get 0 x.dst = (s.chan x.ch).freed.get 0 x.dst + 1
      ∧ (∀ e', e' ≠ e → t.elem e' = s.elem e') ∧ (∀ ch, ch ≠ x.ch → t.chan ch = s.chan ch)
      ∧ (x.tok.tag ≠ 6 ∨ passed = some k → t.regions = s.regions)
      ∧ (∀ rk, x.tok.tag = 6 → passed ≠ some k → s.regionOf (e / 16) = some rk → (t.region rk).reports = (s.region rk).reports
          ++ [⟨elemPlace e, k, x.tok.payload.setWidth 32, (s.elem e).io.snapCut + 1⟩])

/-- R35, R81: what firing a rule that writes a value leaves unchanged: memory, the mason cores, every other element and engine, and the
element's program, its configuration and its local store. -/
def Obligations.ElemFrame : Prop :=
  ∀ (s : State) (e slot lat : Nat) (x : Body) (code : BitVec 5) (v : Word) (cond : Bool) (fl : BitVec 5) (tag : BitVec 3)
    (passed : Option Nat),
    let t := valueFired s e slot lat x code v cond fl tag id passed
    t = { s with elems := t.elems, chans := t.chans, regions := t.regions }
      ∧ (∀ e', e' ≠ e → t.elem e' = s.elem e')
      ∧ (let el := t.elem e
         let was := s.elem e
         el = { was with
            d := el.d, p := el.p, fflg := was.fflg ||| fl.setWidth 32, busyD := el.busyD, busyP := el.busyP
            landing := el.landing, st := el.st, io := el.io }
          ∧ (∀ k, k ≠ code.toNat → el.d.get 0 k = was.d.get 0 k)
          ∧ (x.pu.toNat % 4 = 0 → el.p = was.p)
          ∧ (el.slotSt slot).aborts = 0 ∧ ∀ j, j ≠ slot → el.slotSt j = was.slotSt j)

/-- R93-R102, R104, R115, R116: the integer instructions of formats EA and EI and the packed forms in an element: the results of
the tables at the latency of R86. -/
def Obligations.ElemInteger : Prop :=
  (∀ (s : State) (e slot : Nat) (row : AluRow) (x : EA), row ∈ aluRows → ElemFires s e slot (row.op x) → Room s e (.ea x row.f) →
      let res := row.res 32 (readSpec s e (.ea x row.f) x.a) (readSpec s e (.ea x row.f) x.b)
      Machine.exec (row.op x) s = .next (valueFired s e slot row.lat (.ea x row.f) x.d res (res != 0)))
    ∧ (∀ (s : State) (e slot : Nat) (row : ImmRow) (x : EI), row ∈ immRows → ElemFires s e slot (row.op x) → Room s e (.ei x) →
      let res := row.res 32 (readSpec s e (.ei x) x.a) (x.imm.signExtend 32)
      Machine.exec (row.op x) s = .next (valueFired s e slot row.lat (.ei x) x.d res (res != 0)))
    ∧ (∀ (s : State) (e slot : Nat) (row : (EA → Instr) × (Word → Word → Word)) (x : EA) (f : BitVec 3), row ∈ packRows →
      (row.1 x).body? = some (.ea x f) → ElemFires s e slot (row.1 x) → Room s e (.ea x f) →
      let res := row.2 (readSpec s e (.ea x f) x.a) (readSpec s e (.ea x f) x.b)
      Machine.exec (row.1 x) s = .next (valueFired s e slot 1 (.ea x f) x.d res (res != 0)))

/-- R102, R103, R105-R109: the moves of an element: BFI, SEL, MOVK, MOVKS, MOV with the tag of F, FWD and ERRT. A MOV that sends a MARKER
asks for a cut. -/
def Obligations.ElemMoves : Prop :=
  ∀ (s : State) (e slot : Nat),
    (∀ x : EA, ElemFires s e slot (.bfi x) → Room s e (.ea x 2) →
      let y := Body.ea x 2
      let (pos, len) := fieldAt 32 (readSpec s e y x.b)
      let m : Word := BitVec.ofNat 32 ((2 ^ len - 1) * 2 ^ pos)
      let res := (readSpec s e y x.d &&& ~~~m) ||| ((readSpec s e y x.a <<< pos) &&& m)
      Machine.exec (.bfi x) s = .next (valueFired s e slot 1 y x.d res (res != 0)))
    ∧ (∀ (x : EA) (f : BitVec 3), ElemFires s e slot (.sel x f) → Room s e (.ea x f) →
      let res := if (s.elem e).p.getLsbD f.toNat then readSpec s e (.ea x f) x.a else readSpec s e (.ea x f) x.b
      Machine.exec (.sel x f) s = .next (valueFired s e slot 1 (.ea x f) x.d res (res != 0)))
    ∧ (∀ x : EK, ElemFires s e slot (.movk x) → Room s e (.ek x) →
      Machine.exec (.movk x) s = .next (valueFired s e slot 1 (.ek x) x.d (x.imm.signExtend 32) false))
    ∧ (∀ x : EK, ElemFires s e slot (.movks x) → Room s e (.ek x) →
      Machine.exec (.movks x) s = .next (valueFired s e slot 1 (.ek x) x.d
        (BitVec.ofNat 32 ((readSpec s e (.ek x) x.d).toNat * 2 ^ 22 + x.imm.toNat)) false))
    ∧ (∀ (x : EA) (f : BitVec 3), ElemFires s e slot (.mov x f) → Room s e (.ea x f) →
      let a := readSpec s e (.ea x f) x.a
      (x.d.toNat < 20 ∨ 23 < x.d.toNat → Machine.exec (.mov x f) s = .next (valueFired s e slot 1 (.ea x f) x.d a (a != 0)))
      ∧ (20 ≤ x.d.toNat → x.d.toNat ≤ 23 → f ≠ 4 →
          Machine.exec (.mov x f) s = .next (valueFired s e slot 1 (.ea x f) x.d a (a != 0) 0 f id (if f = 6 then passedOn x else none)))
      ∧ (∀ k, x.d.toNat = 20 + k → k < 4 → f = 4 → Machine.exec (.mov x f) s
          = .next (((takeInputs s e x.dq none).askCut (e / 16)).modElem e fun el =>
              (({ el with movMark := el.movMark.insert k (a.setWidth 64) } : Elem).result s.round 1 []
                (puWrite x.pu (a != 0))).noAbort slot)))
    ∧ (∀ pk rk, s.regionOf pk = some rk → s.askCut pk = s.setRegion rk { s.region rk with cutAsked := true })
    ∧ (∀ (x : EA) (k : Nat) (t : Token), k < 4 → x.a.toNat = 16 + k → (s.elem e).io.head? s.round k = some t →
      ElemFires s e slot (.fwd x) → Room s e (.ea x 0) →
      Machine.exec (.fwd x) s = .next (valueFired s e slot 1 (.ea x 0) x.d (readSpec s e (.ea x 0) x.a) false 0 t.tag id
        (if t.tag = 6 then passedOn x else none)))
    ∧ (∀ x : EA, ElemFires s e slot (.errt x) → Room s e (.ea x 0) →
      Machine.exec (.errt x) s
        = .next (valueFired s e slot 1 (.ea x 0) x.d (readSpec s e (.ea x 0) x.a) false 0 6 id (passedOn x)))

/-- R110-R114, R134: predicates, NOP, the local store, ETRAP, EHALT and the flags of an element. -/
def Obligations.ElemControl : Prop :=
  ∀ (s : State) (e slot : Nat) (x : EA),
    let el := s.elem e
    let a (f : BitVec 3) : BitVec 8 := (readSpec s e (.ea x f) x.a).setWidth 8
    let wrote (f : BitVec 3) (cond : Bool) (post : Elem → Elem) : Outcome := .next (valueFired s e slot 1 (.ea x f) 24 0 cond 0 0 post)
    (ElemFires s e slot (.pget x) → Room s e (.ea x 0) →
      Machine.exec (.pget x) s = .next (valueFired s e slot 1 (.ea x 0) x.d (el.p.setWidth 32) (el.p != 0)))
    ∧ (ElemFires s e slot (.pput x) → Machine.exec (.pput x) s = wrote 1 (a 1 != 0) fun k => { k with p := a 1 })
    ∧ (ElemFires s e slot (.psetm x) → Machine.exec (.psetm x) s = wrote 2 (el.p ||| a 2 != 0) fun k => { k with p := el.p ||| a 2 })
    ∧ (ElemFires s e slot (.pclrm x) →
        Machine.exec (.pclrm x) s = wrote 3 (el.p &&& ~~~a 3 != 0) fun k => { k with p := el.p &&& ~~~a 3 })
    ∧ (ElemFires s e slot (.nop x) → Machine.exec (.nop x) s = wrote 0 false id)
    ∧ (ElemFires s e slot (.ehalt x) → Machine.exec (.ehalt x) s = wrote 0 false fun k => { k with halt := true })
    ∧ (ElemFires s e slot (.fwfl x) →
        let v := readSpec s e (.ea x 1) x.a &&& 0x1F
        Machine.exec (.fwfl x) s = wrote 1 (v != 0) fun k => { k with fflg := v })
    ∧ (ElemFires s e slot (.fclr x) → Machine.exec (.fclr x) s = wrote 2 false fun k => { k with fflg := 0 })
    ∧ (ElemFires s e slot (.frfl x) → Room s e (.ea x 0) → Machine.exec (.frfl x) s
        = .next (valueFired s e slot 1 (.ea x 0) x.d (el.fflg &&& 0x1F) (el.fflg &&& 0x1F != 0)))
    ∧ (∀ f, ElemFires s e slot (.etrap x f) → Machine.exec (.etrap x f) s
        = .next (valueFired { s with nextId := s.nextId + 1 } e slot 1 (.ea x f) 24 0 false 0 0 fun k => { k with
            landing := k.landing ++ [{ due := s.round + 1, ev := some {
              type := 3, code := f.toNat, id := s.nextId % 2 ^ 16, place := elemPlace e, cyc := BitVec.ofNat 64 s.round
              d2 := (readSpec s e (.ea x f) x.b).setWidth 64, d3 := BitVec.ofNat 64 slot } }] }))
    ∧ (∀ y : EI, let k := (readSpec s e (.ei y) y.a + y.imm.signExtend 32).toNat % 64
        (ElemFires s e slot (.lld y) → Room s e (.ei y) → Machine.exec (.lld y) s
          = .next (valueFired s e slot 1 (.ei y) y.d (el.ls.get 0 k) (el.ls.get 0 k != 0)))
        ∧ (ElemFires s e slot (.lst y) → Machine.exec (.lst y) s
          = .next (valueFired s e slot 1 (.ei y) 24 0 false 0 0 fun el => { el with ls := el.ls.put 0 k (readSpec s e (.ei y) y.d) })))

/-- R55, R86, R118-R133: the floating, packed and MK8 forms: the result and the condition of the form's entry at its latency, the flags
ORed into FFLG in the round of firing. -/
def Obligations.ElemFloat : Prop :=
  ∀ (s : State) (e slot : Nat) (row : FpRow) (x : EA) (f : BitVec 3), row ∈ fpRows → (row.op x).body? = some (.ea x f) →
    let y := Body.ea x f
    let r := row.res (s.elem e).env (readSpec s e y x.a) (readSpec s e y x.b) (readSpec s e y x.d)
    ElemFires s e slot (row.op x) → Room s e y → NoTrap s e r.fl →
    Machine.exec (row.op x) s = .next (valueFired s e slot row.lat y x.d r.val r.cond r.fl)

/-- R46-R48: RoundSig gives the multiple of the quantum that the mode names: of the two neighbours of an inexact value the nearest one,
or the one toward zero, +infinity or -infinity. -/
def Obligations.FloatRounding : Prop :=
  ∀ (n d : Nat) (k : Int) (neg : Bool), 0 < d →
    let num := if 0 ≤ k then n else n * 2 ^ (-k).toNat
    let den := if 0 ≤ k then d * 2 ^ k.toNat else d
    let q (rm : Num.RM) := (Num.roundSig ⟨n, d⟩ k neg rm).1
    (∀ rm, (Num.roundSig ⟨n, d⟩ k neg rm).2 = decide (num % den = 0))
    ∧ (∀ rm, q rm * den ≤ num + den ∧ num ≤ q rm * den + den ∧ (num % den = 0 → q rm * den = num))
    ∧ (2 * (q .rne * den) ≤ 2 * num + den ∧ 2 * num ≤ 2 * (q .rne * den) + den
        ∧ (2 * (num % den) = den → q .rne % 2 = 0))
    ∧ (2 * (q .rna * den) ≤ 2 * num + den ∧ 2 * num ≤ 2 * (q .rna * den) + den ∧ (2 * (num % den) = den → num ≤ q .rna * den))
    ∧ q .rtz * den ≤ num
    ∧ (neg = false → num ≤ q .rup * den ∧ q .rdn * den ≤ num)
    ∧ (neg = true → q .rup * den ≤ num ∧ num ≤ q .rdn * den)

/-- R45, R48: a finite value of a format rounds to itself in every mode and raises no flag, and a NaN gives the canonical NaN (R46). -/
def Obligations.FloatExact : Prop :=
  ∀ (f : Num.Fmt) (rm : Num.RM) (iz : Bool) (b : Nat), f = Num.fp32 ∨ f = Num.fp16 ∨ f = Num.bf16 → b < 2 * f.signBit →
    (b / 2 ^ f.w % 2 ^ f.ebits ≠ f.eTop → Num.ofVal f ⟨rm, false, iz⟩ (Num.ofBits f false b) = ⟨b, 0⟩)
    ∧ (b % f.signBit = f.inf → Num.ofVal f ⟨rm, false, iz⟩ (Num.ofBits f false b) = ⟨b, 0⟩)
    ∧ (f.inf < b % f.signBit → (Num.ofVal f ⟨rm, false, iz⟩ (Num.ofBits f false b)).bits = f.nan)

/-- R46, R121-R123: NaN operands: arithmetic gives the canonical NaN, with IV when an operand is signalling; a compare is false, or true
for "unordered" and "not equal"; minimum and maximum give the canonical NaN, and minimumNumber and maximumNumber the operand that is a
number; the fused forms give the canonical NaN, with IV when an operand is signalling or the product is 0 × ∞. -/
def Obligations.FloatNan : Prop :=
  ∀ (v : Num.Env) (a b d : Word),
    let nan (x : Word) : Prop := 0x7F800000 < x.toNat % 2 ^ 31
    let sig (x : Word) : Prop := 0x7F800000 < x.toNat % 2 ^ 31 ∧ x.toNat % 2 ^ 31 < 0x7FC00000
    let inf (x : Word) : Prop := x.toNat % 2 ^ 31 = 0x7F800000
    let zero (x : Word) : Prop := x.toNat % 2 ^ 31 < if v.iz then 0x800000 else 1
    (∀ g ∈ [FpAlu.fadd, FpAlu.fsub, FpAlu.fmul, FpAlu.fdiv], nan a ∨ nan b →
      (g v a b).val = 0x7FC00000 ∧ ((g v a b).fl = 1 ↔ sig a ∨ sig b) ∧ ((g v a b).fl = 0 ↔ ¬(sig a ∨ sig b)))
    ∧ (nan a ∨ nan b → (FpAlu.fcmp .eq false v a b).val = 0 ∧ (FpAlu.fcmp .lt false v a b).val = 0
        ∧ (FpAlu.fcmp .le false v a b).val = 0 ∧ (FpAlu.fcmp .un false v a b).val = 1 ∧ (FpAlu.fcmp .ne false v a b).val = 1
        ∧ ((FpAlu.fcmp .eq false v a b).fl = 1 ↔ sig a ∨ sig b) ∧ (FpAlu.fcmp .eq true v a b).fl = 1)
    ∧ (∀ g ∈ [Num.MinMaxForm.min, .max], nan a ∨ nan b → (FpAlu.fminmax g v a b).val = 0x7FC00000)
    ∧ (∀ g ∈ [Num.MinMaxForm.minn, .maxn],
        (nan a → nan b → (FpAlu.fminmax g v a b).val = 0x7FC00000)
        ∧ (nan a → ¬nan b → v.iz = false → (FpAlu.fminmax g v a b).val = b)
        ∧ (nan b → ¬nan a → v.iz = false → (FpAlu.fminmax g v a b).val = a))
    ∧ (∀ g, nan a ∨ nan b → (FpAlu.fminmax g v a b).fl = if sig a ∨ sig b then 1 else 0)
    ∧ (nan a ∨ nan b ∨ nan d → ∀ p q, (FpAlu.fma p q v a b d).val = 0x7FC00000
        ∧ (FpAlu.fma p q v a b d).fl = if sig a ∨ sig b ∨ sig d ∨ zero a ∧ inf b ∨ inf a ∧ zero b then 1 else 0)

/-- R88-R90: the aborts: LASTC takes the cause, ABORTS counts, and nothing else of the element changes: no write, no take, no predicate,
no flag; FP-TRAP posts its event. A floating rule whose flag has its trap enabled aborts with FP-TRAP, and a rule whose output has no room
with OUT-FULL. -/
def Obligations.ElemAborts : Prop :=
  ∀ (s : State) (e slot : Nat),
    (∀ a : Abort, let t := s.abort e slot a
      t.elem e = (s.elem e).setSlotSt slot { (s.elem e).slotSt slot with
          lastc := a.code, aborts := (((s.elem e).slotSt slot).aborts + 1) % 65536 }
        ∧ (∀ e', e' ≠ e → t.elem e' = s.elem e') ∧ t.mem = s.mem ∧ t.cores = s.cores ∧ t.chans = s.chans)
    ∧ (∀ fl, ((s.elem e).slotSt slot).aborts < 65535 → (s.evq (e / 65536)).recs.length < 256 → (s.evq (e / 65536)).lost = 0 →
        ((s.abort e slot (.fpTrap fl)).evq (e / 65536)).recs = (s.evq (e / 65536)).recs ++ [{
          type := 1, code := fl.toNat, id := s.nextId % 2 ^ 16, place := elemPlace e, cyc := BitVec.ofNat 64 s.round
          d2 := BitVec.ofNat 64 slot, d3 := 0 }])
    ∧ (∀ (row : FpRow) (x : EA) (f : BitVec 3), row ∈ fpRows → (row.op x).body? = some (.ea x f) → ElemFires s e slot (row.op x) →
        let y := Body.ea x f
        let r := row.res (s.elem e).env (readSpec s e y x.a) (readSpec s e y x.b) (readSpec s e y x.d)
        (¬NoTrap s e r.fl → Machine.exec (row.op x) s = .next (s.abort e slot (.fpTrap r.fl)))
        ∧ (NoTrap s e r.fl → ¬Room s e y → Machine.exec (row.op x) s = .next (s.abort e slot .outFull)))
    ∧ (∀ (row : AluRow) (x : EA), row ∈ aluRows → ElemFires s e slot (row.op x) → ¬Room s e (.ea x row.f) →
        Machine.exec (row.op x) s = .next (s.abort e slot .outFull))

/-- R202, R205, R208, R223, R246, R267, R342: MXT, STC and MXQ send a token of 64 bits on output D in the round after they fire; AMO
and AMOF stay in the request port until REL, and one that the port refuses aborts with ENGINE-REFUSED; SCHD sends its request to the
schedule node, which refuses a fifth. -/
def Obligations.ElemCommands : Prop :=
  (∀ (s : State) (e slot k : Nat) (x : EA), k < 4 → x.d.toNat = 20 + k →
      let sent (y : Body) (payload : Dword) (f : BitVec 3) : State := (takeInputs s e y.dq none).modElem e fun el =>
        ((el.reserve k { tok := ⟨0, payload, f⟩, ready := s.round + 1 }).result s.round 1 [] (puWrite y.pu false)).noAbort slot
      (∀ row ∈ tokenRows, ElemFires s e slot (row.1 x) → Room s e (.ea x row.2) →
        Machine.exec (row.1 x) s
          = .next (sent (.ea x row.2) (readSpec s e (.ea x row.2) x.b ++ readSpec s e (.ea x row.2) x.a) row.2))
      ∧ (ElemFires s e slot (.mxq x) → Room s e (.ea x 0) →
        let a := readSpec s e (.ea x 0) x.a
        let b := readSpec s e (.ea x 0) x.b
        Machine.exec (.mxq x) s = .next (sent (.ea x 0)
          (BitVec.ofNat 64 ((if b.getLsbD 15 then 0 else 2 ^ 63) + b.toNat % 4096 * 2 ^ 32 + a.toNat)) 0)))
    ∧ (∀ (s : State) (e slot : Nat) (x : EA),
      (∀ (row : (EA → Instr) × KOp) (f : BitVec 3), row ∈ postedRows → (row.1 x).body? = some (.ea x f) → ElemFires s e slot (row.1 x) →
        let a := readSpec s e (.ea x f) x.a
        let b := readSpec s e (.ea x f) x.b
        (ksRefused s e a row.2 true = false → Machine.exec (row.1 x) s
          = .next (valueFired s e slot 1 (.ea x f) 24 0 false 0 0 fun el => { el with
              posted := el.posted ++ [⟨a.toNat / 1024 % 4, ⟨row.2, a.toNat % 1024, b⟩, el.io.snapCut + 1⟩] }))
        ∧ (ksRefused s e a row.2 true = true → Machine.exec (row.1 x) s = .next (s.abort e slot .engineRefused)))
      ∧ (∀ (op : EA → Instr) (f : BitVec 3) (reset : Bool), (op, f, reset) ∈ ([(.schdNext, 0, false), (.schdReset, 1, true)] : List _) →
        ElemFires s e slot (op x) →
        ((s.sched (e / 16)).reqs.length < 4 →
          let t := valueFired s e slot 1 (.ea x f) 24 0 false
          Machine.exec (op x) s = .next (t.setSched (e / 16) { t.sched (e / 16) with
            reqs := (t.sched (e / 16)).reqs ++ [(reset, s.round + 1)] }))
        ∧ (4 ≤ (s.sched (e / 16)).reqs.length → Machine.exec (op x) s = .next (s.abort e slot .engineRefused))))

/-- R202, R205, R209, R210: AMOR and AMOC in a clean interval reserve their reply, hand the command to the request port and ask for an
early cut; they abort with OUT-FULL where D has no room, with NOT-CLEAN while a posted effect of the region is held, and with ENGINE-REFUSED
where the port refuses the command. -/
def Obligations.ElemIrrevocable : Prop :=
  ∀ (s : State) (e slot : Nat) (x : EA) (f : BitVec 3),
    let y := Body.ea x f
    let a := readSpec s e y x.a
    let fires (i : Instr) (kop : KOp) : Prop := ElemFires s e slot i →
      (Room s e y → cleanInterval s e = true → ksRefused s e a kop false = false →
        Machine.exec i s = .next (((awaited s e slot y x.d).modElem e fun el => { el with
          irrev := el.irrev ++ [{ target := a.toNat / 1024 % 4, cmd := ⟨kop, a.toNat % 1024, readSpec s e y x.b⟩, ticket := s.nextTicket
                                  cut := el.io.snapCut + 1 }] }).askCut (e / 16)))
      ∧ (¬Room s e y → Machine.exec i s = .next (s.abort e slot .outFull))
      ∧ (Room s e y → cleanInterval s e = false → Machine.exec i s = .next (s.abort e slot .notClean))
      ∧ (Room s e y → cleanInterval s e = true → ksRefused s e a kop false = true →
        Machine.exec i s = .next (s.abort e slot .engineRefused))
    (∀ row ∈ amorRows, (row.1 x).body? = some y → fires (row.1 x) row.2)
      ∧ fires (.amoc x f) (.cas ((s.elem e).reg f.toNat))

/-- R156-R161, R165: the instructions of a combining register: the contributions, the reads of the home element, and its reset. -/
def Obligations.ElemCombining : Prop :=
  ∀ (s : State) (e slot h : Nat) (x : EC), homeKey s e x.m = some h →
    let y := Body.ec x
    let a := readSpec s e y x.ad
    (∀ (k : Nat) (op : EC → Instr) (value close : Bool),
      (op, value, close) ∈ ([(.contrib, true, false), (.contribc, true, true), (.cclose, false, true)] : List _) →
      ElemFires s e slot (op x) → contribIdx (s.home h) e = some k →
      ((close && closeRefused s h k) = false → Machine.exec (op x) s = .next ((valueFired s e slot 1 y 24 0 (a != 0)).sendContrib h k
        (if value then some (a, x.opc.toNat, x.ty.toNat) else none) close))
      ∧ ((close && closeRefused s h k) = true → Machine.exec (op x) s = .next (s.abort e slot .engineRefused)))
    ∧ (∀ (op : EC → Instr) (peek : Bool), (op, peek) ∈ ([(.settle, false), (.peek, true)] : List _) → ElemFires s e slot (op x) →
      Room s e y → (s.home h).op = none →
      let t := awaited s e slot y x.ad
      Machine.exec (op x) s
        = .next (t.setHome h { t.home h with op := some (.read peek s.nextTicket s.round none []) }))
    ∧ (ElemFires s e slot (.crst x) → Room s e y → (s.home h).op = none →
      let t := awaited s e slot y 24
      Machine.exec (.crst x) s = .next (t.setHome h { t.home h with
        op := some (.reset s.nextTicket s.round 0 0), crsts := (t.home h).crsts + 1 }))
    ∧ (ElemFires s e slot (.cpoll x) → Room s e y → (s.home h).op = none →
      let v : Word := BitVec.ofNat 32 (((List.range 16).filter (s.home h).closed.getLsbD).length)
      Machine.exec (.cpoll x) s = .next (valueFired s e slot 2 y x.ad v (v != 0)))
    ∧ (ElemFires s e slot (.cstat x) → Room s e y → (s.home h).op = none →
      let v := (s.home h).status
      Machine.exec (.cstat x) s = .next ((takeInputs s e x.dq none).modElem e fun el =>
        (el.result s.round 2 [(x.ad.toNat, v.setWidth 32), (x.ad.toNat + 1, v.extractLsb' 32 32)]
          (puWrite x.pu (v != 0))).noAbort slot))
    ∧ (∀ op ∈ ([.settle, .peek, .cstat, .cpoll, .crst] : List (EC → Instr)), ElemFires s e slot (op x) → Room s e y →
      (s.home h).op.isSome = true → Machine.exec (op x) s = .next (s.abort e slot .engineRefused))

/-- R78, R79: what a round chooses at an element: at most four rules of those offered, no rule that conflicts with one chosen before it,
and no more than two A lanes, one M lane and one C lane; the next rule offered is chosen when it fits with those chosen before it, and only
then. A mask of lanes is counted by R40. -/
def Obligations.ElemSchedule : Prop :=
  ∀ (el : Elem) (order : List (Nat × Nat)),
    let c := choose el order
    let lanes (f : Nat × Nat × Nat → Nat) : Nat := (c.map fun p => match el.rule p.1 with | some (o, x) => f (x.lanes o) | none => 0).sum
    c.length ≤ 4 ∧ c.Sublist order
      ∧ c.Pairwise (fun a b => (el.conflict.get 0 b.1).getLsbD a.1 = false)
      ∧ lanes (·.1) ≤ 2 ∧ lanes (·.2.1) ≤ 1 ∧ lanes (·.2.2) ≤ 1
      ∧ choose el [] = []
      ∧ (∀ (k part : Nat) (o : OpInfo) (x : Body), el.rule k = some (o, x) →
        let fits : Prop := c.length < 4 ∧ (∀ t ∈ c, (el.conflict.get 0 k).getLsbD t.1 = false)
          ∧ lanes (·.1) + (x.lanes o).1 ≤ 2 ∧ lanes (·.2.1) + (x.lanes o).2.1 ≤ 1 ∧ lanes (·.2.2) + (x.lanes o).2.2 ≤ 1
        (fits → choose el (order ++ [(k, part)]) = c ++ [(k, part)])
        ∧ (¬fits → choose el (order ++ [(k, part)]) = c))

/-! ### Events -/

/-- R76-R80, R87, R18, R23, R137, R138, R141: the events of elements and channels: the round of a scheduler, a result that lands, a token
that enters its channel and one that arrives, a credit that returns, the drain of an element, a node and a tile, and a missed bound.
What makes the drain of an element due and when it is at rest is the model's choice (log 14), so is what has missed a bound (log 15),
when the drain has reached a keystone (log 16), and that an ETRAP's record takes the round in which it lands (log 75). -/
def Obligations.FabricEvents : Prop :=
  ∀ s : State,
    (∀ e : Nat,
      (planeActive s (e / 16) = false → Machine.exec (.scheduleRound e) s = .next s)
      ∧ (planeActive s (e / 16) = true →
        let el := s.elem e
        let elig := if el.io.drained then [] else (List.range 16).filter fun k => eligible el s.round k
        let chosen := choose el (walkOrder el elig)
        ∃ t, fireRules e (chosen.map fun c => (c.1, el.slots.get 0 c.1)) s = .next t ∧ Machine.exec (.scheduleRound e) s
          = .next ((if chosen.any fun c => firedSlot e s t c.1 then t.touch (e / 16) else t).modElem e fun el =>
              updateCounters (updatePointers el chosen) elig chosen))
      ∧ (∀ l k v, (s.elem e).landing = [l] → l.due ≤ s.round → l.regs = [(k, v)] → l.pred = none → l.ev = none →
        Machine.exec (.resultLands e) s = .next (s.setElem e { s.elem e with
          landing := [], d := (s.elem e).d.put 0 k v, busyD := (s.elem e).busyD &&& ~~~(1#16 <<< k) }))
      ∧ (∀ r, (s.elem e).landing = [{ due := s.round, ev := some r }] → Machine.exec (.resultLands e) s
          = .next ((s.setElem e { s.elem e with landing := [] }).post (e / 65536) { r with cyc := BitVec.ofNat 64 s.round }))
      ∧ (∀ rk, s.regionOf (e / 16) = some rk → (s.region rk).runs = true → (s.elem e).io.drained = false →
        drainDue s (s.region rk) e = true →
        ((s.elem e).drainAt = none →
          Machine.exec (.elementDrain e) s = .next (s.setElem e { s.elem e with drainAt := some (s.region rk).act }))
        ∧ (∀ n, (s.elem e).drainAt = some n → n < (s.region rk).act → drainsLast s e = true ∨ atRest s e = true →
          Machine.exec (.elementDrain e) s = .next (elementDrains s e))))
    ∧ (∀ (ch : Nat) (u : UnitRef) (k : Nat) (x : OutTok) (rest : List OutTok), chanSender ch = some (u, k) →
        (s.io u).outq k = x :: rest → x.wait = none → x.ready ≤ s.round → (s.chan ch).sent - (s.chan ch).returned < chanSlots s ch →
        chanDests s ch ≠ [] →
        Machine.exec (.outputTokenAccept ch) s = .next ((s.setIo u { s.io u with
          outs := (s.io u).outs.put [] k rest
          sinceMark := if x.tok.tag = 4 then (s.io u).sinceMark else (s.io u).sinceMark + 1 }).sendOn ch x.tok (chanDests s ch).length))
    ∧ (∀ (ch dst : Nat) (f : Flight) (u : UnitRef) (k : Nat), (s.chan ch).flight.find? (fun g => g.dst == dst) = some f →
        (chanDests s ch)[dst]? = some (u, k) → f.sent < s.round → pathUp s ch u f.sent = true → f.tok.tag ≠ 4 → f.tok.tag ≠ 5 →
        portHolds (s.io u) k < 4 → (s.io u).drained = false → (s.io u).back.testBit k = false → (s.io u).markerless.testBit k = false →
        passesMarkers u k = false →
        let was := s.setChan ch { s.chan ch with flight := (s.chan ch).flight.eraseP fun g => g.dst == dst }
        Machine.exec (.tokenReceipt ch dst) s = .next ((was.setIo u { s.io u with
          ins := (s.io u).ins.put [] k ((s.io u).inq k ++ [⟨f.tok, ch, dst, s.round⟩]) }).moved u.pk))
    ∧ (∀ ch : Nat,
      (let back := s.setChan ch { s.chan ch with returned := (s.chan ch).returned + 1 }
       (s.chan ch).returned < freedByAll s ch →
         ((s.chan ch).owed = 0 → Machine.exec (.creditReturn ch) s = .next back)
         ∧ ((s.chan ch).owed ≠ 0 → (back.chan ch).sent - (back.chan ch).returned < chanSlots back ch → Machine.exec (.creditReturn ch) s
           = .next ((back.setChan ch { back.chan ch with owed := (s.chan ch).owed - 1 }).sendOn ch ⟨0, 0, 0⟩ 1)))
      ∧ (∀ rk, chanRegion s ch = some rk → (s.region rk).frozen = false → overdue s ch = true ∨ regionLate s (s.region rk) = true →
        Machine.exec (.deliveryTimeout ch) s = .next (rollback s rk (.deliveryTimeout (chanClass s ch) ch))))
    ∧ (∀ pk rk : Nat, s.regionOf pk = some rk → (s.region rk).running = true →
      ((s.plane pk).drn = false → (s.plane pk).drainCut = none → tileDrained s (s.region rk) pk = true → Machine.exec (.tileDrn pk) s
        = .next ((s.setPlane pk { s.plane pk with drainCut := some (finalCut s (s.region rk) pk) }).askCut pk))
      ∧ (∀ n, (s.plane pk).drn = false → (s.plane pk).drainCut = some n → n ≤ (s.region rk).lastRel → releasesDone s (s.region rk) pk n = true →
        ∃ t, Machine.exec (.tileDrn pk) s = .next t ∧ (t.plane pk).drn = true ∧ t.kstone pk = {}
          ∧ (∀ i, UnitRef.island i ∈ (s.region rk).units → Key.enginePk i = pk → (t.island i).slots = [] ∧ (t.island i).dir = [])
          ∧ t = { s with planes := t.planes, kstones := t.kstones, islands := t.islands, launches := t.launches })
      ∧ ((s.region rk).runs = true → (s.rep pk).io.drained = false → (s.rep pk).st = .fill →
        (s.rep pk).io.feed.keys.all ((s.rep pk).io.drainedIn s.round) = true →
        Machine.exec (.engineDrainPass (.repeatNode pk)) s = .next (passDrain (repDrop s pk) (.repeatNode pk)))
      ∧ (keystoneLast s (s.region rk) pk = true → Machine.exec (.engineDrainPass (.keystone pk)) s = .next (breakAll s pk)))

/-- R13-R15, R24, R332, R334-R338, R340, R341, R343, R351: the events of the frame table and of the launch sequencer, and the hops of the
commit wave. A launch that ends leaves its record in its completion queue; while that is full its die holds the record, of 64 at most, and
then the launch itself does (R337, log 84). How the frame entries take turns (log 86), the order of placements and what is checked in them
(logs 9, 26, 29, 49), the queue of a seed port (log 25) and what is taken from the images of a pre-empted launch (log 30) are the model's
choice. -/
def Obligations.LaunchEvents : Prop :=
  ∀ s : State,
    (∀ die : Nat, (∀ p ∈ s.launches, outranked s p.2 = false) →
      (∀ k, roundEntry (s.die die) s.round = some k →
        Machine.exec (.frameTableStep die) s = .next (s.setDie die { s.die die with cur := k }))
      ∧ (roundEntry (s.die die) s.round = none → Machine.exec (.frameTableStep die) s = .next s))
    ∧ (∀ (d : DieState) (k n : Nat), validEntries d = [k] → roundEntry d n = some k)
    ∧ (∀ die q : Nat,
      let was := flushHeld s die
      let x := launchOf was die q
      let l := freeLaunchKey was
      let taken := was.setLaunch l x
      nextHead was die = some q →
      (entryBad was q = true → Machine.exec (.workQueueTake die) s = .next (endLaunch taken l 12 0 0))
      ∧ (entryBad was q = false → (was.imageDir.get {} x.handle).v = false →
          Machine.exec (.workQueueTake die) s = .next (endLaunch taken l 1 0 0))
      ∧ (entryBad was q = false → (was.imageDir.get {} x.handle).v = true → x.relaxed = true → (was.queue q).priv = false →
          x.fromService = false → Machine.exec (.workQueueTake die) s = .next (endLaunch taken l 2 0 0))
      ∧ (entryBad was q = false → (was.imageDir.get {} x.handle).v = true →
          (x.relaxed = false ∨ (was.queue q).priv = true ∨ x.fromService = true) →
          Machine.exec (.workQueueTake die) s = .next taken))
    ∧ (∀ (l limit : Nat) (h : ImageHead) (places : List Nat) (c : CourseRec) (cs : List CourseRec), (s.launch l).phase = .waiting →
      cqBlocked s (s.launch l) = false → imageCourses s (s.imageDir.get {} (s.launch l).handle) = (h, limit, places) →
      (places.map fun p => (courseAt s limit p).1) = c :: cs → places.length = h.ncourse →
      ((c :: cs).any fun c => c.seeds.any (badSeed c.ports.length)) = false →
      let x := s.launch l
      let ms := allPlacements s x.die h (c :: cs) (annexes s x (c :: cs).length)
      (launchSeeds s x = .fault → Machine.exec (.launchAdmit l) s = .next (endLaunch s l 5 0 0))
      ∧ (launchSeeds s x = .ecc → Machine.exec (.launchAdmit l) s = .next (endLaunch s l 11 0 0))
      ∧ (∀ p, launchSeeds s x = .ask p → (s.dltOut.any fun q => q.src == .seed l && q.place == p) = false →
        Machine.exec (.launchAdmit l) s = .next (s.dltSend (Place.device p) p (.rd 64) (.seed l)))
      ∧ (∀ extra, launchSeeds s x = .recs extra → extra.any (badSeed c.ports.length) = true →
        Machine.exec (.launchAdmit l) s = .next (endLaunch s l 8 0 0))
      ∧ (∀ extra, launchSeeds s x = .recs extra → extra.any (badSeed c.ports.length) = false →
        (ms = [] → Machine.exec (.launchAdmit l) s = .next (endLaunch s l 3 43 0))
        ∧ (ms ≠ [] → findRegion s ms c = none → Machine.exec (.launchAdmit l) s = .next (preempt s l ms c))
        ∧ (∀ m plane, ms ≠ [] → findRegion s ms c = some (m, plane) →
          (∀ p code, firstFault (graphFaults s l plane m h (c :: cs)) = some (p, code) →
            Machine.exec (.launchAdmit l) s = .next (endLaunch (releaseVictim s l) l 3 code (BitVec.ofNat 32 p)))
          ∧ (firstFault (graphFaults s l plane m h (c :: cs)) = none →
            let box : Region := { placedRegion m plane c with launch := some l }
            let ld := loadCourse s (freeRegionKey s) box m c x.ctx (s.annex.get {} (x.handle * 65536))
            (ld.wait = none →
              Machine.exec (.launchAdmit l) s = .next (admitLaunch s l plane m places c extra ld)
                ∧ ((admitLaunch s l plane m places c extra ld).launch l).phase = .running)
            ∧ (∀ p, ld.wait = some (.ecc p) → Machine.exec (.launchAdmit l) s = .next (endLaunch (releaseVictim s l) l 11 0 0))
            ∧ (∀ e t s', ld.wait = some e → pinEvent s box x.ctx e = some (t, s') → Machine.exec (.launchAdmit l) s
                = .next (s'.setLaunch l { s'.launch l with phase := .pinWait (s.nextId % 2 ^ 16), waitType := t }))))))
    ∧ (∀ (l key place : Nat) (v : Saved) (vs : List (Nat × Saved × Nat)), (s.launch l).phase = .preempted →
      savedOf s (s.launch l) = (key, v, place) :: vs →
      let planes := (List.range 4).filter fun p => planeFree s { v.region with plane := p } && diesAgree s { v.region with plane := p }
      (planes.length ≤ vs.length → Machine.exec (.preemptedRestore l) s = .next s)
      ∧ (vs.length < planes.length → Machine.exec (.preemptedRestore l) s
          = .next ((((key, v, place) :: vs).zip planes).foldl (restoreCourse l)
              (s.setLaunch l { s.launch l with phase := .running, saved := [] })))
      ∧ (∀ p, (s.launch l).region = none →
        let box : Region := { v.region with plane := p }
        let rk := freeRegionKey s
        let cleared := (spentRegions s box).foldl freeRegion s
        let kept := { cleared with saved := cleared.saved.erase key }
        let w := savedNow v (dwordsAt kept place ((v.header.getD 4 0).toNat / 8))
        let put := putBack (clearPlanes kept box.pks) rk p key w
        let back := if w.region.frozen then put else thawRegion put rk
        (back.launch l).region = none →
          restoreCourse l s ((key, v, place), p)
            = enterFrame (back.setLaunch l { back.launch l with region := some rk }) (back.region rk)))
    ∧ (∀ (v w : Saved) (image : List Dword), imageCourse image = some w → w.header = v.header →
      let now := savedNow v image
      now.planes = w.planes ∧ now.ags = w.ags ∧ now.islands = w.islands ∧ now.streamers = w.streamers ∧ now.chans = w.chans
        ∧ now.snaps = w.snaps ∧ now.region.launch = v.region.launch ∧ now.region.done = w.region.done)
    ∧ (∀ rk h : Nat,
      ((s.region rk).waveHop = some h → (s.region rk).frozen = false →
        ∃ t, Machine.exec (.configurationWaveHop rk) s = .next t
          ∧ t.region rk = { s.region rk with waveHop := if (s.region rk).lastHop ≤ h then none else some (h + 1) }
          ∧ ∀ a, UnitRef.ag a ∈ (s.region rk).units → (s.region rk).hops (a / 8) = h → (t.ag a).started = true)
      ∧ ((s.region rk).commitHop = some h →
        let swapped := ((s.region rk).livePks s).foldl
          (fun s' pk => if (s.region rk).hops (pk / 4) = h then swapTile s' pk else s') s
        (h < (s.region rk).lastHop → Machine.exec (.commitWaveHop rk) s
          = .next (swapped.setRegion rk { s.region rk with commitHop := some (h + 1) }))
        ∧ ((s.region rk).lastHop ≤ h → Machine.exec (.commitWaveHop rk) s = .next (commitEnd swapped rk)
          ∧ ((commitEnd swapped rk).region rk).running = true))
      ∧ (∀ p t rest, (s.region rk).runs = true → (s.region rk).waveHop = none → (s.region rk).drainReq = false →
        (s.region rk).seeds = (p, t) :: rest →
        let sent := seedInject s rk
        Machine.exec (.seedInjection rk) s = .next ((s.region rk).seedPorts.keys.foldl (seedLeave rk false) sent)
          ∧ (sent.region rk).seeds = rest
          ∧ (sent.region rk).seedQ.get [] p = (s.region rk).seedQ.get [] p ++ [(rest.length + 1, t)])
      ∧ (∀ (p : Nat) (ended : Bool),
        let r := s.region rk
        let ch := seedChan rk p
        let k := r.seedSince.get 0 p + 1
        (∀ n t rest, r.seedQ.get [] p = (n, t) :: rest →
          ((s.chan ch).sent - (s.chan ch).returned < chanSlots s ch → seedLeave rk ended s p = (s.setRegion rk { r with
            seedQ := r.seedQ.put [] p rest, seedSince := r.seedSince.put 0 p k
            cutAsked := r.cutAsked || decide (r.mkTokens ≤ k) }).sendOn ch t (chanDests s ch).length)
          ∧ (chanSlots s ch ≤ (s.chan ch).sent - (s.chan ch).returned → seedLeave rk ended s p = s))
        ∧ (r.seedQ.get [] p = [] → seedLeave rk ended s p = if ended ∧ p ∈ r.seedDrains then
            (s.setRegion rk { r with seedDrains := r.seedDrains.erase p }).sendOn ch ⟨5, 0, 0⟩ (chanDests s ch).length else s)))
    ∧ (∀ (l rk p q : Nat), (s.launch l).phase = .running → (s.launch l).region = some rk → (s.launch l).next = [] →
      (s.region rk).running = true → (s.region rk).frozen = false → (s.region rk).waitEv = none →
      (s.launch l).image[(s.region rk).course + 1]? = some p →
      let r := s.region rk
      let d := s.imageDir.get {} (s.launch l).handle
      let c := (courseAt s (d.place + 128 + (imageHead s d.place).body) p).1
      let m : Maps := ⟨r.rmap, r.cmap⟩
      ((List.range 4).find? fun q => planeFree s (placedRegion m q c) || (courseDone s r && q == r.plane)) = some q →
      let ld := loadCourse s (freeRegionKey s) { placedRegion m q c with launch := some l } m c (s.launch l).ctx
        (s.annex.get {} ((s.launch l).handle * 65536 + r.course + 1))
      let nr : Region := { placedRegion m q c with launch := some l }
      (∀ p, ld.wait = some (.ecc p) → Machine.exec (.nextCourseWrite l) s = .next (endLaunch s l 11 0 0))
      ∧ (ld.wait = none → ld.reject = none → shadowsGood s nr m c = false →
        Machine.exec (.nextCourseWrite l) s = .next (commitCheck (writeBlocks s nr m c) nr).1)
      ∧ (ld.wait = none → ld.reject = none → shadowsGood s nr m c = true → (courseDone s r = false ∨ q ≠ r.plane) →
        let (t, nk) := writeCourse s l q m c [] ld
        Machine.exec (.nextCourseWrite l) s = .next (t.setLaunch l { t.launch l with next := (t.launch l).next ++ [nk] }))
      ∧ (∀ place code, ld.wait = none → ld.reject = some (place, code) →
        Machine.exec (.nextCourseWrite l) s = .next (endLaunch s l 3 code (BitVec.ofNat 32 place))))
    ∧ (∀ (l rk : Nat), (s.launch l).phase = .running → (s.launch l).region = some rk → (s.launch l).next = [] →
      (s.region rk).course + 1 = (s.launch l).image.length → courseDone s (s.region rk) = true →
      Machine.exec (.graphEnd l) s = .next (endLaunch s l 0 0 0))
    ∧ (∀ (l b : Nat), classRounds (s.launch l).lclass = some b → (s.launch l).phase ≠ .none → (s.launch l).late = false →
      (s.launch l).start.toNat + b < s.round →
      Machine.exec (.latencyClassExpiry l) s = .next (s.setLaunch l { s.launch l with late := true }))
    ∧ (∀ (l status code : Nat) (place : Word), (s.launch l).phase = .running → (s.launch l).region = none → (s.launch l).next = [] →
      (s.queue (s.launch l).cq).len < (s.queue (s.launch l).cq).cap →
      let t := endLaunch s l status code place
      t.launch l = {} ∧ (t.queue (s.launch l).cq).len = (s.queue (s.launch l).cq).len + 1)
    ∧ (∀ (l : Nat) (x : Launch) (record : List Dword), (s.queue x.cq).cap ≤ (s.queue x.cq).len →
      let t := completeWith s l x record
      ((s.die x.die).heldCpl.length < 64 → t.launch l = {} ∧ (t.die x.die).heldCpl = (s.die x.die).heldCpl ++ [(x.cq, record)])
      ∧ (64 ≤ (s.die x.die).heldCpl.length → (t.launch l).phase = .ended record ∧ t.die x.die = s.die x.die))

/-- R18, R69, R142, R343-R345, R352: the events of cuts: the triggers, the start request, a snapshot, the completion of a cut and its REL,
a rollback to the last complete cut, and the deadlock probe. When the automatic probe starts and that it runs once (log 42), what a snapshot
holds of what is on its way (log 39), the order of the steps of a rollback (log 53), and which HELD bits a completed cut clears (log 85) are
the model's choice. -/
def Obligations.CutEvents : Prop :=
  ∀ (s : State) (rk : Nat),
    let r := s.region rk
    let marked (t : State) : State := (t.region rk).seedPorts.keys.foldl (seedMarker rk) t
    (r.running = true → r.lastStart + r.mkRounds ≤ s.round →
      Machine.exec (.mkroundsExpiry rk) s = .next (s.setRegion rk { r with cutAsked := true }))
    ∧ (∀ u, s.regionOf u.pk = some rk → r.running = true → markerSource s u = true → r.mkTokens ≤ (s.io u).sinceMark →
      Machine.exec (.mktokensReached u) s = .next (s.setRegion rk { r with cutAsked := true }))
    ∧ (r.running = true → r.frozen = false → r.cutOpen = false → r.cutAsked = true → r.relDue = none →
      Machine.exec (.startRequestHop rk) s = .next (marked (s.setRegion rk { r with
        cutOpen := true, cutAsked := false, cut := r.done + 1, reqHop := some 0, lastStart := s.round })))
    ∧ (∀ k, r.running = true → r.frozen = false → r.cutOpen = true → r.reqHop = some k →
      Machine.exec (.startRequestHop rk) s = .next (marked (s.setRegion rk { r with reqHop := some (k + 1) })))
    ∧ (∀ p k, r.cutOpen = true → r.reqHop = some k → r.hops (r.seedPorts.get (0, 0) p).1 ≤ k → r.seedMark.get 0 p < r.cut →
      p ∈ r.seedDrains → seedMarker rk s p = (s.setRegion rk { r with
        seedMark := r.seedMark.put 0 p r.cut, seedSince := r.seedSince.put 0 p 0
        seedSnaps := r.seedSnaps.insert (2 * p + r.cut % 2) (seedsOf r p) }).sendOn (seedChan rk p)
          ⟨4, BitVec.ofNat 64 (r.cut % 2 ^ 32), 0⟩ (chanDests s (seedChan rk p)).length)
    ∧ (∀ u, s.regionOf u.pk = some rk → snapReady s r u = true →
      (∀ e, u = .elem e → ¬((s.sched (e / 16)).bound = true ∧ (s.sched (e / 16)).feeds = e)) →
      Machine.exec (.snapshotEv u) s = .next (afterSnap (passMarkers (saveUnit s r u r.cut) u r.cut) u))
    ∧ (∀ (u : UnitRef) (n : Nat), (∀ k, u ≠ .keystone k) → ((passMarkers s u n).io u).snapCut = n)
    ∧ (r.cutOpen = true → r.frozen = false → cutSaved s r = true →
      Machine.exec (.cutComplete rk) s = .next ((r.mregs.map Prod.snd).foldl (settleMreg r r.cut)
        (r.units.foldl (settleEngine r.cut) (s.setRegion rk { r with
          done := r.cut, cutOpen := false, reqHop := none, relDue := some (s.round + 1)
          metaLog := r.metaLog.filter fun g => r.cut < g.2.2 }))))
    ∧ (∀ d, r.relDue = some d → d ≤ s.round → r.afterRel = none → ∃ t, Machine.exec (.relEv rk) s = .next t
      ∧ (t.region rk).relDue = none ∧ (t.region rk).lastRel = r.done ∧ (t.region rk).relRound = t.round)
    ∧ (∀ d c, r.relDue = some d → d ≤ s.round → r.afterRel = some c → ∃ t, Machine.exec (.relEv rk) s = .next (rollback t rk c)
      ∧ (t.region rk).relDue = none ∧ (t.region rk).lastRel = r.done ∧ (t.region rk).afterRel = none)
    ∧ (∀ d cls ch, r.live = true → r.running = true → r.commitHop = none → r.relDue = some d →
      rollback s rk (.linkRetrain cls ch) = s.setRegion rk { r with afterRel := some (.linkRetrain cls ch) })
    ∧ (∀ cause, r.live = true → r.running = true → r.relDue = none → r.commitHop = none → r.launch = none →
      ∃ t, Machine.exec (.rollbackEv rk cause) s = .next t
        ∧ (t.region rk).cut = r.done ∧ (t.region rk).cutOpen = false ∧ (t.region rk).sameCut = r.sameCut + 1
        ∧ (t.region rk).reports = r.reports.filter fun p => p.cut ≤ r.done)
    ∧ (r.runs = true → r.progress = s.round → r.pks.any (planeActive s) = false →
      Machine.exec (.deadlockProbeAuto rk) s = .next (s.setRegion rk { r with still := 0, probed := false }))
    ∧ (r.runs = true → r.progress = s.round → r.pks.any (planeActive s) = true →
      Machine.exec (.deadlockProbeAuto rk) s = .next (s.setRegion rk { r with still := 0, probed := false, act := r.act + 1 }))
    ∧ (r.runs = true → r.progress ≠ s.round → r.pks.any (planeActive s) = true → r.probed = false → 65536 ≤ r.still + 1 →
      let s1 := s.setRegion rk { r with still := r.still + 1, act := r.act + 1 }
      holdsToken s1 r = true → ∀ t found, probeRegion s1 rk = (t, found) →
        Machine.exec (.deadlockProbeAuto rk) s = .next (t.setRegion rk { t.region rk with probed := true }))

/-- R17, R69, R177, R179, R182, R183, R189, R190, R193, R194, R196, R197, R342: the events of streams: the requests of an AG and what it
delivers, the service of a bank (its own AGs first in a round, those of other tiles after the repeat node), its hand-over and its scrub, a
walk, the repeat node and the schedule-table node. Which entry a full cache replaces is a free value (log 4). Where an indexed load with ENDP
END appends its END (log 51), how long a schedule table is (log 19), which banks an indexed stream uses (log 81), and that the errors
that a repeat node takes on its count input are reported at port 1, and those of its buffer at port 0 (log 80), are the model's choice. -/
def Obligations.StreamEvents : Prop :=
  ∀ s : State,
    (∀ a rk : Nat, s.regionOf (a / 2) = some rk →
      ((∀ h ∈ (s.ag a).held, (s.region rk).lastRel < h.cut) → releaseLate a s = s)
      ∧ (∀ h ∈ (s.ag a).held, h.cut ≤ (s.region rk).lastRel → releaseLate a s = releaseAg (s.region rk).lastRel s a))
    ∧ (∀ (a : Nat) (before : State), releaseLate a before = s →
      let g := s.ag a
      let n := Spb.total g.spb
      let idle := s.setAg a { g with stall := none }
      (agReady s a = false → Machine.exec (.agRequestIssue a) before
        = .next (if agActive s a then s.setAg a (g.stalled s.round) else s))
      ∧ (agReady s a = true → Spb.store g.spb = false → g.ended = false → g.reqs.length < 32 → (g.io.outq 0).length < 32 →
        (Spb.indexed g.spb = false →
          (∀ p, g.seq < n → pinPlace g.pins (Spb.addr g.spb g.seq) = some p →
            Machine.exec (.agRequestIssue a) before = .next (idle.setAg a { g with
              stall := none
              reqs := g.reqs ++ [{ seq := g.seq, place := p, size := Spb.esize g.spb, issued := s.round }]
              seq := if g.seq + 1 = n ∧ Spb.endp g.spb = 2 then 0 else g.seq + 1
              made := g.made + 1 }))
          ∧ (n ≤ g.seq → Machine.exec (.agRequestIssue a) before = .next (idle.setAg a { g with stall := none, ended := true })))
        ∧ (∀ t, Spb.indexed g.spb = true → g.io.head? s.round 1 = some t → t.tag ≠ 6 → t.tag ≠ 7 →
          let i := t.payload.toNat % 2 ^ 32
          let taken := agTake idle a 1
          (Spb.count g.spb 0 ≤ i → Machine.exec (.agRequestIssue a) before
            = .next (taken.setAg a ((taken.ag a).ask s.round i 0 (some ⟨6, BitVec.ofNat 64 (1 * 2 ^ 24 + i % 2 ^ 24), 0⟩))))
          ∧ (∀ p, i < Spb.count g.spb 0 → xlate idle (a / 2) false g.ctx g.spb (Spb.indexAddr g.spb i) = .place p →
            let at_ := if (taken.ag a).waiting.isNone then moveOn taken a p else taken
            Machine.exec (.agRequestIssue a) before = .next (at_.setAg a ((at_.ag a).ask s.round i p none)))
          ∧ (∀ code, i < Spb.count g.spb 0 → xlate idle (a / 2) false g.ctx g.spb (Spb.indexAddr g.spb i) = .err code →
            Machine.exec (.agRequestIssue a) before
              = .next (taken.setAg a ((taken.ag a).ask s.round i 0 (some ⟨6, BitVec.ofNat 64 (code * 2 ^ 24 + i % 2 ^ 24), 0⟩))))
          ∧ (i < Spb.count g.spb 0 → xlate idle (a / 2) false g.ctx g.spb (Spb.indexAddr g.spb i) = .miss →
            Machine.exec (.agRequestIssue a) before = .next (askWalk idle (.ag a) g.ctx (Spb.indexAddr g.spb i) false))))
      ∧ (∀ t p, agReady s a = true → Spb.store g.spb = true → Spb.indexed g.spb = false → g.ended = false → g.discard = false →
        g.words = [] → g.seq < n → Spb.esize g.spb ≤ 4 → g.io.head? s.round 0 = some t → t.tag ≠ 6 → t.tag ≠ 7 →
        pinPlace g.pins (Spb.addr g.spb g.seq) = some p →
        (holdsAt s (a / 2) p = false → Machine.exec (.agRequestIssue a) before = .next (s.setAg a (g.stalled s.round)))
        ∧ (holdsAt s (a / 2) p = true → (Spb.qual g.spb ≠ 1 ∨ s.isFull p = false) →
          let taken := agTake s a 0
          Machine.exec (.agRequestIssue a) before = .next (storeNext (taken.setAg a ((taken.ag a).hold 0 p
            ((leBytes 4 (t.payload.setWidth 32).toNat).take (Spb.esize g.spb)))) a))))
    ∧ (∀ a : Nat,
      let g := s.ag a
      (∀ r rest, g.reqs = r :: rest → (g.io.outq 0).length < 4 →
        (∀ t, r.tok = some t → Machine.exec (.agLoadData a) s = .next (s.setAg a ({ g with reqs := rest }.emit s.round t)))
        ∧ (∀ d, r.tok = none → r.data = some d → Machine.exec (.agLoadData a) s
            = .next (s.setAg a ((elementTokens d).foldl (fun ag t => ag.emit s.round t) { g with reqs := rest })))
        ∧ (r.tok = none → r.data = none → r.issued < s.round → isOwn s r.place = true → Place.space r.place ≤ 1 →
            s.eccAt r.place r.size = false → diesLinked s (Key.dieOfTile (a / 8)) (Place.die r.place) = true →
            Machine.exec (.agLoadData a) s = .next ((((s.setAg a ((elementTokens (g.forward r.place (s.bytes r.place r.size))).foldl
              (fun ag t => ag.emit s.round t) { g with reqs := rest })).touch (a / 2)).takeTurn r.place).readGood (a / 2) r.place r.size))
        ∧ (r.tok = none → r.data = none → isOwn s r.place = false → r.fwdd = false → Machine.exec (.agLoadData a) s
            = .next ((s.setAg a { g with reqs := { r with fwdd := true } :: rest }).dltSend (Place.device r.place) r.place
                (.rd r.size) (.agLoad a r.seq))))
      ∧ (g.held = [] → ∀ p bytes, g.forward p bytes = bytes)
      ∧ (g.reqs = [] → g.ended = true → g.endSent = false → Spb.store g.spb = false → Spb.qual g.spb ≠ 1 → Spb.endp g.spb = 1 →
          Machine.exec (.agLoadData a) s
            = .next (s.setAg a ({ g with endSent := true }.emit s.round ⟨7, BitVec.ofNat 64 (g.made % 2 ^ 32), 0⟩))))
    ∧ (∀ tile : Nat,
      (let done := ownServed s tile
       let after (t : State) : State := t.setTile tile { t.tile tile with ownAt := some (t.round, 3) }
       ((∀ n k, (s.tile tile).ownAt = some (n, k) → done = if n = s.round then k else 0)
         ∧ ((s.tile tile).ownAt = none → done = 0))
       ∧ ((∀ a bank, servable s tile bank a = none) →
         (3 ≤ done → Machine.exec (.bankService tile) s = .next s)
         ∧ (done < 3 → Machine.exec (.bankService tile) s = .next (after s)))
       ∧ (∀ a bank r, servable s tile bank a = some r → bank < 16 → s.bankTurn r.place = true →
           (∀ b k, b ≠ a → servable s tile k b = none) → (s.ag a).reqs.filter (fun x => x.tok.isNone && x.data.isNone) = [r] →
           let served := (serveLoad s a r).takeTurn r.place
           (a / 8 = tile → done ≤ a % 2 → Machine.exec (.bankService tile) s = .next (after served))
           ∧ (a / 8 ≠ tile → 3 ≤ done → Machine.exec (.bankService tile) s = .next served)))
      ∧ (∀ bank k, (s.tile tile).scrub.get none bank = some k →
          let zeroed := s.setBytes (Place.ofTile tile ((bank * 256 + k) * 16)) (List.replicate 16 0)
          let t := { s.tile tile with gmeta := (s.tile tile).gmeta.put 0 (bank * 256 + k) 0 }
          Machine.exec (.bankScrub tile bank) s = .next (zeroed.setTile tile (if k + 1 < 256
            then { t with scrub := t.scrub.put none bank (some (k + 1)) }
            else { t with scrub := t.scrub.put none bank none, owner := t.owner.put none bank none })))
      ∧ (∀ bank l c p b c', (s.tile tile).owner.get none bank = some (l, c) →
          ((List.range 4).find? fun p => ownerOf s (tile * 4 + p) == some (l, c)) = some p →
          (s.plane (tile * 4 + p)).hands.find? (·.1 == bank) = some (b, c') → bankDone s (tile * 4 + p) bank = true →
          Machine.exec (.handEv tile bank) s
            = .next (s.setTile tile { s.tile tile with owner := (s.tile tile).owner.put none bank (some (l, c')) })))
    ∧ (∀ (die : Nat) (w : WalkReq) (rest : List WalkReq), s.walks.get [] die = w :: rest →
      let t := walkCorrected s w.va w.ctx
      let done : State := { t with walks := t.walks.put [] die rest }
      (∀ lv d, walk s w.va w.ctx = .leaf lv d → (w.write = true ∧ leafM d = true) →
        Machine.exec (.walkEv die) s = .next { t with walks := t.walks.put [] die (rest ++ [w]) })
      ∧ (∀ lv d, walk s w.va w.ctx = .leaf lv d → ¬(w.write = true ∧ leafM d = true) →
          Machine.exec (.walkEv die) s = .next { done with
            freeCtr := t.freeCtr + 1
            blockTlb := t.blockTlb.put [] w.block (fillLeaf 256 t.freeCtr
              ((t.blockTlb.get [] w.block).filter fun l => !l.serves w.va w.ctx) ⟨w.ctx, w.va, lv, d⟩) })
      ∧ (∀ rk, t.regionOf w.owner.pk = some rk → (t.region rk).relDue = none →
          (∀ lv, walk s w.va w.ctx = .notPresent lv →
            Machine.exec (.walkEv die) s = .next (rollback t rk (.pageFault w.va w.ctx w.owner.place)))
          ∧ (∀ lv p, walk s w.va w.ctx = .ecc lv p → Machine.exec (.walkEv die) s = .next (rollback t rk (.ecc p)))
          ∧ (∀ lv, walk s w.va w.ctx = .malformed lv →
            Machine.exec (.walkEv die) s = .next (rollback t rk (.walkFormat lv w.va w.ctx w.owner.place)))))
    ∧ (∀ pk : Nat,
      (∀ t, repReady s pk = true → repTurn s pk = true → (s.rep pk).io.head? s.round 0 = some t →
        ((s.rep pk).st = .fill → Machine.exec (.repeatNodeFill pk) s = .next (repFill s pk t)
          ∧ ((s.rep pk).skip = false → (s.rep pk).buf.length < 1024 →
            ((repFill s pk t).rep pk).buf = (s.rep pk).buf ++ [t]
              ∧ ((repFill s pk t).rep pk).st = (if t.tag = 7 then .hold else .fill)
              ∧ (repFill s pk t).read (repPlace s pk (s.rep pk).buf.length) 4 = t.payload.toNat % 2 ^ 32))
        ∧ ((s.rep pk).st = .hold → (s.rep pk).io.head? s.round 1 = none → Machine.exec (.repeatNodeFill pk) s
            = .next (repFill ((repDrop s pk).setRep pk { (repDrop s pk).rep pk with st := .fill }) pk t)))
      ∧ (((repDrop s pk).rep pk) = { s.rep pk with buf := [], valid := false, emitted := false }
        ∧ (∀ rk, s.regionOf pk = some rk → ((repDrop s pk).region rk).reports = (s.region rk).reports
            ++ if (s.rep pk).emitted then [] else ((s.rep pk).buf.filter (·.tag == 6)).map fun t =>
              ⟨Key.place (pk / 4) 0, 0, t.payload.setWidth 32, (s.rep pk).io.snapCut + 1⟩))
      ∧ (∀ t, repReady s pk = true → (s.rep pk).st = .hold → (s.rep pk).io.head? s.round 1 = some t →
        let taken := repTake s pk 1
        (t.tag = 6 → Machine.exec (.repeatNodeCount pk) s = .next (taken.repErr pk 1 t))
        ∧ (t.tag = 7 → Machine.exec (.repeatNodeCount pk) s
            = .next ((repDrop taken pk).setRep pk { (repDrop taken pk).rep pk with st := .fill }))
        ∧ (t.tag ≠ 6 → t.tag ≠ 7 → Machine.exec (.repeatNodeCount pk) s = .next (taken.setRep pk (
          if t.payload.toNat % 2 ^ 32 = 0 then taken.rep pk
          else { taken.rep pk with st := .emit (t.payload.toNat % 2 ^ 32) 0 }))))
      ∧ (∀ passes pos, repReady s pk = true → (s.rep pk).st = .emit passes pos → (s.rep pk).io.room 0 = true →
        repTurn s pk = true → s.eccAt (repPlace s pk pos) 4 = false →
        let p := repPlace s pk pos
        let t := (s.takeTurn p).readGood pk p 4
        Machine.exec (.repeatNodeEmit pk) s = .next ((t.setRep pk { s.rep pk with
          emitted := true
          st := if pos + 1 < (s.rep pk).buf.length then .emit passes (pos + 1) else if 1 < passes then .emit (passes - 1) 0 else .hold
          io := (s.rep pk).io.reserve 0 {
            tok := { (s.rep pk).buf.getD pos default with payload := BitVec.ofNat 64 (s.read p 4) }, ready := t.round } }).touch pk))
      ∧ (∀ reset arr rest, (s.sched pk).reqs = (reset, arr) :: rest → arr ≤ s.round → planeRuns s pk = true →
        let n := s.sched pk
        (reset = true → Machine.exec (.scheduleNodeServe pk) s = .next (s.setSched pk { n with reqs := rest, cursor := 0 }))
        ∧ (reset = false → n.cursor < n.table.length → Machine.exec (.scheduleNodeServe pk) s = .next (s.setSched pk { n with
            reqs := rest, cursor := n.cursor + 1
            io := n.io.reserve 0 { tok := ⟨0, (n.table.getD n.cursor 0).setWidth 64, 0⟩, ready := s.round } }))
        ∧ (reset = false → n.cursor = n.table.length → Machine.exec (.scheduleNodeServe pk) s = .next (s.setSched pk { n with
            reqs := rest
            io := n.io.reserve 0 { tok := ⟨7, BitVec.ofNat 64 n.table.length, 0⟩, ready := s.round } }))))

/-- R153, R155, R156, R158, R161, R163, R164, R166: the events of combining registers: a contribution and a close at the partial slot, the
notice of a close, the gather of a SETTLE or a PEEK, its reply, and the resets and acknowledgments of a CRST. A close of a generation that
the home has settled before a rollback drops it, and a slot that was read or reset before answers from what it remembers (log 89). -/
def Obligations.CombiningEvents : Prop :=
  ∀ (s : State) (h k : Nat),
    let home := s.home h
    let sk := home.slotKeys.getD k 0
    let slot := s.pslot sk
    (∀ c rest, home.toSlot.get [] k = c :: rest → c.due ≤ s.round →
      let left := s.setHome h { home with toSlot := home.toSlot.put [] k rest }
      (c.close = true → slot.closed = true → Machine.exec (.contribLocal h k) s = .next s)
      ∧ (∀ a o t, c.close = false → c.value = some (a, o, t) → Machine.exec (.contribLocal h k) s
          = .next (left.setPslot sk (if slot.closed then { slot with nxt := CombAlu.contribLocal home.decl slot.nxt a o t }
            else { slot with cur := CombAlu.contribLocal home.decl slot.cur a o t })))
      ∧ (c.close = true → slot.closed = false →
        let p := match c.value with
          | some (a, o, t) => { slot with cur := CombAlu.contribLocal home.decl slot.cur a o t }
          | none => slot
        (slot.behind home = false → Machine.exec (.contribLocal h k) s
          = .next ((left.setPslot sk { p with closed := true }).setHome h { home with
              toSlot := home.toSlot.put [] k rest
              toHome := home.toHome.put [] k (home.toHome.get [] k ++ [.notice (s.round + 1)]) }))
        ∧ (slot.behind home = true → Machine.exec (.contribLocal h k) s = .next (left.setPslot sk p.shift))))
    ∧ (∀ due rest, home.toHome.get [] k = .notice due :: rest → due ≤ s.round → (∀ t f a r, home.op ≠ some (.reset t f a r)) →
      Machine.exec (.closeNotice h k) s = .next (s.setHome h { home with
        toHome := home.toHome.put [] k rest, closed := home.closed ||| 1#16 <<< k, lastNotice := s.round }))
    ∧ (∀ peek t fired parts, home.op = some (.read peek t fired none parts) → fired < s.round →
      (peek = true → Machine.exec (.gatherIssue h) s
        = .next (s.setHome h { home with op := some (.read peek t fired (some s.round) parts) }))
      ∧ (peek = false → home.closed = home.full → home.lastNotice < s.round → Machine.exec (.gatherIssue h) s
        = .next (s.setHome h { home with op := some (.read peek t fired (some s.round) parts), closed := 0 }))
      ∧ (peek = false → home.closed ≠ home.full → Machine.exec (.gatherIssue h) s = .next s))
    ∧ (∀ peek t fired issued parts, home.op = some (.read peek t fired (some issued) parts) → issued < s.round →
      k < home.decl.contribs.length → parts.get none k = none → (∀ l ∈ homePath home sk, (s.link l).carries = true) →
      let part := slot.at home.crsts home.gen
      let read : Home := { home with
        op := some (.read peek t fired (some issued) (parts.insert k (some ⟨part.1, part.2, s.round⟩))) }
      (peek = true → Machine.exec (.gatherRead h k) s = .next ((s.setHome h read).setPslot sk slot))
      ∧ (slot.crsts = home.crsts → slot.gen = home.gen → part = (slot.cur, slot.closed)
        ∧ (peek = false → Machine.exec (.gatherRead h k) s = .next ((s.setHome h read).setPslot sk { slot with
            cur := slot.nxt, closed := false, nxt := {}, gen := slot.gen + 1
            past := slot.past ++ [⟨slot.crsts, slot.gen, slot.cur, true⟩] })))
      ∧ (peek = false → (slot.crsts ≠ home.crsts ∨ slot.gen ≠ home.gen) → Machine.exec (.gatherRead h k) s
        = .next ((s.setHome h { read with
            toHome := if (slot.at home.crsts (home.gen + 1)).2 then home.toHome.put [] k (home.toHome.get [] k ++ [.notice (s.round + 1)])
              else home.toHome }).setPslot sk slot)))
    ∧ (∀ peek t fired issued parts, home.op = some (.read peek t fired (some issued) parts) →
      let ps := (List.range home.decl.contribs.length).filterMap fun k => parts.get none k
      ps.length = home.decl.contribs.length → (∀ p ∈ ps, p.at_ + 4 ≤ s.round) →
      let closed : BitVec 16 := if peek then BitVec.ofNat 16 (CombAlu.maskOf (·.closed) ps) else home.full
      let r := CombAlu.read home.decl (ps.map (·.buf)) closed home.gen peek
      let landed := (s.setHome h { home with status := r.status, op := none, gen := if peek then home.gen else home.gen + 1 }).modElem
        home.decl.home fun el => el.landReply s.round t (r.res.setWidth 64) 0 r.clean
      ((peek = true ∨ r.clean = true) → Machine.exec (.settleReply h) s = .next landed)
      ∧ (peek = false → r.clean = false → Machine.exec (.settleReply h) s
          = .next (landed.event (Key.dieOfElem home.decl.home) 4 (h % 64) (attribPlace home r (ps.map (·.buf))) r.status
              (home.gen.setWidth 64))))
    ∧ (∀ t fired acked recd, home.op = some (.reset t fired acked recd) →
      (fired < s.round → k < home.decl.contribs.length → acked.getLsbD k = false → ackComing home k = false →
        Machine.exec (.resetArrival h k) s
          = .next ((if slot.crsts = home.crsts then s else s.setPslot sk { slot with
              cur := {}, nxt := {}, closed := false, gen := 0, crsts := home.crsts
              past := slot.past ++ [⟨slot.crsts, slot.gen, slot.cur, slot.closed⟩] }).setHome h { home with
            toHome := home.toHome.put [] k (home.toHome.get [] k ++ [.ack (s.round + 1)]) }))
      ∧ (∀ due rest, home.toHome.get [] k = .ack due :: rest → due ≤ s.round →
        let acked' := acked ||| 1#16 <<< k
        (acked' ≠ home.full → Machine.exec (.resetAck h k) s = .next (s.setHome h { home with
          toHome := home.toHome.put [] k rest, op := some (.reset t fired acked' recd) }))
        ∧ (acked' = home.full → Machine.exec (.resetAck h k) s = .next ((s.setHome h { home with
            toHome := home.toHome.put [] k rest, gen := 0, closed := recd, status := 0x3E0, op := none, lastNotice := s.round }).modElem
              home.decl.home fun el => el.landReply s.round t 0 0 false))))

/-- R177, R200, R204, R206, R208-R216, R298: the events of keystones: an update issues when its bank serves it, what the integer updates
write, an arrival at a barrier word, the departure of an irrevocable command, its reply, which the port keeps until a REL past it, the
release of posted commands, none of which passes an earlier irrevocable one, migration, and a write of the range word. The port of a reply's
report (log 80), the order token of a command with a reply (log 52) and the bank of a device range (log 96) are the model's choice. -/
def Obligations.KeystoneEvents : Prop :=
  (∀ (s : State) (ks : Nat), let k := s.kstone ks
    (∀ a rest, k.inq = a :: rest → k.mapped = true → a.arr < s.round →
      (∀ idx r, k.last = some (idx, r) → r < s.round ∧ (idx = a.cmd.idx → r + 2 ≤ s.round)) →
      let p := keystonePlace s ks a.cmd.idx
      let taken := s.setKstone ks { k with inq := rest }
      (s.bankTurn p = true → keystoneBad s ks a.cmd.idx = false →
        Machine.exec (.updateIssue ks) s = .next (issueUpdate (s.takeTurn p) ks { k with inq := rest } a))
      ∧ (s.bankTurn p = true → keystoneBad s ks a.cmd.idx = true →
        (∀ c, a.src = .core c → Machine.exec (.updateIssue ks) s = .next ((taken.setCore c { s.core c with pend := none }).takeTrap c 7 0
          (((s.core c).pend.map (·.addr)).getD 0)))
        ∧ (∀ id dev posted, a.src = .remote id dev posted → ∃ t, Machine.exec (.updateIssue ks) s = .next t
          ∧ t.dltAnsOut = s.dltAnsOut ++ [(dev, id, .ecc)] ∧ t.kstones = taken.kstones ∧ t.mem = s.mem)
        ∧ (∀ e target ticket, a.src = .port e target ticket → s.regionOf (e / 16) ≠ none → Machine.exec (.updateIssue ks) s = .next s))
      ∧ (s.bankTurn p = false → Machine.exec (.updateIssue ks) s = .next s))
    ∧ (∀ a rest r, k.inq = a :: rest → k.last = some (a.cmd.idx, r) → s.round < r + 2 → Machine.exec (.updateIssue ks) s = .next s)
    ∧ (∀ dst, k.copyTo = some dst → k.hold = true → k.inq = [] → dst ≠ ks → ∃ t, Machine.exec (.migrationCopyDone ks) s = .next t
      ∧ (t.kstone ks).hold = false ∧ (t.kstone ks).fwd = some dst ∧ (t.kstone ks).held = []
      ∧ (t.kstone dst).mem = k.mem ∧ (t.kstone dst).sticky = k.sticky ∧ (t.kstone dst).held = k.held
      ∧ (t.kstone dst).mapped = true ∧ (t.kstone dst).words = k.words)
    ∧ (∀ dst a rest, k.fwd = some dst → k.waitQ = a :: rest →
      (∀ m, a.cmd.op = .status m →
        Machine.exec (.keystoneForward ks) s = .next (s.setKstone ks { k with waitQ := rest, inq := k.inq ++ [a] }))
      ∧ ((∀ m, a.cmd.op ≠ .status m) → ksWithholds (s.kstone dst) = false →
        Machine.exec (.keystoneForward ks) s = .next (ksArrive (s.setKstone ks { k with waitQ := rest }) dst a.cmd a.src))
      ∧ ((∀ m, a.cmd.op ≠ .status m) → ksWithholds (s.kstone dst) = true → Machine.exec (.keystoneForward ks) s = .next s))
    ∧ (∀ v : Word,
      (v.getLsbD 31 = false → Machine.exec (.rangeWordWrite ks v) s = .next ((breakAll s ks).setKstone ks { bank := k.bank }))
      ∧ (v.getLsbD 31 = true → targetBound s ks = true → Machine.exec (.rangeWordWrite ks v) s = .next s)
      ∧ (v.getLsbD 31 = true → targetBound s ks = false → v.toNat / 2 ^ 26 % 8 < 5 → v.toNat / 2 ^ 10 % 2 ^ 16 = 0 →
        ∃ t, Machine.exec (.rangeWordWrite ks v) s = .next t ∧ (t.kstone ks).mapped = true ∧ (t.kstone ks).words = v.toNat % 1024 + 1
          ∧ (t.kstone ks).bar = v.getLsbD 30 ∧ (t.kstone ks).rm = v.toNat / 2 ^ 26 % 8)))
  ∧ (∀ (k : Keystone) (idx : Nat) (b : Word) (src : KSrc) (arr : Nat), k.bar = false →
    let o := k.mem.get 0 idx
    let new (f : Nat) : Word := ((k.apply ⟨⟨.int f, idx, b⟩, src, arr⟩).ks).mem.get 0 idx
    new 0 = o + b
    ∧ new 1 = (if o.toNat + b.toNat < 2 ^ 32 then o + b else 0xFFFFFFFF)
    ∧ new 2 = (if o.slt b then o else b) ∧ new 3 = (if o.slt b then b else o)
    ∧ new 4 = o &&& b ∧ new 5 = o ||| b ∧ new 6 = o ^^^ b ∧ new 7 = b
    ∧ (∀ c : Word, ((k.apply ⟨⟨.cas c, idx, b⟩, src, arr⟩).ks).mem.get 0 idx = if o = c then b else o)
    ∧ (∀ f, (k.apply ⟨⟨.int f, idx, b⟩, src, arr⟩).replies = [(src, ⟨0, o.setWidth 64, 0⟩)])
    ∧ (∀ f j, j ≠ idx → ((k.apply ⟨⟨.int f, idx, b⟩, src, arr⟩).ks).mem.get 0 j = k.mem.get 0 j))
  ∧ (∀ (k : Keystone) (idx t a g : Nat) (b : Word) (src : KSrc) (arr : Nat), k.bar = true → t < 4096 → a < 4096 → g < 256 →
    k.mem.get 0 idx = BitVec.ofNat 32 (t * 2 ^ 20 + a * 2 ^ 8 + g) →
    let r := k.apply ⟨⟨.int 0, idx, b⟩, src, arr⟩
    (a + 1 < t → r.replies = [] ∧ r.ks.mem.get 0 idx = BitVec.ofNat 32 (t * 2 ^ 20 + (a + 1) * 2 ^ 8 + g) ∧ r.ks.held = k.held ++ [(idx, src)])
    ∧ (a + 1 = t → r.ks.mem.get 0 idx = BitVec.ofNat 32 (t * 2 ^ 20 + (g + 1) % 256)
      ∧ r.replies = (((k.held.filter (·.1 == idx)).map (·.2)) ++ [src]).map
          fun x => (x, (⟨0, (BitVec.ofNat 32 (t * 2 ^ 20 + t * 2 ^ 8 + g)).setWidth 64, 0⟩ : Token)))
    ∧ (t ≤ a → r.ks = k ∧ r.replies = [(src, ⟨6, BitVec.ofNat 64 (6 * 2 ^ 24 + idx), 0⟩)]))
  ∧ (∀ (s : State) (e : Nat), let el := s.elem e
    (∀ rk i, s.regionOf (e / 16) = some rk → el.irrev = [i] → i.sent = false → let r := s.region rk
      (el.posted = [] → i.cut ≤ r.lastRel → r.relRound < s.round → portOpen s e i.target = true →
        Machine.exec (.irrevocableDeparture e) s
          = .next (releasePosted r.lastRel (sendIrrev (releasePosted r.lastRel s e) e i) e))
      ∧ (s.round ≤ r.relRound → Machine.exec (.irrevocableDeparture e) s = .next s))
    ∧ (∀ i : Irrev, let t := sendIrrev s e i
        let tg := (el.targets.find? (·.1 == i.target)).map Prod.snd
        (t.elem e).irrev = el.irrev.map (fun j => if j.ticket = i.ticket then { j with sent := true } else j)
          ∧ (tg = none ∨ (t.elem e).ksOut.get 0 i.target = el.ksOut.get 0 i.target + 1))
    ∧ (∀ due t tok rest, el.ksIn = .reply due t tok :: rest → due ≤ s.round →
      (∀ i ∈ el.irrev, i.ticket = t → targetLinked s e i.target = true) →
      let landed := s.setElem e (Elem.landReply
        { el with ksIn := rest, irrev := el.irrev.filter (fun i => i.ticket != t), kept := el.kept ++ [⟨t, tok, el.io.snapCut + 1⟩] }
        s.round t tok.payload tok.tag
        (if el.irrev.any (fun i => i.ticket == t && i.cmd.isCas) then tok.payload != 0 else tok.tag == 0))
      Machine.exec (.keystoneReply e) s = .next (if tok.tag = 6
        then landed.report (e / 16) (elemPlace e) 8 (tok.payload.setWidth 32) (el.io.snapCut + 1) else landed))
    ∧ (∀ due target tg k rest, el.ksIn = .applied due target :: rest → due ≤ s.round →
      (el.targets.find? (·.1 == target)).map Prod.snd = some tg → targetLinked s e target = true →
      let freed := s.setElem e { el with ksIn := rest, ksOut := el.ksOut.put 0 target (el.ksOut.get 0 target - 1) }
      (tg.orderIn = some k → Machine.exec (.keystoneReply e) s = .next (oweOrder freed (orderChan e target)))
      ∧ (tg.orderIn = none → Machine.exec (.keystoneReply e) s = .next freed))
    ∧ (∀ ch : Nat,
      let c := s.chan ch
      let due := s.setChan ch { c with owed := c.owed + 1 }
      (c.sent - c.returned < chanSlots due ch → oweOrder s ch = (due.setChan ch c).sendOn ch ⟨0, 0, 0⟩ 1)
      ∧ (chanSlots due ch ≤ c.sent - c.returned → oweOrder s ch = due))
    ∧ (∀ n : Nat,
      ((releasePort n s e).elem e).kept = el.kept.filter (fun k => n < k.cut)
      ∧ (∀ p ∈ el.posted, n < p.cut → p ∈ ((releasePosted n s e).elem e).posted)
      ∧ (∀ i rest, el.irrev = i :: rest → i.sent = false → 1 ≤ i.cut → i.cut ≤ n →
          ∀ p ∈ el.posted, i.cut ≤ p.cut → p ∈ ((releasePosted n s e).elem e).posted)
      ∧ (∀ p, el.posted = [p] → el.irrev = [] → p.cut ≤ n → portOpen s e p.target = true →
          releasePosted n s e = (ksSend s e p.target p.cmd none).modElem e fun el => { el with posted := [] })))

/-- R225, R226, R231, R232, R234, R245-R248, R251, R253-R255, R262, R278, R377, R379: the events of streamers and matrix islands: a
command accepted, completed or refused, a flagged fence, drain, a collective's start, hop and completion, transfers, results and
checkpoint images; and the slot that an MMA leaves. END and ERR tokens on a command input (log 67), the report port of an ERR (log 80), the
refusal statuses of commands (log 54), and the place of a checkpoint image with the case of no area (log 79) are the model's choice. -/
def Obligations.EngineEvents : Prop :=
  (∀ (s : State) (st : Nat), let t := s.streamer st
    let taken := stTake s st
    let u := taken.streamer st
    (streamerOpen s st = true → ∀ k, t.io.head? s.round 0 = some k → (k.tag = 6 ∨ k.tag = 7) →
      Machine.exec (.streamerCommandAccept st) s = .next (taken.stErr st 0 k))
    ∧ (streamerOpen s st = true → ∀ k, t.io.head? s.round 0 = some k → k.tag ≠ 6 → k.tag ≠ 7 →
      (k.form ≠ 4 → k.form ≠ 5 →
        let c : SCmd := { id := u.nextCmd, form := k.form.toNat, word := k.payload, acc := s.round, batch := u.batchNo, cut := u.io.snapCut + 1 }
        Machine.exec (.streamerCommandAccept st) s = .next (taken.setStreamer st { u with
          nextCmd := u.nextCmd + 1
          cmds := u.cmds ++ [{ c with status := checkCmd u c }]
          opened := u.opened + 1
          hasInject := u.hasInject || k.form == 6 }))
      ∧ (k.form = 5 →
        let c : SCmd := { id := u.nextCmd, form := 5, word := k.payload, acc := s.round, batch := u.batchNo, cut := u.io.snapCut + 1 }
        let c := { c with status := checkCmd u c }
        let u := if c.status = 0 then Streamer.closeBatch { u with nextCmd := u.nextCmd + 1 } else { u with nextCmd := u.nextCmd + 1 }
        Machine.exec (.streamerCommandAccept st) s
          = .next ((taken.setStreamer st { u with cmds := u.cmds ++ [{ c with batch := u.batchNo }] }).pump st))
      ∧ (k.form = 4 → Machine.exec (.streamerCommandAccept st) s = .next (
          if k.payload = 0 then
            stcSend ((taken.setStreamer st (Streamer.closeBatch { u with nextCmd := u.nextCmd + 1 })).pump st) st 4 0 0 u.opened
          else stcSend (taken.setStreamer st { u with nextCmd := u.nextCmd + 1 }) st 4 7 0 0)))
    ∧ (∀ id c, t.cmd? id = some c → c.acc < s.round → t.compRoom = true →
      (c.status ≠ 0 → Machine.exec (.streamerCommandComplete st id) s = .next (stcDone s st c c.status 0))
      ∧ (c.status = 0 → c.form = 5 → t.outstanding ≤ c.b →
        Machine.exec (.streamerCommandComplete st id) s = .next (stcDone s st c 0 t.outstanding))
      ∧ (c.status = 0 → c.form = 5 → c.b < t.outstanding → Machine.exec (.streamerCommandComplete st id) s = .next s)
      ∧ (c.status = 0 → c.form = 0 → dueOf t c ≤ s.round → c.x.phase = 3 → c.x.rd = 0 → c.x.wr = 0 → c.x.refused = [] →
        Machine.exec (.streamerCommandComplete st id) s = .next (stcDone s st c 0 c.b))
      ∧ (∀ p rk, c.status = 0 → c.form = 3 → pinPlace (t.pins.get [] (c.sp 0)) (Spb.addr (t.spb (c.sp 0)) 0) = some p →
        isOwn s (p / 16 * 16) = true → s.regionOf (Key.enginePk st) = some rk →
        let q := p / 16 * 16
        (c.cut ≤ (s.region rk).lastRel → fenceWaits t c (Place.device q) = false → stOpen s (Key.enginePk st) q false = true →
          let flag := leBytes 4 c.b ++ List.replicate 12 0
          Machine.exec (.flagfWrite st id) s = .next (stcDone
            (((stSetBytes s (Key.enginePk st) q flag).takeTurn q).fillReleased (Key.enginePk st) q) st c 0 0)
          ∧ (isIslandMem s q = false → stSetBytes s (Key.enginePk st) q flag = s.setBytes q flag))
        ∧ ((s.region rk).lastRel < c.cut ∨ fenceWaits t c (Place.device q) = true ∨ stOpen s (Key.enginePk st) q false = false →
          Machine.exec (.flagfWrite st id) s = .next s)))
    ∧ (t.bound = true → t.io.drained = false → t.cmds = [] → t.io.feed.get [] 0 ≠ [] → t.fedOut s.round 0 = true → t.draining = false →
      ∃ v, Machine.exec (.streamerDrain st) s = .next v ∧ (v.streamer st).draining = true ∧ (v.streamer st).opened = 0)
    ∧ (∀ c k p x rest, t.bound = true → t.coll = some (c, k, p) → planeRuns s (Key.enginePk st) = true → t.compRoom = true →
      nextStart t s.round (t.io.inq 1) [] = some (x, rest) →
      let b := x.tok.payload.toNat % 64
      let step := x.tok.payload.toNat % 2 ^ 32 / 64
      let left := { t with io := { t.io with ins := t.io.ins.put [] 1 rest } }
      let s' := (s.setStreamer st left).freeSlot x.ch x.dst
      (x.tok.tag ≠ 0 → Machine.exec (.collectiveStart st) s = .next (s'.stErr st 1 x.tok))
      ∧ (x.tok.tag = 0 → t.bucks.get none b = none → Machine.exec (.collectiveStart st) s = .next (s'.setStreamer st { left with
        io := left.io.reserve 0 { tok := ⟨0, BitVec.ofNat 64 (b * 2 ^ 26 + 1 * 2 ^ 18 + step % 2 ^ 18), 0⟩, ready := s.round } }))
      ∧ (∀ d, x.tok.tag = 0 → t.bucks.get none b = some d → Machine.exec (.collectiveStart st) s
          = .next (s'.setStreamer st { left with runs := left.runs.put none b (some { step := step }) })))
    ∧ (∀ h rest, s.hopsIn = h :: rest → t.takesHop h = true →
      (t.used.contains (h.b, h.step, h.src) = true → Machine.exec (.collectiveHop st) s = .next { s with hopsIn := rest })
      ∧ (t.used.contains (h.b, h.step, h.src) = false → (∀ g ∈ t.hops, g.b = h.b → g.src ≠ h.src) → Machine.exec (.collectiveHop st) s
          = .next ({ s with hopsIn := rest }.setStreamer st { t with hops := t.hops ++ [h] })))
    ∧ (∀ b r d co, t.runs.get none b = some r → t.bucks.get none b = some d → t.coll = some co → r.x.rd = 0 → r.x.wr = 0 → 6 ≤ r.x.phase →
      t.compRoom = true → Machine.exec (.bucketComplete st b) s = .next (bucketEnd s st b r)))
  ∧ (∀ (s : State) (i : Nat), let isl := s.island i
    let taken := takeCommand s i
    (islandOpen s i = true → ∀ k, isl.io.head? s.round 0 = some k → (k.tag = 6 ∨ k.tag = 7) →
      Machine.exec (.islandCommandAccept i) s = .next (dropCommand s i k))
    ∧ (islandOpen s i = true → ∀ k, isl.io.head? s.round 0 = some k → k.tag ≠ 6 → k.tag ≠ 7 →
      (k.form = 0 → isl.mmaNext s.round = true → k.payload.toNat / 2 ^ 22 % 4 ≠ 0 →
        Machine.exec (.islandCommandAccept i) s = .next (mmaAtOnce taken i k.payload 2 0))
      ∧ (∀ sl, k.form = 0 → isl.mmaNext s.round = true → k.payload.toNat / 2 ^ 22 % 4 = 0 → k.payload.toNat / 2 ^ 45 = 0 →
        mmaG k.payload ≠ 0 → mmaRg k.payload ≠ 0 → mmaRg k.payload / 2 ^ (mmaM k.payload / 16) = 0 → isl.ringFed = false →
        isl.holder (mmaMark k.payload) = some sl → (isl.slot sl).state = 1 → Machine.exec (.islandCommandAccept i) s
          = .next (taken.setIsland i { taken.island i with
              found := false, mmas := (taken.island i).mmas ++ [{ cmd := k.payload, acc := s.round, slot := sl }] }))
      ∧ (k.form = 0 → isl.mmaNext s.round = false → Machine.exec (.islandCommandAccept i) s = .next s)
      ∧ (k.form = 7 → isl.allDone s.round = true → k.payload = 0 → Machine.exec (.islandCommandAccept i) s
          = .next (taken.setIsland i { taken.island i with job := .fence (taken.island i).doneCmds }))
      ∧ (k.form ≠ 0 → isl.allDone s.round = false → Machine.exec (.islandCommandAccept i) s = .next s))
    ∧ (∀ x, isl.xfer = some x → x.due ≤ s.round → x.spill = true → ∃ t, Machine.exec (.spillTransferDone i) s = .next t
      ∧ ((t.island i).slot x.slot).state = 0 ∧ (t.island i).xfer = none
      ∧ (t.island i).dir.get 0 x.entry = BitVec.ofNat 32 (2 ^ 31 + ((isl.slot x.slot).state == 2).toNat * 2 ^ 30 + (isl.slot x.slot).mark))
    ∧ (∀ m due w, isl.bound = true → isl.job = .none → isl.mmas = [m] → m.done = some (due, w) → due ≤ s.round →
      (w.toNat / 2 ^ 26 % 8 ≠ 0 ∨ isl.mregSlot = none) →
      Machine.exec (.mmaComplete i) s = .next (islandSend (s.setIsland i { isl with mmas := [] }) i w))
    ∧ (∀ at_ w, isl.bound = true → isl.mmas = [] → isl.job = .finish at_ w → at_ ≤ s.round →
      Machine.exec (.mmaComplete i) s = .next (islandSend (s.setIsland i { isl with job := .none }) i w))
    ∧ (∀ v v2 vs f w, (isl.io.outq 0).length < 4 → isl.job = .flush (v :: v2 :: vs) f w → Machine.exec (.resultEmit i) s
      = .next (s.setIsland i { isl with
          io := isl.io.reserve 0 { tok := ⟨0, v.setWidth 64, 0⟩, ready := s.round }, job := .flush (v2 :: vs) f w }))
    ∧ (∀ slot, slot ∈ isl.pendImg → Machine.exec (.islandCheckpointWrite i slot) s
      = .next ((if isl.ckpt = 0 then s else s.setBytes (isl.ckptPlace slot) (imageBytes (cutSlot s i slot))).setIsland i { isl with
          pendImg := isl.pendImg.filter (· ≠ slot), ckptNew := isl.ckptNew ++ [slot] })
      ∧ (∀ sn x, snapOf s (.island i) isl.io.snapCut = some sn → sn.val = .island x → cutSlot s i slot = x.slot slot))
    ∧ (isl.bound = true → isl.io.drained = false → isl.io.drainedIn s.round 0 = true → isl.allDone s.round = true → isl.xfer = none →
      isl.io.feed.keys = [0] → ∃ t, Machine.exec (.islandDrain i) s = .next t ∧ (t.island i).io.drained = true))
  ∧ (∀ (m : Mma) (setup : Word) (sl : ISlot),
    let t := (mmaApply m setup sl).1
    (∀ i r j, (mmaRows m.cmd)[r]? = some i → j < mmaN m.cmd → t.val.get 0 (128 * i + j)
      = (mmaElement m (ISetup.fmt setup) (ISetup.rm setup) (if mmaAcc m.cmd then sl.val.get 0 (128 * i + j) else 0) r j).c)
    ∧ (∀ i j, j < 128 → (i ∉ mmaRows m.cmd ∨ mmaN m.cmd ≤ j) → t.val.get 0 (128 * i + j) = sl.val.get 0 (128 * i + j)))

/-- R293-R295, R297-R299, R307, R355, R356, R364, R407: the events of mason cores and of their registers: EVENT, the ends of IDLE and
WFE, a write of RUN, writes of registers in status and configuration space, the retirement of a tile, and a fatal error. That RUN = 1 acts on a stopped core only
and keeps the other bits of PSTAT (log 63), the layout of the dump of a fatal error (log 31), which tiles are fused (log 13), and what a record
that nothing has configured holds (log 12) are the model's choice. -/
def Obligations.CoreEvents : Prop :=
  ∀ s : State,
    (∀ c : Nat, let k := s.core c
      let n := evCount s (c / 4)
      (k.run = .running → k.pend = none → k.busyTo = none → k.held = false → Pstat.ie k.pstat = true → Pstat.tip k.pstat = false → 0 < n →
        Machine.exec (.eventTrap c) s = .next (s.takeTrap c 10 0 (BitVec.ofNat 64 n) true))
      ∧ ((Pstat.ie k.pstat = false ∨ Pstat.tip k.pstat = true ∨ n = 0) → Machine.exec (.eventTrap c) s = .next s)
      ∧ (k.run = .idle → 0 < n → (Pstat.ie k.pstat = false ∨ Pstat.tip k.pstat = true) →
        Machine.exec (.idleWake c) s = .next (s.setCore c { k with pc := k.pc + 8, held := false, operands := [], run := .running }))
      ∧ (k.run = .idle → 0 < n → Pstat.ie k.pstat = true → Pstat.tip k.pstat = false → Machine.exec (.idleWake c) s
        = .next ((s.setCore c { k with pc := k.pc + 8, held := false, operands := [], run := .running }).takeTrap c 10 0 (BitVec.ofNat 64 n) true))
      ∧ (k.run = .idle → n = 0 → Machine.exec (.idleWake c) s = .next s)
      ∧ (k.run = .wfe → (Pstat.evf k.pstat = true ∨ k.seen < (s.evq (c / 4)).entered) → Machine.exec (.wfeWake c) s
        = .next (s.setCore c { k with pstat := k.pstat &&& ~~~4#64, pc := k.pc + 8, held := false, operands := [], run := .running }))
      ∧ (k.run = .wfe → Pstat.evf k.pstat = false → (s.evq (c / 4)).entered ≤ k.seen → Machine.exec (.wfeWake c) s = .next s)
      ∧ ((k.run = .halted ∨ k.run = .double) →
        Machine.exec (.coreRunWrite c 1) s
          = .next (s.setCore c { k with run := .running, pc := k.entry, pstat := k.pstat ||| 1, held := false, operands := [] }))
      ∧ Machine.exec (.coreRunWrite c 0) s = .next (s.setCore c { k with run := .halted, pend := none, busyTo := none, held := false })
      ∧ (∀ v : Dword, v ≠ 0 → v ≠ 1 → Machine.exec (.coreRunWrite c v) s = .next s))
    ∧ (∀ (place : Nat) (v : Dword), Place.space place = 6 →
      let d := StPlace.die place
      let off := StPlace.off place
      (StPlace.block place = 0 → off < 256 → off % 64 / 8 = 1 → Machine.exec (.registerWrite place v) s
        = .next (s.setCore (4 * d + off / 64) { s.core (4 * d + off / 64) with entry := v }))
      ∧ (StPlace.block place = 1 → off < 0x200 → Machine.exec (.registerWrite place v) s
        = .next (s.setDie d { s.die d with frame := (s.die d).frame.put 0 (off / 8) (v &&& 0x800000000003FFFF#64) }))
      ∧ (StPlace.block place = 3 → off < 32768 → Machine.exec (.registerWrite place v) s
        = .next { s with ctxTable := s.ctxTable.put 0 (off / 8) (v &&& 0x800007FFFFFFFFFF#64) })
      ∧ (StPlace.block place = 5 → off = 0 → Machine.exec (.registerWrite place v) s = .next { s with devnum := v &&& 0x10FFF#64 })
      ∧ (StPlace.block place = 7 ∨ StPlace.block place = 8 → Machine.exec (.registerWrite place v) s = .next s))
    ∧ (∀ (place : Nat) (v : Dword), Place.space place = 5 → CfgPlace.shadow place = false → (s.plane (CfgPlace.pk place)).occupied = true →
      (∀ rk, s.regionOf (CfgPlace.pk place) = some rk → (s.region rk).frozen = false) →
      Machine.exec (.registerWrite place v) s = .next s)
    ∧ (∀ tile : Nat,
      ((s.tile tile).retired = false → (∀ p < 4, s.regionOf (tile * 4 + p) = none) → ∃ t, Machine.exec (.tileRetire tile) s = .next t
        ∧ (Config.fused tile = true → t = s)
        ∧ (Config.fused tile = false → (t.tile tile).retired = true
          ∧ (t.die (Key.dieOfTile tile)).retiredNow = (s.die (Key.dieOfTile tile)).retiredNow + 1))
      ∧ (∀ p rk, p < 4 → s.regionOf (tile * 4 + p) = some rk → (s.region rk).frozen = false →
        Machine.exec (.tileRetire tile) s = .next s))
    ∧ (∀ cause : Nat, (∀ l ∈ s.launches, l.2.phase ≠ .running ∧ l.2.phase ≠ .preempted) → ∃ t, Machine.exec (.fatalError cause) s = .next t
      ∧ (∀ d < 4, (t.die d).fatal = true) ∧ t.mem = (s.setBytes 0x7FF0000000 (dwordBytes (fatalDump s cause))).mem)

/-- R313, R339, R365-R367, R369-R371, R400: host messages, and requests and answers between devices: what is permitted has its effect and
its reply, and what is not is refused and has none. That vaults and tile memory read 0 after STANDBY (log 5), MREAD and MWRITE dword by dword
(log 34), the order of refusals (log 57) and of requests (log 77), what a bound that has passed does not recall (log 58), and which endpoint
a device without firmware serves (log 103) are the model's choice. -/
def Obligations.HostEvents : Prop :=
  ∀ s : State,
    (∀ (m : HostMsg) (rest : List HostMsg), s.hostIn = m :: rest →
      let left := { s with hostIn := rest }
      let may (right : Window → Bool) : Prop :=
        s.bootFailed = true ∨ ∃ e ∈ s.hostEp, Endpoint.v e.2 = true ∧ e.2.d1 = m.eid ∧ right e.2 = true
      (m.wellFormed left = false →
        (m.type = 1 → Machine.exec .hostLaunch s = .next (replyTo left m .denied))
        ∧ (m.type = 3 → Machine.exec .hostMread s = .next (replyTo left m .denied))
        ∧ (m.type = 4 → Machine.exec .hostMwrite s = .next (replyTo left m .denied))
        ∧ (m.type = 5 → Machine.exec .hostPower s = .next (replyTo left m .denied))
        ∧ (m.type = 6 → Machine.exec .hostReset s = .next (replyTo left m .denied)))
      ∧ (m.type ∉ [1, 3, 4, 5, 6] → Machine.exec .hostMessage s = .next (replyTo left m .denied))
      ∧ (m.type = 1 → m.wellFormed left = true →
        let allowed : Prop := may (fun e => Endpoint.launch e && Endpoint.covers e m.low) ∧ isFatal s = false ∧ s.bootFailed = false
          ∧ s.power ≠ 2 ∧ (s.queue m.low).ms = false
        (¬allowed → Machine.exec .hostLaunch s = .next (replyTo left m .denied))
        ∧ (∀ t ok, allowed → wqAppend { left with power := 0 } m.low m.body = (t, ok) →
          Machine.exec .hostLaunch s = .next (replyTo t m (if ok then .accepted else .full))))
      ∧ (m.type = 3 → m.wellFormed left = true →
        (¬may Endpoint.mgmt → Machine.exec .hostMread s = .next (replyTo left m .denied))
        ∧ (may Endpoint.mgmt → Machine.exec .hostMread s = .next (replyTo left m (.data ((List.range (m.low / 8)).flatMap fun k =>
            leBytes 8 (statusRead left (m.place + 8 * k) 8))))))
      ∧ (m.type = 4 → m.wellFormed left = true →
        (¬may Endpoint.fw ∨ s.power = 2 → Machine.exec .hostMwrite s = .next (replyTo left m .denied))
        ∧ (s.bootFailed = true → StPlace.block m.place ≠ 9 → Machine.exec .hostMwrite s = .next (replyTo left m .denied))
        ∧ (may Endpoint.fw → s.power ≠ 2 → (s.bootFailed = true → StPlace.block m.place = 9) → Machine.exec .hostMwrite s
          = .next (replyTo ((List.range (m.low / 8)).foldl (fun s k =>
              statusWrite s (m.place + 8 * k) 8 (leNat ((m.body.drop (8 + 8 * k)).take 8))) left) m .done)))
      ∧ (m.type = 5 → m.wellFormed left = true → s.bootFailed = false →
        (¬may Endpoint.mgmt ∨ (m.place ≠ 0 ∧ launchesAlive s = true) → Machine.exec .hostPower s = .next (replyTo left m .denied))
        ∧ (may Endpoint.mgmt → (m.place = 0 ∨ launchesAlive s = false) → ∃ t, Machine.exec .hostPower s = .next t ∧ t.power = m.place
          ∧ t.hostOut = s.hostOut ++ [(m.eid, .done)] ∧ (m.place ≠ 2 → t.mem = s.mem)
          ∧ ∀ p, m.place = 2 → t.byte p = if Place.space (Place.here p) = 1 ∨ Place.space (Place.here p) = 2 then memDefault else s.byte p))
      ∧ (m.type = 6 → m.wellFormed left = true →
        (¬may Endpoint.fw → Machine.exec .hostReset s = .next (replyTo left m .denied))
        ∧ (may Endpoint.fw → Machine.exec .hostReset s = .next (resetDevice (replyTo left m .done)))))
    ∧ (∀ (q : DltIn) (rest : List DltIn), nextIn s [] s.dltIn = (some q, rest) →
      let taken := { s with dltIn := rest }
      let left := taken.takeTurn q.place
      (∀ n, q.op = .rd n →
        (windowFor s q.place n q.dev = none → Machine.exec .rdReq s = .next (answerTo left q (.err 2)))
        ∧ (∀ c, refusal left q n Window.r (· < 3) = some c → Machine.exec .rdReq s = .next (answerTo left q (.err c)))
        ∧ (refusal left q n Window.r (· < 3) = none → left.eccAt q.place n = false →
          Machine.exec .rdReq s = .next (answerTo (left.corrected q.place n) q (.data (left.bytes q.place n))))
        ∧ (refusal left q n Window.r (· < 3) = none → left.eccAt q.place n = true →
          Machine.exec .rdReq s = .next (answerTo (left.countUe (Place.die q.place)) q .ecc)))
      ∧ (∀ bytes mask, q.op = .wr bytes mask →
        (∀ c, refusal left q bytes.length Window.w (· < 3) = some c → Machine.exec .wrReq s = .next (answerTo left q (.err c)))
        ∧ (refusal left q bytes.length Window.w (· < 3) = none → mask = List.replicate bytes.length true →
          Machine.exec .wrReq s = .next (answerTo (left.setBytes q.place bytes) q .ack)))
      ∧ (∀ cmd posted, q.op = .ku cmd posted →
        (∀ c, refusal taken q 4 Window.a (· == 4) = some c → Machine.exec .kuReq s = .next (answerTo taken q (.err c)))
        ∧ (refusal taken q 4 Window.a (· == 4) = none → Machine.exec .kuReq s
            = .next (ksArrive taken (16384 + Place.tile q.place) cmd (.remote q.id q.dev posted))))
      ∧ (∀ f v cmp, q.op = .at_ f v cmp →
        (∀ c, refusal left q 8 Window.a (· < 3) = some c → Machine.exec .atReq s = .next (answerTo left q (.err c)))
        ∧ (refusal left q 8 Window.a (· < 3) = none → left.eccAt q.place 8 = false →
          let o := BitVec.ofNat 64 (left.read q.place 8)
          Machine.exec .atReq s = .next (answerTo ((left.corrected q.place 8).write q.place 8 (mamoNew f o v cmp).toNat) q (.old o)))))
    ∧ (nextIn s [] s.dltIn = (none, s.dltIn) → Machine.exec .rdReq s = .next s ∧ Machine.exec .wrReq s = .next s
      ∧ Machine.exec .kuReq s = .next s ∧ Machine.exec .atReq s = .next s)
    ∧ (∀ (id : Nat) (a : DltAns) (rest : List (Nat × DltAns)) (q : DltReq), s.dltAnsIn = (id, a) :: rest →
      s.dltOut.find? (·.id == id) = some q →
      (a ≠ .ecc ∨ relFirst s q = false → Machine.exec .dltAnswer s
        = .next (deliverAnswer { s with dltAnsIn := rest, dltOut := s.dltOut.filter (·.id != id) } q a))
      ∧ (a = .ecc → relFirst s q = true → Machine.exec .dltAnswer s = .next s))
    ∧ (∀ (c place : Nat) (op : DltOp) (p : CorePend), (s.core c).pend = some p →
      let ended := s.setCore c { s.core c with pend := none }
      let kept (bs : List Byte) := s.setCore c { s.core c with pend := none, operands := (place, bs) :: (s.core c).operands }
      (∀ bs, coreAnswer s c place op (.data bs) = if p.line then ended.fillLineOf c (place / 64) bs
        else if p.oper then kept bs else s.setCore c ((s.core c).answered (BitVec.ofNat 64 (leNat bs))))
      ∧ (∀ bs mask, op = .wr bs mask → coreAnswer s c place op .ack = if p.oper then kept bs else s.setCore c ((s.core c).answered 0))
      ∧ (∀ v, coreAnswer s c place op (.old v) = s.setCore c ((s.core c).answered v))
      ∧ (∀ code, coreAnswer s c place op (.err code)
          = ended.takeTrap c p.cause (if code = 2 then Detail.perm else Detail.space) p.addr)
      ∧ coreAnswer s c place op .ecc = ended.takeTrap c 7 0 p.addr
      ∧ (∀ id q, s.dltOut.find? (·.id == id) = some q → q.src = .core c →
        (s.round ≤ q.sent + 48000 → Machine.exec (.dltTimeout id) s = .next s)
        ∧ (q.sent + 48000 < s.round → Machine.exec (.dltTimeout id) s
          = .next (({ s with dltOut := s.dltOut.filter (·.id != id) }.setCore c { s.core c with pend := none }).takeTrap c p.cause
              Detail.timeout p.addr))))
    ∧ (∀ (id : Nat) (q : DltReq) (pk route rk : Nat), s.dltOut.find? (·.id == id) = some q → q.src.pk? = some (pk, route) →
      s.regionOf pk = some rk → (s.region rk).frozen = false → (s.region rk).relDue = none → q.sent + 48000 < s.round →
      Machine.exec (.dltTimeout id) s = .next (rollback
        { s with dltOut := s.dltOut.map fun (x : DltReq) => if x.id = id then { x with sent := s.round } else x } rk (.deliveryTimeout 3 route)))

/-- R372, R373, R375, R399, R403-R405, R408: the events of links and of the device: a retrain and its end, a replay, an idle round of the
power controller, reset, loss of supply, an attestation, and the scrubber; what the correction of an error counts (R405-R407). What outlives a
reset (log 32), the layout of an attestation report (log 33), and that errors are counted at the read that finds them (log 40) are the
model's choice. -/
def Obligations.DeviceEvents : Prop :=
  ∀ s : State,
    (∀ l : Nat, let k := s.link l
      (canTrain l k = true → Machine.exec (.linkRetrain l) s
        = .next (s.putLink l { k with training := some s.round, retrains := min (k.retrains + 1) 65535 }))
      ∧ (canTrain l k = false → Machine.exec (.linkRetrain l) s = .next s)
      ∧ (∀ r, k.training = some r →
        Machine.exec (.retrainComplete l) s = .next ((noteRetrain s l).putLink l { k with training := none, fails := 0, up := true })
        ∧ (∀ failed modules, s.round < r + 24000 → Machine.exec (.retrainTimeout l failed modules) s = .next s)
        ∧ (∀ failed modules, r + 24000 ≤ s.round → s.regions = [] → ∃ t, Machine.exec (.retrainTimeout l failed modules) s = .next t
          ∧ (t.link l).training = none ∧ (t.link l).fails = k.fails + 1
          ∧ (k.ctl.toNat / 2 ^ 8 % 2 ^ 8 ≤ k.fails + 1 → (t.link l).up = false ∧ (k.downAt = none → (t.link l).downAt = some s.round))))
      ∧ (∀ r failed modules, k.training = none → k.downAt = some r →
        (s.round < r + 24000 → Machine.exec (.retrainTimeout l failed modules) s = .next s)
        ∧ (r + 24000 ≤ s.round → Machine.exec (.retrainTimeout l failed modules) s
          = .next ((retrainRollbacks s l).setLink l { k with downAt := some s.round })))
      ∧ (linkExists l = true → Machine.exec (.linkLevelReplay l) s
        = .next (s.setLink l { k with replays := min (k.replays + 1) 65535 })))
    ∧ (∀ e : Nat, ∃ t, Machine.exec (.powerLimitIdle (.elem e)) s = .next t ∧ t.agenda = s.agenda.filter (fun i => i ≠ .scheduleRound e)
      ∧ t.elems = s.elems ∧ t.mem = s.mem ∧ t.chans = s.chans)
    ∧ (∃ t, Machine.exec .deviceReset s = .next t ∧ t.round = 0 ∧ t.cores = [(0, Core.atReset 0)] ∧ t.elems = [] ∧ t.planes = []
      ∧ t.pslots = [] ∧ t.islands = [] ∧ t.streamers = [] ∧ t.kstones = [] ∧ t.blockTlb = [] ∧ t.ctxTable = [] ∧ t.queues = []
      ∧ t.dies = [] ∧ t.imageDir = [] ∧ t.evqs = [] ∧ (∀ l, (t.link l).up = false)
      ∧ (∀ p, Place.space (Place.here p) = 2 → t.byte p = 0) ∧ (∀ tile g, (t.tile tile).gmeta.get 0 g = 0)
      ∧ t.attest.index = s.attest.index ∧ (∀ x ∈ s.tiles, x.2.retired = true → (t.tile x.1).retired = true))
    ∧ (∃ t, Machine.exec .powerLoss s = .next t ∧ t.mem = [] ∧ t.cores = [(0, Core.atReset 0)]
      ∧ t.attest.index = s.attest.index ∧ t.attest.left = s.attest.left ∧ t.attest.committed = none)
    ∧ (let a := s.attest
      (a.state ≠ 1 → 0 < a.left → Machine.exec .attestationGo s = .next { s with attest := { a with
        state := 1, committed := some a.index, index := a.index + 1, left := a.left - 1 } })
      ∧ (a.state ≠ 1 → a.left = 0 → Machine.exec .attestationGo s = .next { s with attest := { a with state := 3 } })
      ∧ (a.state = 1 → Machine.exec .attestationGo s = .next s)
      ∧ (∀ i, a.state = 1 → a.committed = some i → ∃ t, Machine.exec .attestationDone s = .next t ∧ t.attest.state = 2
        ∧ t.attest.committed = none ∧ t.attest.index = a.index ∧ t.attest.sig.take 4 = Xmss.beBytes 4 i
        ∧ t.attest.report = attestReport s i))
    ∧ (∀ die vault granule : Nat, let p := vaultPlace die vault granule
      let d := s.die die
      let kept := d.scrubDue.filter (· ≠ p)
      placeValid s p = true →
        (d.vaultAt.get 0 vault = s.round + 1 → Machine.exec (.patrolScrub die vault granule) s
          = .next (s.setDie die { d with scrubDue := kept ++ [p] }))
        ∧ (d.vaultAt.get 0 vault ≠ s.round + 1 →
          (s.eccAt p 16 = true → Machine.exec (.patrolScrub die vault granule) s
            = .next ((s.setDie die { d with scrubDue := kept }).countUe die))
          ∧ (s.eccAt p 16 = false → ∃ t, Machine.exec (.patrolScrub die vault granule) s = .next t ∧ ∀ q, t.byte q = s.byte q)))
    ∧ (∀ p n : Nat, isOwn s p = true →
      let t := s.corrected p n
      let d := s.die (Place.die p)
      let ce := min (d.ce + (s.softIn p n).length) (2 ^ 64 - 1)
      t.mem = s.mem
        ∧ (s.softIn p n = [] → t = s)
        ∧ (s.softIn p n ≠ [] → t.die (Place.die p) = { d with ce := ce, rr := d.rr || decide (2 ^ 20 ≤ ce) }
          ∧ (∀ g ∈ s.softIn p n, t.eccBad.get 0 g = 0) ∧ ∀ g ∉ s.softIn p n, t.eccBad.get 0 g = s.eccBad.get 0 g))
    ∧ (∀ die : Nat,
      let d := s.die die
      let ue := min (d.ue + 1) (2 ^ 64 - 1)
      s.countUe die = s.setDie die { d with ue := ue, rr := d.rr || decide (64 ≤ ue) })

/-- R286, R339, R355, R366, R372, R408: what reset leaves: core 0 of die 0 runs at the ROM entry, every other core is halted at 0, every
register is 0, no unit holds a course or a command, memory lists nothing, and the links are down. -/
def Obligations.ResetState : Prop :=
  let s := State.reset
  s.round = 0 ∧ Memory.wf s.mem = true ∧ (∀ p, s.byte p = 0)
    ∧ (s.core 0).pc = 0x8000C00800000000 ∧ (s.core 0).run = .running
    ∧ (∀ c, c ≠ 0 → (s.core c).pc = 0 ∧ (s.core c).run = .halted)
    ∧ (∀ c (r : BitVec 5), (s.core c).reg r = 0 ∧ (s.core c).p = 0 ∧ (s.core c).tlb = [] ∧ (s.core c).icache = []
      ∧ (s.core c).firmware = true ∧ (s.core c).tvb = 0 ∧ (s.core c).tepc = 0 ∧ (s.core c).mctx = 0)
    ∧ (∀ pk, s.regionOf pk = none ∧ (s.plane pk).occupied = false)
    ∧ (∀ k, (s.kstone k).mapped = false) ∧ (∀ k, (s.queue k).cap = 0) ∧ (∀ k, (s.imageDir.get {} k).v = false)
    ∧ (∀ d k, (s.die d).frame.get 0 k = 0) ∧ (∀ d, evCount s d = 0) ∧ (∀ l, (s.link l).up = false)
    ∧ (∀ tile g, (s.tile tile).gmeta.get 0 g = 0) ∧ s.power = 0 ∧ s.devnum = 0

/-- R176, R183, R300: every step of the device, whichever core, unit or event takes it, keeps memory in its canonical form: addresses
strictly rising, and no entry that equals what an unlisted address reads as. The canonical form itself is the model's (log 5). -/
def Obligations.StepKeepsMemory : Prop :=
  ∀ s t : State, Memory.wf s.mem = true → Machine.step s = .next t → Memory.wf t.mem = true
end

