-- ==== Sys2Proof/Laws/Sparse.lean ====
section
/-! SUPPORT. Laws/Sparse: reads after writes of a map kept by key, and its canonical form, which every write keeps. -/

namespace Sys2Proof.Machine.Sparse

variable {α : Type}

@[simp] theorem get_nil (d : α) (k : Nat) : get d ([] : Sparse α) k = d := rfl

theorem get_insert_self (d : α) (m : Sparse α) (k : Nat) (v : α) : (m.insert k v).get d k = v := by
  induction m with
  | nil => simp [insert, get]
  | cons e m ih =>
    obtain ⟨j, u⟩ := e
    simp only [insert]
    split
    · simp [get]
    · split
      · simp [get]
      · rename_i h _
        simpa [get, h] using ih

theorem get_insert_ne (d : α) (m : Sparse α) {k j : Nat} (v : α) (h : j ≠ k) : (m.insert k v).get d j = m.get d j := by
  have hkj : k ≠ j := fun e => h e.symm
  induction m with
  | nil => simp [insert, get, hkj]
  | cons e m ih =>
    obtain ⟨i, u⟩ := e
    simp only [insert]
    split
    · rename_i hi; subst hi; simp [get, hkj]
    · split
      · simp [get, hkj]
      · simp only [get, ih]

theorem get_erase_ne (d : α) (m : Sparse α) {k j : Nat} (h : j ≠ k) : (m.erase k).get d j = m.get d j := by
  have hkj : k ≠ j := fun e => h e.symm
  induction m with
  | nil => rfl
  | cons e m ih =>
    obtain ⟨i, u⟩ := e
    simp only [erase]
    split
    · rename_i hi; subst hi; simp [get, hkj, ih]
    · simp only [get, ih]

theorem get_erase_self (d : α) (m : Sparse α) (k : Nat) : (m.erase k).get d k = d := by
  induction m with
  | nil => rfl
  | cons e m ih =>
    obtain ⟨i, u⟩ := e
    simp only [erase]
    split
    · exact ih
    · rename_i h; simp only [get, if_neg h, ih]

theorem insert_insert (m : Sparse α) (k : Nat) (v u : α) : (m.insert k v).insert k u = m.insert k u := by
  induction m with
  | nil => simp [insert]
  | cons e m ih =>
    obtain ⟨j, w⟩ := e
    by_cases h : j = k
    · simp [insert, h]
    · by_cases h' : k < j
      · simp [insert, h, h']
      · simp [insert, h, h', ih]

theorem erase_insert (m : Sparse α) (k : Nat) (v : α) : (m.insert k v).erase k = m.erase k := by
  induction m with
  | nil => simp [insert, erase]
  | cons e m ih =>
    obtain ⟨j, w⟩ := e
    by_cases h : j = k
    · simp [insert, erase, h]
    · by_cases h' : k < j
      · simp [insert, erase, h, h']
      · simp [insert, erase, h, h', ih]

theorem erase_erase (m : Sparse α) (k : Nat) : (m.erase k).erase k = m.erase k := by
  induction m with
  | nil => rfl
  | cons e m ih =>
    obtain ⟨j, w⟩ := e
    by_cases h : j = k <;> simp [erase, h, ih]

section put
variable [DecidableEq α]

/-- The second of two writes at one key counts, where the first leaves an entry. -/
theorem put_put (d : α) (m : Sparse α) (k : Nat) {v : α} (u : α) (h : v ≠ d) : (m.put d k v).put d k u = m.put d k u := by
  unfold put
  rw [if_neg h]
  split
  · exact erase_insert m k v
  · exact insert_insert m k v u

theorem get_put_ne (d : α) (m : Sparse α) {k j : Nat} (v : α) (h : j ≠ k) : (m.put d k v).get d j = m.get d j := by
  unfold put; split
  · exact get_erase_ne d m h
  · exact get_insert_ne d m v h

/-- A write is read back. -/
theorem get_put_self (d : α) (m : Sparse α) (k : Nat) (v : α) : (m.put d k v).get d k = v := by
  unfold put; split
  · rename_i h; rw [h]; exact get_erase_self d m k
  · exact get_insert_self d m k v

theorem get_put_of_ne (d : α) (m : Sparse α) (k : Nat) {v : α} (h : v ≠ d) : (m.put d k v).get d k = v := by
  rw [put, if_neg h]; exact get_insert_self d m k v

/-! ### The canonical form -/

theorem wfFrom_mono (d : α) {m : Sparse α} {lo lo' : Nat} (h : lo' ≤ lo) (w : m.wfFrom d lo = true) : m.wfFrom d lo' = true := by
  cases m with
  | nil => rfl
  | cons e m =>
    obtain ⟨j, v⟩ := e
    simp only [wfFrom, Bool.and_eq_true, decide_eq_true_eq] at w ⊢
    exact ⟨⟨Nat.le_trans h w.1.1, w.1.2⟩, w.2⟩

theorem wfFrom_erase (d : α) (k : Nat) {m : Sparse α} {lo : Nat} (w : m.wfFrom d lo = true) : (m.erase k).wfFrom d lo = true := by
  induction m generalizing lo with
  | nil => rfl
  | cons e m ih =>
    obtain ⟨j, v⟩ := e
    simp only [wfFrom, Bool.and_eq_true, decide_eq_true_eq] at w
    simp only [erase]
    split
    · exact wfFrom_mono d (by omega) (ih w.2)
    · simp only [wfFrom, Bool.and_eq_true, decide_eq_true_eq]; exact ⟨w.1, ih w.2⟩

theorem wfFrom_insert (d : α) {k : Nat} {v : α} (hv : v ≠ d) {m : Sparse α} {lo : Nat} (hk : lo ≤ k) (w : m.wfFrom d lo = true) :
    (m.insert k v).wfFrom d lo = true := by
  induction m generalizing lo with
  | nil => simp [insert, wfFrom, hk, hv]
  | cons e m ih =>
    obtain ⟨j, u⟩ := e
    simp only [wfFrom, Bool.and_eq_true, decide_eq_true_eq] at w
    simp only [insert]
    split
    · rename_i h; subst h; simp only [wfFrom, Bool.and_eq_true, decide_eq_true_eq]; exact ⟨⟨hk, hv⟩, w.2⟩
    · split
      · simp only [wfFrom, Bool.and_eq_true, decide_eq_true_eq]; exact ⟨⟨hk, hv⟩, ⟨by omega, w.1.2⟩, w.2⟩
      · simp only [wfFrom, Bool.and_eq_true, decide_eq_true_eq]; exact ⟨w.1, ih (by omega) w.2⟩

/-- A write keeps the canonical form. -/
theorem wf_put (d : α) (k : Nat) (v : α) {m : Sparse α} (w : m.wf d = true) : (m.put d k v).wf d = true := by
  unfold put; split
  · exact wfFrom_erase d k w
  · rename_i h; exact wfFrom_insert d h (Nat.zero_le k) w

theorem wf_erase (d : α) (k : Nat) {m : Sparse α} (w : m.wf d = true) : (m.erase k).wf d = true := wfFrom_erase d k w

theorem wfFrom_filter (d : α) (p : Nat × α → Bool) {m : Sparse α} {lo : Nat} (w : m.wfFrom d lo = true) :
    wfFrom d lo (m.filter p) = true := by
  induction m generalizing lo with
  | nil => rfl
  | cons e m ih =>
    obtain ⟨j, v⟩ := e
    simp only [wfFrom, Bool.and_eq_true, decide_eq_true_eq] at w
    rw [List.filter_cons]
    split
    · simp only [wfFrom, Bool.and_eq_true, decide_eq_true_eq]; exact ⟨w.1, ih w.2⟩
    · exact ih (wfFrom_mono d (by omega) w.2)

/-- Dropping entries keeps the canonical form. -/
theorem wf_filter (d : α) (p : Nat × α → Bool) {m : Sparse α} (w : m.wf d = true) : wf d (m.filter p) = true := wfFrom_filter d p w

end put

end Sys2Proof.Machine.Sparse
end

