-- ==== Sys2Proof/Laws/Core.lean ====
section
/-! SUPPORT. Laws/Core: what the shared operations of a mason core do, once for each: PU, a register write, a word that runs, a word
whose condition is false, a word that is illegal, and a trap. -/

namespace Sys2Proof.Machine

open Sys2Proof.Claims

/-- A core that runs is not a core after reset. -/
theorem Core.ne_default {k : Core} (h : k.run ≠ .halted) : k ≠ {} := fun e => h (by rw [e])

theorem core_setCore_ne (s : State) {c c' : Nat} (k : Core) (h : c' ≠ c) : (s.setCore c k).core c' = s.core c' :=
  Sparse.get_put_ne _ _ _ h

theorem core_setCore (s : State) (c : Nat) (k : Core) : (s.setCore c k).core c = k := Sparse.get_put_self _ _ _ _

theorem setCore_setCore (s : State) (c : Nat) {k : Core} (k' : Core) (h : k.run ≠ .halted) :
    (s.setCore c k).setCore c k' = s.setCore c k' := by
  unfold State.setCore
  simp only [Sparse.put_put _ _ _ _ (Core.ne_default h)]

theorem Core.update_eq (k : Core) (pu : BitVec 5) (b : Bool) : k.update pu b = { k with p := predAfter k.p pu b } := by
  unfold Core.update puWrite predAfter puAction puIndex Elem.setBit
  have h : (BitVec.extractLsb' 0 2 pu).toNat = pu.toNat % 4 := by simp
  have h2 : (BitVec.extractLsb' 2 3 pu).toNat = pu.toNat / 4 := by
    simp [Nat.shiftRight_eq_div_pow]; omega
  rw [h, h2]
  have : pu.toNat % 4 = 0 ∨ pu.toNat % 4 = 1 ∨ pu.toNat % 4 = 2 ∨ pu.toNat % 4 = 3 := by omega
  rcases this with e | e | e | e <;> simp [e]

theorem Core.setReg_eq (k : Core) (d : BitVec 5) (v : Dword) : k.setReg d v = { k with g := regsAfter k.g d v } := by
  unfold Core.setReg regsAfter; split <;> simp

theorem coreWrite_eq (s : State) (c : Nat) (k : Core) (y : Body) (v : Dword) (b : Bool) :
    coreWrite s c k y v b = .done (s.setCore c (coreAfter k y.d v y.pu b)) := by
  simp [coreWrite, coreAfter, Core.update_eq, Core.setReg_eq, Core.advance]

theorem coreNext_eq (s : State) (c : Nat) (y : Body) : coreNext s c y = .done (coreWent s c y.pu) := by
  simp [coreNext, coreWent, Core.update_eq, Core.advance]

/-- A trap with TIP clear, but for ECC, which also counts its error. -/
theorem takeTrap_eq (s : State) (c cause detail : Nat) (v : Dword) (h : Pstat.tip (s.core c).pstat = false) (he : cause ≠ 7) :
    s.takeTrap c cause detail v = trapped s c cause detail v := by
  have hc : ¬cause = Cause.ecc := he
  simp only [State.takeTrap, hc, if_false, h]
  simp [trapped, coreTrapped, Core.trapped, Cause.syscall]

/-- A word that a mason core takes and whose condition holds does what its meaning says, or traps. -/
theorem coreStep_runs {s : State} {c : Nat} {i : Instr} (h : CoreRuns s c i) {x : Body} (hx : i.body? = some x) (k : Core → CoreRes) :
    coreStep i.op x s c k = match k (s.core c) with
      | .done s' => s'
      | .trap cause detail tval => s.takeTrap c cause detail tval := by
  have hl := h.legal
  have hc := h.holds x hx
  unfold Instr.coreIllegal Instr.info? at hl
  rw [hx] at hl
  simp only [Option.bind_some] at hl
  unfold coreStep
  cases ho : opInfo i.op x with
  | none => rw [ho] at hl; simp at hl
  | some o => rw [ho] at hl; simp at hl; simp [hl, hc] <;> rfl

theorem runShared_core {s : State} {c : Nat} {i : Instr} (h : CoreRuns s c i) {x : Body} (hx : i.body? = some x)
    (el : Nat → Nat → OpInfo → State) (co : Nat → Core → CoreRes) :
    runShared i.op x s el co = .next (match co c (s.core c) with
      | .done s' => s'
      | .trap cause detail tval => s.takeTrap c cause detail tval) := by
  unfold runShared; rw [h.here]; simp only []; rw [coreStep_runs h hx]

theorem runCore_core {s : State} {c : Nat} {i : Instr} (h : CoreRuns s c i) {x : Body} (hx : i.body? = some x)
    (co : Nat → Core → CoreRes) :
    runCore i.op x s co = .next (match co c (s.core c) with
      | .done s' => s'
      | .trap cause detail tval => s.takeTrap c cause detail tval) := by
  unfold runCore; rw [h.here]; simp only []; rw [coreStep_runs h hx]

/-- A legal word whose condition is false only advances the PC (R36). -/
theorem coreStep_skips {s : State} {c : Nat} {i : Instr} {x : Body} (hx : i.body? = some x) (hl : i.coreIllegal = false)
    (hc : (s.core c).condHolds x.guard = false) (k : Core → CoreRes) :
    coreStep i.op x s c k = s.setCore c { s.core c with pc := (s.core c).pc + 8, held := false, operands := [] } := by
  unfold Instr.coreIllegal Instr.info? at hl
  rw [hx] at hl
  simp only [Option.bind_some] at hl
  unfold coreStep
  cases ho : opInfo i.op x with
  | none => rw [ho] at hl; simp at hl
  | some o => rw [ho] at hl; simp at hl; simp [hl, hc, Core.advance]

/-- An illegal word traps before its condition is tested (R36, R38). -/
theorem coreStep_illegal {s : State} {c : Nat} {i : Instr} {x : Body} (hx : i.body? = some x) (hl : i.coreIllegal = true)
    (k : Core → CoreRes) : coreStep i.op x s c k = s.takeTrap c 1 0 (x.bits (BitVec.ofNat 7 i.op)) := by
  unfold Instr.coreIllegal Instr.info? at hl
  rw [hx] at hl
  simp only [Option.bind_some] at hl
  unfold coreStep
  cases ho : opInfo i.op x with
  | none => rfl
  | some o => rw [ho] at hl; simp at hl; simp [hl, Cause.illegal]

theorem encode_body {i : Instr} {x : Body} (hx : i.body? = some x) : encode i = x.bits (BitVec.ofNat 7 i.op) := by
  unfold encode; rw [hx]

end Sys2Proof.Machine
end

