-- ==== Sys2Proof/Laws/Elem.lean ====
section
/-! SUPPORT. Laws/Elem: what the shared operations of an element do, once for each: a take, room at an output, and a rule that fires. -/

namespace Sys2Proof.Machine

open Sys2Proof.Claims

/-- A take changes elements, channels and the reports of regions, and nothing else. -/
theorem takeInput_frame (e : Nat) (passed : Option Nat) (s : State) (k : Nat) :
    takeInput e passed s k = { s with
      elems := (takeInput e passed s k).elems
      chans := (takeInput e passed s k).chans
      regions := (takeInput e passed s k).regions } := by
  unfold takeInput
  simp only []
  split
  · split
    · unfold State.report State.modRegionOf; split <;> rfl
    · rfl
  · rfl

theorem foldl_takeInput_frame (e : Nat) (passed : Option Nat) (l : List Nat) : ∀ s : State,
    l.foldl (takeInput e passed) s = { s with
      elems := (l.foldl (takeInput e passed) s).elems
      chans := (l.foldl (takeInput e passed) s).chans
      regions := (l.foldl (takeInput e passed) s).regions } := by
  induction l with
  | nil => intro s; rfl
  | cons k l ih =>
    intro s
    rw [List.foldl_cons, ih, takeInput_frame e passed s k]

theorem takeInputs_frame (s : State) (e : Nat) (dq : BitVec 4) (passed : Option Nat) :
    takeInputs s e dq passed = { s with
      elems := (takeInputs s e dq passed).elems
      chans := (takeInputs s e dq passed).chans
      regions := (takeInputs s e dq passed).regions } := foldl_takeInput_frame e passed _ s

theorem takeInputs_round (s : State) (e : Nat) (dq : BitVec 4) (passed : Option Nat) :
    (takeInputs s e dq passed).round = s.round := by rw [takeInputs_frame]

/-- With room at the output that D names, no rule aborts with OUT-FULL. -/
theorem outFull_of_room {s : State} {e : Nat} {x : Body} (h : Room s e x) (o : OpInfo) : outFull (s.elem e) x o = false := by
  unfold outFull outOf
  by_cases hc : 20 ≤ x.d.toNat ∧ x.d.toNat ≤ 23
  · have h1 : (decide (20 ≤ x.d.toNat) && decide (x.d.toNat ≤ 23)) = true := by simp [hc]
    simp only [h1, if_true]
    by_cases ho : x.guard.orr.getLsbD (x.d.toNat - 20) = true
    · simp [ho]
    · have := h (x.d.toNat - 20) (by omega) (by omega) (by simpa using ho)
      have : (s.elem e).room (x.d.toNat - 20) = true := this
      simp [this]
  · have h1 : (decide (20 ≤ x.d.toNat) && decide (x.d.toNat ≤ 23)) = false := by simp; omega
    simp [h1]

theorem noTrap_zero (s : State) (e : Nat) : NoTrap s e 0 := by simp [NoTrap]

/-- What firing a rule that neither traps nor lacks room does. -/
theorem fireValue_eq {s : State} {e slot : Nat} {o : OpInfo} {x : Body} {res : Word} {cond : Bool} {fl : BitVec 5} {tag : BitVec 3}
    {post : Elem → Elem} {passed : Option Nat} (h : outFull (s.elem e) x o = false) (ht : NoTrap s e fl) :
    fireValue s e slot o x res cond fl tag post passed
      = valueFired s e slot o.lat x (destCode o x) res cond fl tag post passed := by
  unfold fireValue
  unfold NoTrap at ht
  have : (fl &&& (s.elem e).trapEnables != 0) = false := by unfold Elem.trapEnables; simp [ht]
  simp only [this, h]
  unfold valueFired
  simp [takeInputs_round]

/-- A shared or element-only word that an element's scheduler fires does what its meaning says for an element. -/
theorem runShared_elem {s : State} {e slot : Nat} (h : s.cur = .element e slot) {op : Nat} {x : Body} {o : OpInfo}
    (ho : opInfo op x = some o) (el : Nat → Nat → OpInfo → State) (co : Nat → Core → CoreRes) :
    runShared op x s el co = .next (el e slot o) := by
  unfold runShared elemFire; rw [h, ho]

/-- A value at the destination that D names. -/
theorem fireValue_dest {s : State} {e slot : Nat} {x : Body} {res : Word} {cond : Bool} {fl : BitVec 5} {tag : BitVec 3}
    {post : Elem → Elem} {passed : Option Nat} (hroom : Room s e x) (ht : NoTrap s e fl) {o : OpInfo} (lat : Nat) (hl : o.lat = lat)
    (code : BitVec 5) (hd : destCode o x = code) :
    fireValue s e slot o x res cond fl tag post passed = valueFired s e slot lat x code res cond fl tag post passed := by
  rw [fireValue_eq (outFull_of_room hroom o) ht, hl, hd]

/-- An instruction without a destination discards its value, and needs no room. -/
theorem fireValue_discard {s : State} {e slot : Nat} {x : Body} {res : Word} {cond : Bool} {fl : BitVec 5} {tag : BitVec 3}
    {post : Elem → Elem} {passed : Option Nat} (ht : NoTrap s e fl) {o : OpInfo} (lat : Nat) (hl : o.lat = lat)
    (hz : o.d ≠ .dst ∧ o.d ≠ .out ∧ o.d ≠ .acc ∧ o.d ≠ .pair) :
    fireValue s e slot o x res cond fl tag post passed = valueFired s e slot lat x 24 res cond fl tag post passed := by
  have h1 : outFull (s.elem e) x o = false := by
    unfold outFull
    have e1 : (o.d == Use.dst) = false := by simp [hz.1]
    have e2 : (o.d == Use.out) = false := by simp [hz.2.1]
    rw [e1, e2]; split <;> simp
  rw [fireValue_eq h1 ht, hl]
  congr
  unfold destCode
  obtain ⟨a, b, c, d⟩ := hz
  cases h : o.d <;> simp_all

end Sys2Proof.Machine
end

