-- ==== Sys2Proof/Laws/IntAlu.lean ====
section
/-! SUPPORT. Laws/IntAlu: each integer result of the machine is the one that the tables of Safety write from the spec. -/

namespace Sys2Proof.Machine.IntAlu

open Sys2Proof.Claims

theorem add_table (w : Nat) (a b : BitVec w) : add w a b = BitVec.ofNat w (a.toNat + b.toNat) := by
  apply BitVec.eq_of_toNat_eq; simp [add]

theorem sub_table (w : Nat) (a b : BitVec w) : sub w a b = BitVec.ofInt w (a.toInt - b.toInt) := by
  rw [sub]; apply BitVec.eq_of_toInt_eq; simp [BitVec.toInt_sub]

theorem min_table (w : Nat) (a b : BitVec w) : min w a b = BitVec.ofInt w (Min.min a.toInt b.toInt) := by
  unfold min
  rw [BitVec.slt_eq_decide]
  by_cases h : a.toInt < b.toInt
  · rw [Int.min_eq_left (by omega)]; simp [h]
  · rw [Int.min_eq_right (by omega)]; simp [h]

theorem max_table (w : Nat) (a b : BitVec w) : max w a b = BitVec.ofInt w (Max.max a.toInt b.toInt) := by
  unfold max
  rw [BitVec.slt_eq_decide]
  by_cases h : a.toInt < b.toInt
  · rw [Int.max_eq_right (by omega)]; simp [h]
  · rw [Int.max_eq_left (by omega)]; simp [h]

theorem minu_table (w : Nat) (a b : BitVec w) : minu w a b = BitVec.ofNat w (Min.min a.toNat b.toNat) := by
  unfold minu
  rw [BitVec.ult_eq_decide]
  by_cases h : a.toNat < b.toNat
  · rw [Nat.min_eq_left (by omega)]; simp [h]
  · rw [Nat.min_eq_right (by omega)]; simp [h]

theorem maxu_table (w : Nat) (a b : BitVec w) : maxu w a b = BitVec.ofNat w (Max.max a.toNat b.toNat) := by
  unfold maxu
  rw [BitVec.ult_eq_decide]
  by_cases h : a.toNat < b.toNat
  · rw [Nat.max_eq_right (by omega)]; simp [h]
  · rw [Nat.max_eq_left (by omega)]; simp [h]

theorem clamp_eq (lo hi v : Int) (h : lo ≤ hi) : Max.max lo (Min.min v hi) = clamp lo hi v := by
  unfold clamp; split <;> (try split) <;> omega

theorem satS_table (w : Nat) (v : Int) : satS w v = BitVec.ofInt w (clamp (-2 ^ (w - 1)) (2 ^ (w - 1) - 1) v) := by
  have : (0 : Int) < 2 ^ (w - 1) := by positivity
  rw [satS, clamp_eq _ _ _ (by omega)]

theorem satU_table (w : Nat) (v : Int) : satU w v = BitVec.ofInt w (clamp 0 (2 ^ w - 1) v) := by
  have : (0 : Int) < 2 ^ w := by positivity
  rw [satU, clamp_eq _ _ _ (by omega)]

theorem shl_table (w : Nat) (a b : BitVec w) : shl w a b = BitVec.ofNat w (a.toNat * 2 ^ (b.toNat % w)) := by
  apply BitVec.eq_of_toNat_eq; simp [shl, Nat.shiftLeft_eq]

theorem shr_table (w : Nat) (a b : BitVec w) : shr w a b = BitVec.ofNat w (a.toNat / 2 ^ (b.toNat % w)) := by
  apply BitVec.eq_of_toNat_eq
  rw [shr, BitVec.toNat_ushiftRight, BitVec.toNat_ofNat, Nat.shiftRight_eq_div_pow]
  exact (Nat.mod_eq_of_lt (Nat.lt_of_le_of_lt (Nat.div_le_self _ _) a.isLt)).symm

theorem sar_table (w : Nat) (a b : BitVec w) : sar w a b = BitVec.ofInt w (a.toInt / 2 ^ (b.toNat % w)) := by
  simp [sar, BitVec.sshiftRight, Int.shiftRight_eq_div_pow]

theorem shiftRight_self (w : Nat) (a : BitVec w) : a >>> w = 0 := by
  apply BitVec.eq_of_toNat_eq
  simp [Nat.shiftRight_eq_div_pow, Nat.div_eq_of_lt a.isLt]

theorem rol_table (w : Nat) (a b : BitVec w) : rol w a b = a.rotateLeft b.toNat := by
  unfold rol BitVec.rotateLeft BitVec.rotateLeftAux
  dsimp only
  split
  · rename_i h; rw [h]; simp [shiftRight_self]
  · rfl

theorem ror_table (w : Nat) (a b : BitVec w) : ror w a b = a.rotateRight b.toNat := by
  unfold ror BitVec.rotateRight BitVec.rotateRightAux
  dsimp only
  split
  · rename_i h; rw [h]; simp
  · rfl

theorem mul_table (w : Nat) (a b : BitVec w) : mul w a b = BitVec.ofNat w (a.toNat * b.toNat) := by
  apply BitVec.eq_of_toNat_eq; simp [mul]

theorem divu_table (w : Nat) (a b : BitVec w) :
    divu w a b = if b = 0 then BitVec.allOnes w else BitVec.ofNat w (a.toNat / b.toNat) := by
  unfold divu; split
  · rfl
  · apply BitVec.eq_of_toNat_eq
    rw [BitVec.toNat_udiv, BitVec.toNat_ofNat, Nat.mod_eq_of_lt]
    exact Nat.lt_of_le_of_lt (Nat.div_le_self _ _) a.isLt

theorem remu_table (w : Nat) (a b : BitVec w) :
    remu w a b = if b = 0 then a else BitVec.ofNat w (a.toNat % b.toNat) := by
  unfold remu; split
  · rfl
  · apply BitVec.eq_of_toNat_eq
    rw [BitVec.toNat_umod, BitVec.toNat_ofNat]
    exact (Nat.mod_eq_of_lt (Nat.lt_of_le_of_lt (Nat.mod_le _ _) a.isLt)).symm

theorem ofCond_truth (w : Nat) (c : Bool) : ofCond w c = truth w (c = true) := by
  unfold ofCond truth; rfl

theorem truth_congr (w : Nat) {p q : Prop} [Decidable p] [Decidable q] (h : p ↔ q) : truth w p = truth w q := by
  unfold truth; by_cases hp : p <;> simp_all

theorem cmpeq_table (w : Nat) (a b : BitVec w) : cmpeq w a b = truth w (a = b) := by
  rw [cmpeq, ofCond_truth]; exact truth_congr w (by simp)
theorem cmpne_table (w : Nat) (a b : BitVec w) : cmpne w a b = truth w (a ≠ b) := by
  rw [cmpne, ofCond_truth]; exact truth_congr w (by simp)
theorem cmplt_table (w : Nat) (a b : BitVec w) : cmplt w a b = truth w (a.toInt < b.toInt) := by
  rw [cmplt, ofCond_truth]; exact truth_congr w (by simp [BitVec.slt_eq_decide])
theorem cmple_table (w : Nat) (a b : BitVec w) : cmple w a b = truth w (a.toInt ≤ b.toInt) := by
  rw [cmple, ofCond_truth]; exact truth_congr w (by simp [BitVec.sle_eq_decide])
theorem cmpltu_table (w : Nat) (a b : BitVec w) : cmpltu w a b = truth w (a.toNat < b.toNat) := by
  rw [cmpltu, ofCond_truth]; exact truth_congr w (by simp [BitVec.ult_eq_decide])
theorem cmpleu_table (w : Nat) (a b : BitVec w) : cmpleu w a b = truth w (a.toNat ≤ b.toNat) := by
  rw [cmpleu, ofCond_truth]; exact truth_congr w (by simp [BitVec.ule_eq_decide])
theorem tst_table (w : Nat) (a b : BitVec w) : tst w a b = truth w (a &&& b ≠ 0) := by
  rw [tst, ofCond_truth]; exact truth_congr w (by simp)
theorem tstn_table (w : Nat) (a b : BitVec w) : tstn w a b = truth w (a &&& b = 0) := by
  rw [tstn, ofCond_truth]; exact truth_congr w (by simp)

theorem popc_table (w : Nat) (a b : BitVec w) : popc w a b = BitVec.ofNat w (((List.range w).filter a.getLsbD).length) := by
  rw [popc, List.countP_eq_length_filter]

theorem takeWhile_range (p : Nat → Bool) (w k : Nat) (hk : k < w) (h : ∀ j, j < k → p j = true) (hn : p k = false) :
    ((List.range w).takeWhile p).length = k := by
  have e : List.range w = List.range k ++ (List.range' k (w - k)) := by
    have := List.range'_append_1 (s := 0) (m := k) (n := w - k)
    rw [Nat.zero_add, show k + (w - k) = w by omega] at this
    rw [List.range_eq_range', List.range_eq_range', this]
  rw [e, List.takeWhile_append_of_pos (by simpa using h)]
  obtain ⟨m, hm⟩ : ∃ m, w - k = m + 1 := ⟨w - k - 1, by omega⟩
  rw [hm, List.range'_succ, List.takeWhile_cons_of_neg (by simp [hn])]
  simp

theorem clz_table (w : Nat) (a b : BitVec w) :
    clz w a b = BitVec.ofNat w (((List.range w).takeWhile fun k => !a.getMsbD k).length) := by
  unfold clz
  congr 1
  by_cases h : a = 0
  · subst h; simp [List.takeWhile_eq_self_iff.mpr]
  · have hn : a.toNat ≠ 0 := fun e => h (BitVec.eq_of_toNat_eq (by simpa using e))
    have hl : a.toNat.log2 < w := (Nat.log2_lt hn).mpr a.isLt
    rw [if_neg h, takeWhile_range _ w (w - 1 - a.toNat.log2) (by omega)]
    · intro j hj
      have : a.toNat < 2 ^ (w - 1 - j) := (Nat.log2_lt hn).mp (by omega)
      simp [BitVec.getMsbD, BitVec.getLsbD, Nat.testBit_lt_two_pow this]
    · have e : w - 1 - (w - 1 - a.toNat.log2) = a.toNat.log2 := by omega
      have : a.toNat.testBit a.toNat.log2 = true := Nat.testBit_log2 hn
      simp [BitVec.getMsbD, BitVec.getLsbD, e, this]
      omega

theorem find_range' (p : Nat → Bool) (n : Nat) : ∀ k, ((List.range' k n).find? p).getD (k + n)
    = k + ((List.range' k n).takeWhile fun j => !p j).length := by
  induction n with
  | zero => intro k; simp
  | succ n ih =>
    intro k
    rw [List.range'_succ, List.find?_cons, List.takeWhile_cons]
    cases h : p k
    · have := ih (k + 1)
      simp at this ⊢
      rw [show k + (n + 1) = k + 1 + n by omega, this]; omega
    · simp

theorem ctz_table (w : Nat) (a b : BitVec w) :
    ctz w a b = BitVec.ofNat w (((List.range w).takeWhile fun k => !a.getLsbD k).length) := by
  have := find_range' a.getLsbD w 0
  simp only [Nat.zero_add] at this
  rw [ctz, List.range_eq_range', this]

theorem fieldPos_table (w : Nat) (b : BitVec w) : fieldPos w b = (fieldAt w b).1 := rfl
theorem fieldLen_table (w : Nat) (b : BitVec w) : fieldLen w b = (fieldAt w b).2 := by
  unfold fieldLen
  rw [fieldPos_table]
  simp only [fieldAt]
  split <;> split <;> omega

theorem bfxu_table (w : Nat) (a b : BitVec w) :
    bfxu w a b = BitVec.ofNat w (a.toNat / 2 ^ (fieldAt w b).1 % 2 ^ (fieldAt w b).2) := by
  rw [bfxu, fieldPos_table, fieldLen_table]

theorem bfxs_table (w : Nat) (a b : BitVec w) :
    bfxs w a b = (BitVec.ofNat (fieldAt w b).2 (a.toNat / 2 ^ (fieldAt w b).1)).signExtend w := by
  rw [bfxs, fieldPos_table, fieldLen_table]

end Sys2Proof.Machine.IntAlu
end

