-- ==== Sys2Proof/Laws/Issue.lean ====
section
/-! SUPPORT. Laws/Issue: issuing a word is executing the instruction that it decodes to, and a word that decodes to none is rejected. -/

namespace Sys2Proof.Machine

/-- The outcome of what a decoder gives. -/
def issued (w : Dword) (s : State) : Except Reject Instr → Out
  | .ok i => exec i s
  | .error _ => issueReject w s

theorem issueForm_forms (w : Dword) (s : State) (forms : List (EA → Instr)) (meanings : List (EA → State → Out))
    (h : meanings = forms.map fun f x s => exec (f x) s) : issueForm w meanings s = issued w s (formOf w forms) := by
  subst h
  unfold issueForm formOf
  rw [List.getElem?_map]
  cases forms[(fOf w).toNat]? <;> rfl

theorem issueOp_eq (op : Nat) (w : Dword) (s : State) : issueOp op w s = issued w s (decodeOp op w) := by
  unfold issueOp
  split <;> first
    | exact issueForm_forms w s _ _ rfl
    | rfl
    | (unfold decodeOp; split <;> first | rfl | contradiction)

/-- A word does what its instruction does (R25, R35, R36). -/
theorem issueWord_eq (w : Dword) (s : State) : issueWord w s = issued w s (decodeWord w) := issueOp_eq _ w s

end Sys2Proof.Machine
end

