-- ==== Sys2Proof/Laws/Memory.lean ====
section
/-! SUPPORT. Laws/Memory: reads after writes of memory, what a write leaves alone, the little-endian bytes of a value, and the
canonical form, which every memory operation keeps. -/

namespace Sys2Proof.Machine

/-! ### Bytes of a value -/

@[simp] theorem leBytes_length (n v : Nat) : (leBytes n v).length = n := by
  induction n generalizing v with
  | zero => rfl
  | succ n ih => simp [leBytes, ih]

theorem leBytes_get (n : Nat) : ∀ (v k : Nat), k < n → (leBytes n v)[k]? = some (BitVec.ofNat 8 (v / 256 ^ k)) := by
  induction n with
  | zero => intro v k h; omega
  | succ n ih =>
    intro v k h
    cases k with
    | zero => simp [leBytes]
    | succ k =>
      simp only [leBytes, List.getElem?_cons_succ]
      rw [ih (v / 256) k (by omega), Nat.div_div_eq_div_mul, Nat.pow_succ, Nat.mul_comm]

/-- The little-endian bytes of a dword are its fields of eight bits. -/
theorem leBytes_dword (n : Nat) (a : Dword) : leBytes n a.toNat = (List.range n).map fun k => a.extractLsb' (8 * k) 8 := by
  apply List.ext_getElem?
  intro k
  rw [List.getElem?_map]
  by_cases h : k < n
  · rw [leBytes_get n _ k h, List.getElem?_range h, Option.map_some]
    congr 1
    apply BitVec.eq_of_toNat_eq
    rw [BitVec.extractLsb'_toNat, Nat.shiftRight_eq_div_pow, BitVec.toNat_ofNat, Nat.pow_mul]
  · rw [List.getElem?_eq_none (by simpa using h), List.getElem?_eq_none (by simpa using h), Option.map_none]

theorem leNat_leBytes (n v : Nat) : leNat (leBytes n v) = v % 2 ^ (8 * n) := by
  induction n generalizing v with
  | zero => simp [leBytes, leNat, Nat.mod_one]
  | succ n ih =>
    simp only [leBytes, leNat, ih, BitVec.toNat_ofNat]
    rw [show 8 * (n + 1) = 8 + 8 * n by omega, Nat.pow_add, show 2 ^ 8 = 256 from rfl, Nat.mod_mul]

namespace State

/-! ### What a write leaves alone -/

theorem putBytes_mem (s : State) (p : Nat) (bs : List Byte) : s.putBytes p bs = { s with mem := (s.putBytes p bs).mem } := by
  induction bs generalizing s p with
  | nil => rfl
  | cons b bs ih => rw [putBytes, ih]; rfl

/-- A write changes nothing but memory and the uncorrectable errors that it ends. -/
theorem setBytes_only (s : State) (p : Nat) (bs : List Byte) :
    s.setBytes p bs = { s with mem := (s.setBytes p bs).mem, eccBad := (s.setBytes p bs).eccBad } := by
  unfold setBytes cleanse
  rw [putBytes_mem]

theorem byte_cleanse (s : State) (p n q : Nat) : (s.cleanse p n).byte q = s.byte q := rfl

theorem byte_setByte_ne (s : State) {p q : Nat} (v : Byte) (h : Place.here q ≠ Place.here p) : (s.setByte p v).byte q = s.byte q :=
  Sparse.get_put_ne _ _ _ h

theorem byte_setByte (s : State) (p : Nat) (v : Byte) : (s.setByte p v).byte p = v :=
  Sparse.get_put_self _ _ _ _

theorem byte_putBytes_ne (bs : List Byte) : ∀ (s : State) (p q : Nat), (∀ k, k < bs.length → Place.here q ≠ Place.here (p + k)) →
    (s.putBytes p bs).byte q = s.byte q := by
  induction bs with
  | nil => intro s p q _; rfl
  | cons b bs ih =>
    intro s p q h
    rw [putBytes, ih _ _ _ (fun k hk => ?_), byte_setByte_ne]
    · exact h 0 (by simp)
    · have := h (k + 1) (by simp; omega)
      rwa [show p + 1 + k = p + (k + 1) by omega]

/-! ### The canonical form -/

theorem wf_setByte {s : State} (p : Nat) (v : Byte) (w : Memory.wf s.mem = true) : Memory.wf (s.setByte p v).mem = true :=
  Sparse.wf_put _ _ _ w

theorem wf_putBytes (bs : List Byte) : ∀ {s : State} (p : Nat), Memory.wf s.mem = true → Memory.wf (s.putBytes p bs).mem = true := by
  induction bs with
  | nil => intro s p w; exact w
  | cons b bs ih => intro s p w; exact ih _ (wf_setByte p b w)

/-- Every write keeps the canonical form of memory. -/
theorem wf_setBytes {s : State} (p : Nat) (bs : List Byte) (w : Memory.wf s.mem = true) : Memory.wf (s.setBytes p bs).mem = true :=
  wf_putBytes bs p w

theorem wf_write {s : State} (p n v : Nat) (w : Memory.wf s.mem = true) : Memory.wf (s.write p n v).mem = true := wf_setBytes p _ w

/-! ### Reads after writes -/

/-- A byte of what was written, where no two of the written bytes share an address. -/
theorem byte_putBytes (bs : List Byte) : ∀ (s : State) (p k : Nat) (b : Byte),
    (∀ i j, i < bs.length → j < bs.length → Place.here (p + i) = Place.here (p + j) → i = j) → bs[k]? = some b →
    (s.putBytes p bs).byte (p + k) = b := by
  induction bs with
  | nil => intro s p k b _ h; simp at h
  | cons c bs ih =>
    intro s p k b hi h
    cases k with
    | zero =>
      simp at h; subst h
      rw [putBytes, byte_putBytes_ne, Nat.add_zero, byte_setByte _ _ _]
      intro j hj e
      have := hi 0 (j + 1) (by simp) (by simp; omega) (by rw [show p + (j + 1) = p + 1 + j by omega]; exact e)
      omega
    | succ k =>
      rw [putBytes, show p + (k + 1) = p + 1 + k by omega]
      refine ih _ _ _ _ (fun i j hi' hj' e => ?_) (by simpa using h)
      have := hi (i + 1) (j + 1) (by simp; omega) (by simp; omega)
        (by rw [show p + (i + 1) = p + 1 + i by omega, show p + (j + 1) = p + 1 + j by omega]; exact e)
      omega

/-- Fewer than 2^48 places in a row never share an address. -/
theorem here_inj {p i j n : Nat} (hn : n ≤ 2 ^ 48) (hi : i < n) (hj : j < n) (e : Place.here (p + i) = Place.here (p + j)) : i = j := by
  unfold Place.here at e; omega

theorem bytes_setBytes (s : State) (p : Nat) (bs : List Byte) (h : bs.length ≤ 2 ^ 48) :
    (s.setBytes p bs).bytes p bs.length = bs := by
  apply List.ext_getElem?
  intro k
  unfold bytes
  rw [List.getElem?_map]
  by_cases hk : k < bs.length
  · rw [List.getElem?_range hk, List.getElem?_eq_getElem hk]
    simp only [Option.map_some, Option.some.injEq]
    exact byte_putBytes bs s p k _ (fun i j hi hj e => here_inj h hi hj e) (List.getElem?_eq_getElem hk)
  · rw [List.getElem?_eq_none (by simpa using hk), List.getElem?_eq_none (by simpa using hk)]; rfl

/-- A value written is read back, cut to its width. -/
theorem read_write (s : State) (p n v : Nat) (h : n ≤ 2 ^ 48) :
    (s.write p n v).read p n = v % 2 ^ (8 * n) := by
  have := bytes_setBytes s p (leBytes n v) (by simpa using h)
  rw [leBytes_length] at this
  rw [read, write, this, leNat_leBytes]

theorem byte_write_ne (s : State) {p n q : Nat} (v : Nat) (h : ∀ k, k < n → Place.here q ≠ Place.here (p + k)) :
    (s.write p n v).byte q = s.byte q := by
  unfold write setBytes
  rw [byte_cleanse]
  exact byte_putBytes_ne _ _ _ _ (by simpa using h)

theorem byte_write (s : State) (p n v k : Nat) (h : n ≤ 2 ^ 48) (hk : k < n) :
    (s.write p n v).byte (p + k) = BitVec.ofNat 8 (v / 256 ^ k) := by
  unfold write setBytes
  rw [byte_cleanse]
  exact byte_putBytes _ s p k _ (fun i j hi hj e => here_inj h (by simpa using hi) (by simpa using hj) e) (leBytes_get n v k hk)

/-! ### Errors and turns -/

/-- Correcting errors changes only what marks them and the counts of a die. -/
theorem corrected_only (s : State) (p n : Nat) :
    s.corrected p n = { s with dies := (s.corrected p n).dies, eccBad := (s.corrected p n).eccBad } := by
  unfold corrected; split <;> rfl

@[simp] theorem corrected_mem (s : State) (p n : Nat) : (s.corrected p n).mem = s.mem := by rw [corrected_only]

/-- Where no error stands there is none to correct. -/
@[simp] theorem corrected_sound (s : State) (p n : Nat) (h : s.eccBad = []) : s.corrected p n = s := by
  unfold corrected softIn; simp [h, Sparse.keys]

/-- A turn changes only what a tile has served, or when a vault was last accessed. -/
theorem takeTurn_only (s : State) (p : Nat) : s.takeTurn p = { s with tiles := (s.takeTurn p).tiles, dies := (s.takeTurn p).dies } := by
  unfold takeTurn; split
  · rfl
  · split <;> rfl

@[simp] theorem takeTurn_mem (s : State) (p : Nat) : (s.takeTurn p).mem = s.mem := by rw [takeTurn_only]
@[simp] theorem takeTurn_eccBad (s : State) (p : Nat) : (s.takeTurn p).eccBad = s.eccBad := by rw [takeTurn_only]

end State

@[simp] theorem walkCorrected_mem (s : State) (va ctx : Nat) : (walkCorrected s va ctx).mem = s.mem := by
  have fold (l : List Nat) : ∀ s : State, (l.foldl (fun s p => s.corrected p 8) s).mem = s.mem := by
    induction l with
    | nil => exact fun _ => rfl
    | cons p l ih => intro s; rw [List.foldl_cons, ih, State.corrected_mem]
  unfold walkCorrected
  split
  · rfl
  · simp only []; split
    · exact fold _ s
    · rfl

/-- A walk over sound entries corrects nothing. -/
@[simp] theorem walkCorrected_sound (s : State) (va ctx : Nat) (h : s.eccBad = []) : walkCorrected s va ctx = s := by
  simp [walkCorrected, h]

end Sys2Proof.Machine
end

