-- ==== Sys2Proof/Laws/Mason.lean ====
section
/-! SUPPORT. Laws/Mason: what the shared operations of the system instructions and of the address forms do, once for each. -/

namespace Sys2Proof.Machine

open Sys2Proof.Claims

/-- A system operation that gives a result. -/
theorem ret_eq (s : State) (c : Nat) (x : EA) (f : BitVec 3) (v : Nat) :
    ret s c (.ea x f) v = .done (coreWrote s c x.d x.pu (BitVec.ofNat 64 v)) := by
  simp [ret, coreWrite_eq, coreWrote]; rfl

theorem ret_toNat (s : State) (c : Nat) (x : EA) (f : BitVec 3) (v : Dword) :
    ret s c (.ea x f) v.toNat = .done (coreWrote s c x.d x.pu v) := by
  rw [ret_eq]; simp

/-- A system operation that executes does what its meaning says, or traps. -/
theorem runSys_core {s : State} {c : Nat} {i : Instr} {x : EA} {f : BitVec 3} {op : Nat} (h : CoreRuns s c i)
    (hx : i.body? = some (.ea x f)) (ho : i.op = op) (k : Nat → Body → Dword → Dword → CoreRes) :
    runSys op f x s k = .next (match k c (.ea x f) ((s.core c).reg x.a) ((s.core c).reg x.b) with
      | .done s' => s'
      | .trap cause detail tval => s.takeTrap c cause detail tval) := by
  unfold runSys; subst ho
  exact runCore_core h hx _

/-- An operation on a queue whose number is valid. -/
theorem runQueue_core {s : State} {c : Nat} {i : Instr} {x : EA} {f : BitVec 3} (h : CoreRuns s c i) (hx : i.body? = some (.ea x f))
    (ho : i.op = 0x57) (k : Nat → Body → Nat → Dword → CoreRes) (hq : ((s.core c).reg x.a).toNat < 1024) :
    runQueue f x s k = .next (match k c (.ea x f) ((s.core c).reg x.a).toNat ((s.core c).reg x.b) with
      | .done s' => s'
      | .trap cause detail tval => s.takeTrap c cause detail tval) := by
  unfold runQueue
  rw [runSys_core h hx ho]; simp [Nat.not_le.mpr hq]

/-- Translating an address fills at most the core's translation cache: memory stays. -/
theorem translate_mem (s : State) (c va : Nat) : (translate s c va).1.mem = s.mem := by
  unfold translate; simp only []
  split
  · rfl
  · split <;> exact walkCorrected_mem s va _

theorem resolve_mem (s : State) (c : Nat) (a : Dword) (r w : Bool) : (resolve s c a r w).1.mem = s.mem := by
  unfold resolve; simp only []
  split
  · rfl
  · split
    · rfl
    · have := translate_mem s c a.toNat
      generalize translate s c a.toNat = y at *
      obtain ⟨s1, x1⟩ := y
      simp only []
      split <;> exact this

/-- A loaded value, zero- or sign-extended to 64 bits. -/
theorem extend_eq (signed : Bool) (w v : Nat) (hw : w = 1 ∨ w = 2 ∨ w = 4 ∨ w = 8) : extend signed w v =
    if signed then (BitVec.ofNat (8 * w) v).signExtend 64 else (BitVec.ofNat (8 * w) v).setWidth 64 := by
  unfold extend
  cases signed
  · simp only [Bool.false_and, Bool.false_eq_true, if_false]
    apply BitVec.eq_of_toNat_eq
    rcases hw with rfl | rfl | rfl | rfl <;> simp
  · simp only [Bool.true_and, if_true]
    rcases hw with rfl | rfl | rfl | rfl
    all_goals
      apply BitVec.eq_of_toInt_eq
      rw [BitVec.toInt_signExtend_of_le (by omega)]
      simp only [decide_eq_true_eq]
      split
      · rw [BitVec.toInt_ofInt, BitVec.toInt_ofNat']; simp only [Int.bmod]; omega
      · rw [BitVec.toInt_ofNat', BitVec.toInt_ofNat']; simp only [Int.bmod]; omega

end Sys2Proof.Machine
end

