-- ==== Sys2Proof/Laws/State.lean ====
section
/-! SUPPORT. Laws/State: what each update of one record of State leaves alone, one lemma per field, true by definition. -/

namespace Sys2Proof.Machine.State

@[simp] theorem setElem_round (s : State) (k : Nat) (v : Elem) : (s.setElem k v).round = s.round := rfl
@[simp] theorem setElem_agenda (s : State) (k : Nat) (v : Elem) : (s.setElem k v).agenda = s.agenda := rfl
@[simp] theorem setElem_cur (s : State) (k : Nat) (v : Elem) : (s.setElem k v).cur = s.cur := rfl
@[simp] theorem setElem_freeCtr (s : State) (k : Nat) (v : Elem) : (s.setElem k v).freeCtr = s.freeCtr := rfl
@[simp] theorem setElem_cores (s : State) (k : Nat) (v : Elem) : (s.setElem k v).cores = s.cores := rfl
@[simp] theorem setElem_chans (s : State) (k : Nat) (v : Elem) : (s.setElem k v).chans = s.chans := rfl
@[simp] theorem setElem_pslots (s : State) (k : Nat) (v : Elem) : (s.setElem k v).pslots = s.pslots := rfl
@[simp] theorem setElem_homes (s : State) (k : Nat) (v : Elem) : (s.setElem k v).homes = s.homes := rfl
@[simp] theorem setElem_kstones (s : State) (k : Nat) (v : Elem) : (s.setElem k v).kstones = s.kstones := rfl
@[simp] theorem setElem_ags (s : State) (k : Nat) (v : Elem) : (s.setElem k v).ags = s.ags := rfl
@[simp] theorem setElem_reps (s : State) (k : Nat) (v : Elem) : (s.setElem k v).reps = s.reps := rfl
@[simp] theorem setElem_scheds (s : State) (k : Nat) (v : Elem) : (s.setElem k v).scheds = s.scheds := rfl
@[simp] theorem setElem_islands (s : State) (k : Nat) (v : Elem) : (s.setElem k v).islands = s.islands := rfl
@[simp] theorem setElem_streamers (s : State) (k : Nat) (v : Elem) : (s.setElem k v).streamers = s.streamers := rfl
@[simp] theorem setElem_tiles (s : State) (k : Nat) (v : Elem) : (s.setElem k v).tiles = s.tiles := rfl
@[simp] theorem setElem_planes (s : State) (k : Nat) (v : Elem) : (s.setElem k v).planes = s.planes := rfl
@[simp] theorem setElem_mem (s : State) (k : Nat) (v : Elem) : (s.setElem k v).mem = s.mem := rfl
@[simp] theorem setElem_eccBad (s : State) (k : Nat) (v : Elem) : (s.setElem k v).eccBad = s.eccBad := rfl
@[simp] theorem setElem_ctxTable (s : State) (k : Nat) (v : Elem) : (s.setElem k v).ctxTable = s.ctxTable := rfl
@[simp] theorem setElem_blockTlb (s : State) (k : Nat) (v : Elem) : (s.setElem k v).blockTlb = s.blockTlb := rfl
@[simp] theorem setElem_walks (s : State) (k : Nat) (v : Elem) : (s.setElem k v).walks = s.walks := rfl
@[simp] theorem setElem_evqs (s : State) (k : Nat) (v : Elem) : (s.setElem k v).evqs = s.evqs := rfl
@[simp] theorem setElem_dblt (s : State) (k : Nat) (v : Elem) : (s.setElem k v).dblt = s.dblt := rfl
@[simp] theorem setElem_dies (s : State) (k : Nat) (v : Elem) : (s.setElem k v).dies = s.dies := rfl
@[simp] theorem setElem_regions (s : State) (k : Nat) (v : Elem) : (s.setElem k v).regions = s.regions := rfl
@[simp] theorem setElem_launches (s : State) (k : Nat) (v : Elem) : (s.setElem k v).launches = s.launches := rfl
@[simp] theorem setElem_snaps (s : State) (k : Nat) (v : Elem) : (s.setElem k v).snaps = s.snaps := rfl
@[simp] theorem setElem_saved (s : State) (k : Nat) (v : Elem) : (s.setElem k v).saved = s.saved := rfl
@[simp] theorem setElem_queues (s : State) (k : Nat) (v : Elem) : (s.setElem k v).queues = s.queues := rfl
@[simp] theorem setElem_imageDir (s : State) (k : Nat) (v : Elem) : (s.setElem k v).imageDir = s.imageDir := rfl
@[simp] theorem setElem_annex (s : State) (k : Nat) (v : Elem) : (s.setElem k v).annex = s.annex := rfl
@[simp] theorem setElem_devnum (s : State) (k : Nat) (v : Elem) : (s.setElem k v).devnum = s.devnum := rfl
@[simp] theorem setElem_windows (s : State) (k : Nat) (v : Elem) : (s.setElem k v).windows = s.windows := rfl
@[simp] theorem setElem_hostEp (s : State) (k : Nat) (v : Elem) : (s.setElem k v).hostEp = s.hostEp := rfl
@[simp] theorem setElem_links (s : State) (k : Nat) (v : Elem) : (s.setElem k v).links = s.links := rfl
@[simp] theorem setElem_hostIn (s : State) (k : Nat) (v : Elem) : (s.setElem k v).hostIn = s.hostIn := rfl
@[simp] theorem setElem_hostOut (s : State) (k : Nat) (v : Elem) : (s.setElem k v).hostOut = s.hostOut := rfl
@[simp] theorem setElem_dltOut (s : State) (k : Nat) (v : Elem) : (s.setElem k v).dltOut = s.dltOut := rfl
@[simp] theorem setElem_dltAnsIn (s : State) (k : Nat) (v : Elem) : (s.setElem k v).dltAnsIn = s.dltAnsIn := rfl
@[simp] theorem setElem_dltIn (s : State) (k : Nat) (v : Elem) : (s.setElem k v).dltIn = s.dltIn := rfl
@[simp] theorem setElem_dltAnsOut (s : State) (k : Nat) (v : Elem) : (s.setElem k v).dltAnsOut = s.dltAnsOut := rfl
@[simp] theorem setElem_hopsIn (s : State) (k : Nat) (v : Elem) : (s.setElem k v).hopsIn = s.hopsIn := rfl
@[simp] theorem setElem_hopsOut (s : State) (k : Nat) (v : Elem) : (s.setElem k v).hopsOut = s.hopsOut := rfl
@[simp] theorem setElem_power (s : State) (k : Nat) (v : Elem) : (s.setElem k v).power = s.power := rfl
@[simp] theorem setElem_flash (s : State) (k : Nat) (v : Elem) : (s.setElem k v).flash = s.flash := rfl
@[simp] theorem setElem_secBoot (s : State) (k : Nat) (v : Elem) : (s.setElem k v).secBoot = s.secBoot := rfl
@[simp] theorem setElem_bootFailed (s : State) (k : Nat) (v : Elem) : (s.setElem k v).bootFailed = s.bootFailed := rfl
@[simp] theorem setElem_attest (s : State) (k : Nat) (v : Elem) : (s.setElem k v).attest = s.attest := rfl
@[simp] theorem setElem_nextId (s : State) (k : Nat) (v : Elem) : (s.setElem k v).nextId = s.nextId := rfl
@[simp] theorem setElem_nextTicket (s : State) (k : Nat) (v : Elem) : (s.setElem k v).nextTicket = s.nextTicket := rfl

@[simp] theorem setCore_round (s : State) (k : Nat) (v : Core) : (s.setCore k v).round = s.round := rfl
@[simp] theorem setCore_agenda (s : State) (k : Nat) (v : Core) : (s.setCore k v).agenda = s.agenda := rfl
@[simp] theorem setCore_cur (s : State) (k : Nat) (v : Core) : (s.setCore k v).cur = s.cur := rfl
@[simp] theorem setCore_freeCtr (s : State) (k : Nat) (v : Core) : (s.setCore k v).freeCtr = s.freeCtr := rfl
@[simp] theorem setCore_elems (s : State) (k : Nat) (v : Core) : (s.setCore k v).elems = s.elems := rfl
@[simp] theorem setCore_chans (s : State) (k : Nat) (v : Core) : (s.setCore k v).chans = s.chans := rfl
@[simp] theorem setCore_pslots (s : State) (k : Nat) (v : Core) : (s.setCore k v).pslots = s.pslots := rfl
@[simp] theorem setCore_homes (s : State) (k : Nat) (v : Core) : (s.setCore k v).homes = s.homes := rfl
@[simp] theorem setCore_kstones (s : State) (k : Nat) (v : Core) : (s.setCore k v).kstones = s.kstones := rfl
@[simp] theorem setCore_ags (s : State) (k : Nat) (v : Core) : (s.setCore k v).ags = s.ags := rfl
@[simp] theorem setCore_reps (s : State) (k : Nat) (v : Core) : (s.setCore k v).reps = s.reps := rfl
@[simp] theorem setCore_scheds (s : State) (k : Nat) (v : Core) : (s.setCore k v).scheds = s.scheds := rfl
@[simp] theorem setCore_islands (s : State) (k : Nat) (v : Core) : (s.setCore k v).islands = s.islands := rfl
@[simp] theorem setCore_streamers (s : State) (k : Nat) (v : Core) : (s.setCore k v).streamers = s.streamers := rfl
@[simp] theorem setCore_tiles (s : State) (k : Nat) (v : Core) : (s.setCore k v).tiles = s.tiles := rfl
@[simp] theorem setCore_planes (s : State) (k : Nat) (v : Core) : (s.setCore k v).planes = s.planes := rfl
@[simp] theorem setCore_mem (s : State) (k : Nat) (v : Core) : (s.setCore k v).mem = s.mem := rfl
@[simp] theorem setCore_eccBad (s : State) (k : Nat) (v : Core) : (s.setCore k v).eccBad = s.eccBad := rfl
@[simp] theorem setCore_ctxTable (s : State) (k : Nat) (v : Core) : (s.setCore k v).ctxTable = s.ctxTable := rfl
@[simp] theorem setCore_blockTlb (s : State) (k : Nat) (v : Core) : (s.setCore k v).blockTlb = s.blockTlb := rfl
@[simp] theorem setCore_walks (s : State) (k : Nat) (v : Core) : (s.setCore k v).walks = s.walks := rfl
@[simp] theorem setCore_evqs (s : State) (k : Nat) (v : Core) : (s.setCore k v).evqs = s.evqs := rfl
@[simp] theorem setCore_dblt (s : State) (k : Nat) (v : Core) : (s.setCore k v).dblt = s.dblt := rfl
@[simp] theorem setCore_dies (s : State) (k : Nat) (v : Core) : (s.setCore k v).dies = s.dies := rfl
@[simp] theorem setCore_regions (s : State) (k : Nat) (v : Core) : (s.setCore k v).regions = s.regions := rfl
@[simp] theorem setCore_launches (s : State) (k : Nat) (v : Core) : (s.setCore k v).launches = s.launches := rfl
@[simp] theorem setCore_snaps (s : State) (k : Nat) (v : Core) : (s.setCore k v).snaps = s.snaps := rfl
@[simp] theorem setCore_saved (s : State) (k : Nat) (v : Core) : (s.setCore k v).saved = s.saved := rfl
@[simp] theorem setCore_queues (s : State) (k : Nat) (v : Core) : (s.setCore k v).queues = s.queues := rfl
@[simp] theorem setCore_imageDir (s : State) (k : Nat) (v : Core) : (s.setCore k v).imageDir = s.imageDir := rfl
@[simp] theorem setCore_annex (s : State) (k : Nat) (v : Core) : (s.setCore k v).annex = s.annex := rfl
@[simp] theorem setCore_devnum (s : State) (k : Nat) (v : Core) : (s.setCore k v).devnum = s.devnum := rfl
@[simp] theorem setCore_windows (s : State) (k : Nat) (v : Core) : (s.setCore k v).windows = s.windows := rfl
@[simp] theorem setCore_hostEp (s : State) (k : Nat) (v : Core) : (s.setCore k v).hostEp = s.hostEp := rfl
@[simp] theorem setCore_links (s : State) (k : Nat) (v : Core) : (s.setCore k v).links = s.links := rfl
@[simp] theorem setCore_hostIn (s : State) (k : Nat) (v : Core) : (s.setCore k v).hostIn = s.hostIn := rfl
@[simp] theorem setCore_hostOut (s : State) (k : Nat) (v : Core) : (s.setCore k v).hostOut = s.hostOut := rfl
@[simp] theorem setCore_dltOut (s : State) (k : Nat) (v : Core) : (s.setCore k v).dltOut = s.dltOut := rfl
@[simp] theorem setCore_dltAnsIn (s : State) (k : Nat) (v : Core) : (s.setCore k v).dltAnsIn = s.dltAnsIn := rfl
@[simp] theorem setCore_dltIn (s : State) (k : Nat) (v : Core) : (s.setCore k v).dltIn = s.dltIn := rfl
@[simp] theorem setCore_dltAnsOut (s : State) (k : Nat) (v : Core) : (s.setCore k v).dltAnsOut = s.dltAnsOut := rfl
@[simp] theorem setCore_hopsIn (s : State) (k : Nat) (v : Core) : (s.setCore k v).hopsIn = s.hopsIn := rfl
@[simp] theorem setCore_hopsOut (s : State) (k : Nat) (v : Core) : (s.setCore k v).hopsOut = s.hopsOut := rfl
@[simp] theorem setCore_power (s : State) (k : Nat) (v : Core) : (s.setCore k v).power = s.power := rfl
@[simp] theorem setCore_flash (s : State) (k : Nat) (v : Core) : (s.setCore k v).flash = s.flash := rfl
@[simp] theorem setCore_secBoot (s : State) (k : Nat) (v : Core) : (s.setCore k v).secBoot = s.secBoot := rfl
@[simp] theorem setCore_bootFailed (s : State) (k : Nat) (v : Core) : (s.setCore k v).bootFailed = s.bootFailed := rfl
@[simp] theorem setCore_attest (s : State) (k : Nat) (v : Core) : (s.setCore k v).attest = s.attest := rfl
@[simp] theorem setCore_nextId (s : State) (k : Nat) (v : Core) : (s.setCore k v).nextId = s.nextId := rfl
@[simp] theorem setCore_nextTicket (s : State) (k : Nat) (v : Core) : (s.setCore k v).nextTicket = s.nextTicket := rfl

@[simp] theorem setChan_round (s : State) (k : Nat) (v : Chan) : (s.setChan k v).round = s.round := rfl
@[simp] theorem setChan_agenda (s : State) (k : Nat) (v : Chan) : (s.setChan k v).agenda = s.agenda := rfl
@[simp] theorem setChan_cur (s : State) (k : Nat) (v : Chan) : (s.setChan k v).cur = s.cur := rfl
@[simp] theorem setChan_freeCtr (s : State) (k : Nat) (v : Chan) : (s.setChan k v).freeCtr = s.freeCtr := rfl
@[simp] theorem setChan_cores (s : State) (k : Nat) (v : Chan) : (s.setChan k v).cores = s.cores := rfl
@[simp] theorem setChan_elems (s : State) (k : Nat) (v : Chan) : (s.setChan k v).elems = s.elems := rfl
@[simp] theorem setChan_pslots (s : State) (k : Nat) (v : Chan) : (s.setChan k v).pslots = s.pslots := rfl
@[simp] theorem setChan_homes (s : State) (k : Nat) (v : Chan) : (s.setChan k v).homes = s.homes := rfl
@[simp] theorem setChan_kstones (s : State) (k : Nat) (v : Chan) : (s.setChan k v).kstones = s.kstones := rfl
@[simp] theorem setChan_ags (s : State) (k : Nat) (v : Chan) : (s.setChan k v).ags = s.ags := rfl
@[simp] theorem setChan_reps (s : State) (k : Nat) (v : Chan) : (s.setChan k v).reps = s.reps := rfl
@[simp] theorem setChan_scheds (s : State) (k : Nat) (v : Chan) : (s.setChan k v).scheds = s.scheds := rfl
@[simp] theorem setChan_islands (s : State) (k : Nat) (v : Chan) : (s.setChan k v).islands = s.islands := rfl
@[simp] theorem setChan_streamers (s : State) (k : Nat) (v : Chan) : (s.setChan k v).streamers = s.streamers := rfl
@[simp] theorem setChan_tiles (s : State) (k : Nat) (v : Chan) : (s.setChan k v).tiles = s.tiles := rfl
@[simp] theorem setChan_planes (s : State) (k : Nat) (v : Chan) : (s.setChan k v).planes = s.planes := rfl
@[simp] theorem setChan_mem (s : State) (k : Nat) (v : Chan) : (s.setChan k v).mem = s.mem := rfl
@[simp] theorem setChan_eccBad (s : State) (k : Nat) (v : Chan) : (s.setChan k v).eccBad = s.eccBad := rfl
@[simp] theorem setChan_ctxTable (s : State) (k : Nat) (v : Chan) : (s.setChan k v).ctxTable = s.ctxTable := rfl
@[simp] theorem setChan_blockTlb (s : State) (k : Nat) (v : Chan) : (s.setChan k v).blockTlb = s.blockTlb := rfl
@[simp] theorem setChan_walks (s : State) (k : Nat) (v : Chan) : (s.setChan k v).walks = s.walks := rfl
@[simp] theorem setChan_evqs (s : State) (k : Nat) (v : Chan) : (s.setChan k v).evqs = s.evqs := rfl
@[simp] theorem setChan_dblt (s : State) (k : Nat) (v : Chan) : (s.setChan k v).dblt = s.dblt := rfl
@[simp] theorem setChan_dies (s : State) (k : Nat) (v : Chan) : (s.setChan k v).dies = s.dies := rfl
@[simp] theorem setChan_regions (s : State) (k : Nat) (v : Chan) : (s.setChan k v).regions = s.regions := rfl
@[simp] theorem setChan_launches (s : State) (k : Nat) (v : Chan) : (s.setChan k v).launches = s.launches := rfl
@[simp] theorem setChan_snaps (s : State) (k : Nat) (v : Chan) : (s.setChan k v).snaps = s.snaps := rfl
@[simp] theorem setChan_saved (s : State) (k : Nat) (v : Chan) : (s.setChan k v).saved = s.saved := rfl
@[simp] theorem setChan_queues (s : State) (k : Nat) (v : Chan) : (s.setChan k v).queues = s.queues := rfl
@[simp] theorem setChan_imageDir (s : State) (k : Nat) (v : Chan) : (s.setChan k v).imageDir = s.imageDir := rfl
@[simp] theorem setChan_annex (s : State) (k : Nat) (v : Chan) : (s.setChan k v).annex = s.annex := rfl
@[simp] theorem setChan_devnum (s : State) (k : Nat) (v : Chan) : (s.setChan k v).devnum = s.devnum := rfl
@[simp] theorem setChan_windows (s : State) (k : Nat) (v : Chan) : (s.setChan k v).windows = s.windows := rfl
@[simp] theorem setChan_hostEp (s : State) (k : Nat) (v : Chan) : (s.setChan k v).hostEp = s.hostEp := rfl
@[simp] theorem setChan_links (s : State) (k : Nat) (v : Chan) : (s.setChan k v).links = s.links := rfl
@[simp] theorem setChan_hostIn (s : State) (k : Nat) (v : Chan) : (s.setChan k v).hostIn = s.hostIn := rfl
@[simp] theorem setChan_hostOut (s : State) (k : Nat) (v : Chan) : (s.setChan k v).hostOut = s.hostOut := rfl
@[simp] theorem setChan_dltOut (s : State) (k : Nat) (v : Chan) : (s.setChan k v).dltOut = s.dltOut := rfl
@[simp] theorem setChan_dltAnsIn (s : State) (k : Nat) (v : Chan) : (s.setChan k v).dltAnsIn = s.dltAnsIn := rfl
@[simp] theorem setChan_dltIn (s : State) (k : Nat) (v : Chan) : (s.setChan k v).dltIn = s.dltIn := rfl
@[simp] theorem setChan_dltAnsOut (s : State) (k : Nat) (v : Chan) : (s.setChan k v).dltAnsOut = s.dltAnsOut := rfl
@[simp] theorem setChan_hopsIn (s : State) (k : Nat) (v : Chan) : (s.setChan k v).hopsIn = s.hopsIn := rfl
@[simp] theorem setChan_hopsOut (s : State) (k : Nat) (v : Chan) : (s.setChan k v).hopsOut = s.hopsOut := rfl
@[simp] theorem setChan_power (s : State) (k : Nat) (v : Chan) : (s.setChan k v).power = s.power := rfl
@[simp] theorem setChan_flash (s : State) (k : Nat) (v : Chan) : (s.setChan k v).flash = s.flash := rfl
@[simp] theorem setChan_secBoot (s : State) (k : Nat) (v : Chan) : (s.setChan k v).secBoot = s.secBoot := rfl
@[simp] theorem setChan_bootFailed (s : State) (k : Nat) (v : Chan) : (s.setChan k v).bootFailed = s.bootFailed := rfl
@[simp] theorem setChan_attest (s : State) (k : Nat) (v : Chan) : (s.setChan k v).attest = s.attest := rfl
@[simp] theorem setChan_nextId (s : State) (k : Nat) (v : Chan) : (s.setChan k v).nextId = s.nextId := rfl
@[simp] theorem setChan_nextTicket (s : State) (k : Nat) (v : Chan) : (s.setChan k v).nextTicket = s.nextTicket := rfl

@[simp] theorem setEvq_round (s : State) (k : Nat) (v : EvQueue) : (s.setEvq k v).round = s.round := rfl
@[simp] theorem setEvq_agenda (s : State) (k : Nat) (v : EvQueue) : (s.setEvq k v).agenda = s.agenda := rfl
@[simp] theorem setEvq_cur (s : State) (k : Nat) (v : EvQueue) : (s.setEvq k v).cur = s.cur := rfl
@[simp] theorem setEvq_freeCtr (s : State) (k : Nat) (v : EvQueue) : (s.setEvq k v).freeCtr = s.freeCtr := rfl
@[simp] theorem setEvq_cores (s : State) (k : Nat) (v : EvQueue) : (s.setEvq k v).cores = s.cores := rfl
@[simp] theorem setEvq_elems (s : State) (k : Nat) (v : EvQueue) : (s.setEvq k v).elems = s.elems := rfl
@[simp] theorem setEvq_chans (s : State) (k : Nat) (v : EvQueue) : (s.setEvq k v).chans = s.chans := rfl
@[simp] theorem setEvq_pslots (s : State) (k : Nat) (v : EvQueue) : (s.setEvq k v).pslots = s.pslots := rfl
@[simp] theorem setEvq_homes (s : State) (k : Nat) (v : EvQueue) : (s.setEvq k v).homes = s.homes := rfl
@[simp] theorem setEvq_kstones (s : State) (k : Nat) (v : EvQueue) : (s.setEvq k v).kstones = s.kstones := rfl
@[simp] theorem setEvq_ags (s : State) (k : Nat) (v : EvQueue) : (s.setEvq k v).ags = s.ags := rfl
@[simp] theorem setEvq_reps (s : State) (k : Nat) (v : EvQueue) : (s.setEvq k v).reps = s.reps := rfl
@[simp] theorem setEvq_scheds (s : State) (k : Nat) (v : EvQueue) : (s.setEvq k v).scheds = s.scheds := rfl
@[simp] theorem setEvq_islands (s : State) (k : Nat) (v : EvQueue) : (s.setEvq k v).islands = s.islands := rfl
@[simp] theorem setEvq_streamers (s : State) (k : Nat) (v : EvQueue) : (s.setEvq k v).streamers = s.streamers := rfl
@[simp] theorem setEvq_tiles (s : State) (k : Nat) (v : EvQueue) : (s.setEvq k v).tiles = s.tiles := rfl
@[simp] theorem setEvq_planes (s : State) (k : Nat) (v : EvQueue) : (s.setEvq k v).planes = s.planes := rfl
@[simp] theorem setEvq_mem (s : State) (k : Nat) (v : EvQueue) : (s.setEvq k v).mem = s.mem := rfl
@[simp] theorem setEvq_eccBad (s : State) (k : Nat) (v : EvQueue) : (s.setEvq k v).eccBad = s.eccBad := rfl
@[simp] theorem setEvq_ctxTable (s : State) (k : Nat) (v : EvQueue) : (s.setEvq k v).ctxTable = s.ctxTable := rfl
@[simp] theorem setEvq_blockTlb (s : State) (k : Nat) (v : EvQueue) : (s.setEvq k v).blockTlb = s.blockTlb := rfl
@[simp] theorem setEvq_walks (s : State) (k : Nat) (v : EvQueue) : (s.setEvq k v).walks = s.walks := rfl
@[simp] theorem setEvq_dblt (s : State) (k : Nat) (v : EvQueue) : (s.setEvq k v).dblt = s.dblt := rfl
@[simp] theorem setEvq_dies (s : State) (k : Nat) (v : EvQueue) : (s.setEvq k v).dies = s.dies := rfl
@[simp] theorem setEvq_regions (s : State) (k : Nat) (v : EvQueue) : (s.setEvq k v).regions = s.regions := rfl
@[simp] theorem setEvq_launches (s : State) (k : Nat) (v : EvQueue) : (s.setEvq k v).launches = s.launches := rfl
@[simp] theorem setEvq_snaps (s : State) (k : Nat) (v : EvQueue) : (s.setEvq k v).snaps = s.snaps := rfl
@[simp] theorem setEvq_saved (s : State) (k : Nat) (v : EvQueue) : (s.setEvq k v).saved = s.saved := rfl
@[simp] theorem setEvq_queues (s : State) (k : Nat) (v : EvQueue) : (s.setEvq k v).queues = s.queues := rfl
@[simp] theorem setEvq_imageDir (s : State) (k : Nat) (v : EvQueue) : (s.setEvq k v).imageDir = s.imageDir := rfl
@[simp] theorem setEvq_annex (s : State) (k : Nat) (v : EvQueue) : (s.setEvq k v).annex = s.annex := rfl
@[simp] theorem setEvq_devnum (s : State) (k : Nat) (v : EvQueue) : (s.setEvq k v).devnum = s.devnum := rfl
@[simp] theorem setEvq_windows (s : State) (k : Nat) (v : EvQueue) : (s.setEvq k v).windows = s.windows := rfl
@[simp] theorem setEvq_hostEp (s : State) (k : Nat) (v : EvQueue) : (s.setEvq k v).hostEp = s.hostEp := rfl
@[simp] theorem setEvq_links (s : State) (k : Nat) (v : EvQueue) : (s.setEvq k v).links = s.links := rfl
@[simp] theorem setEvq_hostIn (s : State) (k : Nat) (v : EvQueue) : (s.setEvq k v).hostIn = s.hostIn := rfl
@[simp] theorem setEvq_hostOut (s : State) (k : Nat) (v : EvQueue) : (s.setEvq k v).hostOut = s.hostOut := rfl
@[simp] theorem setEvq_dltOut (s : State) (k : Nat) (v : EvQueue) : (s.setEvq k v).dltOut = s.dltOut := rfl
@[simp] theorem setEvq_dltAnsIn (s : State) (k : Nat) (v : EvQueue) : (s.setEvq k v).dltAnsIn = s.dltAnsIn := rfl
@[simp] theorem setEvq_dltIn (s : State) (k : Nat) (v : EvQueue) : (s.setEvq k v).dltIn = s.dltIn := rfl
@[simp] theorem setEvq_dltAnsOut (s : State) (k : Nat) (v : EvQueue) : (s.setEvq k v).dltAnsOut = s.dltAnsOut := rfl
@[simp] theorem setEvq_hopsIn (s : State) (k : Nat) (v : EvQueue) : (s.setEvq k v).hopsIn = s.hopsIn := rfl
@[simp] theorem setEvq_hopsOut (s : State) (k : Nat) (v : EvQueue) : (s.setEvq k v).hopsOut = s.hopsOut := rfl
@[simp] theorem setEvq_power (s : State) (k : Nat) (v : EvQueue) : (s.setEvq k v).power = s.power := rfl
@[simp] theorem setEvq_flash (s : State) (k : Nat) (v : EvQueue) : (s.setEvq k v).flash = s.flash := rfl
@[simp] theorem setEvq_secBoot (s : State) (k : Nat) (v : EvQueue) : (s.setEvq k v).secBoot = s.secBoot := rfl
@[simp] theorem setEvq_bootFailed (s : State) (k : Nat) (v : EvQueue) : (s.setEvq k v).bootFailed = s.bootFailed := rfl
@[simp] theorem setEvq_attest (s : State) (k : Nat) (v : EvQueue) : (s.setEvq k v).attest = s.attest := rfl
@[simp] theorem setEvq_nextId (s : State) (k : Nat) (v : EvQueue) : (s.setEvq k v).nextId = s.nextId := rfl
@[simp] theorem setEvq_nextTicket (s : State) (k : Nat) (v : EvQueue) : (s.setEvq k v).nextTicket = s.nextTicket := rfl

@[simp] theorem setRegion_round (s : State) (k : Nat) (v : Region) : (s.setRegion k v).round = s.round := rfl
@[simp] theorem setRegion_agenda (s : State) (k : Nat) (v : Region) : (s.setRegion k v).agenda = s.agenda := rfl
@[simp] theorem setRegion_cur (s : State) (k : Nat) (v : Region) : (s.setRegion k v).cur = s.cur := rfl
@[simp] theorem setRegion_freeCtr (s : State) (k : Nat) (v : Region) : (s.setRegion k v).freeCtr = s.freeCtr := rfl
@[simp] theorem setRegion_cores (s : State) (k : Nat) (v : Region) : (s.setRegion k v).cores = s.cores := rfl
@[simp] theorem setRegion_elems (s : State) (k : Nat) (v : Region) : (s.setRegion k v).elems = s.elems := rfl
@[simp] theorem setRegion_chans (s : State) (k : Nat) (v : Region) : (s.setRegion k v).chans = s.chans := rfl
@[simp] theorem setRegion_pslots (s : State) (k : Nat) (v : Region) : (s.setRegion k v).pslots = s.pslots := rfl
@[simp] theorem setRegion_homes (s : State) (k : Nat) (v : Region) : (s.setRegion k v).homes = s.homes := rfl
@[simp] theorem setRegion_kstones (s : State) (k : Nat) (v : Region) : (s.setRegion k v).kstones = s.kstones := rfl
@[simp] theorem setRegion_ags (s : State) (k : Nat) (v : Region) : (s.setRegion k v).ags = s.ags := rfl
@[simp] theorem setRegion_reps (s : State) (k : Nat) (v : Region) : (s.setRegion k v).reps = s.reps := rfl
@[simp] theorem setRegion_scheds (s : State) (k : Nat) (v : Region) : (s.setRegion k v).scheds = s.scheds := rfl
@[simp] theorem setRegion_islands (s : State) (k : Nat) (v : Region) : (s.setRegion k v).islands = s.islands := rfl
@[simp] theorem setRegion_streamers (s : State) (k : Nat) (v : Region) : (s.setRegion k v).streamers = s.streamers := rfl
@[simp] theorem setRegion_tiles (s : State) (k : Nat) (v : Region) : (s.setRegion k v).tiles = s.tiles := rfl
@[simp] theorem setRegion_planes (s : State) (k : Nat) (v : Region) : (s.setRegion k v).planes = s.planes := rfl
@[simp] theorem setRegion_mem (s : State) (k : Nat) (v : Region) : (s.setRegion k v).mem = s.mem := rfl
@[simp] theorem setRegion_eccBad (s : State) (k : Nat) (v : Region) : (s.setRegion k v).eccBad = s.eccBad := rfl
@[simp] theorem setRegion_ctxTable (s : State) (k : Nat) (v : Region) : (s.setRegion k v).ctxTable = s.ctxTable := rfl
@[simp] theorem setRegion_blockTlb (s : State) (k : Nat) (v : Region) : (s.setRegion k v).blockTlb = s.blockTlb := rfl
@[simp] theorem setRegion_walks (s : State) (k : Nat) (v : Region) : (s.setRegion k v).walks = s.walks := rfl
@[simp] theorem setRegion_evqs (s : State) (k : Nat) (v : Region) : (s.setRegion k v).evqs = s.evqs := rfl
@[simp] theorem setRegion_dblt (s : State) (k : Nat) (v : Region) : (s.setRegion k v).dblt = s.dblt := rfl
@[simp] theorem setRegion_dies (s : State) (k : Nat) (v : Region) : (s.setRegion k v).dies = s.dies := rfl
@[simp] theorem setRegion_launches (s : State) (k : Nat) (v : Region) : (s.setRegion k v).launches = s.launches := rfl
@[simp] theorem setRegion_snaps (s : State) (k : Nat) (v : Region) : (s.setRegion k v).snaps = s.snaps := rfl
@[simp] theorem setRegion_saved (s : State) (k : Nat) (v : Region) : (s.setRegion k v).saved = s.saved := rfl
@[simp] theorem setRegion_queues (s : State) (k : Nat) (v : Region) : (s.setRegion k v).queues = s.queues := rfl
@[simp] theorem setRegion_imageDir (s : State) (k : Nat) (v : Region) : (s.setRegion k v).imageDir = s.imageDir := rfl
@[simp] theorem setRegion_annex (s : State) (k : Nat) (v : Region) : (s.setRegion k v).annex = s.annex := rfl
@[simp] theorem setRegion_devnum (s : State) (k : Nat) (v : Region) : (s.setRegion k v).devnum = s.devnum := rfl
@[simp] theorem setRegion_windows (s : State) (k : Nat) (v : Region) : (s.setRegion k v).windows = s.windows := rfl
@[simp] theorem setRegion_hostEp (s : State) (k : Nat) (v : Region) : (s.setRegion k v).hostEp = s.hostEp := rfl
@[simp] theorem setRegion_links (s : State) (k : Nat) (v : Region) : (s.setRegion k v).links = s.links := rfl
@[simp] theorem setRegion_hostIn (s : State) (k : Nat) (v : Region) : (s.setRegion k v).hostIn = s.hostIn := rfl
@[simp] theorem setRegion_hostOut (s : State) (k : Nat) (v : Region) : (s.setRegion k v).hostOut = s.hostOut := rfl
@[simp] theorem setRegion_dltOut (s : State) (k : Nat) (v : Region) : (s.setRegion k v).dltOut = s.dltOut := rfl
@[simp] theorem setRegion_dltAnsIn (s : State) (k : Nat) (v : Region) : (s.setRegion k v).dltAnsIn = s.dltAnsIn := rfl
@[simp] theorem setRegion_dltIn (s : State) (k : Nat) (v : Region) : (s.setRegion k v).dltIn = s.dltIn := rfl
@[simp] theorem setRegion_dltAnsOut (s : State) (k : Nat) (v : Region) : (s.setRegion k v).dltAnsOut = s.dltAnsOut := rfl
@[simp] theorem setRegion_hopsIn (s : State) (k : Nat) (v : Region) : (s.setRegion k v).hopsIn = s.hopsIn := rfl
@[simp] theorem setRegion_hopsOut (s : State) (k : Nat) (v : Region) : (s.setRegion k v).hopsOut = s.hopsOut := rfl
@[simp] theorem setRegion_power (s : State) (k : Nat) (v : Region) : (s.setRegion k v).power = s.power := rfl
@[simp] theorem setRegion_flash (s : State) (k : Nat) (v : Region) : (s.setRegion k v).flash = s.flash := rfl
@[simp] theorem setRegion_secBoot (s : State) (k : Nat) (v : Region) : (s.setRegion k v).secBoot = s.secBoot := rfl
@[simp] theorem setRegion_bootFailed (s : State) (k : Nat) (v : Region) : (s.setRegion k v).bootFailed = s.bootFailed := rfl
@[simp] theorem setRegion_attest (s : State) (k : Nat) (v : Region) : (s.setRegion k v).attest = s.attest := rfl
@[simp] theorem setRegion_nextId (s : State) (k : Nat) (v : Region) : (s.setRegion k v).nextId = s.nextId := rfl
@[simp] theorem setRegion_nextTicket (s : State) (k : Nat) (v : Region) : (s.setRegion k v).nextTicket = s.nextTicket := rfl

@[simp] theorem setLaunch_round (s : State) (k : Nat) (v : Launch) : (s.setLaunch k v).round = s.round := rfl
@[simp] theorem setLaunch_agenda (s : State) (k : Nat) (v : Launch) : (s.setLaunch k v).agenda = s.agenda := rfl
@[simp] theorem setLaunch_cur (s : State) (k : Nat) (v : Launch) : (s.setLaunch k v).cur = s.cur := rfl
@[simp] theorem setLaunch_freeCtr (s : State) (k : Nat) (v : Launch) : (s.setLaunch k v).freeCtr = s.freeCtr := rfl
@[simp] theorem setLaunch_cores (s : State) (k : Nat) (v : Launch) : (s.setLaunch k v).cores = s.cores := rfl
@[simp] theorem setLaunch_elems (s : State) (k : Nat) (v : Launch) : (s.setLaunch k v).elems = s.elems := rfl
@[simp] theorem setLaunch_chans (s : State) (k : Nat) (v : Launch) : (s.setLaunch k v).chans = s.chans := rfl
@[simp] theorem setLaunch_pslots (s : State) (k : Nat) (v : Launch) : (s.setLaunch k v).pslots = s.pslots := rfl
@[simp] theorem setLaunch_homes (s : State) (k : Nat) (v : Launch) : (s.setLaunch k v).homes = s.homes := rfl
@[simp] theorem setLaunch_kstones (s : State) (k : Nat) (v : Launch) : (s.setLaunch k v).kstones = s.kstones := rfl
@[simp] theorem setLaunch_ags (s : State) (k : Nat) (v : Launch) : (s.setLaunch k v).ags = s.ags := rfl
@[simp] theorem setLaunch_reps (s : State) (k : Nat) (v : Launch) : (s.setLaunch k v).reps = s.reps := rfl
@[simp] theorem setLaunch_scheds (s : State) (k : Nat) (v : Launch) : (s.setLaunch k v).scheds = s.scheds := rfl
@[simp] theorem setLaunch_islands (s : State) (k : Nat) (v : Launch) : (s.setLaunch k v).islands = s.islands := rfl
@[simp] theorem setLaunch_streamers (s : State) (k : Nat) (v : Launch) : (s.setLaunch k v).streamers = s.streamers := rfl
@[simp] theorem setLaunch_tiles (s : State) (k : Nat) (v : Launch) : (s.setLaunch k v).tiles = s.tiles := rfl
@[simp] theorem setLaunch_planes (s : State) (k : Nat) (v : Launch) : (s.setLaunch k v).planes = s.planes := rfl
@[simp] theorem setLaunch_mem (s : State) (k : Nat) (v : Launch) : (s.setLaunch k v).mem = s.mem := rfl
@[simp] theorem setLaunch_eccBad (s : State) (k : Nat) (v : Launch) : (s.setLaunch k v).eccBad = s.eccBad := rfl
@[simp] theorem setLaunch_ctxTable (s : State) (k : Nat) (v : Launch) : (s.setLaunch k v).ctxTable = s.ctxTable := rfl
@[simp] theorem setLaunch_blockTlb (s : State) (k : Nat) (v : Launch) : (s.setLaunch k v).blockTlb = s.blockTlb := rfl
@[simp] theorem setLaunch_walks (s : State) (k : Nat) (v : Launch) : (s.setLaunch k v).walks = s.walks := rfl
@[simp] theorem setLaunch_evqs (s : State) (k : Nat) (v : Launch) : (s.setLaunch k v).evqs = s.evqs := rfl
@[simp] theorem setLaunch_dblt (s : State) (k : Nat) (v : Launch) : (s.setLaunch k v).dblt = s.dblt := rfl
@[simp] theorem setLaunch_dies (s : State) (k : Nat) (v : Launch) : (s.setLaunch k v).dies = s.dies := rfl
@[simp] theorem setLaunch_regions (s : State) (k : Nat) (v : Launch) : (s.setLaunch k v).regions = s.regions := rfl
@[simp] theorem setLaunch_snaps (s : State) (k : Nat) (v : Launch) : (s.setLaunch k v).snaps = s.snaps := rfl
@[simp] theorem setLaunch_saved (s : State) (k : Nat) (v : Launch) : (s.setLaunch k v).saved = s.saved := rfl
@[simp] theorem setLaunch_queues (s : State) (k : Nat) (v : Launch) : (s.setLaunch k v).queues = s.queues := rfl
@[simp] theorem setLaunch_imageDir (s : State) (k : Nat) (v : Launch) : (s.setLaunch k v).imageDir = s.imageDir := rfl
@[simp] theorem setLaunch_annex (s : State) (k : Nat) (v : Launch) : (s.setLaunch k v).annex = s.annex := rfl
@[simp] theorem setLaunch_devnum (s : State) (k : Nat) (v : Launch) : (s.setLaunch k v).devnum = s.devnum := rfl
@[simp] theorem setLaunch_windows (s : State) (k : Nat) (v : Launch) : (s.setLaunch k v).windows = s.windows := rfl
@[simp] theorem setLaunch_hostEp (s : State) (k : Nat) (v : Launch) : (s.setLaunch k v).hostEp = s.hostEp := rfl
@[simp] theorem setLaunch_links (s : State) (k : Nat) (v : Launch) : (s.setLaunch k v).links = s.links := rfl
@[simp] theorem setLaunch_hostIn (s : State) (k : Nat) (v : Launch) : (s.setLaunch k v).hostIn = s.hostIn := rfl
@[simp] theorem setLaunch_hostOut (s : State) (k : Nat) (v : Launch) : (s.setLaunch k v).hostOut = s.hostOut := rfl
@[simp] theorem setLaunch_dltOut (s : State) (k : Nat) (v : Launch) : (s.setLaunch k v).dltOut = s.dltOut := rfl
@[simp] theorem setLaunch_dltAnsIn (s : State) (k : Nat) (v : Launch) : (s.setLaunch k v).dltAnsIn = s.dltAnsIn := rfl
@[simp] theorem setLaunch_dltIn (s : State) (k : Nat) (v : Launch) : (s.setLaunch k v).dltIn = s.dltIn := rfl
@[simp] theorem setLaunch_dltAnsOut (s : State) (k : Nat) (v : Launch) : (s.setLaunch k v).dltAnsOut = s.dltAnsOut := rfl
@[simp] theorem setLaunch_hopsIn (s : State) (k : Nat) (v : Launch) : (s.setLaunch k v).hopsIn = s.hopsIn := rfl
@[simp] theorem setLaunch_hopsOut (s : State) (k : Nat) (v : Launch) : (s.setLaunch k v).hopsOut = s.hopsOut := rfl
@[simp] theorem setLaunch_power (s : State) (k : Nat) (v : Launch) : (s.setLaunch k v).power = s.power := rfl
@[simp] theorem setLaunch_flash (s : State) (k : Nat) (v : Launch) : (s.setLaunch k v).flash = s.flash := rfl
@[simp] theorem setLaunch_secBoot (s : State) (k : Nat) (v : Launch) : (s.setLaunch k v).secBoot = s.secBoot := rfl
@[simp] theorem setLaunch_bootFailed (s : State) (k : Nat) (v : Launch) : (s.setLaunch k v).bootFailed = s.bootFailed := rfl
@[simp] theorem setLaunch_attest (s : State) (k : Nat) (v : Launch) : (s.setLaunch k v).attest = s.attest := rfl
@[simp] theorem setLaunch_nextId (s : State) (k : Nat) (v : Launch) : (s.setLaunch k v).nextId = s.nextId := rfl
@[simp] theorem setLaunch_nextTicket (s : State) (k : Nat) (v : Launch) : (s.setLaunch k v).nextTicket = s.nextTicket := rfl

@[simp] theorem setHome_round (s : State) (k : Nat) (v : Home) : (s.setHome k v).round = s.round := rfl
@[simp] theorem setHome_agenda (s : State) (k : Nat) (v : Home) : (s.setHome k v).agenda = s.agenda := rfl
@[simp] theorem setHome_cur (s : State) (k : Nat) (v : Home) : (s.setHome k v).cur = s.cur := rfl
@[simp] theorem setHome_freeCtr (s : State) (k : Nat) (v : Home) : (s.setHome k v).freeCtr = s.freeCtr := rfl
@[simp] theorem setHome_cores (s : State) (k : Nat) (v : Home) : (s.setHome k v).cores = s.cores := rfl
@[simp] theorem setHome_elems (s : State) (k : Nat) (v : Home) : (s.setHome k v).elems = s.elems := rfl
@[simp] theorem setHome_chans (s : State) (k : Nat) (v : Home) : (s.setHome k v).chans = s.chans := rfl
@[simp] theorem setHome_pslots (s : State) (k : Nat) (v : Home) : (s.setHome k v).pslots = s.pslots := rfl
@[simp] theorem setHome_kstones (s : State) (k : Nat) (v : Home) : (s.setHome k v).kstones = s.kstones := rfl
@[simp] theorem setHome_ags (s : State) (k : Nat) (v : Home) : (s.setHome k v).ags = s.ags := rfl
@[simp] theorem setHome_reps (s : State) (k : Nat) (v : Home) : (s.setHome k v).reps = s.reps := rfl
@[simp] theorem setHome_scheds (s : State) (k : Nat) (v : Home) : (s.setHome k v).scheds = s.scheds := rfl
@[simp] theorem setHome_islands (s : State) (k : Nat) (v : Home) : (s.setHome k v).islands = s.islands := rfl
@[simp] theorem setHome_streamers (s : State) (k : Nat) (v : Home) : (s.setHome k v).streamers = s.streamers := rfl
@[simp] theorem setHome_tiles (s : State) (k : Nat) (v : Home) : (s.setHome k v).tiles = s.tiles := rfl
@[simp] theorem setHome_planes (s : State) (k : Nat) (v : Home) : (s.setHome k v).planes = s.planes := rfl
@[simp] theorem setHome_mem (s : State) (k : Nat) (v : Home) : (s.setHome k v).mem = s.mem := rfl
@[simp] theorem setHome_eccBad (s : State) (k : Nat) (v : Home) : (s.setHome k v).eccBad = s.eccBad := rfl
@[simp] theorem setHome_ctxTable (s : State) (k : Nat) (v : Home) : (s.setHome k v).ctxTable = s.ctxTable := rfl
@[simp] theorem setHome_blockTlb (s : State) (k : Nat) (v : Home) : (s.setHome k v).blockTlb = s.blockTlb := rfl
@[simp] theorem setHome_walks (s : State) (k : Nat) (v : Home) : (s.setHome k v).walks = s.walks := rfl
@[simp] theorem setHome_evqs (s : State) (k : Nat) (v : Home) : (s.setHome k v).evqs = s.evqs := rfl
@[simp] theorem setHome_dblt (s : State) (k : Nat) (v : Home) : (s.setHome k v).dblt = s.dblt := rfl
@[simp] theorem setHome_dies (s : State) (k : Nat) (v : Home) : (s.setHome k v).dies = s.dies := rfl
@[simp] theorem setHome_regions (s : State) (k : Nat) (v : Home) : (s.setHome k v).regions = s.regions := rfl
@[simp] theorem setHome_launches (s : State) (k : Nat) (v : Home) : (s.setHome k v).launches = s.launches := rfl
@[simp] theorem setHome_snaps (s : State) (k : Nat) (v : Home) : (s.setHome k v).snaps = s.snaps := rfl
@[simp] theorem setHome_saved (s : State) (k : Nat) (v : Home) : (s.setHome k v).saved = s.saved := rfl
@[simp] theorem setHome_queues (s : State) (k : Nat) (v : Home) : (s.setHome k v).queues = s.queues := rfl
@[simp] theorem setHome_imageDir (s : State) (k : Nat) (v : Home) : (s.setHome k v).imageDir = s.imageDir := rfl
@[simp] theorem setHome_annex (s : State) (k : Nat) (v : Home) : (s.setHome k v).annex = s.annex := rfl
@[simp] theorem setHome_devnum (s : State) (k : Nat) (v : Home) : (s.setHome k v).devnum = s.devnum := rfl
@[simp] theorem setHome_windows (s : State) (k : Nat) (v : Home) : (s.setHome k v).windows = s.windows := rfl
@[simp] theorem setHome_hostEp (s : State) (k : Nat) (v : Home) : (s.setHome k v).hostEp = s.hostEp := rfl
@[simp] theorem setHome_links (s : State) (k : Nat) (v : Home) : (s.setHome k v).links = s.links := rfl
@[simp] theorem setHome_hostIn (s : State) (k : Nat) (v : Home) : (s.setHome k v).hostIn = s.hostIn := rfl
@[simp] theorem setHome_hostOut (s : State) (k : Nat) (v : Home) : (s.setHome k v).hostOut = s.hostOut := rfl
@[simp] theorem setHome_dltOut (s : State) (k : Nat) (v : Home) : (s.setHome k v).dltOut = s.dltOut := rfl
@[simp] theorem setHome_dltAnsIn (s : State) (k : Nat) (v : Home) : (s.setHome k v).dltAnsIn = s.dltAnsIn := rfl
@[simp] theorem setHome_dltIn (s : State) (k : Nat) (v : Home) : (s.setHome k v).dltIn = s.dltIn := rfl
@[simp] theorem setHome_dltAnsOut (s : State) (k : Nat) (v : Home) : (s.setHome k v).dltAnsOut = s.dltAnsOut := rfl
@[simp] theorem setHome_hopsIn (s : State) (k : Nat) (v : Home) : (s.setHome k v).hopsIn = s.hopsIn := rfl
@[simp] theorem setHome_hopsOut (s : State) (k : Nat) (v : Home) : (s.setHome k v).hopsOut = s.hopsOut := rfl
@[simp] theorem setHome_power (s : State) (k : Nat) (v : Home) : (s.setHome k v).power = s.power := rfl
@[simp] theorem setHome_flash (s : State) (k : Nat) (v : Home) : (s.setHome k v).flash = s.flash := rfl
@[simp] theorem setHome_secBoot (s : State) (k : Nat) (v : Home) : (s.setHome k v).secBoot = s.secBoot := rfl
@[simp] theorem setHome_bootFailed (s : State) (k : Nat) (v : Home) : (s.setHome k v).bootFailed = s.bootFailed := rfl
@[simp] theorem setHome_attest (s : State) (k : Nat) (v : Home) : (s.setHome k v).attest = s.attest := rfl
@[simp] theorem setHome_nextId (s : State) (k : Nat) (v : Home) : (s.setHome k v).nextId = s.nextId := rfl
@[simp] theorem setHome_nextTicket (s : State) (k : Nat) (v : Home) : (s.setHome k v).nextTicket = s.nextTicket := rfl

@[simp] theorem setKstone_round (s : State) (k : Nat) (v : Keystone) : (s.setKstone k v).round = s.round := rfl
@[simp] theorem setKstone_agenda (s : State) (k : Nat) (v : Keystone) : (s.setKstone k v).agenda = s.agenda := rfl
@[simp] theorem setKstone_cur (s : State) (k : Nat) (v : Keystone) : (s.setKstone k v).cur = s.cur := rfl
@[simp] theorem setKstone_freeCtr (s : State) (k : Nat) (v : Keystone) : (s.setKstone k v).freeCtr = s.freeCtr := rfl
@[simp] theorem setKstone_cores (s : State) (k : Nat) (v : Keystone) : (s.setKstone k v).cores = s.cores := rfl
@[simp] theorem setKstone_elems (s : State) (k : Nat) (v : Keystone) : (s.setKstone k v).elems = s.elems := rfl
@[simp] theorem setKstone_chans (s : State) (k : Nat) (v : Keystone) : (s.setKstone k v).chans = s.chans := rfl
@[simp] theorem setKstone_pslots (s : State) (k : Nat) (v : Keystone) : (s.setKstone k v).pslots = s.pslots := rfl
@[simp] theorem setKstone_homes (s : State) (k : Nat) (v : Keystone) : (s.setKstone k v).homes = s.homes := rfl
@[simp] theorem setKstone_ags (s : State) (k : Nat) (v : Keystone) : (s.setKstone k v).ags = s.ags := rfl
@[simp] theorem setKstone_reps (s : State) (k : Nat) (v : Keystone) : (s.setKstone k v).reps = s.reps := rfl
@[simp] theorem setKstone_scheds (s : State) (k : Nat) (v : Keystone) : (s.setKstone k v).scheds = s.scheds := rfl
@[simp] theorem setKstone_islands (s : State) (k : Nat) (v : Keystone) : (s.setKstone k v).islands = s.islands := rfl
@[simp] theorem setKstone_streamers (s : State) (k : Nat) (v : Keystone) : (s.setKstone k v).streamers = s.streamers := rfl
@[simp] theorem setKstone_tiles (s : State) (k : Nat) (v : Keystone) : (s.setKstone k v).tiles = s.tiles := rfl
@[simp] theorem setKstone_planes (s : State) (k : Nat) (v : Keystone) : (s.setKstone k v).planes = s.planes := rfl
@[simp] theorem setKstone_mem (s : State) (k : Nat) (v : Keystone) : (s.setKstone k v).mem = s.mem := rfl
@[simp] theorem setKstone_eccBad (s : State) (k : Nat) (v : Keystone) : (s.setKstone k v).eccBad = s.eccBad := rfl
@[simp] theorem setKstone_ctxTable (s : State) (k : Nat) (v : Keystone) : (s.setKstone k v).ctxTable = s.ctxTable := rfl
@[simp] theorem setKstone_blockTlb (s : State) (k : Nat) (v : Keystone) : (s.setKstone k v).blockTlb = s.blockTlb := rfl
@[simp] theorem setKstone_walks (s : State) (k : Nat) (v : Keystone) : (s.setKstone k v).walks = s.walks := rfl
@[simp] theorem setKstone_evqs (s : State) (k : Nat) (v : Keystone) : (s.setKstone k v).evqs = s.evqs := rfl
@[simp] theorem setKstone_dblt (s : State) (k : Nat) (v : Keystone) : (s.setKstone k v).dblt = s.dblt := rfl
@[simp] theorem setKstone_dies (s : State) (k : Nat) (v : Keystone) : (s.setKstone k v).dies = s.dies := rfl
@[simp] theorem setKstone_regions (s : State) (k : Nat) (v : Keystone) : (s.setKstone k v).regions = s.regions := rfl
@[simp] theorem setKstone_launches (s : State) (k : Nat) (v : Keystone) : (s.setKstone k v).launches = s.launches := rfl
@[simp] theorem setKstone_snaps (s : State) (k : Nat) (v : Keystone) : (s.setKstone k v).snaps = s.snaps := rfl
@[simp] theorem setKstone_saved (s : State) (k : Nat) (v : Keystone) : (s.setKstone k v).saved = s.saved := rfl
@[simp] theorem setKstone_queues (s : State) (k : Nat) (v : Keystone) : (s.setKstone k v).queues = s.queues := rfl
@[simp] theorem setKstone_imageDir (s : State) (k : Nat) (v : Keystone) : (s.setKstone k v).imageDir = s.imageDir := rfl
@[simp] theorem setKstone_annex (s : State) (k : Nat) (v : Keystone) : (s.setKstone k v).annex = s.annex := rfl
@[simp] theorem setKstone_devnum (s : State) (k : Nat) (v : Keystone) : (s.setKstone k v).devnum = s.devnum := rfl
@[simp] theorem setKstone_windows (s : State) (k : Nat) (v : Keystone) : (s.setKstone k v).windows = s.windows := rfl
@[simp] theorem setKstone_hostEp (s : State) (k : Nat) (v : Keystone) : (s.setKstone k v).hostEp = s.hostEp := rfl
@[simp] theorem setKstone_links (s : State) (k : Nat) (v : Keystone) : (s.setKstone k v).links = s.links := rfl
@[simp] theorem setKstone_hostIn (s : State) (k : Nat) (v : Keystone) : (s.setKstone k v).hostIn = s.hostIn := rfl
@[simp] theorem setKstone_hostOut (s : State) (k : Nat) (v : Keystone) : (s.setKstone k v).hostOut = s.hostOut := rfl
@[simp] theorem setKstone_dltOut (s : State) (k : Nat) (v : Keystone) : (s.setKstone k v).dltOut = s.dltOut := rfl
@[simp] theorem setKstone_dltAnsIn (s : State) (k : Nat) (v : Keystone) : (s.setKstone k v).dltAnsIn = s.dltAnsIn := rfl
@[simp] theorem setKstone_dltIn (s : State) (k : Nat) (v : Keystone) : (s.setKstone k v).dltIn = s.dltIn := rfl
@[simp] theorem setKstone_dltAnsOut (s : State) (k : Nat) (v : Keystone) : (s.setKstone k v).dltAnsOut = s.dltAnsOut := rfl
@[simp] theorem setKstone_hopsIn (s : State) (k : Nat) (v : Keystone) : (s.setKstone k v).hopsIn = s.hopsIn := rfl
@[simp] theorem setKstone_hopsOut (s : State) (k : Nat) (v : Keystone) : (s.setKstone k v).hopsOut = s.hopsOut := rfl
@[simp] theorem setKstone_power (s : State) (k : Nat) (v : Keystone) : (s.setKstone k v).power = s.power := rfl
@[simp] theorem setKstone_flash (s : State) (k : Nat) (v : Keystone) : (s.setKstone k v).flash = s.flash := rfl
@[simp] theorem setKstone_secBoot (s : State) (k : Nat) (v : Keystone) : (s.setKstone k v).secBoot = s.secBoot := rfl
@[simp] theorem setKstone_bootFailed (s : State) (k : Nat) (v : Keystone) : (s.setKstone k v).bootFailed = s.bootFailed := rfl
@[simp] theorem setKstone_attest (s : State) (k : Nat) (v : Keystone) : (s.setKstone k v).attest = s.attest := rfl
@[simp] theorem setKstone_nextId (s : State) (k : Nat) (v : Keystone) : (s.setKstone k v).nextId = s.nextId := rfl
@[simp] theorem setKstone_nextTicket (s : State) (k : Nat) (v : Keystone) : (s.setKstone k v).nextTicket = s.nextTicket := rfl

@[simp] theorem setAg_round (s : State) (k : Nat) (v : Ag) : (s.setAg k v).round = s.round := rfl
@[simp] theorem setAg_agenda (s : State) (k : Nat) (v : Ag) : (s.setAg k v).agenda = s.agenda := rfl
@[simp] theorem setAg_cur (s : State) (k : Nat) (v : Ag) : (s.setAg k v).cur = s.cur := rfl
@[simp] theorem setAg_freeCtr (s : State) (k : Nat) (v : Ag) : (s.setAg k v).freeCtr = s.freeCtr := rfl
@[simp] theorem setAg_cores (s : State) (k : Nat) (v : Ag) : (s.setAg k v).cores = s.cores := rfl
@[simp] theorem setAg_elems (s : State) (k : Nat) (v : Ag) : (s.setAg k v).elems = s.elems := rfl
@[simp] theorem setAg_chans (s : State) (k : Nat) (v : Ag) : (s.setAg k v).chans = s.chans := rfl
@[simp] theorem setAg_pslots (s : State) (k : Nat) (v : Ag) : (s.setAg k v).pslots = s.pslots := rfl
@[simp] theorem setAg_homes (s : State) (k : Nat) (v : Ag) : (s.setAg k v).homes = s.homes := rfl
@[simp] theorem setAg_kstones (s : State) (k : Nat) (v : Ag) : (s.setAg k v).kstones = s.kstones := rfl
@[simp] theorem setAg_reps (s : State) (k : Nat) (v : Ag) : (s.setAg k v).reps = s.reps := rfl
@[simp] theorem setAg_scheds (s : State) (k : Nat) (v : Ag) : (s.setAg k v).scheds = s.scheds := rfl
@[simp] theorem setAg_islands (s : State) (k : Nat) (v : Ag) : (s.setAg k v).islands = s.islands := rfl
@[simp] theorem setAg_streamers (s : State) (k : Nat) (v : Ag) : (s.setAg k v).streamers = s.streamers := rfl
@[simp] theorem setAg_tiles (s : State) (k : Nat) (v : Ag) : (s.setAg k v).tiles = s.tiles := rfl
@[simp] theorem setAg_planes (s : State) (k : Nat) (v : Ag) : (s.setAg k v).planes = s.planes := rfl
@[simp] theorem setAg_mem (s : State) (k : Nat) (v : Ag) : (s.setAg k v).mem = s.mem := rfl
@[simp] theorem setAg_eccBad (s : State) (k : Nat) (v : Ag) : (s.setAg k v).eccBad = s.eccBad := rfl
@[simp] theorem setAg_ctxTable (s : State) (k : Nat) (v : Ag) : (s.setAg k v).ctxTable = s.ctxTable := rfl
@[simp] theorem setAg_blockTlb (s : State) (k : Nat) (v : Ag) : (s.setAg k v).blockTlb = s.blockTlb := rfl
@[simp] theorem setAg_walks (s : State) (k : Nat) (v : Ag) : (s.setAg k v).walks = s.walks := rfl
@[simp] theorem setAg_evqs (s : State) (k : Nat) (v : Ag) : (s.setAg k v).evqs = s.evqs := rfl
@[simp] theorem setAg_dblt (s : State) (k : Nat) (v : Ag) : (s.setAg k v).dblt = s.dblt := rfl
@[simp] theorem setAg_dies (s : State) (k : Nat) (v : Ag) : (s.setAg k v).dies = s.dies := rfl
@[simp] theorem setAg_regions (s : State) (k : Nat) (v : Ag) : (s.setAg k v).regions = s.regions := rfl
@[simp] theorem setAg_launches (s : State) (k : Nat) (v : Ag) : (s.setAg k v).launches = s.launches := rfl
@[simp] theorem setAg_snaps (s : State) (k : Nat) (v : Ag) : (s.setAg k v).snaps = s.snaps := rfl
@[simp] theorem setAg_saved (s : State) (k : Nat) (v : Ag) : (s.setAg k v).saved = s.saved := rfl
@[simp] theorem setAg_queues (s : State) (k : Nat) (v : Ag) : (s.setAg k v).queues = s.queues := rfl
@[simp] theorem setAg_imageDir (s : State) (k : Nat) (v : Ag) : (s.setAg k v).imageDir = s.imageDir := rfl
@[simp] theorem setAg_annex (s : State) (k : Nat) (v : Ag) : (s.setAg k v).annex = s.annex := rfl
@[simp] theorem setAg_devnum (s : State) (k : Nat) (v : Ag) : (s.setAg k v).devnum = s.devnum := rfl
@[simp] theorem setAg_windows (s : State) (k : Nat) (v : Ag) : (s.setAg k v).windows = s.windows := rfl
@[simp] theorem setAg_hostEp (s : State) (k : Nat) (v : Ag) : (s.setAg k v).hostEp = s.hostEp := rfl
@[simp] theorem setAg_links (s : State) (k : Nat) (v : Ag) : (s.setAg k v).links = s.links := rfl
@[simp] theorem setAg_hostIn (s : State) (k : Nat) (v : Ag) : (s.setAg k v).hostIn = s.hostIn := rfl
@[simp] theorem setAg_hostOut (s : State) (k : Nat) (v : Ag) : (s.setAg k v).hostOut = s.hostOut := rfl
@[simp] theorem setAg_dltOut (s : State) (k : Nat) (v : Ag) : (s.setAg k v).dltOut = s.dltOut := rfl
@[simp] theorem setAg_dltAnsIn (s : State) (k : Nat) (v : Ag) : (s.setAg k v).dltAnsIn = s.dltAnsIn := rfl
@[simp] theorem setAg_dltIn (s : State) (k : Nat) (v : Ag) : (s.setAg k v).dltIn = s.dltIn := rfl
@[simp] theorem setAg_dltAnsOut (s : State) (k : Nat) (v : Ag) : (s.setAg k v).dltAnsOut = s.dltAnsOut := rfl
@[simp] theorem setAg_hopsIn (s : State) (k : Nat) (v : Ag) : (s.setAg k v).hopsIn = s.hopsIn := rfl
@[simp] theorem setAg_hopsOut (s : State) (k : Nat) (v : Ag) : (s.setAg k v).hopsOut = s.hopsOut := rfl
@[simp] theorem setAg_power (s : State) (k : Nat) (v : Ag) : (s.setAg k v).power = s.power := rfl
@[simp] theorem setAg_flash (s : State) (k : Nat) (v : Ag) : (s.setAg k v).flash = s.flash := rfl
@[simp] theorem setAg_secBoot (s : State) (k : Nat) (v : Ag) : (s.setAg k v).secBoot = s.secBoot := rfl
@[simp] theorem setAg_bootFailed (s : State) (k : Nat) (v : Ag) : (s.setAg k v).bootFailed = s.bootFailed := rfl
@[simp] theorem setAg_attest (s : State) (k : Nat) (v : Ag) : (s.setAg k v).attest = s.attest := rfl
@[simp] theorem setAg_nextId (s : State) (k : Nat) (v : Ag) : (s.setAg k v).nextId = s.nextId := rfl
@[simp] theorem setAg_nextTicket (s : State) (k : Nat) (v : Ag) : (s.setAg k v).nextTicket = s.nextTicket := rfl

@[simp] theorem setRep_round (s : State) (k : Nat) (v : Repeat) : (s.setRep k v).round = s.round := rfl
@[simp] theorem setRep_agenda (s : State) (k : Nat) (v : Repeat) : (s.setRep k v).agenda = s.agenda := rfl
@[simp] theorem setRep_cur (s : State) (k : Nat) (v : Repeat) : (s.setRep k v).cur = s.cur := rfl
@[simp] theorem setRep_freeCtr (s : State) (k : Nat) (v : Repeat) : (s.setRep k v).freeCtr = s.freeCtr := rfl
@[simp] theorem setRep_cores (s : State) (k : Nat) (v : Repeat) : (s.setRep k v).cores = s.cores := rfl
@[simp] theorem setRep_elems (s : State) (k : Nat) (v : Repeat) : (s.setRep k v).elems = s.elems := rfl
@[simp] theorem setRep_chans (s : State) (k : Nat) (v : Repeat) : (s.setRep k v).chans = s.chans := rfl
@[simp] theorem setRep_pslots (s : State) (k : Nat) (v : Repeat) : (s.setRep k v).pslots = s.pslots := rfl
@[simp] theorem setRep_homes (s : State) (k : Nat) (v : Repeat) : (s.setRep k v).homes = s.homes := rfl
@[simp] theorem setRep_kstones (s : State) (k : Nat) (v : Repeat) : (s.setRep k v).kstones = s.kstones := rfl
@[simp] theorem setRep_ags (s : State) (k : Nat) (v : Repeat) : (s.setRep k v).ags = s.ags := rfl
@[simp] theorem setRep_scheds (s : State) (k : Nat) (v : Repeat) : (s.setRep k v).scheds = s.scheds := rfl
@[simp] theorem setRep_islands (s : State) (k : Nat) (v : Repeat) : (s.setRep k v).islands = s.islands := rfl
@[simp] theorem setRep_streamers (s : State) (k : Nat) (v : Repeat) : (s.setRep k v).streamers = s.streamers := rfl
@[simp] theorem setRep_tiles (s : State) (k : Nat) (v : Repeat) : (s.setRep k v).tiles = s.tiles := rfl
@[simp] theorem setRep_planes (s : State) (k : Nat) (v : Repeat) : (s.setRep k v).planes = s.planes := rfl
@[simp] theorem setRep_mem (s : State) (k : Nat) (v : Repeat) : (s.setRep k v).mem = s.mem := rfl
@[simp] theorem setRep_eccBad (s : State) (k : Nat) (v : Repeat) : (s.setRep k v).eccBad = s.eccBad := rfl
@[simp] theorem setRep_ctxTable (s : State) (k : Nat) (v : Repeat) : (s.setRep k v).ctxTable = s.ctxTable := rfl
@[simp] theorem setRep_blockTlb (s : State) (k : Nat) (v : Repeat) : (s.setRep k v).blockTlb = s.blockTlb := rfl
@[simp] theorem setRep_walks (s : State) (k : Nat) (v : Repeat) : (s.setRep k v).walks = s.walks := rfl
@[simp] theorem setRep_evqs (s : State) (k : Nat) (v : Repeat) : (s.setRep k v).evqs = s.evqs := rfl
@[simp] theorem setRep_dblt (s : State) (k : Nat) (v : Repeat) : (s.setRep k v).dblt = s.dblt := rfl
@[simp] theorem setRep_dies (s : State) (k : Nat) (v : Repeat) : (s.setRep k v).dies = s.dies := rfl
@[simp] theorem setRep_regions (s : State) (k : Nat) (v : Repeat) : (s.setRep k v).regions = s.regions := rfl
@[simp] theorem setRep_launches (s : State) (k : Nat) (v : Repeat) : (s.setRep k v).launches = s.launches := rfl
@[simp] theorem setRep_snaps (s : State) (k : Nat) (v : Repeat) : (s.setRep k v).snaps = s.snaps := rfl
@[simp] theorem setRep_saved (s : State) (k : Nat) (v : Repeat) : (s.setRep k v).saved = s.saved := rfl
@[simp] theorem setRep_queues (s : State) (k : Nat) (v : Repeat) : (s.setRep k v).queues = s.queues := rfl
@[simp] theorem setRep_imageDir (s : State) (k : Nat) (v : Repeat) : (s.setRep k v).imageDir = s.imageDir := rfl
@[simp] theorem setRep_annex (s : State) (k : Nat) (v : Repeat) : (s.setRep k v).annex = s.annex := rfl
@[simp] theorem setRep_devnum (s : State) (k : Nat) (v : Repeat) : (s.setRep k v).devnum = s.devnum := rfl
@[simp] theorem setRep_windows (s : State) (k : Nat) (v : Repeat) : (s.setRep k v).windows = s.windows := rfl
@[simp] theorem setRep_hostEp (s : State) (k : Nat) (v : Repeat) : (s.setRep k v).hostEp = s.hostEp := rfl
@[simp] theorem setRep_links (s : State) (k : Nat) (v : Repeat) : (s.setRep k v).links = s.links := rfl
@[simp] theorem setRep_hostIn (s : State) (k : Nat) (v : Repeat) : (s.setRep k v).hostIn = s.hostIn := rfl
@[simp] theorem setRep_hostOut (s : State) (k : Nat) (v : Repeat) : (s.setRep k v).hostOut = s.hostOut := rfl
@[simp] theorem setRep_dltOut (s : State) (k : Nat) (v : Repeat) : (s.setRep k v).dltOut = s.dltOut := rfl
@[simp] theorem setRep_dltAnsIn (s : State) (k : Nat) (v : Repeat) : (s.setRep k v).dltAnsIn = s.dltAnsIn := rfl
@[simp] theorem setRep_dltIn (s : State) (k : Nat) (v : Repeat) : (s.setRep k v).dltIn = s.dltIn := rfl
@[simp] theorem setRep_dltAnsOut (s : State) (k : Nat) (v : Repeat) : (s.setRep k v).dltAnsOut = s.dltAnsOut := rfl
@[simp] theorem setRep_hopsIn (s : State) (k : Nat) (v : Repeat) : (s.setRep k v).hopsIn = s.hopsIn := rfl
@[simp] theorem setRep_hopsOut (s : State) (k : Nat) (v : Repeat) : (s.setRep k v).hopsOut = s.hopsOut := rfl
@[simp] theorem setRep_power (s : State) (k : Nat) (v : Repeat) : (s.setRep k v).power = s.power := rfl
@[simp] theorem setRep_flash (s : State) (k : Nat) (v : Repeat) : (s.setRep k v).flash = s.flash := rfl
@[simp] theorem setRep_secBoot (s : State) (k : Nat) (v : Repeat) : (s.setRep k v).secBoot = s.secBoot := rfl
@[simp] theorem setRep_bootFailed (s : State) (k : Nat) (v : Repeat) : (s.setRep k v).bootFailed = s.bootFailed := rfl
@[simp] theorem setRep_attest (s : State) (k : Nat) (v : Repeat) : (s.setRep k v).attest = s.attest := rfl
@[simp] theorem setRep_nextId (s : State) (k : Nat) (v : Repeat) : (s.setRep k v).nextId = s.nextId := rfl
@[simp] theorem setRep_nextTicket (s : State) (k : Nat) (v : Repeat) : (s.setRep k v).nextTicket = s.nextTicket := rfl

@[simp] theorem setSched_round (s : State) (k : Nat) (v : SchedNode) : (s.setSched k v).round = s.round := rfl
@[simp] theorem setSched_agenda (s : State) (k : Nat) (v : SchedNode) : (s.setSched k v).agenda = s.agenda := rfl
@[simp] theorem setSched_cur (s : State) (k : Nat) (v : SchedNode) : (s.setSched k v).cur = s.cur := rfl
@[simp] theorem setSched_freeCtr (s : State) (k : Nat) (v : SchedNode) : (s.setSched k v).freeCtr = s.freeCtr := rfl
@[simp] theorem setSched_cores (s : State) (k : Nat) (v : SchedNode) : (s.setSched k v).cores = s.cores := rfl
@[simp] theorem setSched_elems (s : State) (k : Nat) (v : SchedNode) : (s.setSched k v).elems = s.elems := rfl
@[simp] theorem setSched_chans (s : State) (k : Nat) (v : SchedNode) : (s.setSched k v).chans = s.chans := rfl
@[simp] theorem setSched_pslots (s : State) (k : Nat) (v : SchedNode) : (s.setSched k v).pslots = s.pslots := rfl
@[simp] theorem setSched_homes (s : State) (k : Nat) (v : SchedNode) : (s.setSched k v).homes = s.homes := rfl
@[simp] theorem setSched_kstones (s : State) (k : Nat) (v : SchedNode) : (s.setSched k v).kstones = s.kstones := rfl
@[simp] theorem setSched_ags (s : State) (k : Nat) (v : SchedNode) : (s.setSched k v).ags = s.ags := rfl
@[simp] theorem setSched_reps (s : State) (k : Nat) (v : SchedNode) : (s.setSched k v).reps = s.reps := rfl
@[simp] theorem setSched_islands (s : State) (k : Nat) (v : SchedNode) : (s.setSched k v).islands = s.islands := rfl
@[simp] theorem setSched_streamers (s : State) (k : Nat) (v : SchedNode) : (s.setSched k v).streamers = s.streamers := rfl
@[simp] theorem setSched_tiles (s : State) (k : Nat) (v : SchedNode) : (s.setSched k v).tiles = s.tiles := rfl
@[simp] theorem setSched_planes (s : State) (k : Nat) (v : SchedNode) : (s.setSched k v).planes = s.planes := rfl
@[simp] theorem setSched_mem (s : State) (k : Nat) (v : SchedNode) : (s.setSched k v).mem = s.mem := rfl
@[simp] theorem setSched_eccBad (s : State) (k : Nat) (v : SchedNode) : (s.setSched k v).eccBad = s.eccBad := rfl
@[simp] theorem setSched_ctxTable (s : State) (k : Nat) (v : SchedNode) : (s.setSched k v).ctxTable = s.ctxTable := rfl
@[simp] theorem setSched_blockTlb (s : State) (k : Nat) (v : SchedNode) : (s.setSched k v).blockTlb = s.blockTlb := rfl
@[simp] theorem setSched_walks (s : State) (k : Nat) (v : SchedNode) : (s.setSched k v).walks = s.walks := rfl
@[simp] theorem setSched_evqs (s : State) (k : Nat) (v : SchedNode) : (s.setSched k v).evqs = s.evqs := rfl
@[simp] theorem setSched_dblt (s : State) (k : Nat) (v : SchedNode) : (s.setSched k v).dblt = s.dblt := rfl
@[simp] theorem setSched_dies (s : State) (k : Nat) (v : SchedNode) : (s.setSched k v).dies = s.dies := rfl
@[simp] theorem setSched_regions (s : State) (k : Nat) (v : SchedNode) : (s.setSched k v).regions = s.regions := rfl
@[simp] theorem setSched_launches (s : State) (k : Nat) (v : SchedNode) : (s.setSched k v).launches = s.launches := rfl
@[simp] theorem setSched_snaps (s : State) (k : Nat) (v : SchedNode) : (s.setSched k v).snaps = s.snaps := rfl
@[simp] theorem setSched_saved (s : State) (k : Nat) (v : SchedNode) : (s.setSched k v).saved = s.saved := rfl
@[simp] theorem setSched_queues (s : State) (k : Nat) (v : SchedNode) : (s.setSched k v).queues = s.queues := rfl
@[simp] theorem setSched_imageDir (s : State) (k : Nat) (v : SchedNode) : (s.setSched k v).imageDir = s.imageDir := rfl
@[simp] theorem setSched_annex (s : State) (k : Nat) (v : SchedNode) : (s.setSched k v).annex = s.annex := rfl
@[simp] theorem setSched_devnum (s : State) (k : Nat) (v : SchedNode) : (s.setSched k v).devnum = s.devnum := rfl
@[simp] theorem setSched_windows (s : State) (k : Nat) (v : SchedNode) : (s.setSched k v).windows = s.windows := rfl
@[simp] theorem setSched_hostEp (s : State) (k : Nat) (v : SchedNode) : (s.setSched k v).hostEp = s.hostEp := rfl
@[simp] theorem setSched_links (s : State) (k : Nat) (v : SchedNode) : (s.setSched k v).links = s.links := rfl
@[simp] theorem setSched_hostIn (s : State) (k : Nat) (v : SchedNode) : (s.setSched k v).hostIn = s.hostIn := rfl
@[simp] theorem setSched_hostOut (s : State) (k : Nat) (v : SchedNode) : (s.setSched k v).hostOut = s.hostOut := rfl
@[simp] theorem setSched_dltOut (s : State) (k : Nat) (v : SchedNode) : (s.setSched k v).dltOut = s.dltOut := rfl
@[simp] theorem setSched_dltAnsIn (s : State) (k : Nat) (v : SchedNode) : (s.setSched k v).dltAnsIn = s.dltAnsIn := rfl
@[simp] theorem setSched_dltIn (s : State) (k : Nat) (v : SchedNode) : (s.setSched k v).dltIn = s.dltIn := rfl
@[simp] theorem setSched_dltAnsOut (s : State) (k : Nat) (v : SchedNode) : (s.setSched k v).dltAnsOut = s.dltAnsOut := rfl
@[simp] theorem setSched_hopsIn (s : State) (k : Nat) (v : SchedNode) : (s.setSched k v).hopsIn = s.hopsIn := rfl
@[simp] theorem setSched_hopsOut (s : State) (k : Nat) (v : SchedNode) : (s.setSched k v).hopsOut = s.hopsOut := rfl
@[simp] theorem setSched_power (s : State) (k : Nat) (v : SchedNode) : (s.setSched k v).power = s.power := rfl
@[simp] theorem setSched_flash (s : State) (k : Nat) (v : SchedNode) : (s.setSched k v).flash = s.flash := rfl
@[simp] theorem setSched_secBoot (s : State) (k : Nat) (v : SchedNode) : (s.setSched k v).secBoot = s.secBoot := rfl
@[simp] theorem setSched_bootFailed (s : State) (k : Nat) (v : SchedNode) : (s.setSched k v).bootFailed = s.bootFailed := rfl
@[simp] theorem setSched_attest (s : State) (k : Nat) (v : SchedNode) : (s.setSched k v).attest = s.attest := rfl
@[simp] theorem setSched_nextId (s : State) (k : Nat) (v : SchedNode) : (s.setSched k v).nextId = s.nextId := rfl
@[simp] theorem setSched_nextTicket (s : State) (k : Nat) (v : SchedNode) : (s.setSched k v).nextTicket = s.nextTicket := rfl

@[simp] theorem setTile_round (s : State) (k : Nat) (v : TileState) : (s.setTile k v).round = s.round := rfl
@[simp] theorem setTile_agenda (s : State) (k : Nat) (v : TileState) : (s.setTile k v).agenda = s.agenda := rfl
@[simp] theorem setTile_cur (s : State) (k : Nat) (v : TileState) : (s.setTile k v).cur = s.cur := rfl
@[simp] theorem setTile_freeCtr (s : State) (k : Nat) (v : TileState) : (s.setTile k v).freeCtr = s.freeCtr := rfl
@[simp] theorem setTile_cores (s : State) (k : Nat) (v : TileState) : (s.setTile k v).cores = s.cores := rfl
@[simp] theorem setTile_elems (s : State) (k : Nat) (v : TileState) : (s.setTile k v).elems = s.elems := rfl
@[simp] theorem setTile_chans (s : State) (k : Nat) (v : TileState) : (s.setTile k v).chans = s.chans := rfl
@[simp] theorem setTile_pslots (s : State) (k : Nat) (v : TileState) : (s.setTile k v).pslots = s.pslots := rfl
@[simp] theorem setTile_homes (s : State) (k : Nat) (v : TileState) : (s.setTile k v).homes = s.homes := rfl
@[simp] theorem setTile_kstones (s : State) (k : Nat) (v : TileState) : (s.setTile k v).kstones = s.kstones := rfl
@[simp] theorem setTile_ags (s : State) (k : Nat) (v : TileState) : (s.setTile k v).ags = s.ags := rfl
@[simp] theorem setTile_reps (s : State) (k : Nat) (v : TileState) : (s.setTile k v).reps = s.reps := rfl
@[simp] theorem setTile_scheds (s : State) (k : Nat) (v : TileState) : (s.setTile k v).scheds = s.scheds := rfl
@[simp] theorem setTile_islands (s : State) (k : Nat) (v : TileState) : (s.setTile k v).islands = s.islands := rfl
@[simp] theorem setTile_streamers (s : State) (k : Nat) (v : TileState) : (s.setTile k v).streamers = s.streamers := rfl
@[simp] theorem setTile_planes (s : State) (k : Nat) (v : TileState) : (s.setTile k v).planes = s.planes := rfl
@[simp] theorem setTile_mem (s : State) (k : Nat) (v : TileState) : (s.setTile k v).mem = s.mem := rfl
@[simp] theorem setTile_eccBad (s : State) (k : Nat) (v : TileState) : (s.setTile k v).eccBad = s.eccBad := rfl
@[simp] theorem setTile_ctxTable (s : State) (k : Nat) (v : TileState) : (s.setTile k v).ctxTable = s.ctxTable := rfl
@[simp] theorem setTile_blockTlb (s : State) (k : Nat) (v : TileState) : (s.setTile k v).blockTlb = s.blockTlb := rfl
@[simp] theorem setTile_walks (s : State) (k : Nat) (v : TileState) : (s.setTile k v).walks = s.walks := rfl
@[simp] theorem setTile_evqs (s : State) (k : Nat) (v : TileState) : (s.setTile k v).evqs = s.evqs := rfl
@[simp] theorem setTile_dblt (s : State) (k : Nat) (v : TileState) : (s.setTile k v).dblt = s.dblt := rfl
@[simp] theorem setTile_dies (s : State) (k : Nat) (v : TileState) : (s.setTile k v).dies = s.dies := rfl
@[simp] theorem setTile_regions (s : State) (k : Nat) (v : TileState) : (s.setTile k v).regions = s.regions := rfl
@[simp] theorem setTile_launches (s : State) (k : Nat) (v : TileState) : (s.setTile k v).launches = s.launches := rfl
@[simp] theorem setTile_snaps (s : State) (k : Nat) (v : TileState) : (s.setTile k v).snaps = s.snaps := rfl
@[simp] theorem setTile_saved (s : State) (k : Nat) (v : TileState) : (s.setTile k v).saved = s.saved := rfl
@[simp] theorem setTile_queues (s : State) (k : Nat) (v : TileState) : (s.setTile k v).queues = s.queues := rfl
@[simp] theorem setTile_imageDir (s : State) (k : Nat) (v : TileState) : (s.setTile k v).imageDir = s.imageDir := rfl
@[simp] theorem setTile_annex (s : State) (k : Nat) (v : TileState) : (s.setTile k v).annex = s.annex := rfl
@[simp] theorem setTile_devnum (s : State) (k : Nat) (v : TileState) : (s.setTile k v).devnum = s.devnum := rfl
@[simp] theorem setTile_windows (s : State) (k : Nat) (v : TileState) : (s.setTile k v).windows = s.windows := rfl
@[simp] theorem setTile_hostEp (s : State) (k : Nat) (v : TileState) : (s.setTile k v).hostEp = s.hostEp := rfl
@[simp] theorem setTile_links (s : State) (k : Nat) (v : TileState) : (s.setTile k v).links = s.links := rfl
@[simp] theorem setTile_hostIn (s : State) (k : Nat) (v : TileState) : (s.setTile k v).hostIn = s.hostIn := rfl
@[simp] theorem setTile_hostOut (s : State) (k : Nat) (v : TileState) : (s.setTile k v).hostOut = s.hostOut := rfl
@[simp] theorem setTile_dltOut (s : State) (k : Nat) (v : TileState) : (s.setTile k v).dltOut = s.dltOut := rfl
@[simp] theorem setTile_dltAnsIn (s : State) (k : Nat) (v : TileState) : (s.setTile k v).dltAnsIn = s.dltAnsIn := rfl
@[simp] theorem setTile_dltIn (s : State) (k : Nat) (v : TileState) : (s.setTile k v).dltIn = s.dltIn := rfl
@[simp] theorem setTile_dltAnsOut (s : State) (k : Nat) (v : TileState) : (s.setTile k v).dltAnsOut = s.dltAnsOut := rfl
@[simp] theorem setTile_hopsIn (s : State) (k : Nat) (v : TileState) : (s.setTile k v).hopsIn = s.hopsIn := rfl
@[simp] theorem setTile_hopsOut (s : State) (k : Nat) (v : TileState) : (s.setTile k v).hopsOut = s.hopsOut := rfl
@[simp] theorem setTile_power (s : State) (k : Nat) (v : TileState) : (s.setTile k v).power = s.power := rfl
@[simp] theorem setTile_flash (s : State) (k : Nat) (v : TileState) : (s.setTile k v).flash = s.flash := rfl
@[simp] theorem setTile_secBoot (s : State) (k : Nat) (v : TileState) : (s.setTile k v).secBoot = s.secBoot := rfl
@[simp] theorem setTile_bootFailed (s : State) (k : Nat) (v : TileState) : (s.setTile k v).bootFailed = s.bootFailed := rfl
@[simp] theorem setTile_attest (s : State) (k : Nat) (v : TileState) : (s.setTile k v).attest = s.attest := rfl
@[simp] theorem setTile_nextId (s : State) (k : Nat) (v : TileState) : (s.setTile k v).nextId = s.nextId := rfl
@[simp] theorem setTile_nextTicket (s : State) (k : Nat) (v : TileState) : (s.setTile k v).nextTicket = s.nextTicket := rfl

@[simp] theorem setIsland_round (s : State) (k : Nat) (v : Island) : (s.setIsland k v).round = s.round := rfl
@[simp] theorem setIsland_agenda (s : State) (k : Nat) (v : Island) : (s.setIsland k v).agenda = s.agenda := rfl
@[simp] theorem setIsland_cur (s : State) (k : Nat) (v : Island) : (s.setIsland k v).cur = s.cur := rfl
@[simp] theorem setIsland_freeCtr (s : State) (k : Nat) (v : Island) : (s.setIsland k v).freeCtr = s.freeCtr := rfl
@[simp] theorem setIsland_cores (s : State) (k : Nat) (v : Island) : (s.setIsland k v).cores = s.cores := rfl
@[simp] theorem setIsland_elems (s : State) (k : Nat) (v : Island) : (s.setIsland k v).elems = s.elems := rfl
@[simp] theorem setIsland_chans (s : State) (k : Nat) (v : Island) : (s.setIsland k v).chans = s.chans := rfl
@[simp] theorem setIsland_pslots (s : State) (k : Nat) (v : Island) : (s.setIsland k v).pslots = s.pslots := rfl
@[simp] theorem setIsland_homes (s : State) (k : Nat) (v : Island) : (s.setIsland k v).homes = s.homes := rfl
@[simp] theorem setIsland_kstones (s : State) (k : Nat) (v : Island) : (s.setIsland k v).kstones = s.kstones := rfl
@[simp] theorem setIsland_ags (s : State) (k : Nat) (v : Island) : (s.setIsland k v).ags = s.ags := rfl
@[simp] theorem setIsland_reps (s : State) (k : Nat) (v : Island) : (s.setIsland k v).reps = s.reps := rfl
@[simp] theorem setIsland_scheds (s : State) (k : Nat) (v : Island) : (s.setIsland k v).scheds = s.scheds := rfl
@[simp] theorem setIsland_streamers (s : State) (k : Nat) (v : Island) : (s.setIsland k v).streamers = s.streamers := rfl
@[simp] theorem setIsland_tiles (s : State) (k : Nat) (v : Island) : (s.setIsland k v).tiles = s.tiles := rfl
@[simp] theorem setIsland_planes (s : State) (k : Nat) (v : Island) : (s.setIsland k v).planes = s.planes := rfl
@[simp] theorem setIsland_mem (s : State) (k : Nat) (v : Island) : (s.setIsland k v).mem = s.mem := rfl
@[simp] theorem setIsland_eccBad (s : State) (k : Nat) (v : Island) : (s.setIsland k v).eccBad = s.eccBad := rfl
@[simp] theorem setIsland_ctxTable (s : State) (k : Nat) (v : Island) : (s.setIsland k v).ctxTable = s.ctxTable := rfl
@[simp] theorem setIsland_blockTlb (s : State) (k : Nat) (v : Island) : (s.setIsland k v).blockTlb = s.blockTlb := rfl
@[simp] theorem setIsland_walks (s : State) (k : Nat) (v : Island) : (s.setIsland k v).walks = s.walks := rfl
@[simp] theorem setIsland_evqs (s : State) (k : Nat) (v : Island) : (s.setIsland k v).evqs = s.evqs := rfl
@[simp] theorem setIsland_dblt (s : State) (k : Nat) (v : Island) : (s.setIsland k v).dblt = s.dblt := rfl
@[simp] theorem setIsland_dies (s : State) (k : Nat) (v : Island) : (s.setIsland k v).dies = s.dies := rfl
@[simp] theorem setIsland_regions (s : State) (k : Nat) (v : Island) : (s.setIsland k v).regions = s.regions := rfl
@[simp] theorem setIsland_launches (s : State) (k : Nat) (v : Island) : (s.setIsland k v).launches = s.launches := rfl
@[simp] theorem setIsland_snaps (s : State) (k : Nat) (v : Island) : (s.setIsland k v).snaps = s.snaps := rfl
@[simp] theorem setIsland_saved (s : State) (k : Nat) (v : Island) : (s.setIsland k v).saved = s.saved := rfl
@[simp] theorem setIsland_queues (s : State) (k : Nat) (v : Island) : (s.setIsland k v).queues = s.queues := rfl
@[simp] theorem setIsland_imageDir (s : State) (k : Nat) (v : Island) : (s.setIsland k v).imageDir = s.imageDir := rfl
@[simp] theorem setIsland_annex (s : State) (k : Nat) (v : Island) : (s.setIsland k v).annex = s.annex := rfl
@[simp] theorem setIsland_devnum (s : State) (k : Nat) (v : Island) : (s.setIsland k v).devnum = s.devnum := rfl
@[simp] theorem setIsland_windows (s : State) (k : Nat) (v : Island) : (s.setIsland k v).windows = s.windows := rfl
@[simp] theorem setIsland_hostEp (s : State) (k : Nat) (v : Island) : (s.setIsland k v).hostEp = s.hostEp := rfl
@[simp] theorem setIsland_links (s : State) (k : Nat) (v : Island) : (s.setIsland k v).links = s.links := rfl
@[simp] theorem setIsland_hostIn (s : State) (k : Nat) (v : Island) : (s.setIsland k v).hostIn = s.hostIn := rfl
@[simp] theorem setIsland_hostOut (s : State) (k : Nat) (v : Island) : (s.setIsland k v).hostOut = s.hostOut := rfl
@[simp] theorem setIsland_dltOut (s : State) (k : Nat) (v : Island) : (s.setIsland k v).dltOut = s.dltOut := rfl
@[simp] theorem setIsland_dltAnsIn (s : State) (k : Nat) (v : Island) : (s.setIsland k v).dltAnsIn = s.dltAnsIn := rfl
@[simp] theorem setIsland_dltIn (s : State) (k : Nat) (v : Island) : (s.setIsland k v).dltIn = s.dltIn := rfl
@[simp] theorem setIsland_dltAnsOut (s : State) (k : Nat) (v : Island) : (s.setIsland k v).dltAnsOut = s.dltAnsOut := rfl
@[simp] theorem setIsland_hopsIn (s : State) (k : Nat) (v : Island) : (s.setIsland k v).hopsIn = s.hopsIn := rfl
@[simp] theorem setIsland_hopsOut (s : State) (k : Nat) (v : Island) : (s.setIsland k v).hopsOut = s.hopsOut := rfl
@[simp] theorem setIsland_power (s : State) (k : Nat) (v : Island) : (s.setIsland k v).power = s.power := rfl
@[simp] theorem setIsland_flash (s : State) (k : Nat) (v : Island) : (s.setIsland k v).flash = s.flash := rfl
@[simp] theorem setIsland_secBoot (s : State) (k : Nat) (v : Island) : (s.setIsland k v).secBoot = s.secBoot := rfl
@[simp] theorem setIsland_bootFailed (s : State) (k : Nat) (v : Island) : (s.setIsland k v).bootFailed = s.bootFailed := rfl
@[simp] theorem setIsland_attest (s : State) (k : Nat) (v : Island) : (s.setIsland k v).attest = s.attest := rfl
@[simp] theorem setIsland_nextId (s : State) (k : Nat) (v : Island) : (s.setIsland k v).nextId = s.nextId := rfl
@[simp] theorem setIsland_nextTicket (s : State) (k : Nat) (v : Island) : (s.setIsland k v).nextTicket = s.nextTicket := rfl

@[simp] theorem setStreamer_round (s : State) (k : Nat) (v : Streamer) : (s.setStreamer k v).round = s.round := rfl
@[simp] theorem setStreamer_agenda (s : State) (k : Nat) (v : Streamer) : (s.setStreamer k v).agenda = s.agenda := rfl
@[simp] theorem setStreamer_cur (s : State) (k : Nat) (v : Streamer) : (s.setStreamer k v).cur = s.cur := rfl
@[simp] theorem setStreamer_freeCtr (s : State) (k : Nat) (v : Streamer) : (s.setStreamer k v).freeCtr = s.freeCtr := rfl
@[simp] theorem setStreamer_cores (s : State) (k : Nat) (v : Streamer) : (s.setStreamer k v).cores = s.cores := rfl
@[simp] theorem setStreamer_elems (s : State) (k : Nat) (v : Streamer) : (s.setStreamer k v).elems = s.elems := rfl
@[simp] theorem setStreamer_chans (s : State) (k : Nat) (v : Streamer) : (s.setStreamer k v).chans = s.chans := rfl
@[simp] theorem setStreamer_pslots (s : State) (k : Nat) (v : Streamer) : (s.setStreamer k v).pslots = s.pslots := rfl
@[simp] theorem setStreamer_homes (s : State) (k : Nat) (v : Streamer) : (s.setStreamer k v).homes = s.homes := rfl
@[simp] theorem setStreamer_kstones (s : State) (k : Nat) (v : Streamer) : (s.setStreamer k v).kstones = s.kstones := rfl
@[simp] theorem setStreamer_ags (s : State) (k : Nat) (v : Streamer) : (s.setStreamer k v).ags = s.ags := rfl
@[simp] theorem setStreamer_reps (s : State) (k : Nat) (v : Streamer) : (s.setStreamer k v).reps = s.reps := rfl
@[simp] theorem setStreamer_scheds (s : State) (k : Nat) (v : Streamer) : (s.setStreamer k v).scheds = s.scheds := rfl
@[simp] theorem setStreamer_islands (s : State) (k : Nat) (v : Streamer) : (s.setStreamer k v).islands = s.islands := rfl
@[simp] theorem setStreamer_tiles (s : State) (k : Nat) (v : Streamer) : (s.setStreamer k v).tiles = s.tiles := rfl
@[simp] theorem setStreamer_planes (s : State) (k : Nat) (v : Streamer) : (s.setStreamer k v).planes = s.planes := rfl
@[simp] theorem setStreamer_mem (s : State) (k : Nat) (v : Streamer) : (s.setStreamer k v).mem = s.mem := rfl
@[simp] theorem setStreamer_eccBad (s : State) (k : Nat) (v : Streamer) : (s.setStreamer k v).eccBad = s.eccBad := rfl
@[simp] theorem setStreamer_ctxTable (s : State) (k : Nat) (v : Streamer) : (s.setStreamer k v).ctxTable = s.ctxTable := rfl
@[simp] theorem setStreamer_blockTlb (s : State) (k : Nat) (v : Streamer) : (s.setStreamer k v).blockTlb = s.blockTlb := rfl
@[simp] theorem setStreamer_walks (s : State) (k : Nat) (v : Streamer) : (s.setStreamer k v).walks = s.walks := rfl
@[simp] theorem setStreamer_evqs (s : State) (k : Nat) (v : Streamer) : (s.setStreamer k v).evqs = s.evqs := rfl
@[simp] theorem setStreamer_dblt (s : State) (k : Nat) (v : Streamer) : (s.setStreamer k v).dblt = s.dblt := rfl
@[simp] theorem setStreamer_dies (s : State) (k : Nat) (v : Streamer) : (s.setStreamer k v).dies = s.dies := rfl
@[simp] theorem setStreamer_regions (s : State) (k : Nat) (v : Streamer) : (s.setStreamer k v).regions = s.regions := rfl
@[simp] theorem setStreamer_launches (s : State) (k : Nat) (v : Streamer) : (s.setStreamer k v).launches = s.launches := rfl
@[simp] theorem setStreamer_snaps (s : State) (k : Nat) (v : Streamer) : (s.setStreamer k v).snaps = s.snaps := rfl
@[simp] theorem setStreamer_saved (s : State) (k : Nat) (v : Streamer) : (s.setStreamer k v).saved = s.saved := rfl
@[simp] theorem setStreamer_queues (s : State) (k : Nat) (v : Streamer) : (s.setStreamer k v).queues = s.queues := rfl
@[simp] theorem setStreamer_imageDir (s : State) (k : Nat) (v : Streamer) : (s.setStreamer k v).imageDir = s.imageDir := rfl
@[simp] theorem setStreamer_annex (s : State) (k : Nat) (v : Streamer) : (s.setStreamer k v).annex = s.annex := rfl
@[simp] theorem setStreamer_devnum (s : State) (k : Nat) (v : Streamer) : (s.setStreamer k v).devnum = s.devnum := rfl
@[simp] theorem setStreamer_windows (s : State) (k : Nat) (v : Streamer) : (s.setStreamer k v).windows = s.windows := rfl
@[simp] theorem setStreamer_hostEp (s : State) (k : Nat) (v : Streamer) : (s.setStreamer k v).hostEp = s.hostEp := rfl
@[simp] theorem setStreamer_links (s : State) (k : Nat) (v : Streamer) : (s.setStreamer k v).links = s.links := rfl
@[simp] theorem setStreamer_hostIn (s : State) (k : Nat) (v : Streamer) : (s.setStreamer k v).hostIn = s.hostIn := rfl
@[simp] theorem setStreamer_hostOut (s : State) (k : Nat) (v : Streamer) : (s.setStreamer k v).hostOut = s.hostOut := rfl
@[simp] theorem setStreamer_dltOut (s : State) (k : Nat) (v : Streamer) : (s.setStreamer k v).dltOut = s.dltOut := rfl
@[simp] theorem setStreamer_dltAnsIn (s : State) (k : Nat) (v : Streamer) : (s.setStreamer k v).dltAnsIn = s.dltAnsIn := rfl
@[simp] theorem setStreamer_dltIn (s : State) (k : Nat) (v : Streamer) : (s.setStreamer k v).dltIn = s.dltIn := rfl
@[simp] theorem setStreamer_dltAnsOut (s : State) (k : Nat) (v : Streamer) : (s.setStreamer k v).dltAnsOut = s.dltAnsOut := rfl
@[simp] theorem setStreamer_hopsIn (s : State) (k : Nat) (v : Streamer) : (s.setStreamer k v).hopsIn = s.hopsIn := rfl
@[simp] theorem setStreamer_hopsOut (s : State) (k : Nat) (v : Streamer) : (s.setStreamer k v).hopsOut = s.hopsOut := rfl
@[simp] theorem setStreamer_power (s : State) (k : Nat) (v : Streamer) : (s.setStreamer k v).power = s.power := rfl
@[simp] theorem setStreamer_flash (s : State) (k : Nat) (v : Streamer) : (s.setStreamer k v).flash = s.flash := rfl
@[simp] theorem setStreamer_secBoot (s : State) (k : Nat) (v : Streamer) : (s.setStreamer k v).secBoot = s.secBoot := rfl
@[simp] theorem setStreamer_bootFailed (s : State) (k : Nat) (v : Streamer) : (s.setStreamer k v).bootFailed = s.bootFailed := rfl
@[simp] theorem setStreamer_attest (s : State) (k : Nat) (v : Streamer) : (s.setStreamer k v).attest = s.attest := rfl
@[simp] theorem setStreamer_nextId (s : State) (k : Nat) (v : Streamer) : (s.setStreamer k v).nextId = s.nextId := rfl
@[simp] theorem setStreamer_nextTicket (s : State) (k : Nat) (v : Streamer) : (s.setStreamer k v).nextTicket = s.nextTicket := rfl

@[simp] theorem setPlane_round (s : State) (k : Nat) (v : PlaneState) : (s.setPlane k v).round = s.round := rfl
@[simp] theorem setPlane_agenda (s : State) (k : Nat) (v : PlaneState) : (s.setPlane k v).agenda = s.agenda := rfl
@[simp] theorem setPlane_cur (s : State) (k : Nat) (v : PlaneState) : (s.setPlane k v).cur = s.cur := rfl
@[simp] theorem setPlane_freeCtr (s : State) (k : Nat) (v : PlaneState) : (s.setPlane k v).freeCtr = s.freeCtr := rfl
@[simp] theorem setPlane_cores (s : State) (k : Nat) (v : PlaneState) : (s.setPlane k v).cores = s.cores := rfl
@[simp] theorem setPlane_elems (s : State) (k : Nat) (v : PlaneState) : (s.setPlane k v).elems = s.elems := rfl
@[simp] theorem setPlane_chans (s : State) (k : Nat) (v : PlaneState) : (s.setPlane k v).chans = s.chans := rfl
@[simp] theorem setPlane_pslots (s : State) (k : Nat) (v : PlaneState) : (s.setPlane k v).pslots = s.pslots := rfl
@[simp] theorem setPlane_homes (s : State) (k : Nat) (v : PlaneState) : (s.setPlane k v).homes = s.homes := rfl
@[simp] theorem setPlane_kstones (s : State) (k : Nat) (v : PlaneState) : (s.setPlane k v).kstones = s.kstones := rfl
@[simp] theorem setPlane_ags (s : State) (k : Nat) (v : PlaneState) : (s.setPlane k v).ags = s.ags := rfl
@[simp] theorem setPlane_reps (s : State) (k : Nat) (v : PlaneState) : (s.setPlane k v).reps = s.reps := rfl
@[simp] theorem setPlane_scheds (s : State) (k : Nat) (v : PlaneState) : (s.setPlane k v).scheds = s.scheds := rfl
@[simp] theorem setPlane_islands (s : State) (k : Nat) (v : PlaneState) : (s.setPlane k v).islands = s.islands := rfl
@[simp] theorem setPlane_streamers (s : State) (k : Nat) (v : PlaneState) : (s.setPlane k v).streamers = s.streamers := rfl
@[simp] theorem setPlane_tiles (s : State) (k : Nat) (v : PlaneState) : (s.setPlane k v).tiles = s.tiles := rfl
@[simp] theorem setPlane_mem (s : State) (k : Nat) (v : PlaneState) : (s.setPlane k v).mem = s.mem := rfl
@[simp] theorem setPlane_eccBad (s : State) (k : Nat) (v : PlaneState) : (s.setPlane k v).eccBad = s.eccBad := rfl
@[simp] theorem setPlane_ctxTable (s : State) (k : Nat) (v : PlaneState) : (s.setPlane k v).ctxTable = s.ctxTable := rfl
@[simp] theorem setPlane_blockTlb (s : State) (k : Nat) (v : PlaneState) : (s.setPlane k v).blockTlb = s.blockTlb := rfl
@[simp] theorem setPlane_walks (s : State) (k : Nat) (v : PlaneState) : (s.setPlane k v).walks = s.walks := rfl
@[simp] theorem setPlane_evqs (s : State) (k : Nat) (v : PlaneState) : (s.setPlane k v).evqs = s.evqs := rfl
@[simp] theorem setPlane_dblt (s : State) (k : Nat) (v : PlaneState) : (s.setPlane k v).dblt = s.dblt := rfl
@[simp] theorem setPlane_dies (s : State) (k : Nat) (v : PlaneState) : (s.setPlane k v).dies = s.dies := rfl
@[simp] theorem setPlane_regions (s : State) (k : Nat) (v : PlaneState) : (s.setPlane k v).regions = s.regions := rfl
@[simp] theorem setPlane_launches (s : State) (k : Nat) (v : PlaneState) : (s.setPlane k v).launches = s.launches := rfl
@[simp] theorem setPlane_snaps (s : State) (k : Nat) (v : PlaneState) : (s.setPlane k v).snaps = s.snaps := rfl
@[simp] theorem setPlane_saved (s : State) (k : Nat) (v : PlaneState) : (s.setPlane k v).saved = s.saved := rfl
@[simp] theorem setPlane_queues (s : State) (k : Nat) (v : PlaneState) : (s.setPlane k v).queues = s.queues := rfl
@[simp] theorem setPlane_imageDir (s : State) (k : Nat) (v : PlaneState) : (s.setPlane k v).imageDir = s.imageDir := rfl
@[simp] theorem setPlane_annex (s : State) (k : Nat) (v : PlaneState) : (s.setPlane k v).annex = s.annex := rfl
@[simp] theorem setPlane_devnum (s : State) (k : Nat) (v : PlaneState) : (s.setPlane k v).devnum = s.devnum := rfl
@[simp] theorem setPlane_windows (s : State) (k : Nat) (v : PlaneState) : (s.setPlane k v).windows = s.windows := rfl
@[simp] theorem setPlane_hostEp (s : State) (k : Nat) (v : PlaneState) : (s.setPlane k v).hostEp = s.hostEp := rfl
@[simp] theorem setPlane_links (s : State) (k : Nat) (v : PlaneState) : (s.setPlane k v).links = s.links := rfl
@[simp] theorem setPlane_hostIn (s : State) (k : Nat) (v : PlaneState) : (s.setPlane k v).hostIn = s.hostIn := rfl
@[simp] theorem setPlane_hostOut (s : State) (k : Nat) (v : PlaneState) : (s.setPlane k v).hostOut = s.hostOut := rfl
@[simp] theorem setPlane_dltOut (s : State) (k : Nat) (v : PlaneState) : (s.setPlane k v).dltOut = s.dltOut := rfl
@[simp] theorem setPlane_dltAnsIn (s : State) (k : Nat) (v : PlaneState) : (s.setPlane k v).dltAnsIn = s.dltAnsIn := rfl
@[simp] theorem setPlane_dltIn (s : State) (k : Nat) (v : PlaneState) : (s.setPlane k v).dltIn = s.dltIn := rfl
@[simp] theorem setPlane_dltAnsOut (s : State) (k : Nat) (v : PlaneState) : (s.setPlane k v).dltAnsOut = s.dltAnsOut := rfl
@[simp] theorem setPlane_hopsIn (s : State) (k : Nat) (v : PlaneState) : (s.setPlane k v).hopsIn = s.hopsIn := rfl
@[simp] theorem setPlane_hopsOut (s : State) (k : Nat) (v : PlaneState) : (s.setPlane k v).hopsOut = s.hopsOut := rfl
@[simp] theorem setPlane_power (s : State) (k : Nat) (v : PlaneState) : (s.setPlane k v).power = s.power := rfl
@[simp] theorem setPlane_flash (s : State) (k : Nat) (v : PlaneState) : (s.setPlane k v).flash = s.flash := rfl
@[simp] theorem setPlane_secBoot (s : State) (k : Nat) (v : PlaneState) : (s.setPlane k v).secBoot = s.secBoot := rfl
@[simp] theorem setPlane_bootFailed (s : State) (k : Nat) (v : PlaneState) : (s.setPlane k v).bootFailed = s.bootFailed := rfl
@[simp] theorem setPlane_attest (s : State) (k : Nat) (v : PlaneState) : (s.setPlane k v).attest = s.attest := rfl
@[simp] theorem setPlane_nextId (s : State) (k : Nat) (v : PlaneState) : (s.setPlane k v).nextId = s.nextId := rfl
@[simp] theorem setPlane_nextTicket (s : State) (k : Nat) (v : PlaneState) : (s.setPlane k v).nextTicket = s.nextTicket := rfl

@[simp] theorem setQueue_round (s : State) (k : Nat) (v : WorkQueue) : (s.setQueue k v).round = s.round := rfl
@[simp] theorem setQueue_agenda (s : State) (k : Nat) (v : WorkQueue) : (s.setQueue k v).agenda = s.agenda := rfl
@[simp] theorem setQueue_cur (s : State) (k : Nat) (v : WorkQueue) : (s.setQueue k v).cur = s.cur := rfl
@[simp] theorem setQueue_freeCtr (s : State) (k : Nat) (v : WorkQueue) : (s.setQueue k v).freeCtr = s.freeCtr := rfl
@[simp] theorem setQueue_cores (s : State) (k : Nat) (v : WorkQueue) : (s.setQueue k v).cores = s.cores := rfl
@[simp] theorem setQueue_elems (s : State) (k : Nat) (v : WorkQueue) : (s.setQueue k v).elems = s.elems := rfl
@[simp] theorem setQueue_chans (s : State) (k : Nat) (v : WorkQueue) : (s.setQueue k v).chans = s.chans := rfl
@[simp] theorem setQueue_pslots (s : State) (k : Nat) (v : WorkQueue) : (s.setQueue k v).pslots = s.pslots := rfl
@[simp] theorem setQueue_homes (s : State) (k : Nat) (v : WorkQueue) : (s.setQueue k v).homes = s.homes := rfl
@[simp] theorem setQueue_kstones (s : State) (k : Nat) (v : WorkQueue) : (s.setQueue k v).kstones = s.kstones := rfl
@[simp] theorem setQueue_ags (s : State) (k : Nat) (v : WorkQueue) : (s.setQueue k v).ags = s.ags := rfl
@[simp] theorem setQueue_reps (s : State) (k : Nat) (v : WorkQueue) : (s.setQueue k v).reps = s.reps := rfl
@[simp] theorem setQueue_scheds (s : State) (k : Nat) (v : WorkQueue) : (s.setQueue k v).scheds = s.scheds := rfl
@[simp] theorem setQueue_islands (s : State) (k : Nat) (v : WorkQueue) : (s.setQueue k v).islands = s.islands := rfl
@[simp] theorem setQueue_streamers (s : State) (k : Nat) (v : WorkQueue) : (s.setQueue k v).streamers = s.streamers := rfl
@[simp] theorem setQueue_tiles (s : State) (k : Nat) (v : WorkQueue) : (s.setQueue k v).tiles = s.tiles := rfl
@[simp] theorem setQueue_planes (s : State) (k : Nat) (v : WorkQueue) : (s.setQueue k v).planes = s.planes := rfl
@[simp] theorem setQueue_mem (s : State) (k : Nat) (v : WorkQueue) : (s.setQueue k v).mem = s.mem := rfl
@[simp] theorem setQueue_eccBad (s : State) (k : Nat) (v : WorkQueue) : (s.setQueue k v).eccBad = s.eccBad := rfl
@[simp] theorem setQueue_ctxTable (s : State) (k : Nat) (v : WorkQueue) : (s.setQueue k v).ctxTable = s.ctxTable := rfl
@[simp] theorem setQueue_blockTlb (s : State) (k : Nat) (v : WorkQueue) : (s.setQueue k v).blockTlb = s.blockTlb := rfl
@[simp] theorem setQueue_walks (s : State) (k : Nat) (v : WorkQueue) : (s.setQueue k v).walks = s.walks := rfl
@[simp] theorem setQueue_evqs (s : State) (k : Nat) (v : WorkQueue) : (s.setQueue k v).evqs = s.evqs := rfl
@[simp] theorem setQueue_dblt (s : State) (k : Nat) (v : WorkQueue) : (s.setQueue k v).dblt = s.dblt := rfl
@[simp] theorem setQueue_dies (s : State) (k : Nat) (v : WorkQueue) : (s.setQueue k v).dies = s.dies := rfl
@[simp] theorem setQueue_regions (s : State) (k : Nat) (v : WorkQueue) : (s.setQueue k v).regions = s.regions := rfl
@[simp] theorem setQueue_launches (s : State) (k : Nat) (v : WorkQueue) : (s.setQueue k v).launches = s.launches := rfl
@[simp] theorem setQueue_snaps (s : State) (k : Nat) (v : WorkQueue) : (s.setQueue k v).snaps = s.snaps := rfl
@[simp] theorem setQueue_saved (s : State) (k : Nat) (v : WorkQueue) : (s.setQueue k v).saved = s.saved := rfl
@[simp] theorem setQueue_imageDir (s : State) (k : Nat) (v : WorkQueue) : (s.setQueue k v).imageDir = s.imageDir := rfl
@[simp] theorem setQueue_annex (s : State) (k : Nat) (v : WorkQueue) : (s.setQueue k v).annex = s.annex := rfl
@[simp] theorem setQueue_devnum (s : State) (k : Nat) (v : WorkQueue) : (s.setQueue k v).devnum = s.devnum := rfl
@[simp] theorem setQueue_windows (s : State) (k : Nat) (v : WorkQueue) : (s.setQueue k v).windows = s.windows := rfl
@[simp] theorem setQueue_hostEp (s : State) (k : Nat) (v : WorkQueue) : (s.setQueue k v).hostEp = s.hostEp := rfl
@[simp] theorem setQueue_links (s : State) (k : Nat) (v : WorkQueue) : (s.setQueue k v).links = s.links := rfl
@[simp] theorem setQueue_hostIn (s : State) (k : Nat) (v : WorkQueue) : (s.setQueue k v).hostIn = s.hostIn := rfl
@[simp] theorem setQueue_hostOut (s : State) (k : Nat) (v : WorkQueue) : (s.setQueue k v).hostOut = s.hostOut := rfl
@[simp] theorem setQueue_dltOut (s : State) (k : Nat) (v : WorkQueue) : (s.setQueue k v).dltOut = s.dltOut := rfl
@[simp] theorem setQueue_dltAnsIn (s : State) (k : Nat) (v : WorkQueue) : (s.setQueue k v).dltAnsIn = s.dltAnsIn := rfl
@[simp] theorem setQueue_dltIn (s : State) (k : Nat) (v : WorkQueue) : (s.setQueue k v).dltIn = s.dltIn := rfl
@[simp] theorem setQueue_dltAnsOut (s : State) (k : Nat) (v : WorkQueue) : (s.setQueue k v).dltAnsOut = s.dltAnsOut := rfl
@[simp] theorem setQueue_hopsIn (s : State) (k : Nat) (v : WorkQueue) : (s.setQueue k v).hopsIn = s.hopsIn := rfl
@[simp] theorem setQueue_hopsOut (s : State) (k : Nat) (v : WorkQueue) : (s.setQueue k v).hopsOut = s.hopsOut := rfl
@[simp] theorem setQueue_power (s : State) (k : Nat) (v : WorkQueue) : (s.setQueue k v).power = s.power := rfl
@[simp] theorem setQueue_flash (s : State) (k : Nat) (v : WorkQueue) : (s.setQueue k v).flash = s.flash := rfl
@[simp] theorem setQueue_secBoot (s : State) (k : Nat) (v : WorkQueue) : (s.setQueue k v).secBoot = s.secBoot := rfl
@[simp] theorem setQueue_bootFailed (s : State) (k : Nat) (v : WorkQueue) : (s.setQueue k v).bootFailed = s.bootFailed := rfl
@[simp] theorem setQueue_attest (s : State) (k : Nat) (v : WorkQueue) : (s.setQueue k v).attest = s.attest := rfl
@[simp] theorem setQueue_nextId (s : State) (k : Nat) (v : WorkQueue) : (s.setQueue k v).nextId = s.nextId := rfl
@[simp] theorem setQueue_nextTicket (s : State) (k : Nat) (v : WorkQueue) : (s.setQueue k v).nextTicket = s.nextTicket := rfl

@[simp] theorem setDie_round (s : State) (k : Nat) (v : DieState) : (s.setDie k v).round = s.round := rfl
@[simp] theorem setDie_agenda (s : State) (k : Nat) (v : DieState) : (s.setDie k v).agenda = s.agenda := rfl
@[simp] theorem setDie_cur (s : State) (k : Nat) (v : DieState) : (s.setDie k v).cur = s.cur := rfl
@[simp] theorem setDie_freeCtr (s : State) (k : Nat) (v : DieState) : (s.setDie k v).freeCtr = s.freeCtr := rfl
@[simp] theorem setDie_cores (s : State) (k : Nat) (v : DieState) : (s.setDie k v).cores = s.cores := rfl
@[simp] theorem setDie_elems (s : State) (k : Nat) (v : DieState) : (s.setDie k v).elems = s.elems := rfl
@[simp] theorem setDie_chans (s : State) (k : Nat) (v : DieState) : (s.setDie k v).chans = s.chans := rfl
@[simp] theorem setDie_pslots (s : State) (k : Nat) (v : DieState) : (s.setDie k v).pslots = s.pslots := rfl
@[simp] theorem setDie_homes (s : State) (k : Nat) (v : DieState) : (s.setDie k v).homes = s.homes := rfl
@[simp] theorem setDie_kstones (s : State) (k : Nat) (v : DieState) : (s.setDie k v).kstones = s.kstones := rfl
@[simp] theorem setDie_ags (s : State) (k : Nat) (v : DieState) : (s.setDie k v).ags = s.ags := rfl
@[simp] theorem setDie_reps (s : State) (k : Nat) (v : DieState) : (s.setDie k v).reps = s.reps := rfl
@[simp] theorem setDie_scheds (s : State) (k : Nat) (v : DieState) : (s.setDie k v).scheds = s.scheds := rfl
@[simp] theorem setDie_islands (s : State) (k : Nat) (v : DieState) : (s.setDie k v).islands = s.islands := rfl
@[simp] theorem setDie_streamers (s : State) (k : Nat) (v : DieState) : (s.setDie k v).streamers = s.streamers := rfl
@[simp] theorem setDie_tiles (s : State) (k : Nat) (v : DieState) : (s.setDie k v).tiles = s.tiles := rfl
@[simp] theorem setDie_planes (s : State) (k : Nat) (v : DieState) : (s.setDie k v).planes = s.planes := rfl
@[simp] theorem setDie_mem (s : State) (k : Nat) (v : DieState) : (s.setDie k v).mem = s.mem := rfl
@[simp] theorem setDie_eccBad (s : State) (k : Nat) (v : DieState) : (s.setDie k v).eccBad = s.eccBad := rfl
@[simp] theorem setDie_ctxTable (s : State) (k : Nat) (v : DieState) : (s.setDie k v).ctxTable = s.ctxTable := rfl
@[simp] theorem setDie_blockTlb (s : State) (k : Nat) (v : DieState) : (s.setDie k v).blockTlb = s.blockTlb := rfl
@[simp] theorem setDie_walks (s : State) (k : Nat) (v : DieState) : (s.setDie k v).walks = s.walks := rfl
@[simp] theorem setDie_evqs (s : State) (k : Nat) (v : DieState) : (s.setDie k v).evqs = s.evqs := rfl
@[simp] theorem setDie_dblt (s : State) (k : Nat) (v : DieState) : (s.setDie k v).dblt = s.dblt := rfl
@[simp] theorem setDie_regions (s : State) (k : Nat) (v : DieState) : (s.setDie k v).regions = s.regions := rfl
@[simp] theorem setDie_launches (s : State) (k : Nat) (v : DieState) : (s.setDie k v).launches = s.launches := rfl
@[simp] theorem setDie_snaps (s : State) (k : Nat) (v : DieState) : (s.setDie k v).snaps = s.snaps := rfl
@[simp] theorem setDie_saved (s : State) (k : Nat) (v : DieState) : (s.setDie k v).saved = s.saved := rfl
@[simp] theorem setDie_queues (s : State) (k : Nat) (v : DieState) : (s.setDie k v).queues = s.queues := rfl
@[simp] theorem setDie_imageDir (s : State) (k : Nat) (v : DieState) : (s.setDie k v).imageDir = s.imageDir := rfl
@[simp] theorem setDie_annex (s : State) (k : Nat) (v : DieState) : (s.setDie k v).annex = s.annex := rfl
@[simp] theorem setDie_devnum (s : State) (k : Nat) (v : DieState) : (s.setDie k v).devnum = s.devnum := rfl
@[simp] theorem setDie_windows (s : State) (k : Nat) (v : DieState) : (s.setDie k v).windows = s.windows := rfl
@[simp] theorem setDie_hostEp (s : State) (k : Nat) (v : DieState) : (s.setDie k v).hostEp = s.hostEp := rfl
@[simp] theorem setDie_links (s : State) (k : Nat) (v : DieState) : (s.setDie k v).links = s.links := rfl
@[simp] theorem setDie_hostIn (s : State) (k : Nat) (v : DieState) : (s.setDie k v).hostIn = s.hostIn := rfl
@[simp] theorem setDie_hostOut (s : State) (k : Nat) (v : DieState) : (s.setDie k v).hostOut = s.hostOut := rfl
@[simp] theorem setDie_dltOut (s : State) (k : Nat) (v : DieState) : (s.setDie k v).dltOut = s.dltOut := rfl
@[simp] theorem setDie_dltAnsIn (s : State) (k : Nat) (v : DieState) : (s.setDie k v).dltAnsIn = s.dltAnsIn := rfl
@[simp] theorem setDie_dltIn (s : State) (k : Nat) (v : DieState) : (s.setDie k v).dltIn = s.dltIn := rfl
@[simp] theorem setDie_dltAnsOut (s : State) (k : Nat) (v : DieState) : (s.setDie k v).dltAnsOut = s.dltAnsOut := rfl
@[simp] theorem setDie_hopsIn (s : State) (k : Nat) (v : DieState) : (s.setDie k v).hopsIn = s.hopsIn := rfl
@[simp] theorem setDie_hopsOut (s : State) (k : Nat) (v : DieState) : (s.setDie k v).hopsOut = s.hopsOut := rfl
@[simp] theorem setDie_power (s : State) (k : Nat) (v : DieState) : (s.setDie k v).power = s.power := rfl
@[simp] theorem setDie_flash (s : State) (k : Nat) (v : DieState) : (s.setDie k v).flash = s.flash := rfl
@[simp] theorem setDie_secBoot (s : State) (k : Nat) (v : DieState) : (s.setDie k v).secBoot = s.secBoot := rfl
@[simp] theorem setDie_bootFailed (s : State) (k : Nat) (v : DieState) : (s.setDie k v).bootFailed = s.bootFailed := rfl
@[simp] theorem setDie_attest (s : State) (k : Nat) (v : DieState) : (s.setDie k v).attest = s.attest := rfl
@[simp] theorem setDie_nextId (s : State) (k : Nat) (v : DieState) : (s.setDie k v).nextId = s.nextId := rfl
@[simp] theorem setDie_nextTicket (s : State) (k : Nat) (v : DieState) : (s.setDie k v).nextTicket = s.nextTicket := rfl

@[simp] theorem setLink_round (s : State) (k : Nat) (v : Link) : (s.setLink k v).round = s.round := rfl
@[simp] theorem setLink_agenda (s : State) (k : Nat) (v : Link) : (s.setLink k v).agenda = s.agenda := rfl
@[simp] theorem setLink_cur (s : State) (k : Nat) (v : Link) : (s.setLink k v).cur = s.cur := rfl
@[simp] theorem setLink_freeCtr (s : State) (k : Nat) (v : Link) : (s.setLink k v).freeCtr = s.freeCtr := rfl
@[simp] theorem setLink_cores (s : State) (k : Nat) (v : Link) : (s.setLink k v).cores = s.cores := rfl
@[simp] theorem setLink_elems (s : State) (k : Nat) (v : Link) : (s.setLink k v).elems = s.elems := rfl
@[simp] theorem setLink_chans (s : State) (k : Nat) (v : Link) : (s.setLink k v).chans = s.chans := rfl
@[simp] theorem setLink_pslots (s : State) (k : Nat) (v : Link) : (s.setLink k v).pslots = s.pslots := rfl
@[simp] theorem setLink_homes (s : State) (k : Nat) (v : Link) : (s.setLink k v).homes = s.homes := rfl
@[simp] theorem setLink_kstones (s : State) (k : Nat) (v : Link) : (s.setLink k v).kstones = s.kstones := rfl
@[simp] theorem setLink_ags (s : State) (k : Nat) (v : Link) : (s.setLink k v).ags = s.ags := rfl
@[simp] theorem setLink_reps (s : State) (k : Nat) (v : Link) : (s.setLink k v).reps = s.reps := rfl
@[simp] theorem setLink_scheds (s : State) (k : Nat) (v : Link) : (s.setLink k v).scheds = s.scheds := rfl
@[simp] theorem setLink_islands (s : State) (k : Nat) (v : Link) : (s.setLink k v).islands = s.islands := rfl
@[simp] theorem setLink_streamers (s : State) (k : Nat) (v : Link) : (s.setLink k v).streamers = s.streamers := rfl
@[simp] theorem setLink_tiles (s : State) (k : Nat) (v : Link) : (s.setLink k v).tiles = s.tiles := rfl
@[simp] theorem setLink_planes (s : State) (k : Nat) (v : Link) : (s.setLink k v).planes = s.planes := rfl
@[simp] theorem setLink_mem (s : State) (k : Nat) (v : Link) : (s.setLink k v).mem = s.mem := rfl
@[simp] theorem setLink_eccBad (s : State) (k : Nat) (v : Link) : (s.setLink k v).eccBad = s.eccBad := rfl
@[simp] theorem setLink_ctxTable (s : State) (k : Nat) (v : Link) : (s.setLink k v).ctxTable = s.ctxTable := rfl
@[simp] theorem setLink_blockTlb (s : State) (k : Nat) (v : Link) : (s.setLink k v).blockTlb = s.blockTlb := rfl
@[simp] theorem setLink_walks (s : State) (k : Nat) (v : Link) : (s.setLink k v).walks = s.walks := rfl
@[simp] theorem setLink_evqs (s : State) (k : Nat) (v : Link) : (s.setLink k v).evqs = s.evqs := rfl
@[simp] theorem setLink_dblt (s : State) (k : Nat) (v : Link) : (s.setLink k v).dblt = s.dblt := rfl
@[simp] theorem setLink_dies (s : State) (k : Nat) (v : Link) : (s.setLink k v).dies = s.dies := rfl
@[simp] theorem setLink_regions (s : State) (k : Nat) (v : Link) : (s.setLink k v).regions = s.regions := rfl
@[simp] theorem setLink_launches (s : State) (k : Nat) (v : Link) : (s.setLink k v).launches = s.launches := rfl
@[simp] theorem setLink_snaps (s : State) (k : Nat) (v : Link) : (s.setLink k v).snaps = s.snaps := rfl
@[simp] theorem setLink_saved (s : State) (k : Nat) (v : Link) : (s.setLink k v).saved = s.saved := rfl
@[simp] theorem setLink_queues (s : State) (k : Nat) (v : Link) : (s.setLink k v).queues = s.queues := rfl
@[simp] theorem setLink_imageDir (s : State) (k : Nat) (v : Link) : (s.setLink k v).imageDir = s.imageDir := rfl
@[simp] theorem setLink_annex (s : State) (k : Nat) (v : Link) : (s.setLink k v).annex = s.annex := rfl
@[simp] theorem setLink_devnum (s : State) (k : Nat) (v : Link) : (s.setLink k v).devnum = s.devnum := rfl
@[simp] theorem setLink_windows (s : State) (k : Nat) (v : Link) : (s.setLink k v).windows = s.windows := rfl
@[simp] theorem setLink_hostEp (s : State) (k : Nat) (v : Link) : (s.setLink k v).hostEp = s.hostEp := rfl
@[simp] theorem setLink_hostIn (s : State) (k : Nat) (v : Link) : (s.setLink k v).hostIn = s.hostIn := rfl
@[simp] theorem setLink_hostOut (s : State) (k : Nat) (v : Link) : (s.setLink k v).hostOut = s.hostOut := rfl
@[simp] theorem setLink_dltOut (s : State) (k : Nat) (v : Link) : (s.setLink k v).dltOut = s.dltOut := rfl
@[simp] theorem setLink_dltAnsIn (s : State) (k : Nat) (v : Link) : (s.setLink k v).dltAnsIn = s.dltAnsIn := rfl
@[simp] theorem setLink_dltIn (s : State) (k : Nat) (v : Link) : (s.setLink k v).dltIn = s.dltIn := rfl
@[simp] theorem setLink_dltAnsOut (s : State) (k : Nat) (v : Link) : (s.setLink k v).dltAnsOut = s.dltAnsOut := rfl
@[simp] theorem setLink_hopsIn (s : State) (k : Nat) (v : Link) : (s.setLink k v).hopsIn = s.hopsIn := rfl
@[simp] theorem setLink_hopsOut (s : State) (k : Nat) (v : Link) : (s.setLink k v).hopsOut = s.hopsOut := rfl
@[simp] theorem setLink_power (s : State) (k : Nat) (v : Link) : (s.setLink k v).power = s.power := rfl
@[simp] theorem setLink_flash (s : State) (k : Nat) (v : Link) : (s.setLink k v).flash = s.flash := rfl
@[simp] theorem setLink_secBoot (s : State) (k : Nat) (v : Link) : (s.setLink k v).secBoot = s.secBoot := rfl
@[simp] theorem setLink_bootFailed (s : State) (k : Nat) (v : Link) : (s.setLink k v).bootFailed = s.bootFailed := rfl
@[simp] theorem setLink_attest (s : State) (k : Nat) (v : Link) : (s.setLink k v).attest = s.attest := rfl
@[simp] theorem setLink_nextId (s : State) (k : Nat) (v : Link) : (s.setLink k v).nextId = s.nextId := rfl
@[simp] theorem setLink_nextTicket (s : State) (k : Nat) (v : Link) : (s.setLink k v).nextTicket = s.nextTicket := rfl

@[simp] theorem setPslot_round (s : State) (k : Nat) (v : PSlot) : (s.setPslot k v).round = s.round := rfl
@[simp] theorem setPslot_agenda (s : State) (k : Nat) (v : PSlot) : (s.setPslot k v).agenda = s.agenda := rfl
@[simp] theorem setPslot_cur (s : State) (k : Nat) (v : PSlot) : (s.setPslot k v).cur = s.cur := rfl
@[simp] theorem setPslot_freeCtr (s : State) (k : Nat) (v : PSlot) : (s.setPslot k v).freeCtr = s.freeCtr := rfl
@[simp] theorem setPslot_cores (s : State) (k : Nat) (v : PSlot) : (s.setPslot k v).cores = s.cores := rfl
@[simp] theorem setPslot_elems (s : State) (k : Nat) (v : PSlot) : (s.setPslot k v).elems = s.elems := rfl
@[simp] theorem setPslot_chans (s : State) (k : Nat) (v : PSlot) : (s.setPslot k v).chans = s.chans := rfl
@[simp] theorem setPslot_homes (s : State) (k : Nat) (v : PSlot) : (s.setPslot k v).homes = s.homes := rfl
@[simp] theorem setPslot_kstones (s : State) (k : Nat) (v : PSlot) : (s.setPslot k v).kstones = s.kstones := rfl
@[simp] theorem setPslot_ags (s : State) (k : Nat) (v : PSlot) : (s.setPslot k v).ags = s.ags := rfl
@[simp] theorem setPslot_reps (s : State) (k : Nat) (v : PSlot) : (s.setPslot k v).reps = s.reps := rfl
@[simp] theorem setPslot_scheds (s : State) (k : Nat) (v : PSlot) : (s.setPslot k v).scheds = s.scheds := rfl
@[simp] theorem setPslot_islands (s : State) (k : Nat) (v : PSlot) : (s.setPslot k v).islands = s.islands := rfl
@[simp] theorem setPslot_streamers (s : State) (k : Nat) (v : PSlot) : (s.setPslot k v).streamers = s.streamers := rfl
@[simp] theorem setPslot_tiles (s : State) (k : Nat) (v : PSlot) : (s.setPslot k v).tiles = s.tiles := rfl
@[simp] theorem setPslot_planes (s : State) (k : Nat) (v : PSlot) : (s.setPslot k v).planes = s.planes := rfl
@[simp] theorem setPslot_mem (s : State) (k : Nat) (v : PSlot) : (s.setPslot k v).mem = s.mem := rfl
@[simp] theorem setPslot_eccBad (s : State) (k : Nat) (v : PSlot) : (s.setPslot k v).eccBad = s.eccBad := rfl
@[simp] theorem setPslot_ctxTable (s : State) (k : Nat) (v : PSlot) : (s.setPslot k v).ctxTable = s.ctxTable := rfl
@[simp] theorem setPslot_blockTlb (s : State) (k : Nat) (v : PSlot) : (s.setPslot k v).blockTlb = s.blockTlb := rfl
@[simp] theorem setPslot_walks (s : State) (k : Nat) (v : PSlot) : (s.setPslot k v).walks = s.walks := rfl
@[simp] theorem setPslot_evqs (s : State) (k : Nat) (v : PSlot) : (s.setPslot k v).evqs = s.evqs := rfl
@[simp] theorem setPslot_dblt (s : State) (k : Nat) (v : PSlot) : (s.setPslot k v).dblt = s.dblt := rfl
@[simp] theorem setPslot_dies (s : State) (k : Nat) (v : PSlot) : (s.setPslot k v).dies = s.dies := rfl
@[simp] theorem setPslot_regions (s : State) (k : Nat) (v : PSlot) : (s.setPslot k v).regions = s.regions := rfl
@[simp] theorem setPslot_launches (s : State) (k : Nat) (v : PSlot) : (s.setPslot k v).launches = s.launches := rfl
@[simp] theorem setPslot_snaps (s : State) (k : Nat) (v : PSlot) : (s.setPslot k v).snaps = s.snaps := rfl
@[simp] theorem setPslot_saved (s : State) (k : Nat) (v : PSlot) : (s.setPslot k v).saved = s.saved := rfl
@[simp] theorem setPslot_queues (s : State) (k : Nat) (v : PSlot) : (s.setPslot k v).queues = s.queues := rfl
@[simp] theorem setPslot_imageDir (s : State) (k : Nat) (v : PSlot) : (s.setPslot k v).imageDir = s.imageDir := rfl
@[simp] theorem setPslot_annex (s : State) (k : Nat) (v : PSlot) : (s.setPslot k v).annex = s.annex := rfl
@[simp] theorem setPslot_devnum (s : State) (k : Nat) (v : PSlot) : (s.setPslot k v).devnum = s.devnum := rfl
@[simp] theorem setPslot_windows (s : State) (k : Nat) (v : PSlot) : (s.setPslot k v).windows = s.windows := rfl
@[simp] theorem setPslot_hostEp (s : State) (k : Nat) (v : PSlot) : (s.setPslot k v).hostEp = s.hostEp := rfl
@[simp] theorem setPslot_links (s : State) (k : Nat) (v : PSlot) : (s.setPslot k v).links = s.links := rfl
@[simp] theorem setPslot_hostIn (s : State) (k : Nat) (v : PSlot) : (s.setPslot k v).hostIn = s.hostIn := rfl
@[simp] theorem setPslot_hostOut (s : State) (k : Nat) (v : PSlot) : (s.setPslot k v).hostOut = s.hostOut := rfl
@[simp] theorem setPslot_dltOut (s : State) (k : Nat) (v : PSlot) : (s.setPslot k v).dltOut = s.dltOut := rfl
@[simp] theorem setPslot_dltAnsIn (s : State) (k : Nat) (v : PSlot) : (s.setPslot k v).dltAnsIn = s.dltAnsIn := rfl
@[simp] theorem setPslot_dltIn (s : State) (k : Nat) (v : PSlot) : (s.setPslot k v).dltIn = s.dltIn := rfl
@[simp] theorem setPslot_dltAnsOut (s : State) (k : Nat) (v : PSlot) : (s.setPslot k v).dltAnsOut = s.dltAnsOut := rfl
@[simp] theorem setPslot_hopsIn (s : State) (k : Nat) (v : PSlot) : (s.setPslot k v).hopsIn = s.hopsIn := rfl
@[simp] theorem setPslot_hopsOut (s : State) (k : Nat) (v : PSlot) : (s.setPslot k v).hopsOut = s.hopsOut := rfl
@[simp] theorem setPslot_power (s : State) (k : Nat) (v : PSlot) : (s.setPslot k v).power = s.power := rfl
@[simp] theorem setPslot_flash (s : State) (k : Nat) (v : PSlot) : (s.setPslot k v).flash = s.flash := rfl
@[simp] theorem setPslot_secBoot (s : State) (k : Nat) (v : PSlot) : (s.setPslot k v).secBoot = s.secBoot := rfl
@[simp] theorem setPslot_bootFailed (s : State) (k : Nat) (v : PSlot) : (s.setPslot k v).bootFailed = s.bootFailed := rfl
@[simp] theorem setPslot_attest (s : State) (k : Nat) (v : PSlot) : (s.setPslot k v).attest = s.attest := rfl
@[simp] theorem setPslot_nextId (s : State) (k : Nat) (v : PSlot) : (s.setPslot k v).nextId = s.nextId := rfl
@[simp] theorem setPslot_nextTicket (s : State) (k : Nat) (v : PSlot) : (s.setPslot k v).nextTicket = s.nextTicket := rfl

end Sys2Proof.Machine.State
end

