-- ==== Sys2Proof/Tests/Slice0.lean ====
section
/-! SUPPORT. Tests/Slice0: words of the spec through the decoder, ill-formed terms that the checks refuse, and for every statement with
hypotheses a state that meets them, clause by clause. The expected results are from spec/. -/

namespace Sys2Proof.Tests

open Sys2Proof.Machine Sys2Proof.Claims

/-! ### Helpers -/

abbrev g0 : Guard := ⟨0, 0, 0, 0, 0, 0, 0⟩
abbrev ea (d a b : BitVec 5) : EA := ⟨g0, d, a, b, 0, 0⟩
abbrev ei (d a : BitVec 5) (imm : BitVec 8) : EI := ⟨g0, d, a, 0, 0, imm⟩
abbrev ek (d : BitVec 5) (imm : BitVec 22) : EK := ⟨g0, d, imm⟩
abbrev ms (d a : BitVec 5) (imm : BitVec 17) : MS := ⟨g0, d, a, imm⟩

/-- A core in firmware mode, and one in service mode, with these registers. -/
abbrev fw (g : Sparse Dword) : Core := { g := g, run := .running }
abbrev sv (g : Sparse Dword) : Core := { g := g, run := .running, pstat := 0 }

/-- Core 0 executes a word. -/
abbrev onCore (k : Core) : State := { State.reset with cores := [(0, k)] }
/-- Slot 0 of element 0 executes a rule, in round 1. -/
abbrev onElem (el : Elem) : State := { State.reset with round := 1, elems := [(0, el)], cur := .element 0 0 }

theorem runs (s : State) (c : Nat) (i : Instr) (h0 : s.cur = .core c) (h : (s.core c).run = .running) (hl : i.coreIllegal = false)
    (hg : i.body?.map Body.guard = some g0) : CoreRuns s c i := by
  refine ⟨h0, h, hl, fun x hx => ?_⟩
  rw [hx] at hg
  rw [Option.some.inj hg]
  simp [Core.condHolds]

theorem on_elem (el : Elem) (i : Instr) (h : i.elemFault 0xF 0xF = none) : ElemFires (onElem el) 0 0 i := ⟨rfl, h⟩

/-- An element with nothing in its outputs has room. -/
theorem has_room (el : Elem) (x : Body) (h : el.io.outs = []) (h' : el.io.closedOut = 0) : Room (onElem el) 0 x := fun k _ _ _ => by
  show el.io.room k = true
  simp [Ports.room, Ports.outq, h, h', Sparse.get]

/-- A region of the tile (0, 0) in plane 0. -/
abbrev oneTile : Region := { live := true, h := 1, w := 1, rmap := [0], cmap := [0] }
abbrev withRegion (k : Core) (r : Region) : State := { onCore k with regions := [(0, r)] }

/-! ### Words of the spec -/

/-- R95. -/
theorem test_adds : decodeWord 0x0000400010C3243A = .ok (.adds ⟨⟨0, 0, 4, 0, 0, 0, 0⟩, 3, 1, 18, 4, 7⟩) := rfl
/-- R40: the element example. -/
theorem test_fadd : decodeWord 0x050121A905224248 = .ok (.fadd ⟨⟨5, 1, 2, 1, 1, 1, 2⟩, 20, 17, 4, 2, 9⟩) := rfl
/-- R40: the mason example, (!p3) addi g4, g2, #-8. -/
theorem test_addi_false : decodeWord 0x08000000510400F8 = .ok (.addi ⟨⟨8, 0, 0, 0, 0, 0, 0⟩, 4, 2, 0, 0, 0xF8⟩) := rfl
/-- R105: the four words of the constant. -/
theorem test_movk : decodeWord 0x02000000A84001FF = .ok (.movk ⟨⟨2, 0, 0, 0, 0, 0, 0⟩, 1, 0x1FF⟩) := rfl
/-- R105. -/
theorem test_cmpne : decodeWord 0x0200000036038039 = .ok (.cmpne ⟨⟨2, 0, 0, 0, 0, 0, 0⟩, 24, 1, 24, 0, 7⟩) := rfl
/-- R105. -/
theorem test_movks : decodeWord 0x06020000B0400000 = .ok (.movks ⟨⟨6, 2, 0, 0, 0, 0, 0⟩, 1, 0⟩) := rfl
/-- R105. -/
theorem test_cmpltu : decodeWord 0x060200003608105C = .ok (.cmpltu ⟨⟨6, 2, 0, 0, 0, 0, 0⟩, 24, 4, 1, 0, 11⟩) := rfl
/-- R122. -/
theorem test_fma : decodeWord 0x0000100109606100 = .ok (.fma ⟨⟨0, 0, 1, 0, 0, 0, 0⟩, 5, 16, 6, 1, 0⟩) := rfl
/-- R156: contrib m3, i0 ~i0. -/
theorem test_contrib : decodeWord 0x0000100180700100 = .ok (.contrib ⟨⟨0, 0, 1, 0, 0, 0, 0⟩, 3, 16, 0, 1, 0, 0⟩) := rfl
/-- R156: settle d4, m3 ?p2. -/
theorem test_settle : decodeWord 0x0000000198640058 = .ok (.settle ⟨g0, 3, 4, 0, 0, 11, 0⟩) := rfl
/-- R174: mxt.mma o0, i1, zero ~i1 +p2. -/
theorem test_mxt_mma : decodeWord 0x04002101C5238248 = .ok (.mxtMma ⟨⟨4, 0, 2, 1, 0, 0, 0⟩, 20, 17, 24, 2, 9⟩) := rfl
/-- R206: amor.add d3, d1, d2 ?p1. -/
theorem test_amor : decodeWord 0x00000001D8C22038 = .ok (.amorAdd ⟨g0, 3, 1, 2, 0, 7⟩) := rfl
/-- R206: amoc d3, d1, d2, d5. -/
theorem test_amoc : decodeWord 0x01010001E0C22005 = .ok (.amoc ⟨⟨1, 1, 0, 0, 0, 0, 0⟩, 3, 1, 2, 0, 0⟩ 5) := rfl
/-- R223. -/
theorem test_stc_copy : decodeWord 0x00000201CD422000 = .ok (.stcCopy ⟨⟨0, 0, 0, 2, 0, 0, 0⟩, 21, 1, 2, 0, 0⟩) := rfl
/-- R246. -/
theorem test_mxt_flush : decodeWord 0x00000401C5864005 = .ok (.mxtFlush ⟨⟨0, 0, 0, 4, 0, 0, 0⟩, 22, 3, 4, 0, 0⟩) := rfl
/-- R267. -/
theorem test_mxq : decodeWord 0x00000201FD443000 = .ok (.mxq ⟨⟨0, 0, 0, 2, 0, 0, 0⟩, 21, 2, 3, 0, 0⟩) := rfl
/-- R270. -/
theorem test_mxt_bind : decodeWord 0x00000101C5318001 = .ok (.mxtBind ⟨⟨0, 0, 0, 1, 0, 0, 0⟩, 20, 24, 24, 0, 0⟩) := rfl
/-- R282: mov d4, tagh.i0 ~i0 +p0. -/
theorem test_mov : decodeWord 0x81001000B9320108 = .ok (.mov ⟨⟨129, 0, 1, 0, 0, 0, 0⟩, 4, 25, 0, 1, 1⟩ 0) := rfl
/-- R302: ldd g4, 16(g2). -/
theorem test_ldd : decodeWord 0x0000000231040010 = .ok (.ldd (ms 4 2 16)) := rfl
/-- R304: fence.ld. -/
theorem test_fence : decodeWord 0x0000000278000001 = .ok (.fenceLd (ea 0 0 0)) := rfl
/-- R308: freeze g3, g1. -/
theorem test_freeze : decodeWord 0x00000002A0C20000 = .ok (.freeze (ea 3 1 0)) := rfl
/-- R308: evack g3, g1, g2. -/
theorem test_evack : decodeWord 0x00000002E0C22001 = .ok (.evack (ea 3 1 2)) := rfl
/-- R319: movpc g2, msg. -/
theorem test_movpc : decodeWord 0x00000002D080000B = .ok (.movpc (ek 2 11)) := rfl
/-- R319: ldb g4, 0(g2). -/
theorem test_ldb : decodeWord 0x0000000219040000 = .ok (.ldb (ms 4 2 0)) := rfl
/-- R319: crcb g1, g4. -/
theorem test_crcb : decodeWord 0x00000002A8480000 = .ok (.crcb (ea 1 4 0)) := rfl
/-- R319: addi g3, g3, #-1 ?p1. -/
theorem test_addi : decodeWord 0x0000000050C607FF = .ok (.addi ⟨g0, 3, 3, 0, 7, 0xFF⟩) := rfl
/-- R319: (p1) br loop. -/
theorem test_br : decodeWord 0x02020002003FFFFC = .ok (.br ⟨⟨2, 2, 0, 0, 0, 0, 0⟩, 0, 0x3FFFFC⟩) := rfl
/-- R319: shli g1, g1, #32. -/
theorem test_shli : decodeWord 0x0000000070420020 = .ok (.shli (ei 1 1 32)) := rfl
/-- R319: halt. -/
theorem test_halt : decodeWord 0x0000000290000006 = .ok (.halt (ea 0 0 0)) := rfl
/-- R37: the all-zero word is VOID. -/
theorem test_void : decodeWord 0 = .error .void := rfl

/-! ### Ill-formed terms, one for each check (R38, R83) -/

/-- R34: an unused field is not zero. -/
theorem smoke_field : (Instr.nop (ea 0 0 1)).elemFault 0xF 0xF = some .fieldNonzero := rfl
/-- R30: a specifier code is reserved. -/
theorem smoke_reserved : (Instr.add (ea 1 28 2)).elemFault 0xF 0xF = some .specReserved := rfl
/-- R30: an output is no source. -/
theorem smoke_direction : (Instr.add (ea 1 20 2)).elemFault 0xF 0xF = some .specDirection := rfl
/-- R38: an opcode that only mason cores have. -/
theorem smoke_mason : (Instr.halt (ea 0 0 0)).elemFault 0xF 0xF = some .opcodeMason := rfl
/-- R28: an input is read that the guard does not name. -/
theorem smoke_head : (Instr.add (ea 1 16 2)).elemFault 0xF 0xF = some .headUnguarded := rfl
/-- R73: a port that the course does not configure. -/
theorem smoke_port : (Instr.add ⟨⟨0, 0, 1, 0, 0, 0, 0⟩, 1, 16, 2, 1, 0⟩).elemFault 0 0xF = some .portUnconfigured := rfl
/-- R28: a guard field that TE leaves unused. -/
theorem smoke_guard : (Instr.add ⟨⟨0, 1, 0, 0, 0, 0, 0⟩, 1, 2, 3, 0, 0⟩).elemFault 0xF 0xF = some .guardField := rfl
/-- R33: a conditional predicate update where the opcode has no condition. -/
theorem smoke_condition : (Instr.nop ⟨g0, 0, 0, 0, 0, 3⟩).elemFault 0xF 0xF = some .puNocond := rfl
/-- R29: a combining operator beyond the list. -/
theorem smoke_combine : (Instr.contrib ⟨g0, 3, 1, 12, 0, 0, 0⟩).elemFault 0xF 0xF = some .combineCode := rfl
/-- R38: a mason core takes no DQ, and no element opcode. -/
theorem smoke_core : (Instr.add ⟨g0, 1, 2, 3, 1, 0⟩).coreIllegal = true ∧ (Instr.fadd (ea 1 2 3)).coreIllegal = true := ⟨rfl, rfl⟩

/-! ### States that meet the hypotheses: encoding and steps -/

theorem meets_DecodeOfEncode : ∃ i x, Instr.body? i = some x := ⟨.add (ea 1 2 3), _, rfl⟩

theorem meets_EncodeOfDecode : ∃ w i, decodeWord w = .ok i := ⟨0x0000000231040010, _, rfl⟩

theorem meets_RejectedWords : (∃ w : Dword, (opcodeOf w).toNat = 0 ∧ w ≠ 0) ∧ (∃ w : Dword, 0x60 ≤ (opcodeOf w).toNat)
    ∧ ∃ w : Dword, (opcodeOf w, (fOf w).toNat) = (0x08, 3) := ⟨⟨1, by decide⟩, ⟨0x0000000300000000, by decide⟩, ⟨0x40000003, by decide⟩⟩

/-- Core 1 stands at a NOP, which its instruction cache holds. -/
abbrev atNop : State :=
  { State.reset with cores := [(1, { fw [] with pc := 0x8000000000000000, icache := [(0, leBytes 64 0xD0000000)] })], cur := .core 1 }

theorem meets_StepRunsDecoded : (∃ s i rest, State.agenda s = i :: rest)
    ∧ (∃ s' w i, (atNop.core 1).canFetch = true ∧ ¬(1 = 0 ∧ (atNop.core 1).pc = romEntry) ∧ fetchAt atNop 1 = (s', .word w)
        ∧ decodeWord w = .ok i)
    ∧ (∃ i t, decodeWord (({ slots := [(0, 0xD0000000)] } : Elem).slots.get 0 0) = .ok i
        ∧ Machine.exec i (onElem { slots := [(0, 0xD0000000)] }) = .next t) :=
  ⟨⟨{ State.reset with agenda := [.hostMessage] }, _, _, rfl⟩, ⟨_, 0xD0000000, _, rfl, by decide, rfl, rfl⟩, ⟨_, _, rfl, rfl⟩⟩

/-! ### States that meet the hypotheses: mason cores -/

theorem meets_CoreInteger : (∃ s c row x, row ∈ aluRows ∧ CoreRuns s c (row.op x)) ∧ ∃ s c row x, row ∈ immRows ∧ CoreRuns s c (row.op x) :=
  ⟨⟨onCore (fw []), 0, ⟨.add, 0, 1, _⟩, ea 1 2 3, List.mem_append_left _ List.mem_cons_self, runs _ _ _ rfl rfl rfl rfl⟩,
    ⟨onCore (fw []), 0, ⟨.addi, 1, _⟩, ei 1 2 3, List.mem_cons_self, runs _ _ _ rfl rfl rfl rfl⟩⟩

theorem meets_CoreMovesPredicates : ∀ i ∈ [Instr.bfi (ea 1 2 3), .sel (ea 1 2 3) 5, .movk (ek 1 7), .movks (ek 1 7), .mov (ea 1 2 0) 0,
    .movpc (ek 1 7), .pget (ea 1 0 0), .pput (ea 0 1 0), .psetm (ea 0 1 0), .pclrm (ea 0 1 0), .nop (ea 0 0 0)],
    CoreRuns (onCore (fw [])) 0 i := by
  simp only [List.forall_mem_cons, List.not_mem_nil, false_implies, implies_true, and_true]
  and_intros <;> exact runs _ _ _ rfl rfl rfl rfl

/-- An instruction whose condition tests p0, which is 0. -/
abbrev ifP0 : Instr := .add ⟨⟨1, 1, 0, 0, 0, 0, 0⟩, 1, 2, 3, 0, 0⟩

theorem meets_CoreConditionFalse : (∃ x, ifP0.body? = some x ∧ ((onCore (fw [])).core 0).condHolds x.guard = false ∧ ifP0.coreIllegal = false)
    ∧ ∃ x, (Instr.add ⟨⟨1, 1, 0, 0, 0, 0, 0⟩, 1, 2, 3, 1, 0⟩).body? = some x ∧ ((onCore (fw [])).core 0).condHolds x.guard = false
      ∧ (Instr.add ⟨⟨1, 1, 0, 0, 0, 0, 0⟩, 1, 2, 3, 1, 0⟩).coreIllegal = true := ⟨⟨_, rfl, rfl, rfl⟩, ⟨_, rfl, rfl, rfl⟩⟩

theorem meets_CoreIllegal : Pstat.tip ((onCore (fw [])).core 0).pstat = false ∧ (∃ w r, decodeWord w = .error r)
    ∧ ∃ i x, Instr.body? i = some x ∧ i.coreIllegal = true := ⟨rfl, ⟨0, _, rfl⟩, ⟨.fadd (ea 1 2 3), _, rfl, rfl⟩⟩

/-- Each of R38's rows that makes a word illegal in a core, and a word that none does. -/
theorem meets_CoreIllegal_rows : ∀ i ∈ [Instr.fadd (ea 1 2 3), .add (ea 1 2 3), .add ⟨⟨0, 0, 1, 0, 0, 0, 0⟩, 1, 2, 3, 0, 0⟩, .add ⟨g0, 1, 2, 3, 1, 0⟩,
    .mov (ea 1 2 0) 3, .nop (ea 1 0 0), .nop ⟨g0, 0, 0, 0, 0, 3⟩], ∃ x o, Instr.body? i = some x ∧ i.info? = some o := by
  simp only [List.forall_mem_cons, List.not_mem_nil, false_implies, implies_true, and_true]
  and_intros <;> exact ⟨_, _, rfl, rfl⟩

theorem meets_CoreTraps : Pstat.tip ((onCore (fw [])).core 0).pstat = false ∧ CoreRuns (onCore (fw [])) 0 (.trap (ea 0 1 0))
    ∧ CoreRuns (onCore (fw [])) 0 (.brk (ea 0 0 0)) ∧ CoreRuns (onCore (fw [])) 0 (.eret (ea 0 0 0)) :=
  ⟨rfl, runs _ _ _ rfl rfl rfl rfl, runs _ _ _ rfl rfl rfl rfl, runs _ _ _ rfl rfl rfl rfl⟩

theorem meets_CoreDoubleTrap : ∃ s, CoreRuns s 0 (.trap (ea 0 1 0)) ∧ Pstat.tip (s.core 0).pstat = true ∧ (s.evq (0 / 4)).recs.length < 256
    ∧ (s.evq (0 / 4)).lost = 0 := ⟨onCore { fw [] with pstat := 0x21 }, runs _ _ _ rfl rfl rfl rfl, rfl, by decide, rfl⟩

theorem meets_CoreBranches : CoreRuns (onCore (fw [])) 0 (.br ⟨g0, 0, 5⟩) ∧ CoreRuns (onCore (fw [])) 0 (.brl ⟨g0, 0, 5⟩)
    ∧ CoreRuns (onCore (fw [])) 0 (.bri (ea 0 4 0)) ∧ CoreRuns (onCore (fw [])) 0 (.brli (ea 31 4 0))
    ∧ CoreRuns (onCore (fw [])) 0 (.movpc (ek 1 7)) := by
  refine ⟨?_, ?_, ?_, ?_, ?_⟩ <;> exact runs _ _ _ rfl rfl rfl rfl

/-- Register 1 gives the number. -/
theorem meets_CoreSystemRegisters : (∀ n : Dword, CoreRuns (onCore (fw [(1, n)])) 0 (.sysrd (ei 2 1 0))
      ∧ CoreRuns (onCore (fw [(1, n)])) 0 (.syswr (ei 2 1 0)) ∧ CoreRuns (onCore (sv [(1, n)])) 0 (.syswr (ei 2 1 0))
      ∧ (((onCore (fw [(1, n)])).core 0).reg 1 + (0 : BitVec 8).signExtend 64).toNat = n.toNat)
    ∧ ((onCore (fw [])).core 0).firmware = true ∧ ((onCore (sv [])).core 0).firmware = false ∧ Pstat.tip ((onCore (sv [])).core 0).pstat = false := by
  refine ⟨fun n => ⟨runs _ _ _ rfl rfl rfl rfl, runs _ _ _ rfl rfl rfl rfl, runs _ _ _ rfl rfl rfl rfl, ?_⟩, rfl, rfl, rfl⟩
  show (n + 0#64).toNat = n.toNat
  simp

/-- A record waits in the die's event queue. -/
abbrev aRec : EvRec := ⟨3, 0, 0, 0, 0, 0, 0⟩
abbrev withEvent (k : Core) : State := { onCore k with evqs := [(0, { recs := [aRec], entered := 1 })] }

theorem meets_CoreWaits : (CoreRuns (onCore (fw [])) 0 (.idle (ea 0 0 0)) ∧ ¬0 < ((onCore (fw [])).evq (coreDie 0)).recs.length)
    ∧ (CoreRuns (withEvent (fw [])) 0 (.idle (ea 0 0 0)) ∧ 0 < ((withEvent (fw [])).evq (coreDie 0)).recs.length
        ∧ ¬(Pstat.ie ((withEvent (fw [])).core 0).pstat = true ∧ Pstat.tip ((withEvent (fw [])).core 0).pstat = false))
    ∧ (CoreRuns (withEvent { fw [] with pstat := 9 }) 0 (.idle (ea 0 0 0))
        ∧ Pstat.ie ((withEvent { fw [] with pstat := 9 }).core 0).pstat = true)
    ∧ (CoreRuns (onCore { fw [] with pstat := 5 }) 0 (.wfe (ea 0 0 0)) ∧ Pstat.evf ((onCore { fw [] with pstat := 5 }).core 0).pstat = true)
    ∧ (CoreRuns (onCore (fw [])) 0 (.wfe (ea 0 0 0)) ∧ Pstat.evf ((onCore (fw [])).core 0).pstat = false)
    ∧ CoreRuns (onCore (fw [])) 0 (.sev (ea 0 0 0)) ∧ CoreRuns (onCore (fw [])) 0 (.halt (ea 0 0 0)) := by
  refine ⟨⟨?_, by decide⟩, ⟨?_, by decide, by decide⟩, ⟨?_, rfl⟩, ⟨?_, rfl⟩, ⟨?_, rfl⟩, ?_, ?_⟩ <;> exact runs _ _ _ rfl rfl rfl rfl

/-- g2 holds the place of status space, or another place. -/
abbrev statusPlace : Dword := 0x8000C00000000000
theorem meets_CorePrivileged : ((onCore (sv [(2, statusPlace)])).core 0).firmware = false ∧ CoreRuns (onCore (sv [])) 0 (.halt (ea 0 0 0))
    ∧ CoreRuns (onCore (sv [])) 0 (.lkctl (ea 1 2 3))
    ∧ (∃ s p, CoreRuns s 0 (.std (ms 1 2 0)) ∧ (s.core 0).firmware = false ∧ (effAddr s 0 (ms 1 2 0)).toNat % 8 = 0
        ∧ resolve s 0 (effAddr s 0 (ms 1 2 0)) false true = (s, .place p) ∧ Place.space p = 6)
    ∧ (∃ s p, CoreRuns s 0 (.mamoAdd (ea 1 2 3)) ∧ (s.core 0).firmware = false ∧ ((s.core 0).reg 2).toNat % 8 = 0
        ∧ resolve s 0 ((s.core 0).reg 2) true true = (s, .place p) ∧ Place.space p = 6) :=
  ⟨rfl, runs _ _ _ rfl rfl rfl rfl, runs _ _ _ rfl rfl rfl rfl,
    ⟨onCore (sv [(2, statusPlace)]), _, runs _ _ _ rfl rfl rfl rfl, rfl, by decide, rfl, by decide⟩,
    ⟨onCore (sv [(2, statusPlace)]), _, runs _ _ _ rfl rfl rfl rfl, rfl, by decide, rfl, by decide⟩⟩

/-- SYSWR to a privileged register, and an access of the configuration operations to status space. -/
theorem meets_CorePrivileged_more : (∀ n : Dword, CoreRuns (onCore (sv [(1, n)])) 0 (.syswr (ei 2 1 0)))
    ∧ (∀ g, ∀ i ∈ [Instr.cfgw (ea 1 2 3), .cfgstat (ea 1 2 0), .cfgr (ea 1 2 0), .snaprd (ea 1 2 0)], CoreRuns (onCore (sv g)) 0 i)
    ∧ (∃ p, p < 2 ^ 60 ∧ Place.space p = 6 ∧ statusPlace = BitVec.ofNat 64 (2 ^ 63 + p))
    ∧ (∃ p, statusPlace.toNat % 8 = 0 ∧ resolve (onCore (sv [])) 0 statusPlace true false = (onCore (sv []), .place p) ∧ Place.space p = 6)
    ∧ ∃ s p, CoreRuns s 0 (.std (ms 1 2 0)) ∧ resolve s 0 (effAddr s 0 (ms 1 2 0)) false true = (s, .place p) ∧ Place.space p = 6
        ∧ s.coreTurn 0 p = true := by
  refine ⟨fun n => runs _ _ _ rfl rfl rfl rfl, fun g => ?_, ⟨0xC00000000000, by decide, by decide, by decide⟩,
    ⟨0xC00000000000, by decide, rfl, by decide⟩, ⟨onCore (sv [(2, statusPlace)]), _, runs _ _ _ rfl rfl rfl rfl, rfl, by decide, rfl⟩⟩
  simp only [List.forall_mem_cons, List.not_mem_nil, false_implies, implies_true, and_true]
  and_intros <;> exact runs _ _ _ rfl rfl rfl rfl

/-- One piece of memory of this device, inside a page, with no uncorrectable error. -/
theorem span_one (c : Nat) (w : Bool) (s : State) (addr : Dword) (n p k : Nat) (h : resolve s c addr (!w) w = (s, .place p))
    (hp : pieceBad s p = none) (he : s.eccBad = []) (h0 : 0 < n) (hn : n ≤ 65536 - addr.toNat % 65536) :
    spanOf c w (k + 2) s addr n = (s, .ok [(p, n)]) := by
  have hm : min n (65536 - addr.toNat % 65536) = n := by omega
  have hecc : s.eccAt p n = false := by simp [State.eccAt, he, Sparse.get]
  simp [spanOf, h, hp, hm, hecc, Nat.ne_of_gt h0]

theorem reads (s : State) (addr : Dword) (n p : Nat) (h : resolve s 0 addr true false = (s, .place p)) (hp : pieceBad s p = none)
    (ho : isOwn s p = true) (hl : diesLinked s (coreDie 0) (Place.die p) = true) (ht : isTileMem s p = false) (he : s.eccBad = [])
    (h0 : 0 < n) (hn : n ≤ 65536 - addr.toNat % 65536) : Reads s 0 addr n [(p, n)] (s.bytes p n) :=
  ⟨span_one 0 false s addr n p _ h hp he h0 hn, by simp [operandParts, ho], by simp [operandTurn, ht, hl], by simp [operandParts, ho]⟩

theorem writes (s : State) (addr : Dword) (bs : List Byte) (p : Nat) (h : resolve s 0 addr false true = (s, .place p))
    (hp : pieceBad s p = none) (ho : isOwn s p = true) (hl : diesLinked s (coreDie 0) (Place.die p) = true) (ht : isTileMem s p = false)
    (he : s.eccBad = []) (h0 : 0 < bs.length) (hn : bs.length ≤ 65536 - addr.toNat % 65536) : Writes s 0 addr bs [(p, bs.length)] :=
  ⟨span_one 0 true s addr bs.length p _ h hp he h0 hn, by simp [operandParts, ho, dealBytes], by simp [operandTurn, ht, hl]⟩

/-! ### Memory -/

/-- The first place of HBM, as a mason address, and a few that no access may use: a vault place beyond its vault, spaces 3, 4 and 5. -/
abbrev hbm : Dword := 0x8000000000000000
/-- The first place of a tile memory whose bank has served its second granule in this round, and one of HBM of device 1, with a valid
device number. -/
abbrev tileMem0 : Dword := 0x8000400000000000
abbrev bankTaken (k : Core) : State := (onCore k).takeTurn 0x400000000010
abbrev farHbm : Dword := 0x8001000000000000
abbrev reachesOut (k : Core) : State := { onCore k with devnum := 0x10000 }

theorem meets_MemoryReadWrite : (8 : Nat) ≤ 2 ^ 48 ∧ (∀ k, k < 8 → Place.here 8 ≠ Place.here (0 + k)) :=
  ⟨by omega, by decide⟩

/-- A cached leaf of a 64 KiB page at virtual 0, readable and writable. -/
abbrev aLeaf : Leaf := ⟨0, 0, 4, 0x6000000000000001⟩
/-- A context whose root table stands nowhere. -/
abbrev badCtx : State := { State.reset with ctxTable := [(0, 0xFFFFFFFFFFFFFFFF)] }

theorem meets_AddressForms : (∃ p, p < 2 ^ 60 ∧ hbm = BitVec.ofNat 64 (2 ^ 63 + p))
    ∧ (∃ a : Dword, a.getLsbD 63 = true ∧ a.toNat / 2 ^ 60 % 8 ≠ 0) ∧ (∃ a : Dword, a.getLsbD 63 = false ∧ a.toNat / 2 ^ 56 ≠ 0)
    ∧ (∃ (s : State) (l : Leaf), findLeaf (s.core 0).tlb (0 : Dword).toNat 0 = some l ∧ leafR l.dword = true ∧ leafW l.dword = true
        ∧ leafM l.dword = false)
    ∧ (findLeaf (State.reset.core 0).tlb 0 ((State.reset.core 0).mctx.toNat % 4096) = none ∧ ∃ lv, walk State.reset 0 0 = .notPresent lv)
    ∧ (findLeaf (badCtx.core 0).tlb 0 ((badCtx.core 0).mctx.toNat % 4096) = none ∧ ∃ lv, walk badCtx 0 0 = .malformed lv) :=
  ⟨⟨0, by decide, by decide⟩, ⟨0xF000000000000000, by decide, by decide⟩, ⟨0x0F00000000000000, by decide, by decide⟩,
    ⟨onCore { fw [] with tlb := [aLeaf] }, aLeaf, rfl, rfl, rfl, rfl⟩, ⟨rfl, 0, rfl⟩, ⟨rfl, 0, by decide⟩⟩

/-- Context 0 maps 4 GiB at virtual 0 by a leaf with these top bits, through tables at places 0 and 0x20000. -/
abbrev leafPage (top : Byte) : State :=
  { onCore (fw []) with ctxTable := [(0, 0x8000000000000000)], mem := [(1, 0x10), (7, 0x80), (0x20007, top)] }

/-- A cached leaf without W, a migrating one, and a walk that finds each kind of leaf; each kind of entry of a table. -/
theorem meets_AddressForms_walk : (∃ (s : State) (l : Leaf), findLeaf (s.core 0).tlb (0 : Dword).toNat 0 = some l ∧ missing l.dword false true)
    ∧ (∃ (s : State) (l : Leaf), findLeaf (s.core 0).tlb (0 : Dword).toNat 0 = some l ∧ moving l.dword false true)
    ∧ (∃ lv d, walk (leafPage 0xE2) 0 0 = .leaf lv d ∧ ¬missing d false true ∧ leafM d = false ∧ ¬moving d false true)
    ∧ (∃ lv d, walk (leafPage 0xC2) 0 0 = .leaf lv d ∧ missing d false true)
    ∧ (∃ lv d, walk (leafPage 0xE6) 0 0 = .leaf lv d ∧ moving d false true ∧ ¬missing d false true ∧ leafM d = true)
    ∧ (∃ lv p, walk { leafPage 0xE2 with eccBad := [(0, 2)] } 0 0 = .ecc lv p)
    ∧ (tableOk (leafPage 0xE2) 0 0 = true ∧ ((leafPage 0xE2).ctxTable.get 0 0).getLsbD 63 = true ∧ tableOk badCtx 0 (2 ^ 60 - 2 ^ 17) = false
        ∧ (State.reset.ctxTable.get 0 0).getLsbD 63 = false)
    ∧ ((leafPage 0xE2).eccAt 0 8 = false ∧ (BitVec.ofNat 64 ((leafPage 0xE2).read 0 8)).getLsbD 63 = true
        ∧ (BitVec.ofNat 64 ((leafPage 0xE2).read 0 8)).extractLsb' 55 3 = 0
        ∧ (BitVec.ofNat 64 ((leafPage 0xE2).read 0x20000 8)).extractLsb' 55 3 ≠ 0
        ∧ EntryBad (leafPage 0xE2) 0 0xE200000000000000 ∧ ¬EntryBad (leafPage 0xE2) 1 0xE200000000000000) := by
  refine ⟨⟨onCore { fw [] with tlb := [⟨0, 0, 4, 0x4000000000000001⟩] }, _, rfl, .inr ⟨rfl, rfl⟩⟩,
    ⟨onCore { fw [] with tlb := [⟨0, 0, 4, 0x6400000000000001⟩] }, _, rfl, by unfold moving missing; decide⟩, ⟨1, 0xE200000000000000, ?_⟩,
    ⟨1, 0xC200000000000000, ?_⟩, ⟨1, 0xE600000000000000, ?_⟩, ⟨0, 0, by decide +kernel⟩, by decide +kernel, ?_⟩ <;>
    (try unfold moving) <;> (try unfold missing) <;> (try unfold EntryBad) <;> decide +kernel

theorem meets_CoreLoads : (∃ s p, CoreRuns s 0 (.ldd (ms 1 2 0)) ∧ (effAddr s 0 (ms 1 2 0)).toNat % 8 = 0
      ∧ resolve s 0 (effAddr s 0 (ms 1 2 0)) true false = (s, .place p) ∧ InMemory s 0 p 8)
    ∧ (∃ s : State, CoreRuns s 0 (.ldd (ms 1 2 0)) ∧ resolve s 0 (effAddr s 0 (ms 1 2 0)) true false = (s, .place 0x400000000000)
      ∧ s.bankTurn 0x400000000000 = false)
    ∧ (∃ s p, CoreRuns s 0 (.ldd (ms 1 2 0)) ∧ resolve s 0 (effAddr s 0 (ms 1 2 0)) true false = (s, .place p)
      ∧ isOwn s p = false ∧ reachable s = true ∧ Place.space p < 3)
    ∧ (∃ s p, CoreRuns s 0 (.ldw (ms 1 2 0)) ∧ resolve s 0 (effAddr s 0 (ms 1 2 0)) true false = (s, .place p)
      ∧ isOwn s p = true ∧ placeValid s p = true ∧ Place.space p = 5)
    ∧ ∃ s p, CoreRuns s 0 (.ldw (ms 1 2 0)) ∧ resolve s 0 (effAddr s 0 (ms 1 2 0)) true false = (s, .place p)
      ∧ isOwn s p = true ∧ Place.space p = 6 :=
  ⟨⟨onCore (fw [(2, hbm)]), 0, runs _ _ _ rfl rfl rfl rfl, rfl, rfl, rfl, rfl, by decide, rfl, rfl⟩,
    ⟨bankTaken (fw [(2, tileMem0)]), runs _ _ _ rfl rfl rfl rfl, rfl, by decide⟩,
    ⟨reachesOut (fw [(2, farHbm)]), 0x1000000000000, runs _ _ _ rfl rfl rfl rfl, rfl, by decide, by decide, by decide⟩,
    ⟨onCore (fw [(2, 0x8000A00000000000)]), 0xA00000000000, runs _ _ _ rfl rfl rfl rfl, rfl, rfl, rfl, rfl⟩,
    ⟨onCore (fw [(2, statusPlace)]), 0xC00000000000, runs _ _ _ rfl rfl rfl rfl, rfl, rfl, rfl⟩⟩

/-- A load of a dword with an uncorrectable error. -/
theorem meets_CoreLoads_ecc : let s := { onCore (fw [(2, hbm)]) with eccBad := [(0, 2)] }
    CoreRuns s 0 (.ldd (ms 1 2 0)) ∧ resolve s 0 (effAddr s 0 (ms 1 2 0)) true false = (s, .place 0) ∧ isOwn s 0 = true
      ∧ placeValid s 0 = true ∧ Place.space 0 < 3 ∧ s.eccAt 0 8 = true ∧ s.coreTurn 0 0 = true ∧ Pstat.tip (s.core 0).pstat = false :=
  ⟨runs _ _ _ rfl rfl rfl rfl, rfl, rfl, rfl, by decide, by decide +kernel, rfl, rfl⟩

/-- Stores to configuration space: to a shadow, to a plane that holds no course, to a frozen one and to one that runs; and in firmware mode
to status space. -/
theorem meets_CoreStores_spaces :
    let at_ (k : Core) (r : Region) : State := { withRegion k r with planes := [(0, { occupied := true })] }
    (∀ s ∈ [onCore (fw [(2, 0x8000A00000000000)]), at_ (fw [(2, 0x8000A00000000000)]) oneTile,
        at_ (fw [(2, 0x8000A00000000000)]) { oneTile with frozen := true }],
      s.cur = .core 0 ∧ (s.core 0).run = .running ∧ resolve s 0 (effAddr s 0 (ms 1 2 0)) false true = (s, .place 0xA00000000000)
        ∧ isOwn s 0xA00000000000 = true ∧ placeValid s 0xA00000000000 = true ∧ s.coreTurn 0 0xA00000000000 = true)
    ∧ Place.space 0xA00000000000 = 5 ∧ CfgPlace.shadow 0xA00000000000 = false ∧ CfgPlace.pk 0xA00000000000 = 0
    ∧ (∃ p, Place.space p = 5 ∧ CfgPlace.shadow p = true)
    ∧ ((onCore (fw [])).plane 0).occupied = false ∧ ((at_ (fw []) oneTile).plane 0).occupied = true
    ∧ (at_ (fw []) oneTile).regionOf 0 = some 0 ∧ ((at_ (fw []) oneTile).region 0).frozen = false
    ∧ ((at_ (fw []) { oneTile with frozen := true }).region 0).frozen = true
    ∧ Pstat.tip ((at_ (fw []) oneTile).core 0).pstat = false
    ∧ (let s := onCore (fw [(2, statusPlace)])
       resolve s 0 (effAddr s 0 (ms 1 2 0)) false true = (s, .place 0xC00000000000) ∧ Place.space 0xC00000000000 = 6
        ∧ placeValid s 0xC00000000000 = true ∧ s.coreTurn 0 0xC00000000000 = true ∧ (s.core 0).firmware = true) := by
  refine ⟨fun s hs => ?_, by decide, by decide +kernel, by decide +kernel, ⟨0xA00040000000, by decide, by decide +kernel⟩, rfl, rfl, rfl, rfl, rfl, rfl,
    rfl, by decide, rfl, rfl, rfl⟩
  simp only [List.mem_cons, List.not_mem_nil, or_false] at hs
  rcases hs with rfl | rfl | rfl <;> exact ⟨rfl, rfl, rfl, rfl, rfl, rfl⟩

theorem meets_CoreStores : (∃ s p, CoreRuns s 0 (.std (ms 1 2 0)) ∧ (effAddr s 0 (ms 1 2 0)).toNat % 8 = 0
      ∧ resolve s 0 (effAddr s 0 (ms 1 2 0)) false true = (s, .place p) ∧ isOwn s p = true ∧ placeValid s p = true ∧ Place.space p < 3
      ∧ s.bankTurn p = true)
    ∧ (∃ s : State, CoreRuns s 0 (.std (ms 1 2 0)) ∧ resolve s 0 (effAddr s 0 (ms 1 2 0)) false true = (s, .place 0x400000000000)
      ∧ s.bankTurn 0x400000000000 = false)
    ∧ ∃ s p, CoreRuns s 0 (.std (ms 1 2 0)) ∧ resolve s 0 (effAddr s 0 (ms 1 2 0)) false true = (s, .place p)
      ∧ isOwn s p = false ∧ reachable s = true ∧ Place.space p < 3 :=
  ⟨⟨onCore (fw [(2, hbm)]), 0, runs _ _ _ rfl rfl rfl rfl, rfl, rfl, rfl, rfl, by decide, rfl⟩,
    ⟨bankTaken (fw [(2, tileMem0)]), runs _ _ _ rfl rfl rfl rfl, rfl, by decide⟩,
    ⟨reachesOut (fw [(2, farHbm)]), 0x1000000000000, runs _ _ _ rfl rfl rfl rfl, rfl, by decide, by decide, by decide⟩⟩

/-- For each operation: a misaligned address, one that is not present, one of a wrong space, and one that no unit has. -/
theorem meets_CoreAccessTraps (a : Dword) :
    (CoreRuns (onCore (fw [(2, a)])) 0 (.ldd (ms 1 2 0)) ∧ CoreRuns (onCore (fw [(2, a)])) 0 (.std (ms 1 2 0))
      ∧ CoreRuns (onCore (fw [(2, a)])) 0 (.mamoAdd (ea 1 2 3)) ∧ Pstat.tip ((onCore (fw [(2, a)])).core 0).pstat = false)
    ∧ (1 : Dword).toNat % 8 ≠ 0
    ∧ (∀ r w, resolve (onCore (fw [(2, 0)])) 0 0 r w = (onCore (fw [(2, 0)]), .bad 0))
    ∧ (∀ r w, ∃ p, resolve (onCore (fw [(2, 0x8000600000000000)])) 0 0x8000600000000000 r w = (onCore (fw [(2, 0x8000600000000000)]), .place p)
        ∧ Place.space p = 3)
    ∧ (∀ r w, ∃ p, resolve (onCore (fw [(2, 0x8000008000000000)])) 0 0x8000008000000000 r w = (onCore (fw [(2, 0x8000008000000000)]), .place p)
        ∧ isOwn (onCore (fw [(2, 0x8000008000000000)])) p = true ∧ Place.space p < 3
        ∧ placeValid (onCore (fw [(2, 0x8000008000000000)])) p = false ∧ (onCore (fw [(2, 0x8000008000000000)])).bankTurn p = true) := by
  refine ⟨⟨?_, ?_, ?_, show Pstat.tip 1 = false by decide⟩, by decide, ?_, ?_, ?_⟩
  · exact runs _ _ _ rfl rfl rfl rfl
  · exact runs _ _ _ rfl rfl rfl rfl
  · exact runs _ _ _ rfl rfl rfl rfl
  · intro r w; cases r <;> cases w <;> rfl
  · intro r w; cases r <;> cases w <;> exact ⟨_, rfl, rfl⟩
  · intro r w; cases r <;> cases w <;> exact ⟨0x8000000000, rfl, rfl, by decide, rfl, rfl⟩

/-- An address whose walk finds an uncorrectable error; a MAMO that must wait, and one on a dword with such an error. -/
theorem meets_CoreAccessTraps_ecc : (∀ r w, (resolve { leafPage 0xE2 with eccBad := [(0, 2)] } 0 0 r w).2 = .ecc)
    ∧ (let s := bankTaken (fw [(2, tileMem0)])
       CoreRuns s 0 (.mamoCas (ea 1 2 3)) ∧ resolve s 0 ((s.core 0).reg 2) true true = (s, .place 0x400000000000)
        ∧ isOwn s 0x400000000000 = true ∧ placeValid s 0x400000000000 = true ∧ s.coreTurn 0 0x400000000000 = false)
    ∧ (let s := { onCore (fw [(2, hbm)]) with eccBad := [(0, 2)] }
       CoreRuns s 0 (.mamoCas (ea 1 2 3)) ∧ resolve s 0 ((s.core 0).reg 2) true true = (s, .place 0) ∧ s.coreTurn 0 0 = true
        ∧ s.eccAt 0 8 = true) :=
  ⟨by decide +kernel, ⟨runs _ _ _ rfl rfl rfl rfl, rfl, rfl, rfl, by decide +kernel⟩, ⟨runs _ _ _ rfl rfl rfl rfl, rfl, rfl, by decide +kernel⟩⟩

theorem meets_CoreMamo : ∃ s p, CoreRuns s 0 (.mamoCas (ea 1 2 3)) ∧ ((s.core 0).reg 2).toNat % 8 = 0
      ∧ resolve s 0 ((s.core 0).reg 2) true true = (s, .place p) ∧ InMemory s 0 p 8 :=
  ⟨onCore (fw [(2, hbm)]), 0, runs _ _ _ rfl rfl rfl rfl, rfl, rfl, rfl, rfl, by decide, rfl, rfl⟩

theorem meets_CoreFences : CoreRuns (onCore (fw [(2, hbm)])) 0 (.fenceAll (ea 0 0 0)) ∧ CoreRuns (onCore (fw [(2, hbm)])) 0 (.iinva (ea 0 0 0))
    ∧ CoreRuns (onCore (fw [(2, hbm)])) 0 (.iinv (ea 0 2 0)) ∧ (∃ l, lineOf (onCore (fw [(2, hbm)])) 0 hbm = some l)
    ∧ lineOf (onCore (fw [])) 0 0 = none :=
  ⟨runs _ _ _ rfl rfl rfl rfl, runs _ _ _ rfl rfl rfl rfl, runs _ _ _ rfl rfl rfl rfl, ⟨_, rfl⟩, rfl⟩

/-! ### System operations -/

theorem meets_CoreCrc : ∃ row x, row ∈ crcRows ∧ CoreRuns (onCore (fw [])) 0 (row.1 x) :=
  ⟨(.crcb, 1), ea 1 2 0, List.mem_cons_self, runs _ _ _ rfl rfl rfl rfl⟩

/-- The instructions of `l`, each on core 0 of `s`. -/
abbrev AllRun (s : State) (l : List Instr) : Prop := ∀ i ∈ l, CoreRuns s 0 i

theorem all_nil (s : State) : AllRun s [] := fun _ h => absurd h List.not_mem_nil

theorem all_cons (s : State) (i : Instr) (l : List Instr) (h0 : s.cur = .core 0) (h : (s.core 0).run = .running) (hl : i.coreIllegal = false)
    (hg : i.body?.map Body.guard = some g0) (hr : AllRun s l) : AllRun s (i :: l) := fun j hj => by
  rcases List.mem_cons.1 hj with rfl | hj
  · exact runs _ _ _ h0 h hl hg
  · exact hr _ hj

/-- A descriptor at place 0 of HBM: message, signature and key at place 0 too, and the parameter set in its fourth dword. -/
abbrev sigMem (set : Byte) : State :=
  { onCore (fw [(1, hbm)]) with mem := [(7, 0x80), (15, 0x80), (23, 0x80), (24, set)] }

theorem meets_CoreSecurity : AllRun (onCore (fw [])) [.shka (ea 0 1 2), .shks (ea 1 0 0), .sigv (ea 3 1 0), .secst (ea 1 0 0)]
    ∧ (0 : Dword).toNat = 0 ∧ ((onCore (fw [])).core 0).sponge.squeezed = 0 ∧ Pstat.tip ((onCore (fw [])).core 0).pstat = false
    ∧ ((onCore { fw [] with sponge := ⟨[], 1⟩ }).core 0).sponge.squeezed ≠ 0
    ∧ (∃ ps d, Reads (sigMem 6) 0 hbm 64 ps d ∧ Xmss.height ((bytesDwords d).getD 3 0).toNat = none)
    ∧ ∃ d msg sig pk ps pm pg pp, Reads (sigMem 7) 0 hbm 64 ps d ∧ Xmss.height ((bytesDwords d).getD 3 0).toNat = some 10
      ∧ (∀ w ∈ (bytesDwords d).drop 4, w = 0) ∧ Reads (sigMem 7) 0 ((bytesDwords d).getD 0 0) 64 pm msg
      ∧ Reads (sigMem 7) 0 ((bytesDwords d).getD 1 0) 2500 pg sig ∧ Reads (sigMem 7) 0 ((bytesDwords d).getD 2 0) 68 pp pk := by
  have hd : ∀ n, 0 < n → n ≤ 65536 → Reads (sigMem 7) 0 hbm n [(0, n)] ((sigMem 7).bytes 0 n) := fun n h h' =>
    reads _ _ _ 0 rfl rfl rfl rfl rfl rfl h h'
  have d7 : bytesDwords ((sigMem 7).bytes 0 64) = [hbm, hbm, hbm, 7, 0, 0, 0, 0] := by decide +kernel
  refine ⟨?_, rfl, rfl, rfl, by decide, ⟨_, _, reads _ _ _ 0 rfl rfl rfl rfl rfl rfl (by decide) (by decide), by decide +kernel⟩,
    _, (sigMem 7).bytes 0 64, (sigMem 7).bytes 0 2500, (sigMem 7).bytes 0 68, [(0, 64)], [(0, 64)], [(0, 2500)], [(0, 68)], hd 64 (by decide) (by decide), ?_⟩
  · iterate 4 apply all_cons _ _ _ rfl rfl rfl rfl
    exact all_nil _
  · rw [d7]
    exact ⟨rfl, by simp, hd 64 (by decide) (by decide), hd 2500 (by decide) (by decide), hd 68 (by decide) (by decide)⟩

/-- A mason-serviced queue of four entries at place 0 of HBM that holds `n`. -/
abbrev withQueue (ms : Bool) (n : Nat) : State :=
  { onCore (fw [(1, 0), (2, hbm)]) with queues := [(0, { cap := 4, ms := ms, len := n, service := List.replicate n false })] }

theorem meets_CoreQueues : (∀ g, AllRun (onCore (fw g)) [.wqpop (ea 3 1 2), .wqpush (ea 3 1 2), .wqstat (ea 3 1 0)])
    ∧ (1024 : Dword).toNat ≥ 1024 ∧ ((withQueue false 0).queue 0).ms = false
    ∧ (((withQueue true 0).queue 0).ms = true ∧ hbm.toNat % 64 = 0 ∧ ((withQueue true 0).queue 0).len = 0)
    ∧ (((withQueue true 1).queue 0).len ≠ 0 ∧ ∃ ps, Writes (withQueue true 1) 0 hbm ((withQueue true 1).bytes (((withQueue true 1).queue 0).slot 0) 64) ps)
    ∧ (∃ ps bs, Reads (withQueue true 4) 0 hbm 64 ps bs ∧ ((withQueue true 4).queue 0).cap ≤ ((withQueue true 4).queue 0).len)
    ∧ ∃ ps bs, Reads (withQueue true 1) 0 hbm 64 ps bs ∧ ((withQueue true 1).queue 0).len < ((withQueue true 1).queue 0).cap := by
  refine ⟨fun g => ?_, by decide, rfl, ⟨rfl, by decide, rfl⟩, ⟨by decide, _, writes _ _ _ 0 rfl rfl rfl rfl rfl rfl (by decide) (by decide)⟩,
    ⟨_, _, reads _ _ _ 0 rfl rfl rfl rfl rfl rfl (by decide) (by decide), by decide⟩, ⟨_, _, reads _ _ _ 0 rfl rfl rfl rfl rfl rfl (by decide) (by decide), by decide⟩⟩
  iterate 3 apply all_cons _ _ _ rfl rfl rfl rfl
  exact all_nil _

theorem meets_CoreEventQueue : (∀ g, AllRun (onCore (fw g)) [.evpop (ea 3 1 0), .evack (ea 3 1 2), .evstat (ea 3 0 0)])
    ∧ (hbm.toNat % 32 = 0 ∧ ((onCore (fw [])).evq 0).recs = []) ∧ ((withEvent (fw [])).evq 0).recs = aRec :: []
    ∧ (∃ ps, Writes (withEvent (fw [(1, hbm)])) 0 hbm (dwordBytes aRec.dwords) ps) ∧ ((1 : Dword).toNat % 32 ≠ 0 ∧ Pstat.tip ((onCore (fw [])).core 0).pstat = false)
    ∧ 1 < (2 : Dword).toNat ∧ ((∀ p ∈ (onCore (fw [])).regions, p.2.live = true → p.2.waitEv ≠ some 5)
        ∧ ∀ p ∈ (onCore (fw [])).launches, p.2.phase ≠ .pinWait 5)
    ∧ ∃ t, answerEvent (withRegion (fw [(1, 5)]) { oneTile with frozen := true, waitEv := some 5, waitType := 5 }) 5 0 = (t, true) := by
  refine ⟨fun g => ?_, ⟨by decide, rfl⟩, rfl, ⟨_, writes _ _ _ 0 rfl rfl rfl rfl rfl rfl (by decide) (by decide)⟩, ⟨by decide, rfl⟩, by decide,
    ⟨fun _ hp => absurd hp List.not_mem_nil, fun _ hp => absurd hp List.not_mem_nil⟩, ⟨_, rfl⟩⟩
  iterate 3 apply all_cons _ _ _ rfl rfl rfl rfl
  exact all_nil _

theorem meets_CoreLinks : (∀ g, AllRun (onCore (fw g)) [.lkst (ea 3 1 0), .lkrt (ea 3 1 0), .lkctl (ea 3 1 2)])
    ∧ (17 ≤ 17 ∨ 32 ≤ 17 ∧ 17 ≤ 35) ∧ ¬(36 ≤ 17 ∨ 32 ≤ 36 ∧ 36 ≤ 35) ∧ ¬(18 ≤ 17 ∨ 32 ≤ 18 ∧ 18 ≤ 35)
    ∧ ((onCore (fw [])).link 17).training = none
    ∧ (({ onCore (fw []) with links := [(17, { training := some 0 })] } : State).link 17).training.isSome = true
    ∧ ((onCore (fw [])).core 0).firmware = true ∧ (0xFFFF : Dword).toNat < 65536 := by
  refine ⟨fun g => ?_, by decide, by decide, by decide, rfl, rfl, rfl, by decide⟩
  iterate 3 apply all_cons _ _ _ rfl rfl rfl rfl
  exact all_nil _

/-- Context 0 maps virtual 0 by a 4 GiB page at place 0. -/
abbrev withPage : State :=
  { onCore (fw []) with ctxTable := [(0, 0x8000000000000000)], mem := [(1, 0x10), (7, 0x80), (0x20007, 0xE2)] }
/-- Two device keystones of 8 words at tiles (0, 0) and (0, 1); a core's migration of the first. -/
abbrev ks0 : Dword := 0x8000800000000000
abbrev ks1 : Dword := 0x8000800200000000
abbrev withKs (k : Core) (old : Keystone) : State :=
  { onCore k with kstones := [(16384, { old with mapped := true, words := 8 }), (16385, { mapped := true, words := 8 })] }

theorem meets_CorePages : (∀ g, AllRun (onCore (fw g)) [.tlbi (ea 3 1 2), .pwalk (ea 3 1 2), .migr (ea 3 1 2), .migq (ea 3 1 0)])
    ∧ (0x7FFF : Dword).toNat < 2 ^ 15 ∧ 2 ^ 15 ≤ (0x8000 : Dword).toNat
    ∧ (∃ lv d, walk withPage (0 : Dword).toNat 0 = .leaf lv d) ∧ (∃ lv, walk State.reset 0 0 = .notPresent lv)
    ∧ (∃ lv, walk badCtx 0 0 = .malformed lv)
    ∧ (((withKs (fw []) {}).core 0).busyTo = none ∧ ksArg (withKs (fw []) {}) ks0 = some 16384 ∧ ksArg (withKs (fw []) {}) ks1 = some 16385
        ∧ (16384 : Nat) ≠ 16385 ∧ ((withKs (fw []) {}).kstone 16384).words = ((withKs (fw []) {}).kstone 16385).words
        ∧ ((withKs (fw []) {}).kstone 16384).fwd = none ∧ ((withKs (fw []) {}).kstone 16384).hold = false)
    ∧ (∃ s : State, CoreRuns s 0 (.migr (ea 3 1 2)) ∧ (s.core 0).busyTo = some 16384 ∧ (s.kstone 16384).fwd.isSome = true)
    ∧ ksArg (onCore (fw [])) 0 = none := by
  refine ⟨fun g => ?_, by decide, by decide, ⟨1, 0xE200000000000000, by decide⟩, ⟨0, rfl⟩, ⟨0, by decide⟩,
    ⟨rfl, by decide, by decide, by decide, rfl, rfl, rfl⟩,
    ⟨withKs { fw [] with busyTo := some 16384 } { fwd := some 16385 }, runs _ _ _ rfl rfl rfl rfl, rfl, rfl⟩, rfl⟩
  iterate 4 apply all_cons _ _ _ rfl rfl rfl rfl
  exact all_nil _

/-- The configuration place of tile (0, 0) of die 0, and the descriptor of that tile in plane 0. -/
abbrev cfg0 : Dword := 0x8000A00000000000

theorem meets_CoreConfiguration : (∀ g, AllRun (onCore (fw g)) [.cfgw (ea 3 1 2), .cfgr (ea 3 1 0), .snaprd (ea 3 1 0), .cfgstat (ea 3 1 0),
      .planesel (ea 3 1 0), .cfgabort (ea 3 1 0), .cfgcommit (ea 3 1 0), .rollbk (ea 3 1 0)])
    ∧ (tileArg (onCore (fw [])) cfg0 = some 0 ∧ statusAccess cfg0 = false ∧ planeBusy (onCore (fw [])) (4 * 0 + 0) = false
        ∧ planeBusy { onCore (fw []) with planes := [(0, { occupied := true })] } (4 * 0 + 0) = true)
    ∧ (∃ p, cfg0.toNat % 8 = 0 ∧ resolve (onCore (fw [])) 0 cfg0 true false = (onCore (fw []), .place p) ∧ Place.space p = 5
        ∧ isOwn (onCore (fw [])) p = true ∧ placeValid (onCore (fw [])) p = true)
    ∧ (3 : Dword).toNat < 4 ∧ 4 ≤ (4 : Dword).toNat ∧ (∃ r, descriptor 0 = some r)
    ∧ (∃ k : Core, k.busyTo = some 0 ∧ ((withRegion k oneTile).region 0).commitHop = none)
    ∧ (∀ r, ((onCore (fw [])).core 0).busyTo = none ∧ overlapping (onCore (fw [])) r = [] ∧ ∃ t ok, commitCheck (onCore (fw [])) r = (t, ok))
    ∧ (descriptor 0).bind (regionNamed (onCore (fw []))) = none ∧ (descriptor 0).bind (regionNamed (withRegion (fw []) oneTile)) = some 0
    ∧ ((withRegion (fw []) oneTile).region 0).frozen = false
    ∧ ((withRegion (fw []) { oneTile with frozen := true }).region 0).frozen = true
    ∧ ((withRegion (fw []) { oneTile with frozen := true }).region 0).relDue = none := by
  refine ⟨fun g => ?_, ⟨by decide, by decide, rfl, rfl⟩, ⟨0xA00000000000, by decide, rfl, rfl, rfl, rfl⟩, by decide, by decide, ⟨_, rfl⟩,
    ⟨{ fw [] with busyTo := some 0 }, rfl, rfl⟩, fun r => ⟨rfl, rfl, _, _, rfl⟩, rfl, rfl, rfl, rfl, rfl⟩
  iterate 8 apply all_cons _ _ _ rfl rfl rfl rfl
  exact all_nil _

abbrev frozenTile : State := withRegion (fw [(2, hbm)]) { oneTile with frozen := true }

/-- A section has at most one dword more than its contents. -/
theorem section_le (u c : Nat) (l : List Dword) : (sectionOf u c l).length ≤ l.length + 1 := by unfold sectionOf; split <;> simp

theorem record_fits : (tileRecord frozenTile (frozenTile.region 0) 0).length ≤ 5002 := by
  have h1 : (((List.range 26).erase 23).flatMap fun u => sectionOf u 0 (unitSection frozenTile 0 u)).length ≤ 2000 := by decide +kernel
  have h2 := section_le 23 0 (unitSection frozenTile 0 23)
  have h3 : (unitSection frozenTile 0 23).length ≤ 1000 := by decide +kernel
  have h4 : ((shadowCuts (frozenTile.region 0)).zipIdx.flatMap fun n =>
      (List.range 26).flatMap fun u => sectionOf u (n.2 + 1) (cutSection frozenTile 0 n.1 u)).length ≤ 2000 := by decide +kernel
  unfold tileRecord
  rw [show channelSection frozenTile 0 = [] from rfl]
  generalize ((shadowCuts (frozenTile.region 0)).zipIdx.flatMap fun n =>
    (List.range 26).flatMap fun u => sectionOf u (n.2 + 1) (cutSection frozenTile 0 n.1 u)) = shadows at h4 ⊢
  rw [show (List.range 26).erase 23 = List.range 23 ++ [24, 25] by decide] at h1
  rw [show List.range 26 = List.range 23 ++ 23 :: [24, 25] by decide]
  simp only [List.flatMap_cons, List.flatMap_nil, List.flatMap_append, List.length_append, List.length_cons, List.length_nil] at h1 ⊢
  omega

/-- The image of a region of one tile fits in a page. -/
theorem image_fits : 0 < (dwordBytes (readoutImage frozenTile (frozenTile.region 0))).length
    ∧ (dwordBytes (readoutImage frozenTile (frozenTile.region 0))).length ≤ 65536 := by
  have hb : ∀ l, (dwordBytes l).length = 8 * l.length := fun l => by
    induction l with
    | nil => rfl
    | cons a l ih => simp [dwordBytes, leBytes] at ih ⊢; omega
  have hi := record_fits
  rw [hb]
  simp only [readoutImage, readoutHeader, show (frozenTile.region 0).pks = [0] from rfl, List.flatMap_cons, List.flatMap_nil, List.length_append,
    List.length_cons, List.length_nil]
  omega

theorem meets_CoreRegions : (∀ g r, AllRun (withRegion (fw g) r) [.freeze (ea 3 1 0), .thaw (ea 3 1 0), .readout (ea 3 1 2), .probe (ea 3 1 0),
      .drainreq (ea 3 1 0), .restore (ea 3 1 2)])
    ∧ (descriptor 0).bind (regionNamed (onCore (fw []))) = none ∧ (descriptor 0).bind (regionNamed (withRegion (fw []) oneTile)) = some 0
    ∧ (let s := withRegion (fw []) oneTile
       (s.region 0).commitHop = none ∧ settled (freezeRegion s 0) ((freezeRegion s 0).region 0) = true ∧ (s.region 0).frozen = false)
    ∧ (let s := frozenTile
       (s.region 0).frozen = true ∧ ∃ ps, Writes s 0 hbm (dwordBytes (readoutImage s (s.region 0))) ps)
    ∧ (∃ t found, probeRegion (withRegion (fw []) oneTile) 0 = (t, found))
    ∧ ∃ r ph bs t v, descriptor 0 = some r ∧ Reads (onCore (fw [(2, hbm)])) 0 hbm 64 ph bs
        ∧ restoreFrom (onCore (fw [(2, hbm)])) r (bytesDwords bs) = (t, v) := by
  refine ⟨fun g r => ?_, rfl, rfl, ⟨rfl, rfl, rfl⟩, ⟨rfl, _, writes _ _ _ 0 rfl rfl rfl rfl rfl rfl image_fits.1 image_fits.2⟩, ⟨_, _, rfl⟩,
    ⟨_, _, _, _, _, rfl, reads _ _ _ 0 rfl rfl rfl rfl rfl rfl (by decide) (by decide), rfl⟩⟩
  iterate 6 apply all_cons _ _ _ rfl rfl rfl rfl
  exact all_nil _

/-- Engine places of die 0, south side 0: position 0 is an island's, position 28 a streamer's. -/
abbrev island0 : Dword := 0x8000600000000000
abbrev streamer0 : Dword := 0x800061C000000000

theorem meets_CoreEngineAccess : (∀ g r, AllRun (withRegion (fw g) r) [.slotrd (ea 3 1 2), .slotwr (ea 3 1 2), .strd (ea 3 1 2), .stwr (ea 3 1 2),
      .islst (ea 3 1 0), .stst (ea 3 1 0)])
    ∧ (∃ e sel, engineArg (onCore (fw [])) island0 false = some e ∧ selectorOf 0 = some sel
        ∧ (∃ v, islandItem ((onCore (fw [])).island (engineKey e sel.plane)) sel.kind sel.index = some v)
        ∧ engineFrozen (withRegion (fw []) { oneTile with h := 1, frozen := true }) (engineKey e sel.plane) = true)
    ∧ (∃ e sel, engineArg (onCore (fw [])) streamer0 true = some e ∧ selectorOf 511 = some sel ∧ sel.kind = 0 ∧ sel.index < 512
        ∧ engineFrozen (onCore (fw [])) (engineKey e sel.plane) = false)
    ∧ (∃ sel, selectorOf 0x10000000 = some sel ∧ sel.kind = 2 ∧ sel.index = 0)
    ∧ engineArg (onCore (fw [])) 0 false = none ∧ Pstat.tip ((onCore (fw [])).core 0).pstat = false := by
  refine ⟨fun g r => ?_, ⟨(0, 0, 0), _, by decide, rfl, ⟨_, rfl⟩, rfl⟩, ⟨(0, 0, 28), _, by decide, rfl, rfl, by decide, rfl⟩, ⟨_, rfl, rfl, rfl⟩, rfl, rfl⟩
  iterate 6 apply all_cons _ _ _ rfl rfl rfl rfl
  exact all_nil _

/-- An access of a core that waits, with the answer that it has. -/
abbrev aPend (got : Option (Nat × Dword)) : CorePend := ⟨7, 0, 4, true, 1, 8, false, 0, got, false, false⟩

theorem meets_CoreKeystoneAccess : (∀ g, AllRun (withKs (fw g) {}) [.ksrd (ea 3 1 0), .ksst (ea 3 1 2), .kswr (ea 0 1 2)])
    ∧ (let s := withKs (fw []) {}
       ∃ p, ks0.toNat % 4 = 0 ∧ Place.space p = 4 ∧ isOwn s p = true ∧ ksReaches s 0 p = true
        ∧ (∀ r w, resolve s 0 ks0 r w = (s, .place p)) ∧ ksWithholds (s.kstone (ksHere s 0 p)) = false
        ∧ ksWithholds { s.kstone (ksHere s 0 p) with waitQ := List.replicate 64 ⟨⟨.read, 0, 0⟩, .core 0, 0⟩ } = true)
    ∧ Pstat.tip ((withKs (fw []) {}).core 0).pstat = false ∧ (ks0 + 2).toNat % 4 ≠ 0
    ∧ (∃ p, (ks0 + 32).toNat % 4 = 0 ∧ resolve (withKs (fw []) {}) 0 (ks0 + 32) true false = (withKs (fw []) {}, .place p)
        ∧ Place.space p = 4 ∧ isOwn (withKs (fw []) {}) p = true ∧ ksReaches (withKs (fw []) {}) 0 p = false)
    ∧ (∃ p, hbm.toNat % 4 = 0 ∧ resolve (withKs (fw []) {}) 0 hbm false true = (withKs (fw []) {}, .place p) ∧ Place.space p ≠ 4)
    ∧ (∀ got, ((withKs { fw [] with pend := some (aPend got) } {}).core 0).pend = some (aPend got) ∧ (aPend got).got = got)
    ∧ ((withKs (fw []) {}).kstone 16384).bar = false := by
  refine ⟨fun g => ?_, ⟨0x800000000000, by decide, rfl, rfl, rfl, ?_, rfl, by decide⟩, rfl, by decide,
    ⟨0x800000000020, by decide, rfl, rfl, rfl, rfl⟩, ⟨0, by decide, rfl, by decide⟩, fun got => ⟨rfl, rfl⟩, rfl⟩
  · iterate 3 apply all_cons _ _ _ rfl rfl rfl rfl
    exact all_nil _
  · intro r w; cases r <;> cases w <;> rfl

/-! ### Elements -/

/-- The words of `l` fire on element 0. -/
theorem all_fire (el : Elem) (l : List Instr) (h : l.all (fun i => (i.elemFault 0xF 0xF).isNone) = true) :
    ∀ i ∈ l, ElemFires (onElem el) 0 0 i := fun i hi => ⟨rfl, Option.isNone_iff_eq_none.1 (List.all_eq_true.1 h i hi)⟩

theorem free_room (x : Body) : Room (onElem {}) 0 x := has_room {} x rfl rfl

/-- A guard that needs a token at input 0, and an element with a token there. -/
abbrev gIn : Guard := ⟨0, 0, 1, 0, 0, 0, 0⟩
abbrev aTok : InTok := { tok := ⟨6, 9, 0⟩, ch := 5, dst := 0, arr := 0 }
abbrev fed : Elem := { io := { ins := [(0, [aTok])] } }
/-- An element whose four outputs are full. -/
abbrev full : Elem :=
  let q : List OutTok := List.replicate 4 { tok := ⟨0, 0, 0⟩, ready := 1 }
  { io := { outs := [(0, q), (1, q), (2, q), (3, q)] } }

theorem meets_ElemOperands : (15 : BitVec 5).toNat < 16 ∧ (16 : BitVec 5).toNat = 16 + 0 ∧ (19 : BitVec 5).toNat = 16 + 3
    ∧ (∃ t, ((onElem fed).elem 0).io.head? 1 0 = some t) ∧ (24 : BitVec 5).toNat = 24 ∧ (25 : BitVec 5).toNat = 25
    ∧ (∃ t, ((onElem fed).elem 0).io.head? 1 (Body.ea (ea 0 0 0) 0).guard.tc.toNat = some t) ∧ (26 : BitVec 5).toNat = 26
    ∧ (27 : BitVec 5).toNat = 27 :=
  ⟨by decide, by decide, by decide, ⟨_, rfl⟩, by decide, by decide, ⟨_, rfl⟩, by decide, by decide⟩

theorem meets_ElemDestinations : (15 : BitVec 5).toNat < 16 ∧ 1 < 2 ∧ (20 : BitVec 5).toNat = 20 + 0 ∧ (23 : BitVec 5).toNat = 20 + 3
    ∧ (24 : BitVec 5).toNat = 24 := by decide

theorem meets_ElemTakes : ∃ s : State, Ports.front [] ((s.elem 0).io.inq 0) = some (aTok, []) ∧ (1 : Nat) ≠ 0 ∧ aTok.tok.tag = 6
    ∧ (none : Option Nat) ≠ some 0 ∧ s.regionOf (0 / 16) = some 0 ∧ (some 0 : Option Nat) = some 0 :=
  ⟨{ onElem fed with regions := [(0, oneTile)] }, rfl, by decide, rfl, nofun, rfl, rfl⟩

theorem meets_ElemFrame : (1 : Nat) ≠ 0 ∧ (Body.ea (ea 1 2 3) 0).pu.toNat % 4 = 0 := ⟨by decide, rfl⟩

theorem meets_ElemInteger : (∃ row x, row ∈ aluRows ∧ ElemFires (onElem {}) 0 0 (row.op x) ∧ Room (onElem {}) 0 (.ea x row.f))
    ∧ (∃ row x, row ∈ immRows ∧ ElemFires (onElem {}) 0 0 (row.op x) ∧ Room (onElem {}) 0 (.ei x))
    ∧ ∃ row x f, row ∈ packRows ∧ (row.1 x).body? = some (.ea x f) ∧ ElemFires (onElem {}) 0 0 (row.1 x) ∧ Room (onElem {}) 0 (.ea x f) :=
  ⟨⟨⟨.add, 0, 1, _⟩, ea 1 2 3, List.mem_append_left _ List.mem_cons_self, on_elem _ _ rfl, free_room _⟩,
    ⟨⟨.addi, 1, _⟩, ei 1 2 3, List.mem_cons_self, on_elem _ _ rfl, free_room _⟩,
    ⟨(.add2h, _), ea 20 2 3, _, List.mem_cons_self, rfl, on_elem _ _ rfl, free_room _⟩⟩

theorem meets_ElemMoves : (∀ i ∈ [Instr.bfi (ea 1 2 3), .sel (ea 1 2 3) 5, .movk (ek 1 7), .movks (ek 1 7), .mov (ea 1 2 0) 0,
      .mov (ea 20 2 0) 7, .mov (ea 23 2 0) 6, .mov (ea 20 2 0) 4, .errt (ea 20 2 0)], ElemFires (onElem {}) 0 0 i)
    ∧ (∀ x, Room (onElem {}) 0 x) ∧ ((1 : BitVec 5).toNat < 20 ∨ 23 < (1 : BitVec 5).toNat) ∧ 20 ≤ (23 : BitVec 5).toNat
    ∧ (23 : BitVec 5).toNat ≤ 23 ∧ (7 : BitVec 3) ≠ 4 ∧ (20 : BitVec 5).toNat = 20 + 0 ∧ (0 : Nat) < 4
    ∧ ({ onElem {} with regions := [(0, oneTile)] } : State).regionOf 0 = some 0
    ∧ (16 : BitVec 5).toNat = 16 + 0 ∧ ((onElem fed).elem 0).io.head? 1 0 = some aTok.tok
    ∧ ElemFires (onElem fed) 0 0 (.fwd ⟨gIn, 20, 16, 0, 1, 0⟩) ∧ Room (onElem fed) 0 (.ea ⟨gIn, 20, 16, 0, 1, 0⟩ 0) :=
  ⟨all_fire _ _ (by decide), free_room, by decide, by decide, by decide, by decide, by decide, by decide, rfl, by decide, rfl,
    on_elem _ _ rfl, has_room _ _ rfl rfl⟩

theorem meets_ElemControl : (∀ i ∈ [Instr.pget (ea 1 0 0), .pput (ea 0 1 0), .psetm (ea 0 1 0), .pclrm (ea 0 1 0), .nop (ea 0 0 0),
      .ehalt (ea 0 0 0), .fwfl (ea 0 1 0), .fclr (ea 0 0 0), .frfl (ea 1 0 0), .etrap (ea 0 0 1) 7, .lld (ei 1 2 3), .lst (ei 1 2 3)],
      ElemFires (onElem {}) 0 0 i) ∧ ∀ x, Room (onElem {}) 0 x := ⟨all_fire _ _ (by decide), free_room⟩

/-- The sum of two zeros; with the traps of the element enabled, a signalling NaN in D1. -/
abbrev trapping : Elem := { fctl := 0x1F00, d := [(2, 0x7F800001)] }

theorem meets_ElemFloat : ∃ row x f, row ∈ fpRows ∧ (row.op x).body? = some (.ea x f) ∧ ElemFires (onElem {}) 0 0 (row.op x)
    ∧ Room (onElem {}) 0 (.ea x f) ∧ NoTrap (onElem {}) 0 (row.res ((onElem {}).elem 0).env 0 0 0).fl :=
  ⟨⟨.fadd, 3, fun v a b _ => FpAlu.fadd v a b⟩, ea 1 2 3, 0, List.mem_append_left _ List.mem_cons_self, rfl, on_elem _ _ rfl, free_room _,
    by simp [NoTrap, State.elem, Sparse.get]⟩

/-- Exact, halfway and other values, of both signs. -/
theorem meets_FloatRounding : 0 < 2 ∧ 2 % 2 = 0 ∧ 2 * (1 % 2) = 2 ∧ 2 * (3 % 2) = 2 ∧ (0 : Int) ≤ 0 ∧ ¬(0 : Int) ≤ -3 := by decide

theorem meets_FloatExact : 0x3F800000 < 2 * Num.fp32.signBit ∧ 0x3F800000 / 2 ^ Num.fp32.w % 2 ^ Num.fp32.ebits ≠ Num.fp32.eTop
    ∧ 0xFC00 < 2 * Num.fp16.signBit ∧ 0xFC00 % Num.fp16.signBit = Num.fp16.inf
    ∧ 0x7F81 < 2 * Num.bf16.signBit ∧ Num.bf16.inf < 0x7F81 % Num.bf16.signBit := by decide

theorem meets_FloatNan : 0x7F800000 < (0xFF800001 : Word).toNat % 2 ^ 31 ∧ (0xFF800001 : Word).toNat % 2 ^ 31 < 0x7FC00000
    ∧ ¬0x7F800000 < (0x7F800000 : Word).toNat % 2 ^ 31 ∧ ¬(0x7FC00000 : Word).toNat % 2 ^ 31 < 0x7FC00000 := by decide

/-- A NaN in A alone, in B alone, and in D alone; and 0 × ∞. -/
theorem meets_FloatNan_operands : (0x7F800000 < (0x7FC00000 : Word).toNat % 2 ^ 31 ∧ ¬0x7F800000 < (0x3F800000 : Word).toNat % 2 ^ 31)
    ∧ (0 : Word).toNat % 2 ^ 31 < 1 ∧ (0x7F800000 : Word).toNat % 2 ^ 31 = 0x7F800000 ∧ (⟨.rne, false, false⟩ : Num.Env).iz = false := by decide

/-- A rule that fits with those chosen, one that conflicts with them, and one that would be a second of its lane. -/
theorem meets_ElemSchedule : (let el : Elem := { slots := [(0, 0xD0000000), (1, 0xD0000000)] }
      ∃ o x, el.rule 1 = some (o, x) ∧ (choose el [(0, 0)]).length < 4
        ∧ ∀ t ∈ choose el [(0, 0)], (el.conflict.get 0 1).getLsbD t.1 = false)
    ∧ (let el : Elem := { slots := [(0, 0xD0000000), (1, 0xD0000000)], conflict := [(1, 1)] }
       ∃ t ∈ choose el [(0, 0)], (el.conflict.get 0 1).getLsbD t.1 = true)
    ∧ (let el : Elem := { slots := [(0, encode (.mul (ea 1 2 3))), (1, encode (.mul (ea 2 2 3)))] }
       ∃ o x, el.rule 1 = some (o, x) ∧ 1 < ((choose el [(0, 0)]).map fun p => match el.rule p.1 with
         | some (o, x) => (x.lanes o).2.1 | none => 0).sum + (x.lanes o).2.1) := by
  exact ⟨⟨_, _, rfl, by decide +kernel, by decide +kernel⟩, by decide +kernel, ⟨_, _, rfl, by decide +kernel⟩⟩

theorem meets_ElemAborts : (((onElem {}).elem 0).slotSt 0).aborts < 65535 ∧ ((onElem {}).evq (0 / 65536)).recs.length < 256
    ∧ ((onElem {}).evq (0 / 65536)).lost = 0
    ∧ (∃ row x f, row ∈ fpRows ∧ (row.op x).body? = some (.ea x f) ∧ ElemFires (onElem trapping) 0 0 (row.op x)
        ∧ ¬NoTrap (onElem trapping) 0 (row.res ((onElem trapping).elem 0).env (readSpec (onElem trapping) 0 (.ea x f) x.a)
            (readSpec (onElem trapping) 0 (.ea x f) x.b) (readSpec (onElem trapping) 0 (.ea x f) x.d)).fl)
    ∧ (∃ row x f, row ∈ fpRows ∧ (row.op x).body? = some (.ea x f) ∧ ElemFires (onElem full) 0 0 (row.op x) ∧ ¬Room (onElem full) 0 (.ea x f)
        ∧ ∀ fl, NoTrap (onElem full) 0 fl)
    ∧ ∃ row x, row ∈ aluRows ∧ ElemFires (onElem full) 0 0 (row.op x) ∧ ¬Room (onElem full) 0 (.ea x row.f) := by
  have hr : ∀ f, ¬Room (onElem full) 0 (.ea (ea 20 2 3) f) := fun f h => absurd (h 0 (by decide) rfl (by show (0 : BitVec 4).getLsbD 0 = false; decide)) (by decide)
  refine ⟨by decide, by decide, rfl, ?_, ?_, ?_⟩
  · exact ⟨⟨.fadd, 3, fun v a b _ => FpAlu.fadd v a b⟩, ea 1 2 3, 0, List.mem_append_left _ List.mem_cons_self, rfl, on_elem _ _ rfl,
      by unfold NoTrap; decide +kernel⟩
  · exact ⟨⟨.fadd, 3, fun v a b _ => FpAlu.fadd v a b⟩, ea 20 2 3, 0, List.mem_append_left _ List.mem_cons_self, rfl, on_elem _ _ rfl,
      hr 0, fun fl => by simp [NoTrap, State.elem, Sparse.get]⟩
  · exact ⟨⟨.add, 0, 1, _⟩, ea 20 2 3, List.mem_append_left _ List.mem_cons_self, on_elem _ _ rfl, hr 0⟩

/-- An element with a keystone target of 8 words. -/
abbrev aiming : Elem := { targets := [(0, { range := 0, words := 8 })] }
abbrev waitingSched : State := { onElem {} with scheds := [(0, { reqs := List.replicate 4 (false, 1) })] }

theorem meets_ElemCommands : (20 : BitVec 5).toNat = 20 + 0
    ∧ (∃ row ∈ tokenRows, ElemFires (onElem {}) 0 0 (row.1 (ea 20 1 2)) ∧ Room (onElem {}) 0 (.ea (ea 20 1 2) row.2))
    ∧ (ElemFires (onElem {}) 0 0 (.mxq (ea 20 1 2)) ∧ Room (onElem {}) 0 (.ea (ea 20 1 2) 0))
    ∧ (∃ row ∈ postedRows, ∃ f, (row.1 (ea 0 1 2)).body? = some (.ea (ea 0 1 2) f) ∧ ElemFires (onElem aiming) 0 0 (row.1 (ea 0 1 2))
        ∧ ksRefused (onElem aiming) 0 (readSpec (onElem aiming) 0 (.ea (ea 0 1 2) f) 1) row.2 true = false)
    ∧ (∃ row ∈ postedRows, ∃ f, (row.1 (ea 0 1 2)).body? = some (.ea (ea 0 1 2) f) ∧ ElemFires (onElem {}) 0 0 (row.1 (ea 0 1 2))
        ∧ ksRefused (onElem {}) 0 (readSpec (onElem {}) 0 (.ea (ea 0 1 2) f) 1) row.2 true = true)
    ∧ (ElemFires (onElem {}) 0 0 (.schdNext (ea 0 0 0)) ∧ ElemFires (onElem {}) 0 0 (.schdReset (ea 0 0 0))
        ∧ ((onElem {}).sched (0 / 16)).reqs.length < 4 ∧ 4 ≤ (waitingSched.sched (0 / 16)).reqs.length) :=
  ⟨by decide, ⟨(.mxtMma, 0), List.mem_cons_self, on_elem _ _ rfl, free_room _⟩, ⟨on_elem _ _ rfl, free_room _⟩,
    ⟨(.amoAdd, .int 0), List.mem_cons_self, 0, rfl, on_elem _ _ rfl, by decide +kernel⟩,
    ⟨(.amoAdd, .int 0), List.mem_cons_self, 0, rfl, on_elem _ _ rfl, by decide +kernel⟩,
    ⟨on_elem _ _ rfl, on_elem _ _ rfl, by decide, by decide⟩⟩

/-- Element 0 in a region that runs, and one that holds a posted effect. -/
abbrev inCourse (el : Elem) : State := { onElem el with regions := [(0, { oneTile with running := true })] }

theorem meets_ElemIrrevocable : (∃ row ∈ amorRows, Instr.amorAdd (ea 1 2 3) = row.1 (ea 1 2 3) ∧ KOp.int 0 = row.2)
    ∧ (Instr.amorAdd (ea 1 2 3)).body? = some (.ea (ea 1 2 3) 0) ∧ (Instr.amoc (ea 1 2 3) 5).body? = some (.ea (ea 1 2 3) 5)
    ∧ (∀ el, ElemFires (inCourse el) 0 0 (.amorAdd (ea 1 2 3)) ∧ ElemFires (inCourse el) 0 0 (.amoc (ea 1 2 3) 5))
    ∧ (∀ x, Room (inCourse aiming) 0 x)
    ∧ (cleanInterval (inCourse aiming) 0 = true
        ∧ ksRefused (inCourse aiming) 0 (readSpec (inCourse aiming) 0 (.ea (ea 1 2 3) 0) 2) (.int 0) false = false)
    ∧ cleanInterval (inCourse { aiming with posted := [⟨0, ⟨.int 0, 0, 1⟩, 1⟩] }) 0 = false
    ∧ (cleanInterval (inCourse {}) 0 = true
        ∧ ksRefused (inCourse {}) 0 (readSpec (inCourse {}) 0 (.ea (ea 1 2 3) 0) 2) (.int 0) false = true)
    ∧ ∃ el, ElemFires (inCourse el) 0 0 (.amorAdd (ea 20 2 3)) ∧ ¬Room (inCourse el) 0 (.ea (ea 20 2 3) 0) := by
  refine ⟨⟨(.amorAdd, .int 0), List.mem_cons_self, rfl, rfl⟩, rfl, rfl, fun el => ⟨⟨rfl, rfl⟩, rfl, rfl⟩, fun x k _ _ _ => ?_,
    ⟨by decide +kernel, by decide +kernel⟩, by decide +kernel, ⟨by decide +kernel, by decide +kernel⟩,
    full, ⟨rfl, rfl⟩, fun h => absurd (h 0 (by decide) rfl (by show (0 : BitVec 4).getLsbD 0 = false; decide)) (by decide)⟩
  show (Ports.room {} k) = true
  simp [Ports.room, Ports.outq, Sparse.get]

/-- Register 2 with home record 0: element 0 contributes, and closed its slot already in the second state. -/
abbrev combining (h : Home) (p : PSlot) : State :=
  { onElem {} with
    regions := [(0, { oneTile with mregs := [(2, 0)] })], homes := [(0, { h with decl := ⟨0, 3, 0, 0, [(false, 0)], true⟩, slotKeys := [0] })]
    pslots := [(0, p)] }
abbrev ec (ad : BitVec 5) (ty : BitVec 3) (opc : BitVec 4) : EC := ⟨g0, 2, ad, opc, 0, 0, ty⟩

theorem meets_ElemCombining : (∀ h p, homeKey (combining h p) 0 2 = some 0 ∧ (∀ i ∈ [Instr.contrib (ec 1 3 5), .contribc (ec 1 3 5), .cclose (ec 0 0 0),
      .settle (ec 1 0 0), .peek (ec 1 0 0), .crst (ec 0 0 0), .cpoll (ec 1 0 0), .cstat (ec 2 0 0)], ElemFires (combining h p) 0 0 i)
      ∧ ∀ x, Room (combining h p) 0 x)
    ∧ contribIdx ((combining {} {}).home 0) 0 = some 0 ∧ (true && closeRefused (combining {} {}) 0 0) = false
    ∧ (true && closeRefused (combining {} { closed := true }) 0 0) = true
    ∧ ((combining {} {}).home 0).op = none ∧ ((combining { op := some (.reset 0 0 0 0) } {}).home 0).op.isSome = true := by
  refine ⟨fun h p => ⟨rfl, fun i hi => ⟨rfl, ?_⟩, fun x k _ _ _ => ?_⟩, rfl, rfl, rfl, rfl, rfl⟩
  · exact (all_fire {} _ (by decide) i hi).fits
  · show (Ports.room {} k) = true
    simp [Ports.room, Ports.outq, Sparse.get]

/-! ### Events -/

/-- Round 10, with a course that runs on tile (0, 0) in plane 0. -/
abbrev runsOne : Region := { oneTile with running := true }
abbrev day : State := { State.reset with round := 10, regions := [(0, runsOne)] }
/-- Output 0 of element 0 leads to its own input 0 with four slots. -/
abbrev looped : State := { day with planes := [(0, { routes := [(0, 0x80000004)], occupied := true })] }
abbrev aFlight : Flight := ⟨⟨0, 9, 0⟩, 0, 5, 0⟩

theorem meets_FabricEvents :
    planeActive State.reset (0 / 16) = false ∧ (planeActive day (0 / 16) = true ∧ ∃ t, fireRules 0 [] day = .next t)
    ∧ (∃ l : Landing, l.due ≤ 10 ∧ l.regs = [(3, 7)] ∧ l.pred = none ∧ l.ev = none)
    ∧ (let s := { day with elems := [(0, { drainAt := some 9 })], regions := [(0, { runsOne with drainReq := true, act := 10 })] }
       s.regionOf (0 / 16) = some 0 ∧ (s.region 0).runs = true ∧ (s.elem 0).io.drained = false ∧ drainDue s (s.region 0) 0 = true
        ∧ (s.elem 0).drainAt = some 9 ∧ 9 < (s.region 0).act ∧ drainsLast s 0 = true ∧ atRest s 0 = true)
    ∧ (∃ r : EvRec, ({ landing := [{ due := day.round, ev := some r }] } : Elem).landing = [{ due := day.round, ev := some r }])
    ∧ (let s := { looped with elems := [(0, { io := { outs := [(0, [{ tok := ⟨0, 9, 0⟩, ready := 1 }])] } })] }
       chanSender 0 = some (.elem 0, 0) ∧ (∃ x rest, (s.io (.elem 0)).outq 0 = x :: rest ∧ x.wait = none ∧ x.ready ≤ s.round)
        ∧ (s.chan 0).sent - (s.chan 0).returned < chanSlots s 0 ∧ chanDests s 0 ≠ [])
    ∧ (let s := { looped with chans := [(0, { sent := 1, flight := [aFlight] })] }
       (s.chan 0).flight.find? (fun g => g.dst == 0) = some aFlight ∧ (chanDests s 0)[0]? = some (.elem 0, 0) ∧ aFlight.sent < s.round
        ∧ pathUp s 0 (.elem 0) aFlight.sent = true ∧ aFlight.tok.tag ≠ 4 ∧ aFlight.tok.tag ≠ 5 ∧ portHolds (s.io (.elem 0)) 0 < 4
        ∧ (s.io (.elem 0)).drained = false ∧ (s.io (.elem 0)).back.testBit 0 = false ∧ (s.io (.elem 0)).markerless.testBit 0 = false
        ∧ passesMarkers (.elem 0) 0 = false)
    ∧ (let s := { looped with chans := [(0, { sent := 1, freed := [(0, 1)] })] }
       (s.chan 0).returned < freedByAll s 0 ∧ (s.chan 0).owed = 0)
    ∧ (let s := { looped with chans := [(0, { sent := 1, owed := 1, freed := [(0, 1)] })] }
       let back := s.setChan 0 { s.chan 0 with returned := (s.chan 0).returned + 1 }
       (s.chan 0).returned < freedByAll s 0 ∧ (s.chan 0).owed ≠ 0 ∧ (back.chan 0).sent - (back.chan 0).returned < chanSlots back 0)
    ∧ (let s := { looped with round := 30000, elems := [(0, { halt := true })], chans := [(0, { sent := 1, flight := [aFlight] })] }
       chanRegion s 0 = some 0 ∧ (s.region 0).frozen = false ∧ overdue s 0 = true)
    ∧ (day.regionOf 0 = some 0 ∧ (day.region 0).running = true ∧ (day.plane 0).drn = false ∧ (day.plane 0).drainCut = none
        ∧ tileDrained day (day.region 0) 0 = true)
    ∧ (let s := { day with planes := [(0, { drainCut := some 1 })], regions := [(0, { runsOne with lastRel := 1 })] }
       (s.plane 0).drn = false ∧ (s.plane 0).drainCut = some 1 ∧ 1 ≤ (s.region 0).lastRel ∧ releasesDone s (s.region 0) 0 1 = true)
    ∧ ((day.region 0).runs = true ∧ (day.rep 0).io.drained = false ∧ (day.rep 0).st = .fill
        ∧ (day.rep 0).io.feed.keys.all ((day.rep 0).io.drainedIn day.round) = true)
    ∧ keystoneLast day (day.region 0) 0 = true := by
  refine ⟨rfl, ⟨rfl, _, rfl⟩, ⟨{ due := 10, regs := [(3, 7)] }, by decide, rfl, rfl, rfl⟩, ⟨rfl, rfl, rfl, rfl, rfl, by decide, by decide +kernel, by decide +kernel⟩, ⟨aRec, rfl⟩,
    ⟨rfl, ⟨_, _, rfl, rfl, by decide⟩, by decide +kernel, by decide +kernel⟩,
    ⟨rfl, by decide +kernel, by decide, rfl, by decide, by decide, by decide, rfl, rfl, rfl, rfl⟩, by decide +kernel, by decide +kernel,
    ⟨by decide +kernel, rfl, by decide +kernel⟩, ⟨rfl, rfl, rfl, rfl, by decide +kernel⟩, ⟨rfl, rfl, by decide, by decide +kernel⟩, ⟨rfl, rfl, rfl, rfl⟩, rfl⟩

/-! The launch sequencer. -/

/-- A launch that waits, of an image of one tile and one course without blocks at place 0 of HBM. -/
abbrev aLaunch : Launch := { phase := .waiting }
abbrev imageMem : Sparse Byte := [(14, 1), (16, 32)]
abbrev atLaunch (x : Launch) (m : Sparse Byte) : State :=
  { day with regions := [], mem := m, launches := [(0, x)], imageDir := [(0, { v := true })] }
abbrev emptyCourse : CourseRec := ⟨[0, 0, 0, 0], [], [], []⟩
abbrev oneByOne : ImageHead := ⟨false, 1, 1, 1, 32⟩

/-- With no tile fused, the one tile at row 0 and column 0 takes the course, in plane 0. -/
theorem admits (h : ∀ t, Config.fused t = false) :
    let s := atLaunch aLaunch imageMem
    allPlacements s 0 oneByOne [emptyCourse] (annexes s (s.launch 0) 1) ≠ []
      ∧ findRegion s (allPlacements s 0 oneByOne [emptyCourse] (annexes s (s.launch 0) 1)) emptyCourse = some (⟨[0], [0]⟩, 0)
      ∧ firstFault (graphFaults s 0 0 ⟨[0], [0]⟩ oneByOne [emptyCourse]) = none
      ∧ (loadCourse s (freeRegionKey s) { placedRegion ⟨[0], [0]⟩ 0 emptyCourse with launch := some 0 } ⟨[0], [0]⟩ emptyCourse 0
          (s.annex.get {} 0)).wait = none := by
  have e : Config.fused = fun _ => false := funext h
  unfold findRegion findPlane planeFree courseDone banksFree allPlacements placements searchMaps tileFits mapsAt badTile graphFaults courseFaults formatFaults
    loadCourse scratch writeBlocks takeBlock blockStatus Region.livePks
  revert e
  generalize Config.fused = f
  rintro rfl
  decide +kernel

/-- The same launch, of a course with a keystone target at virtual 0 of a context that maps nothing. -/
theorem waits (h : ∀ t, Config.fused t = false) :
    let s := { atLaunch aLaunch imageMem with annex := [(0, { targets := [⟨(0, 0, 0), 0, none, 0, none, false, 4⟩] })] }
    firstFault (graphFaults s 0 0 ⟨[0], [0]⟩ oneByOne [emptyCourse]) = none
      ∧ (loadCourse s (freeRegionKey s) { placedRegion ⟨[0], [0]⟩ 0 emptyCourse with launch := some 0 } ⟨[0], [0]⟩ emptyCourse 0
          (s.annex.get {} 0)).wait = some (.notPresent 0) := by
  have e : Config.fused = fun _ => false := funext h
  unfold graphFaults courseFaults formatFaults loadCourse scratch writeBlocks takeBlock blockStatus Region.livePks
  revert e
  generalize Config.fused = f
  rintro rfl
  decide +kernel

/-- Other launches hold every plane of die 3. -/
abbrev taken3 : State :=
  { atLaunch { aLaunch with die := 3 } imageMem with
    regions := (List.range 4).map fun p => (p, { oneTile with prow := 32, pcol := 32, h := 32, w := 32, plane := p, launch := some 9 }) }
theorem finds_none (h : ∀ t, Config.fused t = false) :
    let ms := allPlacements taken3 3 { oneByOne with h := 32, w := 32 } [emptyCourse] (annexes taken3 (taken3.launch 0) 1)
    ms ≠ [] ∧ findRegion taken3 ms emptyCourse = none := by
  have e : Config.fused = fun _ => false := funext h
  unfold findRegion findPlane planeFree courseDone banksFree allPlacements placements searchMaps tileFits mapsAt badTile Region.livePks
  revert e
  generalize Config.fused = f
  rintro rfl
  decide +kernel

/-- A queue whose head is an entry of zeros, with handle 0. -/
abbrev queued (d : List (Nat × DirEntry)) (m : Sparse Byte) : State :=
  { day with mem := m, queues := [(0, { cap := 4, len := 1, service := [false] })], imageDir := d }
abbrev aSaved : Saved := { (default : Saved) with region := oneTile }
abbrev twoTiles : Region := { oneTile with w := 2, cmap := [0, 1] }

theorem meets_LaunchEvents_frame : (let s := { day with dies := [(0, { frame := [(3, 0x8000000000000005)] })] }
       (∀ p ∈ s.launches, outranked s p.2 = false) ∧ roundEntry (s.die 0) s.round = some 3 ∧ validEntries (s.die 0) = [3])
    ∧ roundEntry (day.die 0) day.round = none
    ∧ (let s := flushHeld (queued [] [(12, 1), (4, 255)]) 0
       nextHead s 0 = some 0 ∧ entryBad { s with mem := [(6, 255)] } 0 = true ∧ entryBad s 0 = false
        ∧ (s.imageDir.get {} (launchOf s 0 0).handle).v = false)
    ∧ (let s := flushHeld (queued [(0, { v := true })] [(3, 2)]) 0
       entryBad s 0 = false ∧ (s.imageDir.get {} (launchOf s 0 0).handle).v = true ∧ (launchOf s 0 0).relaxed = true
        ∧ (s.queue 0).priv = false ∧ (launchOf s 0 0).fromService = false)
    ∧ (let s := flushHeld (queued [(0, { v := true })] []) 0
       entryBad s 0 = false ∧ (s.imageDir.get {} (launchOf s 0 0).handle).v = true ∧ (launchOf s 0 0).relaxed = false) := by
  refine ⟨⟨fun _ h => absurd h List.not_mem_nil, by decide +kernel, by decide +kernel⟩, by decide +kernel, ?_, ?_, ?_⟩ <;> decide +kernel

/-- Context 0 maps 4 GiB at virtual 0 by a leaf at place `2 ^ 48 * d` that may be read; the image stands below its tables. -/
abbrev mapped (x : Launch) (d : Byte) : State :=
  { atLaunch x [(14, 1), (16, 32), (0x20001, 0x20), (0x20007, 0x80), (0x40004, d), (0x40007, 0xE2)] with
    ctxTable := [(0, 0x8000000000000001)], devnum := 0x10000 }
abbrev seeded : Launch := { aLaunch with seedN := 1 }

theorem meets_LaunchEvents_seeds : launchSeeds (atLaunch seeded imageMem) seeded = .fault
    ∧ launchSeeds { mapped seeded 0 with eccBad := [(0, 2)] } seeded = .ecc
    ∧ (launchSeeds (mapped seeded 1) seeded = .ask (2 ^ 48)
        ∧ ((mapped seeded 1).dltOut.any fun q => q.src == .seed 0 && q.place == 2 ^ 48) = false)
    ∧ launchSeeds (mapped seeded 0) seeded = .recs [0] ∧ [(0 : Dword)].any (badSeed 0) = true := by decide +kernel

/-- No tile is fused in the cases that look for a place. -/
theorem meets_LaunchEvents_admit (h : ∀ t, Config.fused t = false) :
    (let s := atLaunch aLaunch imageMem
     (s.launch 0).phase = .waiting ∧ cqBlocked s (s.launch 0) = false
      ∧ imageCourses s (s.imageDir.get {} (s.launch 0).handle) = (oneByOne, 160, [128])
      ∧ ([128].map fun p => (courseAt s 160 p).1) = emptyCourse :: [] ∧ [128].length = oneByOne.ncourse
      ∧ ((emptyCourse :: []).any fun c => c.seeds.any (badSeed c.ports.length)) = false
      ∧ launchSeeds s (s.launch 0) = .recs [] ∧ ([] : List Dword).any (badSeed 0) = false
      ∧ allPlacements s 0 oneByOne [emptyCourse] (annexes s (s.launch 0) 1) ≠ []
      ∧ findRegion s (allPlacements s 0 oneByOne [emptyCourse] (annexes s (s.launch 0) 1)) emptyCourse = some (⟨[0], [0]⟩, 0)
      ∧ firstFault (graphFaults s 0 0 ⟨[0], [0]⟩ oneByOne [emptyCourse]) = none
      ∧ (loadCourse s (freeRegionKey s) { placedRegion ⟨[0], [0]⟩ 0 emptyCourse with launch := some 0 } ⟨[0], [0]⟩ emptyCourse 0
          (s.annex.get {} 0)).wait = none)
    ∧ (∀ s r ctx, ∃ t s', pinEvent s r ctx (.notPresent 0) = some (t, s')) := by
  obtain ⟨a, b, c, d⟩ := admits h
  exact ⟨⟨rfl, by decide +kernel, by decide +kernel, by decide +kernel, rfl, rfl, rfl, rfl, a, b, c, d⟩, fun s r ctx => ⟨_, _, rfl⟩⟩

/-- An image that binds an engine at a fifth side of a die has no place. A course that is not the first of its image has a fault. -/
abbrev nowhere : State := { atLaunch aLaunch imageMem with annex := [(0, { sides := [((0, 0), false, 4)] })] }
theorem meets_LaunchEvents_reject (h : ∀ t, Config.fused t = false) :
    allPlacements nowhere 0 oneByOne [emptyCourse] (annexes nowhere (nowhere.launch 0) 1) = []
    ∧ ∃ p code, firstFault (graphFaults (atLaunch aLaunch imageMem) 0 0 ⟨[0], [0]⟩ oneByOne [{ emptyCourse with head := [2 ^ 48, 0, 0, 0] }])
        = some (p, code) := by
  refine ⟨?_, tilePlace 0, 41, ?_⟩
  · have hs : ∀ m, (annexes nowhere (nowhere.launch 0) 1).all (sidesFit m) = false := fun m => by
      have : ∀ o : Option Nat, (o.any fun e => Key.engineSide e == 4) = false := fun o => by
        cases o with
        | none => rfl
        | some e => simp [Key.engineSide]; omega
      rw [show annexes nowhere (nowhere.launch 0) 1 = [{ sides := [((0, 0), false, 4)] }] by decide +kernel]
      simp [sidesFit, this]
    have hp : ∀ d, placements nowhere d oneByOne [emptyCourse] (annexes nowhere (nowhere.launch 0) 1) = [] := fun d => by
      have : ((List.range 1024).filterMap fun k =>
          (mapsAt nowhere oneByOne (32 * (d / 2) + k / 32) (32 * (d % 2) + k % 32)).bind fun m =>
            if mapsFit m [emptyCourse] && (annexes nowhere (nowhere.launch 0) 1).all (sidesFit m) then some m else none) = [] := by
        refine List.filterMap_eq_nil_iff.2 fun k _ => ?_
        cases mapsAt nowhere oneByOne (32 * (d / 2) + k / 32) (32 * (d % 2) + k % 32) with
        | none => rfl
        | some m => simp [hs]
      unfold placements
      rw [this]
      rfl
    simp only [allPlacements, hp, List.isEmpty_nil, if_true]
    decide
  · have e : Config.fused = fun _ => false := funext h
    unfold graphFaults courseFaults formatFaults scratch writeBlocks takeBlock blockStatus Region.livePks
    revert e
    generalize Config.fused = f
    rintro rfl
    decide +kernel

/-- A launch that runs its first course in plane 0, of two, and one that runs its only course, which has drained. -/
abbrev runningLast : State :=
  { day with
    regions := [(0, { runsOne with launch := some 0 })], planes := [(0, { occupied := true, drn := true })]
    launches := [(0, { phase := .running, region := some 0, image := [128] })] }
abbrev running2 : State :=
  { day with
    mem := [(14, 2), (16, 64)], imageDir := [(0, { v := true })]
    regions := [(0, { runsOne with launch := some 0 })], planes := [(0, { occupied := true })]
    launches := [(0, { phase := .running, region := some 0, image := [128, 160] })] }

/-- The second course has a keystone target on a page without right A. -/
abbrev pagedTarget : State :=
  { running2 with
    mem := [(14, 2), (16, 64), (0x20001, 0x20), (0x20007, 0x80), (0x40007, 0xE2)], ctxTable := [(0, 0x8000000000000001)]
    annex := [(1, { targets := [⟨(0, 0, 0), 0, none, 0, none, false, 4⟩] })] }

/-- Its table has an uncorrectable error. -/
abbrev badTarget : State := { pagedTarget with eccBad := [(0x4000, 2)] }

/-- The block of the second course has a wrong CRC. -/
abbrev badCourse : CourseRec := { emptyCourse with head := [2 ^ 32, 0, 0, 0], blocks := [⟨1, []⟩] }
abbrev badBlock : State := { running2 with mem := [(14, 2), (16, 72), (164, 1), (192, 1)] }

theorem meets_LaunchEvents_next (h : ∀ t, Config.fused t = false) :
    (let s := running2
     (s.launch 0).phase = .running ∧ (s.launch 0).region = some 0 ∧ (s.launch 0).next = [] ∧ (s.region 0).running = true
      ∧ (s.region 0).frozen = false ∧ (s.region 0).waitEv = none ∧ (s.launch 0).image[(s.region 0).course + 1]? = some 160
      ∧ ((List.range 4).find? fun q => planeFree s (placedRegion ⟨[0], [0]⟩ q emptyCourse) || (courseDone s (s.region 0) && q == (s.region 0).plane)) = some 1
      ∧ courseDone s (s.region 0) = false
      ∧ (let ld := loadCourse s (freeRegionKey s) { placedRegion ⟨[0], [0]⟩ 1 emptyCourse with launch := some 0 } ⟨[0], [0]⟩ emptyCourse 0
          (s.annex.get {} 1)
         ld.wait = none ∧ ld.reject = none ∧ shadowsGood s { placedRegion ⟨[0], [0]⟩ 1 emptyCourse with launch := some 0 } ⟨[0], [0]⟩ emptyCourse = true))
    ∧ (let s := badBlock
       (courseAt s 200 160).1 = badCourse
        ∧ (let ld := loadCourse s (freeRegionKey s) { placedRegion ⟨[0], [0]⟩ 1 badCourse with launch := some 0 } ⟨[0], [0]⟩ badCourse 0
            (s.annex.get {} 1)
           ld.wait = none ∧ ld.reject = none ∧ shadowsGood s { placedRegion ⟨[0], [0]⟩ 1 badCourse with launch := some 0 } ⟨[0], [0]⟩ badCourse = false))
    ∧ (let s := badTarget
       (loadCourse s (freeRegionKey s) { placedRegion ⟨[0], [0]⟩ 1 emptyCourse with launch := some 0 } ⟨[0], [0]⟩ emptyCourse 0
         (s.annex.get {} 1)).wait = some (.ecc 0x20000))
    ∧ (let s := pagedTarget
       let ld := loadCourse s (freeRegionKey s) { placedRegion ⟨[0], [0]⟩ 1 emptyCourse with launch := some 0 } ⟨[0], [0]⟩ emptyCourse 0
         (s.annex.get {} 1)
       ld.wait = none ∧ ld.reject.map Prod.snd = some 30)
    ∧ (let s := runningLast
       (s.launch 0).phase = .running ∧ (s.launch 0).region = some 0 ∧ (s.launch 0).next = []
        ∧ (s.region 0).course + 1 = (s.launch 0).image.length ∧ courseDone s (s.region 0) = true) := by
  have e : Config.fused = fun _ => false := funext h
  unfold planeFree courseDone shadowsGood commitCheck loadCourse scratch writeBlocks takeBlock blockStatus Region.livePks
  revert e
  generalize Config.fused = f
  rintro rfl
  decide +kernel

/-- An image without contents but its channel section, and the record of its course. -/
abbrev tinyImage : List Dword := [0x44535244, (default : Saved).region.desc, 0, 0, 72, 0, 0, 0, BitVec.ofNat 64 (31 * 2 ^ 59)]
/-- A pre-empted launch with a saved course whose image stands at place 0. -/
abbrev preempted : State := { day with regions := [], saved := [(5, aSaved)], launches := [(0, { phase := .preempted, saved := [(5, 0)] })] }
/-- A course with a seed port whose first token waits, and one whose seeds have left. -/
abbrev seedQueue (q : Sparse (List (Nat × Token))) (c : Chan) : State :=
  { day with
    regions := [(0, { runsOne with seedPorts := [(0, (0, 0x80000004))], seedQ := q, seedDrains := [0] })], chans := [(seedChan 0 0, c)] }

theorem meets_LaunchEvents_rest : (let s := preempted
       (s.launch 0).phase = .preempted ∧ savedOf s (s.launch 0) = (5, aSaved, 0) :: []
        ∧ ((List.range 4).filter fun p => planeFree s { aSaved.region with plane := p } && diesAgree s { aSaved.region with plane := p })
          = [0, 1, 2, 3]
        ∧ planeFree { s with regions := [(0, { oneTile with launch := some 9 })] } aSaved.region = false
        ∧ (s.launch 0).region = none)
    ∧ (∃ w, imageCourse tinyImage = some w ∧ w.header = tinyImage.take 8)
    ∧ (let s := seedQueue [(0, [(1, ⟨0, 7, 0⟩)])] {}
       (s.region 0).seedQ.get [] 0 = (1, ⟨0, 7, 0⟩) :: []
        ∧ (s.chan (seedChan 0 0)).sent - (s.chan (seedChan 0 0)).returned < chanSlots s (seedChan 0 0))
    ∧ (let s := seedQueue [(0, [(1, ⟨0, 7, 0⟩)])] { sent := 64 }
       chanSlots s (seedChan 0 0) ≤ (s.chan (seedChan 0 0)).sent - (s.chan (seedChan 0 0)).returned)
    ∧ (let s := seedQueue [] {}
       (s.region 0).seedQ.get [] 0 = [] ∧ 0 ∈ (s.region 0).seedDrains)
    ∧ (let s := { day with regions := [(0, { twoTiles with waveHop := some 0, units := [.ag 0] })] }
       (s.region 0).waveHop = some 0 ∧ (s.region 0).frozen = false ∧ UnitRef.ag 0 ∈ (s.region 0).units ∧ (s.region 0).hops (0 / 8) = 0)
    ∧ (let s := { day with regions := [(0, { twoTiles with commitHop := some 0 })] }
       (s.region 0).commitHop = some 0 ∧ 0 < (s.region 0).lastHop)
    ∧ (let s := { day with regions := [(0, { twoTiles with commitHop := some 1 })] }
       (s.region 0).commitHop = some 1 ∧ (s.region 0).lastHop ≤ 1)
    ∧ (let s := { day with regions := [(0, { runsOne with seeds := [(0, ⟨0, 7, 0⟩)] })] }
       (s.region 0).runs = true ∧ (s.region 0).waveHop = none ∧ (s.region 0).drainReq = false
        ∧ (s.region 0).seeds = (0, ⟨0, 7, 0⟩) :: [])
    ∧ (let s := { day with round := 120001, launches := [(0, { phase := .running })] }
       classRounds (s.launch 0).lclass = some 120000 ∧ (s.launch 0).phase ≠ .none ∧ (s.launch 0).late = false
        ∧ (s.launch 0).start.toNat + 120000 < s.round)
    ∧ (let s := { day with queues := [(0, { cap := 4 })], launches := [(0, { phase := .running })] }
       (s.launch 0).phase = .running ∧ (s.launch 0).region = none ∧ (s.launch 0).next = []
        ∧ (s.queue (s.launch 0).cq).len < (s.queue (s.launch 0).cq).cap)
    ∧ ((day.queue ({} : Launch).cq).cap ≤ (day.queue ({} : Launch).cq).len ∧ (day.die ({} : Launch).die).heldCpl.length < 64
        ∧ 64 ≤ ({ day with dies := [(0, { heldCpl := List.replicate 64 (0, []) })] }.die ({} : Launch).die).heldCpl.length) := by
  refine ⟨by decide +kernel, ⟨_, rfl, rfl⟩, by decide +kernel, by decide +kernel, by decide +kernel,
    ⟨rfl, rfl, by decide, rfl⟩, ⟨rfl, by decide⟩, ⟨rfl, by decide⟩, ⟨rfl, rfl, rfl, rfl⟩, ⟨rfl, by decide, rfl, by decide⟩, ⟨rfl, rfl, rfl, by decide⟩, by decide⟩

/-! Cuts and streams. -/

theorem meets_CutEvents : ((day.region 0).running = true ∧ (day.region 0).lastStart + (day.region 0).mkRounds ≤ day.round)
    ∧ (day.regionOf (UnitRef.elem 0).pk = some 0 ∧ markerSource day (.elem 0) = true
        ∧ (day.region 0).mkTokens ≤ (day.io (.elem 0)).sinceMark)
    ∧ (let r := { runsOne with cutAsked := true }
       r.running = true ∧ r.frozen = false ∧ r.cutOpen = false ∧ r.cutAsked = true ∧ r.relDue = none)
    ∧ (let r := { runsOne with cutOpen := true, reqHop := some 0 }
       r.running = true ∧ r.frozen = false ∧ r.cutOpen = true ∧ r.reqHop = some 0)
    ∧ (let s := { day with regions := [(0, { runsOne with cutOpen := true, cut := 1, reqHop := some 0, units := [.elem 0] })] }
       s.regionOf (UnitRef.elem 0).pk = some 0 ∧ snapReady s (s.region 0) (.elem 0) = true
        ∧ (∀ e, UnitRef.elem 0 = .elem e → ¬((s.sched (e / 16)).bound = true ∧ (s.sched (e / 16)).feeds = e)))
    ∧ (∀ k, UnitRef.elem 0 ≠ .keystone k)
    ∧ (let s := { day with
          regions := [(0, { runsOne with cutOpen := true, cut := 1, units := [.elem 0] })], elems := [(0, { io := { snapCut := 1 } })] }
       (s.region 0).cutOpen = true ∧ (s.region 0).frozen = false ∧ cutSaved s (s.region 0) = true)
    ∧ (let r := { runsOne with relDue := some 10 }
       r.relDue = some 10 ∧ 10 ≤ day.round ∧ r.afterRel = none ∧ { r with afterRel := some .firmware }.afterRel = some .firmware
        ∧ r.live = true ∧ r.running = true ∧ r.commitHop = none)
    ∧ (let r := { runsOne with cutOpen := true, cut := 1, reqHop := some 0, seedPorts := [(0, (0, 0x80000004))], seedDrains := [0] }
       r.cutOpen = true ∧ r.reqHop = some 0 ∧ r.hops (r.seedPorts.get (0, 0) 0).1 ≤ 0 ∧ r.seedMark.get 0 0 < r.cut ∧ 0 ∈ r.seedDrains)
    ∧ (runsOne.live = true ∧ runsOne.running = true ∧ runsOne.relDue = none ∧ runsOne.commitHop = none ∧ runsOne.launch = none)
    ∧ (let r := { runsOne with progress := 10 }
       r.runs = true ∧ r.progress = day.round ∧ r.pks.any (planeActive day) = true ∧ r.pks.any (planeActive { day with regions := [] }) = false)
    ∧ (let s := { looped with
          regions := [(0, { runsOne with still := 65535, units := [.elem 0] })], chans := [(0, { sent := 1, flight := [aFlight] })]
          elems := [(0, { io := { feed := [(0, [0])] } })] }
       (s.region 0).runs = true ∧ (s.region 0).progress ≠ s.round ∧ (s.region 0).pks.any (planeActive s) = true
        ∧ (s.region 0).probed = false ∧ 65536 ≤ (s.region 0).still + 1
        ∧ holdsToken (s.setRegion 0 { s.region 0 with still := (s.region 0).still + 1, act := (s.region 0).act + 1 }) (s.region 0) = true) := by
  refine ⟨⟨rfl, by decide⟩, ⟨rfl, rfl, by decide⟩, ⟨rfl, rfl, rfl, rfl, rfl⟩, ⟨rfl, rfl, rfl, rfl⟩, ⟨rfl, by decide +kernel, ?_⟩, nofun,
    ⟨rfl, rfl, by decide +kernel⟩, ⟨rfl, by decide, rfl, rfl, rfl, rfl, rfl⟩, ⟨rfl, rfl, by decide +kernel, by decide, by decide⟩,
    ⟨rfl, rfl, rfl, rfl, rfl⟩, ⟨rfl, rfl, by decide +kernel, by decide +kernel⟩,
    ⟨rfl, by decide, by decide +kernel, rfl, by decide, by decide +kernel⟩⟩
  intro e he h
  cases he
  exact absurd h.1 (by decide)

/-- Eight elements of four bytes from virtual 0, which is pinned at place 0 of HBM; loads and stores, affine and indexed. -/
abbrev spb (d1 : Dword) : List Dword := [0, d1, 0x400000008, 1, 1, 1]
abbrev anAg (d1 : Dword) : Ag := { bound := true, spb := spb d1, started := true, pins := [⟨0, 32, 0⟩] }
abbrev withAg (g : Ag) : State := { day with ags := [(0, g)] }
abbrev anIndex (i : Dword) : InTok := { tok := ⟨0, i, 0⟩, ch := 5, dst := 0, arr := 0 }
abbrev indexedAg (i : Dword) : Ag := { anAg 0x2002 with io := { ins := [(1, [anIndex i])] } }

/-- A store of cut 1 that waits for its REL. -/
abbrev aHeld : HeldStore := { place := 0, bytes := [], full := false, cut := 1 }
theorem meets_StreamEvents_issue : (∀ n, let s := { withAg { anAg 0x1002 with held := [aHeld] } with regions := [(0, { runsOne with lastRel := n })] }
     s.regionOf (0 / 2) = some 0 ∧ (n = 0 → ∀ h ∈ (s.ag 0).held, (s.region 0).lastRel < h.cut)
      ∧ (n = 1 → ∃ h ∈ (s.ag 0).held, h.cut ≤ (s.region 0).lastRel))
    ∧ (∀ g : Ag, g.held = [] → releaseLate 0 (withAg g) = withAg g)
    ∧ (let s := withAg { anAg 2 with started := false }
     agReady s 0 = false ∧ agActive s 0 = false)
    ∧ (let s := withAg { anAg 2 with pins := [⟨0, 32, 0x400000000000⟩] }
       agReady s 0 = false ∧ agActive s 0 = true)
    ∧ (let s := withAg (anAg 2)
     let g := s.ag 0
     agReady s 0 = true ∧ Spb.store g.spb = false ∧ Spb.indexed g.spb = false ∧ g.ended = false ∧ g.reqs.length < 32
      ∧ (g.io.outq 0).length < 32 ∧ g.seq < Spb.total g.spb ∧ pinPlace g.pins (Spb.addr g.spb g.seq) = some 0)
    ∧ (let s := withAg { anAg 2 with seq := 8 }
       agReady s 0 = true ∧ Spb.total (s.ag 0).spb ≤ (s.ag 0).seq)
    ∧ (let s := withAg (indexedAg 9)
       let g := s.ag 0
       agReady s 0 = true ∧ Spb.store g.spb = false ∧ Spb.indexed g.spb = true ∧ g.io.head? s.round 1 = some (anIndex 9).tok
        ∧ (anIndex 9).tok.tag ≠ 6 ∧ (anIndex 9).tok.tag ≠ 7 ∧ Spb.count g.spb 0 ≤ (anIndex 9).tok.payload.toNat % 2 ^ 32)
    ∧ (∀ leaves : List Leaf, let s := { withAg (indexedAg 1) with blockTlb := [(0, leaves)] }
       let g := s.ag 0
       let idle := s.setAg 0 { g with stall := none }
       1 < Spb.count g.spb 0 ∧ idle = s
        ∧ (leaves = [] → xlate idle (0 / 2) false g.ctx g.spb (Spb.indexAddr g.spb 1) = .miss)
        ∧ (leaves = [aLeaf] → ∃ p, xlate idle (0 / 2) false g.ctx g.spb (Spb.indexAddr g.spb 1) = .place p)
        ∧ (leaves = [⟨0, 0, 4, 1⟩] → xlate idle (0 / 2) false g.ctx g.spb (Spb.indexAddr g.spb 1) = .err 2))
    ∧ (let s := withAg { anAg 0x1002 with io := { ins := [(0, [anIndex 7])] } }
       let g := s.ag 0
       agReady s 0 = true ∧ Spb.store g.spb = true ∧ Spb.indexed g.spb = false ∧ g.ended = false ∧ g.discard = false ∧ g.words = []
        ∧ g.seq < Spb.total g.spb ∧ Spb.esize g.spb ≤ 4 ∧ Spb.qual g.spb ≠ 1 ∧ g.io.head? s.round 0 = some (anIndex 7).tok
        ∧ pinPlace g.pins (Spb.addr g.spb g.seq) = some 0 ∧ holdsAt s (0 / 2) 0 = true
        ∧ holdsAt s (0 / 2) 0x400000000000 = false ∧ s.isFull 0 = false) := by
  refine ⟨fun n => ⟨rfl, fun hn h hh => ?_, fun hn => ⟨aHeld, List.mem_singleton.2 rfl, ?_⟩⟩, fun g hg => ?_, ⟨rfl, rfl⟩, ⟨by decide +kernel, rfl⟩,
    ⟨by decide +kernel, by decide, by decide, rfl, by decide, by decide, by decide, by decide⟩,
    ⟨by decide +kernel, by decide⟩, ⟨by decide +kernel, by decide, by decide, rfl, by decide, by decide, by decide⟩, fun leaves => ⟨(by decide : 1 < Spb.count (spb 0x2002) 0), rfl, ?_, ?_, ?_⟩,
    ⟨by decide +kernel, by decide, by decide, rfl, rfl, rfl, by decide, by decide, by decide, rfl, by decide, by decide +kernel, by decide +kernel,
      by decide +kernel⟩⟩
  · subst hn
    rw [List.mem_singleton.1 hh]
    decide
  · subst hn
    decide
  · have : (withAg g).ag 0 = g := rfl
    unfold releaseLate
    split <;> simp [this, hg]
  all_goals rintro rfl
  · decide +kernel
  · exact ⟨0x10004, by decide +kernel⟩
  · decide +kernel

abbrev aReq : AgReq := { seq := 0, place := 0, size := 4, issued := 0 }
abbrev farReq : AgReq := { aReq with place := 0x1000000000000 }

theorem meets_StreamEvents_data : (∃ r : AgReq, r.tok = some ⟨0, 1, 0⟩) ∧ (∃ r : AgReq, r.tok = none ∧ r.data = some [1, 2, 3, 4])
    ∧ (let s := withAg { anAg 2 with reqs := [aReq] }
       (s.ag 0).reqs = aReq :: [] ∧ ((s.ag 0).io.outq 0).length < 4 ∧ aReq.tok = none ∧ aReq.data = none ∧ aReq.issued < s.round
        ∧ isOwn s aReq.place = true ∧ Place.space aReq.place ≤ 1 ∧ s.eccAt aReq.place aReq.size = false
        ∧ diesLinked s (Key.dieOfTile (0 / 8)) (Place.die aReq.place) = true)
    ∧ (let s := withAg { anAg 2 with reqs := [farReq] }
       (s.ag 0).reqs = farReq :: [] ∧ farReq.tok = none ∧ farReq.data = none ∧ isOwn s farReq.place = false ∧ farReq.fwdd = false)
    ∧ (let g := { anAg 0x402 with ended := true }
       g.reqs = [] ∧ g.ended = true ∧ g.endSent = false ∧ Spb.store g.spb = false ∧ Spb.qual g.spb ≠ 1 ∧ Spb.endp g.spb = 1) :=
  ⟨⟨{ aReq with tok := some ⟨0, 1, 0⟩ }, rfl⟩, ⟨{ aReq with data := some [1, 2, 3, 4] }, rfl, rfl⟩,
    ⟨rfl, by decide, rfl, rfl, by decide, rfl, by decide, rfl, rfl⟩, ⟨rfl, rfl, rfl, by decide, rfl⟩,
    ⟨rfl, rfl, rfl, by decide, by decide, by decide⟩⟩

/-- A request for granule 0 of tile memory. -/
abbrev tileReq : AgReq := { aReq with place := 0x400000000000 }
abbrev banked (a : Nat) (own : Option (Nat × Nat)) : State :=
  { day with
    ags := [(a, { anAg 2 with reqs := [tileReq] })]
    regions := [(0, { runsOne with launch := some 5, w := 2, cmap := [0, 1] })]
    tiles := [(0, { owner := [(0, some (5, 0))], ownAt := own })] }

theorem meets_StreamEvents_bank : (∀ a bank, servable day 0 bank a = none)
    ∧ ((day.tile 0).ownAt = none ∧ ownServed day 0 < 3
        ∧ 3 ≤ ownServed { day with tiles := [(0, { ownAt := some (day.round, 3) })] } 0)
    ∧ (∀ x ∈ [(0, none), (8, some (day.round, 3))], let s := banked x.1 x.2
       servable s 0 0 x.1 = some tileReq ∧ s.bankTurn tileReq.place = true ∧ (∀ b k, b ≠ x.1 → servable s 0 k b = none)
        ∧ (s.ag x.1).reqs.filter (fun r => r.tok.isNone && r.data.isNone) = [tileReq]
        ∧ (x.1 / 8 = 0 ∧ ownServed s 0 ≤ x.1 % 2 ∨ x.1 / 8 ≠ 0 ∧ 3 ≤ ownServed s 0))
    ∧ (let s := { day with tiles := [(0, { scrub := [(3, some 255)] })] }
       (s.tile 0).scrub.get none 3 = some 255)
    ∧ (let s := { day with
          regions := [(0, { runsOne with launch := some 5 })], tiles := [(0, { owner := [(3, some (5, 0))] })]
          planes := [(0, { hands := [(3, 1)] })] }
       (s.tile 0).owner.get none 3 = some (5, 0)
        ∧ ((List.range 4).find? fun p => ownerOf s (0 * 4 + p) == some (5, 0)) = some 0
        ∧ (s.plane (0 * 4 + 0)).hands.find? (·.1 == 3) = some (3, 1) ∧ bankDone s (0 * 4 + 0) 3 = true) := by
  refine ⟨fun a bank => rfl, ⟨rfl, by decide, by decide⟩, fun x hx => ?_, rfl, ⟨rfl, by decide +kernel, rfl, by decide +kernel⟩⟩
  have none_else : ∀ a own b k, b ≠ a → servable (banked a own) 0 k b = none := fun a own b k hb => by
    simp [servable, Ag.waiting, State.ag, Sparse.get, Ne.symm hb]
  simp only [List.mem_cons, List.not_mem_nil, or_false] at hx
  rcases hx with rfl | rfl
  · exact ⟨by decide +kernel, by decide +kernel, none_else _ _, by decide +kernel, by decide +kernel⟩
  · exact ⟨by decide +kernel, by decide +kernel, none_else _ _, by decide +kernel, by decide +kernel⟩

/-- A walk that waits. -/
abbrev aWalk (write : Bool) : WalkReq := ⟨0, 0, 0, write, .ag 0⟩

theorem meets_StreamEvents_walk : (let s := { withPage with walks := [(0, [aWalk false])] }
       s.walks.get [] 0 = aWalk false :: [] ∧ (∃ lv d, walk s 0 0 = .leaf lv d) ∧ ¬((aWalk false).write = true ∧ leafM 0 = true))
    ∧ (let s := { withPage with mem := [(1, 0x10), (7, 0x80), (0x20007, 0xE6)] }
       (∃ lv d, walk s 0 0 = .leaf lv d ∧ leafM d = true) ∧ (aWalk true).write = true)
    ∧ (day.regionOf (aWalk false).owner.pk = some 0 ∧ (day.region 0).relDue = none ∧ (∃ lv, walk day 0 0 = .notPresent lv)
        ∧ (∃ lv, walk { day with ctxTable := [(0, 0xFFFFFFFFFFFFFFFF)] } 0 0 = .malformed lv)
        ∧ ∃ lv p, walk { withPage with eccBad := [(0, 2)] } 0 0 = .ecc lv p) := by
  refine ⟨⟨rfl, ⟨1, 0xE200000000000000, by decide⟩, by decide⟩, ⟨⟨1, 0xE600000000000000, by decide, by decide⟩, rfl⟩,
    ⟨rfl, rfl, ⟨0, rfl⟩, ⟨0, by decide⟩, ⟨0, 0, by decide +kernel⟩⟩⟩

/-- A repeat node of bank 0, whose course holds it. -/
abbrev repeating (r : Repeat) : State :=
  { day with
    regions := [(0, { runsOne with launch := some 5 })], tiles := [(0, { owner := [(0, some (5, 0))] })]
    reps := [(0, { r with bound := true })] }

theorem meets_StreamEvents_nodes : (let s := repeating { io := { ins := [(0, [anIndex 7])] } }
       repReady s 0 = true ∧ repTurn s 0 = true ∧ (s.rep 0).st = .fill ∧ (s.rep 0).io.head? s.round 0 = some (anIndex 7).tok
        ∧ (s.rep 0).skip = false ∧ (s.rep 0).buf.length < 1024)
    ∧ (let s := repeating { st := .hold, io := { ins := [(0, [anIndex 7])] } }
       repReady s 0 = true ∧ repTurn s 0 = true ∧ (s.rep 0).st = .hold ∧ (s.rep 0).io.head? s.round 0 = some (anIndex 7).tok
        ∧ (s.rep 0).io.head? s.round 1 = none)
    ∧ (let s := repeating { st := .hold, io := { ins := [(1, [anIndex 2])] } }
       repReady s 0 = true ∧ (s.rep 0).st = .hold ∧ (s.rep 0).io.head? s.round 1 = some (anIndex 2).tok
        ∧ (anIndex 2).tok.tag ≠ 6 ∧ (anIndex 2).tok.tag ≠ 7)
    ∧ (∀ tag ∈ [(6 : BitVec 3), 7], let t : InTok := { anIndex 2 with tok := ⟨tag, 2, 0⟩ }
       let s := repeating { st := .hold, io := { ins := [(1, [t])] } }
       repReady s 0 = true ∧ (s.rep 0).io.head? s.round 1 = some t.tok ∧ t.tok.tag = tag)
    ∧ (let s := repeating { st := .emit 1 0, buf := [(anIndex 7).tok] }
       repReady s 0 = true ∧ (s.rep 0).st = .emit 1 0 ∧ (s.rep 0).io.room 0 = true ∧ repTurn s 0 = true ∧ s.eccAt (repPlace s 0 0) 4 = false)
    ∧ (let s := { day with scheds := [(0, { table := [5], reqs := [(true, 1)] })] }
       (s.sched 0).reqs = (true, 1) :: [] ∧ 1 ≤ s.round ∧ planeRuns s 0 = true)
    ∧ (let n : SchedNode := { table := [5], reqs := [(false, 1)] }
       n.reqs = (false, 1) :: [] ∧ n.cursor < n.table.length ∧ { n with cursor := 1 }.cursor = n.table.length) := by
  refine ⟨⟨by decide +kernel, by decide +kernel, rfl, rfl, rfl, by decide⟩, ⟨by decide +kernel, by decide +kernel, rfl, rfl, rfl⟩,
    ⟨by decide +kernel, rfl, rfl, by decide, by decide⟩, by decide +kernel,
    ⟨by decide +kernel, rfl, rfl, by decide +kernel, rfl⟩, ⟨rfl, by decide, rfl⟩, ⟨rfl, by decide, rfl⟩⟩

/-! Combining registers, keystones and engines. -/

/-- Element 0 is the home and the one contributor of register record 0. -/
abbrev combDay (h : Home) (p : PSlot) : State :=
  { day with homes := [(0, { h with decl := ⟨0, 3, 0, 0, [(false, 0)], true⟩, slotKeys := [0] })], pslots := [(0, p)] }
abbrev aCmd (value close : Bool) : CombCmd := ⟨1, if value then some (7, 0, 3) else none, close⟩
abbrev aPart (b : PBuf) (closed : Bool) : Part := ⟨b, closed, 6⟩

theorem meets_CombiningEvents : (∀ c p, ((combDay { toSlot := [(0, [c])] } p).home 0).toSlot.get [] 0 = c :: [])
    ∧ (aCmd false true).due ≤ 10 ∧ (aCmd false true).close = true ∧ (aCmd false true).value = none
    ∧ (aCmd true false).close = false ∧ (aCmd true false).value = some (7, 0, 3)
    ∧ (∀ b, ((combDay {} { closed := b }).pslot (((combDay {} { closed := b }).home 0).slotKeys.getD 0 0)).closed = b)
    ∧ ({} : PSlot).behind {} = false ∧ ({} : PSlot).behind { gen := 1 } = true
    ∧ (∀ l ∈ homePath ((combDay {} {}).home 0) 0, (day.link l).carries = true)
    ∧ ackComing {} 0 = false
    ∧ (let h := (combDay { toHome := [(0, [.notice 1])] } {}).home 0
       h.toHome.get [] 0 = .notice 1 :: [] ∧ ∀ t f a r, h.op ≠ some (.reset t f a r))
    ∧ (∀ peek, let h := (combDay { op := some (.read peek 0 1 none []), closed := 1 } {}).home 0
       h.op = some (.read peek 0 1 none []) ∧ 1 < 10 ∧ h.closed = h.full ∧ h.lastNotice < 10)
    ∧ (let h := (combDay { op := some (.read false 0 1 none []) } {}).home 0
       h.closed ≠ h.full)
    ∧ (∀ peek, let h := (combDay { op := some (.read peek 0 1 (some 2) []) } {}).home 0
       h.op = some (.read peek 0 1 (some 2) []) ∧ 2 < 10 ∧ 0 < h.decl.contribs.length ∧ (none : Option Part) = none
        ∧ (combDay {} {}).pslot 0 = {} ∧ (0 : BitVec 16) ≠ h.gen + 1)
    ∧ (∀ peek b c, let h := (combDay { op := some (.read peek 0 1 (some 2) [(0, some (aPart b c))]) } {}).home 0
       ((List.range h.decl.contribs.length).filterMap fun k => Sparse.get none [(0, some (aPart b c))] k) = [aPart b c]
        ∧ [aPart b c].length = h.decl.contribs.length ∧ ∀ p ∈ [aPart b c], p.at_ + 4 ≤ 10)
    ∧ (let h := (combDay {} {}).home 0
       (CombAlu.read h.decl [{ v := true, val := 7, ty := 3 }] h.full h.gen false).clean = true
        ∧ (CombAlu.read h.decl [{ v := true, m := true, val := 7, ty := 3 }] h.full h.gen false).clean = false)
    ∧ (let h := (combDay { op := some (.reset 0 1 0 0), crsts := 1, toHome := [(0, [.ack 2])] } {}).home 0
       h.op = some (.reset 0 1 0 0) ∧ 1 < 10 ∧ 0 < h.decl.contribs.length ∧ (0 : Nat) ≠ h.crsts ∧ h.toHome.get [] 0 = .ack 2 :: []
        ∧ (0 ||| 1#16 <<< 0) = h.full)
    ∧ (let h : Home := { decl := ⟨0, 3, 0, 0, [(false, 0), (false, 1)], true⟩, slotKeys := [0, 1], op := some (.reset 0 1 0 0) }
       (0 ||| 1#16 <<< 0) ≠ h.full) := by
  refine ⟨fun c p => rfl, by decide, rfl, rfl, rfl, rfl, fun b => rfl, by decide, by decide, by decide, rfl, ⟨rfl, nofun⟩, fun peek => ⟨rfl, by decide, rfl, by decide +revert⟩,
    by decide, fun peek => ⟨rfl, by decide, by decide +revert, rfl, rfl, by decide +revert⟩, fun peek b c => ⟨rfl, rfl, fun p hp => ?_⟩,
    ⟨by decide +kernel, by decide +kernel⟩, ⟨rfl, by decide, by decide, by decide, rfl, rfl⟩, by decide⟩
  obtain rfl := List.mem_singleton.1 hp
  exact Nat.le_refl 10

abbrev anArr : KArr := ⟨⟨.int 0, 3, 1⟩, .port 0 0 none, 5⟩
abbrev ksDay (k : Keystone) : State := { day with kstones := [(0, k)] }
abbrev elDay (e : Elem) : State := { day with elems := [(0, e)] }
abbrev anIrrev : Irrev := ⟨0, ⟨.int 0, 0, 1⟩, 7, 1, false⟩
abbrev aPost : Posted := ⟨0, ⟨.int 0, 0, 1⟩, 2⟩

theorem meets_KeystoneEvents : (let k := (ksDay { mapped := true, words := 8, inq := [anArr], last := some (3, 8) }).kstone 0
     let s := ksDay k
     let p := keystonePlace s 0 anArr.cmd.idx
     s.bankTurn p = true ∧ { s with tiles := [(0, { served := [(0, (10, 5))] })] }.bankTurn p = false
      ∧ k.inq = anArr :: [] ∧ k.mapped = true ∧ anArr.arr < 10 ∧ ∀ idx r, k.last = some (idx, r) → r < 10 ∧ (idx = anArr.cmd.idx → r + 2 ≤ 10))
    ∧ (let k := (ksDay { inq := [anArr], last := some (3, 9) }).kstone 0
       k.inq = anArr :: [] ∧ k.last = some (anArr.cmd.idx, 9) ∧ 10 < 9 + 2)
    ∧ (let k := (ksDay { copyTo := some 1, hold := true }).kstone 0
       k.copyTo = some 1 ∧ k.hold = true ∧ k.inq = [] ∧ (1 : Nat) ≠ 0)
    ∧ (let k := (ksDay { fwd := some 1, waitQ := [anArr] }).kstone 0
       k.fwd = some 1 ∧ k.waitQ = anArr :: [] ∧ ksWithholds {} = false ∧ ksWithholds { waitQ := List.replicate 64 anArr } = true)
    ∧ ((0x7FFFFFFF : Word).getLsbD 31 = false ∧ (0x90000007 : Word).getLsbD 31 = true ∧ targetBound day 0 = false
        ∧ targetBound (elDay aiming) 0 = true ∧ (0x90000007 : Word).toNat / 2 ^ 26 % 8 < 5 ∧ (0x90000007 : Word).toNat / 2 ^ 10 % 2 ^ 16 = 0)
    ∧ ({ bar := false } : Keystone).bar = false ∧ (5 : Nat) ≠ 3
    ∧ (∀ a, let k : Keystone := { bar := true, mem := [(3, BitVec.ofNat 32 (2 * 2 ^ 20 + a * 2 ^ 8 + 255))] }
       k.bar = true ∧ 2 < 4096 ∧ 255 < 256 ∧ k.mem.get 0 3 = BitVec.ofNat 32 (2 * 2 ^ 20 + a * 2 ^ 8 + 255))
    ∧ (0 + 1 < 2 ∧ 1 + 1 = 2 ∧ 2 ≤ 2)
    ∧ (let s := { elDay { irrev := [anIrrev] } with regions := [(0, { runsOne with lastRel := 1, relRound := 9 })] }
       s.regionOf (0 / 16) = some 0 ∧ (s.elem 0).irrev = [anIrrev] ∧ anIrrev.sent = false ∧ (s.elem 0).posted = []
        ∧ anIrrev.cut ≤ (s.region 0).lastRel ∧ (s.region 0).relRound < s.round ∧ portOpen s 0 anIrrev.target = true)
    ∧ (let s := { elDay { irrev := [anIrrev] } with regions := [(0, { runsOne with relRound := 10 })] }
       s.regionOf (0 / 16) = some 0 ∧ s.round ≤ (s.region 0).relRound)
    ∧ (∀ tag, let e := (elDay { ksIn := [.reply 10 7 ⟨tag, 1, 0⟩] }).elem 0
       e.ksIn = .reply 10 7 ⟨tag, 1, 0⟩ :: [] ∧ (10 : Nat) ≤ 10 ∧ (⟨tag, 1, 0⟩ : Token).tag = tag)
    ∧ (let e := (elDay { irrev := [anIrrev], posted := [aPost] }).elem 0
       aPost ∈ e.posted ∧ 1 < aPost.cut ∧ e.irrev = anIrrev :: [] ∧ anIrrev.sent = false ∧ 1 ≤ anIrrev.cut ∧ anIrrev.cut ≤ 2
        ∧ anIrrev.cut ≤ aPost.cut)
    ∧ (let e := (elDay { posted := [aPost] }).elem 0
       e.posted = [aPost] ∧ e.irrev = [] ∧ aPost.cut ≤ 2 ∧ portOpen (elDay e) 0 aPost.target = true)
    ∧ (let e := (elDay { ksIn := [.applied 10 0], targets := [(0, { range := 0, words := 8, orderIn := some 2 })] }).elem 0
       e.ksIn = .applied 10 0 :: [] ∧ ∃ tg, (e.targets.find? (·.1 == 0)).map Prod.snd = some tg ∧ tg.orderIn = some 2) := by
  refine ⟨⟨by decide +kernel, by decide +kernel, rfl, rfl, by decide, fun idx r h => ?_⟩, ⟨rfl, rfl, by decide⟩, ⟨rfl, rfl, rfl, by decide⟩,
    ⟨rfl, rfl, by decide, by decide⟩, ⟨by decide, by decide, rfl, by decide +kernel, by decide, by decide⟩, rfl, by decide, fun a => ⟨rfl, by decide, by decide, rfl⟩,
    by decide, ⟨rfl, rfl, rfl, rfl, by decide, by decide, rfl⟩, ⟨rfl, by decide⟩, fun tag => ⟨rfl, by decide, rfl⟩,
    ⟨List.mem_singleton.2 rfl, by decide, rfl, rfl, by decide, by decide, by decide⟩, ⟨rfl, rfl, by decide, rfl⟩, ⟨rfl, _, rfl, rfl⟩⟩
  cases h
  exact ⟨by decide, fun _ => by decide⟩

/-- An update of a device keystone word with an uncorrectable error, from a core, another device and a request port; a KSST that waits at
an old home, and an arrival that waits for a full new home. -/
theorem meets_KeystoneEvents_more : (∀ src ∈ [KSrc.core 0, .remote 1 2 false, .port 0 0 none],
      let a : KArr := ⟨⟨.int 0, 3, 1⟩, src, 5⟩
      let s := { day with kstones := [(16384, { mapped := true, words := 8, inq := [a] })], eccBad := [(0x800000000008 / 8, 2)] }
      (s.kstone 16384).inq = a :: [] ∧ a.arr < s.round ∧ (s.kstone 16384).last = none ∧ s.bankTurn (keystonePlace s 16384 3) = true
        ∧ keystoneBad s 16384 3 = true ∧ s.regionOf (0 / 16) ≠ none)
    ∧ (let a : KArr := ⟨⟨.status 1, 0, 0⟩, .port 0 0 (some 4), 5⟩
       let k := (ksDay { fwd := some 1, waitQ := [a] }).kstone 0
       k.fwd = some 1 ∧ k.waitQ = a :: [] ∧ a.cmd.op = .status 1)
    ∧ (let s := { day with kstones := [(0, { fwd := some 1, waitQ := [anArr] }), (1, { waitQ := List.replicate 64 anArr })] }
       (s.kstone 0).waitQ = anArr :: [] ∧ (∀ m, anArr.cmd.op ≠ .status m) ∧ ksWithholds (s.kstone 1) = true)
    ∧ (let s := elDay { irrev := [anIrrev], targets := [(0, { range := 0, words := 8 })] }
       (∀ i ∈ (s.elem 0).irrev, i.ticket = 7 → targetLinked s 0 i.target = true) ∧ targetLinked s 0 0 = true)
    ∧ (∀ n, let s := { elDay { targets := [(0, { range := 0, words := 8, orderIn := some 2 })] } with chans := [(orderChan 0 0, { sent := n })] }
       let ch := orderChan 0 0
       let due := s.setChan ch { s.chan ch with owed := (s.chan ch).owed + 1 }
       (n = 0 → (s.chan ch).sent - (s.chan ch).returned < chanSlots due ch)
        ∧ (n = 4 → chanSlots due ch ≤ (s.chan ch).sent - (s.chan ch).returned)) := by
  refine ⟨by decide +kernel, ⟨rfl, rfl, rfl⟩, ⟨rfl, nofun, by decide +kernel⟩, by decide +kernel, fun n => ⟨?_, ?_⟩⟩ <;> rintro rfl <;> decide +kernel

abbrev command (form : BitVec 3) (w : Dword) : InTok := { tok := ⟨0, w, form⟩, ch := 5, dst := 0, arr := 0 }
abbrev fedBy (t : InTok) : Ports := { ins := [(0, [t])] }

/-- Streamer 28 on the north side stands at tile (0, 28), island 0 at tile (0, 0). -/
abbrev wide : Region := { runsOne with w := 32, cmap := List.range 32 }
abbrev st0 : Nat := Key.engine 0 0 28 0
abbrev stDay (t : Streamer) : State := { day with regions := [(0, wide)], streamers := [(st0, { t with bound := true })] }
abbrev aSCmd (form status : Nat) : SCmd := { id := 3, form := form, word := 0, acc := 1, batch := 0, status := status }
abbrev startTok : InTok := { tok := ⟨0, 64, 0⟩, ch := 5, dst := 0, arr := 0 }
abbrev aBuck : BuckDecl := ⟨0, spb 2, spb 0x1002, [], []⟩
/-- A token of tag 6, and one of tag 7. -/
abbrev noCommand (tag : BitVec 3) : InTok := { tok := ⟨tag, 5, 0⟩, ch := 5, dst := 0, arr := 0 }
abbrev aHop : Hop := ⟨1, 0, 0, 2, 0, 0, []⟩

theorem meets_EngineEvents_streamer : (∀ f w, let s := stDay { io := fedBy (command f w) }
     streamerOpen s st0 = true ∧ (s.streamer st0).io.head? s.round 0 = some (command f w).tok ∧ (command f w).tok.tag ≠ 6
      ∧ (command f w).tok.tag ≠ 7)
    ∧ (∀ tag ∈ [(6 : BitVec 3), 7], let s := stDay { io := fedBy (noCommand tag) }
       streamerOpen s st0 = true ∧ (s.streamer st0).io.head? s.round 0 = some (noCommand tag).tok ∧ (noCommand tag).tok.tag = tag)
    ∧ ((0 : BitVec 3) ≠ 6 ∧ (0 : BitVec 3) ≠ 7 ∧ (0 : BitVec 3) ≠ 4 ∧ (0 : BitVec 3) ≠ 5 ∧ (4 : BitVec 3) = 4)
    ∧ (∀ f st, let t := (stDay { cmds := [aSCmd f st] }).streamer st0
       t.cmd? 3 = some (aSCmd f st) ∧ (aSCmd f st).acc < 10 ∧ t.compRoom = true)
    ∧ ((aSCmd 0 7).status ≠ 0 ∧ (aSCmd 5 0).status = 0 ∧ (aSCmd 5 0).form = 5
        ∧ ((stDay { cmds := [aSCmd 5 0] }).streamer st0).outstanding ≤ (aSCmd 5 0).b
        ∧ (aSCmd 5 0).b < ((stDay { cmds := [aSCmd 5 0, { aSCmd 0 0 with id := 4 }], batchNo := 1 }).streamer st0).outstanding)
    ∧ (let c := { aSCmd 0 0 with x := { phase := 3 } }
       let t := (stDay { cmds := [c] }).streamer st0
       c.status = 0 ∧ c.form = 0 ∧ dueOf t c ≤ 10 ∧ c.x.phase = 3 ∧ c.x.rd = 0 ∧ c.x.wr = 0 ∧ c.x.refused = [])
    ∧ (let c := { aSCmd 3 0 with cut := 1 }
       let s := { stDay { cmds := [c], pins := [(0, [⟨0, 16, 0⟩])] } with regions := [(0, { wide with lastRel := 1 })] }
       let t := s.streamer st0
       t.cmd? 3 = some c ∧ c.acc < s.round ∧ t.compRoom = true ∧ c.status = 0 ∧ c.form = 3
        ∧ pinPlace (t.pins.get [] (c.sp 0)) (Spb.addr (t.spb (c.sp 0)) 0) = some 0 ∧ isOwn s (0 / 16 * 16) = true
        ∧ s.regionOf (Key.enginePk st0) = some 0 ∧ c.cut ≤ (s.region 0).lastRel ∧ fenceWaits t c (Place.device (0 / 16 * 16)) = false
        ∧ stOpen s (Key.enginePk st0) (0 / 16 * 16) false = true
        ∧ (wide.lastRel < c.cut))
    ∧ (let t := (stDay { io := { ins := [(0, [{ tok := ⟨5, 0, 0⟩, ch := 5, dst := 0, arr := 0 }])], feed := [(0, [5])] } }).streamer st0
       t.bound = true ∧ t.io.drained = false ∧ t.cmds = [] ∧ t.io.feed.get [] 0 ≠ [] ∧ t.fedOut 10 0 = true ∧ t.draining = false)
    ∧ (∀ bs, let s := stDay { coll := some (1, 0, 4), bucks := bs, io := { ins := [(1, [startTok])] } }
       let t := s.streamer st0
       t.bound = true ∧ t.coll = some (1, 0, 4) ∧ planeRuns s (Key.enginePk st0) = true ∧ t.compRoom = true
        ∧ nextStart t s.round (t.io.inq 1) [] = some (startTok, []) ∧ startTok.tok.tag = 0 ∧ t.bucks = bs)
    ∧ (let s := stDay { coll := some (1, 0, 4), io := { ins := [(1, [noCommand 6])] } }
       let t := s.streamer st0
       planeRuns s (Key.enginePk st0) = true ∧ t.compRoom = true
        ∧ nextStart t s.round (t.io.inq 1) [] = some (noCommand 6, []) ∧ (noCommand 6).tok.tag ≠ 0)
    ∧ (let t : Streamer := { bound := true, coll := some (1, 0, 4) }
       t.takesHop aHop = true ∧ t.used.contains (aHop.b, aHop.step, aHop.src) = false ∧ (∀ g ∈ t.hops, g.b = aHop.b → g.src ≠ aHop.src)
        ∧ { t with used := [(0, 0, 2)] }.used.contains (aHop.b, aHop.step, aHop.src) = true)
    ∧ (let t := (stDay { coll := some (1, 0, 4), bucks := [(0, some aBuck)], runs := [(0, some { step := 1, x := { phase := 6 } })] }).streamer st0
       t.runs.get none 0 = some { step := 1, x := { phase := 6 } } ∧ t.bucks.get none 0 = some aBuck ∧ t.coll = some (1, 0, 4)
        ∧ t.compRoom = true) := by
  refine ⟨fun f w => ⟨rfl, rfl, (by decide : (0 : BitVec 3) ≠ 6), (by decide : (0 : BitVec 3) ≠ 7)⟩, by decide +kernel, by decide, fun f st => ⟨rfl, by show 1 < 10; decide, rfl⟩,
    ⟨by decide, rfl, rfl, by decide, by decide⟩, ⟨rfl, rfl, by decide +kernel, rfl, rfl, rfl, rfl⟩,
    ⟨rfl, by decide, rfl, rfl, rfl, by decide +kernel, rfl, by decide +kernel, by decide, rfl, rfl, by decide⟩,
    ⟨rfl, rfl, rfl, by decide, rfl, rfl⟩, fun bs => ⟨rfl, rfl, rfl, rfl, rfl, rfl, rfl⟩, ⟨rfl, rfl, rfl, by decide⟩,
    ⟨by decide, rfl, fun g hg => absurd hg List.not_mem_nil, by decide⟩, ⟨rfl, rfl, rfl, rfl⟩⟩

/-- A flag that stands in memory of the device, and in an island's; a FLAGF whose REL has not come. -/
theorem meets_EngineEvents_flag : isIslandMem day 0 = false ∧ isIslandMem day 0x600000000000 = true ∧ wide.lastRel < ({ aSCmd 3 0 with cut := 1 } : SCmd).cut :=
  ⟨rfl, rfl, by decide⟩

abbrev islDay (t : Island) : State := { day with islands := [(0, { t with bound := true })] }
abbrev mmaWord : Dword := 0x0000000001000040

theorem meets_EngineEvents_island : (∀ f w, let s := islDay { io := fedBy (command f w) }
     islandOpen s 0 = true ∧ (s.island 0).io.head? s.round 0 = some (command f w).tok ∧ (s.island 0).mmaNext s.round = true
      ∧ (s.island 0).allDone s.round = true ∧ (command f w).tok.tag ≠ 6 ∧ (command f w).tok.tag ≠ 7)
    ∧ (∀ tag ∈ [(6 : BitVec 3), 7], let s := islDay { io := fedBy (noCommand tag) }
       islandOpen s 0 = true ∧ (s.island 0).io.head? s.round 0 = some (noCommand tag).tok ∧ (noCommand tag).tok.tag = tag)
    ∧ (let s := islDay { io := fedBy (command 0 mmaWord), job := .fence 3 }
       islandOpen s 0 = true ∧ (s.island 0).io.head? s.round 0 = some (command 0 mmaWord).tok ∧ (s.island 0).mmaNext s.round = false)
    ∧ (0x400000 : Dword).toNat / 2 ^ 22 % 4 ≠ 0
    ∧ (let t : Island := { bound := true, slots := [(2, { state := 1 })] }
       mmaWord.toNat / 2 ^ 22 % 4 = 0 ∧ mmaWord.toNat / 2 ^ 45 = 0 ∧ mmaG mmaWord ≠ 0 ∧ mmaRg mmaWord ≠ 0
        ∧ mmaRg mmaWord / 2 ^ (mmaM mmaWord / 16) = 0 ∧ t.ringFed = false ∧ t.holder (mmaMark mmaWord) = some 2 ∧ (t.slot 2).state = 1)
    ∧ ((7 : BitVec 3) = 7 ∧ (1 : BitVec 3) ≠ 0 ∧ ({ job := .fence 3 } : Island).allDone 10 = false)
    ∧ (∃ x : Transfer, x.due ≤ 10 ∧ x.spill = true)
    ∧ (let m : Mma := { cmd := mmaWord, acc := 1, slot := 2, done := some (9, 0x4000000) }
       m.done = some (9, 0x4000000) ∧ (9 : Nat) ≤ 10 ∧ (0x4000000 : Word).toNat / 2 ^ 26 % 8 ≠ 0 ∧ ({} : Island).mregSlot = none)
    ∧ (let t := (islDay { job := .finish 9 0 }).island 0
       t.bound = true ∧ t.mmas = [] ∧ t.job = .finish 9 0)
    ∧ (let t := (islDay { job := .flush [1, 2] none 0 }).island 0
       (t.io.outq 0).length < 4 ∧ t.job = .flush (1 :: 2 :: []) none 0)
    ∧ 3 ∈ ((islDay { pendImg := [3] }).island 0).pendImg
    ∧ (let t := (islDay { io := { ins := [(0, [{ tok := ⟨5, 0, 0⟩, ch := 5, dst := 0, arr := 0 }])], feed := [(0, [5])] } }).island 0
       t.bound = true ∧ t.io.drained = false ∧ t.io.drainedIn 10 0 = true ∧ t.allDone 10 = true ∧ t.xfer = none ∧ t.io.feed.keys = [0])
    ∧ (16 ∉ mmaRows mmaWord ∧ (mmaRows mmaWord)[0]? = some 0 ∧ 0 < mmaN mmaWord ∧ mmaN mmaWord ≤ 16 ∧ 16 < 128) := by
  refine ⟨fun f w => ⟨rfl, rfl, rfl, rfl, (by decide : (0 : BitVec 3) ≠ 6), (by decide : (0 : BitVec 3) ≠ 7)⟩, by decide +kernel, ⟨rfl, rfl, rfl⟩, by decide, ⟨by decide, by decide, by decide, by decide, by decide, rfl, by decide +kernel, rfl⟩, by decide,
    ⟨{ (default : Transfer) with spill := true }, by decide, rfl⟩, ⟨rfl, by decide, by decide, rfl⟩, ⟨rfl, rfl, rfl⟩, ⟨by decide, rfl⟩,
    by decide, ⟨rfl, rfl, rfl, rfl, rfl, rfl⟩, by decide⟩

/-- The snapshot of the cut that a checkpoint image belongs to. -/
theorem meets_EngineEvents_image : let s := { islDay { pendImg := [3] } with snaps := [(snapKey (.island 0) 0, { (default : Snap) with cut := 0, val := .island {} })] }
    ∃ sn x, snapOf s (.island 0) (s.island 0).io.snapCut = some sn ∧ sn.val = .island x := ⟨_, {}, rfl, rfl⟩

/-! Mason cores, hosts, other devices, and the device. -/

abbrev dayCore (k : Core) : State := { day with cores := [(0, k)], evqs := [(0, { recs := [aRec], entered := 1 })] }
/-- The place of a register: die 0, block and offset in status space. -/
abbrev st (block off : Nat) : Nat := 6 * 2 ^ 45 + block * 2 ^ 32 + off

theorem meets_CoreEvents_core : (let s := dayCore { run := .running, pstat := 9 }
     (s.core 0).run = .running ∧ (s.core 0).pend = none ∧ (s.core 0).busyTo = none ∧ (s.core 0).held = false ∧ Pstat.ie (s.core 0).pstat = true
      ∧ Pstat.tip (s.core 0).pstat = false ∧ 0 < evCount s (0 / 4) ∧ evCount day (0 / 4) = 0 ∧ Pstat.ie 1 = false ∧ Pstat.tip 0x29 = true)
    ∧ (let s := dayCore { run := .idle, pstat := 1 }
       (s.core 0).run = .idle ∧ 0 < evCount s (0 / 4) ∧ Pstat.ie (s.core 0).pstat = false)
    ∧ (let s := dayCore { run := .idle, pstat := 9 }
       (s.core 0).run = .idle ∧ Pstat.ie (s.core 0).pstat = true ∧ Pstat.tip (s.core 0).pstat = false)
    ∧ (let s := dayCore { run := .wfe }
       (s.core 0).run = .wfe ∧ (s.core 0).seen < (s.evq (0 / 4)).entered)
    ∧ (let s := dayCore { run := .wfe, seen := 1 }
       Pstat.evf (s.core 0).pstat = false ∧ (s.evq (0 / 4)).entered ≤ (s.core 0).seen)
    ∧ ((dayCore { run := .double }).core 0).run = .double ∧ (2 : Dword) ≠ 0 ∧ (2 : Dword) ≠ 1 := by decide

theorem meets_CoreEvents_registers : (Place.space (st 0 0xC8) = 6 ∧ StPlace.block (st 0 0xC8) = 0 ∧ StPlace.off (st 0 0xC8) < 256
      ∧ StPlace.off (st 0 0xC8) % 64 / 8 = 1)
    ∧ (Place.space (st 1 0x1F8) = 6 ∧ StPlace.block (st 1 0x1F8) = 1 ∧ StPlace.off (st 1 0x1F8) < 0x200)
    ∧ (Place.space (st 3 32760) = 6 ∧ StPlace.block (st 3 32760) = 3 ∧ StPlace.off (st 3 32760) < 32768)
    ∧ (StPlace.block (st 5 0) = 5 ∧ StPlace.off (st 5 0) = 0 ∧ StPlace.block (st 7 0) = 7 ∧ StPlace.block (st 8 0) = 8) := by decide +kernel

theorem meets_CoreEvents_rest : (let s := { day with planes := [(0, { occupied := true })] }
     let p := 0xA00000000000
     Place.space p = 5 ∧ CfgPlace.shadow p = false ∧ (s.plane (CfgPlace.pk p)).occupied = true
      ∧ ∀ rk, s.regionOf (CfgPlace.pk p) = some rk → (s.region rk).frozen = false)
    ∧ ((State.reset.tile 0).retired = false ∧ ∀ p < 4, State.reset.regionOf (0 * 4 + p) = none)
    ∧ (day.regionOf (0 * 4 + 0) = some 0 ∧ (day.region 0).frozen = false)
    ∧ ∀ l ∈ day.launches, l.2.phase ≠ .running ∧ l.2.phase ≠ .preempted := by
  refine ⟨⟨by decide +kernel, by decide +kernel, by decide +kernel, fun rk h => ?_⟩, ⟨rfl, fun p _ => rfl⟩, ⟨rfl, rfl⟩,
    fun l hl => absurd hl List.not_mem_nil⟩
  have h' : (some 0 : Option Nat) = some rk := h
  cases h'
  rfl

/-- An endpoint with every right over every queue, and a message of it: type, low bits and body. -/
abbrev anEp : Window := ⟨0xF0000000000003FF, 9⟩
abbrev aMsg (type low : Nat) (body : List Byte) : HostMsg := ⟨9, BitVec.ofNat 64 (type * 2 ^ 56 + low), body⟩
abbrev hosted (m : HostMsg) (ep : Sparse Window) : State := { day with hostIn := [m], hostEp := ep, queues := [(0, { cap := 1 })] }
abbrev stBody : List Byte := [0, 0, 0, 0, 0, 0xC0, 0, 0]

theorem meets_HostEvents_messages : (∀ m, (hosted m []).hostIn = m :: [])
    ∧ (∀ t ∈ [1, 3, 4, 5, 6], (aMsg t 1 []).type = t ∧ (aMsg t 1 []).wellFormed day = false) ∧ (aMsg 7 0 []).type ∉ [1, 3, 4, 5, 6]
    ∧ ((aMsg 1 0 (List.replicate 64 0)).type = 1 ∧ (aMsg 1 0 (List.replicate 64 0)).wellFormed day = true)
    ∧ (let s := hosted (aMsg 1 0 (List.replicate 64 0)) [(0, anEp)]
       (∃ e ∈ s.hostEp, Endpoint.v e.2 = true ∧ e.2.d1 = 9 ∧ (Endpoint.launch e.2 && Endpoint.covers e.2 0) = true) ∧ isFatal s = false
        ∧ s.bootFailed = false ∧ s.power ≠ 2 ∧ (s.queue 0).ms = false)
    ∧ ((aMsg 3 8 stBody).type = 3 ∧ (aMsg 3 8 stBody).wellFormed day = true)
    ∧ ((aMsg 4 8 (stBody ++ stBody)).type = 4 ∧ (aMsg 4 8 (stBody ++ stBody)).wellFormed day = true ∧ Endpoint.fw anEp = true)
    ∧ (let m := aMsg 5 0 [2, 0, 0, 0, 0, 0, 0, 0]
       m.type = 5 ∧ m.wellFormed day = true ∧ m.place ≠ 0 ∧ m.place = 2 ∧ launchesAlive day = false ∧ Endpoint.mgmt anEp = true
        ∧ launchesAlive { day with launches := [(0, aLaunch)] } = true)
    ∧ ((aMsg 6 0 []).type = 6 ∧ (aMsg 6 0 []).wellFormed day = true)
    ∧ ∀ right : Window → Bool, ¬∃ e ∈ (hosted (aMsg 3 8 stBody) []).hostEp, Endpoint.v e.2 = true ∧ e.2.d1 = 9 ∧ right e.2 = true := by
  refine ⟨fun m => rfl, by decide +kernel, by decide +kernel, by decide +kernel,
    ⟨⟨(0, anEp), List.mem_singleton.2 rfl, by decide, rfl, by decide⟩, rfl, rfl, by decide, rfl⟩, by decide +kernel, by decide +kernel,
    by decide +kernel, by decide +kernel, fun right ⟨e, he, _⟩ => absurd he List.not_mem_nil⟩

/-- A request from device 3 for place 0, with a window of every right over 64 KiB there, and without. -/
abbrev aWin (d0 : Dword) : Window := ⟨d0, 0⟩
abbrev asked (op : DltOp) (w : Sparse Window) : State := { day with dltIn := [⟨1, 3, 0, op⟩], windows := w }

/-- After a boot that found no good copy: a write of block 9, and one of another block; and a device that stays in its power state. -/
theorem meets_HostEvents_boot : (let s := { hosted (aMsg 4 8 ([0, 0, 0, 0, 9, 0xC0, 0, 0] ++ stBody)) [] with bootFailed := true }
      s.bootFailed = true ∧ s.power ≠ 2 ∧ StPlace.block (aMsg 4 8 ([0, 0, 0, 0, 9, 0xC0, 0, 0] ++ stBody)).place = 9
        ∧ (aMsg 4 8 ([0, 0, 0, 0, 9, 0xC0, 0, 0] ++ stBody)).wellFormed s = true)
    ∧ StPlace.block (aMsg 4 8 (stBody ++ stBody)).place ≠ 9
    ∧ (day.bootFailed = false ∧ (aMsg 5 0 [0, 0, 0, 0, 0, 0, 0, 0]).place = 0)
    ∧ (∃ p : CorePend, p.line = true) ∧ (∃ p : CorePend, p.line = false ∧ p.oper = true) ∧ ∃ p : CorePend, p.line = false ∧ p.oper = false := by
  refine ⟨by decide +kernel, by decide +kernel, by decide +kernel, ⟨{ aPend none with line := true }, rfl⟩,
    ⟨{ aPend none with line := false, oper := true }, rfl, rfl⟩, ⟨{ aPend none with line := false, oper := false }, rfl, rfl⟩⟩

theorem meets_HostEvents_requests : (∀ op w, (∀ c p, op ≠ .ku c p) → nextIn (asked op w) [] (asked op w).dltIn = (some ⟨1, 3, 0, op⟩, []))
    ∧ (let s := { day with dltIn := [⟨1, 3, 0x800000000000, .ku ⟨.int 0, 0, 1⟩ true⟩] }
       nextIn s [] s.dltIn = (some ⟨1, 3, 0x800000000000, .ku ⟨.int 0, 0, 1⟩ true⟩, []))
    ∧ nextIn day [] day.dltIn = (none, day.dltIn)
    ∧ windowFor (asked (.rd 8) []) 0 8 3 = none
    ∧ (∃ c, refusal day ⟨1, 3, 0, .rd 8⟩ 8 Window.r (· < 3) = some c)
    ∧ (let s := asked (.rd 8) [(0, aWin 0xF000100000FFF000)]
       refusal s ⟨1, 3, 0, .rd 8⟩ 8 Window.r (· < 3) = none ∧ s.eccAt 0 8 = false ∧ { s with eccBad := [(0, 2)] }.eccAt 0 8 = true)
    ∧ (let s := asked (.wr [1] [true]) [(0, aWin 0xF000100000FFF000)]
       refusal s ⟨1, 3, 0, .wr [1] [true]⟩ 1 Window.w (· < 3) = none ∧ [true] = List.replicate 1 true)
    ∧ (let s := { ksDay {} with kstones := [(16384, { mapped := true, words := 8 })], windows := [(0, ⟨0xF000100000FFF000, 0x800000000000⟩)] }
       refusal s ⟨1, 3, 0x800000000000, .ku ⟨.int 0, 0, 1⟩ true⟩ 4 Window.a (· == 4) = none)
    ∧ (let s := asked (.at_ 0 1 0) [(0, aWin 0xF000100000FFF000)]
       refusal s ⟨1, 3, 0, .at_ 0 1 0⟩ 8 Window.a (· < 3) = none) := by
  refine ⟨fun op w h => ?_, rfl, rfl, rfl, ⟨2, rfl⟩, by decide +kernel, by decide +kernel, by decide +kernel, by decide +kernel⟩
  have hw : inWaits (asked op w) ⟨1, 3, 0, op⟩ = false := by
    have : isTileMem (asked op w) 0 = false := by simp [isTileMem, Place.space]
    cases op <;> first | exact absurd rfl (h _ _) | simp [inWaits, this]
  simp [nextIn, hw]

abbrev aDlt (src : DltSrc) (sent : Nat) : DltReq := ⟨7, 3, 0, .rd 8, src, sent⟩

theorem meets_HostEvents_answers : (let s := { day with dltAnsIn := [(7, .ack)], dltOut := [aDlt (.core 0) 0] }
     s.dltAnsIn = (7, .ack) :: [] ∧ s.dltOut.find? (·.id == 7) = some (aDlt (.core 0) 0))
    ∧ (let s := { day with
          dltAnsIn := [(7, .ecc)], dltOut := [aDlt (.agLoad 0 0) 0], regions := [(0, { runsOne with relDue := some 11 })] }
       s.dltAnsIn = (7, .ecc) :: [] ∧ s.dltOut.find? (·.id == 7) = some (aDlt (.agLoad 0 0) 0) ∧ relFirst s (aDlt (.agLoad 0 0) 0) = true
        ∧ relFirst day (aDlt (.agLoad 0 0) 0) = false)
    ∧ (let s := { day with round := 50000, cores := [(0, { pend := some (aPend none) })], dltOut := [aDlt (.core 0) 0] }
       (s.core 0).pend = some (aPend none) ∧ s.dltOut.find? (·.id == 7) = some (aDlt (.core 0) 0) ∧ (aDlt (.core 0) 0).src = .core 0
        ∧ (aDlt (.core 0) 0).sent + 48000 < s.round ∧ s.round ≤ (aDlt (.core 0) 2000).sent + 48000)
    ∧ (let s := { day with round := 50000, dltOut := [aDlt (.agLoad 0 0) 0] }
       s.dltOut.find? (·.id == 7) = some (aDlt (.agLoad 0 0) 0) ∧ (aDlt (.agLoad 0 0) 0).src.pk? = some (0, 64)
        ∧ s.regionOf 0 = some 0 ∧ (s.region 0).frozen = false ∧ (s.region 0).relDue = none ∧ (aDlt (.agLoad 0 0) 0).sent + 48000 < s.round) :=
  ⟨⟨rfl, rfl⟩, ⟨rfl, rfl, rfl, rfl⟩, ⟨rfl, rfl, rfl, by decide, by decide⟩, ⟨rfl, rfl, rfl, rfl, rfl, by decide⟩⟩

theorem meets_DeviceEvents : canTrain 0 (day.link 0) = true ∧ canTrain 18 (day.link 18) = false
    ∧ (let s := { State.reset with round := 24001, links := [(0, { training := some 1 })] }
       (s.link 0).training = some 1 ∧ 1 + 24000 ≤ s.round ∧ s.regions = [] ∧ 24000 < 1 + 24000
        ∧ (s.link 0).ctl.toNat / 2 ^ 8 % 2 ^ 8 ≤ 7 + 1)
    ∧ linkExists 35 = true ∧ (∃ x ∈ ([(3, { retired := true })] : Sparse TileState), x.2.retired = true)
    ∧ (({ left := 5 } : Attest).state ≠ 1 ∧ 0 < ({ left := 5 } : Attest).left ∧ ({ left := 0 } : Attest).left = 0)
    ∧ (({ left := 5, state := 1, committed := some 0 } : Attest).state = 1 ∧ ({ left := 5, state := 1, committed := some 0 } : Attest).committed = some 0)
    ∧ (placeValid day (vaultPlace 0 0 0) = true ∧ day.eccAt (vaultPlace 0 0 0) 16 = false
        ∧ { day with eccBad := [(2 ^ 42, 2)] }.eccAt (vaultPlace 0 0 0) 16 = true) := by
  refine ⟨rfl, rfl, ⟨rfl, by decide, rfl, by decide, by decide⟩, rfl, ⟨_, List.mem_singleton.2 rfl, rfl⟩, by decide, by decide, by decide +kernel⟩

/-- A link that has been down for 20 us; a vault that an access holds in this round; a dword with a correctable error, and one without. -/
theorem meets_DeviceEvents_more : (let s := { State.reset with round := 24001, links := [(0, { downAt := some 1 })] }
      (s.link 0).training = none ∧ (s.link 0).downAt = some 1 ∧ 1 + 24000 ≤ s.round ∧ ¬24001 + 24000 ≤ s.round)
    ∧ (let s := { day with dies := [(0, { vaultAt := [(0, 11)] })] }
       (s.die 0).vaultAt.get 0 0 = s.round + 1 ∧ (day.die 0).vaultAt.get 0 0 ≠ day.round + 1)
    ∧ (isOwn day 0 = true ∧ { day with eccBad := [(0, 1)] }.softIn 0 8 = [0] ∧ day.softIn 0 8 = []) := by decide +kernel

theorem meets_StepKeepsMemory : Memory.wf (onCore (fw [])).mem = true ∧ ∃ t, Machine.step (onCore (fw [])) = .next t := ⟨rfl, _, rfl⟩

end Sys2Proof.Tests
end

section
/-! PROOFS. The memory: what a read returns after a write, and what the write leaves alone (R2, R302). -/

namespace Sys2Proof.Claims

open Sys2Proof.Machine

/-- The frame of a write: memory, and the uncorrectable errors of the dwords that it covers whole (R405, log 18). -/
theorem onlyMemory_write (s : State) (p n v : Nat) : OnlyMemory s (s.write p n v) :=
  State.setBytes_only s p (leBytes n v)

/-- Settles O16. Each part is a rule of `State.write`; the bound on the width keeps the written bytes at distinct addresses, so that
none of them is written twice. -/
theorem memoryReadWrite : Obligations.MemoryReadWrite := by
  intro s p n v hn
  refine ⟨?canonical, ⟨?value, ?bytes⟩, ?others, ?frame⟩
  case canonical => exact State.wf_write p n v
  case value => exact State.read_write s p n v hn
  case bytes => exact fun k hk => State.byte_write s p n v k hn hk
  case others => exact fun q hq => State.byte_write_ne s v hq
  case frame => exact onlyMemory_write s p n v

end Sys2Proof.Claims
end

section
/-! PROOFS. Records of State read back after a write, and what the operations over regions and channels leave alone. -/

namespace Sys2Proof.Machine

/-! ### A record read back -/

@[simp] theorem elem_setElem (s : State) (k : Nat) (v : Elem) : (s.setElem k v).elem k = v := Sparse.get_put_self _ _ _ _
@[simp] theorem chan_setChan (s : State) (k : Nat) (v : Chan) : (s.setChan k v).chan k = v := Sparse.get_put_self _ _ _ _
@[simp] theorem region_setRegion (s : State) (k : Nat) (v : Region) : (s.setRegion k v).region k = v := Sparse.get_put_self _ _ _ _
@[simp] theorem launch_setLaunch (s : State) (k : Nat) (v : Launch) : (s.setLaunch k v).launch k = v := Sparse.get_put_self _ _ _ _
@[simp] theorem ag_setAg (s : State) (k : Nat) (v : Ag) : (s.setAg k v).ag k = v := Sparse.get_put_self _ _ _ _
@[simp] theorem rep_setRep (s : State) (k : Nat) (v : Repeat) : (s.setRep k v).rep k = v := Sparse.get_put_self _ _ _ _
@[simp] theorem sched_setSched (s : State) (k : Nat) (v : SchedNode) : (s.setSched k v).sched k = v := Sparse.get_put_self _ _ _ _
@[simp] theorem island_setIsland (s : State) (k : Nat) (v : Island) : (s.setIsland k v).island k = v := Sparse.get_put_self _ _ _ _
@[simp] theorem streamer_setStreamer (s : State) (k : Nat) (v : Streamer) : (s.setStreamer k v).streamer k = v :=
  Sparse.get_put_self _ _ _ _
@[simp] theorem queue_setQueue (s : State) (k : Nat) (v : WorkQueue) : (s.setQueue k v).queue k = v := Sparse.get_put_self _ _ _ _
@[simp] theorem die_setDie (s : State) (k : Nat) (v : DieState) : (s.setDie k v).die k = v := Sparse.get_put_self _ _ _ _

theorem elem_setElem_ne (s : State) {j k : Nat} (v : Elem) (h : j ≠ k) : (s.setElem k v).elem j = s.elem j := Sparse.get_put_ne _ _ _ h
theorem chan_setChan_ne (s : State) {j k : Nat} (v : Chan) (h : j ≠ k) : (s.setChan k v).chan j = s.chan j := Sparse.get_put_ne _ _ _ h
theorem region_setRegion_ne (s : State) {j k : Nat} (v : Region) (h : j ≠ k) : (s.setRegion k v).region j = s.region j :=
  Sparse.get_put_ne _ _ _ h
theorem launch_setLaunch_ne (s : State) {j k : Nat} (v : Launch) (h : j ≠ k) : (s.setLaunch k v).launch j = s.launch j :=
  Sparse.get_put_ne _ _ _ h
theorem ag_setAg_ne (s : State) {j k : Nat} (v : Ag) (h : j ≠ k) : (s.setAg k v).ag j = s.ag j := Sparse.get_put_ne _ _ _ h
theorem island_setIsland_ne (s : State) {j k : Nat} (v : Island) (h : j ≠ k) : (s.setIsland k v).island j = s.island j :=
  Sparse.get_put_ne _ _ _ h

/-! ### The region at a plane of a tile -/

theorem modRegionOf_some {s : State} {pk rk : Nat} (h : s.regionOf pk = some rk) (f : Region → Region) :
    s.modRegionOf pk f = s.setRegion rk (f (s.region rk)) := by
  unfold State.modRegionOf; rw [h]

/-- A change of the region at a plane changes regions alone. -/
theorem modRegionOf_only (s : State) (pk : Nat) (f : Region → Region) :
    s.modRegionOf pk f = { s with regions := (s.modRegionOf pk f).regions } := by
  unfold State.modRegionOf; split <;> rfl

/-- A sink report changes regions alone. -/
theorem report_only (s : State) (pk : Nat) (place : Word) (port : Nat) (payload : Word) (cut : Nat) :
    s.report pk place port payload cut = { s with regions := (s.report pk place port payload cut).regions } := modRegionOf_only s pk _

theorem reports_report {s : State} {pk rk : Nat} (h : s.regionOf pk = some rk) (place : Word) (port : Nat) (payload : Word) (cut : Nat) :
    ((s.report pk place port payload cut).region rk).reports = (s.region rk).reports ++ [⟨place, port, payload, cut⟩] := by
  unfold State.report; rw [modRegionOf_some h, region_setRegion]

/-! ### A destination frees a slot -/

theorem freeSlot_freed (s : State) (ch dst : Nat) :
    ((s.freeSlot ch dst).chan ch).freed.get 0 dst = (s.chan ch).freed.get 0 dst + 1 := by
  unfold State.freeSlot
  rw [chan_setChan]
  simp only [Sparse.get_put_self]

theorem chan_freeSlot_ne (s : State) {ch ch' : Nat} (dst : Nat) (h : ch' ≠ ch) : (s.freeSlot ch dst).chan ch' = s.chan ch' :=
  chan_setChan_ne s _ h

end Sys2Proof.Machine
end

section
/-! PROOFS. A take of an element (R32, R12, R138). -/

namespace Sys2Proof.Claims

open Sys2Proof.Machine

theorem inputsOf_single : ∀ k < 4, inputsOf (BitVec.ofNat 4 (2 ^ k)) = [k] := by decide

/-- An element whose input `k` holds what stands behind its head. -/
def headGone (el : Elem) (k : Nat) (rest : List InTok) : Elem := { el with io := { el.io with ins := el.io.ins.put [] k rest } }

theorem inq_headGone (el : Elem) (k : Nat) (rest : List InTok) : (headGone el k rest).io.inq k = rest := Sparse.get_put_self _ _ _ _

theorem inq_headGone_ne (el : Elem) {j k : Nat} (rest : List InTok) (h : j ≠ k) : (headGone el k rest).io.inq j = el.io.inq j :=
  Sparse.get_put_ne _ _ _ h

/-- The state after the head of an input has left, its slot free. -/
def headTaken (s : State) (e k : Nat) (x : InTok) (rest : List InTok) : State :=
  (s.setElem e (headGone (s.elem e) k rest)).freeSlot x.ch x.dst

/-- A take is the head's leaving, with a report where an ERR token stops. -/
theorem takeInput_front {s : State} {e k : Nat} {passed : Option Nat} {x : InTok} {rest : List InTok}
    (h : Ports.front [] ((s.elem e).io.inq k) = some (x, rest)) : takeInput e passed s k =
      if x.tok.tag = 6 ∧ passed ≠ some k then
        (headTaken s e k x rest).report (e / 16) (elemPlace e) k (x.tok.payload.setWidth 32) ((s.elem e).io.snapCut + 1)
      else headTaken s e k x rest := by
  unfold takeInput Ports.pop
  simp only [h, Bool.and_eq_true, decide_eq_true_eq]
  rfl

/-- A report leaves the elements and the channels of a take as they are. -/
theorem takeInput_elems {s : State} {e k : Nat} {passed : Option Nat} {x : InTok} {rest : List InTok}
    (h : Ports.front [] ((s.elem e).io.inq k) = some (x, rest)) :
    (takeInput e passed s k).elems = (headTaken s e k x rest).elems
      ∧ (takeInput e passed s k).chans = (headTaken s e k x rest).chans := by
  rw [takeInput_front h]
  split
  · rw [report_only]; exact ⟨rfl, rfl⟩
  · exact ⟨rfl, rfl⟩

/-- Settles O35. The mask of one input takes that input alone (`inputsOf_single`), and `takeInput_front` says what a take does. -/
theorem elemTakes : Obligations.ElemTakes := by
  intro s e k passed x rest hk hf t
  have ht : t = takeInput e passed s k := by
    simp only [t, takeInputs, inputsOf_single k hk, List.foldl_cons, List.foldl_nil]
  obtain ⟨helems, hchans⟩ := takeInput_elems (passed := passed) hf
  have elem_eq (e' : Nat) : t.elem e' = (headTaken s e k x rest).elem e' := by simp only [State.elem, ht, helems]
  have chan_eq (ch : Nat) : t.chan ch = (headTaken s e k x rest).chan ch := by simp only [State.chan, ht, hchans]
  have self : t.elem e = headGone (s.elem e) k rest := (elem_eq e).trans (elem_setElem s e _)
  refine ⟨?head, ?inputs, ?slot, ?elements, ?channels, ?silent, ?reported⟩
  case head => rw [self, inq_headGone]
  case inputs => intro j hj; rw [self, inq_headGone_ne _ _ hj]
  case slot => rw [chan_eq]; exact freeSlot_freed _ _ _
  case elements => intro e' he; rw [elem_eq]; exact elem_setElem_ne s _ he
  case channels => intro ch hch; rw [chan_eq]; exact chan_freeSlot_ne _ _ hch
  case silent =>
    intro hno
    have : ¬(x.tok.tag = 6 ∧ passed ≠ some k) := fun ⟨htag, hp⟩ => hno.elim (· htag) hp
    rw [ht, takeInput_front hf, if_neg this]; rfl
  case reported =>
    intro rk htag hp hr
    have hr' : (headTaken s e k x rest).regionOf (e / 16) = some rk := hr
    rw [ht, takeInput_front hf, if_pos ⟨htag, hp⟩, reports_report hr']
    rfl

end Sys2Proof.Claims
end

section
/-! PROOFS. Events of cuts, rollback and the deadlock probe (R18, R69, R142, R343-R345, R352). -/

namespace Sys2Proof.Claims

open Sys2Proof.Machine

/-! ### The snapshot (R142) -/

/-- A unit that is not an element which its schedule-table node feeds is saved alone. -/
theorem snapshotEv_alone {s : State} {rk : Nat} {u : UnitRef} (hu : s.regionOf u.pk = some rk) (hs : snapReady s (s.region rk) u = true)
    (hn : ∀ e, u = .elem e → ¬((s.sched (e / 16)).bound = true ∧ (s.sched (e / 16)).feeds = e)) :
    execSnapshotEv u s = .next (afterSnap (passMarkers (saveUnit s (s.region rk) u (s.region rk).cut) u (s.region rk).cut) u) := by
  unfold execSnapshotEv
  simp only [hu, hs, Bool.not_true, Bool.false_eq_true, if_false]
  cases u with
  | elem e =>
    have hsched : ∀ pk, (saveUnit s (s.region rk) (.elem e) (s.region rk).cut).sched pk = s.sched pk := fun pk => rfl
    have := hn e rfl
    simp only [hsched, Key.pkOfElem, Bool.and_eq_true, decide_eq_true_eq, if_neg this]
  | _ => rfl

@[simp] theorem io_setIo (s : State) (u : UnitRef) (v : Ports) (h : ∀ k, u ≠ .keystone k) : (s.setIo u v).io u = v := by
  cases u with
  | keystone k => exact absurd rfl (h k)
  | elem k => exact congrArg Elem.io (elem_setElem s k _)
  | ag k => exact congrArg Ag.io (ag_setAg s k _)
  | repeatNode k => exact congrArg Repeat.io (rep_setRep s k _)
  | schedNode k => exact congrArg SchedNode.io (sched_setSched s k _)
  | island k => exact congrArg Island.io (island_setIsland s k _)
  | streamer k => exact congrArg Streamer.io (streamer_setStreamer s k _)

theorem io_freeSlot (s : State) (ch dst : Nat) (u : UnitRef) : (s.freeSlot ch dst).io u = s.io u := by cases u <;> rfl

/-- Freeing the slots of tokens changes the ports of no unit. -/
theorem io_foldl_freeSlot (ts : List InTok) (s : State) (u : UnitRef) : (ts.foldl (fun s t => s.freeSlot t.ch t.dst) s).io u = s.io u := by
  induction ts generalizing s with
  | nil => rfl
  | cons t ts ih => rw [List.foldl_cons, ih, io_freeSlot]

theorem snapCut_putMarker (s : State) (u : UnitRef) (n : Nat) (io : Ports) (k : Nat) : (putMarker s u n io k).snapCut = io.snapCut := by
  unfold putMarker; split <;> rfl

theorem snapCut_foldl_putMarker (s : State) (u : UnitRef) (n : Nat) (ks : List Nat) (io : Ports) :
    (ks.foldl (putMarker s u n) io).snapCut = io.snapCut := by
  induction ks generalizing io with
  | nil => rfl
  | cons k ks ih => rw [List.foldl_cons, ih, snapCut_putMarker]

theorem snapCut_passMarkers (s : State) (u : UnitRef) (n : Nat) (h : ∀ k, u ≠ .keystone k) : ((passMarkers s u n).io u).snapCut = n := by
  unfold passMarkers
  simp only [io_foldl_freeSlot, io_setIo _ _ _ h, snapCut_foldl_putMarker]

/-! ### A rollback (R345) -/

theorem region_dropShadow (s : State) (pk rk : Nat) : (dropShadow s pk).region rk = s.region rk := rfl

theorem region_foldl_dropShadow (pks : List Nat) (s : State) (rk : Nat) : (pks.foldl dropShadow s).region rk = s.region rk := by
  induction pks generalizing s with
  | nil => rfl
  | cons pk pks ih => rw [List.foldl_cons, ih, region_dropShadow]

/-- What a rollback leaves of the region's own record. -/
def regionRestored (r : Region) : Region :=
  { restoreSeeds r r.done with
    cut := r.done, cutOpen := false, cutAsked := false, reqHop := none, reports := (r.reports.filter fun p => p.cut ≤ r.done)
    metaLog := r.metaLog.filter fun g => g.2.2 ≤ r.done
    movedAt := r.pks.foldl (fun (m : Sparse Nat) pk => m.put 0 pk r.act) []
    fails := r.fails.filter fun f => f.1 ≤ r.done }

theorem region_restoreCut (s : State) (rk : Nat) : (restoreCut s rk).region rk = regionRestored (s.region rk) := by
  unfold restoreCut; rw [region_setRegion]; rfl

theorem region_event (s : State) (die type code : Nat) (place : Word) (d2 d3 : Dword) (rk : Nat) :
    (s.event die type code place d2 d3).region rk = s.region rk := rfl

theorem region_countUe (s : State) (die rk : Nat) : (s.countUe die).region rk = s.region rk := rfl

/-- A rollback of a region of no launch, for which no REL is due. -/
theorem region_rollback {s : State} {rk : Nat} {cause : RollCause} (hl : (s.region rk).live = true) (hr : (s.region rk).running = true)
    (hd : (s.region rk).relDue = none) (hc : (s.region rk).commitHop = none) (hn : (s.region rk).launch = none) :
    let t := (rollback s rk cause).region rk
    let back := regionRestored (s.region rk)
    t.cut = back.cut ∧ t.cutOpen = back.cutOpen ∧ t.sameCut = (s.region rk).sameCut + 1 ∧ t.reports = back.reports := by
  have restored (s' : State) (h : s'.region rk = s.region rk) :
      ((s.region rk).pks.foldl dropShadow (restoreCut s' rk)).region rk = regionRestored (s.region rk) := by
    rw [region_foldl_dropShadow, region_restoreCut, h]
  have begins : ¬((!(s.region rk).live || !(s.region rk).running || (s.region rk).commitHop.isSome) = true) := by simp [hl, hr, hc]
  have free : ¬((s.region rk).relDue.isSome = true) := by simp [hd]
  unfold rollback
  dsimp only
  rw [if_neg begins, if_neg free, hn, region_setRegion]
  cases cause <;> simp only [causeEvent, region_event, restored _ rfl, restored _ (region_countUe _ _ _), and_self]

/-! ### A release (R69) -/

/-- The record of a region whose REL of its last complete cut `n` is done in round `round`. -/
def relDone (r : Region) (n round : Nat) : Region :=
  { r with relDue := none, lastRel := n, relRound := round, sameCut := 0, lastEcc := none, afterRel := none }

/-- A REL that is due releases what was held (`u` is the state behind that), is noted in its region, and a rollback that has waited for it
follows. -/
theorem relEv_due {s : State} {rk d : Nat} (hd : (s.region rk).relDue = some d) (hle : d ≤ s.round) :
    ∃ u : State, let t := u.setRegion rk (relDone (u.region rk) (s.region rk).done u.round)
      execRelEv rk s = .next (((s.region rk).afterRel.map (rollback t rk)).getD t) := by
  unfold execRelEv
  dsimp only
  rw [hd]
  dsimp only
  rw [if_neg (Nat.not_lt.mpr hle)]
  cases (s.region rk).afterRel with
  | none => exact ⟨_, rfl⟩
  | some c => exact ⟨_, rfl⟩

/-- Settles O51. The triggers, the start request, a cut's completion and the probe follow the branches of their events; the rest rests on
`snapshotEv_alone` and `snapCut_passMarkers` for a snapshot, `relEv_due` for a REL and `region_rollback` for a rollback. -/
theorem cutEvents : Obligations.CutEvents := by
  intro s rk
  dsimp only
  refine ⟨?mkrounds, ?mktokens, ?start, ?advance, ?seed, ?snapshot, ?pastSnapshot, ?complete, ?release, ?releaseThenBack, ?retrainWaits,
    ?back, ?idle, ?progress, ?probe⟩
  case mkrounds =>
    intro hr hd
    change execMkroundsExpiry rk s = _
    simp [execMkroundsExpiry, hr, hd]
  case mktokens =>
    intro u hu hr hm hd
    change execMktokensReached u s = _
    simp [execMktokensReached, hu, hr, hm, hd]
  case start =>
    intro hr hf ho ha hd
    change execStartRequestHop rk s = _
    simp [execStartRequestHop, hr, hf, ho, ha, hd]
  case advance =>
    intro k hr hf ho hk
    change execStartRequestHop rk s = _
    simp [execStartRequestHop, hr, hf, ho, hk]
  case seed =>
    intro p k ho hk hh hm hd
    unfold seedMarker
    dsimp only
    rw [if_pos]
    simpa [ho, hk, hm, hd] using hh
  case snapshot => exact fun u hu hs hn => snapshotEv_alone hu hs hn
  case pastSnapshot => exact fun u n h => snapCut_passMarkers s u n h
  case complete =>
    intro ho hf hs
    change execCutComplete rk s = _
    simp [execCutComplete, ho, hf, hs]
  case release =>
    intro d hd hle hn
    change ∃ t, execRelEv rk s = _ ∧ _
    obtain ⟨u, hu⟩ := relEv_due hd hle
    rw [hu, hn, Option.map_none, Option.getD_none]
    exact ⟨_, rfl, by rw [region_setRegion]; exact ⟨rfl, rfl, rfl⟩⟩
  case releaseThenBack =>
    intro d c hd hle hc
    change ∃ t, execRelEv rk s = _ ∧ _
    obtain ⟨u, hu⟩ := relEv_due hd hle
    rw [hu, hc]
    exact ⟨_, rfl, by rw [region_setRegion]; exact ⟨rfl, rfl, rfl⟩⟩
  case retrainWaits =>
    intro d cls ch hl hr hc hd
    unfold rollback
    dsimp only
    rw [if_neg, if_pos] <;> simp [hl, hr, hc, hd]
  case back => exact fun cause hl hr hd hc hn => ⟨_, rfl, region_rollback hl hr hd hc hn⟩
  case idle =>
    intro hr hp ha
    change execDeadlockProbeAuto rk s = _
    simp [execDeadlockProbeAuto, hr, hp, ha]
  case progress =>
    intro hr hp ha
    change execDeadlockProbeAuto rk s = _
    simp [execDeadlockProbeAuto, hr, hp, ha]
  case probe =>
    intro hr hp ha hb hs ht t found hprobe
    change execDeadlockProbeAuto rk s = _
    unfold execDeadlockProbeAuto
    dsimp only
    rw [if_neg, if_neg, if_neg hp, if_pos, hprobe]
    · rw [Bool.and_eq_true, Bool.and_eq_true]
      exact ⟨⟨by rw [hb]; rfl, decide_eq_true hs⟩, ht⟩
    · simp [ha]
    · simp [hr]

end Sys2Proof.Claims
end

section
/-! PROOFS. Events of the frame table, of launches and of the commit wave (R13-R15, R24, R332, R334-R338, R340, R341, R343, R351). -/

namespace Sys2Proof.Claims

open Sys2Proof.Machine

/-! ### The frame table (R338) -/

/-- A single valid entry has every round. -/
theorem roundEntry_single {d : DieState} {k : Nat} (h : validEntries d = [k]) (n : Nat) : roundEntry d n = some k := by
  have hrun : 0 < entryRun d k := Nat.succ_pos _
  simp [roundEntry, h, entryAt, Nat.mod_lt n hrun]

/-- No launch that loses the round is noted where none is outranked. -/
theorem frameTableStep_kept {s : State} (h : ∀ p ∈ s.launches, outranked s p.2 = false) (die : Nat) :
    execFrameTableStep die s = .next (match roundEntry (s.die die) s.round with
      | some k => s.setDie die { s.die die with cur := k }
      | none => s) := by
  have none_lost : (s.launches.filter fun p =>
      p.2.die == die && p.2.phase == .running && p.2.cause == 0 && outranked s p.2) = [] :=
    List.filter_eq_nil_iff.2 fun p hp => by simp [h p hp]
  unfold execFrameTableStep
  simp only [none_lost, List.map_nil, List.foldl_nil] <;> rfl

/-! ### Admission (R14) -/

theorem admitLaunch_running (s : State) (l plane : Nat) (m : Maps) (places : List Nat) (c : CourseRec) (extra : List Dword) (ld : Load) :
    ((admitLaunch s l plane m places c extra ld).launch l).phase = .running := by
  unfold admitLaunch
  dsimp only
  simp only [State.launch, State.setLaunch, Sparse.get_put_self]

/-! ### The commit wave and the configuration-complete wave (R332, R14) -/

theorem commitEnd_running (s : State) (rk : Nat) : ((commitEnd s rk).region rk).running = true := by
  unfold commitEnd
  rw [region_setRegion]

/-- The wave at hop `h` lets an AG start, where `u` is one that it reaches. -/
def waveReaches (r : Region) (h : Nat) (s : State) (u : UnitRef) : State :=
  match u with
  | .ag a => if r.hops (a / 8) = h then s.setAg a { s.ag a with started := true } else s
  | _ => s

theorem configurationWaveHop_due {s : State} {rk h : Nat} (hw : (s.region rk).waveHop = some h) (hf : (s.region rk).frozen = false) :
    execConfigurationWaveHop rk s = .next (((s.region rk).units.foldl (waveReaches (s.region rk) h) s).setRegion rk
      { s.region rk with waveHop := if (s.region rk).lastHop ≤ h then none else some (h + 1) }) := by
  unfold execConfigurationWaveHop
  dsimp only
  rw [hw]
  dsimp only
  rw [if_neg (by simp [hf])]
  rfl

theorem waveReaches_ag (r : Region) {h a : Nat} (s : State) (ha : r.hops (a / 8) = h) : ((waveReaches r h s (.ag a)).ag a).started = true := by
  unfold waveReaches
  simp only [if_pos ha, ag_setAg]

/-- The wave stops no AG that has started. -/
theorem waveReaches_started {r : Region} {h a : Nat} {s : State} (hs : (s.ag a).started = true) (u : UnitRef) :
    ((waveReaches r h s u).ag a).started = true := by
  cases u with
  | ag b =>
    unfold waveReaches
    dsimp only
    split
    · by_cases hb : a = b
      · subst hb; rw [ag_setAg]
      · rw [ag_setAg_ne _ _ hb]; exact hs
    · exact hs
  | _ => exact hs

theorem foldl_waveReaches_started {r : Region} {h a : Nat} (us : List UnitRef) {s : State} (hs : (s.ag a).started = true) :
    ((us.foldl (waveReaches r h) s).ag a).started = true := by
  induction us generalizing s with
  | nil => exact hs
  | cons u us ih => exact ih (waveReaches_started hs u)

theorem foldl_waveReaches_ag {r : Region} {h a : Nat} {us : List UnitRef} (hu : UnitRef.ag a ∈ us) (ha : r.hops (a / 8) = h) (s : State) :
    ((us.foldl (waveReaches r h) s).ag a).started = true := by
  induction us generalizing s with
  | nil => exact absurd hu List.not_mem_nil
  | cons u us ih =>
    rcases List.mem_cons.1 hu with rfl | hu
    · exact foldl_waveReaches_started us (waveReaches_ag r s ha)
    · exact ih hu _

/-! ### Seeds (R336) -/

/-- Where channels lead hangs on the seed ports and the plane of regions, not on how far their seeds have come. -/
theorem chanDests_setRegion {s : State} {rk : Nat} {v : Region} (hp : v.seedPorts = (s.region rk).seedPorts) (hl : v.plane = (s.region rk).plane)
    (ch : Nat) : chanDests (s.setRegion rk v) ch = chanDests s ch := by
  have ports (k : Nat) : ((s.setRegion rk v).region k).seedPorts = (s.region k).seedPorts
      ∧ ((s.setRegion rk v).region k).plane = (s.region k).plane := by
    by_cases hk : k = rk
    · subst hk; rw [region_setRegion]; exact ⟨hp, hl⟩
    · rw [region_setRegion_ne _ _ hk]; exact ⟨rfl, rfl⟩
  have entries : chanEntries (s.setRegion rk v) ch = chanEntries s ch := by
    unfold chanEntries
    simp only [(ports _).1, (ports _).2]
    rfl
  unfold chanDests
  rw [entries]
  rfl

theorem seedInject_next {s : State} {rk p : Nat} {t : Token} {rest : List (Nat × Token)} (hd : (s.region rk).drainReq = false)
    (hs : (s.region rk).seeds = (p, t) :: rest) : (seedInject s rk).region rk = { s.region rk with
      seeds := rest, seedQ := (s.region rk).seedQ.put [] p ((s.region rk).seedQ.get [] p ++ [(rest.length + 1, t)]) } := by
  unfold seedInject
  simp only [hd, hs, Bool.false_eq_true, if_false]
  exact region_setRegion s rk _

/-! ### The end of a launch (R337, R341) -/

theorem appendRecord_full {s : State} {q : Nat} (h : (s.queue q).cap ≤ (s.queue q).len) (record : List Dword) :
    appendRecord s q record = (s, false) := by
  simp [appendRecord, wqAppend, h]

theorem appendRecord_room {s : State} {q : Nat} (h : (s.queue q).len < (s.queue q).cap) (record : List Dword) :
    ∃ t, appendRecord s q record = (t, true) ∧ t.launches = s.launches ∧ (t.queue q).len = (s.queue q).len + 1 := by
  have bytes (p : Nat) (bs : List Byte) : (s.setBytes p bs).launches = s.launches := by rw [State.setBytes_only]
  unfold appendRecord wqAppend
  dsimp only
  rw [if_neg (Nat.not_le.2 h)]
  dsimp only
  split
  · exact ⟨_, rfl, bytes _ _, congrArg WorkQueue.len (queue_setQueue _ q _)⟩
  · exact ⟨_, rfl, bytes _ _, congrArg WorkQueue.len (queue_setQueue _ q _)⟩

/-- A launch that has ended leaves its record in its completion queue, where there is room. -/
theorem completeWith_room {s : State} {l : Nat} {x : Launch} (h : (s.queue x.cq).len < (s.queue x.cq).cap) (record : List Dword) :
    (completeWith s l x record).launch l = {} ∧ ((completeWith s l x record).queue x.cq).len = (s.queue x.cq).len + 1 := by
  have room : ((s.setLaunch l {}).queue x.cq).len < ((s.setLaunch l {}).queue x.cq).cap := h
  obtain ⟨t, append, launches, len⟩ := appendRecord_room room record
  unfold completeWith
  dsimp only
  rw [append]
  refine ⟨?_, len⟩
  change t.launches.get {} l = {}
  rw [launches]
  exact launch_setLaunch s l {}

/-- With no room there, the die or the launch itself holds the record (log 84). -/
theorem completeWith_full {s : State} {l : Nat} {x : Launch} (h : (s.queue x.cq).cap ≤ (s.queue x.cq).len) (record : List Dword) :
    completeWith s l x record = if (s.die x.die).heldCpl.length < 64 then
        (s.setLaunch l {}).setDie x.die { s.die x.die with heldCpl := (s.die x.die).heldCpl ++ [(x.cq, record)] }
      else (s.setLaunch l {}).setLaunch l { phase := .ended record, die := x.die, cq := x.cq } := by
  have full : ((s.setLaunch l {}).queue x.cq).cap ≤ ((s.setLaunch l {}).queue x.cq).len := h
  unfold completeWith
  dsimp only
  rw [appendRecord_full full record]
  rfl

/-- Two states have the same queues, and launches that differ in no completion queue. -/
structure SameQueues (s t : State) : Prop where
  queues : t.queues = s.queues
  cq (l : Nat) : (t.launch l).cq = (s.launch l).cq

theorem SameQueues.refl (s : State) : SameQueues s s := ⟨rfl, fun _ => rfl⟩

theorem SameQueues.trans {s t u : State} (h : SameQueues s t) (h' : SameQueues t u) : SameQueues s u :=
  ⟨h'.queues.trans h.queues, fun l => (h'.cq l).trans (h.cq l)⟩

theorem SameQueues.of_eq {s t : State} (hq : t.queues = s.queues) (hl : t.launches = s.launches) : SameQueues s t :=
  ⟨hq, fun l => by unfold State.launch; rw [hl]⟩

/-- A fold keeps the queues where each of its steps does. -/
theorem SameQueues.foldl {α : Type} {f : State → α → State} (step : ∀ s a, SameQueues s (f s a)) (as : List α) (s : State) :
    SameQueues s (as.foldl f s) := by
  induction as generalizing s with
  | nil => exact .refl s
  | cons a as ih => exact (step s a).trans (ih _)

theorem sameQueues_toPort (s : State) (e : Nat) (m : KsIn) : SameQueues s (s.toPort e m) := by
  unfold State.toPort
  dsimp only
  split <;> exact .of_eq rfl rfl

theorem sameQueues_breakAll (s : State) (ks : Nat) : SameQueues s (breakAll s ks) := by
  have reply (s : State) (r : KSrc × Token) : SameQueues s (deliverReply s r) := by
    unfold deliverReply
    split
    · exact sameQueues_toPort s _ _
    all_goals exact .of_eq rfl rfl
  unfold breakAll
  dsimp only
  have emptied (k : Keystone) : SameQueues s (s.setKstone ks k) := .of_eq rfl rfl
  exact (emptied _).trans
    (.foldl (f := fun s (h : Nat × KSrc) => deliverReply s (h.2, ksErr 5 h.1)) (fun s h => reply s _) (s.kstone ks).held _)

theorem sameQueues_countLeft (s : State) (r : Region) (left : Nat × Nat × Nat) : SameQueues s (countLeft s r left) := by
  unfold countLeft
  split
  · rename_i l _
    refine ⟨rfl, fun l' => ?_⟩
    by_cases h : l' = l
    · subst h; rw [launch_setLaunch]
    · rw [launch_setLaunch_ne _ _ h]
  · exact .refl s

theorem sameQueues_unbind (s : State) (ranges : List Nat) : SameQueues s (unbind s ranges) := by
  unfold unbind
  apply SameQueues.foldl
  exact fun s k => .of_eq rfl rfl

theorem sameQueues_dropSaved (s : State) (key : Nat) : SameQueues s (dropSaved s key) := by
  unfold dropSaved
  split
  · rename_i v _
    have broken : SameQueues (v.view s) (v.region.pks.foldl breakAll (v.view s)) := .foldl sameQueues_breakAll _ _
    dsimp only
    refine .trans (.trans ?_ (sameQueues_unbind _ _)) (sameQueues_countLeft _ _ _)
    exact ⟨broken.queues, broken.cq⟩
  · exact .refl s

/-- A running launch without regions ends with nothing but its record left to write. -/
theorem endLaunch_alone {s : State} {l : Nat} (hp : (s.launch l).phase = .running) (hr : (s.launch l).region = none) (hn : (s.launch l).next = [])
    (status code : Nat) (place : Word) : ∃ t record, SameQueues s t ∧ endLaunch s l status code place = completeWith t l (t.launch l) record := by
  unfold endLaunch
  dsimp only
  rw [hp, hr, hn]
  have dropped : SameQueues s (((s.launch l).saved.map Prod.fst).foldl dropSaved s) := .foldl sameQueues_dropSaved _ s
  have scrubbed (tiles : List Nat) (t : State) : SameQueues t (tiles.foldl (fun s t => scrubBanks s t fun o => o.1 == l) t) := by
    apply SameQueues.foldl
    exact fun s t => .of_eq rfl rfl
  exact ⟨_, _, dropped.trans (scrubbed (launchTiles s (s.launch l)) _), rfl⟩

/-! ### The courses of a graph (R340) -/

theorem retireCourse_alone {s : State} {l : Nat} (h : (s.launch l).next = []) : retireCourse s l = s := by
  unfold retireCourse
  dsimp only
  rw [h]
  cases (s.launch l).region <;> rfl

/-- Settles O50. The admission and the next course follow the checks of their events one by one; the rest rests on `roundEntry_single`,
`configurationWaveHop_due` and `foldl_waveReaches_ag` for the waves, `seedInject_next` and `chanDests_setRegion` for the seeds, and
`endLaunch_alone`, `completeWith_room` and `completeWith_full` for the end of a launch. -/
theorem launchEvents : Obligations.LaunchEvents := by
  intro s
  refine ⟨?frame, ?single, ?take, ?admitted, ?restore, ?saved, ?region, ?next, ?graphEnd, ?late, ?ends, ?completes⟩
  case frame =>
    intro die h
    have step : Machine.exec (.frameTableStep die) s = _ := frameTableStep_kept h die
    exact ⟨fun k hk => by rw [step, hk], fun hk => by rw [step, hk]⟩
  case single => exact fun d k n h => roundEntry_single h n
  case take =>
    intro die q
    dsimp only
    intro hq
    have take : Machine.exec (.workQueueTake die) s = execWorkQueueTake die s := rfl
    refine ⟨fun hb => ?_, fun hb hv => ?_, fun hb hv hr hp hf => ?_, fun hb hv hr => ?_⟩
    · simp [take, execWorkQueueTake, hq, hb]
    · simp [take, execWorkQueueTake, hq, hb, hv]
    · have hp' (x : Launch) (l : Nat) : (((flushHeld s die).setLaunch l x).queue q).priv = false := hp
      simp [take, execWorkQueueTake, hq, hb, hv, hr, hp', hf]
    · have hq' (x : Launch) (l : Nat) : ((flushHeld s die).setLaunch l x).queue q = (flushHeld s die).queue q := rfl
      have free : ((launchOf (flushHeld s die) die q).relaxed && !((flushHeld s die).queue q).priv
          && !(launchOf (flushHeld s die) die q).fromService) = false := by
        rcases hr with hr | hr | hr <;> simp [hr]
      simp [take, execWorkQueueTake, hq, hb, hv, hq', free]
  case admitted =>
    intro l limit h places c cs hp hb hi hm hn hs
    dsimp only
    have start : Machine.exec (.launchAdmit l) s = execLaunchAdmit l s := rfl
    unfold execLaunchAdmit at start
    simp only [hp, hb, hi, hm, hn, hs, ne_eq, not_true_eq_false, decide_false, Bool.or_false, Bool.false_eq_true, if_false] at start
    refine ⟨fun hf => ?_, fun hf => ?_, fun p hf ha => ?_, fun extra hf he => ?_, fun extra hf he => ?_⟩
    · rw [start, hf]
    · rw [start, hf]
    · simp only [start, hf, ha, Bool.false_eq_true, if_false]
    · simp only [start, hf, he, if_true]
    simp only [hf, he, Bool.false_eq_true, if_false] at start
    refine ⟨fun hms => ?_, fun hms hr => ?_, fun m plane hms hr => ?_⟩
    · simp only [start, hms, List.isEmpty_nil, if_true]
    · rw [start, if_neg (by simpa using hms), hr]
    rw [if_neg (by simpa using hms), hr] at start
    dsimp only at start
    refine ⟨fun p code hfault => ?_, fun hfault => ⟨fun hw => ⟨?_, ?_⟩, fun p hw => ?_, fun e t s' hw hp => ?_⟩⟩
    · rw [start, hfault]
    · rw [start, hfault, hw]
    · exact admitLaunch_running s l plane m places c extra _
    · rw [start, hfault, hw]
    · rw [start, hfault, hw]
      cases e with
      | ecc p => exact absurd hp (by simp [pinEvent])
      | _ => dsimp only; rw [hp]
  case restore =>
    intro l key place v vs hp hv
    dsimp only
    have start : Machine.exec (.preemptedRestore l) s = execPreemptedRestore l s := rfl
    unfold execPreemptedRestore at start
    simp only [hp, hv] at start
    refine ⟨fun hn => ?_, fun hn => ?_, fun p hx hb => ?_⟩
    · rw [start, if_pos (by omega)]
    · rw [start, if_neg (by omega)]
    · unfold restoreCourse
      dsimp only
      rw [hb]
      rfl
  case saved =>
    intro v w image hi hh
    simp [savedNow, hi, hh]
  case region => 
    intro rk h
    refine ⟨fun hw hf => ?_, fun hc => ⟨fun hlt => ?_, fun hle => ⟨?_, commitEnd_running _ rk⟩⟩, fun p t rest hr hw hd hs => ?_, fun p ended => ?_⟩
    · exact ⟨_, configurationWaveHop_due hw hf, region_setRegion _ rk _, fun a hu ha => foldl_waveReaches_ag hu ha s⟩
    · change execCommitWaveHop rk s = _
      unfold execCommitWaveHop
      dsimp only
      rw [hc]
      dsimp only
      rw [if_neg (Nat.not_le.2 hlt)]
    · change execCommitWaveHop rk s = _
      unfold execCommitWaveHop
      dsimp only
      rw [hc]
      dsimp only
      rw [if_pos hle]
    · have sent := seedInject_next hd hs
      refine ⟨?_, by rw [sent], by rw [sent]; exact Sparse.get_put_self _ _ _ _⟩
      change execSeedInjection rk s = _
      have more : seedsOver (s.region rk) = false := by simp [seedsOver, hd, hs]
      simp [execSeedInjection, hr, hw, more]
    · dsimp only
      refine ⟨fun n t rest hq => ⟨fun hc => ?_, fun hc => ?_⟩, fun hq => ?_⟩
      · unfold seedLeave
        dsimp only
        rw [hq]
        dsimp only
        rw [if_pos (by simp [creditHeld, hc]), chanDests_setRegion (by rfl) (by rfl)]
      · simp [seedLeave, hq, creditHeld, Nat.not_lt.2 hc]
      · unfold seedLeave
        dsimp only
        rw [hq]
        dsimp only
        rw [chanDests_setRegion (by rfl) (by rfl)]
        simp only [Bool.and_eq_true, List.contains_iff_mem]
  case next =>
    intro l rk p q hp hr hn hrun hf hw hi
    dsimp only
    intro hq
    have start : Machine.exec (.nextCourseWrite l) s = execNextCourseWrite l s := rfl
    have latest : latestCourse (s.launch l) = some rk := by unfold latestCourse; rw [hn, hr]; rfl
    unfold execNextCourseWrite at start
    simp only [retireCourse_alone hn, hp, latest, hrun, hf, hw, hi, hq, Bool.not_true, Option.isSome_none, Bool.or_false, Bool.false_eq_true,
      if_false] at start
    refine ⟨fun p hl => ?_, fun hl hj hs => ?_, fun hl hj hs hd => ?_, fun place code hl hj => ?_⟩
    · rw [start, hl]
    · rw [start, hl, hj]
      dsimp only
      rw [if_pos (by rw [hs]; rfl)]
    · rw [start, hl, hj]
      dsimp only
      have other : (courseDone s (s.region rk) && q == (s.region rk).plane) = false := by
        rcases hd with hd | hd <;> simp [hd]
      rw [if_neg (by rw [hs]; decide), other]
      rfl
    · rw [start, hl, hj]
  case graphEnd =>
    intro l rk hp hr hn hi hd
    change execGraphEnd l s = _
    simp [execGraphEnd, hp, hr, hn, hi, hd]
  case late =>
    intro l b hb hp hl hs
    change execLatencyClassExpiry l s = _
    simp [execLatencyClassExpiry, hb, hp, hl, hs]
  case ends =>
    intro l status code place hp hr hn hroom
    dsimp only
    obtain ⟨t, record, same, ended⟩ := endLaunch_alone hp hr hn status code place
    have cq : (t.launch l).cq = (s.launch l).cq := same.cq l
    have queue : t.queue (s.launch l).cq = s.queue (s.launch l).cq := by unfold State.queue; rw [same.queues]
    have room : (t.queue (t.launch l).cq).len < (t.queue (t.launch l).cq).cap := by rw [cq, queue]; exact hroom
    have := completeWith_room (l := l) room record
    rw [← ended, cq, queue] at this
    exact this
  case completes =>
    intro l x record hfull
    dsimp only
    rw [completeWith_full hfull]
    refine ⟨fun hh => ?_, fun hh => ?_⟩
    · rw [if_pos hh]
      exact ⟨launch_setLaunch s l {}, congrArg DieState.heldCpl (die_setDie _ _ _)⟩
    · rw [if_neg (Nat.not_lt.2 hh)]
      exact ⟨congrArg Launch.phase (launch_setLaunch _ l _), rfl⟩

end Sys2Proof.Claims
end

section
/-! PROOFS. Every word of an element goes on to a next state: no rule that a scheduler fires is refused (R38, R78). -/

namespace Sys2Proof.Machine

/-- A meaning that on an element always has a next state. -/
def GoesOn (f : State → Out) : Prop := ∀ (s : State) (e slot : Nat), s.cur = .element e slot → ∃ t, f s = .next t

/-- Every meaning of an element is an instruction of both units (`runShared`) at the state it is given. -/
theorem goesOn_runShared (op : Nat) (x : Body) (el : State → Nat → Nat → OpInfo → State) (co : State → Nat → Core → CoreRes) :
    GoesOn fun s => runShared op x s (el s) (co s) := by
  intro s e slot h
  refine ⟨elemFire op x s (el s e slot), ?_⟩
  dsimp only
  unfold runShared
  rw [h]

theorem goesOn_issueReject (w : Dword) : GoesOn (issueReject w) := by
  intro s e slot h
  exact ⟨s, by unfold issueReject; rw [h]⟩

/-- An EA opcode goes on when each of its forms does, since a reserved form does nothing on an element. -/
theorem goesOn_issueForm (w : Dword) {forms : List (EA → State → Out)} (h : ∀ f ∈ forms, ∀ x, GoesOn (f x)) :
    GoesOn (issueForm w forms) := by
  intro s e slot hs
  unfold issueForm
  split
  · next f hf => exact h f (List.mem_of_getElem? hf) _ s e slot hs
  · exact goesOn_issueReject w s e slot hs

/-- The opcodes of elements whose F field does not choose a form (R39). -/
def plainOpcodes : List Nat :=
  [0x09, 0x0A, 0x0B, 0x0C, 0x0D, 0x0E, 0x0F, 0x10, 0x11, 0x12, 0x13, 0x14, 0x15, 0x16, 0x17, 0x1B, 0x1C, 0x1D,
    0x30, 0x31, 0x32, 0x33, 0x34, 0x35, 0x36, 0x37, 0x3C]

/-- The opcodes of elements whose F field chooses a form (R39). -/
def formOpcodes : List Nat :=
  [0x01, 0x02, 0x03, 0x04, 0x05, 0x06, 0x07, 0x08, 0x18, 0x19, 0x1A, 0x1E, 0x1F, 0x20, 0x21, 0x22, 0x23, 0x24, 0x25, 0x26, 0x27,
    0x28, 0x29, 0x2A, 0x2B, 0x2C, 0x2D, 0x2E, 0x2F, 0x38, 0x39, 0x3A, 0x3B, 0x3D, 0x3E, 0x3F]

theorem opcode_kinds : ∀ op < 0x40, op = 0 ∨ op ∈ plainOpcodes ∨ op ∈ formOpcodes := by decide

theorem goesOn_plainOpcodes (w : Dword) : ∀ op ∈ plainOpcodes, GoesOn (issueOp op w) := by
  simp only [plainOpcodes, List.forall_mem_cons, List.not_mem_nil, false_implies, implies_true, and_true]
  and_intros
  all_goals exact goesOn_runShared _ _ _ _

theorem goesOn_formOpcodes (w : Dword) : ∀ op ∈ formOpcodes, GoesOn (issueOp op w) := by
  simp only [formOpcodes, List.forall_mem_cons, List.not_mem_nil, false_implies, implies_true, and_true]
  and_intros
  all_goals
    refine goesOn_issueForm w ?_
    simp only [List.forall_mem_cons, List.not_mem_nil, false_implies, implies_true, and_true]
    and_intros
  all_goals intro x; exact goesOn_runShared _ _ _ _

theorem goesOn_issueRule (w : Dword) : GoesOn (issueRule w) := by
  intro s e slot hs
  unfold issueRule
  split
  · next hop =>
    unfold issueWord
    rcases opcode_kinds _ hop with h | h | h
    · rw [h]; exact goesOn_issueReject w s e slot hs
    · exact goesOn_plainOpcodes w _ h s e slot hs
    · exact goesOn_formOpcodes w _ h s e slot hs
  · exact ⟨s, rfl⟩

/-- The rules that a round has chosen all fire (R78). -/
theorem fireRules_next (e : Nat) : ∀ (rules : List (Nat × Dword)) (s : State), ∃ t, fireRules e rules s = .next t
  | [], s => ⟨s, rfl⟩
  | (slot, w) :: rest, s => by
    obtain ⟨t, ht⟩ := goesOn_issueRule w { s with cur := .element e slot } e slot rfl
    obtain ⟨t', ht'⟩ := fireRules_next e rest t
    refine ⟨t', ?_⟩
    unfold fireRules
    rw [ht]
    exact ht'

end Sys2Proof.Machine
end

section
/-! PROOFS. The events of elements, channels and the drain of a tile (R18, R23, R76-R80, R87, R137, R138, R141). -/

namespace Sys2Proof.Claims

open Sys2Proof.Machine

/-! ### Channels -/

theorem io_setChan (s : State) (u : UnitRef) (ch : Nat) (c : Chan) : (s.setChan ch c).io u = s.io u := by
  cases u <;> rfl

/-- A token that is neither MARKER nor DRAIN joins the queue of a forward input that takes MARKERs from its channel. -/
theorem arrive_forward (s : State) (u : UnitRef) (k : Nat) (t : InTok) (htag : t.tok.tag ≠ 4) (hd : (s.io u).drained = false)
    (hb : (s.io u).back.testBit k = false) (hm : (s.io u).markerless.testBit k = false) (hp : passesMarkers u k = false) :
    arrive s u k t = s.setIo u { s.io u with ins := (s.io u).ins.put [] k ((s.io u).inq k ++ [t]) } := by
  unfold arrive
  simp only [htag, hd, hb, hm, hp, decide_false, Bool.false_and, Bool.or_self, Bool.false_eq_true, if_false, Bool.and_false]

theorem payOwed_one_owed {s : State} {ch : Nat} (h : (s.chan ch).owed ≠ 0) (hc : creditHeld s ch = true) :
    payOwed ch 1 s = (s.setChan ch { s.chan ch with owed := (s.chan ch).owed - 1 }).sendOn ch ⟨0, 0, 0⟩ 1 := by
  unfold payOwed
  simp only [h, hc, ne_eq, not_false_eq_true, decide_true, Bool.and_self, if_true]
  rfl

theorem payOwed_one_none {s : State} {ch : Nat} (h : (s.chan ch).owed = 0) : payOwed ch 1 s = s := by
  unfold payOwed
  simp only [h, ne_eq, not_true_eq_false, decide_false, Bool.false_and, Bool.false_eq_true, if_false]

theorem outputTokenAccept_takes (s : State) (ch : Nat) (u : UnitRef) (k : Nat) (x : OutTok) (rest : List OutTok)
    (hu : chanSender ch = some (u, k)) (hq : (s.io u).outq k = x :: rest) (hw : x.wait = none) (hr : x.ready ≤ s.round)
    (hc : creditHeld s ch = true) (hd : (chanDests s ch).length ≠ 0) :
    execOutputTokenAccept ch s = .next ((s.setIo u { s.io u with
      outs := (s.io u).outs.put [] k rest
      sinceMark := if x.tok.tag = 4 then (s.io u).sinceMark else (s.io u).sinceMark + 1 }).sendOn ch x.tok (chanDests s ch).length) := by
  unfold execOutputTokenAccept
  rw [hu]
  dsimp only
  rw [hq]
  simp only [hw, hr, hc, hd, Option.isNone_none, decide_true, Bool.and_self, ne_eq, not_false_eq_true, if_true]

/-! ### Elements -/

theorem resultLands_value (s : State) (e : Nat) (l : Landing) (k : Nat) (v : Word) (hl : (s.elem e).landing = [l]) (hdue : l.due ≤ s.round)
    (hregs : l.regs = [(k, v)]) (hpred : l.pred = none) (hev : l.ev = none) :
    execResultLands e s = .next (s.setElem e { s.elem e with
      landing := [], d := (s.elem e).d.put 0 k v, busyD := (s.elem e).busyD &&& ~~~(1#16 <<< k) }) := by
  unfold execResultLands
  simp only [hl, List.partition_eq_filter_filter, List.filter_cons, hdue, decide_true, if_true, List.filter_nil, List.foldl_cons,
    List.foldl_nil, hev, Elem.land, hregs, hpred, Function.comp, Bool.not_true, Bool.false_eq_true, if_false]
  rfl

theorem resultLands_event (s : State) (e : Nat) (r : EvRec) (hl : (s.elem e).landing = [{ due := s.round, ev := some r }]) :
    execResultLands e s = .next ((s.setElem e { s.elem e with landing := [] }).post (Key.dieOfElem e)
      { r with cyc := BitVec.ofNat 64 s.round }) := by
  unfold execResultLands
  simp only [hl, List.partition_eq_filter_filter, List.filter_cons, Nat.le_refl, decide_true, if_true, List.filter_nil, List.foldl_cons,
    List.foldl_nil, Elem.land, Function.comp, Bool.not_true, Bool.false_eq_true, if_false]
  rfl

/-! ### A tile past its DRN -/

theorem kstone_setKstone (s : State) (k : Nat) (v : Keystone) : (s.setKstone k v).kstone k = v := Sparse.get_put_self _ _ _ _

/-- An island that holds no slot. -/
def NoSlots (isl : Island) : Prop := isl.slots = [] ∧ isl.dir = []

/-- Freed slots change islands and launches alone. -/
theorem foldl_freeSlots_only (r : Region) : ∀ (us : List UnitRef) (s : State),
    ∃ is ls, us.foldl (fun s u => freeSlots s r u) s = { s with islands := is, launches := ls }
  | [], s => ⟨s.islands, s.launches, rfl⟩
  | u :: us, s => by
    obtain ⟨is, ls, h⟩ := foldl_freeSlots_only r us (freeSlots s r u)
    refine ⟨is, ls, ?_⟩
    rw [List.foldl_cons, h]
    cases u with
    | island i => simp only [freeSlots]; split <;> rfl
    | _ => rfl

theorem noSlots_freeSlots_self (s : State) (r : Region) (i : Nat) : NoSlots ((freeSlots s r (.island i)).island i) := by
  simp only [freeSlots, island_setIsland]
  exact ⟨rfl, rfl⟩

theorem noSlots_freeSlots {s : State} {i : Nat} (r : Region) (u : UnitRef) (h : NoSlots (s.island i)) :
    NoSlots ((freeSlots s r u).island i) := by
  cases u with
  | island j =>
    by_cases hj : i = j
    · subst hj; exact noSlots_freeSlots_self s r i
    · simp only [freeSlots]
      rw [island_setIsland_ne _ _ hj]
      split <;> exact h
  | _ => exact h

theorem noSlots_foldl {r : Region} {i : Nat} : ∀ (us : List UnitRef) {s : State}, NoSlots (s.island i) ∨ UnitRef.island i ∈ us →
    NoSlots ((us.foldl (fun s u => freeSlots s r u) s).island i)
  | [], _, h => h.resolve_right List.not_mem_nil
  | u :: us, s, h => by
    rw [List.foldl_cons]
    refine noSlots_foldl us ?_
    rcases h with h | h
    · exact .inl (noSlots_freeSlots r u h)
    · rcases List.mem_cons.1 h with rfl | h
      · exact .inl (noSlots_freeSlots_self s r i)
      · exact .inr h

/-- The state of a tile past its DRN: its range exists no longer, and its islands hold no slot (R18, R199, R255). -/
def tilePast (s : State) (r : Region) (pk : Nat) : State :=
  (tileEngines r pk).foldl (fun s u => freeSlots s r u) ((s.setPlane pk { s.plane pk with drn := true }).setKstone pk {})

theorem tilePast_eq (s : State) (r : Region) (pk : Nat) : ∃ is ls,
    tilePast s r pk = { (s.setPlane pk { s.plane pk with drn := true }).setKstone pk {} with islands := is, launches := ls } :=
  foldl_freeSlots_only r _ _

theorem tilePast_only (s : State) (r : Region) (pk : Nat) : tilePast s r pk
    = { s with planes := (tilePast s r pk).planes, kstones := (tilePast s r pk).kstones
               islands := (tilePast s r pk).islands, launches := (tilePast s r pk).launches } := by
  obtain ⟨is, ls, h⟩ := tilePast_eq s r pk
  rw [h]; rfl

theorem plane_tilePast (s : State) (r : Region) (pk : Nat) : (tilePast s r pk).plane pk = { s.plane pk with drn := true } := by
  obtain ⟨is, ls, h⟩ := tilePast_eq s r pk
  rw [h]; exact Sparse.get_put_self _ _ _ _

theorem kstone_tilePast (s : State) (r : Region) (pk : Nat) : (tilePast s r pk).kstone pk = {} := by
  obtain ⟨is, ls, h⟩ := tilePast_eq s r pk
  rw [h]; exact kstone_setKstone (s.setPlane pk { s.plane pk with drn := true }) pk {}

theorem noSlots_tilePast {s : State} {r : Region} {pk i : Nat} (hi : UnitRef.island i ∈ r.units) (hpk : Key.enginePk i = pk) :
    NoSlots ((tilePast s r pk).island i) := by
  have mem : UnitRef.island i ∈ tileEngines r pk := by
    unfold tileEngines
    refine List.mem_filter.2 ⟨hi, ?_⟩
    simp only [UnitRef.pk, hpk, beq_self_eq_true, Bool.and_self]
  exact noSlots_foldl _ (.inr mem)

theorem tileDrn_past {s : State} {pk rk n : Nat} (hr : s.regionOf pk = some rk) (hrun : (s.region rk).running = true)
    (hd : (s.plane pk).drn = false) (hc : (s.plane pk).drainCut = some n) (hn : n ≤ (s.region rk).lastRel)
    (hrel : releasesDone s (s.region rk) pk n = true) : execTileDrn pk s = .next (tilePast s (s.region rk) pk) := by
  unfold execTileDrn
  simp only [hr, hrun, hd, hc, hn, hrel, Bool.not_true, Bool.or_self, Bool.false_eq_true, if_false, decide_true, Bool.and_self, if_true]
  unfold tilePast
  rw [← hc]

/-- Settles O49. A round of a scheduler has a next state by `fireRules_next`; the other events are read off their meanings, branch by
branch, and `tilePast` is the state of a tile past its DRN. -/
theorem fabricEvents : Obligations.FabricEvents := by
  intro s
  refine ⟨fun e => ⟨?idle, ?round, ?value, ?event, ?drain⟩, ?accept, ?receipt, fun ch => ⟨?credit, ?late⟩,
    fun pk rk hr hrun => ⟨?cut, ?past, ?node, ?keystone⟩⟩
  case idle =>
    intro h
    change execScheduleRound e s = _
    unfold execScheduleRound
    have h' : planeActive s (Key.pkOfElem e) = false := h
    rw [h']; rfl
  case round =>
    intro h el elig chosen
    obtain ⟨t, ht⟩ := fireRules_next e (chosen.map fun c => (c.1, el.slots.get 0 c.1)) s
    refine ⟨t, ht, ?_⟩
    have h' : planeActive s (Key.pkOfElem e) = true := h
    change execScheduleRound e s = _
    unfold execScheduleRound
    rw [h']
    change (match fireRules e (chosen.map fun c => (c.1, el.slots.get 0 c.1)) s with | .next s' => _ | o => o) = _
    rw [ht]
    rfl
  case value => exact fun l k v => resultLands_value s e l k v
  case event =>
    intro r hl
    have die : Key.dieOfElem e = e / 65536 := by
      simp only [Key.dieOfElem, Key.dieOfTile, Key.tileOf, Key.pkOfElem, Nat.div_div_eq_div_mul]
    exact (resultLands_event s e r hl).trans (by rw [die])
  case drain =>
    intro rk hr hrun hd hdue
    have hr' : s.regionOf (Key.pkOfElem e) = some rk := hr
    refine ⟨fun hat => ?_, fun n hat hn hrest => ?_⟩
    all_goals
      change execElementDrain e s = _
      unfold execElementDrain
      simp only [hr', hrun, hd, hdue, hat, Bool.not_true, Bool.or_self, Bool.false_eq_true, if_false]
    · have : (drainsLast s e || atRest s e) = true := by rcases hrest with h | h <;> simp only [h, Bool.or_true, Bool.true_or]
      simp only [hn, this, Bool.true_or, decide_true, Bool.and_self, if_true]
  case accept =>
    intro ch u k x rest hu hq hw hx hc hd
    refine outputTokenAccept_takes s ch u k x rest hu hq hw hx (decide_eq_true hc) ?_
    exact fun h => hd (List.length_eq_zero_iff.1 h)
  case receipt =>
    intro ch dst f u k hf hu hsent hpath h4 h5 hold hd hb hm hp was
    have io : was.io u = s.io u := io_setChan s u ch _
    change execTokenReceipt ch dst s = _
    unfold execTokenReceipt
    simp only [hf, hu, hsent, hpath, hold, decide_true, Bool.or_true, Bool.and_self, if_true]
    rw [arrive_forward _ _ _ _ h4 (by rw [io]; exact hd) (by rw [io]; exact hb) (by rw [io]; exact hm) hp, io]
    rfl
  case credit =>
    intro back hret
    have start : Machine.exec (.creditReturn ch) s = .next (payOwed ch 1 back) := by
      change execCreditReturn ch s = _
      unfold execCreditReturn
      simp only [hret, if_true]
      rfl
    have owed : (back.chan ch).owed = (s.chan ch).owed := by simp only [back, chan_setChan]
    refine ⟨fun h => ?_, fun h hc => ?_⟩
    · rw [start, payOwed_one_none (owed.trans h)]
    · rw [start, payOwed_one_owed (by rw [owed]; exact h) (decide_eq_true hc), owed]
  case late =>
    intro rk hr hfr hlate
    have : (overdue s ch || regionLate s (s.region rk)) = true := by rcases hlate with h | h <;> simp only [h, Bool.or_true, Bool.true_or]
    change execDeliveryTimeout ch s = _
    unfold execDeliveryTimeout
    simp only [hr, hfr, this, Bool.not_false, Bool.and_self, if_true]
  case cut =>
    intro hd hc hdone
    change execTileDrn pk s = _
    unfold execTileDrn
    simp only [hr, hrun, hd, hc, hdone, Bool.not_true, Bool.or_self, Bool.false_eq_true, if_false, if_true]
  case past =>
    intro n hd hc hn hrel
    exact ⟨_, tileDrn_past hr hrun hd hc hn hrel, congrArg PlaneState.drn (plane_tilePast s _ pk), kstone_tilePast s _ pk,
      fun i hi hpk => noSlots_tilePast hi hpk, tilePast_only s _ pk⟩
  case node =>
    intro hruns hd hfill hfeed
    have io : (s.io (.repeatNode pk)).drained = false := hd
    have hr' : s.regionOf (UnitRef.repeatNode pk).pk = some rk := hr
    change execEngineDrainPass (.repeatNode pk) s = _
    unfold execEngineDrainPass
    simp only [hr', hruns, io, hfill, hfeed, Bool.not_true, Bool.or_self, Bool.false_eq_true, if_false, Bool.and_self, if_true]
  case keystone =>
    intro hlast
    change execEngineDrainPass (.keystone pk) s = _
    unfold execEngineDrainPass
    simp only [hr, hlast, if_true]

end Sys2Proof.Claims
end

section
/-! PROOFS. The refutation of O52: the service of a bank, from a state whose regions do not stand in rising order of their keys. -/

namespace Sys2Proof.Claims

open Sys2Proof.Machine

/-- A request for the first word of a bank of tile (0, 0). -/
def wordOfBank (bank : Nat) : AgReq := { seq := 0, place := Place.ofTile 0 (bank * 4096), size := 4, issued := 0 }

/-- Round 10, in which tile (0, 0) has served its own AGs. AG 8 of tile (0, 1) waits for a word of bank 0, AG 16 of tile (0, 2) for one of
bank 1; launch 5 owns both banks. Two regions are listed with falling keys: 1 holds tile (0, 2) for launch 6, and 0 holds the tiles (0, 1) and
(0, 2) for launch 5. So AG 16 stands in the region of launch 6, until the bank serves AG 8: the note of that access in region 0 lists region 0
first, and then AG 16 stands in it too. -/
def unsortedRegions : State :=
  { State.reset with
    round := 10
    ags := [(8, { reqs := [wordOfBank 0] }), (16, { reqs := [wordOfBank 1] })]
    regions := [(1, { live := true, pcol := 2, h := 1, w := 1, launch := some 6 }), (0, { live := true, pcol := 1, h := 1, w := 2, launch := some 5 })]
    tiles := [(0, { ownAt := some (10, 3), owner := [(0, some (5, 0)), (1, some (5, 0))] })] }

/-- Bank 0 can serve AG 8, and no bank of the tile can serve another AG. -/
theorem servable_unsortedRegions : servable unsortedRegions 0 0 8 = some (wordOfBank 0)
    ∧ ∀ b k, b ≠ 8 → servable unsortedRegions 0 k b = none := by
  refine ⟨by decide +kernel, fun b k hb => ?_⟩
  by_cases h16 : b = 16
  · have hwait : (unsortedRegions.ag 16).waiting = some (wordOfBank 1) := by decide +kernel
    have hbank : holdsAt unsortedRegions (16 / 2) (wordOfBank 1).place = false := by decide +kernel
    subst h16
    simp [servable, hwait, hbank]
  · have hnone : unsortedRegions.ag b = {} := by
      simp [unsortedRegions, State.ag, Sparse.get, Ne.symm hb, Ne.symm h16]
    simp [servable, hnone, Ag.waiting]

/-- What AG 16 waits for after a step. -/
def requests16 : Out → List AgReq
  | .next t => (t.ag 16).reqs
  | _ => []

/-- Refutes O52: in `unsortedRegions` the bank can serve AG 8 and no other AG, but its service also gives AG 16 its data, since it moves
AG 16 to the region of launch 5. The statement does not ask that regions stand in rising order of their keys, the form in which every
write leaves a map that has it (`Sparse.wf_put`). -/
theorem not_streamEvents : ¬ Obligations.StreamEvents := by
  unfold Obligations.StreamEvents
  intro h
  obtain ⟨-, -, -, tiles, -⟩ := h unsortedRegions
  obtain ⟨⟨-, -, serve⟩, -⟩ := tiles 0
  obtain ⟨can, others⟩ := servable_unsortedRegions
  have turn : unsortedRegions.bankTurn (wordOfBank 0).place = true := by decide +kernel
  have waits : (unsortedRegions.ag 8).reqs.filter (fun x => x.tok.isNone && x.data.isNone) = [wordOfBank 0] := by decide +kernel
  obtain ⟨-, remote⟩ := serve 8 0 (wordOfBank 0) can (by decide) turn others waits
  have step := congrArg requests16 (remote (by decide) (by decide +kernel))
  have served : requests16 (Machine.exec (.bankService 0) unsortedRegions) ≠ [wordOfBank 1] := by decide +kernel
  have kept : requests16 (.next ((serveLoad unsortedRegions 8 (wordOfBank 0)).takeTurn (wordOfBank 0).place)) = [wordOfBank 1] := by
    decide +kernel
  exact served (step.trans kept)

end Sys2Proof.Claims
end

section
/-! PROOFS. The fields of a word and the opcode map: decoding and encoding are inverse to each other (R25, R26, R29, R39). -/

namespace Sys2Proof

open Sys2Proof.Machine

/-! ### The fields of a word (R25, R26, R29)

A format lays its fields side by side. `field_append v w` reads a field where `v` bits stand above `w` bits, and `field_join m n` puts a field
of `m` bits together with the `n` bits below it; the numbers that a proof lists are the layout of its format. -/

/-- A field that does not cross the border between two parts lies in one of them. -/
theorem field_append (v w : Nat) {a : BitVec v} {b : BitVec w} {start len : Nat} (h : w ≤ start ∨ start + len ≤ w) :
    (a ++ b).extractLsb' start len = if w ≤ start then a.extractLsb' (start - w) len else b.extractLsb' start len := by
  split
  · next hw => exact BitVec.extractLsb'_append_eq_of_le hw
  · next hw => exact BitVec.extractLsb'_append_eq_of_add_le (h.resolve_left hw)

/-- Two adjacent fields are one field. -/
theorem field_join (m n : Nat) {w : Dword} {hi lo : Nat} (h : hi = lo + n) :
    w.extractLsb' hi m ++ w.extractLsb' lo n = w.extractLsb' lo (m + n) := BitVec.extractLsb'_append_extractLsb'_eq_extractLsb' h

@[simp] theorem opcodeOf_bits (x : Body) (o : BitVec 7) : opcodeOf (x.bits o) = o := by
  cases x <;> simp [opcodeOf, Body.bits, field_append 30 34, field_append 7 27]

theorem guardOf_append (g : Guard) (low : BitVec 34) : guardOf (g.bits ++ low) = g := by
  simp [guardOf, Guard.bits, field_append 30 34, field_append 8 22, field_append 8 14, field_append 4 10, field_append 4 6, field_append 1 5,
    field_append 2 3]

theorem bits_guardOf (w : Dword) : (guardOf w).bits = w.extractLsb' 34 30 := by
  simp [guardOf, Guard.bits, field_join 2 3, field_join 1 5, field_join 4 6, field_join 4 10, field_join 8 14, field_join 8 22]

/-- What a format's fields give for a word that the format has put together. -/
@[simp] theorem eaOf_bits (x : EA) (f : BitVec 3) (o : BitVec 7) : eaOf ((Body.ea x f).bits o) = x := by
  simp [eaOf, Body.bits, guardOf_append, field_append 30 34, field_append 7 27, field_append 5 22, field_append 5 17, field_append 5 12,
    field_append 4 8, field_append 5 3]

@[simp] theorem fOf_bits (x : EA) (f : BitVec 3) (o : BitVec 7) : fOf ((Body.ea x f).bits o) = f := by
  simp [fOf, Body.bits, field_append 30 34, field_append 7 27, field_append 5 22, field_append 5 17, field_append 5 12, field_append 4 8,
    field_append 5 3]

@[simp] theorem eiOf_bits (x : EI) (o : BitVec 7) : eiOf ((Body.ei x).bits o) = x := by
  simp [eiOf, Body.bits, guardOf_append, field_append 30 34, field_append 7 27, field_append 5 22, field_append 5 17, field_append 4 13,
    field_append 5 8]

@[simp] theorem ekOf_bits (x : EK) (o : BitVec 7) : ekOf ((Body.ek x).bits o) = x := by
  simp [ekOf, Body.bits, guardOf_append, field_append 30 34, field_append 7 27, field_append 5 22]

@[simp] theorem ecOf_bits (x : EC) (o : BitVec 7) : ecOf ((Body.ec x).bits o) = x := by
  simp [ecOf, Body.bits, guardOf_append, field_append 30 34, field_append 7 27, field_append 6 21, field_append 5 16, field_append 4 12,
    field_append 4 8, field_append 5 3]

@[simp] theorem mbOf_bits (x : MB) (o : BitVec 7) : mbOf ((Body.mb x).bits o) = x := by
  simp [mbOf, Body.bits, guardOf_append, field_append 30 34, field_append 7 27, field_append 5 22]

@[simp] theorem msOf_bits (x : MS) (o : BitVec 7) : msOf ((Body.ms x).bits o) = x := by
  simp [msOf, Body.bits, guardOf_append, field_append 30 34, field_append 7 27, field_append 5 22, field_append 5 17]

/-- The word that a format puts together from the fields that it reads is the word itself. -/
@[simp] theorem bits_eaOf (w : Dword) : (Body.ea (eaOf w) (fOf w)).bits (opcodeOf w) = w := by
  simp [Body.bits, eaOf, fOf, opcodeOf, bits_guardOf, field_join 5 3, field_join 4 8, field_join 5 12, field_join 5 17, field_join 5 22,
    field_join 7 27, field_join 30 34]

@[simp] theorem bits_eiOf (w : Dword) : (Body.ei (eiOf w)).bits (opcodeOf w) = w := by
  simp [Body.bits, eiOf, opcodeOf, bits_guardOf, field_join 5 8, field_join 4 13, field_join 5 17, field_join 5 22, field_join 7 27,
    field_join 30 34]

@[simp] theorem bits_ekOf (w : Dword) : (Body.ek (ekOf w)).bits (opcodeOf w) = w := by
  simp [Body.bits, ekOf, opcodeOf, bits_guardOf, field_join 5 22, field_join 7 27, field_join 30 34]

@[simp] theorem bits_ecOf (w : Dword) : (Body.ec (ecOf w)).bits (opcodeOf w) = w := by
  simp [Body.bits, ecOf, opcodeOf, bits_guardOf, field_join 5 3, field_join 4 8, field_join 4 12, field_join 5 16, field_join 6 21,
    field_join 7 27, field_join 30 34]

@[simp] theorem bits_mbOf (w : Dword) : (Body.mb (mbOf w)).bits (opcodeOf w) = w := by
  simp [Body.bits, mbOf, opcodeOf, bits_guardOf, field_join 5 22, field_join 7 27, field_join 30 34]

@[simp] theorem bits_msOf (w : Dword) : (Body.ms (msOf w)).bits (opcodeOf w) = w := by
  simp [Body.bits, msOf, opcodeOf, bits_guardOf, field_join 5 17, field_join 5 22, field_join 7 27, field_join 30 34]

/-- Whatever format an opcode fixes, its fields and the opcode are the whole word. -/
theorem bits_bodyAt (op : Nat) (w : Dword) : (bodyAt op w).bits (opcodeOf w) = w := by
  unfold bodyAt
  split <;> simp

/-! ### The bytes of a word (R25) -/

theorem dwordOfBytes_extract (w : Dword) : dwordOfBytes (w.extractLsb' 0 8) (w.extractLsb' 8 8) (w.extractLsb' 16 8) (w.extractLsb' 24 8)
    (w.extractLsb' 32 8) (w.extractLsb' 40 8) (w.extractLsb' 48 8) (w.extractLsb' 56 8) = w := by
  simp [dwordOfBytes, field_join 8 8, field_join 8 16, field_join 8 24, field_join 8 32, field_join 8 40, field_join 8 48, field_join 8 56]

/-- Decoding takes the eight bytes of a word and leaves what follows them. -/
theorem decode_bytesOfDword (w : Dword) (rest : List Byte) : decode (bytesOfDword w ++ rest) = (decodeWord w).map (·, rest) :=
  congrArg (fun v => (decodeWord v).map (·, rest)) (dwordOfBytes_extract w)

/-! ### The opcode map (R39) -/

/-- Instruction `i` stands in the opcode map at opcode `op` with the fields `x`. -/
def AtOpcode (op : Nat) (x : Body) (i : Instr) : Prop := i.op = op ∧ i.body? = some x

/-- The forms of an EA opcode are instructions of that opcode, and their place in the list is F. -/
def FormsOf (op : Nat) (forms : List (EA → Instr)) : Prop :=
  ∀ p ∈ forms.zipIdx, ∀ x : EA, AtOpcode op (.ea x (BitVec.ofNat 3 p.2)) (p.1 x)

theorem atOpcode_of_formOf {op : Nat} {w : Dword} {forms : List (EA → Instr)} (hf : FormsOf op forms) {i : Instr}
    (h : formOf w forms = .ok i) : AtOpcode op (.ea (eaOf w) (fOf w)) i := by
  unfold formOf at h
  split at h
  · next mk hmk =>
    cases h
    have := hf (mk, (fOf w).toNat) (List.mem_zipIdx_iff_getElem?.mpr hmk) (eaOf w)
    rwa [BitVec.ofNat_toNat, BitVec.setWidth_eq] at this
  · cases h

theorem formOf_bits (x : EA) (f : BitVec 3) (o : BitVec 7) {forms : List (EA → Instr)} {mk : EA → Instr} (h : forms[f.toNat]? = some mk) :
    formOf ((Body.ea x f).bits o) forms = .ok (mk x) := by
  unfold formOf
  rw [fOf_bits, h, eaOf_bits]

/-! ### From a word to its instruction -/

/-- What decoding finds in a word at opcode `op` stands in the opcode map there, with the fields of the word. -/
def DecodesInPlace (w : Dword) (op : Nat) : Prop := ∀ i, decodeOp op w = .ok i → AtOpcode op (bodyAt op w) i

/-- The opcodes of mason cores whose F field does not choose a form (R39). -/
def masonPlainOpcodes : List Nat :=
  [0x40, 0x41, 0x43, 0x44, 0x45, 0x46, 0x47, 0x48, 0x49, 0x4A, 0x4B, 0x4C, 0x4D, 0x50, 0x51, 0x5A]

/-- The opcodes of mason cores whose F field chooses a form (R39). -/
def masonFormOpcodes : List Nat := [0x42, 0x4E, 0x4F, 0x52, 0x53, 0x54, 0x55, 0x56, 0x57, 0x58, 0x59, 0x5B, 0x5C, 0x5D, 0x5E, 0x5F]

/-- Every opcode that the opcode map lists has forms or has none (R39). -/
theorem listed_opcode_kinds : ∀ op < 0x60, op = 0 ∨ op ∈ plainOpcodes ++ masonPlainOpcodes ∨ op ∈ formOpcodes ++ masonFormOpcodes := by
  decide

theorem decodesInPlace_plain (w : Dword) : ∀ op ∈ plainOpcodes ++ masonPlainOpcodes, DecodesInPlace w op := by
  simp only [plainOpcodes, masonPlainOpcodes, List.cons_append, List.nil_append, List.forall_mem_cons, List.not_mem_nil, false_implies,
    implies_true, and_true]
  and_intros
  all_goals
    intro i h
    cases h
    exact ⟨rfl, rfl⟩

theorem decodesInPlace_forms (w : Dword) : ∀ op ∈ formOpcodes ++ masonFormOpcodes, DecodesInPlace w op := by
  simp only [formOpcodes, masonFormOpcodes, List.cons_append, List.nil_append, List.forall_mem_cons, List.not_mem_nil, false_implies,
    implies_true, and_true]
  and_intros
  all_goals
    intro i h
    refine atOpcode_of_formOf ?_ h
    simp only [FormsOf, List.zipIdx, List.forall_mem_cons, List.not_mem_nil, false_implies, implies_true, and_true]
    and_intros
  all_goals
    intro x
    exact ⟨rfl, rfl⟩

theorem decodeOp_reserved {op : Nat} (h : 0x60 ≤ op) (w : Dword) : decodeOp op w = .error .opcodeReserved := by
  obtain ⟨n, rfl⟩ := Nat.exists_eq_add_of_le' h
  rfl

theorem atOpcode_of_decodeOp {op : Nat} {w : Dword} {i : Instr} (h : decodeOp op w = .ok i) : AtOpcode op (bodyAt op w) i := by
  by_cases hop : op < 0x60
  · rcases listed_opcode_kinds op hop with rfl | hp | hf
    · cases h
    · exact decodesInPlace_plain w op hp i h
    · exact decodesInPlace_forms w op hf i h
  · rw [decodeOp_reserved (Nat.le_of_not_lt hop)] at h
    cases h

/-! ### From an instruction to its word

The opcode map lists every instruction at its opcode and form. Each lemma walks through the instructions of one part of the map (a whole step
of a unit has no body, and an instruction outside that part contradicts `hop`): the formats EI, EK, EC, MB and MS and the opcodes whose F is a
value decode by their fields alone (`ok_congr`), and every other opcode by its forms (`formOf_bits`). -/

theorem ok_congr {α : Type} {mk : α → Instr} {a b : α} (h : a = b) : (.ok (mk a) : Except Reject Instr) = .ok (mk b) := by rw [h]

theorem ok_congr₂ {α β : Type} {mk : α → β → Instr} {a a' : α} {b b' : β} (ha : a = a') (hb : b = b') :
    (.ok (mk a b) : Except Reject Instr) = .ok (mk a' b') := by rw [ha, hb]

theorem decodeOp_bits_integer {i : Instr} {x : Body} (h : i.body? = some x) (o : BitVec 7) (hop : decide (i.op < 0x20) = true) :
    decodeOp i.op (x.bits o) = .ok i := by
  cases i <;> cases h <;> cases hop
  case addi x | andi x | ori x | xori x | shli x | shri x | sari x | cmpieq x | cmpilt x | cmpiltu x | muli x | lld x | lst x =>
    apply ok_congr (eiOf_bits x o)
  case movk x | movks x => apply ok_congr (ekOf_bits x o)
  case sel x f | mov x f | etrap x f => apply ok_congr₂ (eaOf_bits x f o) (fOf_bits x f o)
  all_goals
    apply formOf_bits
    rfl

theorem decodeOp_bits_floating {i : Instr} {x : Body} (h : i.body? = some x) (o : BitVec 7)
    (hop : (decide (0x20 ≤ i.op) && decide (i.op < 0x30)) = true) : decodeOp i.op (x.bits o) = .ok i := by
  cases i <;> cases h <;> cases hop
  all_goals
    apply formOf_bits
    rfl

theorem decodeOp_bits_fabric {i : Instr} {x : Body} (h : i.body? = some x) (o : BitVec 7)
    (hop : (decide (0x30 ≤ i.op) && decide (i.op < 0x40)) = true) : decodeOp i.op (x.bits o) = .ok i := by
  cases i <;> cases h <;> cases hop
  case contrib x | contribc x | cclose x | settle x | peek x | cstat x | crst x | cpoll x =>
    apply ok_congr (ecOf_bits x o)
  case amoc x f => apply ok_congr₂ (eaOf_bits x f o) (fOf_bits x f o)
  all_goals
    apply formOf_bits
    rfl

theorem decodeOp_bits_memory {i : Instr} {x : Body} (h : i.body? = some x) (o : BitVec 7)
    (hop : (decide (0x40 ≤ i.op) && decide (i.op < 0x50)) = true) : decodeOp i.op (x.bits o) = .ok i := by
  cases i <;> cases h <;> cases hop
  case br x | brl x => apply ok_congr (mbOf_bits x o)
  case ldb x | ldh x | ldw x | ldd x | ldbs x | ldhs x | ldws x | stb x | sth x | stw x | std x =>
    apply ok_congr (msOf_bits x o)
  all_goals
    apply formOf_bits
    rfl

theorem decodeOp_bits_system {i : Instr} {x : Body} (h : i.body? = some x) (o : BitVec 7) (hop : decide (0x50 ≤ i.op) = true) :
    decodeOp i.op (x.bits o) = .ok i := by
  cases i <;> cases h <;> cases hop
  case sysrd x | syswr x => apply ok_congr (eiOf_bits x o)
  case movpc x => apply ok_congr (ekOf_bits x o)
  all_goals
    apply formOf_bits
    rfl

theorem decodeOp_bits {i : Instr} {x : Body} (h : i.body? = some x) (o : BitVec 7) : decodeOp i.op (x.bits o) = .ok i := by
  rcases Nat.lt_or_ge i.op 0x20 with h20 | h20
  · exact decodeOp_bits_integer h o (by simpa using h20)
  rcases Nat.lt_or_ge i.op 0x30 with h30 | h30
  · exact decodeOp_bits_floating h o (by simpa using ⟨h20, h30⟩)
  rcases Nat.lt_or_ge i.op 0x40 with h40 | h40
  · exact decodeOp_bits_fabric h o (by simpa using ⟨h30, h40⟩)
  rcases Nat.lt_or_ge i.op 0x50 with h50 | h50
  · exact decodeOp_bits_memory h o (by simpa using ⟨h40, h50⟩)
  · exact decodeOp_bits_system h o (by simpa using h50)

/-! ### The opcode of an instruction -/

theorem op_lt_of_body {i : Instr} {x : Body} (h : i.body? = some x) : i.op < 0x60 := by
  by_contra hop
  have hd := decodeOp_bits h 0
  rw [decodeOp_reserved (Nat.le_of_not_lt hop)] at hd
  cases hd

theorem toNat_opcodeOf_encode {i : Instr} {x : Body} (h : i.body? = some x) : (opcodeOf (encode i)).toNat = i.op := by
  have := op_lt_of_body h
  rw [encode_body h, opcodeOf_bits, BitVec.toNat_ofNat]
  omega

theorem decodeWord_encode {i : Instr} {x : Body} (h : i.body? = some x) : decodeWord (encode i) = .ok i := by
  unfold decodeWord
  rw [toNat_opcodeOf_encode h, encode_body h]
  exact decodeOp_bits h _

theorem encode_of_decodeWord {w : Dword} {i : Instr} (h : decodeWord w = .ok i) :
    encode i = w ∧ i.body? = some (bodyAt (opcodeOf w).toNat w) := by
  obtain ⟨hop, hbody⟩ := atOpcode_of_decodeOp h
  refine ⟨?_, hbody⟩
  rw [encode_body hbody, hop, BitVec.ofNat_toNat, BitVec.setWidth_eq]
  exact bits_bodyAt _ w

end Sys2Proof
end

section
/-! PROOFS. The statements about words: decoding and encoding, the words that are refused, and words of the spec (R25-R29, R34, R37, R39). -/

namespace Sys2Proof.Claims

open Sys2Proof.Machine

/-- Settles O1. The opcode map lists each instruction where `encode` puts it (`decodeWord_encode`), and the bytes of a word are put together
again to the word (`decode_bytesOfDword`). -/
theorem decodeOfEncode : Obligations.DecodeOfEncode := by
  intro i x rest h
  have hd := decodeWord_encode h
  refine ⟨hd, ?_⟩
  rw [decode_bytesOfDword, hd]
  rfl

/-- Settles O2. What decoding finds stands in the opcode map with the fields of the word (`atOpcode_of_decodeOp`), and the fields with the
opcode are the whole word (`bits_bodyAt`). -/
theorem encodeOfDecode : Obligations.EncodeOfDecode := by
  intro w i h
  obtain ⟨henc, hbody⟩ := encode_of_decodeWord h
  exact ⟨henc, _, hbody⟩

/-! ### Words that are refused (R34, R37) -/

/-- F beyond the forms of its opcode is refused. -/
theorem formOf_reserved {w : Dword} {forms : List (EA → Instr)} (h : forms.length ≤ (fOf w).toNat) :
    formOf w forms = .error .formReserved := by
  unfold formOf
  rw [List.getElem?_eq_none h]

/-- Settles O3. Opcode 0 and the opcodes from 0x60 have no forms at all; of every other opcode listed the model lists as many forms as the
statement, and a higher F names none (`formOf_reserved`). -/
theorem rejectedWords : Obligations.RejectedWords := by
  refine ⟨rfl, ?zero, ?reserved, ?forms⟩
  case zero =>
    intro w hop hw
    unfold decodeWord
    rw [hop]
    exact congrArg Except.error (if_neg (by simpa using hw))
  case reserved => exact fun w hop => decodeOp_reserved hop w
  case forms =>
    intro w forms hmem hf
    suffices ∀ p ∈ _, (opcodeOf w, forms) = p → decodeOp (opcodeOf w).toNat w = .error .formReserved from this _ hmem rfl
    simp only [List.forall_mem_cons, List.not_mem_nil, false_implies, implies_true, and_true]
    and_intros
    all_goals
      intro h
      obtain ⟨hop, rfl⟩ := Prod.mk.inj h
      rw [hop]
      exact formOf_reserved hf

/-- Settles O4: each word computes to its instruction. -/
theorem specWords : Obligations.SpecWords := ⟨rfl, rfl, rfl, rfl, rfl, rfl, rfl, rfl, rfl, rfl, rfl⟩

end Sys2Proof.Claims
end

section
/-! PROOFS. A word on a mason core: its encoding is checked before its condition, and a step runs what the word decodes to (R35-R38, R300). -/

namespace Sys2Proof.Machine

open Sys2Proof.Claims

/-! ### What an instruction word is to a mason core (R36) -/

theorem cur_core_eq {s : State} {c : Nat} (h : s.cur = .core c) : s = { s with cur := .core c } := by
  obtain ⟨⟩ := s
  cases h
  rfl

/-- Every instruction word runs on a mason core by `coreStep`, whatever its meaning: the encoding, the condition, then the meaning. -/
theorem exec_core {s : State} {c : Nat} {i : Instr} {x : Body} (hcur : s.cur = .core c) (hx : i.body? = some x) :
    ∃ k : Core → CoreRes, exec i s = .next (coreStep i.op x s c k) := by
  rw [cur_core_eq hcur]
  cases i <;> cases hx
  all_goals exact ⟨_, rfl⟩

theorem exec_of_condition_false {s : State} {c : Nat} {i : Instr} {x : Body} (hcur : s.cur = .core c) (hx : i.body? = some x)
    (hlegal : i.coreIllegal = false) (hc : (s.core c).condHolds x.guard = false) :
    exec i s = .next (s.setCore c { s.core c with pc := (s.core c).pc + 8, held := false, operands := [] }) := by
  obtain ⟨k, hk⟩ := exec_core hcur hx
  rw [hk, coreStep_skips hx hlegal hc]

theorem exec_of_illegal {s : State} {c : Nat} {i : Instr} {x : Body} (hcur : s.cur = .core c) (hx : i.body? = some x)
    (hillegal : i.coreIllegal = true) (htip : Pstat.tip (s.core c).pstat = false) :
    exec i s = .next (trapped s c 1 0 (encode i)) := by
  obtain ⟨k, hk⟩ := exec_core hcur hx
  rw [hk, coreStep_illegal hx hillegal, takeTrap_eq s c 1 0 _ htip (by decide), encode_body hx]

theorem issueWord_of_error {s : State} {c : Nat} {w : Dword} {r : Reject} (hcur : s.cur = .core c)
    (htip : Pstat.tip (s.core c).pstat = false) (h : decodeWord w = .error r) : issueWord w s = .next (trapped s c 1 0 w) := by
  have reject : issueReject w s = .next (s.takeTrap c Cause.illegal 0 w) := by
    unfold issueReject
    rw [hcur]
  rw [issueWord_eq, h]
  exact reject.trans (congrArg _ (takeTrap_eq s c 1 0 w htip (by decide)))

/-! ### The rows of the opcode map (R38, R39) -/

/-- The rows of an opcode carry its number, and the rows that no mason core takes are those of the opcodes of elements. -/
theorem rows_of_opcode : ∀ op < 0x60, ∀ o ∈ opRows op, o.op = op ∧ (o.core = false ↔ op = 0x18 ∨ 0x1B ≤ op ∧ op ≤ 0x3F) := by decide

theorem opInfo_mem {op : Nat} {x : Body} {o : OpInfo} (h : opInfo op x = some o) : o ∈ opRows op := by
  unfold opInfo at h
  split at h <;> exact List.mem_of_getElem? h

theorem row_of_instr {i : Instr} {x : Body} {o : OpInfo} (hx : i.body? = some x) (ho : i.info? = some o) :
    o.op = i.op ∧ (o.core = false ↔ i.op = 0x18 ∨ 0x1B ≤ i.op ∧ i.op ≤ 0x3F) := by
  unfold Instr.info? at ho
  rw [hx] at ho
  exact rows_of_opcode _ (op_lt_of_body hx) o (opInfo_mem ho)

theorem append_eq_zero (v w : Nat) {a : BitVec v} {b : BitVec w} : a ++ b = 0 ↔ a = 0 ∧ b = 0 := by
  constructor
  · intro h
    have high : (a ++ b).extractLsb' w v = a := BitVec.extractLsb'_append_eq_left
    have low : (a ++ b).extractLsb' 0 w = b := BitVec.extractLsb'_append_eq_right
    exact ⟨by rw [← high, h]; simp, by rw [← low, h]; simp⟩
  · rintro ⟨rfl, rfl⟩
    simp

/-- Bits [47:34] of a word are the fields IR, OR, TE, TC and TV of the guard (R26). -/
theorem extract_bits_eq_zero_iff (x : Body) (o : BitVec 7) : (x.bits o).extractLsb' 34 14 = 0
    ↔ x.guard.ir = 0 ∧ x.guard.orr = 0 ∧ x.guard.te = 0 ∧ x.guard.tc = 0 ∧ x.guard.tv = 0 := by
  have fields : (x.bits o).extractLsb' 34 14
      = x.guard.ir ++ (x.guard.orr ++ (x.guard.te ++ (x.guard.tc ++ x.guard.tv))) := by
    cases x <;> simp [Body.bits, Body.guard, Guard.bits, field_append 30 34, field_append 8 22, field_append 8 14]
  rw [fields, append_eq_zero 4 10, append_eq_zero 4 6, append_eq_zero 1 5, append_eq_zero 2 3]

theorem puAction_eq_three_iff (pu : BitVec 5) : pu.extractLsb' 0 2 = 3 ↔ pu.toNat % 4 = 3 := by
  rw [← BitVec.toNat_inj]
  simp

theorem formOk_core_eq_false (x : Body) (o : OpInfo) : x.formOk o true = false ↔ o.op = 0x17 ∧ x.f ≠ 0 := by
  simp [Body.formOk]

/-- What a mason core refuses, row by row of R38. -/
theorem body_coreIllegal_iff (x : Body) (o : OpInfo) (w : BitVec 7) : x.coreIllegal o = true ↔
    o.core = false ∨ (x.bits w).extractLsb' 34 14 ≠ 0 ∨ x.dq ≠ 0 ∨ (o.op = 0x17 ∧ x.f ≠ 0) ∨ x.unusedZero o = false
      ∨ (x.pu.toNat % 4 = 3 ∧ o.cond = false) := by
  rw [Ne, extract_bits_eq_zero_iff, ← puAction_eq_three_iff]
  simp only [Body.coreIllegal, Bool.or_eq_true, Bool.and_eq_true, Bool.not_eq_true', bne_iff_ne, beq_iff_eq, formOk_core_eq_false, ne_eq,
    not_and_or, or_assoc]

theorem coreIllegal_eq {i : Instr} {x : Body} {o : OpInfo} (hx : i.body? = some x) (ho : i.info? = some o) :
    i.coreIllegal = x.coreIllegal o := by
  unfold Instr.coreIllegal
  rw [hx, ho]

/-! ### The word at PC (R300), and the word of a chosen slot (R78) -/

theorem step_of_agenda {s : State} {i : Instr} {rest : List Instr} (h : s.agenda = i :: rest) :
    step s = exec i { s with agenda := rest } := by
  unfold step
  rw [h]

theorem step_of_idle {s : State} (h : s.agenda = []) : step s = .next (turn s) := by
  unfold step
  rw [h]

/-- A core that may begin a word, and is not at the ROM entry, issues the word that it fetches. -/
theorem execInstructionFetch_word {s s0 s' : State} {c : Nat} {w : Dword} (h0 : s.setCore c ((s.core c).landed s.round) = s0)
    (hgo : (s0.core c).canFetch = true) (hrom : ¬(c = 0 ∧ (s0.core c).pc = romEntry)) (hw : fetchAt s0 c = (s', .word w)) :
    execInstructionFetch c s = issueWord w { s' with cur := .core c } := by
  have hrom' : (decide (c = 0) && (s0.core c).pc == romEntry) = false := by simpa [not_and] using hrom
  unfold execInstructionFetch
  simp only [h0, hgo, hrom', hw, Bool.not_true, Bool.false_eq_true, if_false]

theorem fireRules_cons {s t : State} {e slot : Nat} {w : Dword} {i : Instr} (rest : List (Nat × Dword)) (hop : (opcodeOf w).toNat < 0x40)
    (hd : decodeWord w = .ok i) (ht : exec i { s with cur := .element e slot } = .next t) :
    fireRules e ((slot, w) :: rest) s = fireRules e rest t := by
  have hrule : issueRule w { s with cur := .element e slot } = .next t := by
    unfold issueRule
    rw [if_pos hop, issueWord_eq, hd]
    exact ht
  conv_lhs => unfold fireRules
  rw [hrule]

end Sys2Proof.Machine

namespace Sys2Proof.Claims

open Sys2Proof.Machine

/-- Settles O8. Every word runs by `coreStep` (`exec_core`), which checks the encoding first and the condition next. -/
theorem coreConditionFalse : Obligations.CoreConditionFalse := by
  intro s c i x hx hcur hc
  exact ⟨fun hlegal => exec_of_condition_false hcur hx hlegal hc, fun hillegal htip => exec_of_illegal hcur hx hillegal htip⟩

/-- Settles O9. A word without an instruction is rejected as it is issued; an instruction traps by its row, whose columns are those of R38
(`row_of_instr`, `body_coreIllegal_iff`). -/
theorem coreIllegal : Obligations.CoreIllegal := by
  intro s c hcur htip
  refine ⟨?noInstruction, ?illegal, ?rows⟩
  case noInstruction => exact fun w r hd => issueWord_of_error hcur htip hd
  case illegal => exact fun i x hx hillegal => exec_of_illegal hcur hx hillegal htip
  case rows =>
    intro i x o hx ho
    obtain ⟨hop, hcore⟩ := row_of_instr hx ho
    rw [coreIllegal_eq hx ho, encode_body hx, body_coreIllegal_iff, hcore, hop]

/-- Settles O5. A fetch issues the word that it has read, and issuing a word is executing its instruction (`issueWord_eq`), which on a core
has a next state (`exec_core`). -/
theorem stepRunsDecoded : Obligations.StepRunsDecoded := by
  refine ⟨?agenda, ?fetch, ?slot, ?turn⟩
  case agenda => exact fun s i rest h => step_of_agenda h
  case fetch =>
    intro s s' c w i s0 hgo hrom hw hd
    obtain ⟨-, hbody⟩ := encode_of_decodeWord hd
    obtain ⟨k, hk⟩ := exec_core (s := { s' with cur := .core c }) rfl hbody
    refine ⟨_, ?_, hk⟩
    have hfetch : exec (.instructionFetch c) s = issueWord w { s' with cur := .core c } := execInstructionFetch_word rfl hgo hrom hw
    rw [hfetch, issueWord_eq, hd]
    exact hk
  case slot => exact fun s t e slot w rest i hop hd ht => fireRules_cons rest hop hd ht
  case turn => exact fun s h => ⟨_, step_of_idle h⟩

end Sys2Proof.Claims
end

section
/-! PROOFS. Elements: what a source specifier reads and where a result lands (R30, R31, R76, R86, R87). -/

namespace Sys2Proof.Machine

/-! ### Sources (R30), one equation for each class of specifiers -/

theorem readSpec_reg (s : State) (e : Nat) (x : Body) {code : BitVec 5} (h : code.toNat < 16) :
    readSpec s e x code = (s.elem e).d.get 0 code.toNat := if_pos h

theorem readSpec_head (s : State) (e : Nat) (x : Body) {code : BitVec 5} {k : Nat} (hk : k < 4) (h : code.toNat = 16 + k) :
    readSpec s e x code = (s.elem e).headVal s.round k := by
  unfold readSpec
  dsimp only
  rw [if_neg (by omega), if_pos (by omega), h, Nat.add_sub_cancel_left]

theorem readSpec_zero (s : State) (e : Nat) (x : Body) {code : BitVec 5} (h : code.toNat = 24) : readSpec s e x code = 0 := by
  simp [readSpec, h]

theorem readSpec_tag (s : State) (e : Nat) (x : Body) {code : BitVec 5} (h : code.toNat = 25) :
    readSpec s e x code = ((s.elem e).headTag s.round x.guard.tc.toNat).setWidth 32 := by
  simp [readSpec, h]

theorem readSpec_place (s : State) (e : Nat) (x : Body) {code : BitVec 5} (h : code.toNat = 26) : readSpec s e x code = elemPlace e := by
  simp [readSpec, h]

theorem readSpec_round (s : State) (e : Nat) (x : Body) {code : BitVec 5} (h : code.toNat = 27) :
    readSpec s e x code = BitVec.ofNat 32 s.round := by
  simp [readSpec, h]

theorem headVal_of_head {el : Elem} {n k : Nat} {t : Token} (h : el.io.head? n k = some t) :
    el.headVal n k = if el.ecfg.getLsbD (8 + k) then 0 else t.payload.setWidth 32 := by
  unfold Elem.headVal Elem.ctlIn Elem.head?
  rw [h]

theorem headTag_of_head {el : Elem} {n k : Nat} {t : Token} (h : el.io.head? n k = some t) : el.headTag n k = t.tag := by
  unfold Elem.headTag Elem.head?
  rw [h]

/-- IDX of an element: die, row, column and number in the layout of R30. -/
theorem elemPlace_eq (e : Nat) : elemPlace e
    = BitVec.ofNat 32 (e / 65536 * 2 ^ 30 + e / 2048 % 32 * 2 ^ 25 + e / 64 % 32 * 2 ^ 20 + e % 16 * 2 ^ 16) := by
  simp only [elemPlace, Key.place, Key.dieOfTile, Key.rowOfTile, Key.colOfTile, Key.tileOf, Key.pkOfElem, Key.numOfElem,
    Nat.div_div_eq_div_mul]

/-! ### Destinations (R31, R76, R86, R87) -/

theorem outOf_output {code : BitVec 5} {k : Nat} (hk : k < 4) (h : code.toNat = 20 + k) : outOf code = some k := by
  unfold outOf
  rw [h]
  simp
  omega

theorem outOf_eq_none {code : BitVec 5} (h : code.toNat < 20 ∨ 23 < code.toNat) : outOf code = none := by
  unfold outOf
  rw [if_neg]
  simp only [Bool.and_eq_true, decide_eq_true_eq]
  omega

theorem le_of_outOf {code : BitVec 5} {k : Nat} (h : outOf code = some k) : 20 ≤ code.toNat := by
  by_contra hlt
  rw [outOf_eq_none (Or.inl (by omega))] at h
  cases h

/-- A result of latency 1 is written at once (R86). -/
theorem result_one (el : Elem) (n : Nat) (regs : List (Nat × Word)) (pred : Option (Nat × Bool)) : el.result n 1 regs pred =
    match pred with
    | some (k, b) => (regs.foldl (fun el r => el.setReg r.1 r.2) el).setPred k b
    | none => regs.foldl (fun el r => el.setReg r.1 r.2) el := rfl

/-- A longer result sets its busy marks, and lands in round n + L - 1 (R86, R87). -/
theorem result_late (el : Elem) {n lat : Nat} (h : 1 < lat) (regs : List (Nat × Word)) (pred : Option (Nat × Bool)) :
    el.result n lat regs pred = { el with
      busyD := regs.foldl (fun m r => m ||| 1#16 <<< r.1) el.busyD
      busyP := match pred with | some (k, _) => el.busyP ||| 1#8 <<< k | none => el.busyP
      landing := el.landing ++ [{ due := n + lat - 1, regs := regs, pred := pred }] } := if_neg (by omega)

theorem writeDest_reg (el : Elem) (n lat : Nat) {code : BitVec 5} (h : code.toNat < 16) (v : Word) (tag : BitVec 3)
    (pred : Option (Nat × Bool)) : el.writeDest n lat code v tag pred = el.result n lat [(code.toNat, v)] pred := by
  unfold Elem.writeDest
  rw [outOf_eq_none (Or.inl (by omega))]
  exact congrArg (el.result n lat · pred) (if_pos h)

theorem writeDest_discard (el : Elem) (n lat : Nat) {code : BitVec 5} (h : code.toNat = 24) (v : Word) (tag : BitVec 3)
    (pred : Option (Nat × Bool)) : el.writeDest n lat code v tag pred = el.result n lat [] pred := by
  unfold Elem.writeDest
  rw [outOf_eq_none (Or.inr (by omega))]
  exact congrArg (el.result n lat · pred) (if_neg (by omega))

/-- The token of a result that an output sends; a control channel drops the payload (R31). -/
def resultToken (el : Elem) (k ready : Nat) (v : Word) (tag : BitVec 3) : OutTok :=
  { tok := ⟨tag, if el.ecfg.getLsbD (12 + k) then 0 else v.setWidth 64, 0⟩, ready := ready }

theorem writeDest_output (el : Elem) (n lat : Nat) {code : BitVec 5} {k : Nat} (hk : k < 4) (h : code.toNat = 20 + k) (v : Word)
    (tag : BitVec 3) (pred : Option (Nat × Bool)) : el.writeDest n lat code v tag pred
      = { el with io := el.io.reserve k (resultToken el k (n + lat - 1) v tag) }.result n lat [] pred := by
  unfold Elem.writeDest
  rw [outOf_output hk h]
  dsimp only
  congr 1
  unfold Elem.reserve Elem.ctlOut resultToken
  split <;> rfl

/-- Whatever D names, a longer result keeps the predicate until it lands. -/
theorem writeDest_late (el : Elem) {n lat : Nat} (h : 1 < lat) (code : BitVec 5) (v : Word) (tag : BitVec 3) (k : Nat) (b : Bool) :
    let t := el.writeDest n lat code v tag (some (k, b))
    t.busyP = el.busyP ||| 1#8 <<< k ∧ t.p = el.p
      ∧ t.landing = el.landing ++ [{ due := n + lat - 1, regs := if code.toNat < 16 then [(code.toNat, v)] else [], pred := some (k, b) }] := by
  unfold Elem.writeDest
  split
  · next j hj =>
    have := le_of_outOf hj
    rw [result_late _ h, if_neg (by omega)]
    exact ⟨rfl, rfl, rfl⟩
  · rw [result_late _ h]
    exact ⟨rfl, rfl, rfl⟩

end Sys2Proof.Machine

namespace Sys2Proof.Claims

open Sys2Proof.Machine

/-- Settles O33, class by class of R30; a control channel reads as 0 at the head (`headVal_of_head`). -/
theorem elemOperands : Obligations.ElemOperands := by
  intro s e x code el
  refine ⟨?register, ?head, ?zero, ?tag, ?place, ?round⟩
  case register => exact readSpec_reg s e x
  case head => exact fun k t hk hcode ht => (readSpec_head s e x hk hcode).trans (headVal_of_head ht)
  case zero => exact readSpec_zero s e x
  case tag => exact fun t hcode ht => (readSpec_tag s e x hcode).trans (congrArg _ (headTag_of_head ht))
  case place => exact fun hcode => (readSpec_place s e x hcode).trans (elemPlace_eq e)
  case round => exact readSpec_round s e x

/-- Settles O34: D decides what is written or reserved (`writeDest_reg`, `writeDest_output`, `writeDest_discard`), and the latency decides when
(`result_one`, `result_late`). -/
theorem elemDestinations : Obligations.ElemDestinations := by
  intro el n lat code v tag
  refine ⟨?registerNow, ?registerLate, ?output, ?discardNow, ?discardLate, ?predicateNow, ?predicateLate⟩
  case registerNow =>
    rintro h rfl
    rw [writeDest_reg el n 1 h, result_one]
    rfl
  case registerLate =>
    intro h hl
    rw [writeDest_reg el n lat h, result_late el hl]
    rfl
  case output =>
    intro k hk h hl out
    rw [writeDest_output el n lat hk h]
    refine ⟨?_, ?_, ?_⟩
    · rcases Nat.eq_or_lt_of_le hl with rfl | hl
      · rfl
      · rw [result_late _ hl]
        rfl
    · rintro rfl
      rfl
    · intro hl
      rw [result_late _ hl]
      rfl
  case discardNow =>
    rintro h rfl
    rw [writeDest_discard el n 1 h, result_one]
    rfl
  case discardLate =>
    intro h hl
    rw [writeDest_discard el n lat h, result_late el hl]
    rfl
  case predicateNow =>
    rintro k b h rfl
    rw [writeDest_discard el n 1 h, result_one]
    rfl
  case predicateLate => exact fun k b hl => writeDest_late el hl code v tag k b

end Sys2Proof.Claims
end

section
/-! PROOFS. What firing a rule that writes a value leaves unchanged (R35, R81). -/

namespace Sys2Proof.Machine

open Sys2Proof.Claims

/-! ### A take: other elements, and all of its own but the ports -/

theorem takeInput_elem_ne (passed : Option Nat) (s : State) (k : Nat) {e e' : Nat} (h : e' ≠ e) :
    (takeInput e passed s k).elem e' = s.elem e' := by
  unfold takeInput
  dsimp only
  split
  · split
    · rw [report_only]
      exact elem_setElem_ne s _ h
    · exact elem_setElem_ne s _ h
  · rfl

/-- A take changes the ports of its element alone. -/
theorem takeInput_elem_self (e : Nat) (passed : Option Nat) (s : State) (k : Nat) :
    ∃ io, (takeInput e passed s k).elem e = { s.elem e with io := io } := by
  unfold takeInput
  dsimp only
  split
  · split
    · rw [report_only]
      exact ⟨_, elem_setElem s e _⟩
    · exact ⟨_, elem_setElem s e _⟩
  · exact ⟨_, rfl⟩

theorem takeInputs_elem_ne (s : State) (dq : BitVec 4) (passed : Option Nat) {e e' : Nat} (h : e' ≠ e) :
    (takeInputs s e dq passed).elem e' = s.elem e' := by
  unfold takeInputs
  induction inputsOf dq generalizing s with
  | nil => rfl
  | cons k l ih => exact (ih _).trans (takeInput_elem_ne passed s k h)

theorem takeInputs_elem_self (s : State) (e : Nat) (dq : BitVec 4) (passed : Option Nat) :
    ∃ io, (takeInputs s e dq passed).elem e = { s.elem e with io := io } := by
  unfold takeInputs
  induction inputsOf dq generalizing s with
  | nil => exact ⟨_, rfl⟩
  | cons k l ih =>
    obtain ⟨io, hio⟩ := takeInput_elem_self e passed s k
    obtain ⟨io', hio'⟩ := ih (takeInput e passed s k)
    exact ⟨io', by rw [List.foldl_cons, hio', hio]⟩

/-! ### A result: registers, the predicate of PU, and what lands later -/

theorem foldl_setReg (regs : List (Nat × Word)) (el : Elem) : regs.foldl (fun el r => el.setReg r.1 r.2) el
    = { el with d := regs.foldl (fun d r => d.put 0 r.1 r.2) el.d } := by
  induction regs generalizing el with
  | nil => rfl
  | cons r regs ih => exact ih _

theorem get_foldl_put (regs : List (Nat × Word)) (d : Sparse Word) {j k : Nat} (hk : k ≠ j) (h : ∀ r ∈ regs, r.1 = j) :
    (regs.foldl (fun d r => d.put 0 r.1 r.2) d).get 0 k = d.get 0 k := by
  induction regs generalizing d with
  | nil => rfl
  | cons r regs ih =>
    obtain ⟨hr, hregs⟩ := List.forall_mem_cons.mp h
    rw [List.foldl_cons, ih _ hregs, hr]
    exact Sparse.get_put_ne _ _ _ hk

/-- A result writes registers and predicates with their busy marks, or waits in `landing`. -/
theorem result_frame (el : Elem) (n lat : Nat) (regs : List (Nat × Word)) (pred : Option (Nat × Bool)) :
    ∃ d p busyD busyP landing,
      el.result n lat regs pred = { el with d := d, p := p, busyD := busyD, busyP := busyP, landing := landing } := by
  unfold Elem.result
  rw [foldl_setReg]
  split
  · dsimp only
    split <;> exact ⟨_, _, _, _, _, rfl⟩
  · exact ⟨_, _, _, _, _, rfl⟩

theorem result_d_get (el : Elem) (n lat : Nat) {regs : List (Nat × Word)} (pred : Option (Nat × Bool)) {j k : Nat} (hk : k ≠ j)
    (h : ∀ r ∈ regs, r.1 = j) : (el.result n lat regs pred).d.get 0 k = el.d.get 0 k := by
  have := get_foldl_put regs el.d hk h
  unfold Elem.result
  rw [foldl_setReg]
  split
  · dsimp only
    split <;> exact this
  · rfl

theorem result_p_none (el : Elem) (n lat : Nat) (regs : List (Nat × Word)) : (el.result n lat regs none).p = el.p := by
  unfold Elem.result
  rw [foldl_setReg]
  split <;> rfl

/-- A value for D is a result that writes no register but D's, with a token in the ports where D names an output. -/
theorem writeDest_eq_result (el : Elem) (n lat : Nat) (code : BitVec 5) (v : Word) (tag : BitVec 3) (pred : Option (Nat × Bool)) :
    ∃ io regs, el.writeDest n lat code v tag pred = { el with io := io }.result n lat regs pred ∧ ∀ r ∈ regs, r.1 = code.toNat := by
  unfold Elem.writeDest
  split
  · exact ⟨_, [], rfl, by simp⟩
  · refine ⟨el.io, _, rfl, ?_⟩
    split <;> simp

theorem puWrite_none {pu : BitVec 5} (h : pu.toNat % 4 = 0) (cond : Bool) : puWrite pu cond = none := by
  have : puAction pu = 0 := by simpa [puAction] using h
  unfold puWrite
  rw [this]
  rfl

/-! ### The status of a slot -/

theorem slotSt_noAbort_self (el : Elem) (slot : Nat) : (el.noAbort slot).slotSt slot = { el.slotSt slot with aborts := 0 } :=
  Sparse.get_put_self _ _ _ _

theorem slotSt_noAbort_ne (el : Elem) {slot j : Nat} (h : j ≠ slot) : (el.noAbort slot).slotSt j = el.slotSt j :=
  Sparse.get_put_ne _ _ _ h

/-- An element after a rule has written a value: ports, the flags, a result that writes no register but D's, and ABORTS at 0. -/
theorem valueFired_elem_self (s : State) (e slot lat : Nat) (x : Body) (code : BitVec 5) (v : Word) (cond : Bool) (fl : BitVec 5)
    (tag : BitVec 3) (passed : Option Nat) :
    ∃ io regs, (valueFired s e slot lat x code v cond fl tag id passed).elem e
        = ({ s.elem e with fflg := (s.elem e).fflg ||| fl.setWidth 32, io := io }.result s.round lat regs (puWrite x.pu cond)).noAbort slot
      ∧ ∀ r ∈ regs, r.1 = code.toNat := by
  obtain ⟨taken, htaken⟩ := takeInputs_elem_self s e x.dq passed
  obtain ⟨io, regs, hdest, hregs⟩ :=
    writeDest_eq_result ({ s.elem e with io := taken }.orFlags fl) s.round lat code v tag (puWrite x.pu cond)
  refine ⟨io, regs, ?_, hregs⟩
  unfold valueFired State.modElem
  rw [elem_setElem, htaken]
  exact congrArg (Elem.noAbort · slot) hdest

end Sys2Proof.Machine

namespace Sys2Proof.Claims

open Sys2Proof.Machine

/-- Settles O36. The takes touch elements, channels and regions alone (`takeInputs_frame`), and of the elements only their own
(`takeInputs_elem_ne`); in that one the value is a result of `code` (`valueFired_elem_self`), whose frame is `result_frame`. -/
theorem elemFrame : Obligations.ElemFrame := by
  intro s e slot lat x code v cond fl tag passed t
  refine ⟨?state, ?others, ?element⟩
  case state =>
    obtain ⟨elems, chans, regions, h⟩ : ∃ elems chans regions, takeInputs s e x.dq passed
        = { s with elems := elems, chans := chans, regions := regions } := ⟨_, _, _, takeInputs_frame s e x.dq passed⟩
    simp only [t, valueFired, h]
    rfl
  case others => exact fun e' he => (elem_setElem_ne _ _ he).trans (takeInputs_elem_ne s x.dq passed he)
  case element =>
    obtain ⟨io, regs, hself, hregs⟩ := valueFired_elem_self s e slot lat x code v cond fl tag passed
    obtain ⟨d, p, busyD, busyP, landing, hframe⟩ :=
      result_frame { s.elem e with fflg := (s.elem e).fflg ||| fl.setWidth 32, io := io } s.round lat regs (puWrite x.pu cond)
    dsimp only
    rw [show t.elem e = _ from hself]
    refine ⟨?frame, ?registers, ?predicates, ?aborts, ?slots⟩
    case frame =>
      rw [hframe]
      rfl
    case registers => exact fun k hk => result_d_get _ _ _ _ hk hregs
    case predicates =>
      intro hpu
      rw [puWrite_none hpu]
      exact result_p_none _ _ _ _
    case aborts => rw [slotSt_noAbort_self]
    case slots =>
      intro j hj
      rw [slotSt_noAbort_ne _ hj, hframe]
      rfl

end Sys2Proof.Claims
end

section
/-! PROOFS. What a round chooses at an element (R40, R78, R79). -/

namespace Sys2Proof.Machine

/-- How many lanes of one kind the rules of a list take together (R40). -/
def laneSum (el : Elem) (f : Nat × Nat × Nat → Nat) (l : List (Nat × Nat)) : Nat :=
  (l.map fun p => match el.rule p.1 with | some (o, x) => f (x.lanes o) | none => 0).sum

theorem laneSum_append {el : Elem} {p : Nat × Nat} {o : OpInfo} {x : Body} (h : el.rule p.1 = some (o, x)) (f : Nat × Nat × Nat → Nat)
    (l : List (Nat × Nat)) : laneSum el f (l ++ [p]) = laneSum el f l + f (x.lanes o) := by
  simp [laneSum, h]

/-- A rule fits with those chosen so far: it is at most the fourth, conflicts with none of them, and finds its lanes free (R78, R79). -/
structure Fits (el : Elem) (c : Chosen) (k : Nat) (lanes : Nat × Nat × Nat) : Prop where
  few  : c.list.length < 4
  free : ∀ t ∈ c.list, (el.conflict.get 0 k).getLsbD t.1 = false
  a    : c.na + lanes.1 ≤ 2
  m    : c.nm + lanes.2.1 ≤ 1
  c    : c.nc + lanes.2.2 ≤ 1

/-! ### One rule offered -/

theorem chooseStep_of_fits {el : Elem} {c : Chosen} {p : Nat × Nat} {o : OpInfo} {x : Body} (hr : el.rule p.1 = some (o, x))
    (h : Fits el c p.1 (x.lanes o)) : chooseStep el c p = { list := c.list ++ [p], na := c.na + (x.lanes o).1
                                                            nm := c.nm + (x.lanes o).2.1, nc := c.nc + (x.lanes o).2.2 } := by
  obtain ⟨few, free, a, m, c⟩ := h
  unfold chooseStep
  rw [hr]
  simp only [Bool.and_eq_true, decide_eq_true_eq, List.all_eq_true, Bool.not_eq_true']
  exact if_pos ⟨⟨⟨⟨few, free⟩, a⟩, m⟩, c⟩

theorem chooseStep_of_not_fits {el : Elem} {c : Chosen} {p : Nat × Nat} {o : OpInfo} {x : Body} (hr : el.rule p.1 = some (o, x))
    (h : ¬Fits el c p.1 (x.lanes o)) : chooseStep el c p = c := by
  unfold chooseStep
  rw [hr]
  simp only [Bool.and_eq_true, decide_eq_true_eq, List.all_eq_true, Bool.not_eq_true']
  exact if_neg fun ⟨⟨⟨⟨few, free⟩, a⟩, m⟩, c⟩ => h ⟨few, free, a, m, c⟩

theorem chooseStep_of_no_rule {el : Elem} {c : Chosen} {p : Nat × Nat} (hr : el.rule p.1 = none) : chooseStep el c p = c := by
  unfold chooseStep
  rw [hr]

/-! ### All the rules offered -/

/-- What a walk holds after the rules of `order`: at most four of them, in their order, without a conflict, with their lanes counted. -/
structure ChoiceOf (el : Elem) (order : List (Nat × Nat)) (c : Chosen) : Prop where
  few    : c.list.length ≤ 4
  sub    : c.list.Sublist order
  free   : c.list.Pairwise fun a b => (el.conflict.get 0 b.1).getLsbD a.1 = false
  na     : laneSum el (·.1) c.list = c.na
  nm     : laneSum el (·.2.1) c.list = c.nm
  nc     : laneSum el (·.2.2) c.list = c.nc
  na_le  : c.na ≤ 2
  nm_le  : c.nm ≤ 1
  nc_le  : c.nc ≤ 1

theorem ChoiceOf.skip {el : Elem} {order : List (Nat × Nat)} {c : Chosen} (h : ChoiceOf el order c) (p : Nat × Nat) :
    ChoiceOf el (order ++ [p]) c := { h with sub := h.sub.trans (List.sublist_append_left order [p]) }

theorem ChoiceOf.step {el : Elem} {order : List (Nat × Nat)} {c : Chosen} (h : ChoiceOf el order c) (p : Nat × Nat) :
    ChoiceOf el (order ++ [p]) (chooseStep el c p) := by
  cases hr : el.rule p.1 with
  | none =>
    rw [chooseStep_of_no_rule hr]
    exact h.skip p
  | some r =>
    obtain ⟨o, x⟩ := r
    by_cases hf : Fits el c p.1 (x.lanes o)
    · rw [chooseStep_of_fits hr hf]
      exact {
        few := by simpa using hf.few
        sub := h.sub.append (List.Sublist.refl [p])
        free := List.pairwise_append.mpr ⟨h.free, List.pairwise_singleton _ _, fun t ht q hq => by
          rw [List.mem_singleton.mp hq]
          exact hf.free t ht⟩
        na := by rw [laneSum_append hr, h.na]
        nm := by rw [laneSum_append hr, h.nm]
        nc := by rw [laneSum_append hr, h.nc]
        na_le := hf.a
        nm_le := hf.m
        nc_le := hf.c }
    · rw [chooseStep_of_not_fits hr hf]
      exact h.skip p

theorem choiceOf_foldl (el : Elem) (order : List (Nat × Nat)) : ChoiceOf el order (order.foldl (chooseStep el) {}) := by
  induction order using List.reverseRecOn with
  | nil => exact ⟨by simp, List.Sublist.refl _, List.Pairwise.nil, rfl, rfl, rfl, by simp, by simp, by simp⟩
  | append_singleton order p ih =>
    rw [List.foldl_concat]
    exact ih.step p

/-- The count of a walk is that of the lanes of its rules. -/
theorem ChoiceOf.fits_iff {el : Elem} {order : List (Nat × Nat)} {c : Chosen} (h : ChoiceOf el order c) (k : Nat) (lanes : Nat × Nat × Nat) :
    Fits el c k lanes ↔ c.list.length < 4 ∧ (∀ t ∈ c.list, (el.conflict.get 0 k).getLsbD t.1 = false)
      ∧ laneSum el (·.1) c.list + lanes.1 ≤ 2 ∧ laneSum el (·.2.1) c.list + lanes.2.1 ≤ 1
      ∧ laneSum el (·.2.2) c.list + lanes.2.2 ≤ 1 := by
  rw [h.na, h.nm, h.nc]
  exact ⟨fun ⟨few, free, a, m, c⟩ => ⟨few, free, a, m, c⟩, fun ⟨few, free, a, m, c⟩ => ⟨few, free, a, m, c⟩⟩

/-- The rules chosen from an order with one more rule. -/
theorem choose_concat {el : Elem} {order : List (Nat × Nat)} {p : Nat × Nat} {o : OpInfo} {x : Body} (hr : el.rule p.1 = some (o, x)) :
    (Fits el (order.foldl (chooseStep el) {}) p.1 (x.lanes o) → choose el (order ++ [p]) = choose el order ++ [p])
      ∧ (¬Fits el (order.foldl (chooseStep el) {}) p.1 (x.lanes o) → choose el (order ++ [p]) = choose el order) := by
  unfold choose
  rw [List.foldl_concat]
  exact ⟨fun h => by rw [chooseStep_of_fits hr h], fun h => by rw [chooseStep_of_not_fits hr h]⟩

end Sys2Proof.Machine

namespace Sys2Proof.Claims

open Sys2Proof.Machine

/-- Settles O48. A walk keeps `ChoiceOf` with every rule offered (`ChoiceOf.step`), and the next rule is chosen exactly when it `Fits`
(`choose_concat`, `ChoiceOf.fits_iff`). -/
theorem elemSchedule : Obligations.ElemSchedule := by
  intro el order
  have choice := choiceOf_foldl el order
  refine ⟨choice.few, choice.sub, choice.free, choice.na.trans_le choice.na_le, choice.nm.trans_le choice.nm_le,
    choice.nc.trans_le choice.nc_le, rfl, ?_⟩
  intro k part o x hr
  obtain ⟨takes, leaves⟩ := choose_concat (order := order) (p := (k, part)) hr
  have fits := choice.fits_iff k (x.lanes o)
  exact ⟨fun h => takes (fits.mpr h), fun h => leaves (mt fits.mp h)⟩

end Sys2Proof.Claims
end

section
/-! PROOFS. The floating, packed and MK8 forms of an element (R55, R86, R118-R133). -/

namespace Sys2Proof.Machine

open Sys2Proof.Claims

/-- What an element makes of a form of the table: a floating instruction with the form's results, in a row of the opcode map that has
the form's latency and writes D, and that reads D where the results depend on it. -/
structure RunsAsFp (row : FpRow) (op : Nat) (f : BitVec 3) (o : OpInfo) : Prop where
  body : ∀ x, (row.op x).body? = some (.ea x f)
  means : ∀ x s, exec (row.op x) s = runFp op x f row.res s
  info : ∀ x, opInfo op (.ea x f) = some o
  lat : o.lat = row.lat
  dest : ∀ x, destCode o x = x.d
  acc : ∀ v a b d, row.res v a b (if o.d == .acc then d else 0) = row.res v a b d

/-- Every form of the table is so: each field is read off the form's meaning and its row of the opcode map. -/
theorem runsAsFp_of_mem : ∀ row ∈ fpRows, ∃ op f o, RunsAsFp row op f o := by
  simp only [fpRows, fpArith, fpUnary, fpLanes, fpMk8, List.forall_mem_append, List.forall_mem_cons, List.not_mem_nil, false_implies,
    implies_true, and_true]
  and_intros
  all_goals exact ⟨_, _, _, fun _ => rfl, fun _ _ => rfl, fun _ => rfl, rfl, fun _ => rfl, fun _ _ _ _ => rfl⟩

/-- A form that fires on an element is one floating firing with the form's results. -/
theorem RunsAsFp.exec_eq {row : FpRow} {op : Nat} {f : BitVec 3} {o : OpInfo} (h : RunsAsFp row op f o) {s : State} {e slot : Nat}
    (hcur : s.cur = .element e slot) (x : EA) :
    let y := Body.ea x f
    let r := row.res (s.elem e).env (readSpec s e y x.a) (readSpec s e y x.b) (readSpec s e y x.d)
    exec (row.op x) s = .next (fireValue s e slot o y r.val r.cond r.fl 0 id none) := by
  rw [h.means]
  unfold runFp
  dsimp only
  unfold runElem
  rw [runShared_elem hcur (h.info x), h.acc]

end Sys2Proof.Machine

namespace Sys2Proof.Claims

open Sys2Proof.Machine

/-- Settles O40. Each form of the table is a floating instruction with the table's results (`runsAsFp_of_mem`), and with room and no trap
its firing writes the result at the latency of its row (`fireValue_dest`). -/
theorem elemFloat : Obligations.ElemFloat := by
  intro s e slot row x f hrow hbody
  dsimp only
  intro fires room noTrap
  obtain ⟨op, f', o, runs⟩ := runsAsFp_of_mem row hrow
  obtain rfl : f' = f := by
    have := (runs.body x).symm.trans hbody
    injection this with this
    injection this
  rw [runs.exec_eq fires.here x, fireValue_dest room noTrap row.lat runs.lat _ (runs.dest _)]
  rfl

end Sys2Proof.Claims
end

section
/-! PROOFS. RoundSig as the choice between a quotient and the next one (R47, R48). -/

namespace Sys2Proof.Machine.Num

/-- `a` counted in multiples of 2^k, as a numerator and a denominator. -/
def Frac.numAt (a : Frac) (k : Int) : Nat := if 0 ≤ k then a.n else a.n * 2 ^ (-k).toNat
def Frac.denAt (a : Frac) (k : Int) : Nat := if 0 ≤ k then a.d * 2 ^ k.toNat else a.d

theorem denAt_pos {a : Frac} (h : 0 < a.d) (k : Int) : 0 < a.denAt k := by
  unfold Frac.denAt
  split
  · exact Nat.mul_pos h (Nat.two_pow_pos _)
  · exact h

/-- Whether a mode takes the upper neighbour of an inexact n / d (R47). -/
def roundsUp (rm : RM) (neg : Bool) (n d : Nat) : Bool :=
  match rm with
  | .rne => decide (d < 2 * (n % d)) || (decide (2 * (n % d) = d) && n / d % 2 == 1)
  | .rna => decide (d ≤ 2 * (n % d))
  | .rtz => false
  | .rup => !neg
  | .rdn => neg

theorem roundsUp_rne_iff (neg : Bool) (n d : Nat) :
    roundsUp .rne neg n d = true ↔ d < 2 * (n % d) ∨ 2 * (n % d) = d ∧ n / d % 2 = 1 := by simp [roundsUp]

theorem roundsUp_rna_iff (neg : Bool) (n d : Nat) : roundsUp .rna neg n d = true ↔ d ≤ 2 * (n % d) := by simp [roundsUp]

theorem roundSig_of_exact {a : Frac} {k : Int} (h : a.numAt k % a.denAt k = 0) (neg : Bool) (rm : RM) :
    roundSig a k neg rm = (a.numAt k / a.denAt k, true) := if_pos h

theorem roundSig_of_inexact {a : Frac} {k : Int} (h : a.numAt k % a.denAt k ≠ 0) (neg : Bool) (rm : RM) :
    roundSig a k neg rm
      = (if roundsUp rm neg (a.numAt k) (a.denAt k) then a.numAt k / a.denAt k + 1 else a.numAt k / a.denAt k, false) := by
  refine (if_neg h).trans ?_
  cases rm <;> rfl

theorem roundSig_snd (a : Frac) (k : Int) (neg : Bool) (rm : RM) :
    (roundSig a k neg rm).2 = decide (a.numAt k % a.denAt k = 0) := by
  by_cases h : a.numAt k % a.denAt k = 0
  · rw [roundSig_of_exact h, decide_eq_true h]
  · rw [roundSig_of_inexact h, decide_eq_false h]

/-- What RoundSig chooses for n / d: the quotient itself, or for an inexact value the quotient or the next one, as the mode says. -/
inductive Neighbour (n d : Nat) (up : Bool) : Nat → Prop
  | exact {q : Nat} (value : q * d = n) (rest : n % d = 0) : Neighbour n d up q
  | below {q : Nat} (value : q * d + n % d = n) (rest : 0 < n % d) (quot : q = n / d) (down : ¬up = true) : Neighbour n d up q
  | above {q : Nat} (value : q * d + n % d = n + d) (rest : 0 < n % d) (quot : q = n / d + 1) (taken : up = true) : Neighbour n d up q

theorem roundSig_neighbour (a : Frac) (k : Int) (neg : Bool) (rm : RM) :
    Neighbour (a.numAt k) (a.denAt k) (roundsUp rm neg (a.numAt k) (a.denAt k)) (roundSig a k neg rm).1 := by
  have split := Nat.div_add_mod' (a.numAt k) (a.denAt k)
  by_cases h : a.numAt k % a.denAt k = 0
  · rw [roundSig_of_exact h]
    exact .exact (by simpa [h] using split) h
  · rw [roundSig_of_inexact h]
    cases hup : roundsUp rm neg (a.numAt k) (a.denAt k) with
    | true => exact .above (by rw [if_pos rfl, Nat.succ_mul]; omega) (Nat.pos_of_ne_zero h) rfl rfl
    | false => exact .below split (Nat.pos_of_ne_zero h) rfl Bool.false_ne_true

/-! ### Each mode, with `q` for what RoundSig chooses -/

section
variable {n d q : Nat} {neg : Bool}

theorem Neighbour.within {up : Bool} (h : Neighbour n d up q) (hd : 0 < d) :
    q * d ≤ n + d ∧ n ≤ q * d + d ∧ (n % d = 0 → q * d = n) := by
  have := Nat.mod_lt n hd
  cases h <;> omega

theorem Neighbour.nearest_even (h : Neighbour n d (roundsUp .rne neg n d) q) (hd : 0 < d) :
    2 * (q * d) ≤ 2 * n + d ∧ 2 * n ≤ 2 * (q * d) + d ∧ (2 * (n % d) = d → q % 2 = 0) := by
  have := Nat.mod_lt n hd
  cases h with
  | exact value rest => omega
  | below value rest quot down => rw [roundsUp_rne_iff] at down; omega
  | above value rest quot taken => rw [roundsUp_rne_iff] at taken; omega

theorem Neighbour.nearest_away (h : Neighbour n d (roundsUp .rna neg n d) q) (hd : 0 < d) :
    2 * (q * d) ≤ 2 * n + d ∧ 2 * n ≤ 2 * (q * d) + d ∧ (2 * (n % d) = d → n ≤ q * d) := by
  have := Nat.mod_lt n hd
  cases h with
  | exact value rest => omega
  | below value rest quot down => rw [roundsUp_rna_iff] at down; omega
  | above value rest quot taken => rw [roundsUp_rna_iff] at taken; omega

/-- A mode that does not take the upper neighbour rounds down. -/
theorem Neighbour.le {up : Bool} (h : Neighbour n d up q) (hdown : ¬up = true) : q * d ≤ n := by
  cases h with
  | exact value rest => exact value.le
  | below value rest quot down => omega
  | above value rest quot taken => exact absurd taken hdown

/-- A mode that takes the upper neighbour of every inexact value rounds up. -/
theorem Neighbour.ge {up : Bool} (h : Neighbour n d up q) (hd : 0 < d) (hup : up = true) : n ≤ q * d := by
  have := Nat.mod_lt n hd
  cases h with
  | exact value rest => exact value.ge
  | below value rest quot down => exact absurd hup down
  | above value rest quot taken => omega

end

end Sys2Proof.Machine.Num

namespace Sys2Proof.Claims

open Sys2Proof.Machine Sys2Proof.Machine.Num

/-- Settles O41. RoundSig chooses a neighbour of the quotient (`roundSig_neighbour`), and each mode bounds the one that it chooses. -/
theorem floatRounding : Obligations.FloatRounding := by
  intro n d k neg hd num den q
  have hden : 0 < den := denAt_pos (a := ⟨n, d⟩) hd k
  have chosen : ∀ rm, Neighbour num den (roundsUp rm neg num den) (q rm) := roundSig_neighbour ⟨n, d⟩ k neg
  refine ⟨roundSig_snd ⟨n, d⟩ k neg, fun rm => (chosen rm).within hden, (chosen .rne).nearest_even hden,
    (chosen .rna).nearest_away hden, (chosen .rtz).le Bool.false_ne_true, fun hn => ⟨?_, ?_⟩, fun hn => ⟨?_, ?_⟩⟩
  · exact (chosen .rup).ge hden (by simp [roundsUp, hn])
  · exact (chosen .rdn).le (by simp [roundsUp, hn])
  · exact (chosen .rup).le (by simp [roundsUp, hn])
  · exact (chosen .rdn).ge hden hn

end Sys2Proof.Claims
end

section
/-! PROOFS. The fields of a format's bits, and the value that they name (R45, R46). -/

namespace Sys2Proof.Machine.Num

/-! ### The fields of a bit pattern -/

def Fmt.expOf (f : Fmt) (b : Nat) : Nat := b / 2 ^ f.w % 2 ^ f.ebits
def Fmt.fracOf (f : Fmt) (b : Nat) : Nat := b % 2 ^ f.w
def Fmt.negOf (f : Fmt) (b : Nat) : Bool := b / f.signBit % 2 == 1

theorem expOf_le_eTop (f : Fmt) (b : Nat) : f.expOf b ≤ f.eTop := Nat.le_sub_one_of_lt (Nat.mod_lt _ (Nat.two_pow_pos _))

theorem fracOf_lt (f : Fmt) (b : Nat) : f.fracOf b < 2 ^ f.w := Nat.mod_lt _ (Nat.two_pow_pos _)

/-- The magnitude is the exponent field above the fraction field. -/
theorem mod_signBit_eq (f : Fmt) (b : Nat) : b % f.signBit = f.expOf b * 2 ^ f.w + f.fracOf b := by
  unfold Fmt.signBit Fmt.expOf Fmt.fracOf
  rw [Nat.pow_add, Nat.mod_mul, Nat.mul_comm, Nat.add_comm]

theorem signed_negOf {f : Fmt} {b : Nat} (h : b < 2 * f.signBit) : f.signed (f.negOf b) (b % f.signBit) = b := by
  have split := Nat.div_add_mod' b f.signBit
  have : b / f.signBit < 2 := Nat.div_lt_of_lt_mul (by rwa [Nat.mul_comm])
  unfold Fmt.signed Fmt.negOf
  obtain hs | hs := Nat.le_one_iff_eq_zero_or_eq_one.mp (Nat.le_of_lt_succ this)
  · simpa [hs] using split
  · rw [hs] at split
    simp only [hs, Nat.one_mod, beq_self_eq_true, if_true]
    omega

theorem mod_signBit_lt_inf {f : Fmt} {b : Nat} (h : f.expOf b ≠ f.eTop) : b % f.signBit < f.inf := by
  have : f.expOf b + 1 ≤ f.eTop := lt_of_le_of_ne (expOf_le_eTop f b) h
  calc b % f.signBit = f.expOf b * 2 ^ f.w + f.fracOf b := mod_signBit_eq f b
    _ < (f.expOf b + 1) * 2 ^ f.w := by rw [Nat.succ_mul]; exact Nat.add_lt_add_left (fracOf_lt f b) _
    _ ≤ f.inf := Nat.mul_le_mul_right _ this

theorem mod_signBit_top {f : Fmt} {b : Nat} (h : f.expOf b = f.eTop) : b % f.signBit = f.inf + f.fracOf b := by
  rw [mod_signBit_eq, h]; rfl

theorem mod_signBit_eq_inf_iff (f : Fmt) (b : Nat) : b % f.signBit = f.inf ↔ f.expOf b = f.eTop ∧ f.fracOf b = 0 := by
  by_cases he : f.expOf b = f.eTop
  · rw [mod_signBit_top he]; simp [he]
  · simp [he, (mod_signBit_lt_inf he).ne]

theorem inf_lt_mod_signBit_iff (f : Fmt) (b : Nat) : f.inf < b % f.signBit ↔ f.expOf b = f.eTop ∧ f.fracOf b ≠ 0 := by
  by_cases he : f.expOf b = f.eTop
  · rw [mod_signBit_top he]; simp [he, Nat.pos_iff_ne_zero]
  · simp [he, (mod_signBit_lt_inf he).le]

/-! ### The value of a bit pattern -/

theorem ofBits_nan {f : Fmt} {b : Nat} (iz : Bool) (he : f.expOf b = f.eTop) (hm : f.fracOf b ≠ 0) :
    ofBits f iz b = .nan (f.fracOf b / 2 ^ (f.w - 1) == 0) := (if_pos he).trans (if_neg hm)

theorem ofBits_inf {f : Fmt} {b : Nat} (iz : Bool) (he : f.expOf b = f.eTop) (hm : f.fracOf b = 0) :
    ofBits f iz b = .inf (f.negOf b) := (if_pos he).trans (if_pos hm)

theorem ofBits_subnormal {f : Fmt} {b : Nat} (iz : Bool) (ht : f.expOf b ≠ f.eTop) (he : f.expOf b = 0) :
    ofBits f iz b = .num (f.negOf b) (if iz then 0 else f.fracOf b) (f.emin - f.w) := (if_neg ht).trans (if_pos he)

theorem ofBits_normal {f : Fmt} {b : Nat} (iz : Bool) (ht : f.expOf b ≠ f.eTop) (he : f.expOf b ≠ 0) :
    ofBits f iz b = .num (f.negOf b) (2 ^ f.w + f.fracOf b) ((f.expOf b : Int) - f.bias - f.w) := (if_neg ht).trans (if_neg he)

end Sys2Proof.Machine.Num
end

section
/-! PROOFS. Rounding a value that its format represents (R45, R48). -/

namespace Sys2Proof.Machine.Num

theorem floorLog2_over_two_pow {n : Nat} (hn : n ≠ 0) (k : Nat) : (Frac.mk n (2 ^ k)).floorLog2 = n.log2 - k := by
  have self := Nat.log2_self_le hn
  unfold Frac.floorLog2
  dsimp only
  rw [Nat.log2_two_pow]
  refine if_pos ?_
  split
  · next h =>
    have hle : k ≤ n.log2 := by omega
    rw [decide_eq_true_iff, show ((n.log2 : Int) - k).toNat = n.log2 - k by omega, ← Nat.pow_add, Nat.add_sub_cancel' hle]
    exact self
  · next h =>
    have hle : n.log2 ≤ k := by omega
    rw [decide_eq_true_iff, show (-((n.log2 : Int) - k)).toNat = k - n.log2 by omega]
    calc 2 ^ k = 2 ^ n.log2 * 2 ^ (k - n.log2) := by rw [← Nat.pow_add, Nat.add_sub_cancel' hle]
      _ ≤ n * 2 ^ (k - n.log2) := Nat.mul_le_mul_right _ self

theorem log2_mul_two_pow {n : Nat} (hn : n ≠ 0) (k : Nat) : (n * 2 ^ k).log2 = n.log2 + k := by
  rw [Nat.log2_eq_iff (by positivity), Nat.pow_add, Nat.add_right_comm, Nat.pow_add]
  exact ⟨Nat.mul_le_mul_right _ (Nat.log2_self_le hn), Nat.mul_lt_mul_of_pos_right Nat.lt_log2_self (Nat.two_pow_pos _)⟩

theorem floorLog2_ofDyadic {n : Nat} (hn : n ≠ 0) (e : Int) : (Frac.ofDyadic n e).floorLog2 = n.log2 + e := by
  unfold Frac.ofDyadic
  split
  · have whole := floorLog2_over_two_pow (n := n * 2 ^ e.toNat) (by positivity) 0
    rw [log2_mul_two_pow hn] at whole
    exact whole.trans (by omega)
  · exact (floorLog2_over_two_pow hn _).trans (by omega)

/-- A value that is a multiple of 2^e is that multiple exactly. -/
theorem roundSig_ofDyadic (n : Nat) (e : Int) (neg : Bool) (rm : RM) : roundSig (.ofDyadic n e) e neg rm = (n, true) := by
  have value : (Frac.ofDyadic n e).numAt e = n * (Frac.ofDyadic n e).denAt e := by
    unfold Frac.ofDyadic Frac.numAt Frac.denAt
    split <;> simp
  have pos : 0 < (Frac.ofDyadic n e).denAt e := denAt_pos (by unfold Frac.ofDyadic; split <;> simp) e
  rw [roundSig_of_exact (by rw [value, Nat.mul_mod_left]), value, Nat.mul_div_cancel _ pos]

/-- A value on the grid of its exponent and below infinity rounds to itself. -/
theorem roundFP_of_grid {f : Fmt} {n : Nat} {e : Int} {mag : Nat} (hn : n ≠ 0) (hgrid : max (n.log2 + e) f.emin - f.w = e)
    (hmag : (e + f.w + f.bias).toNat * 2 ^ f.w + n - 2 ^ f.w = mag) (hlt : mag < f.inf) (neg : Bool) (rm : RM) :
    roundFP f rm false neg (.ofDyadic n e) = ⟨f.signed neg mag, 0⟩ := by
  unfold roundFP
  simp only [floorLog2_ofDyadic hn, hgrid, roundSig_ofDyadic, hmag]
  simp [Nat.not_le.mpr hlt]

theorem ofVal_nan (f : Fmt) (v : Env) (s : Bool) : ofVal f v (.nan s) = nanRes f s := rfl

theorem ofVal_inf (f : Fmt) (v : Env) (s : Bool) : ofVal f v (.inf s) = ⟨f.signed s f.inf, 0⟩ := rfl

theorem ofVal_zero (f : Fmt) (v : Env) (s : Bool) (e : Int) : ofVal f v (.num s 0 e) = ⟨f.signed s 0, 0⟩ := rfl

theorem ofVal_nonzero (f : Fmt) (v : Env) (s : Bool) {n : Nat} (hn : n ≠ 0) (e : Int) :
    ofVal f v (.num s n e) = roundFP f v.rm v.fo s (.ofDyadic n e) := if_neg hn

theorem ofVal_ofBits_subnormal {f : Fmt} {b : Nat} (rm : RM) (iz : Bool) (hb : b < 2 * f.signBit) (ht : f.expOf b ≠ f.eTop)
    (he : f.expOf b = 0) : ofVal f ⟨rm, false, iz⟩ (ofBits f false b) = ⟨b, 0⟩ := by
  have mag : f.fracOf b = b % f.signBit := by rw [mod_signBit_eq, he, Nat.zero_mul, Nat.zero_add]
  rw [ofBits_subnormal false ht he, if_neg Bool.false_ne_true]
  by_cases hm : f.fracOf b = 0
  · rw [hm, ofVal_zero, ← hm, mag, signed_negOf hb]
  · have small : (f.fracOf b).log2 < f.w := (Nat.log2_lt hm).mpr (fracOf_lt f b)
    have grid : max ((f.fracOf b).log2 + (f.emin - f.w)) f.emin - f.w = f.emin - f.w := by omega
    have field : (f.emin - f.w + f.w + f.bias).toNat * 2 ^ f.w + f.fracOf b - 2 ^ f.w = b % f.signBit := by
      rw [show (f.emin - f.w + f.w + f.bias).toNat = 1 by unfold Fmt.emin; omega, Nat.one_mul, Nat.add_sub_cancel_left, mag]
    rw [ofVal_nonzero _ _ _ hm, roundFP_of_grid hm grid field (mod_signBit_lt_inf ht), signed_negOf hb]

theorem ofVal_ofBits_normal {f : Fmt} {b : Nat} (rm : RM) (iz : Bool) (hb : b < 2 * f.signBit) (ht : f.expOf b ≠ f.eTop)
    (he : f.expOf b ≠ 0) : ofVal f ⟨rm, false, iz⟩ (ofBits f false b) = ⟨b, 0⟩ := by
  have hm := fracOf_lt f b
  have hn : 2 ^ f.w + f.fracOf b ≠ 0 := by omega
  have log : (2 ^ f.w + f.fracOf b).log2 = f.w := (Nat.log2_eq_iff hn).mpr ⟨by omega, by rw [Nat.pow_succ]; omega⟩
  have grid : max ((2 ^ f.w + f.fracOf b).log2 + ((f.expOf b : Int) - f.bias - f.w)) f.emin - f.w = (f.expOf b : Int) - f.bias - f.w := by
    rw [log]; unfold Fmt.emin; omega
  have field : ((f.expOf b : Int) - f.bias - f.w + f.w + f.bias).toNat = f.expOf b := by omega
  have mag : ((f.expOf b : Int) - f.bias - f.w + f.w + f.bias).toNat * 2 ^ f.w + (2 ^ f.w + f.fracOf b) - 2 ^ f.w = b % f.signBit := by
    rw [field, mod_signBit_eq]; omega
  rw [ofBits_normal false ht he, ofVal_nonzero _ _ _ hn, roundFP_of_grid hn grid mag (mod_signBit_lt_inf ht), signed_negOf hb]

end Sys2Proof.Machine.Num

namespace Sys2Proof.Claims

open Sys2Proof.Machine Sys2Proof.Machine.Num

/-- Settles O42, for every format: a finite value lies on the grid of its exponent (`roundFP_of_grid`), and the magnitude says which bits
are infinities and NaNs (`mod_signBit_eq_inf_iff`, `inf_lt_mod_signBit_iff`). -/
theorem floatExact : Obligations.FloatExact := by
  intro f rm iz b _ hb
  refine ⟨fun ht => ?_, fun hinf => ?_, fun hnan => ?_⟩
  · by_cases he : f.expOf b = 0
    · exact ofVal_ofBits_subnormal rm iz hb ht he
    · exact ofVal_ofBits_normal rm iz hb ht he
  · obtain ⟨he, hm⟩ := (mod_signBit_eq_inf_iff f b).mp hinf
    have bits := signed_negOf hb
    rw [hinf] at bits
    rw [ofBits_inf false he hm, ofVal_inf, bits]
  · obtain ⟨he, hm⟩ := (inf_lt_mod_signBit_iff f b).mp hnan
    rw [ofBits_nan false he hm, ofVal_nan]
    rfl

end Sys2Proof.Claims
end

section
/-! PROOFS. NaN operands (R46, R120-R123): which bits are NaNs, infinities and zeros, and what the operations make of them. -/

namespace Sys2Proof.Machine.Num

/-! ### The kind of a value from its magnitude (R45, R46, R53) -/

theorem ofBits_cases (f : Fmt) (iz : Bool) (b : Nat) :
    (f.expOf b = f.eTop ∧ f.fracOf b ≠ 0 ∧ ofBits f iz b = .nan (f.fracOf b / 2 ^ (f.w - 1) == 0))
    ∨ (f.expOf b = f.eTop ∧ f.fracOf b = 0 ∧ ofBits f iz b = .inf (f.negOf b))
    ∨ (f.expOf b ≠ f.eTop ∧ f.expOf b = 0 ∧ ofBits f iz b = .num (f.negOf b) (if iz then 0 else f.fracOf b) (f.emin - f.w))
    ∨ (f.expOf b ≠ f.eTop ∧ f.expOf b ≠ 0
        ∧ ofBits f iz b = .num (f.negOf b) (2 ^ f.w + f.fracOf b) ((f.expOf b : Int) - f.bias - f.w)) := by
  by_cases ht : f.expOf b = f.eTop
  · by_cases hm : f.fracOf b = 0
    · exact .inr (.inl ⟨ht, hm, ofBits_inf iz ht hm⟩)
    · exact .inl ⟨ht, hm, ofBits_nan iz ht hm⟩
  · by_cases he : f.expOf b = 0
    · exact .inr (.inr (.inl ⟨ht, he, ofBits_subnormal iz ht he⟩))
    · exact .inr (.inr (.inr ⟨ht, he, ofBits_normal iz ht he⟩))

theorem isNan_ofBits (f : Fmt) (iz : Bool) (b : Nat) : (ofBits f iz b).isNan = true ↔ f.inf < b % f.signBit := by
  rw [inf_lt_mod_signBit_iff]
  rcases ofBits_cases f iz b with ⟨ht, hm, hv⟩ | ⟨ht, hm, hv⟩ | ⟨ht, -, hv⟩ | ⟨ht, -, hv⟩ <;> simp [Val.isNan, *]

theorem isInf_ofBits (f : Fmt) (iz : Bool) (b : Nat) : (ofBits f iz b).isInf = true ↔ b % f.signBit = f.inf := by
  rw [mod_signBit_eq_inf_iff]
  rcases ofBits_cases f iz b with ⟨ht, hm, hv⟩ | ⟨ht, hm, hv⟩ | ⟨ht, -, hv⟩ | ⟨ht, -, hv⟩ <;> simp [Val.isInf, *]

/-- A NaN is signalling when its magnitude lies below that of the canonical NaN, whose leading fraction bit is set. -/
theorem isSig_ofBits (f : Fmt) (iz : Bool) (b : Nat) :
    (ofBits f iz b).isSig = true ↔ f.inf < b % f.signBit ∧ b % f.signBit < f.nan := by
  rw [inf_lt_mod_signBit_iff]
  rcases ofBits_cases f iz b with ⟨ht, hm, hv⟩ | ⟨ht, hm, hv⟩ | ⟨ht, -, hv⟩ | ⟨ht, -, hv⟩
  · simp [hv, Val.isSig, ht, hm, mod_signBit_top ht, Fmt.nan, Nat.div_eq_zero_iff]
  all_goals simp [Val.isSig, *]

/-- With IZ the subnormals are zeros too. -/
theorem isZero_ofBits {f : Fmt} (hf : f.eTop ≠ 0) (iz : Bool) (b : Nat) :
    (ofBits f iz b).isZero = true ↔ b % f.signBit < if iz then 2 ^ f.w else 1 := by
  have large (he : f.expOf b ≠ 0) : ¬b % f.signBit < if iz then 2 ^ f.w else 1 := by
    have unit : (if iz then 2 ^ f.w else 1) ≤ 2 ^ f.w := by split <;> simp [Nat.one_le_two_pow]
    have : 2 ^ f.w ≤ f.expOf b * 2 ^ f.w := Nat.le_mul_of_pos_left _ (Nat.pos_of_ne_zero he)
    rw [mod_signBit_eq]
    omega
  rcases ofBits_cases f iz b with ⟨ht, -, hv⟩ | ⟨ht, -, hv⟩ | ⟨ht, he, hv⟩ | ⟨ht, he, hv⟩
  · simp [hv, Val.isZero, large (ht ▸ hf)]
  · simp [hv, Val.isZero, large (ht ▸ hf)]
  · rw [hv, mod_signBit_eq, he]
    cases iz <;> simp [Val.isZero, fracOf_lt]
  · simp [hv, Val.isZero, large he]

/-- Bits with the fields of a zero. -/
theorem ofBits_signed_zero {f : Fmt} (hf : f.eTop ≠ 0) (iz : Bool) (s : Nat) :
    ofBits f iz (s * f.signBit) = .num (s % 2 == 1) 0 (f.emin - f.w) := by
  have fields := mod_signBit_eq f (s * f.signBit)
  rw [Nat.mul_mod_left] at fields
  have hm : f.fracOf (s * f.signBit) = 0 := by omega
  have he : f.expOf (s * f.signBit) = 0 := by
    rw [hm] at fields
    exact (Nat.mul_eq_zero.mp fields.symm).resolve_right (Nat.two_pow_pos _).ne'
  have hs : f.negOf (s * f.signBit) = (s % 2 == 1) := by
    have pos : 0 < f.signBit := Nat.two_pow_pos _
    unfold Fmt.negOf
    rw [Nat.mul_div_cancel _ pos]
  rw [ofBits_subnormal iz (he ▸ hf.symm) he, hm, ite_self, hs]

theorem zeroed_eq (f : Fmt) (iz : Bool) (b : Nat) :
    zeroed f iz b = if iz = true ∧ f.expOf b = 0 then b / f.signBit % 2 * f.signBit else b := by
  unfold zeroed
  refine if_congr ?_ rfl rfl
  simp [Fmt.expOf]

/-- Zeroing an operand's bits is reading them with IZ. -/
theorem ofBits_zeroed {f : Fmt} (hf : f.eTop ≠ 0) (iz : Bool) (b : Nat) : ofBits f false (zeroed f iz b) = ofBits f iz b := by
  rw [zeroed_eq]
  by_cases h : iz = true ∧ f.expOf b = 0
  · obtain ⟨rfl, he⟩ := h
    rw [if_pos ⟨rfl, he⟩, ofBits_signed_zero hf, ofBits_subnormal true (he ▸ hf.symm) he, Nat.mod_mod]
    rfl
  · rw [if_neg h]
    rcases ofBits_cases f iz b with ⟨ht, hm, hv⟩ | ⟨ht, hm, hv⟩ | ⟨ht, he, hv⟩ | ⟨ht, he, hv⟩
    · rw [hv, ofBits_nan false ht hm]
    · rw [hv, ofBits_inf false ht hm]
    · have : iz = false := by simpa [he] using h
      rw [this]
    · rw [hv, ofBits_normal false ht he]

/-! ### Arithmetic of NaNs (R46, R120, R122) -/

@[simp] theorem isNan_nan (s : Bool) : (Val.nan s).isNan = true := rfl
@[simp] theorem isSig_nan (s : Bool) : (Val.nan s).isSig = s := rfl
@[simp] theorem isNan_negate (x : Val) : x.negate.isNan = x.isNan := by cases x <;> rfl
@[simp] theorem isSig_negate (x : Val) : x.negate.isSig = x.isSig := by cases x <;> rfl

@[simp] theorem isNan_negate_if (c : Bool) (x : Val) : (if c then x.negate else x).isNan = x.isNan := by split <;> simp
@[simp] theorem isSig_negate_if (c : Bool) (x : Val) : (if c then x.negate else x).isSig = x.isSig := by split <;> simp

theorem sumRes_nan {f : Fmt} {v : Env} {xs : List Val} (h : xs.any Val.isNan = true) :
    sumRes f v false xs = nanRes f (xs.any Val.isSig) := if_pos h

theorem sumRes_bad (f : Fmt) (v : Env) (xs : List Val) : sumRes f v true xs = nanRes f true := rfl

theorem divRes_nan {f : Fmt} {v : Env} {x y : Val} (h : (x.isNan || y.isNan) = true) :
    divRes f v x y = nanRes f (x.isSig || y.isSig) := if_pos h

theorem mulVal_nan {x y : Val} (h : (x.isNan || y.isNan) = true) : mulVal x y = (.nan (x.isSig || y.isSig), false) := by
  unfold mulVal
  split
  · cases h
  · exact if_pos h

theorem mulVal_inf_num (s t : Bool) (n : Nat) (e : Int) :
    mulVal (.inf s) (.num t n e) = if n = 0 then (.nan false, true) else (.inf (s != t), false) := by
  simp [mulVal, Val.isNan, Val.isZero, Val.neg]

theorem mulVal_num_inf (s t : Bool) (n : Nat) (e : Int) :
    mulVal (.num s n e) (.inf t) = if n = 0 then (.nan false, true) else (.inf (s != t), false) := by
  simp [mulVal, Val.isNan, Val.isZero, Val.neg]

theorem isSig_of_not_nan {x : Val} (h : x.isNan = false) : x.isSig = false := by
  cases x with
  | nan => cases h
  | inf => rfl
  | num => rfl

/-- The product that is invalid though no operand is a NaN (R46). -/
def zeroTimesInf (x y : Val) : Bool := x.isZero && y.isInf || x.isInf && y.isZero

theorem isZero_isInf_of_nan {x : Val} (h : x.isNan = true) : x.isZero = false ∧ x.isInf = false := by
  cases x with
  | nan => exact ⟨rfl, rfl⟩
  | inf => cases h
  | num => cases h

theorem zeroTimesInf_nan {x y : Val} (h : (x.isNan || y.isNan) = true) : zeroTimesInf x y = false := by
  unfold zeroTimesInf
  rcases Bool.or_eq_true_iff.mp h with h | h <;> simp [isZero_isInf_of_nan h]

/-- Of operands that are no NaNs the product is a NaN only where it is invalid. -/
theorem mulVal_numbers {x y : Val} (h : (x.isNan || y.isNan) = false) :
    (mulVal x y).2 = zeroTimesInf x y ∧ (zeroTimesInf x y = false → (mulVal x y).1.isNan = false) := by
  match x, y with
  | .num .., .num .. => simp [mulVal, zeroTimesInf, Val.isInf, Val.isNan]
  | .inf _, .inf _ => simp [mulVal, zeroTimesInf, Val.isZero, Val.isNan]
  | .inf _, .num _ n _ => by_cases hn : n = 0 <;> simp [mulVal_inf_num, hn, zeroTimesInf, Val.isInf, Val.isZero, Val.isNan]
  | .num _ n _, .inf _ => by_cases hn : n = 0 <;> simp [mulVal_num_inf, hn, zeroTimesInf, Val.isInf, Val.isZero, Val.isNan]

theorem compare_nan {x y : Val} (h : (x.isNan || y.isNan) = true) (form : CmpForm) (sig : Bool) :
    compare form sig x y = (form == .un || form == .ne, if x.isSig || y.isSig || sig then fIV else 0) := if_pos h

/-! ### Minimum and maximum (R121) -/

theorem zeroed_false (f : Fmt) (b : Nat) : zeroed f false b = b := rfl

section
variable {f : Fmt} (hf : f.eTop ≠ 0) (form : MinMaxForm) (iz : Bool) (a b : Nat)
include hf

theorem minMax_fl : (minMax f form iz a b).fl = if (ofBits f iz a).isSig || (ofBits f iz b).isSig then fIV else 0 := by
  unfold minMax
  simp only [ofBits_zeroed hf]
  split_ifs <;> rfl

theorem minMax_both_nan (ha : (ofBits f iz a).isNan = true) (hb : (ofBits f iz b).isNan = true) :
    (minMax f form iz a b).bits = f.nan := by
  unfold minMax
  simp [ofBits_zeroed hf, ha, hb]

theorem minMax_left_nan (ha : (ofBits f iz a).isNan = true) (hb : (ofBits f iz b).isNan = false) :
    (minMax f form iz a b).bits = if form = .minn ∨ form = .maxn then zeroed f iz b else f.nan := by
  unfold minMax
  simp [ofBits_zeroed hf, ha, hb]

theorem minMax_right_nan (ha : (ofBits f iz a).isNan = false) (hb : (ofBits f iz b).isNan = true) :
    (minMax f form iz a b).bits = if form = .minn ∨ form = .maxn then zeroed f iz a else f.nan := by
  unfold minMax
  simp [ofBits_zeroed hf, ha, hb]

/-- Minimum and maximum give a NaN for a NaN. -/
theorem minMax_nan (hform : ¬(form = .minn ∨ form = .maxn)) (h : (ofBits f iz a).isNan = true ∨ (ofBits f iz b).isNan = true) :
    (minMax f form iz a b).bits = f.nan := by
  cases ha : (ofBits f iz a).isNan with
  | true =>
    cases hb : (ofBits f iz b).isNan with
    | true => exact minMax_both_nan hf form iz a b ha hb
    | false => rw [minMax_left_nan hf form iz a b ha hb, if_neg hform]
  | false =>
    have hb := h.resolve_left (by simp [ha])
    rw [minMax_right_nan hf form iz a b ha hb, if_neg hform]

end

end Sys2Proof.Machine.Num

namespace Sys2Proof.Machine.FpAlu

open Sys2Proof.Machine.Num

/-! ### The FP32 operations -/

section
variable {v : Env} {a b d : Word}

theorem isNan_x32 : (x32 v a).isNan = true ↔ 0x7F800000 < a.toNat % 2 ^ 31 := isNan_ofBits fp32 v.iz a.toNat

theorem isSig_x32 : (x32 v a).isSig = true ↔ 0x7F800000 < a.toNat % 2 ^ 31 ∧ a.toNat % 2 ^ 31 < 0x7FC00000 :=
  isSig_ofBits fp32 v.iz a.toNat

theorem isInf_x32 : (x32 v a).isInf = true ↔ a.toNat % 2 ^ 31 = 0x7F800000 := isInf_ofBits fp32 v.iz a.toNat

theorem isZero_x32 : (x32 v a).isZero = true ↔ a.toNat % 2 ^ 31 < if v.iz then 0x800000 else 1 :=
  isZero_ofBits (f := fp32) (by decide) v.iz a.toNat

theorem mulRes_nan {f : Fmt} {x y : Val} (h : (x.isNan || y.isNan) = true) : mulRes f v x y = nanRes f (x.isSig || y.isSig) := by
  unfold mulRes
  rw [mulVal_nan h]
  rfl

theorem arithmetic_nan {g : Env → Word → Word → FRes} (hg : g ∈ [fadd, fsub, fmul, fdiv])
    (h : ((x32 v a).isNan || (x32 v b).isNan) = true) :
    g v a b = .ofRes (nanRes fp32 ((x32 v a).isSig || (x32 v b).isSig)) := by
  simp only [List.mem_cons, List.not_mem_nil, or_false] at hg
  rcases hg with rfl | rfl | rfl | rfl
  · rw [fadd, sumRes_nan (by simpa using h)]; simp
  · rw [fsub, sumRes_nan (by simpa using h)]; simp
  · rw [fmul, mulRes_nan h]
  · rw [fdiv, divRes_nan h]

theorem ffma_eq (p q : Bool) (f : Fmt) (x y z : Val) : ffma p q f v x y z
    = sumRes f v (mulVal x y).2 [if p then (mulVal x y).1.negate else (mulVal x y).1, if q then z.negate else z] := rfl

theorem ffma_nan {f : Fmt} {x y z : Val} (h : (x.isNan || y.isNan || z.isNan) = true) (p q : Bool) :
    ffma p q f v x y z = nanRes f (x.isSig || y.isSig || z.isSig || zeroTimesInf x y) := by
  rw [ffma_eq]
  cases hxy : x.isNan || y.isNan with
  | true =>
    rw [mulVal_nan hxy, zeroTimesInf_nan hxy, sumRes_nan (by simp)]
    simp
  | false =>
    obtain ⟨bad, number⟩ := mulVal_numbers hxy
    rw [bad]
    cases invalid : zeroTimesInf x y with
    | true => rw [sumRes_bad, Bool.or_true]
    | false =>
      rw [hxy, Bool.false_or] at h
      obtain ⟨hx, hy⟩ := Bool.or_eq_false_iff.mp hxy
      rw [sumRes_nan (by simp [h])]
      simp [isSig_of_not_nan (number invalid), isSig_of_not_nan hx, isSig_of_not_nan hy]

theorem fminmax_val (form : MinMaxForm) : (fminmax form v a b).val = BitVec.ofNat 32 (minMax fp32 form v.iz a.toNat b.toNat).bits := rfl

theorem fminmax_fl (form : MinMaxForm) :
    (fminmax form v a b).fl = if (x32 v a).isSig || (x32 v b).isSig then 1 else 0 :=
  minMax_fl (f := fp32) (by decide) form v.iz a.toNat b.toNat

theorem fminmax_nan {form : MinMaxForm} (hform : ¬(form = .minn ∨ form = .maxn))
    (h : (x32 v a).isNan = true ∨ (x32 v b).isNan = true) : (fminmax form v a b).val = 0x7FC00000 := by
  rw [fminmax_val, minMax_nan (by decide) form v.iz _ _ hform h]
  rfl

theorem fminmax_both_nan (form : MinMaxForm) (ha : (x32 v a).isNan = true) (hb : (x32 v b).isNan = true) :
    (fminmax form v a b).val = 0x7FC00000 := by
  rw [fminmax_val, minMax_both_nan (by decide) form v.iz _ _ ha hb]
  rfl

theorem fminmax_left_nan {form : MinMaxForm} (hform : form = .minn ∨ form = .maxn) (hiz : v.iz = false)
    (ha : (x32 v a).isNan = true) (hb : (x32 v b).isNan = false) : (fminmax form v a b).val = b := by
  rw [fminmax_val, minMax_left_nan (by decide) form v.iz _ _ ha hb, if_pos hform, hiz, zeroed_false]
  exact BitVec.ofNat_toNat 32 b |>.trans (BitVec.setWidth_eq b)

theorem fminmax_right_nan {form : MinMaxForm} (hform : form = .minn ∨ form = .maxn) (hiz : v.iz = false)
    (ha : (x32 v a).isNan = false) (hb : (x32 v b).isNan = true) : (fminmax form v a b).val = a := by
  rw [fminmax_val, minMax_right_nan (by decide) form v.iz _ _ ha hb, if_pos hform, hiz, zeroed_false]
  exact BitVec.ofNat_toNat 32 a |>.trans (BitVec.setWidth_eq a)

theorem fcmp_nan (h : ((x32 v a).isNan || (x32 v b).isNan) = true) (form : CmpForm) (sig : Bool) :
    fcmp form sig v a b = ⟨IntAlu.ofCond 32 (form == .un || form == .ne), form == .un || form == .ne,
      if (x32 v a).isSig || (x32 v b).isSig || sig then fIV else 0⟩ := by
  unfold fcmp
  rw [compare_nan h]

end

/-- The canonical NaN, with IV as given. -/
theorem ofRes_nanRes (iv : Bool) : FRes.ofRes (nanRes fp32 iv) = ⟨0x7FC00000, true, if iv then 1 else 0⟩ := rfl

end Sys2Proof.Machine.FpAlu

namespace Sys2Proof.Claims

open Sys2Proof.Machine Sys2Proof.Machine.Num Sys2Proof.Machine.FpAlu

/-- Settles O43. The magnitude of an operand says what kind of value it is (`isNan_x32` and its like), and for a NaN each operation takes
its first branch (`arithmetic_nan`, `fcmp_nan`, `fminmax_nan`, `ffma_nan`). -/
theorem floatNan : Obligations.FloatNan := by
  intro v a b d nan sig inf zero
  have hnan : ∀ x, nan x ↔ (x32 v x).isNan = true := fun x => isNan_x32.symm
  have hsig : ∀ x, sig x ↔ (x32 v x).isSig = true := fun x => isSig_x32.symm
  have hinf : ∀ x, inf x ↔ (x32 v x).isInf = true := fun x => isInf_x32.symm
  have hzero : ∀ x, zero x ↔ (x32 v x).isZero = true := fun x => isZero_x32.symm
  simp only [hnan, hsig, hinf, hzero]
  refine ⟨fun g hg h => ?arithmetic, fun h => ?compare, fun g hg h => ?minMax, fun g hg => ?number, fun g _ => ?minMaxFlags,
    fun h p q => ?fused⟩
  case arithmetic =>
    rw [arithmetic_nan hg (by simpa using h), ofRes_nanRes, ← Bool.or_eq_true]
    cases (x32 v a).isSig || (x32 v b).isSig <;> decide
  case compare =>
    simp only [fcmp_nan (by simpa using h), ← Bool.or_eq_true]
    cases (x32 v a).isSig || (x32 v b).isSig <;> decide
  case minMax =>
    have hform : ¬(g = .minn ∨ g = .maxn) := by revert g; decide
    exact fminmax_nan hform h
  case number =>
    have hform : g = .minn ∨ g = .maxn := by simpa using hg
    refine ⟨fminmax_both_nan g, fun ha hb hiz => ?_, fun hb ha hiz => ?_⟩
    · exact fminmax_left_nan hform hiz ha (Bool.eq_false_of_not_eq_true hb)
    · exact fminmax_right_nan hform hiz (Bool.eq_false_of_not_eq_true ha) hb
  case minMaxFlags =>
    rw [fminmax_fl]
    simp only [Bool.or_eq_true]
  case fused =>
    unfold fma
    rw [ffma_nan (by simpa [or_assoc] using h), ofRes_nanRes]
    simp only [zeroTimesInf, Bool.or_eq_true, Bool.and_eq_true, or_assoc, true_and]

end Sys2Proof.Claims
end

section
/-! PROOFS. The aborts of a rule (R88-R90): what an abort changes, its event, and which rules abort with FP-TRAP or OUT-FULL. -/

namespace Sys2Proof.Machine

open Sys2Proof.Claims

/-! ### A record that enters a queue (R355) -/

theorem enter_of_space {q : EvQueue} (r : EvRec) (lost : Nat → EvRec) (hlen : q.recs.length < 256) (hlost : q.lost = 0) :
    q.enter r lost = ({ q with recs := q.recs ++ [r], entered := q.entered + 1 }, true) := by
  simp [EvQueue.enter, evqCap, hlen, hlost]

theorem recs_event {s : State} {die : Nat} (type code : Nat) (place : Word) (d2 d3 : Dword) (hlen : (s.evq die).recs.length < 256)
    (hlost : (s.evq die).lost = 0) :
    ((s.event die type code place d2 d3).evq die).recs = (s.evq die).recs ++ [s.mkEv type code place d2 d3] := by
  have hq : (s.event die type code place d2 d3).evq die
      = { s.evq die with recs := (s.evq die).recs ++ [s.mkEv type code place d2 d3], entered := (s.evq die).entered + 1 } := by
    unfold State.event State.post
    rw [enter_of_space _ _ hlen hlost]
    exact Sparse.get_put_self _ _ _ _
  rw [hq]

/-! ### An abort -/

/-- What changes beside the element of an abort: regions, and the queues and the identifiers of events. -/
def OnlyPosts (s t : State) : Prop := ∃ regions evqs nextId, t = { s with regions := regions, evqs := evqs, nextId := nextId }

theorem OnlyPosts.event {s t : State} (h : OnlyPosts s t) (die type code : Nat) (place : Word) (d2 d3 : Dword) :
    OnlyPosts s (t.event die type code place d2 d3) := by
  obtain ⟨_, _, _, rfl⟩ := h
  exact ⟨_, _, _, rfl⟩

/-- The event of ABORTS at its limit changes no more. -/
theorem OnlyPosts.counted {s t : State} (h : OnlyPosts s t) (n die type code : Nat) (place : Word) (d2 d3 : Dword) :
    OnlyPosts s (if n = 0 then t.event die type code place d2 d3 else t) := by
  split
  · exact h.event ..
  · exact h

theorem onlyPosts_askCut (s : State) (pk : Nat) : OnlyPosts s (s.askCut pk) := ⟨_, _, _, modRegionOf_only s pk _⟩

/-- The element of an abort: LASTC takes the cause, and ABORTS counts modulo 2^16 (R89). -/
def abortedElem (el : Elem) (slot : Nat) (a : Abort) : Elem :=
  el.setSlotSt slot { el.slotSt slot with lastc := a.code, aborts := ((el.slotSt slot).aborts + 1) % 65536 }

/-- The cause of an abort may post an event or ask for a cut, and ABORTS that wraps posts one event more. -/
theorem onlyPosts_abort (s : State) (e slot : Nat) (a : Abort) :
    OnlyPosts (s.setElem e (abortedElem (s.elem e) slot a)) (s.abort e slot a) := by
  have same : OnlyPosts (s.setElem e (abortedElem (s.elem e) slot a)) (s.setElem e (abortedElem (s.elem e) slot a)) := ⟨_, _, _, rfl⟩
  unfold State.abort
  cases a with
  | fpTrap fl => exact (same.event ..).counted ..
  | notClean => exact (onlyPosts_askCut _ _).counted ..
  | outFull => exact same.counted ..
  | engineRefused => exact same.counted ..

/-- While ABORTS has not come to its limit, an FP-TRAP abort posts one event (R90). -/
theorem abort_fpTrap {s : State} {e slot : Nat} (fl : BitVec 5) (h : ((s.elem e).slotSt slot).aborts < 65535) :
    s.abort e slot (.fpTrap fl) = (s.setElem e (abortedElem (s.elem e) slot (.fpTrap fl))).event (Key.dieOfElem e) 1 fl.toNat
      (elemPlace e) (BitVec.ofNat 64 slot) 0 := by
  unfold State.abort
  exact if_neg (by omega)

theorem dieOfElem_eq (e : Nat) : Key.dieOfElem e = e / 65536 := by
  simp only [Key.dieOfElem, Key.dieOfTile, Key.tileOf, Key.pkOfElem, Nat.div_div_eq_div_mul]

/-! ### Which rules abort -/

theorem fireValue_trap {s : State} {e slot : Nat} {o : OpInfo} {x : Body} {res : Word} {cond : Bool} {fl : BitVec 5} {tag : BitVec 3}
    {post : Elem → Elem} {passed : Option Nat} (ht : ¬NoTrap s e fl) :
    fireValue s e slot o x res cond fl tag post passed = s.abort e slot (.fpTrap fl) :=
  if_pos (bne_iff_ne.mpr ht)

theorem fireValue_outFull {s : State} {e slot : Nat} {o : OpInfo} {x : Body} {res : Word} {cond : Bool} {fl : BitVec 5} {tag : BitVec 3}
    {post : Elem → Elem} {passed : Option Nat} (ht : NoTrap s e fl) (hfull : outFull (s.elem e) x o = true) :
    fireValue s e slot o x res cond fl tag post passed = s.abort e slot .outFull :=
  (if_neg (fun h => bne_iff_ne.mp h ht)).trans (if_pos hfull)

/-- The loader accepts no word whose D is outside its direction column (R30, R38). -/
theorem dirOk_of_elemFault {x : Body} {o : OpInfo} {peni peno : BitVec 4} (h : x.elemFault o peni peno = none) :
    o.d.dirOk x.d.toNat = true := by
  have hall : (x.specs o).all (fun p => p.1.dirOk p.2.toNat) = true := by
    unfold Body.elemFault at h
    split_ifs at h with _ _ _ _ hdir
    all_goals simpa using hdir
  exact List.all_eq_true.mp hall (o.d, x.d) List.mem_cons_self

/-- A use of D that allows an output, by an opcode that writes D, is a destination or an output (R30). -/
theorem dst_or_out_of_output {o : OpInfo} {x : Body} (hdir : o.d.dirOk x.d.toNat = true) (hdest : destCode o x = x.d)
    (hlo : 20 ≤ x.d.toNat) (hhi : x.d.toNat ≤ 23) : o.d = .dst ∨ o.d = .out := by
  have hne : x.d ≠ 24 := by rintro h; rw [h] at hhi; exact absurd hhi (by decide)
  unfold destCode at hdest
  cases hd : o.d <;> rw [hd] at hdir hdest
  case dst => exact Or.inl rfl
  case out => exact Or.inr rfl
  case acc | pair => simp [Use.dirOk] at hdir; omega
  all_goals exact absurd hdest.symm hne

/-! ### The forms of the tables in an element -/

/-- A constructor of format EA makes the instructions of one row of the opcode map, and they write D. -/
structure WritesD (mk : EA → Instr) (f : BitVec 3) (op : Nat) (o : OpInfo) : Prop where
  body : ∀ x, (mk x).body? = some (.ea x f)
  opcode : ∀ x, (mk x).op = op
  info : ∀ x, opInfo op (.ea x f) = some o
  dest : ∀ x, destCode o x = x.d

theorem WritesD.elemFault_eq {mk : EA → Instr} {f : BitVec 3} {op : Nat} {o : OpInfo} (h : WritesD mk f op o) (x : EA)
    (peni peno : BitVec 4) : (mk x).elemFault peni peno = (Body.ea x f).elemFault o peni peno := by
  have info : (mk x).info? = some o := by rw [Instr.info?, h.body, h.opcode]; exact h.info x
  rw [Instr.elemFault, h.body, info]

/-- OUT-FULL holds for a rule that writes D where D names an output without room: the loader accepts an output as D only in a form that
sends to it (R38, R88). -/
theorem WritesD.outFull_of_not_room {mk : EA → Instr} {f : BitVec 3} {op : Nat} {o : OpInfo} (h : WritesD mk f op o) {s : State}
    {e slot : Nat} {x : EA} (fires : ElemFires s e slot (mk x)) (hroom : ¬Room s e (.ea x f)) :
    outFull (s.elem e) (.ea x f) o = true := by
  have fits : (Body.ea x f).elemFault o 0xF 0xF = none := (h.elemFault_eq x 0xF 0xF).symm.trans fires.fits
  unfold Room at hroom
  push Not at hroom
  obtain ⟨k, hk, hd, horr, hfull⟩ := hroom
  have use := dst_or_out_of_output (dirOk_of_elemFault fits) (h.dest _) (by omega) (by omega)
  have noRoom : (s.elem e).room k = false := Bool.eq_false_of_not_eq_true hfull
  unfold outFull
  rw [outOf_output hk hd]
  rcases use with use | use <;> simp [use, horr, noRoom]

/-- The opcode that a floating form runs as is its own. -/
theorem runsAsFp_opcode_of_mem : ∀ row ∈ fpRows, ∃ op f o, RunsAsFp row op f o ∧ ∀ x, (row.op x).op = op := by
  simp only [fpRows, fpArith, fpUnary, fpLanes, fpMk8, List.forall_mem_append, List.forall_mem_cons, List.not_mem_nil, false_implies,
    implies_true, and_true]
  and_intros
  all_goals exact ⟨_, _, _, ⟨fun _ => rfl, fun _ _ => rfl, fun _ => rfl, rfl, fun _ => rfl, fun _ _ _ _ => rfl⟩, fun _ => rfl⟩

/-- What an element makes of an integer form of the table: an integer instruction that computes `g`. -/
structure RunsAsAlu (row : AluRow) (op : Nat) (o : OpInfo) (g : (w : Nat) → BitVec w → BitVec w → BitVec w) : Prop where
  writes : WritesD row.op row.f op o
  means : ∀ x s, exec (row.op x) s = runAlu op x row.f g s

/-- Every form of the table is so: each field is read off the form's meaning and its row of the opcode map. -/
theorem runsAsAlu_of_mem : ∀ row ∈ aluRows, ∃ op o g, RunsAsAlu row op o g := by
  simp only [aluRows, aluArith, aluShiftMulDiv, aluCompare, aluBits, List.forall_mem_append, List.forall_mem_cons, List.not_mem_nil,
    false_implies, implies_true, and_true]
  and_intros
  all_goals exact ⟨_, _, _, ⟨fun _ => rfl, fun _ => rfl, fun _ => rfl, fun _ => rfl⟩, fun _ _ => rfl⟩

/-- An integer form that fires on an element is one firing that raises no flag. -/
theorem RunsAsAlu.exec_eq {row : AluRow} {op : Nat} {o : OpInfo} {g : (w : Nat) → BitVec w → BitVec w → BitVec w}
    (h : RunsAsAlu row op o g) {s : State} {e slot : Nat} (hcur : s.cur = .element e slot) (x : EA) :
    let y := Body.ea x row.f
    let res := g 32 (readSpec s e y x.a) (readSpec s e y x.b)
    exec (row.op x) s = .next (fireValue s e slot o y res (res != 0) 0 0 id none) := by
  rw [h.means]
  exact runShared_elem hcur (h.writes.info x) _ _

end Sys2Proof.Machine

namespace Sys2Proof.Claims

open Sys2Proof.Machine

/-- Settles O44. An abort changes its element as `abortedElem` says and else only posts (`onlyPosts_abort`); a firing takes the first
cause that holds (`fireValue_trap`, `fireValue_outFull`), and OUT-FULL holds where D names an output without room
(`WritesD.outFull_of_not_room`). -/
theorem elemAborts : Obligations.ElemAborts := by
  intro s e slot
  refine ⟨fun a => ?frame, fun fl haborts hlen hlost => ?event, fun row x f hrow hbody fires => ?floating,
    fun row x hrow fires hroom => ?integer⟩
  case frame =>
    obtain ⟨regions, evqs, nextId, h⟩ := onlyPosts_abort s e slot a
    dsimp only
    rw [h]
    exact ⟨elem_setElem s e _, fun e' he => elem_setElem_ne s _ he, rfl, rfl, rfl⟩
  case event =>
    rw [abort_fpTrap fl haborts, dieOfElem_eq]
    exact recs_event 1 fl.toNat (elemPlace e) _ 0 hlen hlost
  case floating =>
    obtain ⟨op, f', o, runs, hop⟩ := runsAsFp_opcode_of_mem row hrow
    obtain rfl : f' = f := by simpa [runs.body x] using hbody
    have writes : WritesD row.op f' op o := ⟨runs.body, hop, runs.info, runs.dest⟩
    dsimp only
    rw [runs.exec_eq fires.here x]
    refine ⟨fun htrap => ?_, fun noTrap hroom => ?_⟩
    · rw [fireValue_trap htrap]
    · rw [fireValue_outFull noTrap (writes.outFull_of_not_room fires hroom)]
  case integer =>
    obtain ⟨op, o, g, runs⟩ := runsAsAlu_of_mem row hrow
    rw [runs.exec_eq fires.here x, fireValue_outFull (noTrap_zero s e) (runs.writes.outFull_of_not_room fires hroom)]

end Sys2Proof.Claims
end

section
/-! PROOFS. The integer and packed forms of the tables (R86, R93-R104, R115, R116): what each computes in either unit. -/

namespace Sys2Proof.Machine.IntAlu

open Sys2Proof.Claims

/-! ### Results of the tables (R102, R105, R115, R116) -/

theorem bfi_table (w : Nat) (a b d : BitVec w) :
    let m := BitVec.ofNat w ((2 ^ (fieldAt w b).2 - 1) * 2 ^ (fieldAt w b).1)
    bfi w a b d = (d &&& ~~~m) ||| ((a <<< (fieldAt w b).1) &&& m) := by
  unfold bfi
  rw [fieldPos_table, fieldLen_table]

theorem movks_table (w : Nat) (d : BitVec w) (imm : BitVec 22) :
    movks w d imm = BitVec.ofNat w (d.toNat * 2 ^ 22 + imm.toNat) := by
  apply BitVec.eq_of_toNat_eq
  rw [movks, BitVec.toNat_or, BitVec.toNat_shiftLeft, BitVec.toNat_setWidth, BitVec.toNat_ofNat, ← Nat.or_mod_two_pow,
    ← Nat.shiftLeft_add_eq_or_of_lt imm.isLt, Nat.shiftLeft_eq]

theorem max_lane {n : Nat} : max n = fun x y => if x.toInt < y.toInt then y else x := by
  funext x y
  simp only [max, BitVec.slt_eq_decide, decide_eq_true_eq]

theorem maxu_lane {n : Nat} : maxu n = fun x y => if x.toNat < y.toNat then y else x := by
  funext x y
  simp only [maxu, BitVec.ult_eq_decide, decide_eq_true_eq]

/-- A minimum of two that are equal may be either: the machine takes B there, and the table A. -/
theorem ite_lt_comm {α β : Type} [LinearOrder β] {f : α → β} (hf : Function.Injective f) (x y : α) :
    (if f x < f y then x else y) = if f y < f x then y else x := by
  rcases lt_trichotomy (f x) (f y) with h | h | h
  · rw [if_pos h, if_neg h.le.not_gt]
  · rw [hf h, if_neg (lt_irrefl _)]
  · rw [if_neg h.le.not_gt, if_pos h]

theorem min_lane {n : Nat} : min n = fun x y => if y.toInt < x.toInt then y else x := by
  funext x y
  simp only [min, BitVec.slt_eq_decide, decide_eq_true_eq]
  exact ite_lt_comm (fun _ _ => BitVec.eq_of_toInt_eq) x y

theorem minu_lane {n : Nat} : minu n = fun x y => if y.toNat < x.toNat then y else x := by
  funext x y
  simp only [minu, BitVec.ult_eq_decide, decide_eq_true_eq]
  exact ite_lt_comm (fun _ _ => BitVec.eq_of_toNat_eq) x y

theorem map2h_lanes {g h : BitVec 16 → BitVec 16 → BitVec 16} (lane : g = h) : map2h g = lanes2h h := congrArg lanes2h lane

theorem map4b_lanes {g h : Byte → Byte → Byte} (lane : g = h) : map4b g = lanes4b h := congrArg lanes4b lane

theorem sum4b_lanes (g : Byte → Byte → Int) : sum4b g = bytes4Sum g := by
  funext a b
  simp [sum4b, bytes4Sum, lane, List.range_succ, add_assoc]

end Sys2Proof.Machine.IntAlu

namespace Sys2Proof.Machine

open Sys2Proof.Claims

/-! ### The forms of the tables -/

/-- What a machine makes of an integer form of the table: an integer instruction with the form's results, in a row of the opcode map that
has the form's latency and writes D. -/
structure ComputesAlu (row : AluRow) (op : Nat) (o : OpInfo) : Prop where
  writes : WritesD row.op row.f op o
  means : ∀ x s, exec (row.op x) s = runAlu op x row.f row.res s
  lat : o.lat = row.lat

theorem RunsAsAlu.computes {row : AluRow} {op : Nat} {o : OpInfo} {g : (w : Nat) → BitVec w → BitVec w → BitVec w}
    (h : RunsAsAlu row op o g) (hlat : o.lat = row.lat) (hres : ∀ w a b, g w a b = row.res w a b) : ∃ op o, ComputesAlu row op o := by
  obtain rfl : g = row.res := funext fun w => funext fun a => funext fun b => hres w a b
  exact ⟨op, o, h.writes, h.means, hlat⟩

/-- Every form of the table is so: its row of the opcode map and its meaning are read off, and the results agree by the laws of IntAlu. -/
theorem computesAlu_of_mem : ∀ row ∈ aluRows, ∃ op o, ComputesAlu row op o := by
  simp only [aluRows, aluArith, aluShiftMulDiv, aluCompare, aluBits, List.forall_mem_append, List.forall_mem_cons, List.not_mem_nil,
    false_implies, implies_true, and_true]
  and_intros
  all_goals refine RunsAsAlu.computes ⟨⟨fun _ => rfl, fun _ => rfl, fun _ => rfl, fun _ => rfl⟩, fun _ _ => rfl⟩ rfl ?_
  exacts [
    -- R96
    IntAlu.add_table, IntAlu.sub_table, fun _ _ _ => rfl, fun _ _ _ => rfl, fun _ _ _ => rfl, fun _ _ _ => rfl, IntAlu.min_table,
    IntAlu.max_table, IntAlu.minu_table, IntAlu.maxu_table, fun _ _ _ => IntAlu.satS_table _ _, fun _ _ _ => IntAlu.satS_table _ _,
    fun _ _ _ => IntAlu.satU_table _ _, fun _ _ _ => IntAlu.satU_table _ _, fun _ _ _ => rfl, fun _ _ _ => rfl,
    -- R97-R99
    IntAlu.shl_table, IntAlu.shr_table, IntAlu.sar_table, IntAlu.rol_table, IntAlu.ror_table, IntAlu.mul_table, fun _ _ _ => rfl,
    fun _ _ _ => rfl, fun _ _ _ => rfl, fun _ _ _ => rfl, IntAlu.divu_table, fun _ _ _ => rfl, IntAlu.remu_table,
    -- R100
    IntAlu.cmpeq_table, IntAlu.cmpne_table, IntAlu.cmplt_table, IntAlu.cmple_table, IntAlu.cmpltu_table, IntAlu.cmpleu_table,
    IntAlu.tst_table, IntAlu.tstn_table,
    -- R101, R102
    IntAlu.clz_table, IntAlu.ctz_table, IntAlu.popc_table, fun _ _ _ => rfl, fun _ _ _ => rfl, fun _ _ _ => rfl, fun _ _ _ => rfl,
    fun _ _ _ => rfl, IntAlu.bfxu_table, IntAlu.bfxs_table]

/-- What a machine makes of a form with an immediate (R104). -/
structure ComputesImm (row : ImmRow) (op : Nat) (o : OpInfo) : Prop where
  body : ∀ x, (row.op x).body? = some (.ei x)
  opcode : ∀ x, (row.op x).op = op
  info : ∀ x, opInfo op (.ei x) = some o
  dest : ∀ x, destCode o x = x.d
  means : ∀ x s, exec (row.op x) s = runAluImm op x row.res s
  lat : o.lat = row.lat

theorem runAluImm_congr {g h : (w : Nat) → BitVec w → BitVec w → BitVec w} (op : Nat) (x : EI) (s : State)
    (hres : ∀ w a b, g w a b = h w a b) : runAluImm op x g s = runAluImm op x h s :=
  congrArg (fun g => runAluImm op x g s) (funext fun w => funext fun a => funext fun b => hres w a b)

theorem computesImm_of_mem : ∀ row ∈ immRows, ∃ op o, ComputesImm row op o := by
  simp only [immRows, List.forall_mem_cons, List.not_mem_nil, false_implies, implies_true, and_true]
  and_intros
  all_goals refine ⟨_, _, fun _ => rfl, fun _ => rfl, fun _ => rfl, fun _ => rfl, fun x s => runAluImm_congr _ x s ?_, rfl⟩
  exacts [IntAlu.add_table, fun _ _ _ => rfl, fun _ _ _ => rfl, fun _ _ _ => rfl, IntAlu.shl_table, IntAlu.shr_table, IntAlu.sar_table,
    IntAlu.cmpeq_table, IntAlu.cmplt_table, IntAlu.cmpltu_table, IntAlu.mul_table]

/-- What an element makes of a packed form: the results lane by lane, at latency 1. -/
structure ComputesPacked (row : (EA → Instr) × (Word → Word → Word)) (op : Nat) (f : BitVec 3) (o : OpInfo) : Prop where
  writes : WritesD row.1 f op o
  means : ∀ x s, exec (row.1 x) s = runPacked op x f row.2 s
  lat : o.lat = 1

theorem runPacked_congr {g h : Word → Word → Word} (op : Nat) (x : EA) (f : BitVec 3) (s : State) (hres : g = h) :
    runPacked op x f g s = runPacked op x f h s := by rw [hres]

theorem computesPacked_of_mem : ∀ row ∈ packRows, ∃ op f o, ComputesPacked row op f o := by
  simp only [packRows, List.forall_mem_cons, List.not_mem_nil, false_implies, implies_true, and_true]
  and_intros
  all_goals
    refine ⟨_, _, _, ⟨fun _ => rfl, fun _ => rfl, fun _ => rfl, fun _ => rfl⟩, fun x s => runPacked_congr _ x _ s ?_, rfl⟩
    dsimp only
  exacts [IntAlu.map2h_lanes rfl, IntAlu.map2h_lanes rfl, IntAlu.map2h_lanes IntAlu.max_lane, IntAlu.map2h_lanes IntAlu.min_lane,
    IntAlu.map2h_lanes IntAlu.maxu_lane, IntAlu.map2h_lanes IntAlu.minu_lane, IntAlu.map4b_lanes rfl, IntAlu.map4b_lanes rfl,
    IntAlu.map4b_lanes IntAlu.max_lane, IntAlu.map4b_lanes IntAlu.min_lane, IntAlu.sum4b_lanes _, IntAlu.sum4b_lanes _,
    IntAlu.sum4b_lanes _]

end Sys2Proof.Machine
end

section
/-! PROOFS. Integer, move, predicate, local store and event instructions in a mason core and in an element (R93-R116, R134, R301). -/

namespace Sys2Proof.Machine

open Sys2Proof.Claims

/-! ### A word that writes a value (R35, R36) -/

/-- On a mason core: D, PU with the word's condition, and the next word. -/
theorem exec_coreWrite {s : State} {c : Nat} {i : Instr} {y : Body} {el : Nat → Nat → OpInfo → State} {co : Nat → Core → CoreRes}
    {k : Core} {v : Dword} {cond : Bool} (runs : CoreRuns s c i) (body : i.body? = some y) (means : exec i s = runShared i.op y s el co)
    (writes : co c (s.core c) = coreWrite s c k y v cond) : exec i s = .next (s.setCore c (coreAfter k y.d v y.pu cond)) := by
  rw [means, runShared_core runs body, writes, coreWrite_eq]

/-- The condition of most words that write a value is "result nonzero" (R93). -/
theorem exec_coreWrote {s : State} {c : Nat} {i : Instr} {y : Body} {el : Nat → Nat → OpInfo → State} {co : Nat → Core → CoreRes}
    {v : Dword} {d pu : BitVec 5} (runs : CoreRuns s c i) (body : i.body? = some y) (means : exec i s = runShared i.op y s el co)
    (writes : co c (s.core c) = coreWrite s c (s.core c) y v (v != 0)) (hd : y.d = d) (hpu : y.pu = pu) :
    exec i s = .next (coreWrote s c d pu v) := by
  rw [exec_coreWrite runs body means writes, hd, hpu]
  rfl

/-- A format without a PU field sets no predicate, whatever the condition. -/
theorem coreAfter_noPu (k : Core) (d : BitVec 5) (v : Dword) (cond cond' : Bool) : coreAfter k d v 0 cond = coreAfter k d v 0 cond' := rfl

/-- The words of format EK write their value with no PU (R105, R301). -/
theorem exec_coreWrote_ek {s : State} {c : Nat} {i : Instr} {x : EK} {el : Nat → Nat → OpInfo → State} {co : Nat → Core → CoreRes}
    {v : Dword} {cond : Bool} (runs : CoreRuns s c i) (body : i.body? = some (.ek x)) (means : exec i s = runShared i.op (.ek x) s el co)
    (writes : co c (s.core c) = coreWrite s c (s.core c) (.ek x) v cond) : exec i s = .next (coreWrote s c x.d 0 v) := by
  rw [exec_coreWrite runs body means writes]
  exact congrArg _ (congrArg _ (coreAfter_noPu _ _ _ _ _))

/-- On an element, a word whose result goes to D, with room where D names an output. -/
theorem exec_valueFired {s : State} {e slot op lat : Nat} {i : Instr} {y : Body} {o : OpInfo} {el : Nat → Nat → OpInfo → State}
    {co : Nat → Core → CoreRes} {code : BitVec 5} {v : Word} {cond : Bool} {tag : BitVec 3} {passed : Option Nat}
    (fires : ElemFires s e slot i) (room : Room s e y) (means : exec i s = runShared op y s el co) (info : opInfo op y = some o)
    (hlat : o.lat = lat) (dest : destCode o y = code) (fire : el e slot o = fireValue s e slot o y v cond 0 tag id passed) :
    exec i s = .next (valueFired s e slot lat y code v cond 0 tag id passed) := by
  rw [means, runShared_elem fires.here info, fire, fireValue_dest room (noTrap_zero s e) _ hlat _ dest]

/-- On an element, a word without a destination discards its value. Its meaning may have changed the state that it fires from, as ETRAP
counts the identifier of its event. -/
theorem exec_discarded {s t : State} {e slot op : Nat} {i : Instr} {y : Body} {o : OpInfo} {el : Nat → Nat → OpInfo → State}
    {co : Nat → Core → CoreRes} {v : Word} {cond : Bool} {post : Elem → Elem} {lat : Nat} (fires : ElemFires s e slot i)
    (means : exec i s = runShared op y s el co) (info : opInfo op y = some o) (hlat : o.lat = lat)
    (noDest : o.d ≠ .dst ∧ o.d ≠ .out ∧ o.d ≠ .acc ∧ o.d ≠ .pair)
    (fire : el e slot o = fireValue t e slot o y v cond 0 0 post none) :
    exec i s = .next (valueFired t e slot lat y 24 v cond 0 0 post) := by
  rw [means, runShared_elem fires.here info, fire, fireValue_discard (noTrap_zero t e) _ hlat noDest]

/-! ### Predicates, labels and NOP in a mason core (R110, R111, R301) -/

/-- A mason core takes a word only where the fields that its opcode does not use are zero (R34, R38). -/
theorem d_eq_zero_of_legal {i : Instr} {x : Body} {o : OpInfo} (body : i.body? = some x) (info : opInfo i.op x = some o)
    (unused : o.d = .zero) (legal : i.coreIllegal = false) : x.d = 0 := by
  have info' : i.info? = some o := by rw [Instr.info?, body]; exact info
  rw [coreIllegal_eq body info'] at legal
  have fields : x.unusedZero o = true := by
    by_contra h
    have := (body_coreIllegal_iff x o 0).mpr (by simp [h])
    rw [legal] at this
    cases this
  simp only [Body.unusedZero, Body.specs, unused, List.all_cons, Bool.and_eq_true] at fields
  obtain ⟨⟨⟨hd, -⟩, -⟩, -⟩ := fields
  simpa using hd

/-- A form of PMOV that writes the predicates of a mason core: PU applies to what the form has written (R110). -/
theorem exec_pmov_core {s : State} {c : Nat} {i : Instr} {x : EA} {f : BitVec 3} {o : OpInfo} {g : BitVec 8 → BitVec 8 → BitVec 8}
    (runs : CoreRuns s c i) (body : i.body? = some (.ea x f)) (opcode : i.op = 0x19) (means : exec i s = runPmov x f g s)
    (info : opInfo 0x19 (.ea x f) = some o) (unused : o.d = .zero) :
    let k := s.core c
    let p := g k.p ((k.reg x.a).setWidth 8)
    exec i s = .next (s.setCore c { k with p := predAfter p x.pu (p != 0), pc := k.pc + 8, held := false, operands := [] }) := by
  have hd : x.d = 0 := d_eq_zero_of_legal body (by rw [opcode]; exact info) unused runs.legal
  unfold runPmov at means
  rw [← opcode] at means
  rw [exec_coreWrite runs body means rfl]
  simp only [coreAfter, regsAfter, Body.d, Body.pu, hd, if_true]

theorem exec_movpc_core {s : State} {c : Nat} {x : EK} (runs : CoreRuns s c (.movpc x)) :
    exec (.movpc x) s = .next (coreWrote s c x.d 0 ((s.core c).pc + x.imm.signExtend 64 * 8)) := by
  refine (runCore_core runs rfl _).trans ?_
  simp only [coreWrite_eq]
  rfl

theorem exec_nop_core {s : State} {c : Nat} {x : EA} (runs : CoreRuns s c (.nop x)) :
    exec (.nop x) s = .next (coreWent s c x.pu) := by
  refine (runShared_core runs rfl _ _).trans ?_
  simp only [Core.update_eq]
  rfl

/-! ### Predicates and moves in an element (R106, R107, R110) -/

/-- The byte of PGET is zero where no predicate is set. -/
theorem setWidth_bne_zero (p : BitVec 8) : (p.setWidth 32 != 0) = (p != 0) := by
  have : p.setWidth 32 = 0 ↔ p = 0 := by
    rw [← BitVec.toNat_inj, ← BitVec.toNat_inj, BitVec.toNat_setWidth_of_le (by decide)]
    rfl
  rw [Bool.eq_iff_iff, bne_iff_ne, bne_iff_ne, Ne, this]

/-- MOV where D names no output writes A as any other value (R106). -/
theorem exec_mov_register {s : State} {e slot : Nat} {x : EA} {f : BitVec 3} (fires : ElemFires s e slot (.mov x f))
    (room : Room s e (.ea x f)) (hd : x.d.toNat < 20 ∨ 23 < x.d.toNat) :
    let a := readSpec s e (.ea x f) x.a
    exec (.mov x f) s = .next (valueFired s e slot 1 (.ea x f) x.d a (a != 0)) := by
  refine exec_valueFired fires room rfl rfl rfl rfl ?_
  dsimp only
  rw [outOf_eq_none hd]

/-- MOV to an output sends a token with tag F (R106). -/
theorem exec_mov_token {s : State} {e slot k : Nat} {x : EA} {f : BitVec 3} (fires : ElemFires s e slot (.mov x f))
    (room : Room s e (.ea x f)) (hk : k < 4) (hd : x.d.toNat = 20 + k) (hf : f ≠ 4) :
    let a := readSpec s e (.ea x f) x.a
    exec (.mov x f) s = .next (valueFired s e slot 1 (.ea x f) x.d a (a != 0) 0 f id (if f = 6 then passedOn x else none)) := by
  refine exec_valueFired fires room rfl rfl rfl rfl ?_
  dsimp only
  rw [outOf_output hk hd]
  exact if_neg hf

/-- MOV of a MARKER keeps its payload for the element's own MARKER and asks for a cut (R106, R343). -/
theorem exec_mov_marker {s : State} {e slot k : Nat} {x : EA} (fires : ElemFires s e slot (.mov x 4))
    (room : Room s e (.ea x 4)) (hk : k < 4) (hd : x.d.toNat = 20 + k) :
    let a := readSpec s e (.ea x 4) x.a
    exec (.mov x 4) s = .next (((takeInputs s e x.dq none).askCut (e / 16)).modElem e fun el =>
      (({ el with movMark := el.movMark.insert k (a.setWidth 64) } : Elem).result s.round 1 [] (puWrite x.pu (a != 0))).noAbort slot) := by
  have round : ((takeInputs s e x.dq none).askCut (e / 16)).round = s.round := by
    rw [State.askCut, modRegionOf_only]
    exact takeInputs_round s e x.dq none
  refine (runShared_elem fires.here rfl _ _).trans ?_
  simp only [outOf_output hk hd, outFull_of_room room, Key.pkOfElem, round, if_true, Bool.false_eq_true, if_false]

/-- FWD sends the head of its input on, tag included (R107). -/
theorem exec_fwd {s : State} {e slot k : Nat} {x : EA} {t : Token} (fires : ElemFires s e slot (.fwd x)) (room : Room s e (.ea x 0))
    (hk : k < 4) (ha : x.a.toNat = 16 + k) (head : (s.elem e).io.head? s.round k = some t) :
    exec (.fwd x) s = .next (valueFired s e slot 1 (.ea x 0) x.d (readSpec s e (.ea x 0) x.a) false 0 t.tag id
      (if t.tag = 6 then passedOn x else none)) := by
  refine exec_valueFired fires room rfl rfl rfl rfl ?_
  dsimp only
  rw [ha, Nat.add_sub_cancel_left, headTag_of_head head, readSpec_head s e _ hk ha]

end Sys2Proof.Machine

namespace Sys2Proof.Claims

open Sys2Proof.Machine

/-- Settles O6. Each form of the tables computes its table's results (`computesAlu_of_mem`, `computesImm_of_mem`), and on a core the word
writes D, PU and the PC alone (`exec_coreWrote`). -/
theorem coreInteger : Obligations.CoreInteger := by
  refine ⟨fun s c row x hrow runs => ?_, fun s c row x hrow runs => ?_⟩
  · obtain ⟨op, o, form⟩ := computesAlu_of_mem row hrow
    have means := form.means x s
    rw [← form.writes.opcode x] at means
    exact exec_coreWrote runs (form.writes.body x) means rfl rfl rfl
  · obtain ⟨op, o, form⟩ := computesImm_of_mem row hrow
    have means := form.means x s
    rw [← form.opcode x] at means
    exact exec_coreWrote runs (form.body x) means rfl rfl rfl

/-- Settles O37. The forms compute their tables' results at their latency, the packed ones lane by lane (`computesPacked_of_mem`), and
with room the firing writes D (`exec_valueFired`). -/
theorem elemInteger : Obligations.ElemInteger := by
  refine ⟨fun s e slot row x hrow fires room => ?_, fun s e slot row x hrow fires room => ?_,
    fun s e slot row x f hrow body fires room => ?_⟩
  · obtain ⟨op, o, form⟩ := computesAlu_of_mem row hrow
    exact exec_valueFired fires room (form.means x s) (form.writes.info x) form.lat (form.writes.dest _) rfl
  · obtain ⟨op, o, form⟩ := computesImm_of_mem row hrow
    exact exec_valueFired fires room (form.means x s) (form.info x) form.lat (form.dest _) rfl
  · obtain ⟨op, f', o, form⟩ := computesPacked_of_mem row hrow
    obtain rfl : f' = f := by simpa [form.writes.body x] using body
    exact exec_valueFired fires room (form.means x s) (form.writes.info x) form.lat (form.writes.dest _) rfl

/-- Settles O7. The forms that write D are `exec_coreWrote` at the value of the form, and those of PMOV `exec_pmov_core`, whose D field is
zero in a legal word (`d_eq_zero_of_legal`). -/
theorem coreMovesPredicates : Obligations.CoreMovesPredicates := by
  refine ⟨fun s c => ⟨?bfi, ?sel, ?movk, ?movks, ?mov, fun x runs => exec_movpc_core runs⟩,
    fun s c x => ⟨?pget, ?pput, ?psetm, ?pclrm, exec_nop_core⟩⟩
  case bfi =>
    intro x runs
    have written := exec_coreWrote runs rfl rfl rfl rfl rfl
    rw [IntAlu.bfi_table] at written
    exact written
  case sel => exact fun x f runs => exec_coreWrote runs rfl rfl rfl rfl rfl
  case movk => exact fun x runs => exec_coreWrote_ek runs rfl rfl rfl
  case movks =>
    intro x runs
    rw [← IntAlu.movks_table]
    exact exec_coreWrote_ek runs rfl rfl rfl
  case mov => exact fun x f runs => exec_coreWrote runs rfl rfl rfl rfl rfl
  case pget => exact fun runs => exec_coreWrote runs rfl rfl rfl rfl rfl
  case pput => exact fun runs => exec_pmov_core (g := fun _ a => a) runs rfl rfl rfl rfl rfl
  case psetm => exact fun runs => exec_pmov_core (g := fun p a => p ||| a) runs rfl rfl rfl rfl rfl
  case pclrm => exact fun runs => exec_pmov_core (g := fun p a => p &&& ~~~a) runs rfl rfl rfl rfl rfl

/-- Settles O38. Each move fires with the form's value (`exec_valueFired`); MOV goes by what D names and by F, and a MARKER alone asks
for a cut (`exec_mov_marker`). -/
theorem elemMoves : Obligations.ElemMoves := by
  intro s e slot
  refine ⟨?bfi, ?sel, ?movk, ?movks, ?mov, ?cut, ?fwd, ?errt⟩
  case bfi =>
    intro x fires room
    have fired := exec_valueFired fires room rfl rfl rfl rfl rfl
    rw [IntAlu.bfi_table] at fired
    exact fired
  case sel => exact fun x f fires room => exec_valueFired fires room rfl rfl rfl rfl rfl
  case movk => exact fun x fires room => exec_valueFired fires room rfl rfl rfl rfl rfl
  case movks =>
    intro x fires room
    rw [← IntAlu.movks_table]
    exact exec_valueFired fires room rfl rfl rfl rfl rfl
  case mov =>
    intro x f fires room
    refine ⟨exec_mov_register fires room, fun hlo hhi hf => ?_, ?_⟩
    · exact exec_mov_token (k := x.d.toNat - 20) fires room (by omega) (by omega) hf
    · rintro k hd hk rfl
      exact exec_mov_marker fires room hk hd
  case cut => exact fun pk rk hr => modRegionOf_some hr _
  case fwd => exact fun x k t hk ha head fires room => exec_fwd fires room hk ha head
  case errt => exact fun x fires room => exec_valueFired fires room rfl rfl rfl rfl rfl

/-- Settles O39. What writes D is `exec_valueFired`, and the rest, whose write is the form's own, `exec_discarded`. -/
theorem elemControl : Obligations.ElemControl := by
  intro s e slot x
  refine ⟨?pget, ?pput, ?psetm, ?pclrm, ?nop, ?ehalt, ?fwfl, ?fclr, ?frfl, ?etrap, fun y => ⟨?lld, ?lst⟩⟩
  case pget =>
    intro fires room
    rw [← setWidth_bne_zero]
    exact exec_valueFired fires room rfl rfl rfl rfl rfl
  case frfl => exact fun fires room => exec_valueFired fires room rfl rfl rfl rfl rfl
  case lld => exact fun fires room => exec_valueFired fires room rfl rfl rfl rfl rfl
  case etrap => exact fun f fires => exec_discarded fires rfl rfl rfl (by decide) rfl
  all_goals exact fun fires => exec_discarded fires rfl rfl rfl (by decide) rfl

end Sys2Proof.Claims
end

section
/-! PROOFS. The instructions of combining registers (R156-R161, R165): a contribution at its port, and the commands of the home element. -/

namespace Sys2Proof.Machine

open Sys2Proof.Claims

@[simp] theorem home_setHome (s : State) (k : Nat) (v : Home) : (s.setHome k v).home k = v := Sparse.get_put_self _ _ _ _

/-! ### Contributions and closes (R157, R165) -/

/-- A contribution or close of a declared contributor: the port refuses a second close, and else the rule fires, writes no register and
sends its command to the slot. -/
theorem exec_contribution {s : State} {e slot h k op : Nat} {i : Instr} {x : EC} {o : OpInfo} {value close : Bool}
    (fires : ElemFires s e slot i) (home : homeKey s e x.m = some h) (contributor : contribIdx (s.home h) e = some k)
    (means : exec i s = runContrib op x value close s) (info : opInfo op (.ec x) = some o) (hlat : o.lat = 1)
    (noDest : o.d ≠ .dst ∧ o.d ≠ .out ∧ o.d ≠ .acc ∧ o.d ≠ .pair) :
    let a := readSpec s e (.ec x) x.ad
    exec i s = .next (if close && closeRefused s h k then s.abort e slot .engineRefused
      else (valueFired s e slot 1 (.ec x) 24 0 (a != 0)).sendContrib h k
        (if value then some (a, x.opc.toNat, x.ty.toNat) else none) close) := by
  rw [means, runContrib, runElem, runShared_elem fires.here info]
  simp only [home, contributor, fireValue_discard (noTrap_zero s e) 1 hlat noDest]

/-- Each of the three forms is so: its meaning and its row of the opcode map are read off. -/
theorem exec_contribution_of_mem {s : State} {e slot h k : Nat} {x : EC} {op : EC → Instr} {value close : Bool}
    (form : (op, value, close) ∈ ([(.contrib, true, false), (.contribc, true, true), (.cclose, false, true)] : List _))
    (fires : ElemFires s e slot (op x)) (home : homeKey s e x.m = some h) (contributor : contribIdx (s.home h) e = some k) :
    let a := readSpec s e (.ec x) x.ad
    exec (op x) s = .next (if close && closeRefused s h k then s.abort e slot .engineRefused
      else (valueFired s e slot 1 (.ec x) 24 0 (a != 0)).sendContrib h k
        (if value then some (a, x.opc.toNat, x.ty.toNat) else none) close) := by
  simp only [List.mem_cons, List.not_mem_nil, or_false, Prod.mk.injEq] at form
  obtain ⟨rfl, rfl, rfl⟩ | ⟨rfl, rfl, rfl⟩ | ⟨rfl, rfl, rfl⟩ := form
  all_goals exact exec_contribution fires home contributor rfl rfl rfl (by decide)

/-! ### Commands of the home element (R158-R161, R165) -/

/-- With room for D, a command of the home element is refused while another is outstanding, and else takes its effect. -/
theorem exec_home {s : State} {e slot h op : Nat} {i : Instr} {x : EC} {o : OpInfo} {effect : Nat → Nat → OpInfo → Nat → State}
    (fires : ElemFires s e slot i) (room : Room s e (.ec x)) (home : homeKey s e x.m = some h)
    (means : exec i s = runHome op x s effect) (info : opInfo op (.ec x) = some o) :
    exec i s = .next (if (s.home h).op.isSome then s.abort e slot .engineRefused else effect e slot o h) := by
  rw [means, runHome, runElem, runShared_elem fires.here info]
  simp only [outFull_of_room room, home, Bool.false_eq_true, if_false]

theorem exec_home_idle {s : State} {e slot h op : Nat} {i : Instr} {x : EC} {o : OpInfo} {effect : Nat → Nat → OpInfo → Nat → State}
    (fires : ElemFires s e slot i) (room : Room s e (.ec x)) (home : homeKey s e x.m = some h) (idle : (s.home h).op = none)
    (means : exec i s = runHome op x s effect) (info : opInfo op (.ec x) = some o) : exec i s = .next (effect e slot o h) := by
  rw [exec_home fires room home means info, idle]
  rfl

theorem exec_home_refused {s : State} {e slot h op : Nat} {i : Instr} {x : EC} {o : OpInfo}
    {effect : Nat → Nat → OpInfo → Nat → State}
    (fires : ElemFires s e slot i) (room : Room s e (.ec x)) (home : homeKey s e x.m = some h) (busy : (s.home h).op.isSome = true)
    (means : exec i s = runHome op x s effect) (info : opInfo op (.ec x) = some o) :
    exec i s = .next (s.abort e slot .engineRefused) := by
  rw [exec_home fires room home means info, if_pos busy]

theorem awaited_round (s : State) (e slot : Nat) (x : Body) (code : BitVec 5) : (awaited s e slot x code).round = s.round :=
  takeInputs_round { s with nextTicket := s.nextTicket + 1 } e x.dq none

/-- At an idle home a command with a reply is sent from the state that has reserved for its reply. -/
theorem exec_home_command {s : State} {e slot h op : Nat} {i : Instr} {x : EC} {o : OpInfo} {code : BitVec 5}
    {send : Nat → Nat → State → State} (fires : ElemFires s e slot i) (room : Room s e (.ec x)) (home : homeKey s e x.m = some h)
    (idle : (s.home h).op = none)
    (means : exec i s = runHome op x s fun e slot o hk => fireCommand s e slot o (.ec x) false (send hk))
    (info : opInfo op (.ec x) = some o) (dest : destCode o (.ec x) = code) :
    exec i s = .next (send h s.nextTicket (awaited s e slot (.ec x) code)) := by
  rw [exec_home_idle fires room home idle means info, ← dest]
  rfl

theorem popcount_eq_length_filter (m : BitVec 16) : popcount m = ((List.range 16).filter m.getLsbD).length := List.countP_eq_length_filter

end Sys2Proof.Machine

namespace Sys2Proof.Claims

open Sys2Proof.Machine

/-- Settles O47. The three forms that contribute go by their port's refusal (`exec_contribution_of_mem`); the commands of the home element
are refused while another is outstanding (`exec_home_refused`), and at an idle home take their effect (`exec_home_idle`). -/
theorem elemCombining : Obligations.ElemCombining := by
  intro s e slot h x home
  refine ⟨?contribute, ?read, ?reset, ?cpoll, ?cstat, ?refused⟩
  case contribute =>
    intro k op value close form fires contributor
    have fired := exec_contribution_of_mem form fires home contributor
    exact ⟨fun accepted => by simp only [fired, accepted, Bool.false_eq_true, if_false],
      fun refused => by simp only [fired, refused, if_true]⟩
  case read =>
    intro op peek form fires room idle
    simp only [List.mem_cons, List.not_mem_nil, or_false, Prod.mk.injEq] at form
    obtain ⟨rfl, rfl⟩ | ⟨rfl, rfl⟩ := form
    all_goals
      refine (exec_home_command (code := x.ad) fires room home idle rfl rfl rfl).trans ?_
      dsimp only
      rw [awaited_round]
  case reset =>
    intro fires room idle
    refine (exec_home_command (code := 24) fires room home idle rfl rfl rfl).trans ?_
    dsimp only
    rw [awaited_round]
  case cpoll =>
    intro fires room idle
    dsimp only
    rw [exec_home_idle fires room home idle rfl rfl, ← popcount_eq_length_filter]
    exact congrArg _ (fireValue_dest room (noTrap_zero s e) 2 rfl x.ad rfl)
  case cstat =>
    intro fires room idle
    dsimp only
    rw [← takeInputs_round s e x.dq none]
    exact exec_home_idle fires room home idle rfl rfl
  case refused =>
    intro op form fires room busy
    simp only [List.mem_cons, List.not_mem_nil, or_false] at form
    obtain rfl | rfl | rfl | rfl | rfl := form
    all_goals exact exec_home_refused fires room home busy rfl rfl

end Sys2Proof.Claims
end

section
/-! PROOFS. Events of combining registers (R153, R155, R156, R158, R161, R163, R164, R166): each event at a home record and a slot that
let it happen. -/

namespace Sys2Proof.Machine

open CombAlu

section
variable {s : State} {h k : Nat}

/-! ### A contribution or close at its slot (R153, R155) -/

/-- What a slot holds once the value of a command, if it has one, is in CUR, or in NEXT behind a close (R153, R155). -/
def PSlot.taking (decl : MDecl) (p : PSlot) : Option (Word × Nat × Nat) → PSlot
  | some (a, o, t) =>
    if p.closed then { p with nxt := contribLocal decl p.nxt a o t } else { p with cur := contribLocal decl p.cur a o t }
  | none => p

/-- An open slot takes a value into CUR. -/
theorem taking_open {decl : MDecl} {p : PSlot} (hopen : p.closed = false) (a : Word) (o t : Nat) :
    p.taking decl (some (a, o, t)) = { p with cur := contribLocal decl p.cur a o t } :=
  if_neg (by rw [hopen]; exact Bool.false_ne_true)

/-- A value changes neither the generation of its slot nor the resets that it has taken, and so not whether the home has settled that
generation. -/
theorem behind_taking (home : Home) (decl : MDecl) (p : PSlot) (value : Option (Word × Nat × Nat)) :
    (p.taking decl value).behind home = p.behind home := by
  cases value with
  | none => rfl
  | some v => cases hclosed : p.closed <;> simp [PSlot.taking, PSlot.behind, hclosed]

/-- A contribution without a close changes its slot alone. -/
theorem contribAt_open {home : Home} (hhome : s.home h = home) {c : CombCmd} (hclose : c.close = false) :
    let sk := home.slotKeys.getD k 0
    contribAt s h k c = s.setPslot sk ((s.pslot sk).taking home.decl c.value) := by
  obtain ⟨due, value, close⟩ := c
  subst hhome hclose
  cases value <;> rfl

/-- A close takes its value first; it drops a generation that the home has settled, and else closes CUR and sends its notice. -/
theorem contribAt_close {home : Home} (hhome : s.home h = home) {c : CombCmd} (hclose : c.close = true) :
    let sk := home.slotKeys.getD k 0
    let p := (s.pslot sk).taking home.decl c.value
    contribAt s h k c = if (s.pslot sk).behind home then s.setPslot sk p.shift
      else (s.setPslot sk { p with closed := true }).setHome h
        { home with toHome := home.toHome.put [] k (home.toHome.get [] k ++ [.notice (s.round + 1)]) } := by
  obtain ⟨due, value, close⟩ := c
  subst hhome hclose
  dsimp only
  rw [← behind_taking (s.home h) (s.home h).decl _ value]
  cases value
  all_goals
    rw [contribAt]
    cases hbehind : ((s.pslot ((s.home h).slotKeys.getD k 0)).taking (s.home h).decl _).behind (s.home h)
    all_goals
      rw [PSlot.taking] at hbehind
      simp [hbehind, PSlot.taking, -List.getD_eq_getElem?_getD]

theorem execContribLocal_waits {c : CombCmd} {rest : List CombCmd} (head : (s.home h).toSlot.get [] k = c :: rest)
    (hclose : c.close = true) (hclosed : (s.pslot ((s.home h).slotKeys.getD k 0)).closed = true) :
    execContribLocal h k s = .next s := by
  simp [execContribLocal, head, hclose, hclosed, -List.getD_eq_getElem?_getD]

/-- A command that is due and need not wait takes its effect on the state without it. -/
theorem execContribLocal_due {c : CombCmd} {rest : List CombCmd} (head : (s.home h).toSlot.get [] k = c :: rest)
    (due : c.due ≤ s.round) (free : (c.close && (s.pslot ((s.home h).slotKeys.getD k 0)).closed) = false) :
    execContribLocal h k s
      = .next (contribAt (s.setHome h { s.home h with toSlot := (s.home h).toSlot.put [] k rest }) h k c) := by
  simp [execContribLocal, head, due, free, -List.getD_eq_getElem?_getD]

/-- A close that is due at an open slot, in the terms of the home record before it. -/
theorem execContribLocal_close {c : CombCmd} {rest : List CombCmd} (head : (s.home h).toSlot.get [] k = c :: rest)
    (due : c.due ≤ s.round) (hclose : c.close = true) (hopen : (s.pslot ((s.home h).slotKeys.getD k 0)).closed = false) :
    let home := s.home h
    let sk := home.slotKeys.getD k 0
    let p := (s.pslot sk).taking home.decl c.value
    let left := s.setHome h { home with toSlot := home.toSlot.put [] k rest }
    execContribLocal h k s = .next (if (s.pslot sk).behind home then left.setPslot sk p.shift
      else (left.setPslot sk { p with closed := true }).setHome h { home with
        toSlot := home.toSlot.put [] k rest
        toHome := home.toHome.put [] k (home.toHome.get [] k ++ [.notice (s.round + 1)]) }) := by
  rw [execContribLocal_due head due (by rw [hopen, Bool.and_false]), contribAt_close (home_setHome s h _) hclose]
  rfl

/-! ### The notice of a close (R155) -/

/-- A notice that is due sets its contributor's bit, unless a CRST is outstanding. -/
theorem execCloseNotice_due {due : Nat} {rest : List HomeMsg} (head : (s.home h).toHome.get [] k = .notice due :: rest)
    (hdue : due ≤ s.round) (noReset : ∀ t f a r, (s.home h).op ≠ some (.reset t f a r)) :
    let home := s.home h
    execCloseNotice h k s = .next (s.setHome h { home with
      toHome := home.toHome.put [] k rest, closed := home.closed ||| 1#16 <<< k, lastNotice := s.round }) := by
  unfold execCloseNotice
  dsimp only
  rw [head]
  dsimp only
  rw [if_pos hdue]
  split
  case h_1 t f a r resets => exact absurd resets (noReset t f a r)
  case h_2 => rfl

/-! ### The gather of a SETTLE or a PEEK (R155, R158, R159, R166) -/

/-- A PEEK waits for no close. -/
theorem execGatherIssue_peek {t fired : Nat} {parts : Sparse (Option Part)}
    (reads : (s.home h).op = some (.read true t fired none parts)) (later : fired < s.round) :
    execGatherIssue h s = .next (s.setHome h { s.home h with op := some (.read true t fired (some s.round) parts) }) := by
  unfold execGatherIssue
  dsimp only
  rw [reads]
  dsimp only
  rw [if_pos rfl, if_pos later]

/-- A settle waits until every contributor's close is recorded, the last one in an earlier round. -/
theorem execGatherIssue_settle {t fired : Nat} {parts : Sparse (Option Part)}
    (reads : (s.home h).op = some (.read false t fired none parts)) :
    let home := s.home h
    execGatherIssue h s = .next (if home.closed = home.full ∧ fired < s.round ∧ home.lastNotice < s.round
      then s.setHome h { home with op := some (.read false t fired (some s.round) parts), closed := 0 } else s) := by
  unfold execGatherIssue
  dsimp only
  rw [reads]
  simp only [Bool.false_eq_true, if_false, Bool.and_eq_true, decide_eq_true_eq, and_assoc]

/-- A slot after a gather: a settle that finds it in the generation it reads moves it on, and nothing else changes it. -/
def PSlot.gathered (home : Home) (peek : Bool) (p : PSlot) : PSlot :=
  if peek || p.crsts != home.crsts || p.gen != home.gen then p else (p.remember true).shift

theorem gathered_now {home : Home} {p : PSlot} (hcrsts : p.crsts = home.crsts) (hgen : p.gen = home.gen) :
    p.gathered home false = (p.remember true).shift := by
  simp [PSlot.gathered, hcrsts, hgen]

theorem gathered_past {home : Home} {p : PSlot} (hpast : p.crsts ≠ home.crsts ∨ p.gen ≠ home.gen) :
    p.gathered home false = p := by
  simp [PSlot.gathered, hpast]

/-- A slot answers from CUR for the generation that it stands in. -/
theorem at_now {p : PSlot} {crsts : Nat} {gen : BitVec 16} (hcrsts : p.crsts = crsts) (hgen : p.gen = gen) :
    p.at crsts gen = (p.cur, p.closed) := by
  simp [PSlot.at, hcrsts, hgen]

/-- The next generation of a slot that a settle has moved on is open. -/
theorem at_gathered_next {home : Home} {p : PSlot} (hcrsts : p.crsts = home.crsts) (hgen : p.gen = home.gen) :
    ((p.gathered home false).at home.crsts (home.gen + 1)).2 = false := by
  rw [gathered_now hcrsts hgen, at_now (p := (p.remember true).shift) hcrsts (congrArg (· + 1) hgen)]
  rfl

/-- A gather under way reads a declared slot that it has not read: the home takes the part, and with a settle a notice where the slot's
next generation is closed. -/
theorem execGatherRead_due {peek : Bool} {t fired issued : Nat} {parts : Sparse (Option Part)}
    (reads : (s.home h).op = some (.read peek t fired (some issued) parts)) (later : issued < s.round)
    (declared : k < (s.home h).decl.contribs.length) (unread : parts.get none k = none)
    (up : ∀ l ∈ homePath (s.home h) ((s.home h).slotKeys.getD k 0), (s.link l).carries = true) :
    let home := s.home h
    let sk := home.slotKeys.getD k 0
    let part := (s.pslot sk).at home.crsts home.gen
    let slot := (s.pslot sk).gathered home peek
    execGatherRead h k s = .next ((s.setHome h { home with
      op := some (.read peek t fired (some issued) (parts.insert k (some ⟨part.1, part.2, s.round⟩)))
      toHome := if !peek && (slot.at home.crsts (home.gen + 1)).2
        then home.toHome.put [] k (home.toHome.get [] k ++ [.notice (s.round + 1)]) else home.toHome }).setPslot sk slot) := by
  have due : (decide (issued < s.round) && decide (k < (s.home h).decl.contribs.length) && (parts.get none k).isNone
      && (homePath (s.home h) ((s.home h).slotKeys.getD k 0)).all fun l => (s.link l).carries) = true := by
    simpa [later, declared, unread] using up
  unfold execGatherRead
  dsimp only
  rw [reads]
  dsimp only
  rw [if_pos due]
  rfl

/-- The parts of every declared slot have come and the tree has had its rounds: the read ends at the home and at its element, and an
unclean settle posts its event. -/
theorem execSettleReply_due {peek : Bool} {t fired issued : Nat} {parts : Sparse (Option Part)}
    (reads : (s.home h).op = some (.read peek t fired (some issued) parts)) :
    let home := s.home h
    let ps := (List.range home.decl.contribs.length).filterMap fun k => parts.get none k
    ps.length = home.decl.contribs.length → (∀ p ∈ ps, p.at_ + 4 ≤ s.round) →
    let closed : BitVec 16 := if peek then BitVec.ofNat 16 (maskOf (·.closed) ps) else home.full
    let r := CombAlu.read home.decl (ps.map (·.buf)) closed home.gen peek
    let landed := (s.setHome h { home with status := r.status, op := none, gen := if peek then home.gen else home.gen + 1 }).modElem
      home.decl.home fun el => el.landReply s.round t (r.res.setWidth 64) 0 r.clean
    execSettleReply h s = .next (if !peek && !r.clean then
      landed.event (Key.dieOfElem home.decl.home) 4 (h % 64) (attribPlace home r (ps.map (·.buf))) r.status (home.gen.setWidth 64)
      else landed) := by
  intro home ps complete ripe
  have due : (decide (ps.length = home.decl.contribs.length) && ps.all fun p => decide (p.at_ + 4 ≤ s.round)) = true := by
    simpa [complete] using ripe
  unfold execSettleReply
  dsimp only
  rw [reads]
  dsimp only
  rw [if_pos due]
  rfl

/-! ### A CRST (R161, R166) -/

/-- A slot that a reset empties: open in generation 0 of the register's new life, with what it held remembered. -/
def PSlot.reset (crsts : Nat) (p : PSlot) : PSlot :=
  { p with cur := {}, nxt := {}, closed := false, gen := 0, crsts := crsts, past := p.past ++ [⟨p.crsts, p.gen, p.cur, p.closed⟩] }

/-- A reset that reaches a declared slot is acknowledged behind the slot's notices, and empties the slot unless it has taken this reset
already. -/
theorem execResetArrival_due {t fired : Nat} {acked recd : BitVec 16} (resets : (s.home h).op = some (.reset t fired acked recd))
    (later : fired < s.round) (declared : k < (s.home h).decl.contribs.length) (unacked : acked.getLsbD k = false)
    (noAck : ackComing (s.home h) k = false) :
    let home := s.home h
    let sk := home.slotKeys.getD k 0
    let slot := s.pslot sk
    execResetArrival h k s = .next ((if slot.crsts = home.crsts then s else s.setPslot sk (slot.reset home.crsts)).setHome h { home with
      toHome := home.toHome.put [] k (home.toHome.get [] k ++ [.ack (s.round + 1)]) }) := by
  have due : (decide (fired < s.round) && decide (k < (s.home h).decl.contribs.length) && !acked.getLsbD k
      && !ackComing (s.home h) k) = true := by
    simp [later, declared, unacked, noAck]
  intro home sk slot
  unfold execResetArrival
  dsimp only
  rw [resets]
  dsimp only
  rw [if_pos due]
  by_cases taken : slot.crsts = home.crsts
  · rw [if_pos taken, if_pos taken]
  · rw [if_neg taken, if_neg taken]
    rfl

/-- The last acknowledgment completes the reset. -/
theorem execResetAck_due {t fired due : Nat} {acked recd : BitVec 16} {rest : List HomeMsg}
    (resets : (s.home h).op = some (.reset t fired acked recd)) (head : (s.home h).toHome.get [] k = .ack due :: rest)
    (hdue : due ≤ s.round) :
    let home := s.home h
    let acked' := acked ||| 1#16 <<< k
    execResetAck h k s = .next (if acked' = home.full then
        (s.setHome h { home with toHome := home.toHome.put [] k rest, gen := 0, closed := recd, status := 0x3E0, op := none,
                                 lastNotice := s.round }).modElem home.decl.home fun el => el.landReply s.round t 0 0 false
      else s.setHome h { home with toHome := home.toHome.put [] k rest, op := some (.reset t fired acked' recd) }) := by
  unfold execResetAck
  dsimp only
  rw [resets, head]
  dsimp only
  rw [if_pos hdue]
  rfl

end

end Sys2Proof.Machine

namespace Sys2Proof.Claims

open Sys2Proof.Machine

/-- Settles O53. Each event is its law at a home record that lets it happen: `execContribLocal_waits`, `execContribLocal_due` and
`execContribLocal_close` at the slot, `execCloseNotice_due`, `execGatherIssue_peek` and `execGatherIssue_settle`, `execGatherRead_due` with
what a gather leaves of the slot, `execSettleReply_due`, and the two steps of a CRST. -/
theorem combiningEvents : Obligations.CombiningEvents := by
  intro s h k
  refine ⟨?contribution, ?notice, ?gather, ?slotRead, ?reply, ?reset⟩
  case contribution =>
    intro c rest head due
    refine ⟨execContribLocal_waits head, fun a o t hclose hvalue => ?value, fun hclose hopen => ?close⟩
    case value =>
      refine (execContribLocal_due head due (by rw [hclose]; rfl)).trans ?_
      rw [contribAt_open (home_setHome s h _) hclose, hvalue]
      rfl
    case close =>
      have closes := execContribLocal_close head due hclose hopen
      intro p
      have taken : (s.pslot ((s.home h).slotKeys.getD k 0)).taking (s.home h).decl c.value = p := by
        dsimp only [p]
        rcases c.value with _ | ⟨a, o, t⟩
        · rfl
        · exact taking_open hopen a o t
      rw [← taken]
      exact ⟨fun current => closes.trans (congrArg _ (if_neg (by rw [current]; exact Bool.false_ne_true))),
        fun behind => closes.trans (congrArg _ (if_pos behind))⟩
  case notice =>
    intro due rest head hdue noReset
    exact execCloseNotice_due head hdue noReset
  case gather =>
    intro peek t fired parts reads later
    refine ⟨?peeks, ?settles, ?waits⟩
    case peeks =>
      rintro rfl
      exact execGatherIssue_peek reads later
    case settles =>
      rintro rfl closed recorded
      exact (execGatherIssue_settle reads).trans (congrArg _ (if_pos ⟨closed, later, recorded⟩))
    case waits =>
      rintro rfl notClosed
      exact (execGatherIssue_settle reads).trans (congrArg _ (if_neg fun due => notClosed due.1))
  case slotRead =>
    intro peek t fired issued parts reads later declared unread up
    have read := execGatherRead_due reads later declared unread up
    refine ⟨?peeks, fun hcrsts hgen => ⟨at_now hcrsts hgen, ?settles⟩, ?settlesPast⟩
    case peeks =>
      rintro rfl
      exact read
    case settles =>
      rintro rfl
      refine read.trans ?_
      rw [at_gathered_next hcrsts hgen, gathered_now hcrsts hgen]
      rfl
    case settlesPast =>
      rintro rfl hpast
      refine read.trans ?_
      rw [gathered_past hpast]
      rfl
  case reply =>
    intro peek t fired issued parts reads ps complete ripe closed r landed
    have reply := execSettleReply_due reads complete ripe
    have posts : (!peek && !r.clean) = true ↔ peek = false ∧ r.clean = false := by
      rw [Bool.and_eq_true, Bool.not_eq_true', Bool.not_eq_true']
    refine ⟨fun quiet => reply.trans (congrArg _ (if_neg fun loud => ?_)),
      fun settles unclean => reply.trans (congrArg _ (if_pos (posts.mpr ⟨settles, unclean⟩)))⟩
    obtain ⟨settles, unclean⟩ := posts.mp loud
    rw [settles, unclean] at quiet
    exact quiet.elim Bool.false_ne_true Bool.false_ne_true
  case reset =>
    intro t fired acked recd resets
    refine ⟨execResetArrival_due resets, fun due rest head hdue => ?ack⟩
    have acks := execResetAck_due resets head hdue
    exact ⟨fun waits => acks.trans (congrArg _ (if_neg waits)), fun last => acks.trans (congrArg _ (if_pos last))⟩

end Sys2Proof.Claims
end

section
/-! PROOFS. The functions of the model that leave memory alone (R176, R300): the frame of O60, in the order of the definitions. -/

namespace Sys2Proof.Machine

theorem mem_ite_eq {c : Prop} [Decidable c] {t u : State} {m : Sparse Byte} (ht : t.mem = m) (hu : u.mem = m) :
    (if c then t else u).mem = m := by split <;> assumption

@[simp] theorem mem_ite (c : Prop) [Decidable c] (s t : State) : (if c then s else t).mem = if c then s.mem else t.mem := apply_ite _ _ _ _

@[simp] theorem foldl_mem {α : Type} {f : State → α → State} (h : ∀ s a, (f s a).mem = s.mem) (l : List α) (s : State) :
    (l.foldl f s).mem = s.mem := by
  induction l generalizing s with
  | nil => rfl
  | cons a l ih => rw [List.foldl_cons, ih, h]

section
variable (s : State)

/-! ### Events, traps and reports -/

@[simp] theorem State.modElem_mem (e : Nat) (f : Elem → Elem) : (s.modElem e f).mem = s.mem := rfl

@[simp] theorem State.modRegionOf_mem (pk : Nat) (f : Region → Region) : (s.modRegionOf pk f).mem = s.mem := by
  dsimp only [State.modRegionOf]; split <;> rfl

@[simp] theorem State.touch_mem (pk : Nat) : (s.touch pk).mem = s.mem := by simp [State.touch]

@[simp] theorem State.moved_mem (pk : Nat) : (s.moved pk).mem = s.mem := by simp [State.moved]

@[simp] theorem State.post_mem (die : Nat) (r : EvRec) : (s.post die r).mem = s.mem := rfl

@[simp] theorem State.event_mem (die type code : Nat) (place : Word) (d2 d3 : Dword) : (s.event die type code place d2 d3).mem = s.mem := by
  simp [State.event]

@[simp] theorem State.askCut_mem (pk : Nat) : (s.askCut pk).mem = s.mem := by simp [State.askCut]

@[simp] theorem State.report_mem (pk : Nat) (place : Word) (port : Nat) (payload : Word) (cut : Nat) :
    (s.report pk place port payload cut).mem = s.mem := by simp [State.report]

@[simp] theorem State.countUe_mem (die : Nat) : (s.countUe die).mem = s.mem := rfl

@[simp] theorem State.takeTrap_mem (c cause detail : Nat) (tval : Dword) (async : Bool) : (s.takeTrap c cause detail tval async).mem = s.mem := by
  simp [State.takeTrap]

/-! ### Takes of an element -/

@[simp] theorem State.freeSlot_mem (ch dst : Nat) : (s.freeSlot ch dst).mem = s.mem := rfl

@[simp] theorem takeInput_mem (e : Nat) (passed : Option Nat) (k : Nat) : (takeInput e passed s k).mem = s.mem := by
  dsimp only [takeInput]; split <;> simp

@[simp] theorem takeInputs_mem (e : Nat) (dq : BitVec 4) (passed : Option Nat) : (takeInputs s e dq passed).mem = s.mem := by simp [takeInputs]

/-! ### Channels -/

@[simp] theorem State.setIo_mem (u : UnitRef) (v : Ports) : (s.setIo u v).mem = s.mem := by cases u <;> rfl

@[simp] theorem State.sendOn_mem (ch : Nat) (t : Token) (dests : Nat) : (s.sendOn ch t dests).mem = s.mem := rfl

@[simp] theorem payOwed_mem (ch n : Nat) : (payOwed ch n s).mem = s.mem := by
  induction n generalizing s with
  | zero => rfl
  | succ n ih => simp [payOwed, ih]

@[simp] theorem oweOrder_mem (ch : Nat) : (oweOrder s ch).mem = s.mem := by simp [oweOrder]

@[simp] theorem State.putLink_mem (l : Nat) (k : Link) : (s.putLink l k).mem = s.mem := rfl

@[simp] theorem State.addToSnap_mem (u : UnitRef) (cut k : Nat) (t : InTok) : (s.addToSnap u cut k t).mem = s.mem := by
  dsimp only [State.addToSnap]; split <;> simp

@[simp] theorem arrive_mem (u : UnitRef) (k : Nat) (t : InTok) : (arrive s u k t).mem = s.mem := by simp [arrive]

/-! ### Flags -/

@[simp] theorem State.abort_mem (e slot : Nat) (a : Abort) : (s.abort e slot a).mem = s.mem := by
  unfold State.abort
  cases a <;> simp

@[simp] theorem fireValue_mem (e slot : Nat) (o : OpInfo) (x : Body) (res : Word) (cond : Bool) (fl : Num.Flags)
    (tag : BitVec 3) (post : Elem → Elem) (passed : Option Nat) :
    (fireValue s e slot o x res cond fl tag post passed).mem = s.mem := by simp [fireValue]

/-! ### Running a word -/

@[simp] theorem elemFire_mem {op : Nat} {x : Body} {s : State} {k : OpInfo → State} (h : ∀ o, (k o).mem = s.mem) :
    (elemFire op x s k).mem = s.mem := by
  dsimp only [elemFire]
  split <;> simp [h]

/-! ### Replies of engines -/

@[simp] theorem fireCommand_mem {s : State} {send : Nat → State → State} (h : ∀ t u, (send t u).mem = u.mem)
    (e slot : Nat) (o : OpInfo) (x : Body) (wide : Bool) :
    (fireCommand s e slot o x wide send).mem = s.mem := by
  simp [fireCommand, h]

/-! ### Combining registers -/

@[simp] theorem State.sendContrib_mem (hk k : Nat) (value : Option (Word × Nat × Nat)) (close : Bool) :
    (s.sendContrib hk k value close).mem = s.mem := rfl

@[simp] theorem contribAt_mem (hk k : Nat) (c : CombCmd) : (contribAt s hk k c).mem = s.mem := by simp [contribAt]

/-! ### Memory and the walk -/

@[simp] theorem State.dltSend_mem (dev place : Nat) (op : DltOp) (src : DltSrc) : (s.dltSend dev place op src).mem = s.mem := rfl

/-! ### Keystones -/

@[simp] theorem State.toPort_mem (e : Nat) (m : KsIn) : (s.toPort e m).mem = s.mem := by simp [State.toPort]

@[simp] theorem deliverReply_mem (r : KSrc × Token) : (deliverReply s r).mem = s.mem := by
  obtain ⟨src, t⟩ := r
  cases src with
  | port e target ticket => cases ticket <;> simp [deliverReply]
  | core c => rfl
  | remote id dev posted => cases posted <;> rfl

@[simp] theorem deliverApplied_mem (src : KSrc) : (deliverApplied s src).mem = s.mem := by
  cases src with
  | remote id dev posted => cases posted <;> rfl
  | _ => rfl

@[simp] theorem refuseUpdate_mem (ks : Nat) (k : Keystone) (a : KArr) : (refuseUpdate s ks k a).mem = s.mem := by
  dsimp only [refuseUpdate]; split <;> simp

@[simp] theorem ksArrive_mem (ks : Nat) (cmd : KCmd) (src : KSrc) : (ksArrive s ks cmd src).mem = s.mem := rfl

@[simp] theorem breakAll_mem (ks : Nat) : (breakAll s ks).mem = s.mem := by simp [breakAll]

@[simp] theorem ksSend_mem (e target : Nat) (cmd : KCmd) (ticket : Option Nat) : (ksSend s e target cmd ticket).mem = s.mem := by
  dsimp only [ksSend]
  (repeat' first | with_reducible refine mem_ite_eq ?_ ?_ | split) <;> rfl

@[simp] theorem sendPosted_mem (e : Nat) (ps : List Posted) (stuck : List Nat) : (sendPosted e ps stuck s).1.mem = s.mem := by
  induction ps generalizing stuck s with
  | nil => rfl
  | cons p rest ih => dsimp only [sendPosted]; split <;> simp [ih]

@[simp] theorem releasePosted_mem (n e : Nat) : (releasePosted n s e).mem = s.mem := by simp [releasePosted]

@[simp] theorem sendIrrev_mem (e : Nat) (i : Irrev) : (sendIrrev s e i).mem = s.mem := by simp [sendIrrev]

@[simp] theorem sendPort_mem (n e k : Nat) : (sendPort n e k s).mem = s.mem := by
  induction k generalizing s with
  | zero => rfl
  | succ k ih => dsimp only [sendPort]; split <;> simp [ih]

/-! ### Address generators, repeat nodes and schedule nodes -/

@[simp] theorem State.setGmeta_mem (p v : Nat) : (s.setGmeta p v).mem = s.mem := rfl

@[simp] theorem State.logMeta_mem (pk p cut : Nat) : (s.logMeta pk p cut).mem = s.mem := by simp [State.logMeta]

@[simp] theorem State.fillGranule_mem (pk cut p : Nat) : (s.fillGranule pk cut p).mem = s.mem := by simp [State.fillGranule]

@[simp] theorem State.fillReleased_mem (pk p : Nat) : (s.fillReleased pk p).mem = s.mem := by simp [State.fillReleased]

@[simp] theorem undoMeta_mem (r : Region) (n : Nat) : (undoMeta s r n).mem = s.mem := by
  dsimp only [undoMeta]
  induction r.metaLog with
  | nil => rfl
  | cons g l ih => simp [ih]

@[simp] theorem State.consumeGranule_mem (a p : Nat) : (s.consumeGranule a p).mem = s.mem := by simp [State.consumeGranule]

@[simp] theorem askWalk_mem (u : UnitRef) (ctx va : Nat) (write : Bool) : (askWalk s u ctx va write).mem = s.mem := by simp [askWalk]

@[simp] theorem State.agReport_mem (a code idx : Nat) : (s.agReport a code idx).mem = s.mem := by simp [State.agReport]

@[simp] theorem agTake_mem (a k : Nat) : (agTake s a k).mem = s.mem := by dsimp only [agTake]; split <;> rfl

@[simp] theorem loadAffine_mem (a : Nat) : (loadAffine s a).mem = s.mem := by
  dsimp only [loadAffine]
  (repeat' first | with_reducible refine mem_ite_eq ?_ ?_ | split) <;> rfl

@[simp] theorem moveOn_mem (a place : Nat) : (moveOn s a place).mem = s.mem := by dsimp only [moveOn]; split <;> simp

@[simp] theorem moveEnd_mem (a : Nat) : (moveEnd s a).mem = s.mem := by dsimp only [moveEnd]; split <;> simp

@[simp] theorem endIndexed_mem (a : Nat) : (endIndexed s a).mem = s.mem := by simp [endIndexed]

@[simp] theorem loadIndexed_mem (a : Nat) : (loadIndexed s a).mem = s.mem := by
  dsimp only [loadIndexed]
  (repeat' first | with_reducible refine mem_ite_eq ?_ ?_ | split) <;> simp

@[simp] theorem storeTo_mem (a : Nat) : (storeTo s a).1.mem = s.mem := by
  dsimp only [storeTo]
  (repeat' first | with_reducible refine mem_ite_eq ?_ ?_ | split) <;> simp

@[simp] theorem storeNext_mem (a : Nat) : (storeNext s a).mem = s.mem := by simp [storeNext]

@[simp] theorem State.agErr_mem (a : Nat) (t : Token) : (s.agErr a t).mem = s.mem := by simp [State.agErr]

@[simp] theorem storeData_mem (a : Nat) (t : Token) : (storeData s a t).mem = s.mem := by
  rcases h : storeTo s a with ⟨u, x⟩
  have target : u.mem = s.mem := by simpa [h] using storeTo_mem s a
  cases x <;> simp [storeData, h, target]

@[simp] theorem storeStep_mem (a n : Nat) : (storeStep a n s).mem = s.mem := by
  induction n generalizing s with
  | zero => rfl
  | succ n ih => cases h : (s.ag a).io.head? s.round 0 <;> simp [storeStep, h, ih]

@[simp] theorem State.readGood_mem (pk p n : Nat) : (s.readGood pk p n).mem = s.mem := by simp [State.readGood]

@[simp] theorem serveLoad_mem (a : Nat) (r : AgReq) : (serveLoad s a r).mem = s.mem := by simp [serveLoad]

@[simp] theorem serveBank_mem (order : List Nat) (tile bank : Nat) : (serveBank order tile s bank).mem = s.mem := by
  dsimp only [serveBank]
  refine foldl_mem (fun s a => ?_) _ _
  split <;> simp

@[simp] theorem serveTo_mem (tile k : Nat) : (serveTo s tile k).mem = s.mem := by simp [serveTo]

@[simp] theorem State.markConsume_mem (a p : Nat) : (s.markConsume a p).mem = s.mem := by simp [State.markConsume]

@[simp] theorem serveBefore_mem (a p : Nat) : (serveBefore s a p).mem = s.mem := by simp [serveBefore]

@[simp] theorem sendOrder_mem (a : Nat) : (sendOrder s a).mem = s.mem := by simp [sendOrder]

@[simp] theorem confirmStore_mem (a n : Nat) : (confirmStore s a n).mem = s.mem := by simp [confirmStore]

@[simp] theorem repTake_mem (pk k : Nat) : (repTake s pk k).mem = s.mem := by dsimp only [repTake]; split <;> rfl

@[simp] theorem State.repErr_mem (pk k : Nat) (t : Token) : (s.repErr pk k t).mem = s.mem := by simp [State.repErr]

@[simp] theorem repDrop_mem (pk : Nat) : (repDrop s pk).mem = s.mem := by simp [repDrop]

/-! ### Islands -/

@[simp] theorem fireToken_mem (e slot : Nat) (o : OpInfo) (x : Body) (payload : Dword) (form : BitVec 3) :
    (fireToken s e slot o x payload form).mem = s.mem := by simp [fireToken]

@[simp] theorem State.failed_mem (pk cut : Nat) (island : Bool) : (s.failed pk cut island).mem = s.mem := by simp [State.failed]

@[simp] theorem islandSend_mem (i : Nat) (w : Word) : (islandSend s i w).mem = s.mem := by simp [islandSend]

@[simp] theorem imageCorrected_mem (isl : Island) (k : Nat) : (imageCorrected s isl k).mem = s.mem := by simp [imageCorrected]

@[simp] theorem clearAhead_mem (i k n : Nat) : (clearAhead i k n s).mem = s.mem := by
  induction n generalizing s with
  | zero => rfl
  | succ fuel ih =>
    dsimp only [clearAhead]
    split
    · rfl
    · simp [ih]

@[simp] theorem operand_mem (i k fuel : Nat) : (operand i k fuel s).1.mem = s.mem := by dsimp only [operand]; split <;> simp

@[simp] theorem islandReport_mem (i k : Nat) (t : Token) : (islandReport s i k t).mem = s.mem := by simp [islandReport]

@[simp] theorem islandErr_mem (i k : Nat) (t : Token) : (islandErr s i k t).mem = s.mem := by simp [islandErr]

@[simp] theorem takeOperands_mem (i k : Nat) (ring : Bool) (es fuel n : Nat) (os : List Opnd) :
    (takeOperands i k ring es fuel n s os).1.mem = s.mem := by
  induction fuel generalizing n s os with
  | zero => rfl
  | succ fuel ih =>
    cases n with
    | zero => rfl
    | succ n =>
      rcases h : operand i k 16 (clearAhead i k 16 s) with ⟨t, x⟩
      have taken : t.mem = s.mem := by simpa [h] using operand_mem (clearAhead i k 16 s) i k 16
      cases x <;> simp [takeOperands, h, ih, taken, apply_ite Prod.fst]

@[simp] theorem takeCommand_mem (i : Nat) : (takeCommand s i).mem = s.mem := by dsimp only [takeCommand]; split <;> rfl

@[simp] theorem dropCommand_mem (i : Nat) (t : Token) : (dropCommand s i t).mem = s.mem := by dsimp only [dropCommand]; split <;> simp

@[simp] theorem finishAt_mem (i : Nat) (w : Word) : (finishAt s i w).mem = s.mem := rfl

@[simp] theorem mmaAtOnce_mem (i : Nat) (c : Dword) (status count : Nat) : (mmaAtOnce s i c status count).mem = s.mem := rfl

@[simp] theorem ringScan_mem (i mark fuel : Nat) : (ringScan i mark fuel s).1.mem = s.mem := by
  induction fuel generalizing s with
  | zero => rfl
  | succ fuel ih =>
    dsimp only [ringScan]
    split
    · simp
    · simp [apply_ite Prod.fst, ih]

@[simp] theorem startTransfer_mem (i : Nat) (need : SlotNeed) (asked : Bool) : (startTransfer s i need asked).mem = s.mem := by
  dsimp only [startTransfer]; split <;> rfl

@[simp] theorem acceptReady_mem (i : Nat) (c : Dword) : (acceptReady s i c).mem = s.mem := by
  dsimp only [acceptReady]
  cases slotNeed (s.island i) (mmaMark c) true <;> simp

@[simp] theorem acceptMma_mem (i : Nat) (c : Dword) : (acceptMma s i c).mem = s.mem := by
  rcases h : ringScan i (mmaMark c) 300 s with ⟨t, x⟩
  have scanned : t.mem = s.mem := by simpa [h] using ringScan_mem s i (mmaMark c) 300
  cases x <;> simp [acceptMma, h, scanned]

@[simp] theorem acceptFlush_mem (i : Nat) (c : Dword) : (acceptFlush s i c).mem = s.mem := by
  dsimp only [acceptFlush]
  (repeat' first | with_reducible refine mem_ite_eq ?_ ?_ | split) <;> simp

@[simp] theorem acceptSetup_mem (i : Nat) (c : Dword) : (acceptSetup s i c).mem = s.mem := by simp [acceptSetup]

@[simp] theorem acceptRelease_mem (i : Nat) (c : Dword) : (acceptRelease s i c).mem = s.mem := by simp [acceptRelease]

@[simp] theorem acceptSpill_mem (i : Nat) (c : Dword) : (acceptSpill s i c).mem = s.mem := by
  dsimp only [acceptSpill]
  (repeat' first | with_reducible refine mem_ite_eq ?_ ?_ | split) <;> simp

@[simp] theorem acceptBind_mem (i : Nat) (c : Dword) (re : Bool) : (acceptBind s i c re).mem = s.mem := by simp [acceptBind]

@[simp] theorem acceptFence_mem (i : Nat) (c : Dword) : (acceptFence s i c).mem = s.mem := by simp [acceptFence]

@[simp] theorem mmaIssue_mem (i : Nat) (m : Mma) : (mmaIssue s i m).mem = s.mem := by simp [mmaIssue]

@[simp] theorem islandContrib_mem (isl : Island) (m : Mma) : (islandContrib s isl m).mem = s.mem := by
  dsimp only [islandContrib]
  (repeat' first | with_reducible refine mem_ite_eq ?_ ?_ | split) <;> simp

@[simp] theorem mmaFinish_mem (i : Nat) : (mmaFinish s i).mem = s.mem := by
  dsimp only [mmaFinish]
  cases (s.island i).mmas with
  | nil => rfl
  | cons m rest =>
    dsimp only
    cases m.done <;> simp

@[simp] theorem bindTake_mem (i n : Nat) (ws : List (Option Dword)) : (bindTake s i n ws).1.mem = s.mem := by
  induction n generalizing s ws with
  | zero => rfl
  | succ n ih =>
    rcases h : operand i 1 16 s with ⟨t, x⟩
    have taken : t.mem = s.mem := by simpa [h] using operand_mem s i 1 16
    cases x <;> simp [bindTake, h, ih, taken]

@[simp] theorem bindStep_mem (i : Nat) (r : BindRun) : (bindStep s i r).mem = s.mem := by simp [bindStep]

@[simp] theorem islandEnd_mem (i : Nat) : (islandEnd s i).mem = s.mem := by
  dsimp only [islandEnd]
  split
  · rfl
  cases (s.island i).job with
  | flush vals free word => cases vals <;> simp
  | bind r => simp
  | _ => rfl

@[simp] theorem islandJob_mem (i : Nat) : (islandJob s i).mem = s.mem := by dsimp only [islandJob]; split <;> simp

@[simp] theorem discardTo_mem (i k n : Nat) : (discardTo i k n s).mem = s.mem := by
  induction n generalizing s with
  | zero => rfl
  | succ n ih =>
    rcases h : operand i k 16 s with ⟨t, x⟩
    have taken : t.mem = s.mem := by simpa [h] using operand_mem s i k 16
    cases x <;> simp [discardTo, h, ih, taken]

/-! ### Streamers and collectives -/

theorem workChunks_mem {α : Type} {go : State → α → Bool} {act : State × StXfer → α → State × StXfer}
    (h : ∀ r c, (act r c).1.mem = r.1.mem) (cs : List α) (r : State × StXfer) :
    (workChunks go act cs r).1.mem = r.1.mem := by
  induction cs generalizing r with
  | nil => rfl
  | cons c cs ih =>
    dsimp only [workChunks]
    split
    · simp [ih, h]
    · rfl

@[simp] theorem stFetch_mem (st id : Nat) (x : StXfer) (observe : Bool) (cs : List RdChunk) : (stFetch s st id x observe cs).1.mem = s.mem := by
  dsimp only [stFetch]
  exact workChunks_mem (by intro r c; split <;> simp) _ _

@[simp] theorem fillRest_mem (pk cut : Nat) (r : State × StXfer × Bool) : (fillRest pk cut r).1.mem = r.1.mem := by
  dsimp only [fillRest]
  split <;> simp

@[simp] theorem stcSend_mem (st form status : Nat) (fl : Num.Flags) (count : Nat) : (stcSend s st form status fl count).mem = s.mem := by
  simp [stcSend]

@[simp] theorem stcDone_mem (st : Nat) (c : SCmd) (status count : Nat) : (stcDone s st c status count).mem = s.mem := by simp [stcDone]

@[simp] theorem State.pump_mem (st : Nat) : (s.pump st).mem = s.mem := rfl

@[simp] theorem stTake_mem (st : Nat) : (stTake s st).mem = s.mem := by dsimp only [stTake]; split <;> rfl

@[simp] theorem acceptCmd_mem (st form : Nat) (word : Dword) : (acceptCmd s st form word).mem = s.mem := by dsimp only [acceptCmd]; split <;> simp

@[simp] theorem State.stErr_mem (st k : Nat) (t : Token) : (s.stErr st k t).mem = s.mem := by simp [State.stErr]

@[simp] theorem finishXfer_mem (st : Nat) (t : Streamer) (c : SCmd) : (finishXfer s st t c).mem = s.mem := by simp [finishXfer]

@[simp] theorem modXfer_mem (st id : Nat) (f : StXfer → StXfer) : (modXfer s st id f).mem = s.mem := by
  dsimp only [modXfer]; split <;> split <;> rfl

@[simp] theorem stReadAnswer_mem (st id off n : Nat) (ans : DltAns) : (stReadAnswer s st id off n ans).mem = s.mem := by simp [stReadAnswer]

@[simp] theorem stWriteAnswer_mem (st id off n : Nat) (ans : DltAns) : (stWriteAnswer s st id off n ans).mem = s.mem := by simp [stWriteAnswer]

@[simp] theorem drainEvicts_mem (st : Nat) : (drainEvicts s st).mem = s.mem := by simp [drainEvicts]

@[simp] theorem sendHop_mem (st : Nat) (t : Streamer) (h : Hop) : (sendHop s st t h).mem = s.mem := by simp [sendHop]

@[simp] theorem bucketUp_mem (st b : Nat) (d : BuckDecl) (r : BuckRun) (c k p : Nat) : (bucketUp s st b d r c k p).mem = s.mem := by
  dsimp only [bucketUp]
  (repeat' first | with_reducible refine mem_ite_eq ?_ ?_ | split) <;> simp

@[simp] theorem bucketDown_mem (st b : Nat) (r : BuckRun) (c k p : Nat) : (bucketDown s st b r c k p).mem = s.mem := by
  dsimp only [bucketDown]; split <;> simp

@[simp] theorem bucketEnd_mem (st b : Nat) (r : BuckRun) : (bucketEnd s st b r).mem = s.mem := rfl

/-! ### The ends of launches -/

@[simp] theorem wqDrop_mem (q : Nat) : (wqDrop s q).mem = s.mem := by simp [wqDrop]

@[simp] theorem scrubBanks_mem (tile : Nat) (which : Nat × Nat → Bool) : (scrubBanks s tile which).mem = s.mem := rfl

@[simp] theorem clearPlanes_mem (pks : List Nat) : (clearPlanes s pks).mem = s.mem := by simp [clearPlanes]

@[simp] theorem unbind_mem (ranges : List Nat) : (unbind s ranges).mem = s.mem := by
  dsimp only [unbind]
  refine foldl_mem (fun s a => ?_) _ _
  simp

@[simp] theorem countLeft_mem (r : Region) (left : Nat × Nat × Nat) : (countLeft s r left).mem = s.mem := by dsimp only [countLeft]; split <;> rfl

@[simp] theorem freeRegion_mem (rk : Nat) : (freeRegion s rk).mem = s.mem := by simp [freeRegion]

@[simp] theorem Saved.view_mem (v : Saved) : (Saved.view v s).mem = s.mem := rfl

@[simp] theorem dropSaved_mem (key : Nat) : (dropSaved s key).mem = s.mem := by dsimp only [dropSaved]; split <;> simp

@[simp] theorem noteCause_mem (l cause : Nat) : (noteCause s l cause).mem = s.mem := by simp [noteCause]

/-! ### Cuts and rollbacks -/

@[simp] theorem saveUnit_mem (r : Region) (u : UnitRef) (n : Nat) : (saveUnit s r u n).mem = s.mem := by dsimp only [saveUnit]; split <;> rfl

@[simp] theorem schedFlight_mem (pk n e : Nat) : (schedFlight s pk n e).mem = s.mem := by simp [schedFlight]

@[simp] theorem passMarkers_mem (u : UnitRef) (n : Nat) : (passMarkers s u n).mem = s.mem := by
  dsimp only [passMarkers]
  exact (foldl_mem (by intros; rfl) _ _).trans (State.setIo_mem _ _ _)

@[simp] theorem afterSnap_mem (u : UnitRef) : (afterSnap s u).mem = s.mem := by cases u <;> rfl

@[simp] theorem saveAll_mem (rk n : Nat) : (saveAll s rk n).mem = s.mem := by simp [saveAll]

@[simp] theorem seedMarker_mem (rk p : Nat) : (seedMarker rk s p).mem = s.mem := by simp [seedMarker]

@[simp] theorem settleEngine_mem (n : Nat) (u : UnitRef) : (settleEngine n s u).mem = s.mem := by cases u <;> rfl

@[simp] theorem settleMreg_mem (r : Region) (n hk : Nat) : (settleMreg r n s hk).mem = s.mem := by
  dsimp only [settleMreg]
  exact foldl_mem (by intros; rfl) _ _

@[simp] theorem releasePort_mem (n e : Nat) : (releasePort n s e).mem = s.mem := by simp [releasePort]

@[simp] theorem releaseReports_mem (n rk : Nat) : (releaseReports n s rk).mem = s.mem := by dsimp only [releaseReports]; split <;> rfl

@[simp] theorem elementDrains_mem (e : Nat) : (elementDrains s e).mem = s.mem := by
  dsimp only [elementDrains]
  exact (foldl_mem (by intros; rfl) _ _).trans rfl

@[simp] theorem passDrain_mem (u : UnitRef) : (passDrain s u).mem = s.mem := by simp [passDrain]

@[simp] theorem freeSlots_mem (r : Region) (a : UnitRef) : (freeSlots s r a).mem = s.mem := by
  dsimp only [freeSlots]
  (repeat' first | with_reducible refine mem_ite_eq ?_ ?_ | split) <;> rfl

@[simp] theorem restoreUnit_mem (n : Nat) (u : UnitRef) : (restoreUnit n s u).mem = s.mem := by
  dsimp only [restoreUnit]
  cases (snapOf s u n).map (·.val) with
  | none => rfl
  | some v => cases v <;> cases u <;> rfl

@[simp] theorem restoreMreg_mem (r : Region) (n hk : Nat) : (restoreMreg r n s hk).mem = s.mem := by
  dsimp only [restoreMreg]
  exact foldl_mem (by intros; rfl) _ _

@[simp] theorem restoreChan_mem (ch : Nat) : (restoreChan s ch).mem = s.mem := by simp [restoreChan]

@[simp] theorem dropReads_mem (r : Region) : (dropReads s r).mem = s.mem := rfl

@[simp] theorem restoreCut_mem (rk : Nat) : (restoreCut s rk).mem = s.mem := by simp [restoreCut]

@[simp] theorem dropShadow_mem (pk : Nat) : (dropShadow s pk).mem = s.mem := rfl

/-! ### Configuration and status space -/

@[simp] theorem writeRange_mem (ks : Nat) (v : Word) : (writeRange s ks v).mem = s.mem := by simp [writeRange]

@[simp] theorem retireTile_mem (tile : Nat) : (retireTile s tile).mem = s.mem := by simp [retireTile]

@[simp] theorem noteRetired_mem (d : Nat) : (noteRetired s d).mem = s.mem := by simp [noteRetired]

@[simp] theorem coreMeta_mem (p : Nat) : (coreMeta s p).mem = s.mem := by
  unfold coreMeta
  refine foldl_mem (fun s a => ?_) _ _
  dsimp only
  split <;> simp

@[simp] theorem writeMeta_mem (tile g : Nat) (v : Word) : (writeMeta s tile g v).mem = s.mem := by simp [writeMeta]

@[simp] theorem cfgStoreWord_mem (pk unit off : Nat) (v : Word) : (cfgStoreWord s pk unit off v).mem = s.mem := by
  refine dite (unit < 16) (fun h => (congrArg State.mem (if_pos h)).trans rfl) fun h => (congrArg State.mem (if_neg h)).trans ?_
  obtain ⟨k, rfl⟩ := Nat.exists_eq_add_of_le' (Nat.not_lt.1 h)
  clear h
  rcases k with _ | _ | _ | _ | _ | _ | _ | _ | k
  iterate 5 rfl
  · exact mem_ite_eq rfl (writeRange_mem _ _ _)
  · rfl
  · exact mem_ite_eq rfl (mem_ite_eq (retireTile_mem _ _) (mem_ite_eq (writeMeta_mem _ _ _ _) rfl))
  · rfl

@[simp] theorem shadowStore_mem (pk unit off : Nat) (v : Dword) : (shadowStore s pk unit off v).mem = s.mem := by simp [shadowStore]

@[simp] theorem cfgStore_mem (p width v : Nat) : ∀ t, (cfgStore s p width v) = some t → t.mem = s.mem := by dsimp only [cfgStore]; split <;> simp

@[simp] theorem runWrite_mem (c : Nat) (v : Dword) : (runWrite s c v).mem = s.mem := by
  dsimp only [runWrite]
  cases (s.core c).run <;> simp

@[simp] theorem attestGo_mem : (attestGo s).mem = s.mem := by simp [attestGo]

@[simp] theorem linkCtl_mem (l : Nat) (v : Dword) : (linkCtl s l v).mem = s.mem := rfl

@[simp] theorem statusStore_mem (d block off : Nat) (v : Dword) : (statusStore s d block off v).mem = s.mem := by
  rcases block with _ | _ | _ | _ | _ | _ | _ | _ | _ | _ | _ | block
  · refine mem_ite_eq rfl ?_
    generalize off % 64 / 8 = k
    rcases k with _ | _ | k
    · exact runWrite_mem _ _ _
    · rfl
    · rfl
  · exact mem_ite_eq rfl rfl
  · exact mem_ite_eq rfl (mem_ite_eq rfl rfl)
  · exact mem_ite_eq rfl rfl
  · conv_lhs => arg 1; whnf
    generalize off / 8 = k
    rcases k with _ | _ | _ | _ | _ | k <;> rfl
  · exact mem_ite_eq rfl (mem_ite_eq (mem_ite_eq (linkCtl_mem _ _ _) rfl) (mem_ite_eq rfl (mem_ite_eq rfl rfl)))
  · exact mem_ite_eq rfl rfl
  · rfl
  · rfl
  · exact mem_ite_eq rfl rfl
  · exact mem_ite_eq rfl (mem_ite_eq (attestGo_mem _) rfl)
  · rfl

@[simp] theorem statusWrite_mem (p width v : Nat) : (statusWrite s p width v).mem = s.mem := by simp [statusWrite]

/-! ### Commit waves -/

@[simp] theorem takeBlock_mem (pk : Nat) (header : Dword) (body : List Dword) : (takeBlock s pk header body).mem = s.mem := rfl

@[simp] theorem portWrite_mem (pk : Nat) (d : Dword) : (portWrite s pk d).mem = s.mem := by simp [portWrite]

@[simp] theorem swapMeta_mem (tile : Nat) (m : Sparse Dword) : (swapMeta s tile m).mem = s.mem := by simp [swapMeta]

@[simp] theorem swapTile_mem (pk : Nat) : (swapTile s pk).mem = s.mem := by
  dsimp only [swapTile]
  cases Key.engineAt pk false <;> cases Key.engineAt pk true <;> simp -implicitDefEqProofs

@[simp] theorem wireChannels_mem (rk : Nat) : (wireChannels s rk).mem = s.mem := by
  dsimp only [wireChannels]
  rw [foldl_mem, foldl_mem (by intros; simp), foldl_mem (by intros; simp)]
  intro s u; split <;> simp

@[simp] theorem wireMreg_mem (rk : Nat) (d : MregDecl) : (wireMreg rk s d).mem = s.mem := by
  dsimp only [wireMreg]
  rw [State.setRegion_mem, foldl_mem (by intros; simp), State.setHome_mem, foldl_mem (by intros; rfl)]

@[simp] theorem wireTarget_mem (rk ctx : Nat) (d : TargetDecl) : (wireTarget rk ctx s d).mem = s.mem := by
  dsimp only [wireTarget]
  (repeat' first | with_reducible refine mem_ite_eq ?_ ?_ | split) <;> rfl

@[simp] theorem commitCheck_mem (r : Region) : (commitCheck s r).1.mem = s.mem := by
  dsimp only [commitCheck]
  refine foldl_mem (fun s a => ?_) _ _
  simp

/-! ### Pre-emption and saved regions -/

@[simp] theorem freezeRegion_mem (rk : Nat) : (freezeRegion s rk).mem = s.mem := by simp [freezeRegion]

@[simp] theorem thawRegion_mem (rk : Nat) : (thawRegion s rk).mem = s.mem := by
  dsimp only [thawRegion]
  split
  · rfl
  · rw [State.setRegion_mem, foldl_mem, foldl_mem, foldl_mem]
    · intros; rfl
    · intro s u; split <;> rfl
    · intro s h; split <;> rfl

@[simp] theorem moveHeld_mem (target : Nat → Option Nat) : (moveHeld s target).mem = s.mem := rfl

@[simp] theorem vacate_mem (rk : Nat) : (vacate s rk).mem = s.mem := by simp [vacate]

@[simp] theorem probeRegion_mem (rk : Nat) : (probeRegion s rk).1.mem = s.mem := by dsimp only [probeRegion]; split <;> rfl

/-! ### Images -/

@[simp] theorem writeBlocks_mem (r : Region) (m : Maps) (c : CourseRec) : (writeBlocks s r m c).mem = s.mem := by
  dsimp only [writeBlocks]
  refine foldl_mem (fun s a => ?_) _ _
  simp

/-! ### Links -/

@[simp] theorem startRetrain_mem (l : Nat) : (startRetrain s l).mem = s.mem := rfl

@[simp] theorem noteRetrain_mem (l : Nat) : (noteRetrain s l).mem = s.mem := by
  unfold noteRetrain
  refine foldl_mem (fun s a => ?_) _ _
  dsimp only
  split <;> simp

@[simp] theorem noteSpares_mem (l : Nat) : (noteSpares s l).mem = s.mem := by
  dsimp only [noteSpares]
  split
  · exact foldl_mem (by intros; rfl) _ _
  · rfl

/-! ### Memory accesses of mason cores -/

@[simp] theorem askRemote_mem (c place : Nat) (op : DltOp) (p : CorePend) : (askRemote s c place op p).mem = s.mem := rfl

/-! ### System words of mason cores -/

@[simp] theorem spanOf_mem (c : Nat) (write : Bool) (fuel : Nat) (addr : Dword) (n : Nat) : (spanOf c write fuel s addr n).1.mem = s.mem := by
  induction fuel generalizing s addr n with
  | zero => rfl
  | succ k ih =>
    rcases h : resolve s c addr (!write) write with ⟨t, x⟩
    have here : t.mem = s.mem := by simpa [h] using resolve_mem s c addr (!write) write
    by_cases done : n = 0
    · simp [spanOf, done]
    · cases x <;> simp only [spanOf, done, h, here, if_false]
      case place p =>
        cases pieceBad t p
        · dsimp only
          split
          · exact here
          · split
            · rename_i tail
              simpa [ih, here] using (congrArg (·.1.mem) tail).symm
            · simp [ih, here]
        · exact here

@[simp] theorem takeTurns_mem (ps : List (Nat × Nat)) : (takeTurns s ps).mem = s.mem := by simp [takeTurns]

@[simp] theorem startCommit_mem (rk : Nat) (r : Region) : (startCommit s rk r).mem = s.mem := rfl

@[simp] theorem popEvent_mem (die : Nat) : (popEvent s die).mem = s.mem := by dsimp only [popEvent]; split <;> rfl

@[simp] theorem dropLeaves_mem (va sel : Nat) : (dropLeaves s va sel).mem = s.mem := rfl

/-! ### Launches -/

@[simp] theorem enterFrame_mem (r : Region) : (enterFrame s r).mem = s.mem := by
  unfold enterFrame
  refine foldl_mem (fun s die => ?_) _ _
  dsimp only
  split
  · rfl
  · cases (List.range 64).find? fun k => !((s.die die).frame.get 0 k).getLsbD 63 with
    | none => rfl
    | some k => exact State.setDie_mem _ _ _

@[simp] theorem grantBanks_mem (r : Region) (l course : Nat) : (grantBanks s r l course).mem = s.mem := by
  dsimp only [grantBanks]
  refine foldl_mem (fun s a => ?_) _ _
  simp

@[simp] theorem writeCourse_mem (l plane : Nat) (m : Maps) (c : CourseRec) (extra : List Dword) (ld : Load) :
    (writeCourse s l plane m c extra ld).1.mem = s.mem := by simp [writeCourse]

@[simp] theorem releaseVictim_mem (l : Nat) : (releaseVictim s l).mem = s.mem := by dsimp only [releaseVictim]; split <;> simp

@[simp] theorem admitLaunch_mem (l plane : Nat) (m : Maps) (places : List Nat) (c : CourseRec) (extra : List Dword) (ld : Load) :
    (admitLaunch s l plane m places c extra ld).mem = s.mem := by simp [admitLaunch]

theorem pinEvent_mem {s t : State} {r : Region} {ctx n : Nat} {a : PinErr} (h : pinEvent s r ctx a = some (n, t)) : t.mem = s.mem := by
  cases a <;> cases h <;> rfl

@[simp] theorem seedLeave_mem (rk : Nat) (ended : Bool) (p : Nat) : (seedLeave rk ended s p).mem = s.mem := by
  dsimp only [seedLeave]; split <;> simp

@[simp] theorem seedInject_mem (rk : Nat) : (seedInject s rk).mem = s.mem := by
  dsimp only [seedInject]
  (repeat' first | with_reducible refine mem_ite_eq ?_ ?_ | split) <;> rfl

@[simp] theorem retireCourse_mem (l : Nat) : (retireCourse s l).mem = s.mem := by
  dsimp only [retireCourse]
  cases (s.launch l).region with
  | none => rfl
  | some rk => cases (s.launch l).next <;> simp

/-! ### Control words of mason cores -/

@[simp] theorem sysWrite_mem (c n : Nat) (v : Dword) : (sysWrite s c n v).mem = s.mem := by
  rcases n with _ | _ | _ | _ | _ | _ | _ | _ | _ | _ | _ | n
  iterate 9 rfl
  · exact mem_ite_eq rfl rfl
  · rfl
  · rfl

@[simp] theorem takeEvent_mem (c : Nat) : (takeEvent s c).mem = s.mem := by simp [takeEvent]

@[simp] theorem resumeCore_mem (c : Nat) : (resumeCore s c).mem = s.mem := rfl

@[simp] theorem sevAll_mem (die : Nat) : (sevAll s die).mem = s.mem := by
  dsimp only [sevAll]
  exact foldl_mem (by intros; rfl) _ _

@[simp] theorem State.fillLineOf_mem (c line : Nat) (bytes : List Byte) : (s.fillLineOf c line bytes).mem = s.mem := rfl

@[simp] theorem fetchCached_mem (c p : Nat) : (fetchCached s c p).1.mem = s.mem := by
  dsimp only [fetchCached]
  (repeat' first | with_reducible refine mem_ite_eq ?_ ?_ | split) <;> simp

@[simp] theorem fetchAt_mem (c : Nat) : (fetchAt s c).1.mem = s.mem := by
  rcases h : resolve s c (s.core c).pc true false with ⟨t, x⟩
  have here : t.mem = s.mem := by simpa [h] using resolve_mem s c (s.core c).pc true false
  cases x <;> simp [fetchAt, h, here, apply_ite Prod.fst]
  case place p => cases readPlace t p 8 <;> simp [here]

/-! ### Requests of other devices -/

@[simp] theorem answerTo_mem (q : DltIn) (a : DltAns) : (answerTo s q a).mem = s.mem := rfl

@[simp] theorem coreAnswer_mem (c place : Nat) (op : DltOp) (a : DltAns) : (coreAnswer s c place op a).mem = s.mem := by
  dsimp only [coreAnswer]
  (repeat' first | with_reducible refine mem_ite_eq ?_ ?_ | split) <;> simp

/-! ### The device -/

@[simp] theorem replyTo_mem (m : HostMsg) (r : HostReply) : (replyTo s m r).mem = s.mem := rfl

/-! ### Engine words of mason cores -/

@[simp] theorem islandWrite_mem (i kind index : Nat) (v : Dword) : (islandWrite s i kind index v).mem = s.mem := by
  rcases kind with _ | _ | _ | _ | _ | _ | _ | kind <;> rfl

/-! ### Step -/

end
end Sys2Proof.Machine
end

section
/-! PROOFS. The canonical form of memory (log 5), which every write of memory keeps (R176, R183, R300). -/

namespace Sys2Proof.Machine

/-- The outcome's next state, if it has one, holds memory in its canonical form. -/
def CoreRes.Canonical : CoreRes → Prop
  | .done t => Memory.wf t.mem = true
  | .trap _ _ _ => True

/-- The next state of an outcome, if it has one, holds memory in its canonical form. -/
def Out.Canonical : Out → Prop
  | .next t => Memory.wf t.mem = true
  | .fault _ => True
  | .refused _ => True

@[simp] theorem wf_ite (c : Prop) [Decidable c] (m n : Sparse Byte) :
    Memory.wf (if c then m else n) = true ↔ if c then Memory.wf m = true else Memory.wf n = true := by split <;> rfl

@[simp] theorem Out.canonical_next (t : State) : Out.Canonical (.next t) ↔ Memory.wf t.mem = true := Iff.rfl

@[simp] theorem CoreRes.canonical_done (t : State) : (CoreRes.done t).Canonical ↔ Memory.wf t.mem = true := Iff.rfl

@[simp] theorem CoreRes.canonical_trap (cause detail : Nat) (v : Dword) : (CoreRes.trap cause detail v).Canonical := trivial

/-- A state with the memory of a canonical one is canonical. -/
theorem wf_of_mem {t u : State} (h : t.mem = u.mem) (w : Memory.wf u.mem = true) : Memory.wf t.mem = true :=
  (congrArg Memory.wf h).trans w

theorem canonical_next_of {t : State} (h : Memory.wf t.mem = true) : Out.Canonical (.next t) := h

theorem wf_mem_ite {c : Prop} [Decidable c] {t u : State} (ht : Memory.wf t.mem = true) (hu : Memory.wf u.mem = true) :
    Memory.wf (if c then t else u).mem = true := by split <;> assumption

theorem wf_fst_ite {β : Type} {c : Prop} [Decidable c] {t u : State × β} (ht : Memory.wf t.1.mem = true) (hu : Memory.wf u.1.mem = true) :
    Memory.wf (if c then t else u).1.mem = true := by split <;> assumption

theorem wf_pair {β : Type} {t : State} (h : Memory.wf t.mem = true) (b : β) : Memory.wf (t, b).1.mem = true := h

theorem foldl_wf {α : Type} {f : State → α → State} (h : ∀ s a, Memory.wf s.mem = true → Memory.wf (f s a).mem = true) (l : List α)
    {s : State} (w : Memory.wf s.mem = true) : Memory.wf (l.foldl f s).mem = true := by
  induction l generalizing s with
  | nil => exact w
  | cons a l ih => exact ih (h s a w)

theorem workChunks_wf {α : Type} {go : State → α → Bool} {act : State × StXfer → α → State × StXfer}
    (h : ∀ r c, Memory.wf r.1.mem = true → Memory.wf (act r c).1.mem = true) (cs : List α) {r : State × StXfer}
    (w : Memory.wf r.1.mem = true) : Memory.wf (workChunks go act cs r).1.mem = true := by
  induction cs generalizing r with
  | nil => exact w
  | cons c cs ih =>
    dsimp only [workChunks]
    split
    · exact ih (h r c w)
    · exact w

section

variable {s : State} (w : Memory.wf s.mem = true)

include w

theorem coreStep_canonical (op : Nat) (x : Body) (c : Nat) {k : Core → CoreRes} (h : (k (s.core c)).Canonical) :
    Memory.wf (coreStep op x s c k).mem = true := by
  dsimp only [coreStep]
  cases opInfo op x with
  | none => simpa using w
  | some o =>
    dsimp only
    split
    · simpa using w
    · split
      · exact w
      · split <;> rename_i hk
        · rwa [hk] at h
        · simpa using w

/-- A word of either unit keeps the canonical form when its meaning on each unit does. -/
theorem runShared_canonical (op : Nat) (x : Body) {el : Nat → Nat → OpInfo → State} {co : Nat → Core → CoreRes}
    (hel : ∀ e slot o, (el e slot o).mem = s.mem) (hco : ∀ c k, (co c k).Canonical) : (runShared op x s el co).Canonical := by
  dsimp only [runShared]
  split
  · simpa [hel] using w
  · exact coreStep_canonical w op x _ (hco _ _)

theorem runElem_canonical (op : Nat) (x : Body) {el : Nat → Nat → OpInfo → State} (hel : ∀ e slot o, (el e slot o).mem = s.mem) :
    (runElem op x s el).Canonical := runShared_canonical w op x hel fun _ _ => w

theorem runCore_canonical (op : Nat) (x : Body) {co : Nat → Core → CoreRes} (hco : ∀ c k, (co c k).Canonical) :
    (runCore op x s co).Canonical := by
  dsimp only [runCore]
  split
  · trivial
  · exact coreStep_canonical w op x _ (hco _ _)

theorem runSys_canonical (op : Nat) (f : BitVec 3) (x : EA) {k : Nat → Body → Dword → Dword → CoreRes}
    (h : ∀ c y a b, (k c y a b).Canonical) : (runSys op f x s k).Canonical := runCore_canonical w _ _ fun _ _ => h _ _ _ _

end

@[simp] theorem hold_canonical (s : State) (c : Nat) : (hold s c).Canonical ↔ Memory.wf s.mem = true := Iff.rfl

@[simp] theorem coreWrite_canonical (s : State) (c : Nat) (k : Core) (x : Body) (v : Dword) (b : Bool) :
    (coreWrite s c k x v b).Canonical ↔ Memory.wf s.mem = true := Iff.rfl

@[simp] theorem coreNext_canonical (s : State) (c : Nat) (y : Body) : (coreNext s c y).Canonical ↔ Memory.wf s.mem = true := Iff.rfl

@[simp] theorem ret_canonical (s : State) (c : Nat) (y : Body) (v : Nat) : (ret s c y v).Canonical ↔ Memory.wf s.mem = true := Iff.rfl

@[simp] theorem trapAt_canonical (cause detail : Nat) (a v : Dword) : (trapAt cause detail a v).Canonical := trivial

@[simp] theorem askOperand_canonical (s : State) (c place : Nat) (op : DltOp) (a : Dword) (cause : Nat) :
    (askOperand s c place op a cause).Canonical ↔ Memory.wf s.mem = true := Iff.rfl

@[simp] theorem served_canonical (ps : List (Nat × Nat)) (r : CoreRes) : (r.served ps).Canonical ↔ r.Canonical := by
  cases r <;> simp [CoreRes.served]

@[simp] theorem canonical_ite (c : Prop) [Decidable c] (r q : CoreRes) :
    (if c then r else q).Canonical ↔ if c then r.Canonical else q.Canonical := by split <;> rfl

theorem withRead_canonical {s : State} (w : Memory.wf s.mem = true) (c : Nat) (addr : Dword) (n : Nat) {k : State → List Byte → CoreRes}
    (h : ∀ t bs, Memory.wf t.mem = true → (k t bs).Canonical) : (withRead s c addr n k).Canonical := by
  rcases e : spanOf c false (n / 65536 + 2) s addr n with ⟨t, x⟩
  have wt : Memory.wf t.mem = true := by simpa [e, w] using congrArg Memory.wf (spanOf_mem s c false (n / 65536 + 2) addr n)
  cases x <;> simp only [withRead, e, hold_canonical, CoreRes.canonical_trap, wt]
  split <;> simp [wt, h]

theorem withWrite_canonical {s : State} (w : Memory.wf s.mem = true) (c : Nat) (addr : Dword) (bytes : List Byte) {k : State → CoreRes}
    (h : ∀ t, Memory.wf t.mem = true → (k t).Canonical) : (withWrite s c addr bytes k).Canonical := by
  rcases e : spanOf c true (bytes.length / 65536 + 2) s addr bytes.length with ⟨t, x⟩
  have wt : Memory.wf t.mem = true := by
    simpa [e, w] using congrArg Memory.wf (spanOf_mem s c true (bytes.length / 65536 + 2) addr bytes.length)
  cases x <;> simp only [withWrite, e, hold_canonical, CoreRes.canonical_trap, wt]
  split
  · exact wt
  · simp only [canonical_ite, hold_canonical, wt, served_canonical]
    split
    · trivial
    · refine h _ (foldl_wf (fun u p wu => ?_) _ wt)
      split
      · exact State.wf_setBytes _ _ wu
      · exact wu

section
variable {s : State} (w : Memory.wf s.mem = true)
include w

/-! ### Channels -/

theorem execOutputTokenAccept_canonical (ch : Nat) : Out.Canonical (execOutputTokenAccept ch s) := by
  dsimp only [execOutputTokenAccept]
  (repeat' first | with_reducible refine wf_mem_ite ?_ ?_ | with_reducible refine canonical_next_of ?_ | split) <;> simp [w]

theorem execTokenReceipt_canonical (ch dst : Nat) : Out.Canonical (execTokenReceipt ch dst s) := by
  dsimp only [execTokenReceipt]
  cases (s.chan ch).flight.find? (·.dst == dst) <;> try exact w
  cases (chanDests s ch)[dst]? <;> simp [w]

theorem execCreditReturn_canonical (ch : Nat) : Out.Canonical (execCreditReturn ch s) := by simp [execCreditReturn, w]

/-! ### Running a word -/

theorem runAlu_canonical (op : Nat) (x : EA) (f : BitVec 3) (g : (w : Nat) → BitVec w → BitVec w → BitVec w) :
    Out.Canonical (runAlu op x f g s) := by
  dsimp only [runAlu]
  exact runShared_canonical w _ _ (by intros; simp) (by intros; simp [w])

theorem runAluImm_canonical (op : Nat) (x : EI) (g : (w : Nat) → BitVec w → BitVec w → BitVec w) :
    Out.Canonical (runAluImm op x g s) := by
  dsimp only [runAluImm]
  exact runShared_canonical w _ _ (by intros; simp) (by intros; simp [w])

theorem runPacked_canonical (op : Nat) (x : EA) (f : BitVec 3) (g : Word → Word → Word) : Out.Canonical (runPacked op x f g s) := by
  dsimp only [runPacked]
  exact runElem_canonical w _ _ (by intros; simp)

/-! ### Combining registers -/

theorem runContrib_canonical (op : Nat) (x : EC) (value close : Bool) : Out.Canonical (runContrib op x value close s) := by
  unfold runContrib
  refine runElem_canonical w _ _ fun e slot o => ?_
  dsimp only
  (repeat' first | with_reducible refine mem_ite_eq ?_ ?_ | split) <;> simp

theorem runHome_canonical (op : Nat) (x : EC) {k : Nat → Nat → OpInfo → Nat → State} (h : ∀ e slot o hk, (k e slot o hk).mem = s.mem) :
    Out.Canonical (runHome op x s k) := by
  dsimp only [runHome]
  refine runElem_canonical w _ _ fun e slot o => ?_
  cases homeKey s e x.m <;> simp [h]

theorem execSettle_canonical (x : EC) : Out.Canonical (execSettle x s) :=
  runHome_canonical w _ _ (by intros; simp -implicitDefEqProofs)

theorem execPeek_canonical (x : EC) : Out.Canonical (execPeek x s) :=
  runHome_canonical w _ _ (by intros; simp -implicitDefEqProofs)

theorem execCstat_canonical (x : EC) : Out.Canonical (execCstat x s) :=
  runHome_canonical w _ _ (by intros; simp -implicitDefEqProofs)

theorem execCpoll_canonical (x : EC) : Out.Canonical (execCpoll x s) :=
  runHome_canonical w _ _ (by intros; simp -implicitDefEqProofs)

theorem execCrst_canonical (x : EC) : Out.Canonical (execCrst x s) :=
  runHome_canonical w _ _ (by intros; simp -implicitDefEqProofs)

theorem execContribLocal_canonical (h k : Nat) : Out.Canonical (execContribLocal h k s) := by
  dsimp only [execContribLocal]
  (repeat' first | with_reducible refine wf_mem_ite ?_ ?_ | with_reducible refine canonical_next_of ?_ | split) <;> simp [w]

theorem execCloseNotice_canonical (h k : Nat) : Out.Canonical (execCloseNotice h k s) := by
  dsimp only [execCloseNotice]
  cases (s.home h).toHome.get [] k with
  | nil => exact w
  | cons m rest =>
    cases m with
    | notice due =>
      cases (s.home h).op with
      | none => simp [w]
      | some op => cases op <;> simp [w]
    | ack => exact w

theorem execGatherIssue_canonical (h : Nat) : Out.Canonical (execGatherIssue h s) := by
  dsimp only [execGatherIssue]
  cases (s.home h).op with
  | none => exact w
  | some op =>
    cases op with
    | read peek t fired issued parts => cases issued <;> simp [w]
    | reset => exact w

theorem execGatherRead_canonical (h k : Nat) : Out.Canonical (execGatherRead h k s) := by
  dsimp only [execGatherRead]
  cases (s.home h).op with
  | none => exact w
  | some op =>
    cases op with
    | read peek t fired issued parts => cases issued <;> simp [w]
    | reset => exact w

theorem execSettleReply_canonical (h : Nat) : Out.Canonical (execSettleReply h s) := by
  dsimp only [execSettleReply]
  (repeat' first | with_reducible refine wf_mem_ite ?_ ?_ | with_reducible refine canonical_next_of ?_ | split) <;> exact w

theorem execResetArrival_canonical (h k : Nat) : Out.Canonical (execResetArrival h k s) := by
  dsimp only [execResetArrival]
  (repeat' first | with_reducible refine wf_mem_ite ?_ ?_ | with_reducible refine canonical_next_of ?_ | split) <;> exact w

theorem execResetAck_canonical (h k : Nat) : Out.Canonical (execResetAck h k s) := by
  dsimp only [execResetAck]
  cases (s.home h).op with
  | none => exact w
  | some op =>
    cases (s.home h).toHome.get [] k with
    | nil => cases op <;> exact w
    | cons m rest => cases op <;> cases m <;> simp [w]

/-! ### Schedulers -/

theorem execResultLands_canonical (e : Nat) : Out.Canonical (execResultLands e s) := by
  dsimp only [execResultLands]
  rw [Out.canonical_next, foldl_mem]
  · exact w
  · intro s l
    cases l.ev <;> rfl

/-! ### Memory and the walk -/

@[simp] theorem State.write_wf (p n v : Nat) : Memory.wf (s.write p n v).mem = true :=
  State.wf_write _ _ _ w

/-! ### Keystones -/

@[simp] theorem State.setKeystoneWord_wf (ks idx : Nat) (v : Word) : Memory.wf (s.setKeystoneWord ks idx v).mem = true := by
  dsimp only [State.setKeystoneWord]
  split <;> simp [w]

@[simp] theorem issueUpdate_wf (ks : Nat) (k : Keystone) (a : KArr) : Memory.wf (issueUpdate s ks k a).mem = true := by simp [issueUpdate, w]

theorem execUpdateIssue_canonical (ks : Nat) : Out.Canonical (execUpdateIssue ks s) := by
  dsimp only [execUpdateIssue]
  (repeat' first | with_reducible refine wf_mem_ite ?_ ?_ | with_reducible refine canonical_next_of ?_ | split) <;> simp [w]

theorem execMigrationCopyDone_canonical (ks : Nat) : Out.Canonical (execMigrationCopyDone ks s) := by
  dsimp only [execMigrationCopyDone]
  (repeat' first | with_reducible refine wf_mem_ite ?_ ?_ | with_reducible refine canonical_next_of ?_ | split) <;> exact w

theorem execKeystoneForward_canonical (ks : Nat) : Out.Canonical (execKeystoneForward ks s) := by
  dsimp only [execKeystoneForward]
  cases (s.kstone ks).fwd <;> try exact w
  cases (s.kstone ks).waitQ <;> simp [w]

theorem runPosted_canonical (op : Nat) (x : EA) (f : BitVec 3) (kop : KOp) : Out.Canonical (runPosted op x f kop s) := by
  dsimp only [runPosted]
  exact runElem_canonical w _ _ (by intros; simp)

theorem runIrrevocable_canonical (op : Nat) (x : EA) (f : BitVec 3) (kop : State → Nat → KOp) :
    Out.Canonical (runIrrevocable op x f kop s) := by
  dsimp only [runIrrevocable]
  refine runElem_canonical w _ _ fun e slot o => ?_
  simp only [mem_ite, State.abort_mem, State.askCut_mem]
  rw [fireCommand_mem fun t u => State.modElem_mem u e _, ite_self, ite_self, ite_self]

theorem execIrrevocableDeparture_canonical (e : Nat) : Out.Canonical (execIrrevocableDeparture e s) := by
  dsimp only [execIrrevocableDeparture]
  split <;> simp [w]

theorem execKeystoneReply_canonical (e : Nat) : Out.Canonical (execKeystoneReply e s) := by
  dsimp only [execKeystoneReply]
  cases (s.elem e).ksIn with
  | nil => exact w
  | cons m rest =>
    cases m with
    | reply => simp [w]
    | applied due target =>
      dsimp only
      cases (((s.elem e).targets.find? (·.1 == target)).map Prod.snd).bind (·.orderIn) <;> simp [w]

/-! ### Address generators, repeat nodes and schedule nodes -/

theorem execAgLoadData_canonical (a : Nat) : Out.Canonical (execAgLoadData a s) := by
  dsimp only [execAgLoadData]
  (repeat' first | with_reducible refine wf_mem_ite ?_ ?_ | with_reducible refine canonical_next_of ?_ | split) <;> simp [w]

theorem execBankService_canonical (tile : Nat) : Out.Canonical (execBankService tile s) := by simp [execBankService, w]

@[simp] theorem performStore_wf (n a : Nat) (h : HeldStore) : Memory.wf (performStore n s a h).mem = true := by
  dsimp only [performStore]
  split <;> simp [w, State.wf_setBytes]

@[simp] theorem releaseAg_wf (n a : Nat) : Memory.wf (releaseAg n s a).mem = true := by
  dsimp only [releaseAg]
  split
  · rw [sendOrder_mem]
    exact foldl_wf (fun s h ws => performStore_wf ws _ _ _) _ w
  · exact foldl_wf (fun s h ws => performStore_wf ws _ _ _) _ w

@[simp] theorem releaseLate_wf (a : Nat) : Memory.wf (releaseLate a s).mem = true := by
  dsimp only [releaseLate]
  (repeat' first | with_reducible refine wf_mem_ite ?_ ?_ | with_reducible refine canonical_next_of ?_ | split) <;> simp [w]

theorem execAgRequestIssue_canonical (a : Nat) : Out.Canonical (execAgRequestIssue a s) := by simp [execAgRequestIssue, w]

theorem execBankScrub_canonical (tile bank : Nat) : Out.Canonical (execBankScrub tile bank s) := by
  dsimp only [execBankScrub]
  (repeat' split) <;> simp [w, State.wf_setBytes]

@[simp] theorem repFill_wf (pk : Nat) (t : Token) : Memory.wf (repFill s pk t).mem = true := by
  dsimp only [repFill]
  split
  · simpa using w
  · split
    · simpa using w
    · rw [State.setRep_mem]
      split
      · simpa using State.wf_write _ _ _ (by simpa using w)
      · simpa using State.wf_write _ _ _ (by simpa using w)

theorem execRepeatNodeFill_canonical (pk : Nat) : Out.Canonical (execRepeatNodeFill pk s) := by
  dsimp only [execRepeatNodeFill]
  cases repReady s pk && repTurn s pk <;> try exact w
  cases (s.rep pk).io.head? s.round 0 <;> try exact w
  cases (s.rep pk).st <;> simp [w]

theorem execRepeatNodeCount_canonical (pk : Nat) : Out.Canonical (execRepeatNodeCount pk s) := by
  dsimp only [execRepeatNodeCount]
  cases repReady s pk <;> try exact w
  cases (s.rep pk).io.head? s.round 1 <;> try exact w
  cases (s.rep pk).st <;> simp [w]

theorem execRepeatNodeEmit_canonical (pk : Nat) : Out.Canonical (execRepeatNodeEmit pk s) := by
  unfold execRepeatNodeEmit
  rw [Out.canonical_next]
  dsimp only
  cases (s.rep pk).st with
  | emit passes pos =>
    refine wf_mem_ite ?_ w
    rw [State.touch_mem, State.setRep_mem, State.readGood_mem, State.takeTurn_mem]
    exact w
  | _ => exact w

theorem execScheduleNodeServe_canonical (pk : Nat) : Out.Canonical (execScheduleNodeServe pk s) := by
  dsimp only [execScheduleNodeServe]
  (repeat' first | with_reducible refine wf_mem_ite ?_ ?_ | with_reducible refine canonical_next_of ?_ | split) <;> exact w

theorem runSchd_canonical (f : BitVec 3) (reset : Bool) (x : EA) : Out.Canonical (runSchd f reset x s) := by
  dsimp only [runSchd]
  exact runElem_canonical w _ _ (by intros; simp)

/-! ### Islands -/

theorem runCommand_canonical (op : Nat) (f : BitVec 3) (x : EA) : Out.Canonical (runCommand op f x s) := by
  dsimp only [runCommand]
  exact runElem_canonical w _ _ (by intros; simp)

theorem execMxq_canonical (x : EA) : Out.Canonical (execMxq x s) := by
  dsimp only [execMxq]
  exact runElem_canonical w _ _ (by intros; simp)

theorem execSpillTransferDone_canonical (i : Nat) : Out.Canonical (execSpillTransferDone i s) := by
  unfold execSpillTransferDone
  rw [Out.canonical_next]
  dsimp only
  split
  · split
    · exact w
    · split
      · rw [State.setIsland_mem]
        exact foldl_wf (fun s c ws => State.wf_setBytes _ _ ws) _ w
      · refine (congrArg Memory.wf (imageCorrected_mem s _ _)).trans w
  · exact w

theorem execIslandCommandAccept_canonical (i : Nat) : Out.Canonical (execIslandCommandAccept i s) := by
  dsimp only [execIslandCommandAccept]
  refine wf_mem_ite w ?_
  cases (s.island i).io.head? s.round 0 with
  | none => exact w
  | some t =>
    refine wf_mem_ite (wf_of_mem (dropCommand_mem _ _ _) w) (wf_mem_ite (wf_mem_ite (wf_of_mem (acceptMma_mem _ _ _) w) w) (wf_mem_ite w ?_))
    refine wf_of_mem ?_ w
    generalize t.form.toNat = form
    rcases form with _ | _ | _ | _ | _ | _ | _ | form
    · exact acceptFence_mem _ _ _
    · exact acceptBind_mem _ _ _ _
    · exact acceptBind_mem _ _ _ _
    · exact acceptRelease_mem _ _ _
    · exact acceptSpill_mem _ _ _
    · exact acceptFlush_mem _ _ _
    · exact acceptSetup_mem _ _ _
    · exact acceptFence_mem _ _ _

theorem execMmaComplete_canonical (i : Nat) : Out.Canonical (execMmaComplete i s) := by
  dsimp only [execMmaComplete]
  (repeat' first | with_reducible refine wf_mem_ite ?_ ?_ | with_reducible refine canonical_next_of ?_ | split) <;> simp [w]

theorem execResultEmit_canonical (i : Nat) : Out.Canonical (execResultEmit i s) := by
  dsimp only [execResultEmit]
  refine wf_mem_ite w ?_
  cases (s.island i).job with
  | flush vals free word => cases vals <;> exact w
  | bind r =>
    dsimp only
    cases r.vals <;> exact w
  | _ => exact w

theorem execIslandCheckpointWrite_canonical (i slot : Nat) : Out.Canonical (execIslandCheckpointWrite i slot s) := by
  unfold execIslandCheckpointWrite
  rw [Out.canonical_next]
  dsimp only
  split
  · rw [State.setIsland_mem]
    split
    · exact w
    · exact State.wf_setBytes _ _ w
  · exact w

theorem execIslandDrain_canonical (i : Nat) : Out.Canonical (execIslandDrain i s) := by simp [execIslandDrain, w]

/-! ### Streamers and collectives -/

@[simp] theorem stSetByte_wf (pk p : Nat) (v : Byte) : Memory.wf (stSetByte s pk p v).mem = true := by
  dsimp only [stSetByte]
  split
  · rw [State.setIsland_mem]
    exact w
  · exact State.wf_setByte _ _ w

@[simp] theorem stSetBytes_wf (pk p : Nat) (bs : List Byte) : Memory.wf (stSetBytes s pk p bs).mem = true := by
  have h := foldl_wf (fun s (b : Byte × Nat) ws => stSetByte_wf ws pk (p + b.2) b.1) bs.zipIdx w
  dsimp only [stSetBytes]
  split
  · exact h
  · exact h

@[simp] theorem writeChunk_wf (pk cut : Nat) (x : StXfer) (c : WrChunk) : Memory.wf (writeChunk s pk cut x c).1.mem = true := by
  have h : Memory.wf (if (wrMask x c).all id then stSetBytes (s.takeTurn c.place) pk c.place c.bytes
      else (c.bytes.zip (wrMask x c)).zipIdx.foldl (fun (s : State) b => if b.1.2 then stSetByte s pk (c.place + b.2) b.1.1 else s)
        (s.takeTurn c.place)).mem = true := by
    split
    · simp [w]
    · refine foldl_wf (fun s b ws => ?_) _ (by simpa using w)
      split <;> simp [ws]
  dsimp only [writeChunk]
  split
  · simpa using h
  · exact h

@[simp] theorem stStore_wf (st id : Nat) (x : StXfer) (cs : List WrChunk) : Memory.wf (stStore s st id x cs).1.mem = true := by
  unfold stStore
  rw [fillRest_mem]
  refine workChunks_wf (fun r c wr => ?_) _ w
  dsimp only
  (repeat' split) <;> simp [wr]

theorem execStreamerCommandAccept_canonical (st : Nat) : Out.Canonical (execStreamerCommandAccept st s) := by
  dsimp only [execStreamerCommandAccept]
  (repeat' first | with_reducible refine wf_mem_ite ?_ ?_ | with_reducible refine canonical_next_of ?_ | split) <;> simp [w]

@[simp] theorem xferPhase_wf (st id : Nat) : Memory.wf (xferPhase s st id).mem = true := by
  dsimp -zeta only [xferPhase]
  extract_lets +onlyGivenNames pk t
  split
  · exact w
  next c _ =>
    extract_lets +onlyGivenNames put observe
    have fetched (x : StXfer) (k : Nat) (cs : List RdChunk) (n : Nat) (fl : Num.Flags) :
        Memory.wf (put (stFetch s st id x (observe k) cs) n fl).mem = true := by simpa [put] using w
    have stored (x : StXfer) (cs : List WrChunk) (n : Nat) (fl : Num.Flags) :
        Memory.wf (put (stStore s st id x cs) n fl).mem = true := by simp [put, w]
    clear_value put observe
    refine wf_mem_ite w (wf_mem_ite ?_ ?_)
    · split
      · exact wf_mem_ite (by simp [w]) (fetched _ _ _ _ _)
      · exact w
    · split
      · exact wf_mem_ite (by simp [w]) (fetched _ _ _ _ _)
      · split
        · simp [w]
        · exact wf_mem_ite (by simp [w]) (fetched _ _ _ _ _)
      · split
        · simp [w]
        · exact stored _ _ _ _
      · simp [w]

@[simp] theorem xferRun_wf (st id k : Nat) : Memory.wf (xferRun st id k s).mem = true := by
  induction k generalizing s with
  | zero => exact w
  | succ k ih => exact ih (xferPhase_wf w _ _)

theorem execStreamerCommandComplete_canonical (st id : Nat) : Out.Canonical (execStreamerCommandComplete st id s) := by
  dsimp -zeta only [execStreamerCommandComplete]
  extract_lets +onlyGivenNames t
  cases t.cmd? id with
  | none => exact w
  | some c =>
    refine wf_mem_ite w (wf_mem_ite (wf_of_mem (stcDone_mem _ _ _ _ _) w) ?_)
    generalize c.form = form
    have run : Memory.wf (if s.round < dueOf t c then s else xferRun st id 4 s).mem = true := wf_mem_ite w (xferRun_wf w _ _ _)
    rcases form with _ | _ | _ | _ | _ | _ | _ | _ | form
    · exact run
    · exact run
    · exact run
    · exact w
    · exact w
    · exact wf_mem_ite (wf_of_mem (stcDone_mem _ _ _ _ _) w) w
    · extract_lets +onlyGivenNames s₁ t₁
      have w₁ : Memory.wf s₁.mem = true := by simp [s₁, w]
      clear_value s₁
      cases t₁.cmd? id with
      | none => exact w₁
      | some c =>
        dsimp only
        cases c.mark with
        | none => exact w₁
        | some m =>
          refine wf_mem_ite ?_ w₁
          cases c.x.refused <;> exact wf_of_mem (stcDone_mem _ _ _ _ _) w₁
    · exact wf_mem_ite (wf_of_mem (stcDone_mem _ _ _ _ _) w) w
    · exact w

theorem execFlagfWrite_canonical (st id : Nat) : Out.Canonical (execFlagfWrite st id s) := by
  dsimp only [execFlagfWrite]
  (repeat' first | with_reducible refine wf_mem_ite ?_ ?_ | with_reducible refine canonical_next_of ?_ | split) <;> simp [w]

theorem execStreamerDrain_canonical (st : Nat) : Out.Canonical (execStreamerDrain st s) := by simp [execStreamerDrain, w]

theorem execCollectiveStart_canonical (st : Nat) : Out.Canonical (execCollectiveStart st s) := by
  dsimp only [execCollectiveStart]
  (repeat' first | with_reducible refine wf_mem_ite ?_ ?_ | with_reducible refine canonical_next_of ?_ | split) <;> simp [w]

theorem execCollectiveHop_canonical (st : Nat) : Out.Canonical (execCollectiveHop st s) := by
  dsimp only [execCollectiveHop]
  (repeat' first | with_reducible refine wf_mem_ite ?_ ?_ | with_reducible refine canonical_next_of ?_ | split) <;> exact w

@[simp] theorem bucketWrite_wf (st b : Nat) (x : StXfer) (spb : List Dword) (pins : List Pin) (bytes : List Byte) :
    Memory.wf (bucketWrite s st b x spb pins bytes).1.mem = true := by simp [bucketWrite, w]

@[simp] theorem bucketBegin_wf (st b : Nat) (d : BuckDecl) (r : BuckRun) : Memory.wf (bucketBegin s st b d r).mem = true := by
  dsimp -zeta only [bucketBegin]
  extract_lets +onlyGivenNames t n put
  have w_put (u : State) (q : BuckRun) (wu : Memory.wf u.mem = true) : Memory.wf (put u q).mem = true := wu
  clear_value put
  split
  · extract_lets +onlyGivenNames src aux
    clear_value src aux
    refine wf_mem_ite (by simp [w]) (w_put _ _ ((congrArg Memory.wf (stFetch_mem _ _ _ _ _ _)).trans w))
  · extract_lets +onlyGivenNames src s₁ scale
    have w₁ : Memory.wf s₁.mem = true := w
    clear_value s₁ src scale
    split
    · extract_lets +onlyGivenNames k
      clear_value k
      exact w_put _ _ (bucketWrite_wf (by rwa [State.setStreamer_mem]) _ _ _ _ _ _)
    · exact w_put _ _ w₁

@[simp] theorem bucketPut_wf (st b : Nat) (d : BuckDecl) (r : BuckRun) : Memory.wf (bucketPut s st b d r).mem = true := by
  dsimp only [bucketPut]
  (repeat' first | with_reducible refine wf_mem_ite ?_ ?_ | with_reducible refine canonical_next_of ?_ | split) <;> simp [w]

@[simp] theorem bucketStep_wf (st b : Nat) : Memory.wf (bucketStep st b s).mem = true := by
  dsimp only [bucketStep]
  cases (s.streamer st).runs.get none b with
  | none => exact w
  | some r =>
  cases (s.streamer st).bucks.get none b with
  | none => exact w
  | some d =>
  cases (s.streamer st).coll with
  | none => exact w
  | some k =>
    refine wf_mem_ite w ?_
    generalize r.x.phase = phase
    rcases phase with _ | _ | _ | _ | _ | _ | phase
    · exact bucketBegin_wf w _ _ _ _
    · exact bucketBegin_wf w _ _ _ _
    · exact wf_of_mem (bucketUp_mem _ _ _ _ _ _ _ _) w
    · exact wf_of_mem (bucketDown_mem _ _ _ _ _ _ _) w
    · exact bucketPut_wf w _ _ _ _
    · exact bucketPut_wf w _ _ _ _
    · exact wf_mem_ite w w

theorem bucketRun_wf (st b n : Nat) : Memory.wf (bucketRun st b n s).mem = true := by
  induction n generalizing s with
  | zero => exact w
  | succ n ih => exact ih (bucketStep_wf w _ _)

theorem execBucketComplete_canonical (st b : Nat) : Out.Canonical (execBucketComplete st b s) :=
  bucketRun_wf w _ _ _

/-! ### The ends of launches -/

@[simp] theorem wqAppend_wf (q : Nat) (entry : List Byte) (service : Bool) : Memory.wf (wqAppend s q entry service).1.mem = true := by
  dsimp only [wqAppend]
  split
  · exact w
  · exact State.wf_setBytes _ _ w

@[simp] theorem appendRecord_wf (q : Nat) (record : List Dword) : Memory.wf (appendRecord s q record).1.mem = true := by
  rcases e : wqAppend s q (dwordBytes record) with ⟨t, _ | _⟩
  all_goals
    have wt : Memory.wf t.mem = true := by simpa [e] using wqAppend_wf w q (dwordBytes record) false
    dsimp only [appendRecord]
    rw [e]
    dsimp only
  · exact wt
  · split <;> exact wt

@[simp] theorem completeWith_wf (l : Nat) (x : Launch) (record : List Dword) : Memory.wf (completeWith s l x record).mem = true := by
  have appended := appendRecord_wf (s := s.setLaunch l {}) w x.cq record
  dsimp only [completeWith]
  split <;> rename_i e <;> rw [e] at appended
  · exact appended
  · simp [appended]

theorem flushRecords_wf (a : List (Nat × List Dword)) : Memory.wf (flushRecords a s).1.mem = true := by
  induction a generalizing s with
  | nil => exact w
  | cons r rest ih =>
    rcases e : appendRecord s r.1 r.2 with ⟨t, _ | _⟩ <;> simp only [flushRecords, e]
    · exact ih w
    · exact ih (by simpa [e] using appendRecord_wf w r.1 r.2)

@[simp] theorem flushHeld_wf (die : Nat) : Memory.wf (flushHeld s die).mem = true := by
  dsimp only [flushHeld]
  refine foldl_wf (fun s l ws => ?_) _ (flushRecords_wf w (s.die die).heldCpl)
  cases l.2.phase <;> simp [ws]

theorem execHandEv_canonical (tile bank : Nat) : Out.Canonical (execHandEv tile bank s) := by
  dsimp only [execHandEv]
  (repeat' first | with_reducible refine wf_mem_ite ?_ ?_ | with_reducible refine canonical_next_of ?_ | split) <;> exact w

@[simp] theorem endLaunch_wf (l status code : Nat) (place : Word) : Memory.wf (endLaunch s l status code place).mem = true := by
  dsimp only [endLaunch]
  refine completeWith_wf ?_ _ _ _
  rw [foldl_mem (by simp), foldl_mem (by simp), foldl_mem (by simp)]
  cases (s.launch l).phase <;> simp [w]

/-! ### Cuts and rollbacks -/

theorem execSnapshotEv_canonical (u : UnitRef) : Out.Canonical (execSnapshotEv u s) := by
  dsimp only [execSnapshotEv]
  (repeat' first | with_reducible refine wf_mem_ite ?_ ?_ | with_reducible refine canonical_next_of ?_ | split) <;> simp [w]

theorem execMkroundsExpiry_canonical (rk : Nat) : Out.Canonical (execMkroundsExpiry rk s) := by simp [execMkroundsExpiry, w]

theorem execMktokensReached_canonical (u : UnitRef) : Out.Canonical (execMktokensReached u s) := by
  dsimp only [execMktokensReached]
  split <;> simp [w]

theorem execStartRequestHop_canonical (rk : Nat) : Out.Canonical (execStartRequestHop rk s) := by
  dsimp only [execStartRequestHop]
  (repeat' first | with_reducible refine wf_mem_ite ?_ ?_ | with_reducible refine canonical_next_of ?_ | split) <;> simp [w]

theorem execCutComplete_canonical (rk : Nat) : Out.Canonical (execCutComplete rk s) := by simp [execCutComplete, w]

theorem execElementDrain_canonical (e : Nat) : Out.Canonical (execElementDrain e s) := by
  dsimp only [execElementDrain]
  cases s.regionOf (Key.pkOfElem e) with
  | none => exact w
  | some rk => cases (s.elem e).drainAt <;> simp [w]

theorem execEngineDrainPass_canonical (u : UnitRef) : Out.Canonical (execEngineDrainPass u s) := by
  dsimp only [execEngineDrainPass]
  cases u with
  | elem => exact w
  | island i => exact execIslandDrain_canonical w i
  | streamer i => exact execStreamerDrain_canonical w i
  | keystone k =>
    dsimp only
    cases s.regionOf k <;> simp [w]
  | ag a =>
    dsimp only [UnitRef.pk]
    cases s.regionOf (a / 2) <;> simp [w]
  | repeatNode k | schedNode k =>
    dsimp only [UnitRef.pk]
    cases s.regionOf k <;> simp [w]

theorem execTileDrn_canonical (pk : Nat) : Out.Canonical (execTileDrn pk s) := by
  dsimp only [execTileDrn]
  (repeat' first | with_reducible refine wf_mem_ite ?_ ?_ | with_reducible refine canonical_next_of ?_ | split) <;> simp [w]

@[simp] theorem rollback_wf (rk : Nat) (cause : RollCause) : Memory.wf (rollback s rk cause).mem = true := by
  dsimp -zeta only [rollback]
  extract_lets +onlyGivenNames r
  clear_value r
  refine wf_mem_ite w ?_
  split
  · cases cause <;> exact w
  · extract_lets +onlyGivenNames die again s₁ s₂ id s₃ s₄ x s₅
    have w₁ : Memory.wf s₁.mem = true := by cases cause <;> exact w
    have w₂ : Memory.wf s₂.mem = true := by
      simp only [s₂]
      rw [foldl_mem dropShadow_mem, restoreCut_mem]
      exact w₁
    clear_value s₂ again
    have w₃ : Memory.wf s₃.mem = true := by
      simp only [s₃]
      cases causeEvent s₂ r cause with
      | some => rwa [State.event_mem]
      | none => exact w₂
    clear_value s₃
    have w₄ : Memory.wf s₄.mem = true := by
      simp only [s₄]
      cases r.launch with
      | some => rwa [noteCause_mem, State.setLaunch_mem]
      | none => exact w₃
    have w₅ : Memory.wf s₅.mem = true := w₄
    clear_value s₅
    cases r.launch with
    | some => exact wf_mem_ite (endLaunch_wf w₅ _ _ _ _) (wf_mem_ite (endLaunch_wf w₅ _ _ _ _) w₅)
    | none => exact w₅

theorem execRelEv_canonical (rk : Nat) : Out.Canonical (execRelEv rk s) := by
  unfold execRelEv
  extract_lets +onlyGivenNames r
  rw [Out.canonical_next]
  cases r.relDue with
  | none => exact w
  | some d =>
    refine wf_mem_ite w ?_
    extract_lets +onlyGivenNames n s₁ s₂ x s₃
    have w₃ : Memory.wf s₃.mem = true := by
      simp only [s₃, s₂, s₁]
      rw [State.setRegion_mem, releaseReports_mem]
      refine foldl_wf (fun s u ws => ?_) _ w
      cases u <;> simp [ws]
    clear_value s₃
    cases r.afterRel with
    | none => exact w₃
    | some c => exact rollback_wf w₃ _ _

theorem execRollbackEv_canonical (rk : Nat) (cause : RollCause) : Out.Canonical (execRollbackEv rk cause s) := by simp [execRollbackEv, w]

theorem execWalkEv_canonical (die : Nat) : Out.Canonical (execWalkEv die s) := by
  unfold execWalkEv
  rw [Out.canonical_next]
  split
  · exact w
  next x rest _ =>
    extract_lets +onlyGivenNames done fail r s₁
    have w_fail (t : State) (wt : Memory.wf t.mem = true) (c : RollCause) : Memory.wf (fail t c).mem = true := by
      simp only [fail]
      split
      · exact wf_mem_ite wt (rollback_wf wt _ _)
      · exact wt
    have w₁ : Memory.wf s₁.mem = true := by simp [s₁, w]
    clear_value fail s₁ r
    split
    · exact wf_mem_ite w₁ w₁
    all_goals exact w_fail _ w₁ _

theorem execDeliveryTimeout_canonical (ch : Nat) : Out.Canonical (execDeliveryTimeout ch s) := by
  dsimp only [execDeliveryTimeout]
  (repeat' first | with_reducible refine wf_mem_ite ?_ ?_ | with_reducible refine canonical_next_of ?_ | split) <;> simp [w]

/-! ### Configuration and status space -/

theorem execRangeWordWrite_canonical (ks : Nat) (v : Word) : Out.Canonical (execRangeWordWrite ks v s) := by simp [execRangeWordWrite, w]

theorem execTileRetire_canonical (tile : Nat) : Out.Canonical (execTileRetire tile s) := by simp [execTileRetire, w]

theorem execCoreRunWrite_canonical (c : Nat) (v : Dword) : Out.Canonical (execCoreRunWrite c v s) := by simp [execCoreRunWrite, w]

theorem execRegisterWrite_canonical (place : Nat) (v : Dword) : Out.Canonical (execRegisterWrite place v s) := by
  dsimp only [execRegisterWrite]
  rw [Out.canonical_next]
  split
  · cases e : cfgStore s place 8 v.toNat
    · exact w
    · simpa [cfgStore_mem _ _ _ _ _ e] using w
  · simpa using w
  · exact w

/-! ### Commit waves -/

@[simp] theorem wireKeystone_wf (rk : Nat) (d : KeystoneDecl) : Memory.wf (wireKeystone rk s d).mem = true := by
  dsimp only [wireKeystone]
  exact foldl_wf (fun s k ws => State.setKeystoneWord_wf ws _ _ _) _ w

@[simp] theorem wirePreload_wf (rk : Nat) (d : (Nat × Nat) × Nat × List Byte) : Memory.wf (wirePreload rk s d).mem = true := by
  dsimp only [wirePreload]
  rw [foldl_mem (by intros; rfl)]
  exact State.wf_setBytes _ _ w

@[simp] theorem wireCourse_wf (rk ctx : Nat) (x : CourseAnnex) : Memory.wf (wireCourse s rk ctx x).mem = true := by
  dsimp only [wireCourse]
  rw [wireChannels_mem, foldl_mem, State.setRegion_mem, foldl_mem (by intros; rfl)]
  · refine foldl_wf (fun s d ws => wirePreload_wf ws _ _) _ ?_
    rw [foldl_mem, foldl_mem (by intros; rfl), foldl_mem (by simp), foldl_mem (by simp)]
    · exact foldl_wf (fun s d ws => wireKeystone_wf ws _ _) _ w
    · rintro s ⟨pk, slot, _ | c⟩ <;> rfl
  · intro s u
    cases u with
    | schedNode pk =>
      dsimp only
      cases chanDests s ((UnitRef.schedNode pk).outChan 0) with
      | nil => rfl
      | cons d _ =>
        obtain ⟨v, k⟩ := d
        cases v <;> rfl
    | _ => rfl

@[simp] theorem commitEnd_wf (rk : Nat) : Memory.wf (commitEnd s rk).mem = true := by
  dsimp only [commitEnd]
  rw [State.setRegion_mem, saveAll_mem]
  split
  · rw [foldl_mem]
    · refine wireCourse_wf ?_ _ _ _
      exact w
    · intro s u
      cases u <;> rfl
  · refine wireCourse_wf ?_ _ _ _
    exact w

theorem execCommitWaveHop_canonical (rk : Nat) : Out.Canonical (execCommitWaveHop rk s) := by
  dsimp only [execCommitWaveHop]
  (repeat' first | with_reducible refine wf_mem_ite ?_ ?_ | with_reducible refine canonical_next_of ?_ | split) <;> simp [w]

/-! ### Pre-emption and saved regions -/

@[simp] theorem putEngines_wf (plane : Nat) (v : Saved) : Memory.wf (putEngines s plane v).mem = true := by
  dsimp only [putEngines]
  rw [foldl_mem]
  · refine foldl_wf (fun s c ws => State.wf_setBytes _ _ ws) _ (foldl_wf (fun s k ws => ?_) _ w)
    exact foldl_wf (fun s j ws => State.setKeystoneWord_wf ws _ _ _) _ ws
  · intro s p
    split <;> rfl

@[simp] theorem putBack_wf (rk plane key : Nat) (v : Saved) : Memory.wf (putBack s rk plane key v).mem = true := by simp [putBack, w]

@[simp] theorem restoreFrom_wf (r : Region) (image : List Dword) : Memory.wf (restoreFrom s r image).1.mem = true := by
  dsimp -zeta only [restoreFrom]
  extract_lets +onlyGivenNames g
  clear_value g
  cases descriptor (g 1) with
  | none => exact w
  | some d =>
  cases imageCourse image with
  | none => exact w
  | some v =>
    refine wf_fst_ite w ?_
    extract_lets +onlyGivenNames x back
    have backs (rk : Nat) : Memory.wf (back rk).1.mem = true := putBack_wf (wf_of_mem (vacate_mem _ _) w) _ _ _ _
    clear_value back x
    have fresh (v : Saved) : Memory.wf (putBack s (restoreFrom.emptyRegion s) r.plane s.nextId v).mem = true := putBack_wf w _ _ _ _
    cases regionNamed s r with
    | some rk => exact wf_fst_ite (backs rk) w
    | none =>
      refine wf_fst_ite w ?_
      cases regionNamed s d with
      | some rk =>
        dsimp only
        exact wf_fst_ite (backs rk) (wf_pair (fresh _) _)
      | none => exact wf_pair (fresh _) _

theorem execDeadlockProbeAuto_canonical (rk : Nat) : Out.Canonical (execDeadlockProbeAuto rk s) := by simp [execDeadlockProbeAuto, w]

/-! ### Links -/

theorem execLinkRetrain_canonical (l : Nat) : Out.Canonical (execLinkRetrain l s) := by simp [execLinkRetrain, w]

theorem execRetrainComplete_canonical (l : Nat) : Out.Canonical (execRetrainComplete l s) := by simp [execRetrainComplete, w]

@[simp] theorem retrainRollbacks_wf (l : Nat) : Memory.wf (retrainRollbacks s l).mem = true := by
  dsimp only [retrainRollbacks]
  refine foldl_wf (fun s p ws => ?_) _ w
  split
  · exact ws
  · split <;> simp [ws]

theorem execRetrainTimeout_canonical (l failed modules : Nat) : Out.Canonical (execRetrainTimeout l failed modules s) := by
  dsimp only [execRetrainTimeout]
  (repeat' first | with_reducible refine wf_mem_ite ?_ ?_ | with_reducible refine canonical_next_of ?_ | split) <;> simp [w]

theorem execLinkLevelReplay_canonical (l : Nat) : Out.Canonical (execLinkLevelReplay l s) := by simp [execLinkLevelReplay, w]

/-! ### Memory accesses of mason cores -/

theorem resolve_wf {t : State} {c : Nat} {a : Dword} {r x : Bool} {y : Addr} (e : resolve s c a r x = (t, y)) :
    Memory.wf t.mem = true := by
  have next : (resolve s c a r x).1 = t := congrArg Prod.fst e
  rw [← next, resolve_mem, w]

theorem writePlace_wf {t : State} {fw : Bool} {p width v : Nat} (h : writePlace s fw p width v = .done t) :
    Memory.wf t.mem = true := by
  unfold writePlace at h
  (repeat' split at h) <;> cases h
  case h_1 e => simpa [cfgStore_mem _ _ _ _ _ e] using w
  case h_2 => simpa using w
  case h_3 => exact State.wf_write _ _ _ w

theorem runLoad_canonical (op : Nat) (x : MS) (width : Nat) (signed : Bool) : Out.Canonical (runLoad op x width signed s) := by
  unfold runLoad
  refine runCore_canonical w _ _ fun c k => ?_
  dsimp only
  rcases e : resolve s c (k.reg x.a + x.imm.signExtend 64) true false with ⟨t, y⟩
  have wt := resolve_wf w e
  cases y <;> simp [wt]
  case place p => cases readPlace t p width <;> simp [wt]

theorem runStore_canonical (op : Nat) (x : MS) (width : Nat) : Out.Canonical (runStore op x width s) := by
  unfold runStore
  refine runCore_canonical w _ _ fun c k => ?_
  dsimp only
  rcases e : resolve s c (k.reg x.a + x.imm.signExtend 64) false true with ⟨t, y⟩
  have wt := resolve_wf w e
  cases y <;> simp [wt]
  case place p =>
    cases h : writePlace t k.firmware p width ((k.reg x.d).toNat % 2 ^ (8 * width)) <;> simp [wt]
    case done => simp [writePlace_wf wt h]

theorem runMamo_canonical (f : BitVec 3) (x : EA) : Out.Canonical (runMamo f x s) := by
  unfold runMamo
  refine runCore_canonical w _ _ fun c k => ?_
  dsimp only
  rcases e : resolve s c (k.reg x.a) true true with ⟨t, y⟩
  have wt := resolve_wf w e
  cases y <;> simp [wt]

theorem runFence_canonical (f : BitVec 3) (x : EA) : Out.Canonical (runFence f x s) := by
  dsimp only [runFence]
  exact runCore_canonical w _ _ (by intros; simp [w])

theorem execIinv_canonical (x : EA) : Out.Canonical (execIinv x s) := by
  dsimp only [execIinv]
  refine runCore_canonical w _ _ fun c k => ?_
  cases lineOf s c (k.reg x.a) <;> exact w

theorem execIinva_canonical (x : EA) : Out.Canonical (execIinva x s) := by
  dsimp only [execIinva]
  exact runCore_canonical w _ _ (by intros; simp [w])

/-! ### System words of mason cores -/

theorem execCfgw_canonical (x : EA) : Out.Canonical (execCfgw x s) := by
  unfold execCfgw
  refine runSys_canonical w _ _ _ fun c y a b => ?_
  dsimp only
  (repeat' first | with_reducible refine wf_mem_ite ?_ ?_ | with_reducible refine canonical_next_of ?_ | split) <;> simp [w]

@[simp] theorem cfgAccess_canonical (c : Nat) (y : Body) (a : Dword) (f : State → Nat → Nat) : (cfgAccess s c y a f).Canonical := by
  dsimp only [cfgAccess]
  rcases e : resolve s c a true false with ⟨t, x⟩
  have wt := resolve_wf w e
  cases x <;> simp [wt]
  case place p => cases readPlace t p 8 <;> simp [wt]

theorem execCfgr_canonical (x : EA) : Out.Canonical (execCfgr x s) := by
  dsimp only [execCfgr]
  exact runSys_canonical w _ _ _ (by intros; simp [w])

theorem execCfgcommit_canonical (x : EA) : Out.Canonical (execCfgcommit x s) := by
  unfold execCfgcommit
  refine runSys_canonical w _ _ _ fun c y a b => ?_
  dsimp only
  (repeat' first | with_reducible refine wf_mem_ite ?_ ?_ | with_reducible refine canonical_next_of ?_ | split) <;> simp [w]

theorem execCfgabort_canonical (x : EA) : Out.Canonical (execCfgabort x s) := by
  dsimp only [execCfgabort]
  refine runSys_canonical w _ _ _ fun c y a b => ?_
  cases descriptor a
  · exact w
  · simpa -implicitDefEqProofs using w

theorem execCfgstat_canonical (x : EA) : Out.Canonical (execCfgstat x s) := by
  dsimp only [execCfgstat]
  refine runSys_canonical w _ _ _ fun c y a b => ?_
  cases tileArg s a <;> simp [w]

theorem execPlanesel_canonical (x : EA) : Out.Canonical (execPlanesel x s) := by
  dsimp only [execPlanesel]
  exact runSys_canonical w _ _ _ (by intros; simp [w])

theorem execSnaprd_canonical (x : EA) : Out.Canonical (execSnaprd x s) := by
  dsimp only [execSnaprd]
  exact runSys_canonical w _ _ _ (by intros; simp [w])

theorem execRollbk_canonical (x : EA) : Out.Canonical (execRollbk x s) := by
  dsimp only [execRollbk]
  refine runSys_canonical w _ _ _ fun c y a b => ?_
  split <;> simp [w]

theorem runRegion_canonical (f : BitVec 3) (x : EA) {k : Nat → Body → Nat → Dword → CoreRes} (h : ∀ c y rk b, (k c y rk b).Canonical) :
    Out.Canonical (runRegion f x s k) := by
  dsimp only [runRegion]
  refine runSys_canonical w _ _ _ fun c y a b => ?_
  split
  · exact w
  · exact h _ _ _ _

theorem execFreeze_canonical (x : EA) : Out.Canonical (execFreeze x s) :=
  runRegion_canonical w _ _ (by intros; simp [w])

theorem execThaw_canonical (x : EA) : Out.Canonical (execThaw x s) :=
  runRegion_canonical w _ _ (by intros; simp [w])

theorem execReadout_canonical (x : EA) : Out.Canonical (execReadout x s) :=
  runRegion_canonical w _ _ (by intros; simp [w, withWrite_canonical])

theorem execRestore_canonical (x : EA) : Out.Canonical (execRestore x s) := by
  dsimp only [execRestore]
  refine runSys_canonical w _ _ _ fun c y a b => ?_
  cases descriptor a
  · exact w
  · refine withRead_canonical w _ _ _ fun t head wt => ?_
    simp only [canonical_ite, ret_canonical, wt]
    split
    · exact trivial
    · exact withRead_canonical wt _ _ _ fun u bs wu => by simp [wu]

theorem execProbe_canonical (x : EA) : Out.Canonical (execProbe x s) :=
  runRegion_canonical w _ _ (by intros; simp [w])

theorem execDrainreq_canonical (x : EA) : Out.Canonical (execDrainreq x s) :=
  runRegion_canonical w _ _ (by intros; simp [w])

theorem runCrc_canonical (f : BitVec 3) (n : Nat) (x : EA) : Out.Canonical (runCrc f n x s) := by
  dsimp only [runCrc]
  exact runSys_canonical w _ _ _ (by intros; simp [w])

theorem execShka_canonical (x : EA) : Out.Canonical (execShka x s) := by
  dsimp only [execShka]
  exact runSys_canonical w _ _ _ (by intros; simp [w])

theorem execShks_canonical (x : EA) : Out.Canonical (execShks x s) := by
  dsimp only [execShks]
  exact runSys_canonical w _ _ _ (by intros; simp [w])

theorem execSigv_canonical (x : EA) : Out.Canonical (execSigv x s) := by
  unfold execSigv
  refine runSys_canonical w _ _ _ fun c y a b => withRead_canonical w _ _ _ fun t bs wt => ?_
  dsimp only
  split
  · exact wt
  · split
    · exact wt
    · exact withRead_canonical wt _ _ _ fun u msg wu => withRead_canonical wu _ _ _ fun v sig wv => withRead_canonical wv _ _ _ fun z pk wz => wz

theorem execSecst_canonical (x : EA) : Out.Canonical (execSecst x s) := by
  dsimp only [execSecst]
  exact runSys_canonical w _ _ _ (by intros; simp [w])

theorem runQueue_canonical (f : BitVec 3) (x : EA) {k : Nat → Body → Nat → Dword → CoreRes} (h : ∀ c y q b, (k c y q b).Canonical) :
    Out.Canonical (runQueue f x s k) :=
  runSys_canonical w _ _ _ fun c y a b => by simp [w, h]

theorem execWqpop_canonical (x : EA) : Out.Canonical (execWqpop x s) := by
  refine runQueue_canonical w _ _ fun c y q b => ?_
  simp [w, withWrite_canonical]

theorem execWqpush_canonical (x : EA) : Out.Canonical (execWqpush x s) := by
  refine runQueue_canonical w _ _ fun c y q b => ?_
  dsimp only
  split
  · trivial
  · exact withRead_canonical w _ _ _ fun t bs wt => by simp [wt]

theorem execWqstat_canonical (x : EA) : Out.Canonical (execWqstat x s) :=
  runQueue_canonical w _ _ (by intros; simp [w])

theorem execEvpop_canonical (x : EA) : Out.Canonical (execEvpop x s) := by
  dsimp only [execEvpop]
  refine runSys_canonical w _ _ _ fun c y a b => ?_
  split
  · trivial
  · split
    · exact w
    · exact withWrite_canonical w _ _ _ fun t wt => by simp [wt]

@[simp] theorem answerEvent_wf (id action : Nat) : Memory.wf (answerEvent s id action).1.mem = true := by
  dsimp -zeta only [answerEvent]
  cases s.regions.find? fun p => p.2.live && p.2.waitEv == some id with
  | some p =>
    dsimp -zeta only
    extract_lets +onlyGivenNames s₁
    have w₁ : Memory.wf s₁.mem = true := w
    clear_value s₁
    refine wf_fst_ite (wf_pair (wf_of_mem (thawRegion_mem _ _) w₁) _) ?_
    cases p.2.launch with
    | some l => exact wf_pair (endLaunch_wf w₁ _ _ _ _) _
    | none => exact wf_pair (wf_of_mem (freeRegion_mem _ _) w₁) _
  | none =>
  dsimp only
  cases s.launches.find? fun p => p.2.phase == .pinWait id with
  | some p => exact wf_fst_ite (wf_pair (wf_of_mem (State.setLaunch_mem _ _ _) w) _) (wf_pair (endLaunch_wf w _ _ _ _) _)
  | none =>
  dsimp only
  cases awayWaiting s id with
  | some p => exact wf_fst_ite w (wf_pair (endLaunch_wf w _ _ _ _) _)
  | none => exact w

theorem execEvack_canonical (x : EA) : Out.Canonical (execEvack x s) := by
  dsimp only [execEvack]
  exact runSys_canonical w _ _ _ (by intros; simp [w])

theorem execEvstat_canonical (x : EA) : Out.Canonical (execEvstat x s) := by
  dsimp only [execEvstat]
  exact runSys_canonical w _ _ _ (by intros; simp [w])

theorem execLkst_canonical (x : EA) : Out.Canonical (execLkst x s) := by
  dsimp only [execLkst]
  exact runSys_canonical w _ _ _ (by intros; simp [w])

theorem execLkrt_canonical (x : EA) : Out.Canonical (execLkrt x s) := by
  dsimp only [execLkrt]
  exact runSys_canonical w _ _ _ (by intros; simp [w])

theorem execLkctl_canonical (x : EA) : Out.Canonical (execLkctl x s) := by
  dsimp only [execLkctl]
  exact runSys_canonical w _ _ _ (by intros; simp [w])

theorem execTlbi_canonical (x : EA) : Out.Canonical (execTlbi x s) := by
  dsimp only [execTlbi]
  exact runSys_canonical w _ _ _ (by intros; simp [w])

theorem execPwalk_canonical (x : EA) : Out.Canonical (execPwalk x s) := by
  unfold execPwalk
  refine runSys_canonical w _ _ _ fun c y a b => ?_
  dsimp only
  (repeat' first | with_reducible refine wf_mem_ite ?_ ?_ | with_reducible refine canonical_next_of ?_ | split) <;> simp [w]

theorem execMigr_canonical (x : EA) : Out.Canonical (execMigr x s) := by
  unfold execMigr
  refine runSys_canonical w _ _ _ fun c y a b => ?_
  dsimp only
  (repeat' first | with_reducible refine wf_mem_ite ?_ ?_ | with_reducible refine canonical_next_of ?_ | split) <;> exact w

theorem execMigq_canonical (x : EA) : Out.Canonical (execMigq x s) := by
  unfold execMigq
  refine runSys_canonical w _ _ _ fun c y a b => ?_
  dsimp only
  (repeat' first | with_reducible refine wf_mem_ite ?_ ?_ | with_reducible refine canonical_next_of ?_ | split) <;> exact w

/-! ### Launches -/

theorem execFrameTableStep_canonical (die : Nat) : Out.Canonical (execFrameTableStep die s) := by
  dsimp only [execFrameTableStep]
  (repeat' first | with_reducible refine wf_mem_ite ?_ ?_ | with_reducible refine canonical_next_of ?_ | split) <;> simp [w]

theorem execWorkQueueTake_canonical (die : Nat) : Out.Canonical (execWorkQueueTake die s) := by
  dsimp only [execWorkQueueTake]
  (repeat' first | with_reducible refine wf_mem_ite ?_ ?_ | with_reducible refine canonical_next_of ?_ | split) <;> simp [w]

@[simp] theorem displace_wf (v : Nat) (ours : List Nat) (r : Nat × Nat) : Memory.wf (displace v ours s r).mem = true := by
  dsimp only [displace]
  rw [State.setLaunch_mem, vacate_mem, moveHeld_mem]
  exact State.wf_setBytes _ _ w

@[simp] theorem preempt_wf (l : Nat) (ms : List Maps) (c : CourseRec) : Memory.wf (preempt s l ms c).mem = true := by
  unfold preempt
  extract_lets +onlyGivenNames x s₁ away
  have w₁ : Memory.wf s₁.mem = true := by simpa [s₁] using w
  clear_value s₁ x
  split
  · simpa using w₁
  next v y chosen =>
    clear chosen
    extract_lets +onlyGivenNames s₂ rks ours new x₂ s₃ s₄
    have w₂ : Memory.wf s₂.mem = true := by
      simp only [s₂]
      split
      · split
        · exact w₁
        · simpa using w₁
      · exact w₁
    have w₄ : Memory.wf s₄.mem = true := by
      simp only [s₄, s₃]
      rw [foldl_mem dropShadow_mem]
      simpa using w₂
    clear_value s₄ ours new
    refine wf_mem_ite w₂ (wf_mem_ite ?_ w₄)
    split
    · simpa using foldl_wf (fun s r ws => displace_wf ws v ours r) _ w₄
    · exact w₄

theorem execLaunchAdmit_canonical (l : Nat) : Out.Canonical (execLaunchAdmit l s) := by
  unfold execLaunchAdmit
  extract_lets +onlyGivenNames x
  rw [Out.canonical_next]
  refine wf_mem_ite w ?_
  split
  next h limit places images =>
    clear images
    extract_lets +onlyGivenNames cs
    clear_value cs
    split
    · exact endLaunch_wf w _ _ _ _
    next c _ =>
      refine wf_mem_ite (endLaunch_wf w _ _ _ _) (wf_mem_ite (endLaunch_wf w _ _ _ _) ?_)
      split
      · exact endLaunch_wf w _ _ _ _
      · exact endLaunch_wf w _ _ _ _
      · exact wf_mem_ite w (by simp [w])
      · refine wf_mem_ite (endLaunch_wf w _ _ _ _) ?_
        extract_lets +onlyGivenNames ms
        clear_value ms
        refine wf_mem_ite (endLaunch_wf w _ _ _ _) ?_
        split
        · exact preempt_wf w _ _ _
        · split
          · refine endLaunch_wf ?_ _ _ _ _
            simp [w]
          · extract_lets +onlyGivenNames src r ld
            clear_value r ld
            split
            · simp [w]
            · refine endLaunch_wf ?_ _ _ _ _
              simp [w]
            · split
              next e =>
                rw [State.setLaunch_mem, pinEvent_mem e]
                exact w
              · exact w

@[simp] theorem restoreCourse_wf (l : Nat) (c : (Nat × Saved × Nat) × Nat) : Memory.wf (restoreCourse l s c).mem = true := by
  simp [restoreCourse, w]

theorem execPreemptedRestore_canonical (l : Nat) : Out.Canonical (execPreemptedRestore l s) := by
  dsimp only [execPreemptedRestore]
  cases (s.launch l).phase <;> try exact w
  cases savedOf s (s.launch l)
  · exact w
  · exact wf_mem_ite w (foldl_wf (fun s c ws => restoreCourse_wf ws _ _) _ w)

theorem execConfigurationWaveHop_canonical (rk : Nat) : Out.Canonical (execConfigurationWaveHop rk s) := by
  unfold execConfigurationWaveHop
  rw [Out.canonical_next]
  dsimp only
  split
  · exact w
  · split
    · exact w
    · rw [State.setRegion_mem, foldl_mem]
      · exact w
      · intro s u
        cases u <;> simp

theorem execSeedInjection_canonical (rk : Nat) : Out.Canonical (execSeedInjection rk s) := by simp [execSeedInjection, w]

theorem execNextCourseWrite_canonical (l : Nat) : Out.Canonical (execNextCourseWrite l s) := by
  unfold execNextCourseWrite
  extract_lets +onlyGivenNames s₁ x
  have w₁ : Memory.wf s₁.mem = true := by simpa [s₁] using w
  clear_value s₁
  rw [Out.canonical_next]
  split
  case h_2 => exact w₁
  next rk _ _ =>
    extract_lets +onlyGivenNames r
    refine wf_mem_ite w₁ ?_
    split
    · exact w₁
    next p at_p =>
      clear at_p
      extract_lets +onlyGivenNames d
      split
      next c _ at_c =>
      clear at_c
      extract_lets +onlyGivenNames m done free
      clear_value m done free
      split
      · exact w₁
      extract_lets +onlyGivenNames annex src nr ld
      clear_value ld nr
      split
      · exact endLaunch_wf w₁ _ _ _ _
      · exact endLaunch_wf w₁ _ _ _ _
      · split
        next e =>
          rw [State.setRegion_mem, pinEvent_mem e]
          exact w₁
        · exact w₁
      · refine wf_mem_ite (by simp [w₁]) ?_
        extract_lets +onlyGivenNames same s₂
        have w₂ : Memory.wf s₂.mem = true := by simp only [s₂]; split <;> simp [w₁]
        clear_value s₂ same
        simp [w₂]

theorem execGraphEnd_canonical (l : Nat) : Out.Canonical (execGraphEnd l s) := by
  dsimp only [execGraphEnd]
  (repeat' first | with_reducible refine wf_mem_ite ?_ ?_ | with_reducible refine canonical_next_of ?_ | split) <;> simp [w]

theorem execLatencyClassExpiry_canonical (l : Nat) : Out.Canonical (execLatencyClassExpiry l s) := by
  dsimp only [execLatencyClassExpiry]
  (repeat' first | with_reducible refine wf_mem_ite ?_ ?_ | with_reducible refine canonical_next_of ?_ | split) <;> exact w

/-! ### Control words of mason cores -/

theorem execBr_canonical (x : MB) : Out.Canonical (execBr x s) := by
  dsimp only [execBr]
  exact runCore_canonical w _ _ (by intros; simp [w])

theorem execBrl_canonical (x : MB) : Out.Canonical (execBrl x s) := by
  dsimp only [execBrl]
  exact runCore_canonical w _ _ (by intros; simp [w])

theorem execBri_canonical (x : EA) : Out.Canonical (execBri x s) := by
  dsimp only [execBri]
  exact runCore_canonical w _ _ (by intros; simp [w])

theorem execBrli_canonical (x : EA) : Out.Canonical (execBrli x s) := by
  dsimp only [execBrli]
  exact runCore_canonical w _ _ (by intros; simp [w])

theorem execMovpc_canonical (x : EK) : Out.Canonical (execMovpc x s) := by
  dsimp only [execMovpc]
  exact runCore_canonical w _ _ (by intros; simp [w])

theorem execSysrd_canonical (x : EI) : Out.Canonical (execSysrd x s) := by
  dsimp only [execSysrd]
  refine runCore_canonical w _ _ fun c k => ?_
  split <;> simp [w]

theorem execSyswr_canonical (x : EI) : Out.Canonical (execSyswr x s) := by
  dsimp only [execSyswr]
  exact runCore_canonical w _ _ (by intros; simp [w])

theorem execTrap_canonical (x : EA) : Out.Canonical (execTrap x s) := by
  dsimp only [execTrap]
  exact runCore_canonical w _ _ (by intros; simp)

theorem execEret_canonical (x : EA) : Out.Canonical (execEret x s) := by
  dsimp only [execEret]
  exact runCore_canonical w _ _ (by intros; simp [w])

theorem execIdle_canonical (x : EA) : Out.Canonical (execIdle x s) := by
  dsimp only [execIdle]
  exact runCore_canonical w _ _ (by intros; simp [w])

theorem execWfe_canonical (x : EA) : Out.Canonical (execWfe x s) := by
  dsimp only [execWfe]
  exact runCore_canonical w _ _ (by intros; simp [w])

theorem execSev_canonical (x : EA) : Out.Canonical (execSev x s) := by
  dsimp only [execSev]
  exact runCore_canonical w _ _ (by intros; simp [w])

theorem execBrk_canonical (x : EA) : Out.Canonical (execBrk x s) := by
  dsimp only [execBrk]
  exact runCore_canonical w _ _ (by intros; simp)

theorem execHalt_canonical (x : EA) : Out.Canonical (execHalt x s) := by
  dsimp only [execHalt]
  exact runCore_canonical w _ _ (by intros; simp [w])

theorem execEventTrap_canonical (c : Nat) : Out.Canonical (execEventTrap c s) := by simp [execEventTrap, w]

theorem execIdleWake_canonical (c : Nat) : Out.Canonical (execIdleWake c s) := by simp [execIdleWake, w]

theorem execWfeWake_canonical (c : Nat) : Out.Canonical (execWfeWake c s) := by simp [execWfeWake, w]

/-! ### Requests of other devices -/

@[simp] theorem maskedWrite_wf (p : Nat) (bytes : List Byte) (mask : List Bool) : Memory.wf (maskedWrite s p bytes mask).mem = true := by
  dsimp only [maskedWrite]
  split
  · exact State.wf_setBytes _ _ w
  · refine foldl_wf (fun s b ws => ?_) _ w
    split
    · exact State.wf_setByte _ _ ws
    · exact ws

theorem execRdReq_canonical : Out.Canonical (execRdReq s) := by
  dsimp only [execRdReq]
  rcases nextIn s [] s.dltIn with ⟨_ | q, rest⟩
  · exact w
  · dsimp only
    cases q.op with
    | rd n =>
      dsimp only
      cases refusal ({ s with dltIn := rest }.takeTurn q.place) q n Window.r (· < 3) <;> simp [w]
    | _ => exact w

theorem execWrReq_canonical : Out.Canonical (execWrReq s) := by
  dsimp only [execWrReq]
  rcases nextIn s [] s.dltIn with ⟨_ | q, rest⟩
  · exact w
  · dsimp only
    cases q.op with
    | wr bytes =>
      dsimp only
      cases refusal ({ s with dltIn := rest }.takeTurn q.place) q bytes.length Window.w (· < 3) <;> simp [w]
    | _ => exact w

theorem execKuReq_canonical : Out.Canonical (execKuReq s) := by
  dsimp only [execKuReq]
  rcases nextIn s [] s.dltIn with ⟨_ | q, rest⟩
  · exact w
  · dsimp only
    cases q.op with
    | ku =>
      dsimp only
      cases refusal { s with dltIn := rest } q 4 Window.a (· == 4) <;> exact w
    | _ => exact w

theorem execAtReq_canonical : Out.Canonical (execAtReq s) := by
  dsimp only [execAtReq]
  rcases nextIn s [] s.dltIn with ⟨_ | q, rest⟩
  · exact w
  · dsimp only
    cases q.op with
    | at_ =>
      dsimp only
      cases refusal ({ s with dltIn := rest }.takeTurn q.place) q 8 Window.a (· < 3) <;> simp [w]
    | _ => exact w

@[simp] theorem eccRollback_wf (pk place : Nat) : Memory.wf (eccRollback s pk place).mem = true := by
  dsimp only [eccRollback]
  split <;> simp [w]

@[simp] theorem agAnswer_wf (a seq place : Nat) (ans : DltAns) : Memory.wf (agAnswer s a seq place ans).mem = true := by
  unfold agAnswer
  cases ans <;> simp [w]

@[simp] theorem portAnswer_wf (e target place : Nat) (ticket : Option Nat) (cmd : KCmd) (a : DltAns) :
    Memory.wf (portAnswer s e target place ticket cmd a).mem = true := by
  unfold portAnswer
  cases a with
  | err => cases ticket <;> simp [w]
  | _ => simp [w]

@[simp] theorem deliverAnswer_wf (q : DltReq) (a : DltAns) : Memory.wf (deliverAnswer s q a).mem = true := by
  dsimp only [deliverAnswer]
  cases q.src with
  | agLoad => exact agAnswer_wf w _ _ _ _
  | agStore => cases a <;> simp [w]
  | port => cases q.op <;> simp [w]
  | core => simp [w]
  | stRead =>
    cases q.op with
    | rd n =>
      cases a with
      | ecc => exact eccRollback_wf w _ _
      | _ => exact (congrArg Memory.wf (stReadAnswer_mem _ _ _ _ _ _)).trans w
    | _ =>
      cases a with
      | ecc => exact eccRollback_wf w _ _
      | _ => exact w
  | stWrite => simp [w]
  | seed => cases a <;> simp [w]
  | gone => exact w

theorem execDltAnswer_canonical : Out.Canonical (execDltAnswer s) := by
  dsimp only [execDltAnswer]
  rw [Out.canonical_next]
  split
  · split
    · split <;> simp [w]
    · exact w
  · exact w

theorem execDltTimeout_canonical (id : Nat) : Out.Canonical (execDltTimeout id s) := by
  dsimp only [execDltTimeout]
  cases s.dltOut.find? (·.id == id) with
  | none => exact w
  | some q =>
    refine wf_mem_ite w ?_
    cases q.src.pk? with
    | none =>
      cases q.src with
      | core c =>
        dsimp only
        cases (State.core _ c).pend <;> simp [w]
      | _ => exact w
    | some p =>
      have other : Memory.wf (match s.regionOf p.1 with
          | some rk => if (s.region rk).frozen || (s.region rk).relDue.isSome then s
            else rollback { s with dltOut := s.dltOut.map fun (x : DltReq) => if x.id = id then { x with sent := s.round } else x } rk
              (.deliveryTimeout 3 p.2)
          | none => { s with dltOut := s.dltOut.filter (·.id != id) }).mem = true := by
        cases s.regionOf p.1 <;> simp [w]
      cases q.src with
      | core c =>
        dsimp only
        cases (State.core _ c).pend <;> simp [w]
      | _ => exact other

/-! ### The device -/

@[simp] theorem resetDevice_wf : Memory.wf (resetDevice s).mem = true := Sparse.wf_filter _ _ w

theorem execDeviceReset_canonical : Out.Canonical (execDeviceReset s) := by simp [execDeviceReset, w]

omit w in
theorem execPowerLoss_canonical : Out.Canonical (execPowerLoss s) := rfl

@[simp] theorem romBoot_wf : Memory.wf (romBoot s).mem = true := by
  have booted : Memory.wf ((List.range 4).foldl noteRetired
      (((List.range 36).filter linkExists).foldl (fun s l => s.setLink l (trained l (s.link l))) s)).mem = true := by
    rwa [foldl_mem (by simp), foldl_mem (by intros; rfl)]
  dsimp only [romBoot]
  generalize (List.range 4).foldl noteRetired _ = t at booted ⊢
  generalize flashCopy t 0 = copy
  have first := State.wf_setBytes firmwareBase (copy.head ++ copy.body ++ copy.sig) booted
  cases copyVerified copy <;> dsimp only
  · generalize t.setBytes firmwareBase _ = u at first ⊢
    generalize flashCopy u _ = copy
    have second := State.wf_setBytes firmwareBase (copy.head ++ copy.body ++ copy.sig) first
    cases copyVerified copy <;> simpa using second
  · simpa using first

theorem execAttestationGo_canonical : Out.Canonical (execAttestationGo s) := by simp [execAttestationGo, w]

theorem execAttestationDone_canonical : Out.Canonical (execAttestationDone s) := by
  dsimp only [execAttestationDone]
  (repeat' first | with_reducible refine wf_mem_ite ?_ ?_ | with_reducible refine canonical_next_of ?_ | split) <;> exact w

theorem execFatalError_canonical (cause : Nat) : Out.Canonical (execFatalError cause s) := by
  dsimp only [execFatalError]
  refine foldl_wf (fun s l ws => endLaunch_wf ws _ _ _ _) _ ?_
  rw [foldl_mem (by intros; rfl)]
  exact State.wf_setBytes _ _ w

theorem serve_canonical (type : Nat) {f : HostMsg → State → State} (h : ∀ m t, Memory.wf t.mem = true → Memory.wf (f m t).mem = true) :
    Out.Canonical (serve type f s) := by
  unfold serve
  rw [Out.canonical_next]
  dsimp only
  (repeat' split) <;> first | exact w | skip
  exact h _ _ w

theorem execHostLaunch_canonical : Out.Canonical (execHostLaunch s) := by
  refine serve_canonical w _ fun m t wt => ?_
  have appended := wqAppend_wf (s := { t with power := 0 }) wt m.low m.body false
  dsimp only
  split
  · exact wt
  · split <;> rename_i e <;> simpa [e] using appended

theorem execHostMread_canonical : Out.Canonical (execHostMread s) :=
  serve_canonical w _ fun m t wt => by simp [wt]

theorem execHostMwrite_canonical : Out.Canonical (execHostMwrite s) :=
  serve_canonical w _ fun m t wt => by simp [wt]

@[simp] theorem enterPower_wf (n : Nat) : Memory.wf (enterPower s n).mem = true := by
  dsimp only [enterPower]
  split
  · exact Sparse.wf_filter _ _ w
  · exact w

theorem execHostPower_canonical : Out.Canonical (execHostPower s) :=
  serve_canonical w _ fun m t wt => by simp [wt]

theorem execHostReset_canonical : Out.Canonical (execHostReset s) :=
  serve_canonical w _ fun m t wt => by simp [wt]

theorem execHostMessage_canonical : Out.Canonical (execHostMessage s) := by
  dsimp only [execHostMessage]
  split <;> simp [w]

theorem execPowerLimitIdle_canonical (u : UnitRef) : Out.Canonical (execPowerLimitIdle u s) := by
  dsimp -zeta only [execPowerLimitIdle]
  extract_lets +onlyGivenNames idles s₁
  have w₁ : Memory.wf s₁.mem = true := w
  clear_value s₁
  rw [Out.canonical_next]
  split
  · simpa using w₁
  · exact w₁

theorem execPatrolScrub_canonical (die vault granule : Nat) : Out.Canonical (execPatrolScrub die vault granule s) := by
  dsimp only [execPatrolScrub]
  (repeat' split) <;> simp [w, State.wf_setBytes]

/-! ### Floating forms -/

theorem runFp_canonical (op : Nat) (x : EA) (f : BitVec 3) (g : Num.Env → Word → Word → Word → FpAlu.FRes) :
    Out.Canonical (runFp op x f g s) := by
  dsimp only [runFp]
  exact runElem_canonical w _ _ (by intros; simp)

theorem execFrfl_canonical (x : EA) : Out.Canonical (execFrfl x s) := by
  dsimp only [execFrfl]
  exact runElem_canonical w _ _ (by intros; simp)

theorem execFwfl_canonical (x : EA) : Out.Canonical (execFwfl x s) := by
  dsimp only [execFwfl]
  exact runElem_canonical w _ _ (by intros; simp)

theorem execFclr_canonical (x : EA) : Out.Canonical (execFclr x s) := by
  dsimp only [execFclr]
  exact runElem_canonical w _ _ (by intros; simp)

/-! ### Integer forms -/

theorem execBfi_canonical (x : EA) : Out.Canonical (execBfi x s) := by
  dsimp only [execBfi]
  exact runShared_canonical w _ _ (by intros; simp) (by intros; simp [w])

theorem execSel_canonical (x : EA) (f : BitVec 3) : Out.Canonical (execSel x f s) := by
  dsimp only [execSel]
  exact runShared_canonical w _ _ (by intros; simp) (by intros; simp [w])

theorem execMovk_canonical (x : EK) : Out.Canonical (execMovk x s) := by
  dsimp only [execMovk]
  exact runShared_canonical w _ _ (by intros; simp) (by intros; simp [w])

theorem execMovks_canonical (x : EK) : Out.Canonical (execMovks x s) := by
  dsimp only [execMovks]
  exact runShared_canonical w _ _ (by intros; simp) (by intros; simp [w])

theorem execMov_canonical (x : EA) (f : BitVec 3) : Out.Canonical (execMov x f s) := by
  dsimp only [execMov]
  refine runShared_canonical w _ _ (fun e slot o => ?_) fun c k => w
  cases outOf x.d <;> simp

theorem execFwd_canonical (x : EA) : Out.Canonical (execFwd x s) := by
  dsimp only [execFwd]
  exact runElem_canonical w _ _ (by intros; simp)

theorem execErrt_canonical (x : EA) : Out.Canonical (execErrt x s) := by
  dsimp only [execErrt]
  exact runElem_canonical w _ _ (by intros; simp)

theorem execPget_canonical (x : EA) : Out.Canonical (execPget x s) := by
  dsimp only [execPget]
  exact runShared_canonical w _ _ (by intros; simp) (by intros; simp [w])

theorem runPmov_canonical (x : EA) (f : BitVec 3) (g : BitVec 8 → BitVec 8 → BitVec 8) : Out.Canonical (runPmov x f g s) := by
  dsimp only [runPmov]
  exact runShared_canonical w _ _ (by intros; simp) (by intros; simp [w])

theorem execNop_canonical (x : EA) : Out.Canonical (execNop x s) := by
  dsimp only [execNop]
  exact runShared_canonical w _ _ (by intros; simp) (by intros; simp [w])

theorem execLld_canonical (x : EI) : Out.Canonical (execLld x s) := by
  dsimp only [execLld]
  exact runElem_canonical w _ _ (by intros; simp)

theorem execLst_canonical (x : EI) : Out.Canonical (execLst x s) := by
  dsimp only [execLst]
  exact runElem_canonical w _ _ (by intros; simp)

theorem execEtrap_canonical (x : EA) (f : BitVec 3) : Out.Canonical (execEtrap x f s) := by
  dsimp only [execEtrap]
  exact runElem_canonical w _ _ (by intros; simp)

theorem execEhalt_canonical (x : EA) : Out.Canonical (execEhalt x s) := by
  dsimp only [execEhalt]
  exact runElem_canonical w _ _ (by intros; simp)

/-! ### Engine words of mason cores -/

theorem execSlotrd_canonical (x : EA) : Out.Canonical (execSlotrd x s) := by
  dsimp only [execSlotrd]
  refine runSys_canonical w _ _ _ fun c y a b => ?_
  cases engineArg s a false <;> try trivial
  cases selectorOf b <;> try trivial
  next e sel =>
    dsimp only
    cases islandItem (s.island (engineKey e sel.plane)) sel.kind sel.index <;> simp [w]

theorem execSlotwr_canonical (x : EA) : Out.Canonical (execSlotwr x s) := by
  unfold execSlotwr
  refine runSys_canonical w _ _ _ fun c y a b => ?_
  dsimp only
  (repeat' first | with_reducible refine wf_mem_ite ?_ ?_ | with_reducible refine canonical_next_of ?_ | split) <;> simp [w]

theorem execIslst_canonical (x : EA) : Out.Canonical (execIslst x s) := by
  unfold execIslst
  refine runSys_canonical w _ _ _ fun c y a b => ?_
  dsimp only
  (repeat' first | with_reducible refine wf_mem_ite ?_ ?_ | with_reducible refine canonical_next_of ?_ | split) <;> simp [w]

theorem execStrd_canonical (x : EA) : Out.Canonical (execStrd x s) := by
  unfold execStrd
  refine runSys_canonical w _ _ _ fun c y a b => ?_
  dsimp only
  (repeat' first | with_reducible refine wf_mem_ite ?_ ?_ | with_reducible refine canonical_next_of ?_ | split) <;> simp [w]

theorem execStwr_canonical (x : EA) : Out.Canonical (execStwr x s) := by
  unfold execStwr
  refine runSys_canonical w _ _ _ fun c y a b => ?_
  dsimp only
  (repeat' first | with_reducible refine wf_mem_ite ?_ ?_ | with_reducible refine canonical_next_of ?_ | split) <;> simp [w]

theorem execStst_canonical (x : EA) : Out.Canonical (execStst x s) := by
  unfold execStst
  refine runSys_canonical w _ _ _ fun c y a b => ?_
  dsimp only
  (repeat' first | with_reducible refine wf_mem_ite ?_ ?_ | with_reducible refine canonical_next_of ?_ | split) <;> simp [w]

@[simp] theorem ksAccess_canonical (c ks : Nat) (cmd : KCmd) (p : CorePend) : (ksAccess s c ks cmd p).Canonical := by
  simp [ksAccess, w]

theorem runKsa_canonical (f : BitVec 3) (x : EA) (write : Bool) (op : Dword → KOp) : Out.Canonical (runKsa f x write op s) := by
  unfold runKsa
  refine runSys_canonical w _ _ _ fun c y a b => ?_
  dsimp only
  rcases e : resolve s c a (!write) write with ⟨t, v⟩
  have wt := resolve_wf w e
  cases v <;> simp [wt]

/-! ### Issue -/

@[simp] theorem issueReject_canonical (x : Dword) : Out.Canonical (issueReject x s) := by
  dsimp only [issueReject]
  split <;> simp [w]

/-- Every word keeps the canonical form: those of one form together, then those that have a meaning of their own. -/
theorem exec_word_canonical {i : Instr} {x : Body} (hb : i.body? = some x) :
    Out.Canonical (exec i s) := by
  cases i with
  | add _ | sub _ | and _ | or _ | xor _ | andn _ | min _ | max _ | minu _ | maxu _ | adds _ | subs _ | addsu _ | subsu _ | absd _ | avg _
  | shl _ | shr _ | sar _ | rol _ | ror _ | mul _ | mulhs _ | mulhu _ | mulhsu _ | divs _ | divu _ | rems _ | remu _ | cmpeq _ | cmpne _
  | cmplt _ | cmple _ | cmpltu _ | cmpleu _ | tst _ | tstn _ | clz _ | ctz _ | popc _ | brev _ | bswap _ | sexb _ | sexh _ | zexh _
  | bfxu _ | bfxs _ => exact runAlu_canonical w _ _ _ _
  | addi _ | andi _ | ori _ | xori _ | shli _ | shri _ | sari _ | cmpieq _ | cmpilt _ | cmpiltu _ | muli _ => exact runAluImm_canonical w _ _ _
  | pput _ | psetm _ | pclrm _ => dsimp only [exec]; exact runPmov_canonical w _ _ _
  | add2h _ | sub2h _ | max2h _ | min2h _ | max2hu _ | min2hu _ | add4b _ | sub4b _ | max4b _ | min4b _ | sad4b _ | dot4b _ | dot4bu _
    => exact runPacked_canonical w _ _ _ _
  | fadd _ | fsub _ | fmul _ | fdiv _ | fmin _ | fmax _ | fminn _ | fmaxn _ | fma _ | fms _ | fnma _ | fnms _ | fceq _ | fclt _ | fcle _
  | fcun _ | fcne _ | fceqs _ | fclts _ | fcles _ | fsqrt _ | fabs _ | fneg _ | fclass _ | frcpa _ | frsqa _ | frint _ | fcpys _ | i2f _
  | n2f _ | f2i _ | f2iz _ | f2n _ | f2bf _ | bf2fl _ | bf2fh _ | f2h _ | h2fl _ | h2fh _ | badd2 _ | bsub2 _ | bmul2 _ | bfma2 _ | bmax2 _
  | bmin2 _ | bdot2 _ | bmaxv2 _ | hadd2 _ | hsub2 _ | hmul2 _ | hfma2 _ | hmax2 _ | hmin2 _ | hdot2 _ | bceq2 _ | bclt2 _ | bcle2 _
  | bcun2 _ | hceq2 _ | hclt2 _ | hcle2 _ | hcun2 _ | qdot4 _ | qunpl _ | qunph _ | qpack _ | qamax _ | q2f _ | f2q _ | qscl _ | reqRne _
  | reqRna _ | reqRtz _ | reqRup _ | reqRdn _ | reqFctl _ => dsimp only [exec]; exact runFp_canonical w _ _ _ _
  | contrib _ | contribc _ | cclose _ => exact runContrib_canonical w _ _ _ _
  | mxtMma _ | mxtBind _ | mxtRebind _ | mxtRelease _ | mxtSpill _ | mxtFlush _ | mxtSetup _ | mxtIfence _ | stcCopy _ | stcGather _
  | stcScatter _ | stcFlagf _ | stcBatch _ | stcWaitb _ | stcInject _ | stcEvict _ => exact runCommand_canonical w _ _ _
  | amoAdd _ | amoAdds _ | amoMin _ | amoMax _ | amoAnd _ | amoOr _ | amoXor _ | amoSwap _ | amofFadd _ | amofFmax _ | amofFmin _
  | amofBadd2 _ => exact runPosted_canonical w _ _ _ _
  | amorAdd _ | amorAdds _ | amorMin _ | amorMax _ | amorAnd _ | amorOr _ | amorXor _ | amorSwap _ | amoc _ _
    => dsimp only [exec]; exact runIrrevocable_canonical w _ _ _ _
  | schdNext _ | schdReset _ => exact runSchd_canonical w _ _ _
  | ldb _ | ldh _ | ldw _ | ldd _ | ldbs _ | ldhs _ | ldws _ => exact runLoad_canonical w _ _ _ _
  | stb _ | sth _ | stw _ | std _ => exact runStore_canonical w _ _ _
  | mamoAdd _ | mamoMin _ | mamoMax _ | mamoAnd _ | mamoOr _ | mamoXor _ | mamoSwap _ | mamoCas _ => exact runMamo_canonical w _ _
  | fenceAll _ | fenceLd _ | fenceSt _ | fenceAcq _ | fenceRel _ | fenceCfg _ => exact runFence_canonical w _ _
  | crcb _ | crch _ | crcw _ | crcd _ => exact runCrc_canonical w _ _ _
  | ksrd _ | kswr _ | ksst _ => dsimp only [exec]; exact runKsa_canonical w _ _ _ _
  | bfi x => exact execBfi_canonical w x
  | sel x f => exact execSel_canonical w x f
  | movk x => exact execMovk_canonical w x
  | movks x => exact execMovks_canonical w x
  | mov x f => exact execMov_canonical w x f
  | fwd x => exact execFwd_canonical w x
  | pget x => exact execPget_canonical w x
  | nop x => exact execNop_canonical w x
  | lld x => exact execLld_canonical w x
  | lst x => exact execLst_canonical w x
  | etrap x f => exact execEtrap_canonical w x f
  | errt x => exact execErrt_canonical w x
  | ehalt x => exact execEhalt_canonical w x
  | frfl x => exact execFrfl_canonical w x
  | fwfl x => exact execFwfl_canonical w x
  | fclr x => exact execFclr_canonical w x
  | settle x => exact execSettle_canonical w x
  | peek x => exact execPeek_canonical w x
  | cstat x => exact execCstat_canonical w x
  | cpoll x => exact execCpoll_canonical w x
  | crst x => exact execCrst_canonical w x
  | mxq x => exact execMxq_canonical w x
  | br x => exact execBr_canonical w x
  | brl x => exact execBrl_canonical w x
  | bri x => exact execBri_canonical w x
  | brli x => exact execBrli_canonical w x
  | movpc x => exact execMovpc_canonical w x
  | iinv x => exact execIinv_canonical w x
  | iinva x => exact execIinva_canonical w x
  | sysrd x => exact execSysrd_canonical w x
  | syswr x => exact execSyswr_canonical w x
  | trap x => exact execTrap_canonical w x
  | eret x => exact execEret_canonical w x
  | idle x => exact execIdle_canonical w x
  | wfe x => exact execWfe_canonical w x
  | sev x => exact execSev_canonical w x
  | brk x => exact execBrk_canonical w x
  | halt x => exact execHalt_canonical w x
  | cfgw x => exact execCfgw_canonical w x
  | cfgr x => exact execCfgr_canonical w x
  | cfgcommit x => exact execCfgcommit_canonical w x
  | cfgabort x => exact execCfgabort_canonical w x
  | cfgstat x => exact execCfgstat_canonical w x
  | planesel x => exact execPlanesel_canonical w x
  | snaprd x => exact execSnaprd_canonical w x
  | rollbk x => exact execRollbk_canonical w x
  | freeze x => exact execFreeze_canonical w x
  | thaw x => exact execThaw_canonical w x
  | readout x => exact execReadout_canonical w x
  | restore x => exact execRestore_canonical w x
  | probe x => exact execProbe_canonical w x
  | drainreq x => exact execDrainreq_canonical w x
  | shka x => exact execShka_canonical w x
  | shks x => exact execShks_canonical w x
  | sigv x => exact execSigv_canonical w x
  | secst x => exact execSecst_canonical w x
  | wqpop x => exact execWqpop_canonical w x
  | wqpush x => exact execWqpush_canonical w x
  | wqstat x => exact execWqstat_canonical w x
  | evpop x => exact execEvpop_canonical w x
  | evack x => exact execEvack_canonical w x
  | evstat x => exact execEvstat_canonical w x
  | lkst x => exact execLkst_canonical w x
  | lkrt x => exact execLkrt_canonical w x
  | lkctl x => exact execLkctl_canonical w x
  | tlbi x => exact execTlbi_canonical w x
  | pwalk x => exact execPwalk_canonical w x
  | migr x => exact execMigr_canonical w x
  | migq x => exact execMigq_canonical w x
  | slotrd x => exact execSlotrd_canonical w x
  | slotwr x => exact execSlotwr_canonical w x
  | islst x => exact execIslst_canonical w x
  | strd x => exact execStrd_canonical w x
  | stwr x => exact execStwr_canonical w x
  | stst x => exact execStst_canonical w x
  | _ => exact absurd hb.symm (Option.some_ne_none x)

theorem issueWord_canonical (x : Dword) : Out.Canonical (issueWord x s) := by
  rw [issueWord_eq]
  cases h : decodeWord x with
  | ok i => exact exec_word_canonical w (encode_of_decodeWord h).2
  | error _ => exact issueReject_canonical w x

theorem issueRule_canonical (x : Dword) : Out.Canonical (issueRule x s) := by
  dsimp only [issueRule]
  split
  · exact issueWord_canonical w x
  · exact w

theorem fireRules_canonical (e : Nat) (rules : List (Nat × Dword)) :
    Out.Canonical (fireRules e rules s) := by
  induction rules generalizing s with
  | nil => exact w
  | cons rule rest ih =>
    have fired := issueRule_canonical (s := { s with cur := .element e rule.1 }) w rule.2
    dsimp only [fireRules]
    split
    next h => exact ih (by rwa [h] at fired)
    next => exact fired

theorem execScheduleRound_canonical (e : Nat) : Out.Canonical (execScheduleRound e s) := by
  unfold execScheduleRound
  split
  · exact w
  · dsimp only
    have fired := fireRules_canonical w e ((choose (s.elem e) (walkOrder (s.elem e) (eligibleSlots (s.elem e) s.round))).map fun c =>
      (c.1, (s.elem e).slots.get 0 c.1))
    split
    next h =>
      rw [h, Out.canonical_next] at fired
      rw [Out.canonical_next, State.modElem_mem]
      split
      · rwa [State.touch_mem]
      · exact fired
    next => exact fired

theorem execInstructionFetch_canonical (c : Nat) : Out.Canonical (execInstructionFetch c s) := by
  dsimp only [execInstructionFetch]
  split
  · exact w
  · split
    · exact romBoot_wf w
    · have fetched : Memory.wf (fetchAt (s.setCore c ((s.core c).landed s.round)) c).1.mem = true := by rwa [fetchAt_mem]
      split <;> rename_i h <;> rw [h] at fetched
      · rwa [Out.canonical_next, State.takeTrap_mem]
      · exact fetched
      · refine issueWord_canonical ?_ _
        exact fetched

/-- Every instruction keeps the canonical form: an event by its own lemma, and a word by `exec_word_canonical`. -/
theorem exec_canonical (i : Instr) : Out.Canonical (exec i s) := by
  cases i with
  | scheduleRound e => exact execScheduleRound_canonical w e
  | resultLands e => exact execResultLands_canonical w e
  | outputTokenAccept ch => exact execOutputTokenAccept_canonical w ch
  | tokenReceipt ch dst => exact execTokenReceipt_canonical w ch dst
  | creditReturn ch => exact execCreditReturn_canonical w ch
  | deliveryTimeout ch => exact execDeliveryTimeout_canonical w ch
  | frameTableStep die => exact execFrameTableStep_canonical w die
  | workQueueTake die => exact execWorkQueueTake_canonical w die
  | launchAdmit l => exact execLaunchAdmit_canonical w l
  | preemptedRestore l => exact execPreemptedRestore_canonical w l
  | configurationWaveHop r => exact execConfigurationWaveHop_canonical w r
  | seedInjection r => exact execSeedInjection_canonical w r
  | nextCourseWrite l => exact execNextCourseWrite_canonical w l
  | graphEnd l => exact execGraphEnd_canonical w l
  | latencyClassExpiry l => exact execLatencyClassExpiry_canonical w l
  | elementDrain e => exact execElementDrain_canonical w e
  | tileDrn pk => exact execTileDrn_canonical w pk
  | engineDrainPass u => exact execEngineDrainPass_canonical w u
  | mkroundsExpiry r => exact execMkroundsExpiry_canonical w r
  | mktokensReached u => exact execMktokensReached_canonical w u
  | startRequestHop r => exact execStartRequestHop_canonical w r
  | snapshotEv u => exact execSnapshotEv_canonical w u
  | cutComplete r => exact execCutComplete_canonical w r
  | relEv r => exact execRelEv_canonical w r
  | rollbackEv r cause => exact execRollbackEv_canonical w r cause
  | handEv tile bank => exact execHandEv_canonical w tile bank
  | bankScrub tile bank => exact execBankScrub_canonical w tile bank
  | bankService tile => exact execBankService_canonical w tile
  | agRequestIssue a => exact execAgRequestIssue_canonical w a
  | agLoadData a => exact execAgLoadData_canonical w a
  | walkEv die => exact execWalkEv_canonical w die
  | repeatNodeFill pk => exact execRepeatNodeFill_canonical w pk
  | repeatNodeCount pk => exact execRepeatNodeCount_canonical w pk
  | repeatNodeEmit pk => exact execRepeatNodeEmit_canonical w pk
  | scheduleNodeServe pk => exact execScheduleNodeServe_canonical w pk
  | contribLocal h k => exact execContribLocal_canonical w h k
  | closeNotice h k => exact execCloseNotice_canonical w h k
  | gatherIssue h => exact execGatherIssue_canonical w h
  | gatherRead h k => exact execGatherRead_canonical w h k
  | settleReply h => exact execSettleReply_canonical w h
  | resetArrival h k => exact execResetArrival_canonical w h k
  | resetAck h k => exact execResetAck_canonical w h k
  | updateIssue ks => exact execUpdateIssue_canonical w ks
  | irrevocableDeparture e => exact execIrrevocableDeparture_canonical w e
  | keystoneReply e => exact execKeystoneReply_canonical w e
  | migrationCopyDone ks => exact execMigrationCopyDone_canonical w ks
  | keystoneForward ks => exact execKeystoneForward_canonical w ks
  | streamerCommandAccept st => exact execStreamerCommandAccept_canonical w st
  | streamerCommandComplete st id => exact execStreamerCommandComplete_canonical w st id
  | flagfWrite st id => exact execFlagfWrite_canonical w st id
  | streamerDrain st => exact execStreamerDrain_canonical w st
  | collectiveStart st => exact execCollectiveStart_canonical w st
  | collectiveHop st => exact execCollectiveHop_canonical w st
  | bucketComplete st b => exact execBucketComplete_canonical w st b
  | islandCommandAccept isl => exact execIslandCommandAccept_canonical w isl
  | spillTransferDone isl => exact execSpillTransferDone_canonical w isl
  | mmaComplete isl => exact execMmaComplete_canonical w isl
  | resultEmit isl => exact execResultEmit_canonical w isl
  | islandCheckpointWrite isl slot => exact execIslandCheckpointWrite_canonical w isl slot
  | islandDrain isl => exact execIslandDrain_canonical w isl
  | instructionFetch c => exact execInstructionFetch_canonical w c
  | eventTrap c => exact execEventTrap_canonical w c
  | idleWake c => exact execIdleWake_canonical w c
  | wfeWake c => exact execWfeWake_canonical w c
  | coreRunWrite c v => exact execCoreRunWrite_canonical w c v
  | commitWaveHop r => exact execCommitWaveHop_canonical w r
  | deadlockProbeAuto r => exact execDeadlockProbeAuto_canonical w r
  | fatalError cause => exact execFatalError_canonical w cause
  | hostLaunch => exact execHostLaunch_canonical w
  | hostMread => exact execHostMread_canonical w
  | hostMwrite => exact execHostMwrite_canonical w
  | hostPower => exact execHostPower_canonical w
  | hostReset => exact execHostReset_canonical w
  | rdReq => exact execRdReq_canonical w
  | wrReq => exact execWrReq_canonical w
  | kuReq => exact execKuReq_canonical w
  | atReq => exact execAtReq_canonical w
  | dltAnswer => exact execDltAnswer_canonical w
  | dltTimeout id => exact execDltTimeout_canonical w id
  | linkRetrain l => exact execLinkRetrain_canonical w l
  | retrainComplete l => exact execRetrainComplete_canonical w l
  | retrainTimeout l failed modules => exact execRetrainTimeout_canonical w l failed modules
  | powerLimitIdle u => exact execPowerLimitIdle_canonical w u
  | deviceReset => exact execDeviceReset_canonical w
  | attestationGo => exact execAttestationGo_canonical w
  | attestationDone => exact execAttestationDone_canonical w
  | rangeWordWrite ks v => exact execRangeWordWrite_canonical w ks v
  | tileRetire tile => exact execTileRetire_canonical w tile
  | patrolScrub die vault granule => exact execPatrolScrub_canonical w die vault granule
  | registerWrite place v => exact execRegisterWrite_canonical w place v
  | powerLoss => exact execPowerLoss_canonical
  | linkLevelReplay l => exact execLinkLevelReplay_canonical w l
  | hostMessage => exact execHostMessage_canonical w
  | _ => exact exec_word_canonical w rfl

/-- Every step keeps memory in its canonical form: the first instruction of the agenda does, and the turn of a round. -/
theorem step_canonical : Out.Canonical (step s) := by
  dsimp only [step]
  split
  · exact w
  · refine exec_canonical ?_ _
    exact w

end
end Sys2Proof.Machine

namespace Sys2Proof.Claims

open Sys2Proof.Machine

/-- Settles O60. What each step writes of memory keeps the form (`exec_canonical`), and every other function leaves memory as it is. -/
theorem stepKeepsMemory : Obligations.StepKeepsMemory := by
  intro s t w h
  have canonical := step_canonical w
  rwa [h] at canonical

end Sys2Proof.Claims
end

section
/-! PROOFS. How a mason address becomes a place (R185-R189, R296, R299, R405). -/

namespace Sys2Proof.Machine

open Sys2Proof.Claims (missing moving filled EntryBad)

/-! ### The judgement of a leaf (R188, R296) -/

theorem refuses_iff_missing (d : Dword) (r w : Bool) : ((r && !leafR d) || (w && !leafW d)) = true ↔ missing d r w := by
  simp [missing]

theorem judgeWalk_missing {d : Dword} {r w : Bool} (h : missing d r w) (va lv : Nat) : judgeWalk va r w (.leaf lv d) = .bad 2 :=
  if_pos ((refuses_iff_missing d r w).mpr h)

theorem judgeWalk_leaf {d : Dword} {r w : Bool} (h : ¬missing d r w) (va lv : Nat) :
    judgeWalk va r w (.leaf lv d) = if w = true ∧ leafM d = true then .wait else .place (leafPlace lv d va) := by
  have judged : judgeWalk va r w (.leaf lv d) = if (w && leafM d) = true then .wait else .place (leafPlace lv d va) :=
    if_neg fun refused => h ((refuses_iff_missing d r w).mp refused)
  simpa using judged

theorem judgeWalk_moving {d : Dword} {r w : Bool} (h : moving d r w) (va lv : Nat) : judgeWalk va r w (.leaf lv d) = .wait :=
  (judgeWalk_leaf h.1 va lv).trans (if_pos h.2)

theorem judgeWalk_still {d : Dword} {r w : Bool} (present : ¬missing d r w) (still : ¬moving d r w) (va lv : Nat) :
    judgeWalk va r w (.leaf lv d) = .place (leafPlace lv d va) :=
  (judgeWalk_leaf present va lv).trans (if_neg fun h => still ⟨present, h⟩)

/-! ### Addresses (R296) -/

/-- A virtual address: the translation, and a second walk where its leaf migrates. -/
theorem resolve_virtual {s : State} {c : Nat} {a : Dword} {r w : Bool} (ha : a.toNat < 2 ^ 56) {t : State} {x : WalkRes}
    (h : translate s c a.toNat = (t, x)) : resolve s c a r w =
      (t, if judgeWalk a.toNat r w x = .wait then judgeWalk a.toNat r w (walk t a.toNat ((t.core c).mctx.toNat % 4096))
        else judgeWalk a.toNat r w x) := by
  have virt : a.getLsbD 63 = false := by
    rw [← BitVec.testBit_toNat]
    exact Nat.testBit_lt_two_pow (by omega)
  have inside : ¬a.toNat / 2 ^ 56 ≠ 0 := by omega
  unfold resolve
  dsimp only
  rw [virt, if_neg Bool.false_ne_true, if_neg inside, h]
  cases judgeWalk a.toNat r w x <;> rfl

theorem translate_hit {s : State} {c va : Nat} {l : Leaf} (h : findLeaf (s.core c).tlb va ((s.core c).mctx.toNat % 4096) = some l) :
    translate s c va = (s, .leaf l.level l.dword) := by
  simp [translate, h]

theorem translate_leaf {s : State} {c va lv : Nat} {d : Dword} (h : findLeaf (s.core c).tlb va ((s.core c).mctx.toNat % 4096) = none)
    (leaf : walk s va ((s.core c).mctx.toNat % 4096) = .leaf lv d) : translate s c va = (filled s c va lv d, .leaf lv d) := by
  simp [translate, h, leaf, filled]

theorem translate_none {s : State} {c va : Nat} {x : WalkRes} (h : findLeaf (s.core c).tlb va ((s.core c).mctx.toNat % 4096) = none)
    (walked : walk s va ((s.core c).mctx.toNat % 4096) = x) (noLeaf : ∀ lv d, x ≠ .leaf lv d) :
    translate s c va = (walkCorrected s va ((s.core c).mctx.toNat % 4096), x) := by
  unfold translate
  simp only [h, walked]

/-! ### The walk (R185, R187, R299) -/

theorem leNat_lt (bs : List Byte) : leNat bs < 2 ^ (8 * bs.length) := by
  induction bs with
  | nil => decide
  | cons b bs ih =>
    have := b.isLt
    rw [List.length_cons, Nat.mul_succ, Nat.pow_add]
    unfold leNat
    omega

theorem read_lt (s : State) (p n : Nat) : s.read p n < 2 ^ (8 * n) := by
  simpa [State.read, State.bytes] using leNat_lt (s.bytes p n)

theorem toNat_extractLsb'_ofNat {n : Nat} (h : n < 2 ^ 64) (i k : Nat) :
    ((BitVec.ofNat 64 n).extractLsb' i k).toNat = n / 2 ^ i % 2 ^ k := by
  rw [BitVec.extractLsb'_toNat, Nat.shiftRight_eq_div_pow, BitVec.toNat_ofNat, Nat.mod_eq_of_lt h]

theorem extractLsb'_ofNat_eq_zero {n : Nat} (h : n < 2 ^ 64) (i k : Nat) :
    (BitVec.ofNat 64 n).extractLsb' i k = 0 ↔ n / 2 ^ i % 2 ^ k = 0 := by
  rw [← toNat_extractLsb'_ofNat h, ← BitVec.toNat_inj]
  rfl

theorem getLsbD_ofNat_iff {n k : Nat} (h : k < 64) : (BitVec.ofNat 64 n).getLsbD k = true ↔ n / 2 ^ k % 2 = 1 := by
  rw [BitVec.getLsbD_ofNat, Nat.testBit_eq_decide_div_mod_eq]
  simp only [h, decide_true, Bool.true_and, decide_eq_true_eq]

/-- A leaf's SIZE is the one of its level: 5 less the level from L1 on, and none at L0 (R185). -/
theorem ne_leafSize_iff {lv size : Nat} (hlv : lv ≤ 4) (hsize : size < 8) : size ≠ leafSize lv ↔ 4 < size ∨ size + lv ≠ 5 := by
  rcases lv with _ | _ | _ | _ | _ | lv <;> simp only [leafSize] <;> omega

/-- The two readings of R187's list of malformed entries: by fields of the dword, and by arithmetic of its value. -/
theorem entryBad_iff {s : State} {lv n : Nat} (hlv : lv ≤ 4) (hn : n < 2 ^ 64) :
    EntryBad s lv (BitVec.ofNat 64 n) ↔ entryMalformed s lv n = true := by
  have size := ne_leafSize_iff hlv (Nat.mod_lt (n / 2 ^ 55) (by decide : 0 < 8))
  unfold EntryBad entryMalformed
  simp only [toNat_extractLsb'_ofNat hn, ne_eq, extractLsb'_ofNat_eq_zero hn, Nat.reducePow] at size ⊢
  generalize n / 36028797018963968 % 8 = k at size ⊢
  by_cases zero : k = 0
  · simp [zero, or_assoc]
  · simp [zero, size, or_assoc]

/-- One level of a walk, by the fields of the entry that it reads. -/
theorem walkFrom_entry {s : State} {va n lv t p : Nat} {e : Dword} (hlv : lv ≤ 4) (hp : p = entryPlace va lv t)
    (he : e = BitVec.ofNat 64 (s.read p 8)) :
    (s.eccAt p 8 = true → walkFrom s va (n + 1) lv t = .ecc lv p)
    ∧ (s.eccAt p 8 = false →
      (e.getLsbD 63 = false → walkFrom s va (n + 1) lv t = .notPresent lv)
      ∧ (e.getLsbD 63 = true → EntryBad s lv e → walkFrom s va (n + 1) lv t = .malformed lv)
      ∧ (e.getLsbD 63 = true → ¬EntryBad s lv e → e.extractLsb' 55 3 ≠ 0 → walkFrom s va (n + 1) lv t = .leaf lv e)
      ∧ (e.getLsbD 63 = true → ¬EntryBad s lv e → e.extractLsb' 55 3 = 0 →
          walkFrom s va (n + 1) lv t = walkFrom s va n (lv + 1) ((e.extractLsb' 0 55).toNat * 32))) := by
  have small : s.read p 8 < 2 ^ 64 := read_lt s p 8
  have next : walkFrom s va (n + 1) lv t = if s.eccAt p 8 then .ecc lv p
      else if s.read p 8 / 2 ^ 63 % 2 = 0 then .notPresent lv
      else if entryMalformed s lv (s.read p 8) then .malformed lv
      else if s.read p 8 / 2 ^ 55 % 8 ≠ 0 then .leaf lv e
      else walkFrom s va n (lv + 1) (s.read p 8 % 2 ^ 55 * 32) := by
    rw [he, hp]
    rfl
  have valid : e.getLsbD 63 = true ↔ ¬s.read p 8 / 2 ^ 63 % 2 = 0 := by
    rw [he, getLsbD_ofNat_iff (by decide)]
    omega
  have bad : EntryBad s lv e ↔ entryMalformed s lv (s.read p 8) = true := by rw [he, entryBad_iff hlv small]
  have table : e.extractLsb' 55 3 = 0 ↔ s.read p 8 / 2 ^ 55 % 8 = 0 := (he ▸ extractLsb'_ofNat_eq_zero small 55 3)
  have below : (e.extractLsb' 0 55).toNat = s.read p 8 % 2 ^ 55 := by
    rw [he, toNat_extractLsb'_ofNat small, Nat.pow_zero, Nat.div_one]
  rw [next]
  refine ⟨fun ecc => if_pos ecc, fun sound => ?_⟩
  rw [sound, if_neg Bool.false_ne_true, bad, table, below, valid, ← Bool.not_eq_true, valid, Decidable.not_not]
  refine ⟨fun absent => if_pos absent, fun v malformed => ?_, fun v good leaf => ?_, fun v good down => ?_⟩
  · rw [if_neg v, if_pos malformed]
  · rw [if_neg v, if_neg good, if_pos fun h => leaf (table.mpr h)]
  · rw [if_neg v, if_neg good, if_neg fun leaf => leaf down]

theorem walkCorrected_of_sound {s : State} (h : s.eccBad = []) (va ctx : Nat) : walkCorrected s va ctx = s := by
  simp [walkCorrected, h]

/-- The walk of a context starts at its root table, if the context has one (R299). -/
theorem walk_root {s : State} {va ctx t : Nat} {root : Dword} (hr : root = s.ctxTable.get 0 ctx)
    (ht : t = (root.extractLsb' 0 43).toNat * 2 ^ 17) :
    (root.getLsbD 63 = false → walk s va ctx = .notPresent 0)
    ∧ (root.getLsbD 63 = true → tableOk s 0 t = false → walk s va ctx = .malformed 0)
    ∧ (root.getLsbD 63 = true → tableOk s 0 t = true → walk s va ctx = walkFrom s va 5 0 t) := by
  have base : root.toNat % 2 ^ 43 * 2 ^ 17 = t := by
    rw [ht, BitVec.extractLsb'_toNat, Nat.shiftRight_zero]
  have present : root.getLsbD 63 = true ↔ root.toNat / 2 ^ 63 % 2 = 1 := by
    rw [← BitVec.testBit_toNat, Nat.testBit_eq_decide_div_mod_eq, decide_eq_true_eq]
  have clear : ¬root.toNat / 2 ^ 63 % 2 = 1 ↔ root.toNat / 2 ^ 63 % 2 = 0 := by omega
  unfold walk
  dsimp only
  rw [← hr, base, ← Bool.not_eq_true, present]
  refine ⟨fun absent => if_pos (clear.mp absent), fun v bad => ?_, fun v ok => ?_⟩
  all_goals rw [if_neg fun absent => clear.mpr absent v]
  · rw [bad]
    rfl
  · rw [ok]
    rfl

end Sys2Proof.Machine

namespace Sys2Proof.Claims

open Sys2Proof.Machine

/-- Settles O17. `resolve_virtual` says how a virtual address resolves once it is translated, and `walkFrom_entry` what one level of the
walk gives; the rest is the judgement of a leaf. -/
theorem addressForms : Obligations.AddressForms := by
  intro s c a r w
  refine ⟨?place, ?reservedPlace, ?reservedVirtual, ?hit, ?hitRefused, ?miss, ?root, ?entry, ?sound⟩
  case place =>
    rintro p hp rfl
    have wide : (BitVec.ofNat 64 (2 ^ 63 + p)).toNat = 2 ^ 63 + p := by
      rw [BitVec.toNat_ofNat]
      omega
    have top : (BitVec.ofNat 64 (2 ^ 63 + p)).getLsbD 63 = true := (getLsbD_ofNat_iff (by decide)).mpr (by omega)
    unfold resolve
    dsimp only
    rw [top, wide, if_pos rfl, if_pos (by omega)]
    congr 2
    omega
  case reservedPlace =>
    intro top reserved
    unfold resolve
    dsimp only
    rw [top, if_pos rfl, if_neg reserved]
    rfl
  case reservedVirtual =>
    intro virt reserved
    unfold resolve
    dsimp only
    rw [virt, if_neg Bool.false_ne_true, if_pos reserved]
    rfl
  case hit =>
    rintro small _ l rfl found canRead canWrite
    have present : ¬missing l.dword r w := by
      rintro (⟨read, no⟩ | ⟨write, no⟩)
      · exact absurd (canRead read) (by rw [no]; exact Bool.false_ne_true)
      · exact absurd (canWrite write).1 (by rw [no]; exact Bool.false_ne_true)
    have still : ¬moving l.dword r w := by
      rintro ⟨-, write, moves⟩
      exact absurd (canWrite write).2 (by rw [moves]; exact (Ne.symm Bool.false_ne_true))
    rw [resolve_virtual small (translate_hit found), judgeWalk_still present still]
    rfl
  case hitRefused =>
    rintro small _ l rfl found
    refine ⟨fun refused => ?_, fun moves lv d walked present => ?_⟩
    · rw [resolve_virtual small (translate_hit found), judgeWalk_missing refused]
      rfl
    · rw [resolve_virtual small (translate_hit found), judgeWalk_moving moves, if_pos rfl, walked, judgeWalk_leaf present]
      refine ⟨fun still => ?_, fun done => ?_⟩
      · rw [if_pos ⟨moves.2.1, still⟩]
      · rw [if_neg fun h => absurd h.2 (by rw [done]; exact Bool.false_ne_true)]
  case miss =>
    rintro small _ rfl none
    refine ⟨fun lv walked => ?_, fun lv walked => ?_, fun lv p walked => ?_,
      fun lv d walked => ⟨fun refused => ?_, fun moves => ?_, fun present still => ?_⟩⟩
    · rw [resolve_virtual small (translate_none none walked (by simp))]
      rfl
    · rw [resolve_virtual small (translate_none none walked (by simp))]
      rfl
    · rw [resolve_virtual small (translate_none none walked (by simp))]
      rfl
    · rw [resolve_virtual small (translate_leaf none walked), judgeWalk_missing refused]
      rfl
    · rw [resolve_virtual small (translate_leaf none walked)]
    · rw [resolve_virtual small (translate_leaf none walked), judgeWalk_still present still]
      rfl
  case root => exact fun va ctx => walk_root rfl rfl
  case entry => exact fun va n lv t hlv => walkFrom_entry hlv rfl rfl
  case sound => exact fun h va ctx => walkCorrected_of_sound h va ctx

end Sys2Proof.Claims
end

section
/-! PROOFS. The accesses of a mason core to a place: what a read gives, and how a word ends (R177, R293, R296, R302, R405). -/

namespace Sys2Proof.Machine

open Sys2Proof.Claims

/-- The state after a word of core `c` that ends in `r`: what it has done, or its trap. -/
def CoreRes.after (s : State) (c : Nat) : CoreRes → State
  | .done t => t
  | .trap cause detail tval => s.takeTrap c cause detail tval

theorem runCore_after {s : State} {c : Nat} {i : Instr} (runs : CoreRuns s c i) {x : Body} (body : i.body? = some x)
    (co : Nat → Core → CoreRes) : runCore i.op x s co = .next ((co c (s.core c)).after s c) := by
  rw [runCore_core runs body]
  cases co c (s.core c) <;> rfl

@[simp] theorem State.takeTurn_core (s : State) (p c : Nat) : (s.takeTurn p).core c = s.core c := by
  rw [State.takeTurn_only]
  rfl

@[simp] theorem State.corrected_core (s : State) (p n c : Nat) : (s.corrected p n).core c = s.core c := by
  rw [State.corrected_only]
  rfl

/-- A trap for an uncorrectable error counts it at the die of the core (R406). -/
theorem takeTrap_ecc (s : State) (c detail : Nat) (v : Dword) (h : Pstat.tip (s.core c).pstat = false) :
    s.takeTrap c 7 detail v = trapped (s.countUe (c / 4)) c 7 detail v := by
  have counted : Pstat.tip ((s.countUe (c / 4)).core c).pstat = false := h
  unfold State.takeTrap
  simp only [Cause.ecc, if_true, coreDie, counted, Bool.false_eq_true, if_false]
  simp [trapped, coreTrapped, Core.trapped, Cause.syscall]

/-! ### Places -/

/-- A place of another device has no bank here that a core would wait for. -/
theorem coreTurn_of_remote {s : State} {p : Nat} (h : isOwn s p = false) (c : Nat) : s.coreTurn c p = true := by
  simp [State.coreTurn, State.bankTurn, isTileMem, h]

theorem badWidth_of_memory {p : Nat} (h : Place.space p < 3) (width : Nat) : badWidth p width = false := by
  unfold badWidth
  have : Place.space p = 0 ∨ Place.space p = 1 ∨ Place.space p = 2 := by omega
  rcases this with e | e | e <;> rw [e] <;> rfl

theorem badWidth_of_wide {p width : Nat} (hw : 4 ≤ width) (h : Place.space p = 5 ∨ Place.space p = 6) : badWidth p width = false := by
  unfold badWidth
  have narrow : ¬width < 4 := by omega
  rcases h with e | e <;> simp [e, narrow]

theorem readPlace_memory {s : State} {p width : Nat} (own : isOwn s p = true) (valid : placeValid s p = true) (space : Place.space p < 3) :
    readPlace s p width = if s.eccAt p width then .trap Cause.ecc 0 else .val (s.read p width) := by
  unfold readPlace
  rw [badWidth_of_memory space, own, valid]
  have : Place.space p = 0 ∨ Place.space p = 1 ∨ Place.space p = 2 := by omega
  rcases this with e | e | e <;> rw [e] <;> rfl

theorem readPlace_config {s : State} {p width : Nat} (own : isOwn s p = true) (valid : placeValid s p = true) (hw : 4 ≤ width)
    (space : Place.space p = 5) : readPlace s p width = .val (cfgRead s p width) := by
  unfold readPlace
  rw [badWidth_of_wide hw (.inl space), own, valid, space]
  rfl

theorem readPlace_status {s : State} {p width : Nat} (own : isOwn s p = true) (hw : 4 ≤ width) (space : Place.space p = 6) :
    readPlace s p width = .val (statusRead s p width) := by
  have valid : placeValid s p = true := by
    unfold placeValid
    rw [space]
    rfl
  unfold readPlace
  rw [badWidth_of_wide hw (.inr space), own, valid, space]
  rfl

theorem readPlace_remote {s : State} {p : Nat} (own : isOwn s p = false) (reach : reachable s = true) (space : Place.space p < 3)
    (width : Nat) : readPlace s p width = .remote := by
  unfold readPlace
  rw [badWidth_of_memory space, own, reach]
  rfl

/-! ### Loads -/

theorem loadRow_sound {row : LoadRow} (h : row ∈ loadRows) (x : MS) (s : State) :
    exec (row.op x) s = runLoad (row.op x).op x row.width row.signed s ∧ (row.op x).body? = some (.ms x)
    ∧ (row.width = 1 ∨ row.width = 2 ∨ row.width = 4 ∨ row.width = 8) := by
  simp only [loadRows, List.mem_cons, List.not_mem_nil, or_false] at h
  rcases h with rfl | rfl | rfl | rfl | rfl | rfl | rfl <;> exact ⟨rfl, rfl, by decide⟩

/-- The state after a load that reads `v`: D takes its value, and the core goes on. -/
def loaded (t : State) (c : Nat) (row : LoadRow) (x : MS) (v : Nat) : State :=
  t.setCore c { t.core c with g := regsAfter (t.core c).g x.d (loadValue row v), pc := (t.core c).pc + 8, held := false, operands := [] }

section
variable {s s' : State} {c p : Nat} {row : LoadRow} {x : MS}

/-- How a load ends at its place. -/
theorem exec_load (hrow : row ∈ loadRows) (runs : CoreRuns s c (row.op x)) (aligned : (effAddr s c x).toNat % row.width = 0)
    (resolved : resolve s c (effAddr s c x) true false = (s', .place p)) :
    (s'.coreTurn c p = false → exec (row.op x) s = .next (heldAt s' c))
    ∧ (s'.coreTurn c p = true →
      (∀ v, readPlace s' p row.width = .val v →
        exec (row.op x) s = .next (loaded ((s'.takeTurn p).corrected p row.width) c row x v))
      ∧ (readPlace s' p row.width = .remote → exec (row.op x) s = .next
        (askRemote s' c p (.rd row.width) (CorePend.ask (effAddr s c x) 4 true x.d row.width row.signed 0)))
      ∧ (∀ cause d, readPlace s' p row.width = .trap cause d → cause ≠ 2 →
        exec (row.op x) s = .next (s.takeTrap c cause d (effAddr s c x)))) := by
  obtain ⟨means, body, widths⟩ := loadRow_sound hrow x s
  have ends := runCore_after runs body
  unfold effAddr at *
  rw [means]
  unfold runLoad
  dsimp only
  rw [ends, if_neg (not_not_intro aligned), resolved]
  dsimp only
  refine ⟨fun waits => ?_, fun turn => ⟨fun v read => ?_, fun remote => ?_, fun cause d trap hcause => ?_⟩⟩
  · rw [waits]
    rfl
  · have value : extend row.signed row.width v = loadValue row v := extend_eq row.signed row.width v widths
    rw [turn, read]
    simp [CoreRes.after, Core.setReg_eq, Core.advance, loaded, value]
  · rw [turn, remote]
    rfl
  · rw [turn, trap]
    simp [CoreRes.after, trapAt, hcause, Cause.priv]
end

end Sys2Proof.Machine

namespace Sys2Proof.Claims

open Sys2Proof.Machine

/-- Settles O18. `exec_load` says how a load ends at its place; the rest is what a read of each space gives. -/
theorem coreLoads : Obligations.CoreLoads := by
  intro s s' c p row x hrow runs aligned resolved
  obtain ⟨waits, ends⟩ := exec_load hrow runs aligned resolved
  refine ⟨?memory, waits, ?ecc, ?config, ?status, ?remote, ?unchanged⟩
  case memory =>
    rintro ⟨own, valid, space, clean, turn⟩
    exact (ends turn).1 _ ((readPlace_memory own valid space).trans (by rw [clean]; rfl))
  case ecc =>
    intro own valid space bad turn tip
    rw [← takeTrap_ecc s c 0 _ tip]
    exact (ends turn).2.2 _ _ ((readPlace_memory own valid space).trans (if_pos bad)) (by decide)
  case config => exact fun own valid wide space turn => (ends turn).1 _ (readPlace_config own valid wide space)
  case status => exact fun own wide space turn => (ends turn).1 _ (readPlace_status own wide space)
  case remote =>
    exact fun own reach space => (ends (coreTurn_of_remote own c)).2.1 (readPlace_remote own reach space _)
  case unchanged =>
    have kept := resolve_mem s c (effAddr s c x) true false
    rwa [resolved] at kept

end Sys2Proof.Claims
end

section
/-! PROOFS. Stores and MAMO of a mason core: where they write, and how they end (R177, R287, R296, R297, R302, R303, R405). -/

namespace Sys2Proof.Machine

open Sys2Proof.Claims

/-! ### Bytes written -/

theorem leBytes_mod (n v : Nat) : leBytes n (v % 2 ^ (8 * n)) = leBytes n v := by
  induction n generalizing v with
  | zero => rfl
  | succ n ih =>
    have split : 2 ^ (8 * (n + 1)) = 256 * 2 ^ (8 * n) := by
      rw [Nat.mul_succ, Nat.pow_add, Nat.mul_comm]
    have low : BitVec.ofNat 8 (v % (256 * 2 ^ (8 * n))) = BitVec.ofNat 8 v :=
      BitVec.eq_of_toNat_eq (Nat.mod_mul_right_mod v 256 _)
    unfold leBytes
    rw [split, Nat.mod_mul_right_div_self, ih, low]

theorem ofNat_byte (a : Dword) (k : Nat) : BitVec.ofNat 8 (a.toNat / 256 ^ k) = a.extractLsb' (8 * k) 8 := by
  have low := leBytes_get (k + 1) a.toNat k (Nat.lt_succ_self k)
  rw [leBytes_dword, List.getElem?_map, List.getElem?_range (Nat.lt_succ_self k)] at low
  exact (Option.some.inj low).symm

theorem State.write_mod (s : State) (p n v : Nat) : s.write p n (v % 2 ^ (8 * n)) = s.write p n v := by
  unfold State.write
  rw [leBytes_mod]

theorem State.byte_congr {s t : State} (h : t.mem = s.mem) (q : Nat) : t.byte q = s.byte q := by
  unfold State.byte
  rw [h]

@[simp] theorem State.write_core (s : State) (p n v c : Nat) : (s.write p n v).core c = s.core c := by
  unfold State.write
  rw [State.setBytes_only]
  rfl

theorem writePlace_memory {s : State} {p : Nat} (own : isOwn s p = true) (valid : placeValid s p = true) (space : Place.space p < 3)
    (fw : Bool) (width v : Nat) : writePlace s fw p width v = .done (s.write p width v) := by
  unfold writePlace
  rw [badWidth_of_memory space, own, valid]
  have : Place.space p = 0 ∨ Place.space p = 1 ∨ Place.space p = 2 := by omega
  rcases this with e | e | e <;> rw [e] <;> rfl

theorem writePlace_config {s : State} {p width : Nat} (own : isOwn s p = true) (valid : placeValid s p = true) (hw : 4 ≤ width)
    (space : Place.space p = 5) (fw : Bool) (v : Nat) : writePlace s fw p width v =
      (match cfgStore s p width v with | some t => .done t | none => .trap Cause.store Detail.live) := by
  unfold writePlace
  rw [badWidth_of_wide hw (.inl space), own, valid, space]
  rfl

theorem writePlace_status {s : State} {p width : Nat} (own : isOwn s p = true) (hw : 4 ≤ width) (space : Place.space p = 6) (v : Nat) :
    writePlace s true p width v = .done (statusWrite s p width v) := by
  have valid : placeValid s p = true := by
    unfold placeValid
    rw [space]
    rfl
  unfold writePlace
  rw [badWidth_of_wide hw (.inr space), own, valid, space]
  rfl

theorem writePlace_remote {s : State} {p : Nat} (own : isOwn s p = false) (reach : reachable s = true) (space : Place.space p < 3)
    (fw : Bool) (width v : Nat) : writePlace s fw p width v = .remote := by
  unfold writePlace
  have other : ¬Place.space p = 6 := by omega
  rw [badWidth_of_memory space, own, reach]
  simp [other]

/-- Configuration space takes a store but where its plane holds a course that is not frozen (R297). -/
theorem cfgStore_eq_none_iff (s : State) (p width v : Nat) : cfgStore s p width v = none ↔
    CfgPlace.shadow p = false ∧ (s.plane (CfgPlace.pk p)).occupied = true
      ∧ ∀ rk, s.regionOf (CfgPlace.pk p) = some rk → (s.region rk).frozen = false := by
  unfold cfgStore
  cases CfgPlace.shadow p
  · cases h : s.regionOf (CfgPlace.pk p) <;> simp [h]
  · simp

/-! ### Stores -/

theorem storeRow_sound {row : (MS → Instr) × Nat} (h : row ∈ storeRows) (x : MS) (s : State) :
    exec (row.1 x) s = runStore (row.1 x).op x row.2 s ∧ (row.1 x).body? = some (.ms x) ∧ row.2 ≤ 8 := by
  simp only [storeRows, List.mem_cons, List.not_mem_nil, or_false] at h
  rcases h with rfl | rfl | rfl | rfl <;> exact ⟨rfl, rfl, by decide⟩

section
variable {s s' : State} {c p : Nat} {row : (MS → Instr) × Nat} {x : MS}

/-- How a store ends at its place. -/
theorem exec_store (hrow : row ∈ storeRows) (runs : CoreRuns s c (row.1 x)) (aligned : (effAddr s c x).toNat % row.2 = 0)
    (resolved : resolve s c (effAddr s c x) false true = (s', .place p)) :
    let v := ((s.core c).reg x.d).toNat % 2 ^ (8 * row.2)
    (s'.coreTurn c p = false → exec (row.1 x) s = .next (heldAt s' c))
    ∧ (s'.coreTurn c p = true →
      (∀ t, writePlace s' (s.core c).firmware p row.2 v = .done t → exec (row.1 x) s
        = .next ((t.takeTurn p).setCore c { t.core c with pc := (t.core c).pc + 8, held := false, operands := [] }))
      ∧ (writePlace s' (s.core c).firmware p row.2 v = .remote → exec (row.1 x) s = .next
        (askRemote s' c p (.wr (leBytes row.2 v) (List.replicate row.2 true)) (CorePend.ask (effAddr s c x) 5 false 0 row.2 false 0)))
      ∧ (∀ cause d, writePlace s' (s.core c).firmware p row.2 v = .trap cause d → cause ≠ 2 →
        exec (row.1 x) s = .next (s.takeTrap c cause d (effAddr s c x)))) := by
  obtain ⟨means, body, -⟩ := storeRow_sound hrow x s
  have ends := runCore_after runs body
  unfold effAddr at *
  rw [means]
  unfold runStore
  dsimp only
  rw [ends, if_neg (not_not_intro aligned), resolved]
  dsimp only
  refine ⟨fun waits => ?_, fun turn => ⟨fun t done => ?_, fun remote => ?_, fun cause d trap hcause => ?_⟩⟩
  · rw [waits]
    rfl
  · rw [turn, done]
    rfl
  · rw [turn, remote]
    rfl
  · rw [turn, trap]
    simp [CoreRes.after, trapAt, hcause, Cause.priv]
end

/-! ### MAMO -/

theorem mamoRow_sound {row : (EA → Instr) × (Dword → Dword → Dword → Dword)} (h : row ∈ mamoRows) (x : EA) (s : State) :
    ∃ f : BitVec 3, exec (row.1 x) s = runMamo f x s ∧ (row.1 x).op = 0x4E ∧ (row.1 x).body? = some (.ea x f)
      ∧ ∀ o v d, mamoNew f.toNat o v d = row.2 o v d := by
  simp only [mamoRows, List.mem_cons, List.not_mem_nil, or_false] at h
  rcases h with rfl | rfl | rfl | rfl | rfl | rfl | rfl | rfl
  all_goals refine ⟨_, rfl, rfl, rfl, fun o v d => ?_⟩
  case inr.inl => simp [mamoNew, BitVec.slt]
  case inr.inr.inl => simp [mamoNew, BitVec.slt]
  all_goals rfl

section
variable {s s' : State} {c p : Nat} {row : (EA → Instr) × (Dword → Dword → Dword → Dword)} {x : EA}

/-- How a MAMO ends at a place of memory. -/
theorem exec_mamo (hrow : row ∈ mamoRows) (runs : CoreRuns s c (row.1 x)) (aligned : ((s.core c).reg x.a).toNat % 8 = 0)
    (resolved : resolve s c ((s.core c).reg x.a) true true = (s', .place p)) (own : isOwn s' p = true) (valid : placeValid s' p = true)
    (space : Place.space p < 3) :
    let o := BitVec.ofNat 64 (s'.read p 8)
    (s'.coreTurn c p = false → exec (row.1 x) s = .next (heldAt s' c))
    ∧ (s'.coreTurn c p = true → s'.eccAt p 8 = true → exec (row.1 x) s = .next (s.takeTrap c 7 0 ((s.core c).reg x.a)))
    ∧ (s'.coreTurn c p = true → s'.eccAt p 8 = false → exec (row.1 x) s = .next (coreWrote
        (((s'.takeTurn p).corrected p 8).write p 8 (row.2 o ((s.core c).reg x.b) ((s.core c).reg x.d)).toNat) c x.d x.pu o)) := by
  obtain ⟨f, means, hop, body, new⟩ := mamoRow_sound hrow x s
  have ends := runCore_after runs body
  rw [hop] at ends
  have user : ¬(decide (Place.space p = 6) && !(s.core c).firmware) = true := by
    have : ¬Place.space p = 6 := by omega
    simp [this]
  have memory : ¬(decide (3 ≤ Place.space p) && decide (Place.space p ≤ 6)) = true := by
    have : ¬3 ≤ Place.space p := by omega
    simp [this]
  rw [means]
  unfold runMamo
  dsimp only
  rw [ends, if_neg (not_not_intro aligned), resolved]
  dsimp only
  rw [if_neg user, if_neg memory, own, valid]
  refine ⟨fun waits => ?_, fun turn bad => ?_, fun turn clean => ?_⟩
  · rw [waits]
    rfl
  · rw [turn, bad]
    rfl
  · rw [turn, clean, new, coreWrite_eq]
    rfl
end

end Sys2Proof.Machine

namespace Sys2Proof.Claims

open Sys2Proof.Machine

/-- Settles O19. `exec_store` says how a store ends at its place; the rest is what a write of each space does. -/
theorem coreStores : Obligations.CoreStores := by
  intro s s' c p row x hrow runs aligned resolved
  obtain ⟨waits, ends⟩ := exec_store hrow runs aligned resolved
  have short : row.2 ≤ 8 := (storeRow_sound hrow x s).2.2
  have kept : s'.mem = s.mem := by
    have kept := resolve_mem s c (effAddr s c x) false true
    rwa [resolved] at kept
  refine ⟨?memory, waits, ?window, ?remote⟩
  case memory =>
    intro space own valid turn
    have wrote := (writePlace_memory own valid space (s.core c).firmware row.2 _).trans
      (congrArg WriteRes.done (State.write_mod s' p row.2 ((s.core c).reg x.d).toNat))
    refine ⟨_, (ends turn).1 _ wrote, by rw [State.write_core], fun k hk => ?_, fun q hq => ?_⟩
    · rw [← ofNat_byte, ← State.byte_write s' p row.2 _ k (by omega) hk]
      exact State.byte_congr (State.takeTurn_mem _ _) _
    · rw [← State.byte_congr kept, ← State.byte_write_ne s' ((s.core c).reg x.d).toNat hq]
      exact State.byte_congr (State.takeTurn_mem _ _) _
  case window =>
    intro own valid turn wide
    refine ⟨fun t space done => ?_, fun space shown occupied live tip => ?_, fun space free => ?_, fun space fw => ?_⟩
    · exact (ends turn).1 t (by rw [writePlace_config own valid wide space, done])
    · rw [← takeTrap_eq s c 5 5 _ tip (by decide)]
      refine (ends turn).2.2 5 5 ?_ (by decide)
      rw [writePlace_config own valid wide space, (cfgStore_eq_none_iff s' p _ _).mpr ⟨shown, occupied, live⟩]
      rfl
    · rw [← Option.isSome_iff_exists, ← Option.ne_none_iff_isSome, ne_eq, cfgStore_eq_none_iff]
      rintro ⟨shown, occupied, live⟩
      rcases free with h | h | ⟨rk, held, frozen⟩
      · simp [h] at shown
      · simp [h] at occupied
      · simp [live rk held] at frozen
    · exact (ends turn).1 _ (by rw [fw, writePlace_status own wide space])
  case remote =>
    intro space own reach
    refine ⟨leBytes row.2 ((s.core c).reg x.d).toNat, leBytes_length _ _, fun k hk => ?_, ?_⟩
    · rw [leBytes_get _ _ _ hk, ofNat_byte]
    · rw [← leBytes_mod]
      exact (ends (coreTurn_of_remote own c)).2.1 (writePlace_remote own reach space _ _ _)

/-- Settles O21. `exec_mamo` says how a MAMO ends at a place of memory. -/
theorem coreMamo : Obligations.CoreMamo := by
  intro s s' c p row x hrow runs aligned resolved
  refine ⟨fun h => ?_, fun own valid space => ?_⟩
  · obtain ⟨own, valid, space, clean, turn⟩ := h
    exact (exec_mamo hrow runs aligned resolved own valid space).2.2 turn clean
  · obtain ⟨waits, ecc, -⟩ := exec_mamo hrow runs aligned resolved own valid space
    refine ⟨waits, fun turn bad tip => ?_⟩
    rw [← takeTrap_ecc s c 0 _ tip]
    exact ecc turn bad

end Sys2Proof.Claims
end

section
/-! PROOFS. The memory operands of system operations (R308), and the queue operations (R313). -/

namespace Sys2Proof.Machine

open Sys2Proof.Claims

theorem runSys_after {s : State} {c : Nat} {i : Instr} {x : EA} {f : BitVec 3} {op : Nat} (runs : CoreRuns s c i)
    (body : i.body? = some (.ea x f)) (hop : i.op = op) (k : Nat → Body → Dword → Dword → CoreRes) :
    runSys op f x s k = .next ((k c (.ea x f) ((s.core c).reg x.a) ((s.core c).reg x.b)).after s c) := by
  subst hop
  exact runCore_after runs body _

theorem runQueue_after {s : State} {c : Nat} {i : Instr} {x : EA} {f : BitVec 3} (runs : CoreRuns s c i)
    (body : i.body? = some (.ea x f)) (hop : i.op = 0x57) (k : Nat → Body → Nat → Dword → CoreRes) (hq : ((s.core c).reg x.a).toNat < 1024) :
    runQueue f x s k = .next ((k c (.ea x f) ((s.core c).reg x.a).toNat ((s.core c).reg x.b)).after s c) := by
  unfold runQueue
  rw [runSys_after runs body hop, if_neg (Nat.not_le.mpr hq)]

/-- A queue number from 1,024 on gives ARG (R313). -/
theorem runQueue_arg {s : State} {c : Nat} {i : Instr} {x : EA} {f : BitVec 3} (runs : CoreRuns s c i)
    (body : i.body? = some (.ea x f)) (hop : i.op = 0x57) (k : Nat → Body → Nat → Dword → CoreRes) (hq : 1024 ≤ ((s.core c).reg x.a).toNat) :
    runQueue f x s k = .next (coreWrote s c x.d x.pu 2) := by
  unfold runQueue
  rw [runSys_after runs body hop, if_pos hq, ret_eq]
  rfl

/-! ### Memory operands (R308) -/

theorem withRead_of_reads {s : State} {c n : Nat} {addr : Dword} {ps : List (Nat × Nat)} {bytes : List Byte} (h : Reads s c addr n ps bytes)
    (k : State → List Byte → CoreRes) : withRead s c addr n k = (k (readOf s ps) bytes).served ps := by
  obtain ⟨span, come, turn, what⟩ := h
  have all : (operandParts s ps).find? (fun p => !isOwn s p.1 && (operandAt s c p).isNone) = none := by
    rw [List.find?_eq_none]
    intro p hp
    cases own : isOwn s p.1
    · simp [come p hp own]
    · simp
  unfold withRead
  rw [span]
  dsimp only
  rw [all, turn, what]
  rfl

theorem withWrite_of_writes {s : State} {c : Nat} {addr : Dword} {ps : List (Nat × Nat)} {bytes : List Byte} (h : Writes s c addr bytes ps)
    (k : State → CoreRes) : withWrite s c addr bytes k = (k (stored s ps bytes)).served ps := by
  obtain ⟨span, come, turn⟩ := h
  have all : (dealBytes (operandParts s ps) bytes).find? (fun p => !isOwn s p.1 && !(s.core c).operands.contains p) = none := by
    rw [List.find?_eq_none]
    intro p hp
    cases own : isOwn s p.1
    · simp [come p hp own]
    · simp
  unfold withWrite
  rw [span]
  dsimp only
  rw [all, turn]
  rfl

/-- The parts of an operand that stands on this device are its pieces. -/
theorem operandParts_of_own {s : State} {ps : List (Nat × Nat)} (h : ∀ p ∈ ps, isOwn s p.1 = true) : operandParts s ps = ps := by
  unfold operandParts
  induction ps with
  | nil => rfl
  | cons p ps ih =>
    rw [List.flatMap_cons, h p (List.mem_cons_self ..), ih fun q hq => h q (List.mem_cons_of_mem _ hq)]
    rfl

theorem withRead_asks {s : State} {c n : Nat} {addr : Dword} {ps : List (Nat × Nat)} {p : Nat × Nat}
    (span : spanOf c false (n / 65536 + 2) s addr n = (s, .ok ps))
    (missing : (operandParts s ps).find? (fun p => !isOwn s p.1 && (operandAt s c p).isNone) = some p) (k : State → List Byte → CoreRes) :
    withRead s c addr n k = .done (askRemote s c p.1 (.rd p.2) { CorePend.ask addr 4 false 0 8 false 0 with oper := true }) := by
  unfold withRead
  rw [span]
  dsimp only
  rw [missing]
  rfl

theorem withRead_waits {s : State} {c n : Nat} {addr : Dword} {ps : List (Nat × Nat)}
    (span : spanOf c false (n / 65536 + 2) s addr n = (s, .ok ps)) (own : ∀ p ∈ ps, isOwn s p.1 = true)
    (turn : operandTurn s c ps = false) (k : State → List Byte → CoreRes) : withRead s c addr n k = .done (heldAt s c) := by
  have all : ps.find? (fun p => !isOwn s p.1 && (operandAt s c p).isNone) = none := by
    rw [List.find?_eq_none]
    intro p hp
    simp [own p hp]
  unfold withRead
  rw [span]
  dsimp only
  rw [operandParts_of_own own, all, turn]
  rfl

/-! ### Queues (R313) -/

/-- The errors that a read corrects change only the errors and their counts. -/
theorem readOf_only (s : State) (ps : List (Nat × Nat)) : readOf s ps = { s with dies := (readOf s ps).dies, eccBad := (readOf s ps).eccBad } := by
  unfold readOf
  induction ps generalizing s with
  | nil => rfl
  | cons p ps ih =>
    rw [List.foldl_cons, ih, State.corrected_only]

theorem setBytes_mem_congr {s t : State} (h : t.mem = s.mem) (p : Nat) (bs : List Byte) : (t.setBytes p bs).mem = (s.setBytes p bs).mem := by
  unfold State.setBytes State.cleanse
  induction bs generalizing s t p with
  | nil => exact h
  | cons b bs ih => exact ih (by unfold State.setByte; rw [h]) (p + 1)

theorem wqAppend_full {s : State} {q : Nat} (h : (s.queue q).cap ≤ (s.queue q).len) (entry : List Byte) (service : Bool) :
    wqAppend s q entry service = (s, false) := if_pos h

/-- What appending to a queue with room changes: the entry's bytes, and the queue. -/
theorem wqAppend_room {s : State} {q : Nat} (h : (s.queue q).len < (s.queue q).cap) (entry : List Byte) (service : Bool) :
    ∃ t, wqAppend s q entry service = (t, true) ∧ (t.queue q).len = (s.queue q).len + 1
      ∧ t.mem = (s.setBytes ((s.queue q).slot (s.queue q).len) entry).mem ∧ t.cores = s.cores := by
  refine ⟨_, if_neg (Nat.not_le.mpr h), ?_, rfl, ?_⟩
  · exact congrArg WorkQueue.len (Sparse.get_put_self _ _ _ _)
  · rw [State.setQueue_cores, State.setBytes_only]

end Sys2Proof.Machine

namespace Sys2Proof.Claims

open Sys2Proof.Machine

/-- Settles O25. `withRead_of_reads` and `withWrite_of_writes` say when an operand moves; the rest is the branches of each operation. -/
theorem coreQueues : Obligations.CoreQueues := by
  intro s c x k q w
  refine ⟨?arg, ?pop, ?push, ?pushWaits, ?stat⟩
  case arg =>
    intro op hop runs hq
    simp only [List.mem_cons, List.not_mem_nil, or_false] at hop
    rcases hop with rfl | rfl | rfl
    · show execWqpop x s = _
      exact runQueue_arg runs rfl rfl _ hq
    · show execWqpush x s = _
      exact runQueue_arg runs rfl rfl _ hq
    · show execWqstat x s = _
      exact runQueue_arg runs rfl rfl _ hq
  case pop =>
    intro runs hq
    show (_ → execWqpop x s = _) ∧ (_ → _ → _ → execWqpop x s = _) ∧ (∀ ps, _ → _ → _ → _ → execWqpop x s = _)
    unfold execWqpop
    rw [runQueue_after runs rfl rfl _ hq]
    dsimp only
    refine ⟨fun host => ?_, fun ms aligned empty => ?_, fun ps ms aligned filled writes => ?_⟩
    · rw [host, ret_eq]
      rfl
    · rw [ms, Bool.not_true, if_neg Bool.false_ne_true, if_neg (not_not_intro aligned), if_pos empty, ret_eq]
      rfl
    · rw [ms, Bool.not_true, if_neg Bool.false_ne_true, if_neg (not_not_intro aligned), if_neg filled, withWrite_of_writes writes, ret_eq]
      rfl
  case push =>
    intro runs hq aligned ps bs reads
    show (_ → execWqpush x s = _) ∧ (_ → ∃ t, execWqpush x s = _ ∧ _)
    unfold execWqpush
    rw [runQueue_after runs rfl rfl _ hq, if_neg (not_not_intro aligned), withRead_of_reads reads]
    have queues : (readOf s ps).queue q = w := by
      rw [readOf_only]
      rfl
    refine ⟨fun full => ?_, fun room => ?_⟩
    · rw [wqAppend_full (by rw [queues]; exact full)]
      dsimp only
      rw [ret_eq]
      rfl
    · obtain ⟨t, appended, len, mem, cores⟩ := wqAppend_room (by rw [queues]; exact room) bs (!((readOf s ps).core c).firmware)
      refine ⟨t, ?_, ?_, ?_, ?_⟩
      · rw [appended]
        dsimp only
        rw [ret_eq]
        rfl
      · rw [len, queues]
      · rw [mem, queues, setBytes_mem_congr (s := s)]
        rw [readOf_only]
      · rw [cores, readOf_only]
  case pushWaits =>
    intro runs hq aligned ps span
    show (∀ p, _ → execWqpush x s = _) ∧ (_ → _ → execWqpush x s = _)
    unfold execWqpush
    rw [runQueue_after runs rfl rfl _ hq, if_neg (not_not_intro aligned)]
    refine ⟨fun p missing => ?_, fun own turn => ?_⟩
    · rw [withRead_asks span missing]
      rfl
    · rw [withRead_waits span own turn]
      rfl
  case stat =>
    intro runs hq
    show execWqstat x s = _
    unfold execWqstat
    rw [runQueue_after runs rfl rfl _ hq, ret_eq]
    rfl

end Sys2Proof.Claims
end

section
/-! PROOFS. The events of keystones (O54): updates of a word, barriers, migration, range words, and the request port. -/

namespace Sys2Proof.Machine

open Sys2Proof.Claims

/-! ### Updates and migration -/

theorem kstone_setKstone_ne (s : State) {j k : Nat} (v : Keystone) (h : j ≠ k) : (s.setKstone k v).kstone j = s.kstone j :=
  Sparse.get_put_ne _ _ _ h

theorem mayIssue_of {n : Nat} {k : Keystone} {a : KArr} (arrived : a.arr < n)
    (free : ∀ idx r, k.last = some (idx, r) → r < n ∧ (idx = a.cmd.idx → r + 2 ≤ n)) : mayIssue n k a = true := by
  rcases h : k.last with _ | ⟨idx, r⟩
  · simp [mayIssue, arrived, h]
  · obtain ⟨before, stalled⟩ := free idx r h
    have word : idx ≠ a.cmd.idx ∨ r + 2 ≤ n := (Decidable.em (idx = a.cmd.idx)).elim (.inr ∘ stalled) .inl
    simpa [mayIssue, arrived, h, before] using word

theorem mayIssue_stalled {n r : Nat} {k : Keystone} {a : KArr} (last : k.last = some (a.cmd.idx, r)) (h : n < r + 2) :
    mayIssue n k a = false := by
  simp [mayIssue, last, Nat.not_le.2 h]

section
variable {s : State} {ks : Nat}

theorem exec_updateIssue {a : KArr} {rest : List KArr} (inq : (s.kstone ks).inq = a :: rest) :
    exec (.updateIssue ks) s = .next
      (if (s.kstone ks).mapped && mayIssue s.round (s.kstone ks) a && s.bankTurn (keystonePlace s ks a.cmd.idx) then
        if keystoneBad s ks a.cmd.idx then refuseUpdate s ks { s.kstone ks with inq := rest } a
        else issueUpdate (s.takeTurn (keystonePlace s ks a.cmd.idx)) ks { s.kstone ks with inq := rest } a
      else s) := by
  show execUpdateIssue ks s = _
  simp only [execUpdateIssue, inq]

theorem exec_migrationCopyDone {dst : Nat} (copy : (s.kstone ks).copyTo = some dst) (hold : (s.kstone ks).hold = true)
    (inq : (s.kstone ks).inq = []) :
    exec (.migrationCopyDone ks) s = .next ((s.setKstone dst { s.kstone dst with
        mapped := true, words := (s.kstone ks).words, bar := (s.kstone ks).bar, ss := (s.kstone ks).ss, rm := (s.kstone ks).rm
        mem := (s.kstone ks).mem, sticky := (s.kstone ks).sticky, held := (s.kstone ks).held }).setKstone ks
      { s.kstone ks with hold := false, fwd := some dst, copyTo := none, held := [] }) := by
  show execMigrationCopyDone ks s = _
  simp [execMigrationCopyDone, copy, hold, inq]

theorem exec_keystoneForward {dst : Nat} {a : KArr} {rest : List KArr} (fwd : (s.kstone ks).fwd = some dst)
    (waits : (s.kstone ks).waitQ = a :: rest) :
    (∀ m, a.cmd.op = .status m →
        exec (.keystoneForward ks) s
          = .next (s.setKstone ks { s.kstone ks with waitQ := rest, inq := (s.kstone ks).inq ++ [a] }))
    ∧ ((∀ m, a.cmd.op ≠ .status m) →
        exec (.keystoneForward ks) s = .next (if ksWithholds (s.kstone dst) then s
          else ksArrive (s.setKstone ks { s.kstone ks with waitQ := rest }) dst a.cmd a.src)) := by
  constructor
  · intro m status
    show execKeystoneForward ks s = _
    simp only [execKeystoneForward, fwd, waits, status, if_true]
  · intro update
    show execKeystoneForward ks s = _
    simp only [execKeystoneForward, fwd, waits]
    cases op : a.cmd.op with
    | status m => exact absurd op (update m)
    | _ => rfl

theorem exec_rangeWordWrite_off {v : Word} (off : v.getLsbD 31 = false) :
    exec (.rangeWordWrite ks v) s = .next ((breakAll s ks).setKstone ks { bank := (s.kstone ks).bank }) := by
  show execRangeWordWrite ks v s = _
  simp only [execRangeWordWrite, writeRange, off, Bool.not_false, if_true]

theorem exec_rangeWordWrite_bound {v : Word} (on : v.getLsbD 31 = true) (bound : targetBound s ks = true) :
    exec (.rangeWordWrite ks v) s = .next s := by
  show execRangeWordWrite ks v s = _
  simp [execRangeWordWrite, writeRange, on, bound]

theorem exec_rangeWordWrite_maps {v : Word} (on : v.getLsbD 31 = true) (unbound : targetBound s ks = false)
    (rm : v.toNat / 2 ^ 26 % 8 < 5) (reserved : v.toNat / 2 ^ 10 % 2 ^ 16 = 0) :
    ∃ t, exec (.rangeWordWrite ks v) s = .next t ∧ (t.kstone ks).mapped = true ∧ (t.kstone ks).words = v.toNat % 1024 + 1
      ∧ (t.kstone ks).bar = v.getLsbD 30 ∧ (t.kstone ks).rm = v.toNat / 2 ^ 26 % 8 := by
  refine ⟨writeRange s ks v, rfl, ?_⟩
  simp only [writeRange, on, unbound, reserved, Nat.not_le.2 rm, Bool.not_true, Bool.false_eq_true, if_false, decide_false, ne_eq,
    not_true, Bool.or_self, kstone_setKstone, and_self]

end

/-! ### What an update writes -/

section
variable {k : Keystone} (idx : Nat) (b : Word) (src : KSrc) (arr : Nat)

theorem apply_int (bar : k.bar = false) (f : Nat) : k.apply ⟨⟨.int f, idx, b⟩, src, arr⟩
    = ⟨{ k with mem := k.mem.put 0 idx (ksInt f (k.mem.get 0 idx) b).1
                sticky := k.sticky ||| if (ksInt f (k.mem.get 0 idx) b).2 then 0b0100000 else 0 },
      [(src, ksClean (k.mem.get 0 idx))]⟩ := by
  simp [Keystone.apply, bar]

theorem get_apply_int (bar : k.bar = false) (f : Nat) :
    (k.apply ⟨⟨.int f, idx, b⟩, src, arr⟩).ks.mem.get 0 idx = (ksInt f (k.mem.get 0 idx) b).1 := by
  rw [apply_int idx b src arr bar]
  exact Sparse.get_put_self _ _ _ _

theorem get_apply_int_ne (bar : k.bar = false) (f : Nat) {j : Nat} (h : j ≠ idx) :
    (k.apply ⟨⟨.int f, idx, b⟩, src, arr⟩).ks.mem.get 0 j = k.mem.get 0 j := by
  rw [apply_int idx b src arr bar]
  exact Sparse.get_put_ne _ _ _ h

theorem get_apply_cas (bar : k.bar = false) (c : Word) :
    (k.apply ⟨⟨.cas c, idx, b⟩, src, arr⟩).ks.mem.get 0 idx = if k.mem.get 0 idx = c then b else k.mem.get 0 idx := by
  simp only [Keystone.apply, bar, Bool.false_eq_true, if_false]
  split
  · exact Sparse.get_put_self _ _ _ _
  · rfl

end

/-! ### Barriers -/

/-- A barrier word (R212): its threshold, the arrivals so far and the generation. -/
def barrierWord (t a g : Nat) : Word := BitVec.ofNat 32 (t * 2 ^ 20 + a * 2 ^ 8 + g)

section
variable {t a g : Nat} (ht : t < 4096) (ha : a < 4096) (hg : g < 256)
include ht ha hg

theorem barrierWord_toNat : (barrierWord t a g).toNat = t * 2 ^ 20 + a * 2 ^ 8 + g := by
  simp only [barrierWord, BitVec.toNat_ofNat]
  omega

theorem barrierWord_fields : (barrierWord t a g).toNat / 2 ^ 20 = t ∧ (barrierWord t a g).toNat / 2 ^ 8 % 2 ^ 12 = a
    ∧ (barrierWord t a g).toNat % 256 = g := by
  rw [barrierWord_toNat ht ha hg]
  omega

variable {k : Keystone} (bar : k.bar = true) {idx : Nat} (word : k.mem.get 0 idx = barrierWord t a g) (b : Word) (src : KSrc) (arr : Nat)
include bar word

theorem apply_arrival : k.apply ⟨⟨.int 0, idx, b⟩, src, arr⟩
    = if t = 0 || t ≤ a then ⟨k, [(src, ksErr 6 idx)]⟩
      else if a + 1 < t then ⟨{ k with mem := k.mem.put 0 idx (barrierWord t (a + 1) g), held := k.held ++ [(idx, src)] }, []⟩
      else ⟨{ k with mem := k.mem.put 0 idx (BitVec.ofNat 32 (t * 2 ^ 20 + (g + 1) % 256)), held := heldRest k idx },
        (heldOf k idx ++ [src]).map fun x => (x, ksClean (barrierWord t t g))⟩ := by
  obtain ⟨threshold, arrivals, generation⟩ := barrierWord_fields ht ha hg
  simp only [Keystone.apply, bar, if_true, barrierArrive, word, threshold, arrivals, generation]
  rfl

end

/-! ### The request port -/

theorem ksArrive_elem (s : State) (ks : Nat) (cmd : KCmd) (src : KSrc) (e : Nat) : (ksArrive s ks cmd src).elem e = s.elem e := rfl

/-- A command that leaves a port takes a slot of its target, and nothing else of its element. -/
theorem ksSend_elem (s : State) (e target : Nat) (cmd : KCmd) (ticket : Option Nat) {tg : KsTarget}
    (found : ((s.elem e).targets.find? (·.1 == target)).map Prod.snd = some tg) :
    (ksSend s e target cmd ticket).elem e
      = { s.elem e with ksOut := (s.elem e).ksOut.put 0 target ((s.elem e).ksOut.get 0 target + 1) } := by
  simp only [ksSend, found]
  cases tg.device with
  | none => exact elem_setElem _ _ _
  | some d => exact elem_setElem _ _ _

theorem ksSend_slots (s : State) (e target : Nat) (cmd : KCmd) (ticket : Option Nat) :
    ∃ m, (ksSend s e target cmd ticket).elem e = { s.elem e with ksOut := m } := by
  rcases found : ((s.elem e).targets.find? (·.1 == target)).map Prod.snd with _ | tg
  · exact ⟨(s.elem e).ksOut, by simp only [ksSend, found]⟩
  · exact ⟨_, ksSend_elem s e target cmd ticket found⟩

theorem sendPosted_slots (e : Nat) (ps : List Posted) (shut : List Nat) (s : State) :
    ∃ m, (sendPosted e ps shut s).1.elem e = { s.elem e with ksOut := m } := by
  induction ps generalizing shut s with
  | nil => exact ⟨_, rfl⟩
  | cons p ps ih =>
    rw [sendPosted]
    split
    · exact ih _ _
    · obtain ⟨m, sent⟩ := ksSend_slots s e p.target p.cmd none
      obtain ⟨m', rest⟩ := ih shut (ksSend s e p.target p.cmd none)
      exact ⟨m', by rw [rest, sent]⟩

/-- The cut up to which the posted commands of a port may leave when cut n is released (R208, R209, R216). -/
def postedUpto (el : Elem) (n : Nat) : Nat :=
  match el.irrev.find? fun i => !i.sent && i.cut ≤ n with
  | some i => i.cut - 1
  | none => n

theorem postedUpto_le (el : Elem) (n : Nat) : postedUpto el n ≤ n := by
  unfold postedUpto
  split
  next i found =>
    have up := List.find?_some found
    simp only [Bool.and_eq_true, decide_eq_true_eq] at up
    omega
  · exact Nat.le_refl n

theorem postedUpto_unsent {el : Elem} {i : Irrev} {rest : List Irrev} {n : Nat} (irrev : el.irrev = i :: rest) (unsent : i.sent = false)
    (released : i.cut ≤ n) : postedUpto el n = i.cut - 1 := by
  simp [postedUpto, irrev, unsent, released]

/-- The posted commands that leave when cut n is released, if their targets take them. -/
def postedDue (el : Elem) (n : Nat) : List Posted := el.posted.filter fun p => p.cut ≤ postedUpto el n

/-- The posted commands that a release of cut n keeps at the port. -/
def postedLater (el : Elem) (n : Nat) : List Posted := el.posted.filter fun p => !decide (p.cut ≤ postedUpto el n)

theorem mem_postedLater {el : Elem} {n : Nat} {p : Posted} (h : p ∈ el.posted) (late : postedUpto el n < p.cut) : p ∈ postedLater el n :=
  List.mem_filter.2 ⟨h, by simpa using late⟩

theorem releasePosted_eq (n : Nat) (s : State) (e : Nat) :
    releasePosted n s e = (sendPosted e (postedDue (s.elem e) n) [] s).1.modElem e fun el =>
      { el with posted := (sendPosted e (postedDue (s.elem e) n) [] s).2 ++ postedLater (s.elem e) n } := by
  simp only [releasePosted, List.partition_eq_filter_filter]
  rfl

/-- What the release of a cut leaves of a port: commands take slots, and those that it keeps are still posted. -/
theorem releasePosted_elem (n : Nat) (s : State) (e : Nat) :
    ∃ m stay, (releasePosted n s e).elem e = { s.elem e with ksOut := m, posted := stay ++ postedLater (s.elem e) n } := by
  obtain ⟨m, sent⟩ := sendPosted_slots e (postedDue (s.elem e) n) [] s
  refine ⟨m, (sendPosted e (postedDue (s.elem e) n) [] s).2, ?_⟩
  rw [releasePosted_eq, State.modElem, elem_setElem, sent]

theorem mem_posted_releasePosted {n : Nat} {s : State} {e : Nat} {p : Posted} (h : p ∈ (s.elem e).posted)
    (late : postedUpto (s.elem e) n < p.cut) : p ∈ ((releasePosted n s e).elem e).posted := by
  obtain ⟨m, stay, left⟩ := releasePosted_elem n s e
  rw [left]
  exact List.mem_append_right _ (mem_postedLater h late)

theorem irrev_releasePosted (n : Nat) (s : State) (e : Nat) : ((releasePosted n s e).elem e).irrev = (s.elem e).irrev := by
  obtain ⟨m, stay, left⟩ := releasePosted_elem n s e
  rw [left]

theorem kept_releasePosted (n : Nat) (s : State) (e : Nat) : ((releasePosted n s e).elem e).kept = (s.elem e).kept := by
  obtain ⟨m, stay, left⟩ := releasePosted_elem n s e
  rw [left]

/-- A port without posted commands releases none. -/
theorem releasePosted_empty {s : State} {e : Nat} (posted : (s.elem e).posted = []) (n : Nat) :
    releasePosted n s e = s.setElem e { s.elem e with posted := [] } := by
  rw [releasePosted_eq, postedDue, postedLater, posted]
  rfl

/-- One posted command of a released cut, with none irrevocable before it, leaves when its target takes it. -/
theorem releasePosted_one {s : State} {e n : Nat} {p : Posted} (posted : (s.elem e).posted = [p]) (irrev : (s.elem e).irrev = [])
    (released : p.cut ≤ n) (takes : portOpen s e p.target = true) :
    releasePosted n s e = (ksSend s e p.target p.cmd none).modElem e fun el => { el with posted := [] } := by
  have upto : postedUpto (s.elem e) n = n := by simp [postedUpto, irrev]
  have due : postedDue (s.elem e) n = [p] := by simp [postedDue, upto, posted, released]
  have later : postedLater (s.elem e) n = [] := by simp [postedLater, upto, posted, released]
  have sent : sendPosted e [p] [] s = (ksSend s e p.target p.cmd none, []) := by simp [sendPosted, takes]
  rw [releasePosted_eq, due, later, sent]
  rfl

theorem portOpen_congr {s t : State} {e : Nat} (targets : (t.elem e).targets = (s.elem e).targets) (links : t.links = s.links)
    (kstones : t.kstones = s.kstones) (target : Nat) : portOpen t e target = portOpen s e target := by
  simp only [portOpen, targetLinked, diesLinked, State.link, State.kstone, targets, links, kstones]

theorem nextIrrev_alone {s : State} {e n : Nat} {i : Irrev} (irrev : (s.elem e).irrev = [i]) (posted : (s.elem e).posted = [])
    (unsent : i.sent = false) (released : i.cut ≤ n) (takes : portOpen s e i.target = true) : nextIrrev s e n = some i := by
  simp [nextIrrev, irrev, posted, unsent, released, takes]

theorem nextIrrev_sent {s : State} {e : Nat} (sent : ∀ i ∈ (s.elem e).irrev, i.sent = true) (n : Nat) : nextIrrev s e n = none := by
  have none : ((s.elem e).irrev.filter fun i => !i.sent && decide (i.cut ≤ n)) = [] := by
    refine List.filter_eq_nil_iff.2 fun i h => ?_
    simp [sent i h]
  rw [nextIrrev, none]
  rfl

/-- What an irrevocable command that leaves changes at its port: it is marked, and it takes a slot of a target that is there. -/
theorem sendIrrev_elem (s : State) (e : Nat) (i : Irrev) :
    ((sendIrrev s e i).elem e).irrev = (s.elem e).irrev.map (fun j => if j.ticket = i.ticket then { j with sent := true } else j)
    ∧ (((s.elem e).targets.find? (·.1 == i.target)).map Prod.snd = none
      ∨ ((sendIrrev s e i).elem e).ksOut.get 0 i.target = (s.elem e).ksOut.get 0 i.target + 1) := by
  let marked := s.modElem e fun el => { el with
    irrev := el.irrev.map fun j => if j.ticket = i.ticket then { j with sent := true } else j }
  have mark : marked.elem e = { s.elem e with
      irrev := (s.elem e).irrev.map fun j => if j.ticket = i.ticket then { j with sent := true } else j } := elem_setElem _ _ _
  constructor
  · obtain ⟨m, sent⟩ := ksSend_slots marked e i.target i.cmd (some i.ticket)
    exact (congrArg Elem.irrev sent).trans (congrArg Elem.irrev mark)
  · rcases found : ((s.elem e).targets.find? (·.1 == i.target)).map Prod.snd with _ | tg
    · exact .inl found
    · have sent := ksSend_elem marked e i.target i.cmd (some i.ticket) (tg := tg) (by rw [mark]; exact found)
      refine .inr ?_
      rw [show sendIrrev s e i = ksSend marked e i.target i.cmd (some i.ticket) from rfl, sent, mark]
      exact Sparse.get_put_self 0 (s.elem e).ksOut i.target ((s.elem e).ksOut.get 0 i.target + 1)

/-- One irrevocable command of a port without posted ones leaves, and nothing follows it. -/
theorem sendPort_alone {s : State} {e n : Nat} {i : Irrev} (irrev : (s.elem e).irrev = [i]) (posted : (s.elem e).posted = [])
    (unsent : i.sent = false) (released : i.cut ≤ n) (takes : portOpen s e i.target = true) :
    sendPort n e 2 s = releasePosted n (sendIrrev (releasePosted n s e) e i) e := by
  have clear := releasePosted_empty posted n
  have port : (releasePosted n s e).elem e = { s.elem e with posted := [] } := by rw [clear, elem_setElem]
  have first : nextIrrev (releasePosted n s e) e n = some i := by
    refine nextIrrev_alone (by rw [port, irrev]) (by rw [port]) unsent released ?_
    exact (portOpen_congr (by rw [port]) (by rw [clear, State.setElem_links]) (by rw [clear, State.setElem_kstones]) _).trans takes
  have last : nextIrrev (releasePosted n (sendIrrev (releasePosted n s e) e i) e) e n = none := by
    refine nextIrrev_sent (fun j h => ?_) n
    rw [irrev_releasePosted, (sendIrrev_elem _ e i).1, port, irrev] at h
    obtain rfl := List.mem_singleton.1 h
    simp
  simp only [sendPort, first, last]

section
variable {s : State} {e : Nat}

theorem exec_irrevocableDeparture {rk : Nat} (region : s.regionOf (e / 16) = some rk) :
    exec (.irrevocableDeparture e) s = .next (if (s.region rk).relRound < s.round
      then sendPort (s.region rk).lastRel e ((s.elem e).irrev.length + 1) s else s) := by
  have region : s.regionOf (Key.pkOfElem e) = some rk := region
  show execIrrevocableDeparture e s = _
  simp only [execIrrevocableDeparture, region]

theorem exec_keystoneReply_reply {due t : Nat} {tok : Token} {rest : List KsIn} (news : (s.elem e).ksIn = .reply due t tok :: rest)
    (arrives : due ≤ s.round) (linked : ∀ i ∈ (s.elem e).irrev, i.ticket = t → targetLinked s e i.target = true) :
    let el := s.elem e
    let landed := s.setElem e (Elem.landReply
      { el with ksIn := rest, irrev := el.irrev.filter (fun i => i.ticket != t), kept := el.kept ++ [⟨t, tok, el.io.snapCut + 1⟩] }
      s.round t tok.payload tok.tag
      (if el.irrev.any (fun i => i.ticket == t && i.cmd.isCas) then tok.payload != 0 else tok.tag == 0))
    exec (.keystoneReply e) s = .next (if tok.tag = 6
      then landed.report (e / 16) (elemPlace e) 8 (tok.payload.setWidth 32) (el.io.snapCut + 1) else landed) := by
  have takes : (((s.elem e).irrev.find? (·.ticket == t)).all fun i => targetLinked s e i.target) = true := by
    rcases found : (s.elem e).irrev.find? (·.ticket == t) with _ | i
    · rw [found]
      rfl
    · rw [found]
      exact linked i (List.mem_of_find?_eq_some found) (by simpa using List.find?_some found)
  show execKeystoneReply e s = _
  simp only [execKeystoneReply, news, arrives, takes, decide_true, Bool.and_self, if_true]
  rfl

theorem exec_keystoneReply_applied {due target : Nat} {rest : List KsIn} (news : (s.elem e).ksIn = .applied due target :: rest)
    (arrives : due ≤ s.round) {tg : KsTarget} (found : ((s.elem e).targets.find? (·.1 == target)).map Prod.snd = some tg)
    (linked : targetLinked s e target = true) :
    let freed := s.setElem e { s.elem e with ksIn := rest, ksOut := (s.elem e).ksOut.put 0 target ((s.elem e).ksOut.get 0 target - 1) }
    exec (.keystoneReply e) s = .next (if tg.orderIn.isSome then oweOrder freed (orderChan e target) else freed) := by
  show execKeystoneReply e s = _
  simp only [execKeystoneReply, news, arrives, linked, found, decide_true, Bool.and_self, if_true, Option.bind_some]
  cases tg.orderIn <;> rfl

end

/-- A channel that owes an order token sends it where a credit is held (R211). -/
theorem oweOrder_eq (s : State) (ch : Nat) :
    oweOrder s ch = if (s.chan ch).sent - (s.chan ch).returned < chanSlots (s.setChan ch { s.chan ch with owed := (s.chan ch).owed + 1 }) ch
      then ((s.setChan ch { s.chan ch with owed := (s.chan ch).owed + 1 }).setChan ch (s.chan ch)).sendOn ch ⟨0, 0, 0⟩ 1
      else s.setChan ch { s.chan ch with owed := (s.chan ch).owed + 1 } := by
  simp [oweOrder, payOwed, creditHeld]

end Sys2Proof.Machine

namespace Sys2Proof.Claims

open Sys2Proof.Machine

/-- Settles O54. A lemma for each event says what it does (`exec_updateIssue`, `exec_keystoneForward`, …); the port's clauses rest on
what a release leaves of it (`releasePosted_elem`). -/
theorem keystoneEvents : Obligations.KeystoneEvents := by
  refine ⟨fun s ks => ⟨fun a rest inq mapped arrived free => ?issues, fun a rest r inq last stalls => ?stalled,
      fun dst copy hold inq other => ?copies, fun dst a rest fwd waits => ?forwards, fun v => ?range⟩,
    fun k idx b src arr bar => ?updates, fun k idx t a g b src arr bar ht ha hg word => ?barrier,
    fun s e => ⟨?departs, fun i => sendIrrev_elem s e i, fun due t tok rest news arrives linked => exec_keystoneReply_reply news arrives linked,
      fun due target tg k rest news arrives found linked => ?applied, fun ch => ?owes, fun n => ?release⟩⟩
  case issues =>
    have ready := mayIssue_of arrived free
    have issue := exec_updateIssue inq
    rw [mapped, ready] at issue
    refine ⟨fun turn good => ?_, fun turn bad => ?_, fun turn => ?_⟩
    · rw [issue, turn, good]
      rfl
    · rw [issue, turn, bad]
      refine ⟨fun c src => ?_, fun id dev posted src => ?_, fun e target ticket src region => ?_⟩
      · simp only [refuseUpdate, src]
        rfl
      · refine ⟨_, rfl, ?_⟩
        simp only [refuseUpdate, src]
        exact ⟨rfl, rfl, rfl⟩
      · have held : (s.regionOf (Key.pkOfElem e)).isSome = true := Option.isSome_iff_ne_none.2 region
        simp only [refuseUpdate, src, held]
        rfl
    · rw [issue, turn]
      rfl
  case stalled =>
    rw [exec_updateIssue inq, mayIssue_stalled last stalls]
    simp
  case copies =>
    refine ⟨_, exec_migrationCopyDone copy hold inq, ?_⟩
    rw [kstone_setKstone, kstone_setKstone_ne _ _ other, kstone_setKstone]
    exact ⟨rfl, rfl, rfl, rfl, rfl, rfl, rfl, rfl⟩
  case forwards =>
    obtain ⟨status, update⟩ := exec_keystoneForward fwd waits
    refine ⟨status, fun notStatus takes => ?_, fun notStatus full => ?_⟩
    · rw [update notStatus, takes]
      rfl
    · rw [update notStatus, full]
      rfl
  case range => exact ⟨exec_rangeWordWrite_off, exec_rangeWordWrite_bound, exec_rangeWordWrite_maps⟩
  case updates =>
    have new := get_apply_int idx b src arr bar
    refine ⟨new 0, (new 1).trans ?_, new 2, new 3, new 4, new 5, new 6, new 7, get_apply_cas idx b src arr bar, fun f => ?_,
      fun f j => get_apply_int_ne idx b src arr bar f⟩
    · simp only [ksInt]
      split <;> rfl
    · rw [apply_int idx b src arr bar]
      rfl
  case barrier =>
    intro r
    have arrival : r = _ := apply_arrival ht ha hg bar word b src arr
    refine ⟨fun waits => ?_, fun lasts => ?_, fun full => ?_⟩
    · rw [arrival, if_neg (by simp; omega), if_pos waits]
      exact ⟨rfl, Sparse.get_put_self _ _ _ _, rfl⟩
    · rw [arrival, if_neg (by simp; omega), if_neg (by omega)]
      exact ⟨Sparse.get_put_self _ _ _ _, rfl⟩
    · rw [arrival, if_pos (by simp; omega)]
      exact ⟨rfl, rfl⟩
  case departs =>
    intro rk i region irrev unsent r
    have departs := exec_irrevocableDeparture region
    refine ⟨fun posted released past takes => ?_, fun early => ?_⟩
    · rw [departs, if_pos past, irrev]
      exact congrArg _ (sendPort_alone irrev posted unsent released takes)
    · rw [departs, if_neg (Nat.not_lt.2 early)]
  case applied =>
    have ends := exec_keystoneReply_applied news arrives found linked
    refine ⟨fun order => ?_, fun order => ?_⟩
    · rw [ends, order]
      rfl
    · rw [ends, order]
      rfl
  case owes =>
    exact ⟨fun credit => (oweOrder_eq s ch).trans (if_pos credit), fun full => (oweOrder_eq s ch).trans (if_neg (Nat.not_lt.2 full))⟩
  case release =>
    refine ⟨?_, fun p held late => ?_, fun i rest irrev unsent first released p held after => ?_, fun p posted irrev released takes => ?_⟩
    · rw [releasePort, kept_releasePosted, State.modElem, elem_setElem]
    · exact mem_posted_releasePosted held (Nat.lt_of_le_of_lt (postedUpto_le _ n) late)
    · refine mem_posted_releasePosted held ?_
      rw [postedUpto_unsent irrev unsent released]
      omega
    · exact releasePosted_one posted irrev released takes

end Sys2Proof.Claims
end

section
/-! PROOFS. Commands of an element: tokens of 64 bits, posted and irrevocable keystone commands, and SCHD (R202, R205, R208-R210, R223,
R246, R267, R342). What the forms of a table share is one equation between two maps over the table, which `rfl` computes. -/

namespace Sys2Proof.Machine

open Sys2Proof.Claims

/-! ### Tokens of 64 bits (R223, R246, R267) -/

theorem exec_tokenRows (x : EA) (s : State) : ∀ row ∈ tokenRows, exec (row.1 x) s = runCommand (row.1 x).op row.2 x s :=
  List.map_inj_left.1 rfl

theorem info_tokenRows (x : EA) : ∀ row ∈ tokenRows, (opInfo (row.1 x).op (.ea x row.2)).isSome = true := List.map_inj_left.1 rfl

/-- The state after a token of 64 bits has gone to an output, in round `n`. -/
noncomputable def tokenSent (s : State) (e slot : Nat) (x : Body) (payload : Dword) (form : BitVec 3) (out : Option Nat)
    (n : Nat) : State :=
  (takeInputs s e x.dq none).modElem e fun el =>
    let el := match out with
      | some k => el.reserve k { tok := ⟨0, payload, form⟩, ready := n + 1 }
      | none => el
    (el.result n 1 [] (puWrite x.pu false)).noAbort slot

/-- A token of 64 bits on an output with room is ready in the round after the firing. -/
theorem fireToken_output {s : State} {e slot k : Nat} {x : Body} (room : Room s e x) (hk : k < 4) (hd : x.d.toNat = 20 + k) (o : OpInfo)
    (payload : Dword) (form : BitVec 3) : fireToken s e slot o x payload form = tokenSent s e slot x payload form (some k) s.round :=
  Eq.trans (b := tokenSent s e slot x payload form (outOf x.d) _) (if_neg (ne_true_of_eq_false (outFull_of_room room o)))
    (congr (congrArg (tokenSent s e slot x payload form) (outOf_output hk hd)) (takeInputs_round s e x.dq none))

/-- What stands above `y` counts by `2 ^ n`. -/
theorem toNat_append_eq {m n : Nat} (x : BitVec m) (y : BitVec n) : (x ++ y).toNat = x.toNat * 2 ^ n + y.toNat :=
  (BitVec.toNat_append x y).trans ((Nat.shiftLeft_add_eq_or_of_lt y.isLt _).symm.trans (congrArg (· + y.toNat) (Nat.shiftLeft_eq ..)))

/-- The coefficient entry of MXQ (R267): bit 63 is the complement of bit 15 of B, and the index stands above A. -/
theorem mxqEntry_eq (a b : Word) :
    (if b.getLsbD 15 then 0 else 1 : BitVec 1) ++ (0#19 ++ (b.setWidth 12 ++ a))
      = BitVec.ofNat 64 ((if b.getLsbD 15 then 0 else 2 ^ 63) + b.toNat % 4096 * 2 ^ 32 + a.toNat) := by
  have low : (0#19 ++ (b.setWidth 12 ++ a)).toNat = b.toNat % 4096 * 2 ^ 32 + a.toNat :=
    (toNat_append_eq ..).trans ((Nat.zero_add _).trans (toNat_append_eq ..))
  refine (BitVec.setWidth_eq _).symm.trans ((BitVec.ofNat_toNat 64 _).symm.trans (congrArg _ ?_))
  have high := apply_ite (fun x : BitVec 1 => x.toNat * 2 ^ 63) (b.getLsbD 15 = true) 0 1
  exact (toNat_append_eq ..).trans ((congr (congrArg _ high) low).trans (Nat.add_assoc ..).symm)

/-! ### Posted keystone commands and requests to the schedule node (R202, R205, R208, R342) -/

theorem exec_postedRows (x : EA) (s : State) : ∀ row ∈ postedRows,
    exec (row.1 x) s = runPosted (row.1 x).op x ((row.1 x).body?.elim 0 Body.f) row.2 s := List.map_inj_left.1 rfl

theorem info_postedRows (x : EA) : ∀ row ∈ postedRows,
    (opInfo (row.1 x).op (.ea x ((row.1 x).body?.elim 0 Body.f))).map (fun o => (o.d, o.lat)) = some (.zero, 1) := List.map_inj_left.1 rfl

theorem exec_schdRows (x : EA) (s : State) :
    ∀ row ∈ ([(.schdNext, 0, false), (.schdReset, 1, true)] : List ((EA → Instr) × BitVec 3 × Bool)),
    exec (row.1 x) s = runSchd row.2.1 row.2.2 x s := List.map_inj_left.1 rfl

theorem info_schdRows (x : EA) :
    ∀ row ∈ ([(.schdNext, 0, false), (.schdReset, 1, true)] : List ((EA → Instr) × BitVec 3 × Bool)),
    (opInfo 0x3E (.ea x row.2.1)).map (fun o => (o.d, o.lat)) = some (.zero, 1) := List.map_inj_left.1 rfl

/-- A choice of the next state, as the outcomes that it allows. -/
theorem outcomes_of_ite {p q : Prop} [Decidable p] {r : Out} {t u : State} (apart : q → ¬p) (h : r = .next (if p then t else u)) :
    (q → r = .next u) ∧ (p → r = .next t) :=
  ⟨fun other => h.trans (congrArg _ (if_neg (apart other))), fun yes => h.trans (congrArg _ (if_pos yes))⟩

/-- A rule of latency 1 without a destination writes nothing: its firing only takes, and does what the opcode adds. -/
theorem runElem_zero {s t : State} {e slot op : Nat} {y : Body} {el : Nat → Nat → OpInfo → State} (hcur : s.cur = .element e slot)
    (info : (opInfo op y).map (fun o => (o.d, o.lat)) = some (.zero, 1))
    (ends : ∀ o, (∀ post, fireValue s e slot o y 0 false 0 0 post none = valueFired s e slot 1 y 24 0 false 0 0 post) →
      el e slot o = t) :
    runElem op y s el = .next t :=
  (Option.map_eq_some_iff.1 info).elim fun o row => (runShared_elem hcur row.1 el _).trans (congrArg _ (ends o fun _ =>
    fireValue_discard (noTrap_zero s e) 1 (Prod.mk.inj row.2).2 ((Prod.mk.inj row.2).1 ▸ of_decide_eq_true rfl)))

/-- A posted command waits in the port for the cut that releases it. -/
noncomputable def postedHeld (a b : Word) (kop : KOp) (el : Elem) : Elem :=
  { el with posted := el.posted ++ [⟨a.toNat / 1024 % 4, ⟨kop, a.toNat % 1024, b⟩, el.io.snapCut + 1⟩] }

/-- A request in the queue of the schedule node of a plane: the node serves it from the next round on. -/
noncomputable def schdAsked (pk : Nat) (reset : Bool) (n : Nat) (t : State) : State :=
  t.setSched pk { t.sched pk with reqs := (t.sched pk).reqs ++ [(reset, n + 1)] }

section
variable {s : State} {e slot : Nat} {x : EA} {f : BitVec 3} {r : Out}

/-- A posted command stays in the port, unless the port refuses it. -/
theorem posted_outcomes {op : Nat} {kop : KOp} (means : r = runPosted op x f kop s) (hcur : s.cur = .element e slot)
    (info : (opInfo op (.ea x f)).map (fun o => (o.d, o.lat)) = some (.zero, 1)) :
    let a := readSpec s e (.ea x f) x.a
    let b := readSpec s e (.ea x f) x.b
    (ksRefused s e a kop true = false → r = .next (valueFired s e slot 1 (.ea x f) 24 0 false 0 0 (postedHeld a b kop)))
      ∧ (ksRefused s e a kop true = true → r = .next (s.abort e slot .engineRefused)) := by
  intro a b
  exact outcomes_of_ite ne_true_of_eq_false
    (means.trans (runElem_zero hcur info fun _ fire => congrArg (ite _ _) (fire (postedHeld a b kop))))

/-- A request to the schedule node, which refuses a fifth. -/
theorem schd_outcomes {reset : Bool} (means : r = runSchd f reset x s) (hcur : s.cur = .element e slot)
    (info : (opInfo 0x3E (.ea x f)).map (fun o => (o.d, o.lat)) = some (.zero, 1)) :
    ((s.sched (e / 16)).reqs.length < 4 → r = .next (schdAsked (e / 16) reset s.round (valueFired s e slot 1 (.ea x f) 24 0 false)))
      ∧ (4 ≤ (s.sched (e / 16)).reqs.length → r = .next (s.abort e slot .engineRefused)) :=
  outcomes_of_ite Nat.not_le_of_lt (means.trans (runElem_zero hcur info fun _ fire => congrArg (ite _ _)
    ((congrArg (fun t => schdAsked (e / 16) reset t.round t) (fire id)).trans
      (congrArg (schdAsked (e / 16) reset · _) (takeInputs_round s e x.dq none)))))

end

/-! ### Irrevocable keystone commands (R202, R205, R209, R210) -/

theorem exec_amorRows (x : EA) (s : State) : ∀ row ∈ amorRows,
    exec (row.1 x) s = runIrrevocable 0x3B x ((row.1 x).body?.elim 0 Body.f) (fun _ _ => row.2) s := List.map_inj_left.1 rfl

/-- AMOR writes D: the rows of its forms in the opcode map are alike. -/
theorem writesD_amorRows (x : EA) (row) (h : row ∈ amorRows) :
    WritesD row.1 ((row.1 x).body?.elim 0 Body.f) 0x3B ⟨0x3B, .dst, .src, .src, true, false, true, .c, 0⟩ where
  body y := (List.map_inj_left.1 rfl : ∀ row ∈ amorRows, (row.1 y).body? = some (.ea y ((row.1 x).body?.elim 0 Body.f))) row h
  opcode y := (List.map_inj_left.1 rfl : ∀ row ∈ amorRows, (row.1 y).op = 0x3B) row h
  info y := (List.map_inj_left.1 rfl : ∀ row ∈ amorRows, opInfo 0x3B (.ea y ((row.1 x).body?.elim 0 Body.f)) = some _) row h
  dest _ := rfl

/-- The state after AMOR or AMOC has fired: its reply is reserved, its port holds the command, and an early cut is asked for. -/
noncomputable def irrevFired (s : State) (e slot : Nat) (y : Body) (d : BitVec 5) (a b : Word) (kop : KOp) : State :=
  ((awaited s e slot y d).modElem e fun el => { el with
    irrev := el.irrev ++ [{ target := a.toNat / 1024 % 4, cmd := ⟨kop, a.toNat % 1024, b⟩, ticket := s.nextTicket
                            cut := el.io.snapCut + 1 }] }).askCut (e / 16)

/-- The state after the first abort that holds, in the order of R88, or after the firing where none does. -/
noncomputable def firstAbort (outFull notClean engineRefused fired : State) (full clean refused : Bool) : State :=
  if full then outFull else if !clean then notClean else if refused then engineRefused else fired

/-- What each combination of the three conditions leads to; the firing may be given in another form (`same`). -/
theorem outcomes_of_firstAbort {r : Out} {room : Prop} {full clean refused : Bool} {outFull notClean engineRefused reached fired : State}
    (fits : room → full = false) (blocked : ¬room → full = true)
    (h : r = .next (firstAbort outFull notClean engineRefused reached full clean refused)) (same : reached = fired) :
    (room → clean = true → refused = false → r = .next fired) ∧ (¬room → r = .next outFull)
      ∧ (room → clean = false → r = .next notClean) ∧ (room → clean = true → refused = true → r = .next engineRefused) :=
  ⟨fun ok c a => h.trans (congrArg _ ((congr (congr (congrArg _ (fits ok)) c) a).trans same)),
   fun no => h.trans (congrArg _ (if_pos (blocked no))),
   fun ok c => h.trans (congrArg _ (congrFun (congr (congrArg _ (fits ok)) c) refused)),
   fun ok c a => h.trans (congrArg _ (congr (congr (congrArg _ (fits ok)) c) a))⟩

/-- The four ways in which an irrevocable command that an element fires ends. -/
theorem WritesD.irrevocable_outcomes {mk : EA → Instr} {op : Nat} {f : BitVec 3} {o : OpInfo} {s : State} {e slot : Nat} {x : EA}
    (h : WritesD mk f op o) {kop : State → Nat → KOp} (means : exec (mk x) s = runIrrevocable op x f kop s)
    (fires : ElemFires s e slot (mk x)) :
    let y := Body.ea x f
    let a := readSpec s e y x.a
    (Room s e y → cleanInterval s e = true → ksRefused s e a (kop s e) false = false →
        exec (mk x) s = .next (irrevFired s e slot y x.d a (readSpec s e y x.b) (kop s e)))
      ∧ (¬Room s e y → exec (mk x) s = .next (s.abort e slot .outFull))
      ∧ (Room s e y → cleanInterval s e = false → exec (mk x) s = .next (s.abort e slot .notClean))
      ∧ (Room s e y → cleanInterval s e = true → ksRefused s e a (kop s e) false = true →
        exec (mk x) s = .next (s.abort e slot .engineRefused)) := by
  intro y a
  exact outcomes_of_firstAbort (reached := irrevFired s e slot y (destCode o y) a _ _)
    (fun room => outFull_of_room room o) (h.outFull_of_not_room fires)
    (means.trans (runShared_elem fires.here (h.info x) _ _)) (congrArg (irrevFired s e slot y · a _ _) (h.dest y))

end Sys2Proof.Machine

namespace Sys2Proof.Claims

open Sys2Proof.Machine

/-- Settles O45. A token goes out where D has room (`fireToken_output`); a posted command and a request to the schedule node go by the
refusal of the unit that takes them (`posted_outcomes`, `schd_outcomes`). -/
theorem elemCommands : Obligations.ElemCommands := by
  refine ⟨?tokens, ?requests⟩
  case tokens =>
    intro s e slot k x hk hd sent
    refine ⟨?_, ?_⟩
    · intro row hrow fires room
      exact (Option.isSome_iff_exists.1 (info_tokenRows x row hrow)).elim fun o info => (exec_tokenRows x s row hrow).trans
        ((runShared_elem fires.here info _ _).trans (congrArg _ (fireToken_output room hk hd o _ row.2)))
    · intro fires room a b
      exact (runShared_elem fires.here rfl _ _).trans (congrArg _
        ((congrArg (fireToken s e slot _ _ · 0) (mxqEntry_eq a b)).trans (fireToken_output room hk hd _ _ 0)))
  case requests =>
    intro s e slot x
    refine ⟨?_, ?_⟩
    · intro row f hrow hbody fires
      have form : (row.1 x).body?.elim 0 Body.f = f := congrArg (·.elim 0 Body.f) hbody
      exact posted_outcomes (form ▸ exec_postedRows x s row hrow) fires.here (form ▸ info_postedRows x row hrow)
    · intro op f reset hop fires
      exact schd_outcomes (exec_schdRows x s _ hop) fires.here (info_schdRows x _ hop)

/-- Settles O46. The four outcomes are those of any irrevocable command (`WritesD.irrevocable_outcomes`): the forms of AMOR write D
(`writesD_amorRows`), and so does AMOC. -/
theorem elemIrrevocable : Obligations.ElemIrrevocable := by
  intro s e slot x f y a fires
  refine ⟨?_, ?_⟩
  · intro row hrow hbody
    have form : (row.1 x).body?.elim 0 Body.f = f := congrArg (·.elim 0 Body.f) hbody
    exact (form ▸ writesD_amorRows x row hrow).irrevocable_outcomes (form ▸ exec_amorRows x s row hrow)
  · have writes : WritesD (Instr.amoc · f) f 0x3C _ := ⟨fun _ => rfl, fun _ => rfl, fun _ => rfl, fun _ => rfl⟩
    exact writes.irrevocable_outcomes (kop := fun s e => .cas ((s.elem e).reg f.toNat)) rfl

end Sys2Proof.Claims
end

section
/-! PROOFS. Pages and migration of a mason core: TLBI, PWALK, MIGR and MIGQ (R185, R214, R316, R405). -/

namespace Sys2Proof.Machine

open Sys2Proof.Claims

section
variable {s t : State} {c op : Nat} {i : Instr} {x : EA} {f : BitVec 3} {k : Nat → Body → Dword → Dword → CoreRes}
  (runs : CoreRuns s c i) (body : i.body? = some (.ea x f)) (hop : i.op = op)
include runs body hop

/-- An operation ends as its meaning does for the registers that it reads. -/
theorem runSys_ends {r : CoreRes} (ends : k c (.ea x f) ((s.core c).reg x.a) ((s.core c).reg x.b) = r) :
    runSys op f x s k = .next (r.after s c) :=
  ends ▸ runSys_after runs body hop k

/-- An operation that answers writes D, updates PU and goes on. -/
theorem runSys_ret {v : Nat} (ends : k c (.ea x f) ((s.core c).reg x.a) ((s.core c).reg x.b) = ret t c (.ea x f) v) :
    runSys op f x s k = .next (coreWrote t c x.d x.pu (BitVec.ofNat 64 v)) :=
  runSys_ends runs body hop (ends.trans (ret_eq ..))

end

/-- What PWALK does with what its walk finds. -/
noncomputable def walkEnds (s : State) (c : Nat) (y : Body) (a : Dword) (va ctx : Nat) : WalkRes → CoreRes
  | .leaf lv d => ret (walkCorrected s va ctx) c y (leafPlace lv d va)
  | .notPresent _ => ret (walkCorrected s va ctx) c y (2 ^ 60)
  | .malformed _ => ret (walkCorrected s va ctx) c y (2 ^ 61)
  | .ecc _ _ => .trap Cause.ecc 0 a

/-- What MIGR does with the home that its core waits for, and with the keystones that its operands name. -/
noncomputable def migrEnds (s : State) (c : Nat) (y : Body) (busy from? to? : Option Nat) : CoreRes :=
  match busy with
  | some old => if (s.kstone old).fwd.isSome then ret (s.setCore c { s.core c with busyTo := none }) c y 0 else hold s c
  | none =>
    match from?, to? with
    | some old, some new =>
      let k := s.kstone old
      if old = new || k.words ≠ (s.kstone new).words then ret s c y codeArg
      else if k.fwd.isSome || k.hold then ret s c y codeState
      else
        let s := s.setKstone old { k with hold := true, copyTo := some new }
        .done (s.setCore c { s.core c with busyTo := some old })
    | _, _ => ret s c y codeArg

/-- What MIGQ does with the keystone that its operand names. -/
noncomputable def migqEnds (s : State) (c : Nat) (y : Body) : Option Nat → CoreRes
  | some ks =>
    let k := s.kstone ks
    ret s c y (k.hold.toNat * 2 ^ 17 + k.fwd.isSome.toNat * 2 ^ 16 + k.waitQ.length)
  | none => ret s c y codeArg

/-- PWALK ends as its walk does; a canonical address is walked as it stands. -/
theorem exec_pwalk {s : State} {c : Nat} {x : EA} (runs : CoreRuns s c (.pwalk x)) (canonical : ((s.core c).reg x.a).toNat < 2 ^ 56)
    {w : WalkRes} {r : CoreRes} :
    let a := (s.core c).reg x.a
    let ctx := ((s.core c).reg x.b).toNat % 4096
    walk s a.toNat ctx = w → walkEnds s c (.ea x 1) a a.toNat ctx w = r → exec (.pwalk x) s = .next (r.after s c) := by
  intro a ctx found ends
  refine (runSys_ends (k := fun c y a b =>
      walkEnds s c y a (a.toNat % 2 ^ 56) (b.toNat % 4096) (walk s (a.toNat % 2 ^ 56) (b.toNat % 4096)))
    runs rfl rfl (.trans ?_ ends) : execPwalk x s = _)
  exact found ▸ congrArg (fun va => walkEnds s c (.ea x 1) a va ctx (walk s va ctx)) (Nat.mod_eq_of_lt canonical)

end Sys2Proof.Machine

namespace Sys2Proof.Claims

open Sys2Proof.Machine

/-- Settles O28. Each operation ends where the branches of its meaning lead (`runSys_ends`, and `runSys_ret` where it answers); what PWALK
does goes by the result of its walk (`exec_pwalk`). -/
theorem corePages : Obligations.CorePages := by
  intro s c x k a b
  refine ⟨?_, ?_, ?_, ?_⟩
  · intro runs
    refine ⟨?_, ?_⟩
    · intro small
      exact (runSys_ret runs rfl rfl (if_neg (not_not_intro (Nat.div_eq_of_lt small))) : execTlbi x s = _)
    · intro large
      exact (runSys_ret runs rfl rfl (if_pos (Nat.div_pos large (Nat.two_pow_pos 15)).ne') : execTlbi x s = _)
  · intro runs canonical ctx found
    refine ⟨?_, ?_, ?_, ?_⟩
    · intro lv d h
      exact exec_pwalk runs canonical h (ret_eq ..)
    · intro lv h
      exact exec_pwalk runs canonical h (ret_eq ..)
    · intro lv h
      exact exec_pwalk runs canonical h (ret_eq ..)
    · intro lv p h tip
      exact (exec_pwalk runs canonical h rfl).trans (congrArg _ (takeTrap_ecc s c 0 a tip))
  · intro runs
    refine ⟨?_, ?_⟩
    · intro old new idle home target other size stays free
      exact (runSys_ends (k := fun c y a b => migrEnds s c y (s.core c).busyTo (ksArg s a) (ksArg s b)) runs rfl rfl
        ((congr (congr (congrArg _ idle) home) target).trans
          ((if_neg (ne_true_of_eq_false (congr (congrArg or (decide_eq_false other)) (decide_eq_false (not_not_intro size))))).trans
            (if_neg (ne_true_of_eq_false (congr (congrArg or (congrArg Option.isSome stays)) free))))) : execMigr x s = _)
    · intro old busy forwards
      exact (runSys_ret (k := fun c y a b => migrEnds s c y (s.core c).busyTo (ksArg s a) (ksArg s b)) runs rfl rfl
        ((congrArg (migrEnds s c (.ea x 2) · (ksArg s a) (ksArg s b)) busy).trans (if_pos forwards)) : execMigr x s = _)
  · intro runs
    refine ⟨?_, ?_⟩
    · intro ks named
      exact (runSys_ret runs rfl rfl (congrArg (migqEnds s c (.ea x 3)) named) : execMigq x s = _)
    · intro unnamed
      exact (runSys_ret runs rfl rfl (congrArg (migqEnds s c (.ea x 3)) unnamed) : execMigq x s = _)

end Sys2Proof.Claims
end
